-- ==== Sys2Proof/Word.lean ====
section
/-! DEFINITION. The word types of the Olisto DL512 and their plainest arithmetic (00_scope R12: bit 0 is the least
significant bit; multi-byte values are little-endian). -/

namespace Sys2Proof

/-- One byte of scratchpad or of global memory. -/
abbrev Byte := BitVec 8
/-- One instruction word (R16). -/
abbrev W32 := BitVec 32
/-- One doubleword: a register, a message word, a virtual address (R12). -/
abbrev W64 := BitVec 64
/-- The 64-bit name of an actor (R305). -/
abbrev ActorName := BitVec 64

/-- Bits `hi:lo` of a number, both ends included (R12). -/
def bits (w hi lo : Nat) : Nat := w / 2 ^ lo % 2 ^ (hi - lo + 1)

/-- Bit `k` of a number. -/
def bit (w k : Nat) : Bool := w / 2 ^ k % 2 == 1

/-- The number of a truth value. -/
def ofBool (b : Bool) : Nat := if b then 1 else 0

/-- A field value read as a two's-complement number of `w` bits. -/
def signed (w v : Nat) : Int := if v < 2 ^ (w - 1) then (v : Int) else (v : Int) - 2 ^ w

/-- Little-endian bytes of a number, `n` of them (R12). -/
def bytesOf : Nat → Nat → List Byte
  | 0, _ => []
  | n + 1, v => BitVec.ofNat 8 v :: bytesOf n (v / 256)

/-- The number that a list of bytes holds, least significant byte first (R12). -/
def ofBytes : List Byte → Nat
  | [] => 0
  | b :: bs => b.toNat + 256 * ofBytes bs

/-- Division rounding up. -/
def ceilDiv (a b : Nat) : Nat := (a + b - 1) / b

end Sys2Proof
end

