-- ==== Sys2Proof/Syntax.lean ====
section
/-! DEFINITION. The syntax of the part: operand forms of 01_encoding (R20 to R31), the plain data that events of the
part carry, and the ONE inductive `Instr`: one constructor per row of the opcode table, 198 instructions and 86 events
(95_what_each_step_holds). -/

namespace Sys2Proof

/-- Operand width `w` (R21): `.b` 8, `.h` 16, `.w` 32, `.d` 64 bits. -/
inductive Width | w8 | w16 | w32 | w64
  deriving DecidableEq, Repr

/-- A scalar operand selector (R29). `h k` is the queue entry h(k+1); `m k`, `s k` are m k and s k. -/
inductive Scalar
  | zero | h (k : Fin 16) | m (k : Fin 4) | self | sender | chan | s (k : Fin 16)
  deriving DecidableEq, Repr

/-- A tile operand that names a tile (R30): a handle or a slot of a ring cursor. -/
inductive TileSel
  | t (k : Fin 32) | q (n k : Fin 4)
  deriving DecidableEq, Repr

/-- The A operand of `mma` and `mmas` (R240): a tile or the A latch. -/
inductive OpA | tile (t : TileSel) | la
  deriving DecidableEq, Repr
/-- The B operand of `mma` and `mmas` (R240): a tile or the B latch. -/
inductive OpB | tile (t : TileSel) | lb
  deriving DecidableEq, Repr
/-- The source of `macc` (R240): a tile or an accumulator. -/
inductive OpC | tile (t : TileSel) | acc (k : Fin 4)
  deriving DecidableEq, Repr

/-- The guard of a Q-form instruction (R21, R23). -/
structure Guard where
  p  : Fin 8
  pn : Bool
  deriving DecidableEq, Repr

/-- A rounding mode (R147). -/
inductive Rnd | rne | rz | ru | rd | sr
  deriving DecidableEq, Repr

/-- A comparison condition (R181). -/
inductive Cond | eq | ne | lt | ge | ltu | geu | le | gt | leu | gtu | un | ord
  deriving DecidableEq, Repr

/-- A conversion kind of `fcvt` (R180). -/
inductive CvtKind | f2i | f2u | i2f | u2f | f2b | b2f | f2h | h2f
  deriving DecidableEq, Repr

/-- A semiring (R161). -/
inductive SemiRing | pt | minp | maxp | maxt | orand
  deriving DecidableEq, Repr

/-- Memory ordering of an access (R201, R214). -/
inductive Sem | relaxed | acq | rel | ar
  deriving DecidableEq, Repr

/-- Scope of an ordering (R201, R294). -/
inductive Scope | a | c | k | p
  deriving DecidableEq, Repr

/-- A word of a parameter block that is not a control word (R27): a constant, or a marker that substitutes an operand. -/
inductive PWord | const (v : W32) | subst (sel : Scalar)
  deriving DecidableEq, Repr

/-- The global side of a copy instruction (R200). -/
inductive GForm | g2 | g4 | gt (tile : TileSel)
  deriving DecidableEq, Repr

/-- The level of `kill` (R279, R282). -/
inductive KillLevel | act | coh | tree | job
  deriving DecidableEq, Repr

/-- The operation of a reduction object (R216). -/
inductive RedOp | sum | min | max
  deriving DecidableEq, Repr

/-- Word 1 and word 2 of the vector group (R245): the fields that every vector instruction shares. -/
structure VExt where
  c   : TileSel
  sx  : Scalar
  rnd : Rnd
  sat : Bool
  lua : Bool
  lub : Bool
  luc : Bool
  xs  : Bool
  fx  : Fin 16
  k   : W32
  deriving DecidableEq, Repr

/-- The common operands of `tfetch`, `twrite` and the index forms (R200, R201). -/
structure CopyArgs where
  tile : TileSel
  gf   : GForm
  lu   : Bool
  p0   : PWord
  p1   : PWord
  p2   : PWord
  sem  : Sem
  sc   : Scope
  wbar : Fin 9
  deriving DecidableEq, Repr

/-- The payload and channel of a message instruction (R265). -/
structure SendArgs where
  pl  : List Scalar
  bnc : Bool
  ch  : Fin 14
  tl  : List TileSel
  ys  : Fin 8
  deriving DecidableEq, Repr

/-- A tile-table entry (R115) as its fields. `state` is the number of the table. -/
inductive TileState | free | empty | filling | ready | draining | given | latched
  deriving DecidableEq, Repr

/-- A tile-table entry (R115). -/
structure TileEnt where
  loc   : BitVec 56 := 0
  pitch : BitVec 24 := 0
  rows  : BitVec 8 := 0
  cols  : BitVec 11 := 0
  fmt   : Fin 16 := 0
  bar   : Fin 9 := 0
  drn   : Nat := 0
  glob  : Bool := false
  lu    : Bool := false
  state : TileState := .free
  deriving DecidableEq, Repr

/-- A message (R260), its integrity check being a function of the other fields (R261). `m` and `caps` have four places. -/
structure Msg where
  dest   : ActorName := 0
  sender : ActorName := 0
  seq    : Nat := 0
  rgen   : Fin 16 := 0
  slot   : Fin 8 := 0
  plen   : Nat := 0
  rep    : Bool := false
  down   : Bool := false
  exit   : Bool := false
  bounce : Bool := false
  call   : Bool := false
  cprio  : Fin 8 := 0
  chan   : Fin 16 := 0
  m      : List W64 := []
  pois   : Bool := false
  caps   : List TileEnt := []
  deriving DecidableEq, Repr

/-- The agent at which a global address executes (R15, R89): a slice, a switch plane or the PCIe host port. -/
inductive Home | slice (n : Nat) | plane (p : Nat) | hostPort
  deriving DecidableEq, Repr

/-- The control granule of a reduction packet (R219). -/
structure RcCtl where
  npc  : Nat := 1
  pc   : Nat := 0
  tva  : Nat := 0
  iss  : ActorName := 0
  rcp  : ActorName := 0
  ch   : Nat := 0
  rows : Nat := 1
  cols : Nat := 1
  op   : RedOp := .sum
  desc : W64 := 0
  k    : Nat := 0
  lead : Nat := 0
  deriving DecidableEq, Repr

/-- What a request asks of its home (R74). -/
inductive PKind | rd | wr | wrm | at_ | rc | rcDecl
  deriving DecidableEq, Repr

/-- A request packet (R74) with the requester's own record of what it serves (`cell`, `xid`, `piece`, `owner`). -/
structure Packet where
  kind  : PKind := .rd
  home  : Home := .hostPort
  rq    : Nat := 0
  tag   : Nat := 0
  pa    : Nat := 0
  len   : Nat := 0
  data  : List Byte := []
  mask  : Nat := 0
  pois  : List Nat := []
  aop   : Nat := 0
  v     : W64 := 0
  c     : W64 := 0
  reqid : Nat := 0
  rc    : RcCtl := {}
  owner : ActorName := 0
  xid   : Nat := 0
  piece : Nat := 0
  deriving DecidableEq, Repr

/-- A reply (R74): RDR, WACK, ATR or RCA. `val` is the ATR's old value, `st` the RCA's status, `pois` the poisoned granules. -/
structure Reply where
  kind  : PKind := .rd
  home  : Home := .hostPort
  rq    : Nat := 0
  tag   : Nat := 0
  pa    : Nat := 0
  len   : Nat := 0
  data  : List Byte := []
  pois  : List Nat := []
  val   : W64 := 0
  st    : Nat := 0
  aop   : Nat := 0
  reqid : Nat := 0
  owner : ActorName := 0
  xid   : Nat := 0
  piece : Nat := 0
  deriving DecidableEq, Repr

/-- The class of a walk's answer (R101). -/
inductive WalkClass | mapped | absent | none
  deriving DecidableEq, Repr

/-- What asked for an actor's placement (R276, R277, R286, R327, R338, R354). -/
inductive SpawnKind | spawn | spawnc | supStart | root | restart | move
  deriving DecidableEq, Repr

/-- A request for the creation, or a new placement, of an actor or a cohort. `serial` is the first serial once it is allocated,
`cells` are the cells that the host has chosen so far (R402), `refs` where each member of a restart died (R338, R354), `runs` the first pages of the runs that it has named for the locked
host regions of the actors to be made, under `runKey`; none where it has no such run (R96, R402). -/
structure SpawnReq where
  kind   : SpawnKind := .spawn
  by_    : ActorName := 0
  tok    : Nat := 0
  job    : Nat := 0
  file   : Nat := 0
  img    : Nat := 0
  crec   : Nat := 0
  arg    : W64 := 0
  lnk    : Bool := false
  mon    : Bool := false
  cell   : Nat := 0
  chan   : Nat := 0
  seq    : Nat := 0
  serial : Nat := 0
  cells  : List Nat := []
  refs   : List Nat := []
  runs   : List (Nat × Option Nat) := []
  deriving DecidableEq, Repr

/-- A part of a packet inside a flit's payload (R384): its bytes (`more`: they go on from the flit before), the last part carrying what
arrives. -/
structure Chunk where
  data : List Byte
  last : Bool
  id   : Nat
  more : Bool := false
  deriving DecidableEq, Repr

/-- The kind of a UCIe flit (R366). -/
inductive FlitKind | data | idle | nak | retrain
  deriving DecidableEq, Repr

/-- A UCIe flit (R366) on its way: its fields, the packets in its payload, and the 256 bytes that the link carries. -/
structure Flit where
  kind : FlitKind := .data
  fseq : Nat := 0
  ack  : Option Nat := none
  pay  : List Chunk := []
  raw  : List Byte := []
  deriving DecidableEq, Repr

/-- What an event of the part acts on. An instruction's operands stand in its words; an event's stand here, each event
reading the fields that its meaning names: actors, numbers (a cell, a slot, a page, a register offset), flags, a packet,
a reply, a message with the bytes of its tiles and the transfers that carry them, a flit, a creation request, the answer of a walk, the level
of a kill. -/
structure EvArg where
  actor : ActorName := 0
  other : ActorName := 0
  n     : Nat := 0
  m     : Nat := 0
  k     : Nat := 0
  v     : W64 := 0
  flag  : Bool := false
  flag2 : Bool := false
  nats  : List Nat := []
  home  : Home := .hostPort
  pkt   : Packet := {}
  rep   : Reply := {}
  msg   : Msg := {}
  flit  : Flit := {}
  req   : SpawnReq := {}
  cls   : WalkClass := .none
  tiles : List (List Byte) := []
  xids  : List Nat := []
  lv    : Option KillLevel := none
  deriving DecidableEq, Repr

/-- The steps of the part, one constructor per row of the opcode table: 198 instructions and 86 events. An event's
constructor bears no fields (Lean's runtime numbers only the first 245 constructors that do). -/
inductive Instr
  -- maj 0x01 (R174)
  | add (w : Width) (a b : Scalar) (g : Guard)
  | sub (w : Width) (a b : Scalar) (g : Guard)
  | mul (w : Width) (a b : Scalar) (g : Guard)
  | mulh (w : Width) (a b : Scalar) (g : Guard)
  | mulhu (w : Width) (a b : Scalar) (g : Guard)
  | div (w : Width) (a b : Scalar) (g : Guard)
  | divu (w : Width) (a b : Scalar) (g : Guard)
  | rem (w : Width) (a b : Scalar) (g : Guard)
  | remu (w : Width) (a b : Scalar) (g : Guard)
  -- maj 0x02 (R174)
  | and (w : Width) (a b : Scalar) (g : Guard)
  | or (w : Width) (a b : Scalar) (g : Guard)
  | xor (w : Width) (a b : Scalar) (g : Guard)
  | andn (w : Width) (a b : Scalar) (g : Guard)
  | orn (w : Width) (a b : Scalar) (g : Guard)
  | shl (w : Width) (a b : Scalar) (g : Guard)
  | shr (w : Width) (a b : Scalar) (g : Guard)
  | sar (w : Width) (a b : Scalar) (g : Guard)
  | rol (w : Width) (a b : Scalar) (g : Guard)
  -- maj 0x03 (R174, R175)
  | min (w : Width) (a b : Scalar) (g : Guard)
  | max (w : Width) (a b : Scalar) (g : Guard)
  | minu (w : Width) (a b : Scalar) (g : Guard)
  | maxu (w : Width) (a b : Scalar) (g : Guard)
  | clz (w : Width) (a : Scalar) (g : Guard)
  | ctz (w : Width) (a : Scalar) (g : Guard)
  | popc (w : Width) (a : Scalar) (g : Guard)
  | sext (w : Width) (a : Scalar) (g : Guard)
  | zext (w : Width) (a : Scalar) (g : Guard)
  | bswap (w : Width) (a : Scalar) (g : Guard)
  -- maj 0x04, 0x05 (R176, R177)
  | addi (a : Scalar) (imm : BitVec 12)
  | andi (a : Scalar) (imm : BitVec 12)
  | ori (a : Scalar) (imm : BitVec 12)
  | xori (a : Scalar) (imm : BitVec 12)
  | shli (a : Scalar) (imm : BitVec 6)
  | shri (a : Scalar) (imm : BitVec 6)
  | sari (a : Scalar) (imm : BitVec 6)
  | li (imm : BitVec 12)
  | lit (v : W64)
  -- maj 0x06 (R178)
  | keep (d : Fin 16) (a : Scalar)
  | dup (a : Scalar) (g : Guard)
  | lea (w : Width) (a b : Scalar) (g : Guard)
  -- maj 0x08, 0x09 (R179, R180)
  | fadd (a b : Scalar) (g : Guard)
  | fsub (a b : Scalar) (g : Guard)
  | fmul (a b : Scalar) (g : Guard)
  | fdiv (a b : Scalar) (g : Guard)
  | fmin (a b : Scalar) (g : Guard)
  | fmax (a b : Scalar) (g : Guard)
  | fabs (a : Scalar) (g : Guard)
  | fsqrt (a : Scalar) (g : Guard)
  | ffma (a b c : Scalar) (dst : Option (Fin 16)) (rnd : Rnd) (sat : Bool) (g : Guard)
  | fcvt (kind : CvtKind) (w : Width) (a : Scalar) (dst : Option (Fin 16)) (rnd : Rnd) (sat : Bool) (g : Guard)
  -- maj 0x0C, 0x0D, 0x0E (R181 to R183)
  | pset (cond : Cond) (w : Width) (a b : Scalar) (dp : Fin 8) (g : Guard)
  | psetf (cond : Cond) (a b : Scalar) (dp : Fin 8) (g : Guard)
  | pand (d a b : Fin 8)
  | por (d a b : Fin 8)
  | pxor (d a b : Fin 8)
  | pnot (d a : Fin 8)
  | sel (a b : Scalar) (g : Guard)
  -- maj 0x10, 0x11 (R184, R186)
  | br (p : Fin 8) (off : BitVec 18)
  | bp (p : Fin 8) (off : BitVec 18)
  | call (p : Fin 8) (off : BitVec 18)
  | ret (p : Fin 8)
  | loop (p : Fin 8) (off : BitVec 18)
  | jmpx (a : Scalar) (g : Guard)
  -- maj 0x14, 0x15 (R187)
  | ld (w : Width) (a : Scalar) (g : Guard)
  | st (w : Width) (a b : Scalar) (g : Guard)
  | ldx (w : Width) (a b : Scalar) (disp : W32) (sx : Bool) (dst : Option (Fin 16)) (g : Guard)
  | stx (w : Width) (a b c : Scalar) (disp : W32) (g : Guard)
  -- maj 0x18, 0x19 (R195 to R199)
  | tfree (d : TileSel)
  | tstat (a : TileSel) (hi : Bool)
  | tzero (d : TileSel)
  | tdef (d : TileSel) (loc0 loc1 pitch : PWord) (rows : BitVec 8) (cols : BitVec 11) (fmt : Fin 16) (bar : Fin 9) (glob : Bool)
  | tview (d a : TileSel) (row0 : BitVec 7) (col0 : BitVec 10) (rows : BitVec 8) (cols : BitVec 11)
  -- maj 0x1A (R200 to R206)
  | tcopy (to_ from_ : TileSel) (lu : Bool)
  | tfetch (c : CopyArgs)
  | twrite (c : CopyArgs)
  | tgath (c : CopyArgs) (ix : TileSel)
  | tscat (c : CopyArgs) (ix : TileSel)
  -- maj 0x1B, 0x1C (R209 to R212)
  | rdef (d : Fin 4) (first : Fin 28) (count : Fin 9)
  | radv (d : Fin 4) (cons : Bool) (step : Fin 64)
  | rwait (d : Fin 4) (cons : Bool) (k : Fin 8)
  | binit (d : Fin 8) (a : Scalar)
  | bexp (d : Fin 8) (a : Scalar)
  | bwait (d : Fin 8) (a : Scalar) (b : Bool)
  | bstat (d : Fin 8) (hi : Bool)
  -- maj 0x20 to 0x22 (R234 to R243)
  | mclr (acc : Fin 4) (sr : SemiRing)
  | mlda (a : TileSel) (lu : Bool)
  | mldb (a : TileSel) (rl lu : Bool)
  | mtr (a : TileSel) (lat lu : Bool)
  | mrelay (a b : Scalar)
  | mma (acc : Fin 4) (a : OpA) (b : OpB) (sr : SemiRing) (lasta lastb : Bool)
  | mmas (acc : Fin 4) (a : OpA) (b : OpB) (sa sb : Option TileSel) (sr : SemiRing) (lasta lastb : Bool)
  | macc (acc : Fin 4) (a : OpC) (sr : SemiRing) (lasta : Bool)
  | mst (acc : Fin 4) (to_ : TileSel) (row0 col0 : BitVec 7) (clr sat : Bool) (rnd : Rnd)
  -- maj 0x24 to 0x2B (R249 to R259)
  | vadd (d a b : TileSel) (e : VExt)
  | vsub (d a b : TileSel) (e : VExt)
  | vmul (d a b : TileSel) (e : VExt)
  | vdiv (d a b : TileSel) (e : VExt)
  | vmin (d a b : TileSel) (e : VExt)
  | vmax (d a b : TileSel) (e : VExt)
  | vfma (d a b : TileSel) (e : VExt)
  | vabs (d a : TileSel) (e : VExt)
  | vneg (d a : TileSel) (e : VExt)
  | vexp (d a : TileSel) (e : VExt)
  | vexp2 (d a : TileSel) (e : VExt)
  | vlog (d a : TileSel) (e : VExt)
  | vrcp (d a : TileSel) (e : VExt)
  | vrsqrt (d a : TileSel) (e : VExt)
  | vsqrt (d a : TileSel) (e : VExt)
  | vtanh (d a : TileSel) (e : VExt)
  | vsigm (d a : TileSel) (e : VExt)
  | verf (d a : TileSel) (e : VExt)
  | vcmp (d a b : TileSel) (e : VExt)
  | vsel (d a b : TileSel) (e : VExt)
  | vrsum (d a : TileSel) (e : VExt)
  | vrmax (d a : TileSel) (e : VExt)
  | vrmin (d a : TileSel) (e : VExt)
  | vcsum (d a : TileSel) (e : VExt)
  | vscan (d a : TileSel) (e : VExt)
  | vcvt (d a : TileSel) (e : VExt)
  | vquant (d a : TileSel) (e : VExt)
  | vdeq (d a : TileSel) (e : VExt)
  | vscale (d a : TileSel) (e : VExt)
  | vtrans (d a : TileSel) (e : VExt)
  | vperm (d a b : TileSel) (e : VExt)
  | vgath (d a b : TileSel) (e : VExt)
  | vbcast (d a : TileSel) (e : VExt)
  | vpack (d a b : TileSel) (e : VExt)
  | vunpk (d a : TileSel) (e : VExt)
  | viadd (d a b : TileSel) (e : VExt)
  | visub (d a b : TileSel) (e : VExt)
  | vimul (d a b : TileSel) (e : VExt)
  | vand (d a b : TileSel) (e : VExt)
  | vor (d a b : TileSel) (e : VExt)
  | vxor (d a b : TileSel) (e : VExt)
  | vshl (d a b : TileSel) (e : VExt)
  | vshr (d a b : TileSel) (e : VExt)
  | vsmx (d a : TileSel) (e : VExt)
  | vlut (d a b : TileSel) (e : VExt)
  | vfill (d : TileSel) (e : VExt)
  -- maj 0x30 (R214, R215)
  | aadd (a b : Scalar) (dst : Option (Fin 16)) (sem : Sem) (sc : Scope) (nr : Bool) (disp : W32) (g : Guard)
  | aand (a b : Scalar) (dst : Option (Fin 16)) (sem : Sem) (sc : Scope) (nr : Bool) (disp : W32) (g : Guard)
  | aor (a b : Scalar) (dst : Option (Fin 16)) (sem : Sem) (sc : Scope) (nr : Bool) (disp : W32) (g : Guard)
  | axor (a b : Scalar) (dst : Option (Fin 16)) (sem : Sem) (sc : Scope) (nr : Bool) (disp : W32) (g : Guard)
  | amin (a b : Scalar) (dst : Option (Fin 16)) (sem : Sem) (sc : Scope) (nr : Bool) (disp : W32) (g : Guard)
  | amax (a b : Scalar) (dst : Option (Fin 16)) (sem : Sem) (sc : Scope) (nr : Bool) (disp : W32) (g : Guard)
  | aminu (a b : Scalar) (dst : Option (Fin 16)) (sem : Sem) (sc : Scope) (nr : Bool) (disp : W32) (g : Guard)
  | amaxu (a b : Scalar) (dst : Option (Fin 16)) (sem : Sem) (sc : Scope) (nr : Bool) (disp : W32) (g : Guard)
  | axchg (a b : Scalar) (dst : Option (Fin 16)) (sem : Sem) (sc : Scope) (nr : Bool) (disp : W32) (g : Guard)
  | acas (a b c : Scalar) (dst : Option (Fin 16)) (sem : Sem) (sc : Scope) (nr : Bool) (disp : W32) (g : Guard)
  -- maj 0x31 to 0x33 (R213, R216 to R218, R224 to R228)
  | robj (a : Scalar) (b : Fin 14) (p0 p1 p2 : PWord) (rows : BitVec 8) (cols : BitVec 11) (fmt : Fin 16) (op : RedOp)
  | ared (a : TileSel) (p0 p1 p2 : PWord) (lu : Bool)
  | fence (acq rel : Bool) (sc : Scope)
  | balloc (p0 p1 p2 : PWord) (mir com : Bool)
  | bfree (p0 p1 p2 : PWord)
  | xmap (p0 p1 p2 : PWord)
  | xunmap (p0 p1 p2 : PWord)
  -- maj 0x34, 0x35 (R265 to R274)
  | send (a : Scalar) (x : SendArgs) (g : Guard)
  | sendt (a : Scalar) (x : SendArgs) (g : Guard)
  | mcast (x : SendArgs) (g : Guard)
  | callRequest (a : Scalar) (x : SendArgs) (g : Guard)
  | reply (a b : Scalar) (pl : Scalar) (g : Guard)
  | await (a : Scalar) (b : Fin 8) (g : Guard)
  | end_ (g : Guard)
  -- maj 0x36 to 0x39 (R275 to R286)
  | spawn (img arg0 arg1 : PWord) (lnk mon : Bool)
  | spawnc (crec arg0 arg1 : PWord)
  | link (a : Scalar) (g : Guard)
  | unlink (a : Scalar) (g : Guard)
  | monitor (a : Scalar) (g : Guard)
  | demon (a : Scalar) (g : Guard)
  | exit (a b : Scalar) (g : Guard)
  | kill (a : Scalar) (lv : KillLevel) (g : Guard)
  | trapx (a : Scalar) (g : Guard)
  | chmask (a : Scalar) (g : Guard)
  | prio (a : Scalar) (g : Guard)
  | lookup (a : Scalar) (g : Guard)
  | reg (a b : Scalar) (g : Guard)
  | supStart (crec : PWord)
  | supStop (crec : PWord)
  | supqName (crec : PWord)
  | supqCount (crec : PWord)
  | supqState (crec : PWord)
  -- maj 0x3A, 0x3B (R189, R191)
  | sysrd (a : Scalar) (g : Guard)
  | syswr (a b : Scalar) (g : Guard)
  | ctrd (a : Scalar) (g : Guard)
  | nop
  | brk (imm : BitVec 12)
  | trap (imm : BitVec 6)
  -- maj 0x3C, 0x3D (R287 to R290)
  | dhalt (a : Scalar) (b : Fin 14) (g : Guard)
  | dstep (a : Scalar) (b : Fin 1) (g : Guard)   -- `b` is reserved (R34, R288): it holds 0
  | dres (a : Scalar) (g : Guard)
  | drd (a : Scalar) (g : Guard)
  | dwr (a b : Scalar) (g : Guard)
  | dbp (a : Scalar) (ix : Fin 4) (en : Bool) (g : Guard)
  | dwp (a : Scalar) (ix : Fin 4) (en : Bool) (wk : Fin 4) (len : W32) (g : Guard)
  | dtrc (a : Scalar) (g : Guard)
  -- maj 0x3E (R192, R193)
  | rpwr (a b : Scalar) (g : Guard)
  | rprd (a : Scalar) (g : Guard)
  | halt (a : Scalar) (g : Guard)
  -- the part's own events (95_what_each_step_holds); what each acts on stands in `EvArg`
  | powerOnReset | warmReset | bootProgramStart | portalOpen | thermalTrip | throttle | registerWrite
  | quarantineWrite | dutymodeWrite | d2dRetrain | hqackWrite | hostQueueWrite | portalSlotComplete | launch | load
  | unload | attestationRequest | dutyAnswer | flitTransmit | flitReceive | nakResend | errorWindowEnd
  | retrainComplete | fabricTimeout | fabricReply | stationLinkDown | rd | wr | wrm | at_ | rcContribution
  | rcDeclaration | rdr | wack | atr | rca | rcRetry | reductionNotice | mirrorAck | mirrorForwardTimeout | scrub
  | epochEnd | lostScan | migration | invalidation | invalidationAck | walkRequest | walkAnswer | sideLogReplay
  | transferComplete | outboundReadDone | tileLanded | mcastBusServe | relaySend | relayArrival | matrixComplete
  | vectorComplete | messageArrival | messageResend | replyArrival | awaitTimeout | handlerStart | contextFetch
  | roamingOffer | budgetExpiry | spawnAnswer | linkAnswer | dying | reclaim | exitSignal | restart | restartRetry
  | swapInstant | swapEvalEnd | freeze | mark | exchangeCommit | cellWake | preempt | unpark | shadowRun
  | shadowComplete | shadowAbandon | ageingCheck | throttleEnd | idleFlit
  deriving DecidableEq, Repr

/-- A step that the part takes of itself: which, and on what. -/
structure Event where
  ev  : Instr
  arg : EvArg := {}
  deriving DecidableEq, Repr

end Sys2Proof
end

