-- ==== Sys2Proof/Config.lean ====
section
/-! DEFINITION. What the manual leaves to the part or to its surroundings: free values, each an opaque constant that no
proof can evaluate, applied to a plain counter of the state or to the operands it depends on; and the constants of the
module that the manual names without giving them (keys, firmware, certificate: 23_module R417, R418). -/

namespace Sys2Proof.Config

/-- Free value, log 1: which of the steps that may come next is taken (R72, R76, R296, R316 leave their order open). -/
opaque choose : Nat → Nat
/-- Free value, log 2: how many cycles pass with a step (all latencies; timing is left out). -/
opaque elapse : Nat → Nat
/-- Free value, log 3: a 64-bit value that the manual does not state. -/
opaque freeValue : Nat → BitVec 64
/-- Free value, log 4: the FP32 value nearest the true result, on an operand where the model's enclosure of the function
(a rational interval) does not decide it (R164). Arguments: the function's number and the operand. -/
opaque nearest : Nat → BitVec 32 → BitVec 32
/-- Free value, log 3: the scale byte of a block where the format of `vquant` has no finite value above 0 (10 R254 gives none), a function of
the destination's and the source's descriptor and the block's codes (07 R168). -/
opaque scaleFree : BitVec 64 → BitVec 64 → List Nat → BitVec 8
/-- Free value, log 5: whether the check of a message fails at its receiver (11 R261). -/
opaque messageBad : Nat → Bool
/-- Free value, log 5: the bits of a flit that its way over a UCIe module inverts (18 R366, R367). -/
opaque flitNoise : Nat → BitVec 2048
/-- Free value, log 5: whether a UCIe module trains at ×64 and at ×32 (R368 to R370). -/
opaque trains : Nat → Bool
/-- Free value, log 5: the cells whose timing slack lies below `mmin` at an ageing check (R400). -/
opaque weakCells : Nat → List Nat
/-- Free value, log 124: the rows of a cell's context cache that its hardware self-test finds failing (R414). -/
opaque cacheRows : Nat → Nat → List Nat
/-- Constant of the module, log 100: the bytes attached to each CXL port (03 R79). -/
opaque cxlCapacity : Nat → Nat
/-- Free value, log 5: the granules that a scrub finds uncorrectable (R391). -/
opaque badGranules : Nat → List Nat
/-- Free value, log 6: `fwerr` as the verification of the firmware leaves it (R414, R417). -/
opaque fwErr : Nat → BitVec 8
/-- Constants of the module, log 6: the root public key, and the owner public keys in the fuses, at most four (R417). -/
opaque rootKey : Nat × Nat
opaque ownerKeys : List (Nat × Nat)
/-- Constants of the module, log 6: the firmware as verified, and the owner key table, whose SHA-512 a report holds (R418). -/
opaque firmware : List Byte
opaque ownerKeyTable : List Byte
/-- Constant of the module, log 6: the X.509 certificate of the identity key (R418). -/
opaque certificate : List Byte
/-- Constant of the module, log 6: the private identity key; free value, log 6: the nonce of a signature under it (R418). -/
opaque identityKey : Nat
opaque signNonce : List Byte → Nat

end Sys2Proof.Config
end

