-- ==== Sys2Proof/Machine/Fp.lean ====
section
/-! DEFINITION. Element formats (06_number_formats): descriptors, decoding, scales, and the one rounding function of R148;
exact arithmetic on decoded values (07 R160, R161); and the functions of 07 R164, by rational enclosure. -/

namespace Sys2Proof.Machine

-- Exact values -----------------------------------------------------------------------------------------------------

/-- A magnitude: `n / d * 2^e`, or its square root. -/
inductive Mag | rat (n d : Nat) (e : Int) | root (n d : Nat) (e : Int)
  deriving DecidableEq, Repr

/-- A decoded value: NaN, an infinity, or a signed exact magnitude (a zero keeps its sign). -/
inductive Val | nan | inf (neg : Bool) | num (neg : Bool) (m : Mag)
  deriving DecidableEq, Repr

/-- `n * 2^k`, rounded down, for `k` of either sign. -/
def shiftBy (n : Nat) (k : Int) : Nat := if 0 ≤ k then n * 2 ^ k.toNat else n / 2 ^ (-k).toNat

/-- Integer square root: `fuel` base-4 digits. -/
def isqrtAux : Nat → Nat → Nat
  | 0, _ => 0
  | f + 1, n => let r := 2 * isqrtAux f (n / 4); if (r + 1) * (r + 1) ≤ n then r + 1 else r
/-- The integer square root of `n`, rounded down. -/
def isqrt (n : Nat) : Nat := isqrtAux (Nat.log2 n / 2 + 1) n

/-- `floor(n / d * 2^k)` and whether it is exact. -/
def floorRat (n d : Nat) (k : Int) : Nat × Bool :=
  let a := if 0 ≤ k then n * 2 ^ k.toNat else n
  let b := if 0 ≤ k then d else d * 2 ^ (-k).toNat
  (a / b, a % b == 0)

/-- `floor(m / 2^g)` and whether it is exact. -/
def Mag.floorAt : Mag → Int → Nat × Bool
  | .rat n d e, g => floorRat n d (e - g)
  | .root n d e, g => let (q, ex) := floorRat n d (e - 2 * g); let r := isqrt q; (r, ex && r * r == q)

/-- Whether a magnitude is zero. -/
def Mag.isZero : Mag → Bool | .rat n _ _ | .root n _ _ => n == 0

/-- `floor(log2(n / d * 2^e))` of a nonzero rational. -/
def log2Rat (n d : Nat) (e : Int) : Int :=
  let k : Int := (Nat.log2 n : Int) - Nat.log2 d + e
  if (floorRat n d (e - k)).1 = 0 then k - 1 else k
/-- `floor(log2 m)` of a nonzero magnitude. -/
def Mag.log2 : Mag → Int
  | .rat n d e => log2Rat n d e
  | .root n d e => (log2Rat n d e) / 2

/-- A signed zero. -/
def zeroV (neg : Bool) : Val := .num neg (.rat 0 1 0)
/-- An integer as a value (zero is +0). -/
def intV (i : Int) : Val := .num (i < 0) (.rat i.natAbs 1 0)
/-- One. -/
def oneV : Val := .num false (.rat 1 1 0)

/-- Whether a value is negative, −0 and −∞ included. -/
def Val.neg? : Val → Bool | .nan => false | .inf n => n | .num n _ => n
/-- Whether a value is a zero. -/
def Val.isZero : Val → Bool | .num _ m => m.isZero | _ => false
/-- Whether a value is NaN. -/
def Val.isNan : Val → Bool | .nan => true | _ => false
/-- The value with its sign cleared. -/
def Val.abs : Val → Val | .nan => .nan | .inf _ => .inf false | .num _ m => .num false m
/-- The value with its sign flipped. -/
def Val.negate : Val → Val | .nan => .nan | .inf n => .inf (!n) | .num n m => .num (!n) m

/-- The rational parts of a magnitude (a root never enters further arithmetic). -/
def Mag.parts : Mag → Nat × Nat × Int | .rat n d e | .root n d e => (n, d, e)

/-- The exact sum (R160). `rd` says that the rounding mode is RD, which makes an exact zero sum of opposite signs −0. -/
def Val.add (rd : Bool) : Val → Val → Val
  | .nan, _ | _, .nan => .nan
  | .inf a, .inf b => if a = b then .inf a else .nan
  | .inf a, _ => .inf a
  | _, .inf b => .inf b
  | .num a x, .num b y =>
    let (n1, d1, e1) := x.parts
    let (n2, d2, e2) := y.parts
    let e := min e1 e2
    let m1 := n1 * d2 * 2 ^ (e1 - e).toNat
    let m2 := n2 * d1 * 2 ^ (e2 - e).toNat
    if a = b then .num a (.rat (m1 + m2) (d1 * d2) e)
    else if m1 = m2 then zeroV rd
    else if m2 < m1 then .num a (.rat (m1 - m2) (d1 * d2) e)
    else .num b (.rat (m2 - m1) (d1 * d2) e)

/-- The exact product (R160). -/
def Val.mul : Val → Val → Val
  | .nan, _ | _, .nan => .nan
  | .inf a, v => if v.isZero then .nan else .inf (a != v.neg?)
  | v, .inf b => if v.isZero then .nan else .inf (v.neg? != b)
  | .num a x, .num b y =>
    let (n1, d1, e1) := x.parts
    let (n2, d2, e2) := y.parts
    .num (a != b) (.rat (n1 * n2) (d1 * d2) (e1 + e2))

/-- The exact quotient (08 R179). -/
def Val.div : Val → Val → Val
  | .nan, _ | _, .nan => .nan
  | .inf a, .inf _ => let _ := a; .nan
  | .inf a, v => .inf (a != v.neg?)
  | v, .inf b => zeroV (v.neg? != b)
  | .num a x, .num b y =>
    let (n1, d1, e1) := x.parts
    let (n2, d2, e2) := y.parts
    if n2 = 0 then (if n1 = 0 then .nan else .inf (a != b))
    else .num (a != b) (.rat (n1 * d2) (d1 * n2) (e1 - e2))

/-- The exact square root (08 R179, 10 R250). -/
def Val.sqrt : Val → Val
  | .nan => .nan
  | .inf n => if n then .nan else .inf false
  | .num n m => if m.isZero then zeroV n else if n then .nan else let (a, d, e) := m.parts; .num false (.root a d e)

/-- `1 / sqrt(v)` (10 R250). -/
def Val.rsqrt : Val → Val
  | .nan => .nan
  | .inf n => if n then .nan else zeroV false
  | .num n m =>
    if m.isZero then .inf n else if n then .nan else let (a, d, e) := m.parts; .num false (.root d a (-e))

/-- The order of two numbers, −0 below +0: −1, 0 or 1. -/
def Val.cmp : Val → Val → Int
  | .nan, _ | _, .nan => 0
  | .inf a, .inf b => if a = b then 0 else if a then -1 else 1
  | .inf a, _ => if a then -1 else 1
  | _, .inf b => if b then 1 else -1
  | .num a x, .num b y =>
    let (n1, d1, e1) := x.parts
    let (n2, d2, e2) := y.parts
    let e := min e1 e2
    let m1 := n1 * d2 * 2 ^ (e1 - e).toNat
    let m2 := n2 * d1 * 2 ^ (e2 - e).toNat
    if a != b then (if a then -1 else 1)
    else if m1 = m2 then 0
    else if (m1 < m2) != a then -1 else 1

/-- Minimum: NaN if either is NaN, −0 below +0 (R161). -/
def Val.min (a b : Val) : Val := if a.isNan || b.isNan then .nan else if a.cmp b ≤ 0 then a else b
/-- Maximum: NaN if either is NaN, −0 below +0 (R161). -/
def Val.max (a b : Val) : Val := if a.isNan || b.isNan then .nan else if a.cmp b ≤ 0 then b else a

-- Descriptors ------------------------------------------------------------------------------------------------------

/-- A format descriptor's fields (R138); classes 1 to 5 filled in as the formats of R135 and R137. -/
structure Desc where
  cls  : Nat
  wd   : Nat
  eb   : Nat
  mb   : Nat
  bias : Int
  sgn  : Bool
  spec : Nat
  sfmt : Nat
  sgeo : Nat
  deriving DecidableEq, Repr

/-- FP32 (R135). -/
def f32 : Desc := ⟨1, 32, 8, 23, 127, true, 2, 0, 0⟩
/-- BF16 (R135). -/
def bf16 : Desc := ⟨2, 16, 8, 7, 127, true, 2, 0, 0⟩
/-- FP16 (R135). -/
def fp16 : Desc := ⟨3, 16, 5, 10, 15, true, 2, 0, 0⟩
/-- A two's-complement integer of `w` bits (R137), or an unsigned one. -/
def intDesc (cls w : Nat) (sgn : Bool) : Desc := ⟨cls, w, 0, 0, 0, sgn, 0, 0, 0⟩

/-- The fields of a descriptor value (R138). -/
def descOf (v : W64) : Desc :=
  let n := v.toNat
  match bits n 2 0 with
  | 1 => f32
  | 2 => bf16
  | 3 => fp16
  | 4 => intDesc 4 32 true
  | 5 => intDesc 5 16 true
  | 6 => ⟨6, 1, 0, 0, 0, false, 0, 0, 0⟩
  | c => ⟨c, bits n 19 16, bits n 22 20, bits n 25 23, signed 8 (bits n 33 26), bit n 34, bits n 36 35, bits n 37 37,
      bits n 39 38⟩

/-- Whether a descriptor value is valid (R139). -/
def validDesc (v : W64) : Bool :=
  let n := v.toNat
  let d := descOf v
  match bits n 2 0 with
  | 0 =>
    2 ≤ d.wd && d.wd ≤ 8 && ofBool d.sgn + d.eb + d.mb == d.wd && bits n 63 40 == 0 && bits n 15 3 == 0 &&
    d.spec != 3 && (d.eb != 0 || d.spec == 0) && (d.spec != 2 || (2 ≤ d.eb && 1 ≤ d.mb)) &&
    (if d.eb = 0 then (d.wd : Int) - d.bias ≤ 128
     else (2 ^ d.eb - 1 : Int) - d.bias ≤ 127 && (-149 : Int) ≤ 1 - d.bias - d.mb)
  | 7 => false
  | _ => n / 8 == 0

/-- Whether a format is a floating-point one for the vector group: classes 0 to 3 (10 R247). -/
def Desc.isFloat (d : Desc) : Bool := d.cls ≤ 3
/-- Whether a format is an integer class. -/
def Desc.isInt (d : Desc) : Bool := d.cls == 4 || d.cls == 5

/-- Decode of a code (R141, R135, R137). -/
def Desc.decode (d : Desc) (x : Nat) : Val :=
  let sg := d.sgn && bit x (d.wd - 1)
  if d.eb = 0 then
    let n : Int := if d.sgn then signed d.wd x else x
    .num (n < 0) (.rat n.natAbs 1 (-d.bias))
  else
    let e := x / 2 ^ d.mb % 2 ^ d.eb
    let m := x % 2 ^ d.mb
    let top := 2 ^ d.eb - 1
    if d.spec = 2 ∧ e = top then (if m = 0 then .inf sg else .nan)
    else if d.spec = 1 ∧ e = top ∧ m = 2 ^ d.mb - 1 then .nan
    else if e = 0 then .num sg (.rat m 1 (1 - d.bias - d.mb))
    else .num sg (.rat (2 ^ d.mb + m) 1 ((e : Int) - d.bias - d.mb))

/-- FP32 in the low half of a number. -/
def dec32 (x : Nat) : Val := f32.decode (x % 2 ^ 32)

/-- The value of a scale byte (R143). -/
def scaleVal (sfmt z : Nat) : Val :=
  if sfmt = 0 then (if z = 255 then .nan else .num false (.rat 1 1 ((z : Int) - 127)))
  else if z / 16 = 0 then .num false (.rat (z % 16) 1 (-10))
  else .num false (.rat (16 + z % 16) 1 ((z / 16 : Nat) - 11 : Int))

/-- Which scale byte element `j` of row `i` has in a tile of `cols` columns (R144). -/
def Desc.scaleIdx (d : Desc) (cols i j : Nat) : Nat :=
  match d.sgeo with
  | 1 => i * ceilDiv cols 32 + j / 32
  | 2 => i * ceilDiv cols 128 + j / 128
  | _ => j / 128
/-- How many scale bytes a tile has (R144). -/
def Desc.scaleCount (d : Desc) (rows cols : Nat) : Nat :=
  match d.sgeo with
  | 0 => 0
  | 1 => rows * ceilDiv cols 32
  | 2 => rows * ceilDiv cols 128
  | _ => ceilDiv cols 128

-- Rounding (R147, R148) --------------------------------------------------------------------------------------------

/-- Whether the magnitude is rounded up at grid spacing `2^g` (R148, step 4); `odd` says that the lower neighbour's code is
odd. `draw` is the draw of stochastic rounding. -/
def roundsUp (m : Mag) (neg : Bool) (mode : Rnd) (draw : Nat) (g : Int) (odd : Bool) : Bool :=
  if (m.floorAt g).2 then false
  else match mode with
    | .rne => let (h, ex) := m.floorAt (g - 1); h % 2 == 1 && (!ex || odd)
    | .rz => false
    | .ru => !neg
    | .rd => neg
    | .sr =>
      let (f, ex) := m.floorAt (g - 32)
      let fr := if neg then 2 ^ 32 - (f % 2 ^ 32 + ofBool (!ex)) else f % 2 ^ 32
      if neg then !(draw < fr) else draw < fr

/-- The canonical NaN code; +0 where there is none (R148, step 1). -/
def Desc.nanCode (d : Desc) : Nat :=
  if d.eb = 0 then (if d.cls = 6 then 1 else 0)
  else match d.spec with
    | 1 => 2 ^ (d.eb + d.mb) - 1
    | 2 => (2 ^ d.eb - 1) * 2 ^ d.mb + 2 ^ (d.mb - 1)
    | _ => 0

/-- The code of the largest finite magnitude of a floating-point format. -/
def Desc.maxCode (d : Desc) : Nat :=
  match d.spec with
  | 1 => 2 ^ (d.eb + d.mb) - 2
  | 2 => (2 ^ d.eb - 1) * 2 ^ d.mb - 1
  | _ => 2 ^ (d.eb + d.mb) - 1

/-- The sign bit of a code. -/
def Desc.signBit (d : Desc) (neg : Bool) : Nat := if d.sgn && neg then 2 ^ (d.wd - 1) else 0

/-- The result of an overflow into a floating-point format (R148, step 5). -/
def Desc.overflow (d : Desc) (neg sat : Bool) : Nat :=
  if sat then d.signBit neg + d.maxCode
  else match d.spec with
    | 1 => d.nanCode
    | 2 => d.signBit neg + (2 ^ d.eb - 1) * 2 ^ d.mb
    | _ => d.signBit neg + d.maxCode

/-- The largest and the least value of an integer format, as magnitudes. -/
def Desc.intMax (d : Desc) : Nat := if d.sgn then 2 ^ (d.wd - 1) - 1 else 2 ^ d.wd - 1
def Desc.intMin (d : Desc) : Nat := if d.sgn then 2 ^ (d.wd - 1) else 0

/-- A finite magnitude rounded into a floating-point format. -/
def Desc.roundFloat (d : Desc) (neg : Bool) (m : Mag) (mode : Rnd) (draw : Nat) (sat : Bool) : Nat :=
  if m.isZero then d.signBit neg
  else
    let emin : Int := 1 - d.bias
    let e := max m.log2 emin
    let g := e - d.mb
    let q := (m.floorAt g).1
    let base := (e - emin).toNat * 2 ^ d.mb
    let code := base + q + ofBool (roundsUp m neg mode draw g ((base + q) % 2 == 1))
    if code ≤ d.maxCode then d.signBit neg + code
    else if mode == .rz || (mode == .rd && !neg) || (mode == .ru && neg) then d.signBit neg + d.maxCode
    else d.overflow neg sat

/-- A finite magnitude rounded into an integer format. -/
def Desc.roundInt (d : Desc) (neg : Bool) (m : Mag) (mode : Rnd) (draw : Nat) : Nat :=
  let g := -d.bias
  let q := (m.floorAt g).1
  let n := q + ofBool (roundsUp m neg mode draw g (q % 2 == 1))
  if neg then (2 ^ d.wd - min n d.intMin) % 2 ^ d.wd else min n d.intMax

/-- Round(v, mode) into a format, as a code (R148). -/
def Desc.round (d : Desc) (v : Val) (mode : Rnd) (draw : Nat) (sat : Bool) : Nat :=
  if d.cls = 6 then ofBool (!v.isZero)
  else match v with
    | .nan => d.nanCode
    | .inf neg =>
      if neg && !d.sgn then 0
      else if d.eb = 0 then (if neg then (2 ^ d.wd - d.intMin) % 2 ^ d.wd else d.intMax)
      else d.overflow neg sat
    | .num neg m =>
      if neg && !d.sgn then 0
      else if d.eb = 0 then d.roundInt neg m mode draw else d.roundFloat neg m mode draw sat

/-- Round(v, RNE) into FP32 with `sat` 0, as a code. -/
def rne32 (v : Val) : Nat := f32.round v .rne 0 false
/-- Round(v, RNE) into FP32, as a value. -/
def rneV (v : Val) : Val := dec32 (rne32 v)

/-- The largest finite value of a format. -/
def Desc.maxVal (d : Desc) : Val :=
  if d.eb = 0 then .num false (.rat d.intMax 1 (-d.bias)) else d.decode d.maxCode

-- The generator (R150) ---------------------------------------------------------------------------------------------

/-- The generator state after one draw. -/
def nextGen (g : W64) : W64 :=
  let g := g ^^^ (g <<< 13)
  let g := g ^^^ (g >>> 7)
  g ^^^ (g <<< 17)
/-- The draw of a generator state just made. -/
def drawOf (g : W64) : Nat := g.toNat / 2 ^ 32
/-- The generator for a seed (R150). -/
def seedGen (v : W64) : W64 := if v = 0 then 0x9E3779B97F4A7C15 else v
/-- The generator after `n` draws. -/
def genAfter : Nat → W64 → W64
  | 0, g => g
  | n + 1, g => genAfter n (nextGen g)
/-- `n` draws in order. -/
def draws : Nat → W64 → List Nat
  | 0, _ => []
  | n + 1, g => let g := nextGen g; drawOf g :: draws n g

-- The functions of R164 --------------------------------------------------------------------------------------------
-- Fixed point with 256 fraction bits; an enclosure is a pair of integers that bound the true value times 2^256.

/-- The scale of the enclosures. -/
def fxOne : Int := 2 ^ 256
/-- A bound below, after division. -/
def fxDivDn (a b : Int) : Int := a / b
/-- A bound above, after division by a positive number. -/
def fxDivUp (a b : Int) : Int := -((-a) / b)
/-- The product of two enclosures of numbers that are not negative. -/
def fxMul (a b : Int × Int) : Int × Int := (a.1 * b.1 / fxOne, fxDivUp (a.2 * b.2) fxOne)
/-- The quotient of two enclosures, the divisor above zero and the dividend not negative. -/
def fxDiv (a b : Int × Int) : Int × Int := (a.1 * fxOne / b.2, fxDivUp (a.2 * fxOne) b.1)

/-- Terms of e^r for |r| ≤ 2^-8, each from the one before: the sum of `n` more terms. -/
def expTerms (r : Int) : Nat → Nat → Int → Int
  | 0, _, _ => 0
  | n + 1, k, t => let t' := t * r / (fxOne * k); t' + expTerms r n (k + 1) t'
/-- An enclosure of e^r for |r| ≤ 2^-8: 40 terms, each rounded down once, and a remainder below 2^-300. -/
def expSmall (r : Int) : Int × Int := let s := fxOne + expTerms r 40 1 fxOne; (s - 64, s + 64)
/-- An enclosure squared `n` times. -/
def sqTimes : Nat → Int × Int → Int × Int
  | 0, a => a
  | n + 1, a => sqTimes n (fxMul a a)
/-- An enclosure of e^x for an enclosure of x with |x| ≤ 256. -/
def fxExp (x : Int × Int) : Int × Int :=
  let lo := (expSmall (x.1 / 2 ^ 16)).1
  let hi := (expSmall (fxDivUp x.2 (2 ^ 16))).2
  sqTimes 16 (lo, hi)

/-- Terms z^(2k+1)/(2k+1) of atanh. -/
def atanhTerms (z2 : Int) : Nat → Nat → Int → Int
  | 0, _, _ => 0
  | n + 1, k, t => t / k + atanhTerms z2 n (k + 2) (t * z2 / fxOne)
/-- An enclosure of 2·atanh z for 0 ≤ z ≤ 1/3. -/
def fxAtanh2 (z : Int) : Int × Int := let s := 2 * atanhTerms (z * z / fxOne) 90 1 z; (s - 1024, s + 1024)
/-- An enclosure of ln 2. -/
def fxLn2 : Int × Int := fxAtanh2 (fxOne / 3)

/-- Terms of arctan(1/q). -/
def atanTerms (q2 : Int) : Nat → Nat → Int → Int
  | 0, _, _ => 0
  | n + 1, k, t => t / k - atanTerms q2 n (k + 2) (t / q2)
/-- An enclosure of π, by Machin's formula. -/
def fxPi : Int × Int :=
  let s := 16 * atanTerms 25 120 1 (fxOne / 5) - 4 * atanTerms (239 * 239) 40 1 (fxOne / 239)
  (s - 4096, s + 4096)

/-- Terms of the series of erf at x ≥ 0: x^(2k+1) (-1)^k / (k! (2k+1)). -/
def erfTerms (x2 : Int) : Nat → Nat → Int → Int
  | 0, _, _ => 0
  | n + 1, k, t => t / (2 * k + 1) - erfTerms x2 n (k + 1) (t * x2 / (fxOne * (k + 1)))
/-- An enclosure of erf x for 0 ≤ x ≤ 6. -/
def fxErf (x : Int) : Int × Int :=
  let s := erfTerms (x * x / fxOne) 260 0 x
  let root : Int := isqrt (fxPi.1 * fxOne).toNat
  fxDiv (2 * s - 2 ^ 80, 2 * s + 2 ^ 80) (root - 1, root + 2 ^ 40)

/-- A finite value in fixed point, rounded down (exact for every FP32 value). -/
def Val.fx : Val → Int
  | .num neg m => let q : Int := (m.floorAt (-256)).1; if neg then -q else q
  | _ => 0
/-- An FP32 code whose value every number of an enclosure rounds to, if there is one. -/
def fxRound (e : Int × Int) : Option Nat :=
  let code (i : Int) := rne32 (.num (i < 0) (.rat i.natAbs 1 (-256)))
  if code e.1 = code e.2 then some (code e.1) else none

/-- The functions of R164 that no finite sum gives. -/
inductive Fn | exp | exp2 | log | tanh | sigm | erf
  deriving DecidableEq, Repr
/-- The number of a function in `Config.nearest`. -/
def Fn.num : Fn → Nat | .exp => 2 | .exp2 => 3 | .log => 4 | .tanh => 8 | .sigm => 9 | .erf => 10

/-- An enclosure of a function at a finite value outside its special cases. -/
def Fn.enclose (f : Fn) (v : Val) : Int × Int :=
  let x := v.fx
  match f with
  | .exp => fxExp (x, x)
  | .exp2 => let (a, b) := fxLn2; fxExp (min (x * a / fxOne) (x * b / fxOne), max (fxDivUp (x * a) fxOne) (fxDivUp (x * b) fxOne))
  | .log =>
    match v with
    | .num _ m =>
      let k := m.log2
      let a : Int := (m.floorAt (k - 256)).1
      let z := (a - fxOne) * fxOne / (a + fxOne)
      let (lo, hi) := fxAtanh2 z
      let (l, h) := fxLn2
      (lo + min (k * l) (k * h), hi + max (k * l) (k * h))
    | _ => (0, 0)
  | .tanh =>
    let (lo, hi) := fxExp (2 * x.natAbs, 2 * x.natAbs)
    let (a, b) := fxDiv (lo - fxOne, hi - fxOne) (lo + fxOne, hi + fxOne)
    if x < 0 then (-b, -a) else (a, b)
  | .sigm => let (lo, hi) := fxExp (-x, -x); fxDiv (fxOne, fxOne) (lo + fxOne, hi + fxOne)
  | .erf => let (a, b) := fxErf x.natAbs; if x < 0 then (-b, -a) else (a, b)

/-- What a function tends to at one end: far above (`true`) or far below. -/
def Fn.limit (f : Fn) (up : Bool) : Val :=
  match f with
  | .exp | .exp2 => if up then .inf false else zeroV false
  | .log => if up then .inf false else .nan
  | .tanh | .erf => .num (!up) (.rat 1 1 0)
  | .sigm => if up then oneV else zeroV false

/-- The FP32 value, as a code, that is nearest the function of an FP32 value (07 R164, 10 R250). Beyond |x| = 256 (6 for
`erf`) every function but the logarithm rounds to its limit. -/
def Fn.at32 (f : Fn) (v : Val) : Nat :=
  match v with
  | .nan => f32.nanCode
  | .inf neg => rne32 (f.limit (!neg))
  | .num neg m =>
    if m.isZero then
      match f with
      | .exp | .exp2 => rne32 oneV
      | .log => rne32 (.inf true)
      | .tanh | .erf => rne32 v
      | .sigm => rne32 (.num false (.rat 1 1 (-1)))
    else if f == .log && neg then f32.nanCode
    else if f == .log && v.cmp oneV == 0 then 0
    else if f == .exp2 && (m.floorAt 0).2 && (m.floorAt 0).1 < 200 then
      rne32 (.num false (.rat 1 1 (if neg then -((m.floorAt 0).1 : Int) else (m.floorAt 0).1)))
    else if f != .log && (if f == .erf then 6 else 256) ≤ (m.floorAt 0).1 then rne32 (f.limit (!neg))
    else match fxRound (f.enclose v) with
      | some c => c
      | none => (Config.nearest f.num (BitVec.ofNat 32 (rne32 v))).toNat

end Sys2Proof.Machine
end

