-- ==== Sys2Proof/WellFormed.lean ====
section
/-! DEFINITION. Which instruction terms the encodings admit, beyond what the operand types already say: the ranges and
the reserved fields that R24 to R31 and the definitions of each group lay down. The decoder refuses every word whose
term breaks one of these checks (R34), and the encoder is stated for the terms that meet them. -/

namespace Sys2Proof

/-- A constant parameter word never has 1111 in bits 31:28 (R27). -/
def PWord.wf : PWord → Bool
  | .const v => v.toNat / 2 ^ 28 != 15
  | .subst _ => true

/-- A destination predicate is 1 to 7 (R24, R181). -/
def dpWf (dp : Fin 8) : Bool := dp != 0

/-- `rows` is 1 to 128 and `cols` 1 to 1,024 (R196, R216). -/
def shapeWf (rows : BitVec 8) (cols : BitVec 11) : Bool :=
  1 ≤ rows.toNat && rows.toNat ≤ 128 && 1 ≤ cols.toNat && cols.toNat ≤ 1024

/-- The conditions that `pset` takes (R181). -/
def Cond.isInt : Cond → Bool
  | .un | .ord => false
  | _ => true

/-- The conditions that `psetf` takes (R181). -/
def Cond.isFloat : Cond → Bool
  | .ltu | .geu | .leu | .gtu => false
  | _ => true

/-- The tile selector whose code is 0, which an unused tile field holds. -/
def TileSel.zero : TileSel := .t 0

/-- Field rules of a copy instruction (R200, R201): what `gm`, `lu`, `sem`, `sc` and `wbar` admit. `src` says that the
tile of the instruction is its source. -/
def CopyArgs.wf (c : CopyArgs) (index src : Bool) : Bool :=
  let gtOk := match c.gf with
    | .gt _ => !index && c.p0 == .const 0 && c.p1 == .const 0 && c.p2 == .const 0
    | _ => c.p0.wf && c.p1.wf && c.p2.wf
  let formOk := !index || c.gf == .g2
  let luOk := src || !c.lu || (match c.gf with | .gt _ => true | _ => false)
  let semOk := match c.sem with
    | .relaxed => c.sc == .a
    | .acq => !src
    | .rel => src
    | .ar => false
  gtOk && formOk && luOk && semOk && (src || c.wbar == 0)

/-- Field rules of the message group (R265, R266): how many words and tiles each instruction carries. -/
def SendArgs.wf (x : SendArgs) (maxPl minT maxT : Nat) (slot bnc : Bool) : Bool :=
  x.pl.length ≤ maxPl && minT ≤ x.tl.length && x.tl.length ≤ maxT && (slot || x.ys == 0) && (bnc || !x.bnc)

/-- Field rules of an atomic (R214): `dst` needs a result, and a scope needs an ordering. -/
def atomicWf (dst : Option (Fin 16)) (sem : Sem) (sc : Scope) (nr : Bool) : Bool :=
  (!nr || dst.isNone) && (sem != .relaxed || sc == .a)

/-- Which fields of the vector extension an instruction uses (R245, R246). -/
structure VUse where
  b    : Bool := false
  c    : Bool := false
  xs   : Bool := false
  x    : Bool := false
  rnd  : Bool := true
  sat  : Bool := true
  luc  : Bool := false
  a    : Bool := true
  fx   : Nat := 0
  deriving DecidableEq, Repr

/-- Reserved fields of the vector extension are 0 (R245, R246): `b` is the field of word 0. -/
def VExt.wf (e : VExt) (u : VUse) (b : TileSel) : Bool :=
  let x := u.x || (u.xs && e.xs)
  (u.xs || !e.xs) && (u.c || e.c == .zero) && (u.luc || !e.luc) && (u.a || !e.lua) &&
  (((u.b && !e.xs) || b == .zero)) && ((u.b && !e.xs) || !e.lub) &&
  (u.rnd || e.rnd == .rne) && (u.sat || !e.sat) && e.fx.val ≤ u.fx &&
  (if x then e.sx == .zero || e.k == 0 else e.sx == .zero && e.k == 0)

/-- Binary float operations (R249). -/
def VUse.bin : VUse := { b := true, xs := true }
/-- Unary operations with `rnd` and `sat` (R250, R252). -/
def VUse.un : VUse := {}
/-- Code movements without rounding (R255). -/
def VUse.mov (b x : Bool) : VUse := { b := b, x := x, rnd := false, sat := false }

/-- The conditions of `vcmp` are those of R181. -/
def VUse.cmp : VUse := { b := true, xs := true, rnd := false, sat := false, fx := 11 }

/-- The terms that an encoding exists for; an event of the part has none. -/
def Instr.wf : Instr → Bool
  | .pset cond _ _ _ dp _ => cond.isInt && dpWf dp
  | .psetf cond _ _ dp _ => cond.isFloat && dpWf dp
  | .pand d _ _ | .por d _ _ | .pxor d _ _ | .pnot d _ => dpWf d
  | .tdef _ l0 l1 pi rows cols _ _ _ => l0.wf && l1.wf && pi.wf && shapeWf rows cols
  | .tview _ _ _ _ rows cols => shapeWf rows cols
  | .tcopy _ _ _ => true
  | .tfetch c => c.wf false false
  | .twrite c => c.wf false true
  | .tgath c _ => c.wf true false && !c.lu
  | .tscat c _ => c.wf true true
  | .rdef _ first count => 2 ≤ count.val && count.val ≤ 8 && first.val + count.val ≤ 28
  | .mldb _ rl lu => !(rl && lu)
  | .mma _ a b _ la lb => (!la || a != .la) && (!lb || b != .lb)
  | .mmas _ a b _ _ _ la lb => (!la || a != .la) && (!lb || b != .lb)
  | .macc _ a _ la => match a with | .tile _ => true | .acc _ => !la
  | .vadd _ _ b e | .vsub _ _ b e | .vmul _ _ b e | .vdiv _ _ b e | .vmin _ _ b e | .vmax _ _ b e => e.wf .bin b
  | .vfma _ _ b e => e.wf { b := true, xs := true, c := true, luc := true } b
  | .vabs _ _ e | .vneg _ _ e | .vexp _ _ e | .vexp2 _ _ e | .vlog _ _ e | .vrcp _ _ e | .vrsqrt _ _ e
  | .vsqrt _ _ e | .vtanh _ _ e | .vsigm _ _ e | .verf _ _ e => e.wf .un .zero
  | .vcmp _ _ b e => e.wf .cmp b
  | .vsel _ _ b e => e.wf { b := true, xs := true, c := true, luc := true } b
  | .vrsum _ _ e | .vrmax _ _ e | .vrmin _ _ e | .vcsum _ _ e | .vscan _ _ e => e.wf .un .zero
  | .vcvt _ _ e => e.wf .un .zero
  | .vquant _ _ e => e.wf { c := true } .zero
  | .vdeq _ _ e => e.wf { c := true, luc := true } .zero
  | .vscale _ _ e => e.wf { x := true } .zero
  | .vtrans _ _ e | .vbcast _ _ e => e.wf (.mov false false) .zero
  | .vperm _ _ b e | .vgath _ _ b e | .vpack _ _ b e => e.wf (.mov true false) b
  | .vunpk _ _ e => e.wf (.mov false true) .zero
  | .viadd _ _ b e | .visub _ _ b e | .vimul _ _ b e | .vshl _ _ b e =>
    e.wf { b := true, xs := true, rnd := false } b
  | .vand _ _ b e | .vor _ _ b e | .vxor _ _ b e => e.wf { b := true, xs := true, rnd := false, sat := false } b
  | .vshr _ _ b e => e.wf { b := true, xs := true, rnd := false, sat := false, fx := 1 } b
  | .vsmx _ _ e => e.wf .un .zero
  | .vlut _ _ b e => e.wf { b := true } b
  | .vfill _ e => e.wf { a := false, x := true, fx := 1 } .zero && (e.fx.val == 0 || (e.rnd == .rne && !e.sat))
  | .aadd _ _ dst sem sc nr _ _ | .aand _ _ dst sem sc nr _ _ | .aor _ _ dst sem sc nr _ _ | .axor _ _ dst sem sc nr _ _
  | .amin _ _ dst sem sc nr _ _ | .amax _ _ dst sem sc nr _ _ | .aminu _ _ dst sem sc nr _ _
  | .amaxu _ _ dst sem sc nr _ _ | .axchg _ _ dst sem sc nr _ _ | .acas _ _ _ dst sem sc nr _ _ =>
    atomicWf dst sem sc nr
  | .robj _ _ p0 p1 p2 rows cols _ _ => p0.wf && p1.wf && p2.wf && shapeWf rows cols
  | .ared _ p0 p1 p2 _ | .balloc p0 p1 p2 _ _ | .bfree p0 p1 p2 | .xmap p0 p1 p2 | .xunmap p0 p1 p2 =>
    p0.wf && p1.wf && p2.wf
  | .fence acq rel _ => acq || rel
  | .send _ x _ => x.wf 4 0 0 false true
  | .sendt _ x _ => x.wf 4 1 4 false true
  | .mcast x _ => x.wf 4 1 1 false false
  | .callRequest _ x _ => x.wf 3 0 4 true true
  | .spawn i a0 a1 _ _ => i.wf && a0.wf && a1.wf
  | .spawnc r a0 a1 => r.wf && a0.wf && a1.wf
  | .supStart r | .supStop r | .supqName r | .supqCount r | .supqState r => r.wf
  | .dwp _ ix _ wk len _ =>
    if ix.val < 2 then wk != 0 && 1 ≤ len.toNat && len.toNat ≤ 2 ^ 22 else wk == 0 && len == 0
  -- an event of the part has no words
  | .powerOnReset | .warmReset | .bootProgramStart | .portalOpen | .thermalTrip | .throttle | .registerWrite
  | .quarantineWrite | .dutymodeWrite | .d2dRetrain | .hqackWrite | .hostQueueWrite | .portalSlotComplete | .launch | .load
  | .unload | .attestationRequest | .dutyAnswer | .flitTransmit | .flitReceive | .nakResend | .errorWindowEnd
  | .retrainComplete | .fabricTimeout | .fabricReply | .stationLinkDown | .rd | .wr | .wrm | .at_ | .rcContribution
  | .rcDeclaration | .rdr | .wack | .atr | .rca | .rcRetry | .reductionNotice | .mirrorAck | .mirrorForwardTimeout | .scrub
  | .epochEnd | .lostScan | .migration | .invalidation | .invalidationAck | .walkRequest | .walkAnswer | .sideLogReplay
  | .transferComplete | .outboundReadDone | .tileLanded | .mcastBusServe | .relaySend | .relayArrival | .matrixComplete
  | .vectorComplete | .messageArrival | .messageResend | .replyArrival | .awaitTimeout | .handlerStart | .contextFetch
  | .roamingOffer | .budgetExpiry | .spawnAnswer | .linkAnswer | .dying | .reclaim | .exitSignal | .restart | .restartRetry
  | .swapInstant | .swapEvalEnd | .freeze | .mark | .exchangeCommit | .cellWake | .preempt | .unpark | .shadowRun
  | .shadowComplete | .shadowAbandon | .ageingCheck | .throttleEnd | .idleFlit => false
  | _ => true

end Sys2Proof
end

