-- ==== Sys2Proof/Decode.lean ====
section
/-! DEFINITION. The decoder of instruction words (R16 to R36) and, after it, the encoder from the same tables. Decoding
is total: every list of words gives an instruction or a refusal by name, and every refusal is an ILLEGAL kill (R34). -/

namespace Sys2Proof

/-- Why a word is no instruction (R34). -/
inductive DecodeError
  | short      -- the words do not all lie in `.text` (R19)
  | major      -- an unassigned major opcode
  | fn         -- an `fn` that the opcode map does not assign
  | len        -- a `LEN` other than the map's
  | reserved   -- a nonzero reserved field, or a field outside its range
  | selector   -- a selector or register number that the field does not admit
  | marker     -- a substitution marker that R27 or R196 refuses
  deriving DecidableEq, Repr

/-- `LEN` of a word 0 (R16). -/
def lenField (w0 : Nat) : Nat := bits w0 31 30
/-- The major opcode of a word 0 (R16). -/
def majField (w0 : Nat) : Nat := bits w0 29 24
/-- `fn` of formats Q, I and T (R20). -/
def fnField (w0 : Nat) : Nat := bits w0 23 18
/-- Bits 17:12: `a` of Q and I, `d` of T (R20). -/
def f17 (w0 : Nat) : Nat := bits w0 17 12
/-- Bits 11:6: `b` of Q, `a` of T (R20). -/
def f11 (w0 : Nat) : Nat := bits w0 11 6
/-- Bits 5:0: `b` of T (R20). -/
def f5 (w0 : Nat) : Nat := bits w0 5 0

/-- How many words each `LEN` occupies (R16). -/
def wordsOfLen (len : Nat) : Nat := if len = 0 then 1 else if len = 3 then 5 else 3

/-- The result of decoding. -/
abbrev Dec (α : Type) := Except DecodeError α

/-- A field that must hold 0. -/
def needZero (v : Nat) : Dec Unit := if v = 0 then .ok () else .error .reserved
/-- A condition on a field. -/
def need (c : Bool) (e : DecodeError) : Dec Unit := if c then .ok () else .error e

/-- The scalar selector of a code (R29). -/
def scalarOf (v : Nat) : Dec Scalar :=
  if v = 0 then .ok .zero
  else if v ≤ 16 then .ok (.h (Fin.ofNat 16 (v - 1)))
  else if v ≤ 20 then .ok (.m (Fin.ofNat 4 (v - 17)))
  else if v = 21 then .ok .self
  else if v = 22 then .ok .sender
  else if v = 23 then .ok .chan
  else if v < 32 then .error .selector
  else if v < 48 then .ok (.s (Fin.ofNat 16 (v - 32)))
  else .error .selector

/-- The tile selector of a code (R30). -/
def tileOf (v : Nat) : Dec TileSel :=
  if v < 32 then .ok (.t (Fin.ofNat 32 v))
  else if v < 48 then .ok (.q (Fin.ofNat 4 ((v - 32) / 4)) (Fin.ofNat 4 (v - 32)))
  else .error .selector

/-- An accumulator of a code (R30). -/
def accOf (v : Nat) : Dec (Fin 4) := if 50 ≤ v && v ≤ 53 then .ok (Fin.ofNat 4 (v - 50)) else .error .selector

/-- A named destination (R24, R25). -/
def dstOf (v : Nat) : Dec (Option (Fin 16)) :=
  if v = 0 then .ok none else if 32 ≤ v && v ≤ 47 then .ok (some (Fin.ofNat 16 (v - 32))) else .error .selector

/-- A register number below `n` in a field of another kind (R31). -/
def numOf (n : Nat) [NeZero n] (v : Nat) : Dec (Fin n) := if v < n then .ok (Fin.ofNat n v) else .error .selector

/-- The width of a `w` field (R21). -/
def widthOf (v : Nat) : Width := match v % 4 with | 0 => .w8 | 1 => .w16 | 2 => .w32 | _ => .w64

/-- The guard of a Q-form word (R20). -/
def guardOf (w0 : Nat) : Guard := ⟨Fin.ofNat 8 (bits w0 5 3), bit w0 2⟩

/-- A rounding mode (R147). -/
def rndOf : Nat → Dec Rnd
  | 0 => .ok .rne | 1 => .ok .rz | 2 => .ok .ru | 3 => .ok .rd | 4 => .ok .sr | _ => .error .reserved

/-- A condition (R181). -/
def condOf : Nat → Dec Cond
  | 0 => .ok .eq | 1 => .ok .ne | 2 => .ok .lt | 3 => .ok .ge | 4 => .ok .ltu | 5 => .ok .geu
  | 6 => .ok .le | 7 => .ok .gt | 8 => .ok .leu | 9 => .ok .gtu | 10 => .ok .un | 11 => .ok .ord
  | _ => .error .reserved

/-- A conversion kind (R180). -/
def kindOf : Nat → Dec CvtKind
  | 0 => .ok .f2i | 1 => .ok .f2u | 2 => .ok .i2f | 3 => .ok .u2f | 4 => .ok .f2b | 5 => .ok .b2f
  | 6 => .ok .f2h | 7 => .ok .h2f | _ => .error .reserved

/-- A semiring (R161). -/
def srOf : Nat → Dec SemiRing
  | 0 => .ok .pt | 1 => .ok .minp | 2 => .ok .maxp | 3 => .ok .maxt | 4 => .ok .orand | _ => .error .reserved

/-- An ordering (R201, R214). -/
def semOf (v : Nat) : Sem := match v % 4 with | 0 => .relaxed | 1 => .acq | 2 => .rel | _ => .ar
/-- A scope (R201). -/
def scopeOf (v : Nat) : Scope := match v % 4 with | 0 => .a | 1 => .c | 2 => .k | _ => .p

/-- A parameter word (R27): a marker has zero bits 27:6 and a valid selector. -/
def pwordOf (v : Nat) : Dec PWord :=
  if bits v 31 28 = 15 then
    if bits v 27 6 = 0 then (scalarOf (bits v 5 0)).map .subst else .error .marker
  else .ok (.const (BitVec.ofNat 32 v))

/-- A control word (R196): never a marker, its bits 31:`top` reserved. -/
def ctlWord (v top : Nat) : Dec Unit :=
  if bits v 31 28 = 15 then .error .marker else needZero (v / 2 ^ top)

/-- Two operands and a width (R174, R178). -/
def decQ2w (mk : Width → Scalar → Scalar → Guard → Instr) (w0 : Nat) : Dec Instr := do
  let a ← scalarOf (f17 w0); let b ← scalarOf (f11 w0)
  return mk (widthOf (bits w0 1 0)) a b (guardOf w0)
/-- One operand and a width; `b` reserved (R175). -/
def decQ1w (mk : Width → Scalar → Guard → Instr) (w0 : Nat) : Dec Instr := do
  let a ← scalarOf (f17 w0); needZero (f11 w0)
  return mk (widthOf (bits w0 1 0)) a (guardOf w0)
/-- Two operands; `w` is reserved in an instruction that does not use it (R40). -/
def decQ2 (mk : Scalar → Scalar → Guard → Instr) (w0 : Nat) : Dec Instr := do
  let a ← scalarOf (f17 w0); let b ← scalarOf (f11 w0); needZero (bits w0 1 0)
  return mk a b (guardOf w0)
/-- One operand; `b` and `w` reserved (R40). -/
def decQ1 (mk : Scalar → Guard → Instr) (w0 : Nat) : Dec Instr := do
  let a ← scalarOf (f17 w0); needZero (f11 w0); needZero (bits w0 1 0)
  return mk a (guardOf w0)
/-- Format I with a 12-bit immediate (R176). -/
def decI (mk : Scalar → BitVec 12 → Instr) (w0 : Nat) : Dec Instr := do
  let a ← scalarOf (f17 w0)
  return mk a (BitVec.ofNat 12 (bits w0 11 0))
/-- Format I with a shift count; `imm`[11:6] reserved (R176). -/
def decIs (mk : Scalar → BitVec 6 → Instr) (w0 : Nat) : Dec Instr := do
  let a ← scalarOf (f17 w0); needZero (f11 w0)
  return mk a (BitVec.ofNat 6 (f5 w0))
/-- Format B (R184). -/
def decB (mk : Fin 8 → BitVec 18 → Instr) (w0 : Nat) : Dec Instr :=
  return mk (Fin.ofNat 8 (bits w0 20 18)) (BitVec.ofNat 18 (bits w0 17 0))
/-- Predicate operations of format T (R182). -/
def decP (mk : Fin 8 → Fin 8 → Fin 8 → Instr) (w0 : Nat) : Dec Instr := do
  let d ← numOf 8 (f17 w0); let a ← numOf 8 (f11 w0); let b ← numOf 8 (f5 w0)
  return mk d a b

/-- maj 0x01 (R174). -/
def decMaj01 (fn w0 : Nat) : Dec Instr :=
  match fn with
  | 0 => decQ2w .add w0 | 1 => decQ2w .sub w0 | 2 => decQ2w .mul w0 | 3 => decQ2w .mulh w0
  | 4 => decQ2w .mulhu w0 | 5 => decQ2w .div w0 | 6 => decQ2w .divu w0 | 7 => decQ2w .rem w0
  | 8 => decQ2w .remu w0 | _ => .error .fn
/-- maj 0x02 (R174). -/
def decMaj02 (fn w0 : Nat) : Dec Instr :=
  match fn with
  | 0 => decQ2w .and w0 | 1 => decQ2w .or w0 | 2 => decQ2w .xor w0 | 3 => decQ2w .andn w0
  | 4 => decQ2w .orn w0 | 5 => decQ2w .shl w0 | 6 => decQ2w .shr w0 | 7 => decQ2w .sar w0
  | 8 => decQ2w .rol w0 | _ => .error .fn
/-- maj 0x03 (R174, R175). -/
def decMaj03 (fn w0 : Nat) : Dec Instr :=
  match fn with
  | 0 => decQ2w .min w0 | 1 => decQ2w .max w0 | 2 => decQ2w .minu w0 | 3 => decQ2w .maxu w0
  | 4 => decQ1w .clz w0 | 5 => decQ1w .ctz w0 | 6 => decQ1w .popc w0 | 7 => decQ1w .sext w0
  | 8 => decQ1w .zext w0 | 9 => decQ1w .bswap w0 | _ => .error .fn
/-- maj 0x04 (R176). -/
def decMaj04 (fn w0 : Nat) : Dec Instr :=
  match fn with
  | 0 => decI .addi w0 | 1 => decI .andi w0 | 2 => decI .ori w0 | 3 => decI .xori w0
  | 4 => decIs .shli w0 | 5 => decIs .shri w0 | 6 => decIs .sari w0 | _ => .error .fn
/-- maj 0x05 (R177); `lit` takes its value from words 1 and 2. -/
def decMaj05 (fn w0 w1 w2 : Nat) : Dec Instr :=
  match fn with
  | 0 => do needZero (f17 w0); return .li (BitVec.ofNat 12 (bits w0 11 0))
  | 1 => do needZero (bits w0 17 0); return .lit (BitVec.ofNat 64 (w1 + 2 ^ 32 * w2))
  | _ => .error .fn
/-- maj 0x06 (R178). -/
def decMaj06 (fn w0 : Nat) : Dec Instr :=
  match fn with
  | 0 => do
    let d ← dstOf (f17 w0); let a ← scalarOf (f11 w0); needZero (f5 w0)
    match d with | some d => return .keep d a | none => .error .selector
  | 1 => decQ1 .dup w0 | 2 => decQ2w .lea w0 | _ => .error .fn
/-- maj 0x08 (R179). -/
def decMaj08 (fn w0 : Nat) : Dec Instr :=
  match fn with
  | 0 => decQ2 .fadd w0 | 1 => decQ2 .fsub w0 | 2 => decQ2 .fmul w0 | 3 => decQ2 .fdiv w0
  | 4 => decQ2 .fmin w0 | 5 => decQ2 .fmax w0 | 6 => decQ1 .fabs w0 | 7 => decQ1 .fsqrt w0
  | _ => .error .fn
/-- maj 0x09, 0x0C, 0x15 with the scalar extension (R24, R180, R181, R187). -/
def decMaj09 (fn w0 w1 w2 : Nat) : Dec Instr := do
  let a ← scalarOf (f17 w0)
  let dst ← dstOf (bits w1 25 20); let rnd ← rndOf (bits w1 12 10)
  needZero (bits w1 19 13); needZero (bits w1 4 0); needZero w2
  match fn with
  | 0 =>
    let b ← scalarOf (f11 w0); let c ← scalarOf (bits w1 31 26)
    needZero (bits w0 1 0); needZero (bits w1 9 6)
    return .ffma a b c dst rnd (bit w1 5) (guardOf w0)
  | 1 =>
    let k ← kindOf (bits w1 9 6); needZero (f11 w0); needZero (bits w1 31 26)
    return .fcvt k (widthOf (bits w0 1 0)) a dst rnd (bit w1 5) (guardOf w0)
  | _ => .error .fn
/-- maj 0x0C (R181). -/
def decMaj0C (fn w0 w1 w2 : Nat) : Dec Instr := do
  let a ← scalarOf (f17 w0); let b ← scalarOf (f11 w0); let c ← condOf (bits w1 16 13)
  needZero (bits w1 31 20); needZero (bits w1 12 0); needZero w2
  let dp := Fin.ofNat 8 (bits w1 19 17)
  match fn with
  | 0 => return .pset c (widthOf (bits w0 1 0)) a b dp (guardOf w0)
  | 1 => needZero (bits w0 1 0); return .psetf c a b dp (guardOf w0)
  | _ => .error .fn
/-- maj 0x0D (R182). -/
def decMaj0D (fn w0 : Nat) : Dec Instr :=
  match fn with
  | 0 => decP .pand w0 | 1 => decP .por w0 | 2 => decP .pxor w0
  | 3 => do
    let d ← numOf 8 (f17 w0); let a ← numOf 8 (f11 w0); needZero (f5 w0); return .pnot d a
  | _ => .error .fn
/-- maj 0x10 (R184). -/
def decMaj10 (w0 : Nat) : Dec Instr :=
  match bits w0 23 21 with
  | 0 => decB .br w0 | 1 => decB .bp w0 | 2 => decB .call w0
  | 3 => do needZero (bits w0 17 0); return .ret (Fin.ofNat 8 (bits w0 20 18))
  | 4 => decB .loop w0 | _ => .error .fn
/-- maj 0x15 (R187). -/
def decMaj15 (fn w0 w1 w2 : Nat) : Dec Instr := do
  let a ← scalarOf (f17 w0); let b ← scalarOf (f11 w0)
  needZero (bits w1 19 10); needZero (bits w1 5 0)
  match fn with
  | 0 =>
    let dst ← dstOf (bits w1 25 20); needZero (bits w1 31 26); need (bits w1 9 6 ≤ 1) .reserved
    return .ldx (widthOf (bits w0 1 0)) a b (BitVec.ofNat 32 w2) (bits w1 9 6 == 1) dst (guardOf w0)
  | 1 =>
    let c ← scalarOf (bits w1 31 26); needZero (bits w1 25 20); needZero (bits w1 9 6)
    return .stx (widthOf (bits w0 1 0)) a b c (BitVec.ofNat 32 w2) (guardOf w0)
  | _ => .error .fn

/-- maj 0x18 (R195). -/
def decMaj18 (fn w0 : Nat) : Dec Instr :=
  match fn with
  | 0 => do let d ← tileOf (f17 w0); needZero (bits w0 11 0); return .tfree d
  | 1 => do
    let a ← tileOf (f11 w0); needZero (f17 w0); need (f5 w0 ≤ 1) .selector; return .tstat a (f5 w0 == 1)
  | 2 => do let d ← tileOf (f17 w0); needZero (bits w0 11 0); return .tzero d
  | _ => .error .fn
/-- maj 0x19 (R195, R196). -/
def decMaj19 (fn w0 p0 p1 p2 p3 : Nat) : Dec Instr :=
  match fn with
  | 0 => do
    let d ← tileOf (f17 w0); needZero (bits w0 11 0)
    let l0 ← pwordOf p0; let l1 ← pwordOf p1; let pi ← pwordOf p2; ctlWord p3 28
    let bar ← numOf 9 (bits p3 26 23)
    return .tdef d l0 l1 pi (BitVec.ofNat 8 (bits p3 7 0)) (BitVec.ofNat 11 (bits p3 18 8))
      (Fin.ofNat 16 (bits p3 22 19)) bar (bit p3 27)
  | 1 => do
    let d ← tileOf (f17 w0); let a ← tileOf (f11 w0); needZero (f5 w0); needZero p0; needZero p1
    ctlWord p2 19; ctlWord p3 19; need (bits p2 7 0 ≤ 127) .reserved; need (bits p2 18 8 ≤ 1023) .reserved
    return .tview d a (BitVec.ofNat 7 (bits p2 7 0)) (BitVec.ofNat 10 (bits p2 18 8))
      (BitVec.ofNat 8 (bits p3 7 0)) (BitVec.ofNat 11 (bits p3 18 8))
  | _ => .error .fn
/-- maj 0x1A (R200, R201). -/
def decMaj1A (fn w0 p0 p1 p2 p3 : Nat) : Dec Instr := do
  needZero (bits w0 2 0); ctlWord p3 14
  let gm := bits w0 4 3
  let lu := bit w0 5
  let a0 ← pwordOf p0; let a1 ← pwordOf p1; let a2 ← pwordOf p2
  let wbar ← numOf 9 (bits p3 3 0)
  let args (tile : TileSel) (gf : GForm) : CopyArgs :=
    ⟨tile, gf, lu, a0, a1, a2, semOf (bits p3 5 4), scopeOf (bits p3 7 6), wbar⟩
  let gfOf (other : Nat) : Dec GForm := match gm with
    | 0 => do needZero other; return .g2
    | 1 => do needZero other; return .g4
    | 2 => do let t ← tileOf other; return .gt t
    | _ => .error .reserved
  match fn with
  | 0 =>
    let t ← tileOf (f17 w0); let f ← tileOf (f11 w0)
    needZero gm; needZero p0; needZero p1; needZero p2; needZero p3
    return .tcopy t f lu
  | 1 =>
    let t ← tileOf (f17 w0); let g ← gfOf (f11 w0); needZero (bits p3 13 8); return .tfetch (args t g)
  | 2 =>
    let f ← tileOf (f11 w0); let g ← gfOf (f17 w0); needZero (bits p3 13 8); return .twrite (args f g)
  | 3 =>
    let t ← tileOf (f17 w0); let g ← gfOf (f11 w0); let ix ← tileOf (bits p3 13 8); return .tgath (args t g) ix
  | 4 =>
    let f ← tileOf (f11 w0); let g ← gfOf (f17 w0); let ix ← tileOf (bits p3 13 8); return .tscat (args f g) ix
  | _ => .error .fn
/-- maj 0x1B (R209). -/
def decMaj1B (fn w0 : Nat) : Dec Instr := do
  let d ← numOf 4 (f17 w0)
  match fn with
  | 0 => do let a ← numOf 28 (f11 w0); let b ← numOf 9 (f5 w0); return .rdef d a b
  | 1 => do need (f11 w0 ≤ 1) .selector; return .radv d (f11 w0 == 1) (Fin.ofNat 64 (f5 w0))
  | 2 => do need (f11 w0 ≤ 1) .selector; let k ← numOf 8 (f5 w0); return .rwait d (f11 w0 == 1) k
  | _ => .error .fn
/-- maj 0x1C (R211). -/
def decMaj1C (fn w0 : Nat) : Dec Instr := do
  let d ← numOf 8 (f17 w0)
  match fn with
  | 0 => do let a ← scalarOf (f11 w0); needZero (f5 w0); return .binit d a
  | 1 => do let a ← scalarOf (f11 w0); needZero (f5 w0); return .bexp d a
  | 2 => do let a ← scalarOf (f11 w0); need (f5 w0 ≤ 1) .selector; return .bwait d a (f5 w0 == 1)
  | 3 => do needZero (f11 w0); need (f5 w0 ≤ 1) .selector; return .bstat d (f5 w0 == 1)
  | _ => .error .fn

/-- maj 0x20 (R234). -/
def decMaj20 (fn w0 : Nat) : Dec Instr :=
  match fn with
  | 0 => do let c ← accOf (f17 w0); needZero (f11 w0); let sr ← srOf (f5 w0); return .mclr c sr
  | 1 => do
    needZero (f17 w0); let a ← tileOf (f11 w0); needZero (bits w0 5 2); needZero (bits w0 0 0)
    return .mlda a (bit w0 1)
  | 2 => do
    needZero (f17 w0); let a ← tileOf (f11 w0); needZero (bits w0 5 2); return .mldb a (bit w0 0) (bit w0 1)
  | 3 => do
    needZero (f17 w0); let a ← tileOf (f11 w0); needZero (bits w0 5 2); return .mtr a (bit w0 0) (bit w0 1)
  | 4 => do
    needZero (f17 w0); let a ← scalarOf (f11 w0); let b ← scalarOf (f5 w0); return .mrelay a b
  | _ => .error .fn
/-- The A operand of a multiply-accumulate (R240). -/
def opAOf (v : Nat) : Dec OpA := if v = 48 then .ok .la else (tileOf v).map .tile
/-- The B operand of a multiply-accumulate (R240). -/
def opBOf (v : Nat) : Dec OpB := if v = 49 then .ok .lb else (tileOf v).map .tile
/-- The source of `macc` (R240). -/
def opCOf (v : Nat) : Dec OpC := if 50 ≤ v then (accOf v).map .acc else (tileOf v).map .tile
/-- A scale tile when its enable bit is 1; reserved otherwise (R239). -/
def scaleOf (en : Bool) (v : Nat) : Dec (Option TileSel) :=
  if en then (tileOf v).map some else do needZero v; return none
/-- maj 0x21 (R239, R240). -/
def decMaj21 (fn w0 w1 w2 : Nat) : Dec Instr := do
  let c ← accOf (f17 w0); let sr ← srOf (bits w1 17 15); needZero (bits w1 12 0); needZero w2
  match fn with
  | 0 => do
    let a ← opAOf (f11 w0); let b ← opBOf (f5 w0); needZero (bits w1 31 18)
    return .mma c a b sr (bit w1 13) (bit w1 14)
  | 1 => do
    let a ← opAOf (f11 w0); let b ← opBOf (f5 w0)
    let sa ← scaleOf (bit w1 19) (bits w1 31 26); let sb ← scaleOf (bit w1 18) (bits w1 25 20)
    return .mmas c a b sa sb sr (bit w1 13) (bit w1 14)
  | 2 => do
    let a ← opCOf (f11 w0); needZero (f5 w0); needZero (bits w1 31 18); needZero (bits w1 14 14)
    return .macc c a sr (bit w1 13)
  | _ => .error .fn
/-- maj 0x22 (R243). -/
def decMaj22 (fn w0 p0 p1 p2 p3 : Nat) : Dec Instr :=
  match fn with
  | 0 => do
    let c ← accOf (f17 w0); let t ← tileOf (f11 w0); needZero (f5 w0)
    ctlWord p0 23; needZero (bits p0 15 15); needZero (bits p0 7 5); needZero p1; needZero p2; needZero p3
    let rnd ← rndOf (bits p0 2 0)
    return .mst c t (BitVec.ofNat 7 (bits p0 14 8)) (BitVec.ofNat 7 (bits p0 22 16)) (bit p0 4) (bit p0 3) rnd
  | _ => .error .fn

/-- The extension of the vector group (R245). -/
def vextOf (w1 w2 : Nat) : Dec VExt := do
  let c ← tileOf (bits w1 31 26); let sx ← scalarOf (bits w1 25 20); let rnd ← rndOf (bits w1 19 17)
  needZero (bits w1 7 0)
  return ⟨c, sx, rnd, bit w1 16, bit w1 15, bit w1 14, bit w1 13, bit w1 12, Fin.ofNat 16 (bits w1 11 8),
    BitVec.ofNat 32 w2⟩
/-- Vector instructions with two source tiles. -/
def decV3 (mk : TileSel → TileSel → TileSel → VExt → Instr) (w0 w1 w2 : Nat) : Dec Instr := do
  let d ← tileOf (f17 w0); let a ← tileOf (f11 w0); let b ← tileOf (f5 w0); let e ← vextOf w1 w2
  return mk d a b e
/-- Vector instructions with one source tile; `b` reserved. -/
def decV2 (mk : TileSel → TileSel → VExt → Instr) (w0 w1 w2 : Nat) : Dec Instr := do
  let d ← tileOf (f17 w0); let a ← tileOf (f11 w0); needZero (f5 w0); let e ← vextOf w1 w2
  return mk d a e
/-- maj 0x24 to 0x2B (R249 to R259). -/
def decVector (maj fn w0 w1 w2 : Nat) : Dec Instr :=
  match maj, fn with
  | 0x24, 0 => decV3 .vadd w0 w1 w2 | 0x24, 1 => decV3 .vsub w0 w1 w2 | 0x24, 2 => decV3 .vmul w0 w1 w2
  | 0x24, 3 => decV3 .vdiv w0 w1 w2 | 0x24, 4 => decV3 .vmin w0 w1 w2 | 0x24, 5 => decV3 .vmax w0 w1 w2
  | 0x24, 6 => decV3 .vfma w0 w1 w2
  | 0x25, 0 => decV2 .vabs w0 w1 w2 | 0x25, 1 => decV2 .vneg w0 w1 w2 | 0x25, 2 => decV2 .vexp w0 w1 w2
  | 0x25, 3 => decV2 .vexp2 w0 w1 w2 | 0x25, 4 => decV2 .vlog w0 w1 w2 | 0x25, 5 => decV2 .vrcp w0 w1 w2
  | 0x25, 6 => decV2 .vrsqrt w0 w1 w2 | 0x25, 7 => decV2 .vsqrt w0 w1 w2 | 0x25, 8 => decV2 .vtanh w0 w1 w2
  | 0x25, 9 => decV2 .vsigm w0 w1 w2 | 0x25, 10 => decV2 .verf w0 w1 w2
  | 0x26, 0 => decV3 .vcmp w0 w1 w2 | 0x26, 1 => decV3 .vsel w0 w1 w2
  | 0x27, 0 => decV2 .vrsum w0 w1 w2 | 0x27, 1 => decV2 .vrmax w0 w1 w2 | 0x27, 2 => decV2 .vrmin w0 w1 w2
  | 0x27, 3 => decV2 .vcsum w0 w1 w2 | 0x27, 4 => decV2 .vscan w0 w1 w2
  | 0x28, 0 => decV2 .vcvt w0 w1 w2 | 0x28, 1 => decV2 .vquant w0 w1 w2 | 0x28, 2 => decV2 .vdeq w0 w1 w2
  | 0x28, 3 => decV2 .vscale w0 w1 w2
  | 0x29, 0 => decV2 .vtrans w0 w1 w2 | 0x29, 1 => decV3 .vperm w0 w1 w2 | 0x29, 2 => decV3 .vgath w0 w1 w2
  | 0x29, 3 => decV2 .vbcast w0 w1 w2 | 0x29, 4 => decV3 .vpack w0 w1 w2 | 0x29, 5 => decV2 .vunpk w0 w1 w2
  | 0x2A, 0 => decV3 .viadd w0 w1 w2 | 0x2A, 1 => decV3 .visub w0 w1 w2 | 0x2A, 2 => decV3 .vimul w0 w1 w2
  | 0x2A, 3 => decV3 .vand w0 w1 w2 | 0x2A, 4 => decV3 .vor w0 w1 w2 | 0x2A, 5 => decV3 .vxor w0 w1 w2
  | 0x2A, 6 => decV3 .vshl w0 w1 w2 | 0x2A, 7 => decV3 .vshr w0 w1 w2
  | 0x2B, 0 => decV2 .vsmx w0 w1 w2 | 0x2B, 1 => decV3 .vlut w0 w1 w2
  | 0x2B, 2 => do
    let d ← tileOf (f17 w0); needZero (bits w0 11 0); let e ← vextOf w1 w2; return .vfill d e
  | _, _ => .error .fn

/-- maj 0x30 (R214). -/
def decMaj30 (fn w0 w1 w2 : Nat) : Dec Instr := do
  let a ← scalarOf (f17 w0); let b ← scalarOf (f11 w0); need (bits w0 1 0 == 3) .reserved
  let dst ← dstOf (bits w1 25 20); needZero (bits w1 14 0)
  let sem := semOf (bits w1 19 18); let sc := scopeOf (bits w1 17 16); let nr := bit w1 15
  let disp := BitVec.ofNat 32 w2; let g := guardOf w0
  let c ← scalarOf (bits w1 31 26)
  need (fn == 9 || bits w1 31 26 == 0) .reserved
  match fn with
  | 0 => return .aadd a b dst sem sc nr disp g
  | 1 => return .aand a b dst sem sc nr disp g
  | 2 => return .aor a b dst sem sc nr disp g
  | 3 => return .axor a b dst sem sc nr disp g
  | 4 => return .amin a b dst sem sc nr disp g
  | 5 => return .amax a b dst sem sc nr disp g
  | 6 => return .aminu a b dst sem sc nr disp g
  | 7 => return .amaxu a b dst sem sc nr disp g
  | 8 => return .axchg a b dst sem sc nr disp g
  | 9 => return .acas a b c dst sem sc nr disp g
  | _ => .error .fn
/-- maj 0x31 (R216). -/
def decMaj31 (fn w0 p0 p1 p2 p3 : Nat) : Dec Instr := do
  needZero (f17 w0)
  let a0 ← pwordOf p0; let a1 ← pwordOf p1; let a2 ← pwordOf p2
  match fn with
  | 0 =>
    let a ← scalarOf (f11 w0); let b ← numOf 14 (f5 w0); ctlWord p3 25
    let op ← match bits p3 24 23 with
      | 0 => .ok RedOp.sum | 1 => .ok RedOp.min | 2 => .ok RedOp.max | _ => .error DecodeError.reserved
    return .robj a b a0 a1 a2 (BitVec.ofNat 8 (bits p3 7 0)) (BitVec.ofNat 11 (bits p3 18 8))
      (Fin.ofNat 16 (bits p3 22 19)) op
  | 1 =>
    let a ← tileOf (f11 w0); needZero (f5 w0); ctlWord p3 1; return .ared a a0 a1 a2 (bit p3 0)
  | _ => .error .fn
/-- maj 0x32 (R213): kinds 01 `.acq`, 10 `.rel`, 11 `.ar`. -/
def decMaj32 (fn w0 : Nat) : Dec Instr :=
  match fn with
  | 0 => do
    needZero (f17 w0); needZero (bits w0 11 4)
    return .fence (bit w0 2) (bit w0 3) (scopeOf (bits w0 1 0))
  | _ => .error .fn
/-- maj 0x33 (R224). -/
def decMaj33 (fn w0 p0 p1 p2 p3 : Nat) : Dec Instr := do
  needZero (bits w0 17 0)
  let a0 ← pwordOf p0; let a1 ← pwordOf p1; let a2 ← pwordOf p2
  match fn with
  | 0 => ctlWord p3 2; return .balloc a0 a1 a2 (bit p3 0) (bit p3 1)
  | 1 => needZero p3; return .bfree a0 a1 a2
  | 2 => needZero p3; return .xmap a0 a1 a2
  | 3 => needZero p3; return .xunmap a0 a1 a2
  | _ => .error .fn

/-- The first `n` of four fields as selectors; the others must be 0 (R265). -/
def takeFields {α : Type} (f : Nat → Dec α) : Nat → List Nat → Dec (List α)
  | _, [] => .ok []
  | 0, v :: vs => do needZero v; takeFields f 0 vs
  | n + 1, v :: vs => do let x ← f v; let xs ← takeFields f n vs; return x :: xs
/-- maj 0x34 (R265, R266). -/
def decMaj34 (fn w0 w1 w2 : Nat) : Dec Instr := do
  needZero (bits w0 1 0); needZero (bits w2 1 0)
  need (bits w1 7 5 ≤ 4) .reserved; need (bits w2 7 5 ≤ 4) .reserved
  let ch ← numOf 14 (bits w1 3 0)
  let pl ← takeFields scalarOf (bits w1 7 5) [bits w1 31 26, bits w1 25 20, bits w1 19 14, bits w1 13 8]
  let tl ← takeFields tileOf (bits w2 7 5) [bits w2 31 26, bits w2 25 20, bits w2 19 14, bits w2 13 8]
  let x : SendArgs := ⟨pl, bit w1 4, ch, tl, Fin.ofNat 8 (bits w2 4 2)⟩
  let a ← scalarOf (f17 w0)
  match fn with
  | 0 => needZero (f11 w0); return .send a x (guardOf w0)
  | 1 => needZero (f11 w0); return .sendt a x (guardOf w0)
  | 2 => needZero (bits w0 17 6); return .mcast x (guardOf w0)
  | 3 => needZero (f11 w0); return .callRequest a x (guardOf w0)
  | 4 =>
    let b ← scalarOf (f11 w0); needZero (bits w1 4 0); needZero w2
    match pl with
    | [p] => return .reply a b p (guardOf w0)
    | _ => .error .reserved
  | _ => .error .fn
/-- maj 0x35 (R273, R274). -/
def decMaj35 (fn w0 : Nat) : Dec Instr :=
  match fn with
  | 0 => do
    let a ← scalarOf (f17 w0); let b ← numOf 8 (f11 w0); needZero (bits w0 1 0); return .await a b (guardOf w0)
  | 1 => do needZero (bits w0 17 6); needZero (bits w0 1 0); return .end_ (guardOf w0)
  | _ => .error .fn
/-- maj 0x36 (R275). -/
def decMaj36 (fn w0 p0 p1 p2 p3 : Nat) : Dec Instr := do
  needZero (bits w0 17 0)
  let a0 ← pwordOf p0; let a1 ← pwordOf p1; let a2 ← pwordOf p2
  match fn with
  | 0 => ctlWord p3 2; return .spawn a0 a1 a2 (bit p3 0) (bit p3 1)
  | 1 => needZero p3; return .spawnc a0 a1 a2
  | _ => .error .fn
/-- maj 0x37 (R279). -/
def decMaj37 (fn w0 : Nat) : Dec Instr :=
  match fn with
  | 0 => decQ1 .link w0 | 1 => decQ1 .unlink w0 | 2 => decQ1 .monitor w0 | 3 => decQ1 .demon w0
  | 4 => decQ2 .exit w0
  | 5 => do
    let a ← scalarOf (f17 w0); needZero (f11 w0)
    let lv := match bits w0 1 0 with
      | 0 => KillLevel.act | 1 => KillLevel.coh | 2 => KillLevel.tree | _ => KillLevel.job
    return .kill a lv (guardOf w0)
  | 6 => decQ1 .trapx w0 | _ => .error .fn
/-- maj 0x38 (R284). -/
def decMaj38 (fn w0 : Nat) : Dec Instr :=
  match fn with
  | 0 => decQ1 .chmask w0 | 1 => decQ1 .prio w0 | 2 => decQ1 .lookup w0 | 3 => decQ2 .reg w0 | _ => .error .fn
/-- maj 0x39 (R286): the control value selects among the rows of the table. -/
def decMaj39 (fn w0 p0 p1 p2 p3 : Nat) : Dec Instr := do
  needZero (bits w0 17 0); needZero p1; needZero p2; ctlWord p3 2
  let r ← pwordOf p0
  match fn, bits p3 1 0 with
  | 0, 0 => return .supStart r
  | 0, 1 => return .supStop r
  | 1, 0 => return .supqName r
  | 1, 1 => return .supqCount r
  | 1, 2 => return .supqState r
  | 0, _ => .error .reserved
  | 1, _ => .error .reserved
  | _, _ => .error .fn
/-- maj 0x3A (R189). -/
def decMaj3A (fn w0 : Nat) : Dec Instr :=
  match fn with
  | 0 => decQ1 .sysrd w0 | 1 => decQ2 .syswr w0 | 2 => decQ1 .ctrd w0 | _ => .error .fn
/-- maj 0x3B (R191). -/
def decMaj3B (fn w0 : Nat) : Dec Instr :=
  match fn with
  | 0 => do needZero (bits w0 17 0); return .nop
  | 1 => do needZero (f17 w0); return .brk (BitVec.ofNat 12 (bits w0 11 0))
  | 2 => do needZero (bits w0 17 6); return .trap (BitVec.ofNat 6 (f5 w0))
  | _ => .error .fn
/-- maj 0x3C (R288). -/
def decMaj3C (fn w0 : Nat) : Dec Instr :=
  match fn with
  | 0 => do
    let a ← scalarOf (f17 w0); let b ← numOf 14 (f11 w0); needZero (bits w0 1 0); return .dhalt a b (guardOf w0)
  | 1 => decQ1 (fun a g => .dstep a 0 g) w0 | 2 => decQ1 .dres w0 | 3 => decQ1 .drd w0 | 4 => decQ2 .dwr w0 | _ => .error .fn
/-- maj 0x3D (R290). -/
def decMaj3D (fn w0 w1 w2 : Nat) : Dec Instr := do
  let a ← scalarOf (f17 w0); needZero (f11 w0); needZero (bits w0 1 0); needZero (bits w1 25 0)
  let g := guardOf w0
  match fn with
  | 0 => do
    let ix ← numOf 4 (bits w1 31 29); needZero (bits w1 27 26); needZero w2; return .dbp a ix (bit w1 28) g
  | 1 => do
    let ix ← numOf 4 (bits w1 31 29)
    return .dwp a ix (bit w1 28) (Fin.ofNat 4 (bits w1 27 26)) (BitVec.ofNat 32 w2) g
  | 2 => do needZero (bits w1 31 26); needZero w2; return .dtrc a g
  | _ => .error .fn
/-- maj 0x3E (R192, R193); the boot-mode check of R33 is made where the instruction is fetched. -/
def decMaj3E (fn w0 : Nat) : Dec Instr :=
  match fn with
  | 0 => decQ2 .rpwr w0 | 1 => decQ1 .rprd w0 | 2 => decQ1 .halt w0 | _ => .error .fn

/-- The `LEN` that the opcode map gives a (maj, fn) pair (R32); none where the map has no such major opcode. -/
def lenFor (maj fn : Nat) : Option Nat :=
  match maj with
  | 0x01 | 0x02 | 0x03 | 0x04 | 0x06 | 0x08 | 0x0D | 0x0E | 0x10 | 0x11 | 0x14 | 0x18 | 0x1B | 0x1C | 0x20
  | 0x32 | 0x35 | 0x37 | 0x38 | 0x3A | 0x3B | 0x3C | 0x3E => some 0
  | 0x05 => some (if fn = 1 then 2 else 0)
  | 0x09 | 0x0C | 0x15 | 0x21 | 0x24 | 0x25 | 0x26 | 0x27 | 0x28 | 0x29 | 0x2A | 0x2B | 0x30 | 0x34 | 0x3D => some 1
  | 0x19 | 0x1A | 0x22 | 0x31 | 0x33 | 0x36 | 0x39 => some 3
  | _ => none

/-- The instruction that a (maj, fn) pair and its words encode. -/
def decBody (w0 w1 w2 w3 w4 : Nat) : Dec Instr :=
  let fn := fnField w0
  match majField w0 with
  | 0x01 => decMaj01 fn w0 | 0x02 => decMaj02 fn w0 | 0x03 => decMaj03 fn w0 | 0x04 => decMaj04 fn w0
  | 0x05 => decMaj05 fn w0 w1 w2 | 0x06 => decMaj06 fn w0 | 0x08 => decMaj08 fn w0
  | 0x09 => decMaj09 fn w0 w1 w2 | 0x0C => decMaj0C fn w0 w1 w2 | 0x0D => decMaj0D fn w0
  | 0x0E => (match fn with | 0 => decQ2 .sel w0 | _ => .error .fn)
  | 0x10 => decMaj10 w0
  | 0x11 => (match fn with | 0 => decQ1 .jmpx w0 | _ => .error .fn)
  | 0x14 => (match fn with | 0 => decQ1w .ld w0 | 1 => decQ2w .st w0 | _ => .error .fn)
  | 0x15 => decMaj15 fn w0 w1 w2 | 0x18 => decMaj18 fn w0 | 0x19 => decMaj19 fn w0 w1 w2 w3 w4
  | 0x1A => decMaj1A fn w0 w1 w2 w3 w4 | 0x1B => decMaj1B fn w0 | 0x1C => decMaj1C fn w0
  | 0x20 => decMaj20 fn w0 | 0x21 => decMaj21 fn w0 w1 w2 | 0x22 => decMaj22 fn w0 w1 w2 w3 w4
  | 0x24 => decVector 0x24 fn w0 w1 w2 | 0x25 => decVector 0x25 fn w0 w1 w2 | 0x26 => decVector 0x26 fn w0 w1 w2
  | 0x27 => decVector 0x27 fn w0 w1 w2 | 0x28 => decVector 0x28 fn w0 w1 w2 | 0x29 => decVector 0x29 fn w0 w1 w2
  | 0x2A => decVector 0x2A fn w0 w1 w2 | 0x2B => decVector 0x2B fn w0 w1 w2
  | 0x30 => decMaj30 fn w0 w1 w2 | 0x31 => decMaj31 fn w0 w1 w2 w3 w4 | 0x32 => decMaj32 fn w0
  | 0x33 => decMaj33 fn w0 w1 w2 w3 w4 | 0x34 => decMaj34 fn w0 w1 w2 | 0x35 => decMaj35 fn w0
  | 0x36 => decMaj36 fn w0 w1 w2 w3 w4 | 0x37 => decMaj37 fn w0 | 0x38 => decMaj38 fn w0
  | 0x39 => decMaj39 fn w0 w1 w2 w3 w4 | 0x3A => decMaj3A fn w0 | 0x3B => decMaj3B fn w0
  | 0x3C => decMaj3C fn w0 | 0x3D => decMaj3D fn w0 w1 w2 | 0x3E => decMaj3E fn w0
  | _ => .error .major

/-- Decodes the instruction that starts a list of words, with the number of words it occupies (R16, R34). -/
def decodeWords : List Nat → Dec (Instr × Nat)
  | [] => .error .short
  | w0 :: ws =>
    match lenFor (majField w0) (fnField w0) with
    | none => .error .major
    | some l =>
      let n := wordsOfLen (lenField w0)
      match decBody w0 (ws.getD 0 0) (ws.getD 1 0) (ws.getD 2 0) (ws.getD 3 0) with
      | .error .fn => .error .fn
      | r =>
        if lenField w0 != l then .error .len
        else if ws.length + 1 < n then .error .short
        else match r with
          | .error e => .error e
          | .ok i => if i.wf then .ok (i, n) else .error .reserved

/-- The words of a list of bytes, little-endian (R17); bytes beyond the last whole word are left out. -/
def wordsOfBytes : List Byte → List Nat
  | b0 :: b1 :: b2 :: b3 :: bs => ofBytes [b0, b1, b2, b3] :: wordsOfBytes bs
  | _ => []

/-- Decodes the instruction at the head of a list of bytes: the instruction and its length in bytes. -/
def decode (bs : List Byte) : Dec (Instr × Nat) :=
  match decodeWords (wordsOfBytes bs) with
  | .ok (i, n) => .ok (i, 4 * n)
  | .error e => .error e

/-- The bytes of an instruction whose bits are numbered as the opcode table numbers them: the first `nbits` of `w`, the
bits above them 0 up to the longest instruction. -/
def tableBytes (nbits w : Nat) : List Byte := bytesOf 20 (w % 2 ^ nbits)

/-- What the decoder reads from the table's bits. -/
def decodeTableWord (nbits w : Nat) : Option Instr :=
  match decode (tableBytes nbits w) with
  | .ok (i, _) => some i
  | .error _ => none

/-! ## The encoder -/

/-- The code of a scalar selector (R29). -/
def Scalar.code : Scalar → Nat
  | .zero => 0 | .h k => k.val + 1 | .m k => k.val + 17 | .self => 21 | .sender => 22 | .chan => 23 | .s k => k.val + 32
/-- The code of a tile selector (R30). -/
def TileSel.code : TileSel → Nat
  | .t k => k.val | .q n k => 32 + 4 * n.val + k.val
/-- The code of the A operand (R240). -/
def OpA.code : OpA → Nat | .tile t => t.code | .la => 48
/-- The code of the B operand (R240). -/
def OpB.code : OpB → Nat | .tile t => t.code | .lb => 49
/-- The code of the source of `macc` (R240). -/
def OpC.code : OpC → Nat | .tile t => t.code | .acc k => 50 + k.val
/-- The code of a width (R21). -/
def Width.code : Width → Nat | .w8 => 0 | .w16 => 1 | .w32 => 2 | .w64 => 3
/-- The code of a rounding mode (R147). -/
def Rnd.code : Rnd → Nat | .rne => 0 | .rz => 1 | .ru => 2 | .rd => 3 | .sr => 4
/-- The code of a condition (R181). -/
def Cond.code : Cond → Nat
  | .eq => 0 | .ne => 1 | .lt => 2 | .ge => 3 | .ltu => 4 | .geu => 5 | .le => 6 | .gt => 7 | .leu => 8 | .gtu => 9
  | .un => 10 | .ord => 11
/-- The code of a conversion kind (R180). -/
def CvtKind.code : CvtKind → Nat
  | .f2i => 0 | .f2u => 1 | .i2f => 2 | .u2f => 3 | .f2b => 4 | .b2f => 5 | .f2h => 6 | .h2f => 7
/-- The code of a semiring (R234, R239). -/
def SemiRing.code : SemiRing → Nat | .pt => 0 | .minp => 1 | .maxp => 2 | .maxt => 3 | .orand => 4
/-- The code of an ordering (R201, R214). -/
def Sem.code : Sem → Nat | .relaxed => 0 | .acq => 1 | .rel => 2 | .ar => 3
/-- The code of a scope (R201). -/
def Scope.code : Scope → Nat | .a => 0 | .c => 1 | .k => 2 | .p => 3
/-- The code of a kill level (R279). -/
def KillLevel.code : KillLevel → Nat | .act => 0 | .coh => 1 | .tree => 2 | .job => 3
/-- The code of a reduction operation (R216). -/
def RedOp.code : RedOp → Nat | .sum => 0 | .min => 1 | .max => 2
/-- The code of a named destination (R24). -/
def dstCode : Option (Fin 16) → Nat | none => 0 | some k => 32 + k.val
/-- A parameter word (R27). -/
def PWord.code : PWord → Nat | .const v => v.toNat | .subst s => 15 * 2 ^ 28 + s.code
/-- The guard bits of a Q-form word (R20). -/
def Guard.code (g : Guard) : Nat := g.p.val * 8 + ofBool g.pn * 4

/-- Word 0 of formats Q, I and T (R20): `lo` holds bits 11:0. -/
def word0 (len maj fn f17 lo : Nat) : Nat := len * 2 ^ 30 + maj * 2 ^ 24 + fn * 2 ^ 18 + f17 * 2 ^ 12 + lo
/-- Word 0 of format Q. -/
def wordQ (len maj fn a b : Nat) (g : Guard) (w : Nat) : Nat := word0 len maj fn a (b * 2 ^ 6 + g.code + w)
/-- Word 0 of format T. -/
def wordT (len maj fn d a b : Nat) : Nat := word0 len maj fn d (a * 2 ^ 6 + b)
/-- Word 0 of format B. -/
def wordB (fn : Nat) (p : Fin 8) (off : Nat) : Nat := 0x10 * 2 ^ 24 + fn * 2 ^ 21 + p.val * 2 ^ 18 + off
/-- Word 1 of the scalar extension (R24). -/
def scalarExt (c dst dp cond rnd kind : Nat) (sat : Bool) : Nat :=
  c * 2 ^ 26 + dst * 2 ^ 20 + dp * 2 ^ 17 + cond * 2 ^ 13 + rnd * 2 ^ 10 + kind * 2 ^ 6 + ofBool sat * 2 ^ 5
/-- Word 1 of the vector extension (R245). -/
def VExt.word1 (e : VExt) : Nat :=
  e.c.code * 2 ^ 26 + e.sx.code * 2 ^ 20 + e.rnd.code * 2 ^ 17 + ofBool e.sat * 2 ^ 16 + ofBool e.lua * 2 ^ 15
    + ofBool e.lub * 2 ^ 14 + ofBool e.luc * 2 ^ 13 + ofBool e.xs * 2 ^ 12 + e.fx.val * 2 ^ 8
/-- The words of a vector instruction. -/
def encV (maj fn d a b : Nat) (e : VExt) : List Nat := [wordT 1 maj fn d a b, e.word1, e.k.toNat]
/-- The words of an atomic (R214). -/
def encA (fn : Nat) (a b : Scalar) (c : Nat) (dst : Option (Fin 16)) (sem : Sem) (sc : Scope) (nr : Bool) (disp : W32)
    (g : Guard) : List Nat :=
  [wordQ 1 0x30 fn a.code b.code g 3,
   c * 2 ^ 26 + dstCode dst * 2 ^ 20 + sem.code * 2 ^ 18 + sc.code * 2 ^ 16 + ofBool nr * 2 ^ 15, disp.toNat]
/-- The `gm` field and the code of the other tile of a copy (R200). -/
def GForm.gm : GForm → Nat | .g2 => 0 | .g4 => 1 | .gt _ => 2
/-- The tile field of the global side (R200). -/
def GForm.code : GForm → Nat | .gt t => t.code | _ => 0
/-- The words of a copy instruction: `to`, `from` and the index tile as codes (R200, R201). -/
def encC (fn to_ from_ ix : Nat) (c : CopyArgs) : List Nat :=
  [wordT 3 0x1A fn to_ from_ (ofBool c.lu * 32 + c.gf.gm * 8), c.p0.code, c.p1.code, c.p2.code,
   ix * 2 ^ 8 + c.sc.code * 2 ^ 6 + c.sem.code * 2 ^ 4 + c.wbar.val]
/-- Up to four 6-bit fields, the first at bits 31:26 (R265). -/
def fields4 : Nat → List Nat → Nat
  | _, [] => 0
  | hi, v :: vs => v * 2 ^ hi + fields4 (hi - 6) vs
/-- The words of a message instruction (R265). -/
def encS (fn a b : Nat) (g : Guard) (x : SendArgs) : List Nat :=
  [wordQ 1 0x34 fn a b g 0,
   fields4 26 (x.pl.map Scalar.code) + x.pl.length * 2 ^ 5 + ofBool x.bnc * 2 ^ 4 + x.ch.val,
   fields4 26 (x.tl.map TileSel.code) + x.tl.length * 2 ^ 5 + x.ys.val * 2 ^ 2]
/-- The words of a parameter-block instruction. -/
def encP (maj fn d a b : Nat) (p : List Nat) : List Nat := wordT 3 maj fn d a b :: p

/-- The instruction words of a term, as numbers; an event of the part has none. -/
def Instr.words : Instr → List Nat
  | .add w a b g => [wordQ 0 0x01 0 a.code b.code g w.code]
  | .sub w a b g => [wordQ 0 0x01 1 a.code b.code g w.code]
  | .mul w a b g => [wordQ 0 0x01 2 a.code b.code g w.code]
  | .mulh w a b g => [wordQ 0 0x01 3 a.code b.code g w.code]
  | .mulhu w a b g => [wordQ 0 0x01 4 a.code b.code g w.code]
  | .div w a b g => [wordQ 0 0x01 5 a.code b.code g w.code]
  | .divu w a b g => [wordQ 0 0x01 6 a.code b.code g w.code]
  | .rem w a b g => [wordQ 0 0x01 7 a.code b.code g w.code]
  | .remu w a b g => [wordQ 0 0x01 8 a.code b.code g w.code]
  | .and w a b g => [wordQ 0 0x02 0 a.code b.code g w.code]
  | .or w a b g => [wordQ 0 0x02 1 a.code b.code g w.code]
  | .xor w a b g => [wordQ 0 0x02 2 a.code b.code g w.code]
  | .andn w a b g => [wordQ 0 0x02 3 a.code b.code g w.code]
  | .orn w a b g => [wordQ 0 0x02 4 a.code b.code g w.code]
  | .shl w a b g => [wordQ 0 0x02 5 a.code b.code g w.code]
  | .shr w a b g => [wordQ 0 0x02 6 a.code b.code g w.code]
  | .sar w a b g => [wordQ 0 0x02 7 a.code b.code g w.code]
  | .rol w a b g => [wordQ 0 0x02 8 a.code b.code g w.code]
  | .min w a b g => [wordQ 0 0x03 0 a.code b.code g w.code]
  | .max w a b g => [wordQ 0 0x03 1 a.code b.code g w.code]
  | .minu w a b g => [wordQ 0 0x03 2 a.code b.code g w.code]
  | .maxu w a b g => [wordQ 0 0x03 3 a.code b.code g w.code]
  | .clz w a g => [wordQ 0 0x03 4 a.code 0 g w.code]
  | .ctz w a g => [wordQ 0 0x03 5 a.code 0 g w.code]
  | .popc w a g => [wordQ 0 0x03 6 a.code 0 g w.code]
  | .sext w a g => [wordQ 0 0x03 7 a.code 0 g w.code]
  | .zext w a g => [wordQ 0 0x03 8 a.code 0 g w.code]
  | .bswap w a g => [wordQ 0 0x03 9 a.code 0 g w.code]
  | .addi a imm => [word0 0 0x04 0 a.code imm.toNat]
  | .andi a imm => [word0 0 0x04 1 a.code imm.toNat]
  | .ori a imm => [word0 0 0x04 2 a.code imm.toNat]
  | .xori a imm => [word0 0 0x04 3 a.code imm.toNat]
  | .shli a imm => [word0 0 0x04 4 a.code imm.toNat]
  | .shri a imm => [word0 0 0x04 5 a.code imm.toNat]
  | .sari a imm => [word0 0 0x04 6 a.code imm.toNat]
  | .li imm => [word0 0 0x05 0 0 imm.toNat]
  | .lit v => [word0 2 0x05 1 0 0, v.toNat % 2 ^ 32, v.toNat / 2 ^ 32]
  | .keep d a => [wordT 0 0x06 0 (32 + d.val) a.code 0]
  | .dup a g => [wordQ 0 0x06 1 a.code 0 g 0]
  | .lea w a b g => [wordQ 0 0x06 2 a.code b.code g w.code]
  | .fadd a b g => [wordQ 0 0x08 0 a.code b.code g 0]
  | .fsub a b g => [wordQ 0 0x08 1 a.code b.code g 0]
  | .fmul a b g => [wordQ 0 0x08 2 a.code b.code g 0]
  | .fdiv a b g => [wordQ 0 0x08 3 a.code b.code g 0]
  | .fmin a b g => [wordQ 0 0x08 4 a.code b.code g 0]
  | .fmax a b g => [wordQ 0 0x08 5 a.code b.code g 0]
  | .fabs a g => [wordQ 0 0x08 6 a.code 0 g 0]
  | .fsqrt a g => [wordQ 0 0x08 7 a.code 0 g 0]
  | .ffma a b c dst rnd sat g =>
    [wordQ 1 0x09 0 a.code b.code g 0, scalarExt c.code (dstCode dst) 0 0 rnd.code 0 sat, 0]
  | .fcvt k w a dst rnd sat g =>
    [wordQ 1 0x09 1 a.code 0 g w.code, scalarExt 0 (dstCode dst) 0 0 rnd.code k.code sat, 0]
  | .pset c w a b dp g => [wordQ 1 0x0C 0 a.code b.code g w.code, scalarExt 0 0 dp.val c.code 0 0 false, 0]
  | .psetf c a b dp g => [wordQ 1 0x0C 1 a.code b.code g 0, scalarExt 0 0 dp.val c.code 0 0 false, 0]
  | .pand d a b => [wordT 0 0x0D 0 d.val a.val b.val]
  | .por d a b => [wordT 0 0x0D 1 d.val a.val b.val]
  | .pxor d a b => [wordT 0 0x0D 2 d.val a.val b.val]
  | .pnot d a => [wordT 0 0x0D 3 d.val a.val 0]
  | .sel a b g => [wordQ 0 0x0E 0 a.code b.code g 0]
  | .br p off => [wordB 0 p off.toNat]
  | .bp p off => [wordB 1 p off.toNat]
  | .call p off => [wordB 2 p off.toNat]
  | .ret p => [wordB 3 p 0]
  | .loop p off => [wordB 4 p off.toNat]
  | .jmpx a g => [wordQ 0 0x11 0 a.code 0 g 0]
  | .ld w a g => [wordQ 0 0x14 0 a.code 0 g w.code]
  | .st w a b g => [wordQ 0 0x14 1 a.code b.code g w.code]
  | .ldx w a b disp sx dst g =>
    [wordQ 1 0x15 0 a.code b.code g w.code, scalarExt 0 (dstCode dst) 0 0 0 (ofBool sx) false, disp.toNat]
  | .stx w a b c disp g => [wordQ 1 0x15 1 a.code b.code g w.code, scalarExt c.code 0 0 0 0 0 false, disp.toNat]
  | .tfree d => [wordT 0 0x18 0 d.code 0 0]
  | .tstat a hi => [wordT 0 0x18 1 0 a.code (ofBool hi)]
  | .tzero d => [wordT 0 0x18 2 d.code 0 0]
  | .tdef d l0 l1 pi rows cols fmt bar glob =>
    encP 0x19 0 d.code 0 0 [l0.code, l1.code, pi.code,
      rows.toNat + cols.toNat * 2 ^ 8 + fmt.val * 2 ^ 19 + bar.val * 2 ^ 23 + ofBool glob * 2 ^ 27]
  | .tview d a row0 col0 rows cols =>
    encP 0x19 1 d.code a.code 0 [0, 0, row0.toNat + col0.toNat * 2 ^ 8, rows.toNat + cols.toNat * 2 ^ 8]
  | .tcopy t f lu => encP 0x1A 0 t.code f.code (ofBool lu * 32) [0, 0, 0, 0]
  | .tfetch c => encC 1 c.tile.code c.gf.code 0 c
  | .twrite c => encC 2 c.gf.code c.tile.code 0 c
  | .tgath c ix => encC 3 c.tile.code c.gf.code ix.code c
  | .tscat c ix => encC 4 c.gf.code c.tile.code ix.code c
  | .rdef d a b => [wordT 0 0x1B 0 d.val a.val b.val]
  | .radv d c k => [wordT 0 0x1B 1 d.val (ofBool c) k.val]
  | .rwait d c k => [wordT 0 0x1B 2 d.val (ofBool c) k.val]
  | .binit d a => [wordT 0 0x1C 0 d.val a.code 0]
  | .bexp d a => [wordT 0 0x1C 1 d.val a.code 0]
  | .bwait d a b => [wordT 0 0x1C 2 d.val a.code (ofBool b)]
  | .bstat d hi => [wordT 0 0x1C 3 d.val 0 (ofBool hi)]
  | .mclr c sr => [wordT 0 0x20 0 (50 + c.val) 0 sr.code]
  | .mlda a lu => [wordT 0 0x20 1 0 a.code (ofBool lu * 2)]
  | .mldb a rl lu => [wordT 0 0x20 2 0 a.code (ofBool rl + ofBool lu * 2)]
  | .mtr a lat lu => [wordT 0 0x20 3 0 a.code (ofBool lat + ofBool lu * 2)]
  | .mrelay a b => [wordT 0 0x20 4 0 a.code b.code]
  | .mma c a b sr la lb =>
    [wordT 1 0x21 0 (50 + c.val) a.code b.code, sr.code * 2 ^ 15 + ofBool la * 2 ^ 13 + ofBool lb * 2 ^ 14, 0]
  | .mmas c a b sa sb sr la lb =>
    [wordT 1 0x21 1 (50 + c.val) a.code b.code,
     (sa.map TileSel.code).getD 0 * 2 ^ 26 + (sb.map TileSel.code).getD 0 * 2 ^ 20 + ofBool sa.isSome * 2 ^ 19
       + ofBool sb.isSome * 2 ^ 18 + sr.code * 2 ^ 15 + ofBool la * 2 ^ 13 + ofBool lb * 2 ^ 14, 0]
  | .macc c a sr la => [wordT 1 0x21 2 (50 + c.val) a.code 0, sr.code * 2 ^ 15 + ofBool la * 2 ^ 13, 0]
  | .mst c t row0 col0 clr sat rnd =>
    encP 0x22 0 (50 + c.val) t.code 0
      [rnd.code + ofBool sat * 8 + ofBool clr * 16 + row0.toNat * 2 ^ 8 + col0.toNat * 2 ^ 16, 0, 0, 0]
  | .vadd d a b e => encV 0x24 0 d.code a.code b.code e
  | .vsub d a b e => encV 0x24 1 d.code a.code b.code e
  | .vmul d a b e => encV 0x24 2 d.code a.code b.code e
  | .vdiv d a b e => encV 0x24 3 d.code a.code b.code e
  | .vmin d a b e => encV 0x24 4 d.code a.code b.code e
  | .vmax d a b e => encV 0x24 5 d.code a.code b.code e
  | .vfma d a b e => encV 0x24 6 d.code a.code b.code e
  | .vabs d a e => encV 0x25 0 d.code a.code 0 e
  | .vneg d a e => encV 0x25 1 d.code a.code 0 e
  | .vexp d a e => encV 0x25 2 d.code a.code 0 e
  | .vexp2 d a e => encV 0x25 3 d.code a.code 0 e
  | .vlog d a e => encV 0x25 4 d.code a.code 0 e
  | .vrcp d a e => encV 0x25 5 d.code a.code 0 e
  | .vrsqrt d a e => encV 0x25 6 d.code a.code 0 e
  | .vsqrt d a e => encV 0x25 7 d.code a.code 0 e
  | .vtanh d a e => encV 0x25 8 d.code a.code 0 e
  | .vsigm d a e => encV 0x25 9 d.code a.code 0 e
  | .verf d a e => encV 0x25 10 d.code a.code 0 e
  | .vcmp d a b e => encV 0x26 0 d.code a.code b.code e
  | .vsel d a b e => encV 0x26 1 d.code a.code b.code e
  | .vrsum d a e => encV 0x27 0 d.code a.code 0 e
  | .vrmax d a e => encV 0x27 1 d.code a.code 0 e
  | .vrmin d a e => encV 0x27 2 d.code a.code 0 e
  | .vcsum d a e => encV 0x27 3 d.code a.code 0 e
  | .vscan d a e => encV 0x27 4 d.code a.code 0 e
  | .vcvt d a e => encV 0x28 0 d.code a.code 0 e
  | .vquant d a e => encV 0x28 1 d.code a.code 0 e
  | .vdeq d a e => encV 0x28 2 d.code a.code 0 e
  | .vscale d a e => encV 0x28 3 d.code a.code 0 e
  | .vtrans d a e => encV 0x29 0 d.code a.code 0 e
  | .vperm d a b e => encV 0x29 1 d.code a.code b.code e
  | .vgath d a b e => encV 0x29 2 d.code a.code b.code e
  | .vbcast d a e => encV 0x29 3 d.code a.code 0 e
  | .vpack d a b e => encV 0x29 4 d.code a.code b.code e
  | .vunpk d a e => encV 0x29 5 d.code a.code 0 e
  | .viadd d a b e => encV 0x2A 0 d.code a.code b.code e
  | .visub d a b e => encV 0x2A 1 d.code a.code b.code e
  | .vimul d a b e => encV 0x2A 2 d.code a.code b.code e
  | .vand d a b e => encV 0x2A 3 d.code a.code b.code e
  | .vor d a b e => encV 0x2A 4 d.code a.code b.code e
  | .vxor d a b e => encV 0x2A 5 d.code a.code b.code e
  | .vshl d a b e => encV 0x2A 6 d.code a.code b.code e
  | .vshr d a b e => encV 0x2A 7 d.code a.code b.code e
  | .vsmx d a e => encV 0x2B 0 d.code a.code 0 e
  | .vlut d a b e => encV 0x2B 1 d.code a.code b.code e
  | .vfill d e => encV 0x2B 2 d.code 0 0 e
  | .aadd a b dst sem sc nr disp g => encA 0 a b 0 dst sem sc nr disp g
  | .aand a b dst sem sc nr disp g => encA 1 a b 0 dst sem sc nr disp g
  | .aor a b dst sem sc nr disp g => encA 2 a b 0 dst sem sc nr disp g
  | .axor a b dst sem sc nr disp g => encA 3 a b 0 dst sem sc nr disp g
  | .amin a b dst sem sc nr disp g => encA 4 a b 0 dst sem sc nr disp g
  | .amax a b dst sem sc nr disp g => encA 5 a b 0 dst sem sc nr disp g
  | .aminu a b dst sem sc nr disp g => encA 6 a b 0 dst sem sc nr disp g
  | .amaxu a b dst sem sc nr disp g => encA 7 a b 0 dst sem sc nr disp g
  | .axchg a b dst sem sc nr disp g => encA 8 a b 0 dst sem sc nr disp g
  | .acas a b c dst sem sc nr disp g => encA 9 a b c.code dst sem sc nr disp g
  | .robj a b p0 p1 p2 rows cols fmt op =>
    encP 0x31 0 0 a.code b.val [p0.code, p1.code, p2.code,
      rows.toNat + cols.toNat * 2 ^ 8 + fmt.val * 2 ^ 19 + op.code * 2 ^ 23]
  | .ared a p0 p1 p2 lu => encP 0x31 1 0 a.code 0 [p0.code, p1.code, p2.code, ofBool lu]
  | .fence acq rel sc => [word0 0 0x32 0 0 (ofBool acq * 4 + ofBool rel * 8 + sc.code)]
  | .balloc p0 p1 p2 mir com => encP 0x33 0 0 0 0 [p0.code, p1.code, p2.code, ofBool mir + ofBool com * 2]
  | .bfree p0 p1 p2 => encP 0x33 1 0 0 0 [p0.code, p1.code, p2.code, 0]
  | .xmap p0 p1 p2 => encP 0x33 2 0 0 0 [p0.code, p1.code, p2.code, 0]
  | .xunmap p0 p1 p2 => encP 0x33 3 0 0 0 [p0.code, p1.code, p2.code, 0]
  | .send a x g => encS 0 a.code 0 g x
  | .sendt a x g => encS 1 a.code 0 g x
  | .mcast x g => encS 2 0 0 g x
  | .callRequest a x g => encS 3 a.code 0 g x
  | .reply a b p g => encS 4 a.code b.code g ⟨[p], false, 0, [], 0⟩
  | .await a b g => [wordQ 0 0x35 0 a.code b.val g 0]
  | .end_ g => [wordQ 0 0x35 1 0 0 g 0]
  | .spawn i a0 a1 lnk mon => encP 0x36 0 0 0 0 [i.code, a0.code, a1.code, ofBool lnk + ofBool mon * 2]
  | .spawnc r a0 a1 => encP 0x36 1 0 0 0 [r.code, a0.code, a1.code, 0]
  | .link a g => [wordQ 0 0x37 0 a.code 0 g 0]
  | .unlink a g => [wordQ 0 0x37 1 a.code 0 g 0]
  | .monitor a g => [wordQ 0 0x37 2 a.code 0 g 0]
  | .demon a g => [wordQ 0 0x37 3 a.code 0 g 0]
  | .exit a b g => [wordQ 0 0x37 4 a.code b.code g 0]
  | .kill a lv g => [wordQ 0 0x37 5 a.code 0 g lv.code]
  | .trapx a g => [wordQ 0 0x37 6 a.code 0 g 0]
  | .chmask a g => [wordQ 0 0x38 0 a.code 0 g 0]
  | .prio a g => [wordQ 0 0x38 1 a.code 0 g 0]
  | .lookup a g => [wordQ 0 0x38 2 a.code 0 g 0]
  | .reg a b g => [wordQ 0 0x38 3 a.code b.code g 0]
  | .supStart r => encP 0x39 0 0 0 0 [r.code, 0, 0, 0]
  | .supStop r => encP 0x39 0 0 0 0 [r.code, 0, 0, 1]
  | .supqName r => encP 0x39 1 0 0 0 [r.code, 0, 0, 0]
  | .supqCount r => encP 0x39 1 0 0 0 [r.code, 0, 0, 1]
  | .supqState r => encP 0x39 1 0 0 0 [r.code, 0, 0, 2]
  | .sysrd a g => [wordQ 0 0x3A 0 a.code 0 g 0]
  | .syswr a b g => [wordQ 0 0x3A 1 a.code b.code g 0]
  | .ctrd a g => [wordQ 0 0x3A 2 a.code 0 g 0]
  | .nop => [word0 0 0x3B 0 0 0]
  | .brk imm => [word0 0 0x3B 1 0 imm.toNat]
  | .trap imm => [word0 0 0x3B 2 0 imm.toNat]
  | .dhalt a b g => [wordQ 0 0x3C 0 a.code b.val g 0]
  | .dstep a _ g => [wordQ 0 0x3C 1 a.code 0 g 0]
  | .dres a g => [wordQ 0 0x3C 2 a.code 0 g 0]
  | .drd a g => [wordQ 0 0x3C 3 a.code 0 g 0]
  | .dwr a b g => [wordQ 0 0x3C 4 a.code b.code g 0]
  | .dbp a ix en g => [wordQ 1 0x3D 0 a.code 0 g 0, ix.val * 2 ^ 29 + ofBool en * 2 ^ 28, 0]
  | .dwp a ix en wk len g =>
    [wordQ 1 0x3D 1 a.code 0 g 0, ix.val * 2 ^ 29 + ofBool en * 2 ^ 28 + wk.val * 2 ^ 26, len.toNat]
  | .dtrc a g => [wordQ 1 0x3D 2 a.code 0 g 0, 0, 0]
  | .rpwr a b g => [wordQ 0 0x3E 0 a.code b.code g 0]
  | .rprd a g => [wordQ 0 0x3E 1 a.code 0 g 0]
  | .halt a g => [wordQ 0 0x3E 2 a.code 0 g 0]
  | _ => []

/-- The bytes of a list of words, as the hardware stores them (R17). -/
def bytesOfWords : List Nat → List Byte
  | [] => []
  | w :: ws => bytesOf 4 w ++ bytesOfWords ws

/-- The bytes that encode an instruction (R16, R17). -/
def encode (i : Instr) : List Byte := bytesOfWords i.words

end Sys2Proof
end

