-- ==== Sys2Proof/Machine/State.lean ====
section
/-! DEFINITION. The state of the part as plain data: every piece of state that the manual names (INVENTORY, State), the
named reasons a step can stop, and the state after a power-on reset. -/

namespace Sys2Proof.Machine

/-- Why the machine stops. No instruction of the part stops it: a kill ends an actor and the machine goes on. -/
inductive Fault
  /-- A home accepted a packet for a physical address outside the windows of 03 R68. Raised by RD, WR, WRM, AT and RC
  packets; safe: no packet that the part's own steps send names such an address. -/
  | noSuchAddress (pa : Nat)
  /-- A junction reached 105 °C: every clock stops and reset is held until power is cycled (23 R411). Raised by the
  step; safe: nothing happens until a power-on reset. -/
  | clockStopped
  /-- Every UCIe module of one group failed and the part has stopped (18 R369). Raised by the step; safe. -/
  | partStopped
  deriving DecidableEq, Repr

/-- Why an instruction has no meaning in the model. -/
inductive Refusal
  /-- The instruction is not modelled yet. Raised by no arm of the finished model; safe. -/
  | notModelled (mnemonic : String)
  deriving DecidableEq, Repr

/-- A reason code (16 R341). -/
abbrev Reason := BitVec 8

/-- An entry of the result queue or a named register (08 R170, R171): a value with its poison bit, or a value that is not
ready yet, named by the request that will make it ready. -/
inductive Ent | val (v : W64) (p : Bool) | wait (tok : Nat)
  deriving DecidableEq, Repr

/-- A barrier (05 R123). -/
structure Barrier where
  count : W64 := 0
  infl  : Nat := 0
  phase : Bool := false
  deriving DecidableEq, Repr

/-- A ring cursor (05 R125). -/
structure Ring where
  def_  : Bool := false
  first : Nat := 0
  count : Nat := 0
  pidx  : Nat := 0
  cidx  : Nat := 0
  deriving DecidableEq, Repr

/-- State of a reply slot (11 R270). -/
inductive SlotState | free | pending | filled
  deriving DecidableEq, Repr

/-- A reply slot (11 R270). -/
structure ReplySlot where
  val  : W64 := 0
  pois : Bool := false
  late : Nat := 0
  gen  : Fin 16 := 0
  st   : SlotState := .free
  deriving DecidableEq, Repr

/-- The kind of a region (02 R51). -/
inductive RegKind | dram | cxl | buoy | host
  deriving DecidableEq, Repr

/-- The share of a region (02 R51). -/
inductive Share | priv | owner | user
  deriving DecidableEq, Repr

/-- An extent entry (04 R94); `used` is the tick of its last hit, by which R102 replaces. -/
structure Ext where
  vpage  : Nat := 0
  npg    : Nat := 0
  ppage  : Nat := 0
  rgn    : Nat := 0
  mirror : Bool := false
  page   : Nat := 0
  share  : Share := .priv
  kind   : RegKind := .dram
  pin    : Bool := false
  locked : Bool := false
  valid  : Bool := false
  used   : Nat := 0
  deriving DecidableEq, Repr

/-- An inbox slot (02 R53, 05 R128). -/
structure Zone where
  off   : Nat := 0
  bytes : Nat := 0
  held  : Bool := false
  deriving DecidableEq, Repr

/-- A handler entry (02 R49). -/
structure Handler where
  budget  : Nat := 0
  livein  : Nat := 0
  liveout : Nat := 0
  pc      : Nat := 0
  audit   : Bool := false
  valid   : Bool := false
  deriving DecidableEq, Repr

/-- A region record (02 R51). For a commons region, `sym` is its number within the file, from 1 (R52: its name tells it). -/
structure RegionRec where
  kind   : RegKind := .dram
  page   : Nat := 0
  share  : Share := .priv
  locked : Bool := false
  mirror : Bool := false
  vbase  : Nat := 0
  size   : Nat := 0
  sym    : Nat := 0
  deriving DecidableEq, Repr

/-- A layout record (02 R53). -/
inductive LayRec
  | tile (h : Nat) (ready : Bool) (fmt bar off rows cols : Nat)
  | inbox (slot off bytes : Nat)
  | data (off bytes src : Nat)
  | ring (cur first count : Nat)
  | barrier (bar : Nat) (expect : W64)
  deriving DecidableEq, Repr

/-- The shape of a cohort (02 R57). -/
inductive Shape | any | row | column
  deriving DecidableEq, Repr

/-- A record of `.supervise` (02 R57). -/
inductive SupRec
  | child (rmask order img : Nat) (arg : W64)
  | cohort (n : Nat) (shape : Shape)
  | member (img : Nat) (arg : W64)
  deriving DecidableEq, Repr

/-- An image record (02 R48) with the records that it names. -/
structure Image where
  roaming  : Bool := false
  prio     : Nat := 0
  ovf      : Nat := 0
  xmask    : Nat := 0
  chmask   : Nat := 0
  spsize   : Nat := 0
  lays     : List LayRec := []
  handlers : List Handler := []
  regions  : List RegionRec := []
  fmts     : List (Nat × W64) := []
  seed     : W64 := 0
  win      : Nat := 0
  winsz    : Nat := 0
  sup      : Nat := 0
  nsup     : Nat := 0
  policy   : Nat := 0
  rmax     : Nat := 0
  rwin     : Nat := 0
  deriving DecidableEq, Repr

/-- A file of the image store (02 R62): its records, and where its `.text` and `.rodata` bytes lie in device
memory; `dbg` and `dbgLen` are the offset and length of the `.dbg` section, which is not loaded (02 R46). -/
structure File where
  handle  : Nat := 0
  base    : Nat := 0
  size    : Nat := 0
  text    : Nat := 0
  textLen : Nat := 0
  rodata  : Nat := 0
  dbg     : Nat := 0
  dbgLen  : Nat := 0
  images  : List Image := []
  sups    : List SupRec := []
  root    : Nat := 0
  marked  : Bool := false
  boot    : Bool := false
  deriving DecidableEq, Repr

/-- The state of an actor (14 R311). -/
inductive ActState | free | idle | ready | active | parked | transit | dying
  deriving DecidableEq, Repr

/-- A message in a mailbox (14 R314, 05 R127, R128): `wait` names the attached tiles whose bytes have not landed, `spill`
the tile bytes that lie in the overflow area, `latch` the relay transfer whose buffer the message follows (R130; 0 none). -/
structure Mail where
  msg   : Msg := {}
  arr   : Nat := 0
  wait  : List Nat := []
  spill : List (Nat × List Byte) := []
  latch : Nat := 0
  deriving DecidableEq, Repr

/-- What the pair table holds for one peer (14 R315, R316): the number expected from it, the early messages held, and whether the entry is removed. The
next number to each peer stands in `State.seqs`, because it outlives its sender (11 R283). -/
structure Pair where
  peer : ActorName := 0
  exp  : Nat := 0
  held : List EvArg := []
  gone : Bool := false
  deriving DecidableEq, Repr

/-- An entry of an outbox (11 R262). A message names the transfers that carry its tiles, or its relay; `child` keeps the place of the start
messages of a creation that is not answered yet. -/
inductive OutItem
  | child (tok : Nat)
  | msg (m : Msg) (xids : List Nat)
  | relay (m : Msg) (id : Nat)
  | sig (target : ActorName) (reason : Reason)
  | kill (target : ActorName) (lv : KillLevel)
  deriving DecidableEq, Repr

/-- What an outstanding operation of an invocation is (09 R213, 11 R262). -/
inductive OutKind | write | fetch | ret | give | spawn
  deriving DecidableEq, Repr

/-- An operation of an invocation that is not yet acknowledged: which homes it touches (`pkg`, `pod`: 09 R213) and
whether it carries `.acq` (09 R207). -/
structure OutOp where
  id   : Nat := 0
  inv  : Nat := 0
  kind : OutKind := .write
  pkg  : Bool := false
  pod  : Bool := false
  acq  : Bool := false
  deriving DecidableEq, Repr

/-- The contents of a latch (10 R236): element codes row by row, poisoned elements, shape and descriptor value. -/
structure Latch where
  loaded : Bool := false
  rows   : Nat := 0
  cols   : Nat := 0
  desc   : W64 := 0
  codes  : List Nat := []
  pois   : List Nat := []
  deriving DecidableEq, Repr

/-- The `dbg` field of a context block (21 R404) and what a stop needs. -/
structure Debug where
  dbgn  : ActorName := 0
  nch   : Nat := 0
  trc   : Nat := 0
  bp    : List (Bool × Nat) := List.replicate 4 (false, 0)
  swp   : List (Bool × Nat × Nat × Nat) := List.replicate 2 (false, 0, 0, 0)
  twp   : List (Bool × Nat) := List.replicate 2 (false, 0)
  stc   : Nat := 0
  stop  : Bool := false
  step  : Bool := false
  skip  : Bool := false
  pend  : List (Nat × Nat) := []
  tok   : Nat := 0
  since : Nat := 0
  deriving DecidableEq, Repr

/-- A live actor: its continuation record (14 R310), its context block (14 R312), its extent table (04 R93), its mailbox
and pair table (14 R314 to R316) and, mid-invocation, its registers (08 R170 to R173, R185). `flying` lists the physical page of each packet that awaits its reply; `xwalk` is the
page that its `xmap` waits for, `drains` the physical runs whose requests its `xmap` or `xunmap` awaits (09 R227, R228); `cbp` is the place
of its context block and `ovfv` the first page of its overflow area (14 R310); `asks` are the `link`s and `monitor`s (`true`) of actors of
other modules that await their answers, with their tokens (11 R279); `fresh` says that its start message has
not been released (11 R276), `pLatch` is the relayed tile that a parked actor holds (14 R323), `fetching` that its context is
on its way to a roaming slot, `offer` the offer that is due while its anchor has no free roaming slot (14 R309), `ls` and `ldep` the link
stack's entries and its depth (08 R185), `waits` the retired count at which its last issue waited for a reply, a value or a barrier (14
R313). -/
structure Actor where
  name    : ActorName := 0
  supn    : ActorName := 0
  file    : Nat := 0
  img     : Nat := 0
  roaming : Bool := false
  st      : ActState := .idle
  cell    : Nat := 0
  seat    : Nat := 0
  rc      : Bool := false
  rcell   : Nat := 0
  rslot   : Nat := 0
  ranAt   : Nat := 0
  base    : Nat := 0
  size    : Nat := 0
  bprio   : Nat := 0
  xmask   : Nat := 0
  ovf     : Nat := 0
  chmask  : Nat := 0
  gen     : W64 := 0
  tiles   : List TileEnt := List.replicate 32 {}
  bars    : List Barrier := List.replicate 8 {}
  rings   : List Ring := List.replicate 4 {}
  ys      : List ReplySlot := List.replicate 8 {}
  fmts    : List W64 := List.replicate 16 0
  exts    : List Ext := List.replicate 32 {}
  walks   : List (Nat × Bool) := []
  zones   : List Zone := List.replicate 4 {}
  links   : List ActorName := []
  mons    : List ActorName := []
  watch   : List ActorName := []
  saved   : List (W64 × Bool) := List.replicate 16 (0, false)
  mbox    : List Mail := []
  nmail   : Nat := 0
  pairs   : List Pair := []
  drops   : Nat := 0
  cbp     : Nat := 0
  ovfv    : Nat := 0x00FF00000000
  asks    : List (Nat × ActorName × Bool) := []
  debt    : Option Reason := none
  -- the invocation in progress
  invNo   : Nat := 0
  msg     : Msg := {}
  eprio   : Nat := 0
  budget  : Nat := 0
  start   : Nat := 0
  paused  : Nat := 0
  retired : Nat := 0
  liveout : Nat := 0
  pc      : Nat := 0
  lc      : W64 := 0
  ls      : List W64 := List.replicate 8 0
  ldep    : Nat := 0
  h       : List Ent := List.replicate 16 (.val 0 false)
  s       : List Ent := List.replicate 16 (.val 0 false)
  p       : List (Bool × Bool) := List.replicate 8 (false, false)
  outbox  : List OutItem := []
  outs    : List OutOp := []
  flying  : List Nat := []
  xwalk   : Option Nat := none
  drains  : List (Nat × Nat) := []
  await   : Option Nat := none
  pend    : Option Nat := none
  -- debugging and audit
  dbg     : Debug := {}
  target  : ActorName := 0
  audit   : Option Nat := none
  shadow  : Option Nat := none
  nokick  : Bool := false
  fresh   : Bool := false
  pLatch  : Option (Latch × Nat) := none
  fetching : Bool := false
  offer   : Option Nat := none
  waits   : Option Nat := none
  deriving DecidableEq, Repr

/-- An accumulator (07 R154): every element is `fill` but those listed (index 128·i + n); poisoned 32-byte sectors are
listed by index 16·i + n/8. `bind` is the invocation that holds it (07 R155), `busy` that the unit still adds to it. -/
structure Acc where
  fill : W32 := 0
  elts : List (Nat × W32) := []
  pois : List Nat := []
  bind : Option (ActorName × Nat) := none
  busy : Bool := false
  deriving DecidableEq, Repr

/-- An instruction in a matrix or vector unit (10 R229 to R232): the writes that land when it completes, the sector bits
they set and clear, the byte ranges it still reads (`brief` those that it reads until a cycle), and what it frees. -/
structure UnitJob where
  actor  : ActorName := 0
  inv    : Nat := 0
  writes : List (Nat × List Byte) := []
  pset   : List Nat := []
  pclr   : List Nat := []
  holds  : List (Nat × Nat) := []
  brief  : List (Nat × Nat × Nat) := []
  ready  : List Nat := []
  accs   : List Nat := []
  readsLb : Bool := false
  deriving DecidableEq, Repr

/-- A piece of a transfer (04 R100, 05 R122): `va` and `pa` its global side (`pa` none while untranslated), `off` its
byte offset in the scratchpad side, `len` its bytes. -/
structure Piece where
  va  : Nat := 0
  pa  : Option Nat := none
  off : Nat := 0
  len : Nat := 0
  deriving DecidableEq, Repr

/-- The kind of a transfer (05 R120). -/
inductive XKind | fetch | write | copy | give | mcast | relay | contrib | gather | scatter
  deriving DecidableEq, Repr

/-- A transfer (05 R120 to R122). `dst`, `src` and `ix` are handles, `soff` the region offset of the scratchpad side (`doff`
of a copy's destination or an index tile), `bars` the barriers it credits. Of a fetch or gather, `pieces` are all its pieces, `todo` those
whose RD packets have not left yet, and `left` counts the RD packets that await their replies; of a write or scatter, `pieces` are those
not yet sent, `data` the bytes of the first that have been read, and `left` counts the packets that await WACKs; of a copy, `left` is how
many bytes it has copied; of a multicast, how many receivers' copies have not landed. `held` are the pieces that wait for MAPPED (04 R103, R104). `toRead` is 1 until the source of a give, a multicast
or a relay, or the index of a gather or scatter, has been read. `stride` is that of a gather or scatter; `acq` says that a fetch is a
`tfetch.acq` (03 R88). -/
structure Xfer where
  id     : Nat := 0
  kind   : XKind := .fetch
  actor  : ActorName := 0
  inv    : Nat := 0
  dst    : Option Nat := none
  src    : Option Nat := none
  ix     : Option Nat := none
  soff   : Nat := 0
  doff   : Nat := 0
  bytes  : Nat := 0
  bars   : List Nat := []
  pieces : List Piece := []
  todo   : List Piece := []
  left   : Nat := 0
  toRead : Nat := 0
  held   : List Piece := []
  dest   : ActorName := 0
  seq    : Nat := 0
  k      : Nat := 0
  latch  : Latch := {}
  rc     : RcCtl := {}
  data   : List Byte := []
  pois   : Bool := false
  bus    : Option Nat := none
  g      : Nat := 0
  stride : Int := 0
  acq    : Bool := false
  deriving DecidableEq, Repr

/-- A side-log entry (04 R104): the operation, the pieces still to be issued and, for an atomic, its operands; `targets` are the pages of
its footprint, which it targets until it has issued all its pieces (R106). It is free once its operation is acknowledged. -/
structure SideEnt where
  actor  : ActorName := 0
  inv    : Nat := 0
  id     : Nat := 0
  kind   : PKind := .wr
  aop    : Nat := 0
  v      : W64 := 0
  c      : W64 := 0
  pieces : List Piece := []
  targets : List Nat := []
  deriving DecidableEq, Repr

/-- A traffic entry of a seat (15 R329). -/
structure Traffic where
  cnt   : Nat := 0
  pcell : Nat := 0
  pser  : Nat := 0
  v     : Bool := false
  deriving DecidableEq, Repr

/-- A seat of a cell (15 R329, R334): its traffic entries and the instant of its last exchange; in the counts of an instant, `who` was
seated. -/
structure Seat where
  traffic : List Traffic := List.replicate 4 {}
  cool    : Option Nat := none
  who     : ActorName := 0
  deriving DecidableEq, Repr

/-- A cell (00 R4): boot mode (23 R415), health (21 R399), repair table (08 R192), the round-robin pointer (14 R319), the
matrix and vector units, the copy engine, the side log, the name cache (14 R307), the seats, the power gate, and the last status word
of a boot program with its poison bit (08 R193). `lbOwner`
owns the current buffer of `lb` and `lbIn` the incoming one; `lbSrc` and `lbInSrc` name the relays whose messages have not
started a handler yet (0: none, or the tile is bound). -/
structure Cell where
  boot    : Bool := true
  health  : Nat := 0
  voff    : Nat := 0
  cec     : Nat := 0
  repair  : List W32 := List.replicate 16 0
  freeRep : Nat := 0
  last    : Nat := 15
  accs    : List Acc := List.replicate 4 {}
  la      : Latch := {}
  laBind  : Option (ActorName × Nat) := none
  lb      : Latch := {}
  lbNext  : Latch := {}
  lbBind  : Option (ActorName × Nat) := none
  lbOwner : ActorName := 0
  lbSrc   : Nat := 0
  lbIn    : ActorName := 0
  lbInSrc : Nat := 0
  munit   : Option UnitJob := none
  vunit   : Option UnitJob := none
  xfers   : List Xfer := []
  side    : List SideEnt := []
  ncache  : List ActorName := []
  seats   : List Seat := List.replicate 8 {}
  gated   : Bool := false
  waking  : Bool := false
  idle    : Nat := 0
  drain   : Option Nat := none
  sreg    : BitVec 32 := 0
  retire  : Bool := false
  status  : Option (W64 × Bool) := none
  deriving DecidableEq, Repr

/-- What a requester keeps for one home (03 R71, R78): tags in use, packets held, the next request ID, and the AT and RC
packets that await replies (18 R375). -/
structure Port where
  used : List Nat := []
  held : List Packet := []
  next : Nat := 0
  out  : Nat := 0
  deriving DecidableEq, Repr

/-- A piece of a reduction object at its home (09 R217 to R222): `lead` is the number of its object, `holds` the slices held
with their elements, descriptor and poisoned granules, `done` that its last slice is merged. -/
structure RedPiece where
  home   : Home := .hostPort
  pa     : Nat := 0
  bytes  : Nat := 0
  lead   : Nat := 0
  mirror : Bool := false
  ctl    : RcCtl := {}
  nx     : Nat := 0
  holds  : List (Nat × List Byte × W64 × List Nat) := []
  done   : Bool := false
  deriving DecidableEq, Repr

/-- A forward from a primary plane to its mirror (03 R82): the runs of its allocation (`back`), what the mirror will hold, the filter entry and the reduction
piece that go with it, and the reply that waits. -/
structure Forward where
  id     : Nat := 0
  mirror : Nat := 0
  back   : List Nat := []
  writes : List (Nat × List Byte) := []
  pset   : List Nat := []
  pclr   : List Nat := []
  filt   : Bool := false
  red    : Option RedPiece := none
  reply  : Reply := {}
  deriving DecidableEq, Repr

/-- Backing of a run of 64 KiB pages (04 R96, R97): whose it is (`owner` 0 for commons), where, and whether it migrates. -/
structure Backing where
  job   : Nat := 0
  owner : ActorName := 0
  vpage : Nat := 0
  npg   : Nat := 1
  ppage : Nat := 0
  kind  : RegKind := .dram
  mirror : Bool := false
  locked : Bool := false
  moving : Bool := false
  dest  : Nat := 0
  acks  : Nat := 0
  deriving DecidableEq, Repr

/-- A buoy allocation made by `balloc` (09 R225, R226). -/
structure BuoyAlloc where
  job   : Nat := 0
  actor : ActorName := 0
  va    : Nat := 0
  mib   : Nat := 0
  mir   : Bool := false
  owner : ActorName := 0
  deriving DecidableEq, Repr

/-- One direction of a UCIe module (18 R367, R368): transmitter (`next`, `buf`, `acked`, `queue`) and receiver (`exp`,
`nak`, `errc`, `rply`). `again`: a NAK has come whose resends have not left yet. -/
structure UcieDir where
  next  : Nat := 0
  buf   : List Flit := []
  acked : Option Nat := none
  queue : List Chunk := []
  again : Bool := false
  exp   : Nat := 0
  nak   : Bool := false
  errc  : Nat := 0
  rply  : Nat := 0
  deriving DecidableEq, Repr

/-- A UCIe module (18 R364 to R370): both directions, its width (0 ×64, 1 ×32, 2 disabled) and whether it retrains. -/
structure Ucie where
  fwd   : UcieDir := {}
  rev   : UcieDir := {}
  lanes : Nat := 0
  busy  : Bool := false
  deriving DecidableEq, Repr

/-- Packets on their way over UCIe modules (18 R364): the crossings left, the bytes of each packet, and what arrives with the last. -/
structure Wire where
  id    : Nat := 0
  route : List (Nat × Bool) := []
  parts : List (List Byte) := []
  ev    : Event := ⟨.nop, {}⟩
  deriving DecidableEq, Repr

/-- A request entry of a UALink station (18 R374): a packet for its plane, or a message for another module with the bytes of its tiles. -/
structure StationEnt where
  busy  : Bool := false
  gen   : Nat := 0
  tries : Nat := 0
  module : Option Nat := none
  rq    : Nat := 0
  pkt   : Packet := {}
  msg   : EvArg := {}
  deriving DecidableEq, Repr

/-- A UALink station (18 R371, R374): its 256 entries (unlisted ones free), the requests that wait for an entry. -/
structure Station where
  ents  : List (Nat × StationEnt) := []
  queue : List StationEnt := []
  deriving DecidableEq, Repr

/-- A portal channel (18 R379, R383): `acks` the bytes of each slot that have their WACKs, as a mask; `early` the slots
completed before the portal opened (23 R419). -/
structure PortalChan where
  exp  : Nat := 0
  dup  : Nat := 0
  held : List Msg := []
  acks : List (Nat × Nat) := []
  early : List Nat := []
  deriving DecidableEq, Repr

/-- A host queue (18 R381, R383). -/
structure HostQueue where
  base : Nat := 0
  log  : Nat := 6
  ack  : Nat := 0xFFFF
  wr   : Nat := 0xFFFF
  wait : List Msg := []
  deriving DecidableEq, Repr

/-- A live job (14 R324 to R328). `agent` is the plane of the switch agent that holds its quota and its allocations (03 R83). -/
structure Job where
  jobn   : Nat := 0
  file   : Nat := 0
  root   : ActorName := 0
  pmax   : Nat := 7
  seatsQ : Nat := 0
  actQ   : Nat := 0
  buoyQ  : Nat := 0
  buoy   : Nat := 0
  agent  : Nat := 0
  live   : Nat := 0
  rsn    : Reason := 0
  chan   : Nat := 0
  seq    : Nat := 0
  serial : Nat := 1
  reg    : List (W64 × Nat) := []
  owners : List (Nat × Nat) := []
  deriving DecidableEq, Repr

/-- A live count of a cohort (14 R324): its members are `n` serials from `serial`. -/
structure Cohort where
  job    : Nat := 0
  serial : Nat := 0
  n      : Nat := 0
  shape  : Shape := .any
  sup    : ActorName := 0
  live   : Nat := 0
  name0  : ActorName := 0
  deriving DecidableEq, Repr

/-- A live count of a tree (14 R324): its root, the root's supervisor, and the actors at and below the root. -/
structure Tree where
  job    : Nat := 0
  serial : Nat := 0
  name   : ActorName := 0
  sup    : ActorName := 0
  live   : Nat := 0
  rsn    : Reason := 0
  deriving DecidableEq, Repr

/-- State of a child entry (16 R350). -/
inductive ChildState | none | running | restarting | stopped
  deriving DecidableEq, Repr

/-- A child entry of the restart engine (16 R350). `wait` names the members whose reclaim an event awaits, `cells` where each
member died, `event` says that an all-for-one event holds it (`lead`: began it), `asked` that the host decides. -/
structure ChildEnt where
  rcd   : Nat := 0
  name  : ActorName := 0
  arg   : W64 := 0
  img   : Nat := 0
  order : Nat := 0
  n     : Nat := 1
  why   : Reason := 0
  rmask : Nat := 0
  coh   : Bool := false
  st    : ChildState := .none
  wait  : List ActorName := []
  cells : List (Nat × Nat) := []
  event : Bool := false
  lead  : Bool := false
  asked : Bool := false
  deriving DecidableEq, Repr

/-- A supervisor's record and table (16 R349). -/
structure SupTab where
  sup    : ActorName := 0
  wbeg   : Nat := 0
  rwin   : Nat := 0
  rmax   : Nat := 0
  rcnt   : Nat := 0
  policy : Nat := 0
  ents   : List ChildEnt := []
  deriving DecidableEq, Repr

/-- State of a pair of cells (15 R335). -/
inductive PairPhase | idle | eval | freeze | mark | copy
  deriving DecidableEq, Repr

/-- A pair of neighbouring cells (15 R333 to R335): `a` and `b` the seats of the exchange that it has chosen, `whoA` and `whoB` the actors
in them (0 for an empty seat). -/
structure PairSt where
  phase : PairPhase := .idle
  h     : Nat := 0
  a     : Nat := 0
  b     : Nat := 0
  whoA  : ActorName := 0
  whoB  : ActorName := 0
  inst  : Nat := 0
  quiet : Nat := 0
  prevA : ActorName := 0
  prevB : ActorName := 0
  prevI : Option Nat := none
  deriving DecidableEq, Repr

/-- An entry of an audit log (21 R394), made when its instruction issued; `tok` is 0 once its value has arrived. -/
inductive LogEnt | bytes (tok : Nat) (bs : List Byte) | val (tok : Nat) (v : W64) (p : Bool)
  deriving DecidableEq, Repr

/-- An audit buffer in use (21 R393 to R397): the snapshot at the handler's start with its tiles, the log, what a shadow run
has still to read of it, the output stream of the run in progress, the cells and the signatures of the runs. -/
structure AuditBuf where
  actor  : ActorName := 0
  cell   : Nat := 0
  cells  : List Nat := []
  snap   : Actor := {}
  tiles  : List (Nat × List Byte) := []
  log    : List LogEnt := []
  left   : List LogEnt := []
  out    : List Byte := []
  sigs   : List (W64 × W64) := []
  deriving DecidableEq, Repr

/-- What a host-assisted duty asks about (21 R402). -/
inductive DutyWhat
  | page (actor : ActorName) (va : Nat)
  | restart (dead : ActorName) (reason : Reason) (sup : ActorName)
  | audit (buf : Nat)
  | place (r : SpawnReq)
  | locked (r : SpawnReq) (actor : ActorName) (ri npg : Nat)
  | buoy (actor : ActorName) (tok va mib : Nat) (mir com : Bool)
  deriving DecidableEq, Repr

/-- A duty request that awaits the host's answer (21 R402). -/
structure DutyReq where
  num  : Nat := 0
  duty : Nat := 0
  what : DutyWhat
  deriving DecidableEq, Repr

/-- The management registers of Astrolabe's window (03 R92, 15 R340, 18 R370, R377, 21 R399, R402, R406, 23 R412, R416),
as their fields. -/
structure Regs where
  bootOpen   : Bool := false
  sigreq     : Bool := true
  done       : Bool := false
  twin       : Bool := false
  fwerr      : Nat := 0
  nret       : Nat := 0
  pwrcap     : Nat := 5400
  tmax       : Nat := 0
  pthr       : Nat := 0
  pw         : Nat := 0
  migEn      : Bool := true
  epoch      : Nat := 30
  hot        : Nat := 0x0400
  lost       : Nat := 0
  azEn       : Bool := true
  wake       : Nat := 32
  gate       : Nat := 16
  ivl        : Nat := 20
  thr        : Nat := 256
  inst       : Nat := 0
  xchg       : Nat := 0
  rev        : Nat := 0
  hwrt       : Bool := true
  ethr       : Nat := 8
  ewin       : Nat := 24
  sel        : Nat := 0
  aid        : Nat := 0
  ftmo       : Nat := 17
  fretry     : Nat := 3
  late       : Nat := 0
  dsw        : Nat := 0
  dead       : List Nat := []
  audEn      : Bool := true
  audK       : Nat := 10
  smp        : Nat := 0
  mis        : Nat := 0
  aban       : Nat := 0
  unr        : Nat := 0
  ageEn      : Bool := true
  mmin       : Nat := 40
  duty       : Nat := 0
  silbase    : Nat := 0
  silEn      : Bool := false
  slog       : Nat := 16
  swr        : Nat := 0
  deriving DecidableEq, Repr

/-- An error of a storage (21 R391): an uncorrectable one of a granule, of a scratchpad sector, of a sector of an accumulator, of the elements
of a latch's sector, of a register of an actor's context (`named`, or of its result queue), of a predicate, or of an entry that an actor
owns; one that a slice or a cell corrects; or one that goes undetected or is miscorrected: other bytes in a sector of a scratchpad, another
element of an accumulator or of a latch. -/
inductive Strike
  | granule (g : Nat)
  | sector (k : Nat)
  | acc (cell q sector : Nat)
  | latch (cell : Nat) (b : Bool) (elts : List Nat)
  | reg (actor : ActorName) (named : Bool) (i : Nat)
  | pred (actor : ActorName) (i : Nat)
  | entry (actor : ActorName)
  | slice (n : Nat)
  | cell (c : Nat)
  | wrong (k : Nat) (bs : List Byte)
  | wrongAcc (cell q i : Nat) (v : W32)
  | wrongLatch (cell : Nat) (b : Bool) (i v : Nat)
  deriving DecidableEq, Repr

/-- A step that the part itself will take, not before cycle `at_`. -/
structure Due where
  at_ : Nat := 0
  ev  : Event
  deriving DecidableEq, Repr

/-- A packet or message that waits for a moving actor (15 R337). -/
structure Held where
  actor : ActorName
  ev    : Event
  deriving DecidableEq, Repr

/-- The state of the part. `agenda` holds the part's own steps to come, `inputs` what arrives from outside (host, pod,
sensors), `strikes` the errors of storages that come with the next steps (log 53), `focus` the actor whose instruction issues, `serials` the next serial of each job number that has been used (14
R306), `decoders` the range of the CXL window that boot gave each CXL port, as base and size (03 R79), `corrected` the
errors that each slice has corrected (03 R70), `arg` what the event in progress acts on, `stalled` whether the last issue stalled; `tick` and `free` count
the free values used (fields of the model, not of the manual). -/
structure State where
  cycle   : Nat := 0
  tick    : Nat := 0
  free    : Nat := 0
  focus   : ActorName := 0
  stalled : Bool := false
  nextId  : Nat := 1
  agenda  : List Due := []
  inputs  : List Event := []
  strikes : List Strike := []
  arg     : EvArg := {}
  mem     : List Host.Cell := []
  gpois   : List Nat := []
  corrected : List (Nat × Nat) := []
  decoders : List (Nat × Nat) := []
  spois   : List Nat := []
  actors  : List (Nat × Actor) := []
  cells   : List (Nat × Cell) := []
  files   : List File := []
  nextFile : Nat := 2
  jobs    : List Job := []
  serials : List (Nat × Nat) := []
  cohorts : List Cohort := []
  trees   : List Tree := []
  sups    : List SupTab := []
  backs   : List Backing := []
  ballocs : List BuoyAlloc := []
  lone    : List Nat := []
  ports   : List (Nat × Port) := []
  filters : List (Nat × List (Nat × Reply)) := []
  reds    : List RedPiece := []
  fwds    : List Forward := []
  counts  : List (Nat × Nat) := []
  queued  : List Nat := []
  notes   : List Nat := []
  seenLost : Nat := 0
  ucie    : List (Nat × Ucie) := []
  wires   : List Wire := []
  stations : List (Nat × Station) := []
  chans   : List (Nat × PortalChan) := []
  queues  : List (Nat × HostQueue) := []
  pairs   : List (Nat × PairSt) := []
  lastInst : Nat := 0
  evalSeats : List (Nat × List Seat) := []
  held    : List Held := []
  seqs    : List (Nat × Nat) := []
  buses   : List (Nat × Nat) := []
  audits  : List (Nat × AuditBuf) := []
  duties  : List DutyReq := []
  dutyNum : Nat := 0
  regs    : Regs := {}
  throttled : Bool := false
  tripped : Bool := false
  halted  : Bool := false
  deriving DecidableEq, Repr

/-- Cycles of 10 s and of 24 hours at 1.7 GHz (00 R8). -/
def tenSeconds : Nat := 10 * 1700000000
def oneDay : Nat := 86400 * 1700000000
/-- The portal-reset record, the first entry of q0 after a reset (18 R382, R383; 23 R413). -/
def resetRecord : Event := ⟨.hostQueueWrite, { flag := true, msg := { chan := 15, plen := 4, m := [BitVec.ofNat 64 (6 * 2 ^ 56), 0, 0, 0] } }⟩
/-- The steps that follow a reset with good firmware: that record, the first boot program of every cell (23 R414, step 4), and what the
part does periodically: the first swap instant (15 R332), epoch end (03 R90), ageing check (21 R400) and scrub (21 R391). -/
def bootAgenda : List Due :=
  ⟨0, resetRecord⟩ :: (List.range 512).map (fun c => ⟨0, ⟨.bootProgramStart, { n := c }⟩⟩) ++
    [⟨2 ^ 20, ⟨.swapInstant, {}⟩⟩, ⟨2 ^ 30, ⟨.epochEnd, {}⟩⟩, ⟨tenSeconds, ⟨.ageingCheck, {}⟩⟩, ⟨oneDay, ⟨.scrub, {}⟩⟩]

/-- The state right after a power-on reset whose firmware verified (23 R413, R414): every register at the value of its
map, all other state clear, every cell in boot mode, and the steps of `bootAgenda` to come. -/
def State.reset : State := { agenda := bootAgenda }

end Sys2Proof.Machine
end

