-- ==== Sys2Proof/Machine/BootImage.lean ====
section
/-! DEFINITION. The march image that Astrolabe runs on every cell (22_program_march_test, the version with tiles; 23
R416), built from its listing, and the copy of it whose work tiles lie below offset 0x200. -/

namespace Sys2Proof.Machine

/-- Where the image's work tiles lie: t1, t20, t21 and t25 (22, lines 04 to 07). -/
structure MarchTiles where
  t1  : Nat := 0x3FF180
  t20 : Nat := 0x3FF000
  t21 : Nat := 0x3FF080
  t25 : Nat := 0x3FF100
  deriving DecidableEq, Repr

/-- The copy with its work tiles below offset 0x200 (R416; their places are the model's, log 20). -/
def marchLow : MarchTiles := { t1 := 0x180, t20 := 0, t21 := 0x80, t25 := 0x100 }

/-- No guard. -/
def g0 : Guard := ⟨0, false⟩
/-- Guard p1. -/
def g1 : Guard := ⟨1, false⟩
/-- Queue entry h1. -/
def h1 : Scalar := .h 0
/-- Queue entry h2. -/
def h2 : Scalar := .h 1

/-- Lines 10 to 19: the launch words, the span tile and M0. -/
def marchHead (m : MarchTiles) : List Instr :=
  [.keep 0 (.m 0), .keep 9 (.m 1), .keep 2 (.m 2), .keep 10 (.m 3), .shli (.m 1) 10, .keep 1 h1,
   .lit (BitVec.ofNat 64 m.t20), .keep 7 h1,
   .tdef (.t 24) (.subst (.s 1)) (.subst (.s 1)) (.const 0) 128 32 0 0 false,
   .vfill (.t 24) ⟨.t 0, .zero, .rne, false, false, false, false, false, 1, 0⟩]

/-- Lines 20 to 46: elements M1 to M5. `e` is the word index of `elem`, `i` that of the first of these lines. -/
def marchBody (call : Nat → Instr) : List Instr :=
  [.li (BitVec.ofInt 12 (-1)), .keep 6 h1, .keep 5 .zero, .li 1, .keep 4 h1, .keep 3 .zero, call 6,
   .keep 5 (.s 6), .keep 6 .zero, .keep 3 .zero, call 10,
   .keep 5 .zero, .li (BitVec.ofInt 12 (-1)), .keep 6 h1, .keep 4 h1, .addi (.s 2) (BitVec.ofInt 12 (-1)), .keep 3 h1,
   call 17,
   .keep 5 (.s 6), .keep 6 .zero, .addi (.s 2) (BitVec.ofInt 12 (-1)), .keep 3 h1, call 22,
   .keep 5 .zero, .addi (.s 2) (BitVec.ofInt 12 (-1)), .keep 3 h1, call 26]

/-- Lines 47 to 77: the repair entries and the summary status. -/
def marchTail : List Instr :=
  [.keep 13 (.s 8), .popc .w64 (.s 8) g0, .keep 11 h1, .keep 12 .zero,
   .li 2, .pset .geu .w64 (.s 12) h1 1 g0, .br 1 24, .pset .eq .w64 (.s 8) .zero 1 g0, .br 1 20,
   .ctz .w64 (.s 8) g0, .add .w64 h1 (.s 9) g0, .shli h1 15, .shli (.s 0) 27, .or .w64 h1 h2 g0, .shli (.s 12) 14,
   .or .w64 h1 h2 g0, .lit 0x80000000, .or .w64 h1 h2 g0, .add .w64 (.s 10) (.s 12) g0, .rpwr h1 h2 g0,
   .addi (.s 8) (BitVec.ofInt 12 (-1)), .and .w64 (.s 8) h1 g0, .keep 8 h1, .addi (.s 12) 1, .keep 12 h1,
   .br 0 (BitVec.ofInt 18 (-27)),
   .shli (.s 13) 32, .shli (.s 12) 8, .or .w64 h1 h2 g0, .or .w64 h1 (.s 11) g0, .halt h1 g0]

/-- Lines 78 to 98: one element over the window. -/
def marchElem : List Instr :=
  [.li 16, .syswr h1 (.s 2) g0,
   .lea .w64 (.s 0) (.s 3) g0,
   .vfill (.t 25) ⟨.t 0, h1, .rne, false, false, false, false, false, 1, 0⟩,
   .vgath (.t 1) (.t 24) (.t 25) ⟨.t 0, .zero, .rne, false, false, false, false, false, 0, 0⟩,
   .vcmp (.t 20) (.t 1) (.t 0) ⟨.t 0, .s 5, .rne, false, false, false, false, true, 1, 0⟩,
   .shli h1 7, .add .w64 h1 (.s 1) g0,
   .tdef (.t 2) (.subst h1) (.subst h1) (.const 0) 1 32 0 0 false,
   .vfill (.t 2) ⟨.t 0, .s 6, .rne, false, false, false, false, false, 1, 0⟩,
   .rwait 1 true 0, .ld .w32 (.s 7) g0, .pset .ne .w32 h1 .zero 1 g0, .li 1, .shl .w64 h1 (.s 3) g0,
   .or .w64 (.s 8) h1 g1, .keep 8 h1, .add .w64 (.s 3) (.s 4) g0, .keep 3 h1, .loop 0 (BitVec.ofInt 18 (-31)), .ret 0]

/-- How many words a list of instructions takes. -/
def wordCount (l : List Instr) : Nat := (l.map fun i => i.words.length).foldl (· + ·) 0

/-- The image's instructions in order. A call at place `k` of the body reaches `elem` (22, lines 26 to 46). -/
def marchProgram (m : MarchTiles) : List Instr :=
  let head := marchHead m
  let body0 := marchBody fun _ => .nop
  let after := wordCount body0 + wordCount marchTail
  head ++ marchBody (fun k => .call 0 (BitVec.ofNat 18 (after - k))) ++ marchTail ++ marchElem

/-- The bytes of `.text` of the boot files: the image, and after it the copy. -/
def marchText (m : MarchTiles) : List Byte := ((marchProgram m).map encode).flatten

/-- The march image's record (22, lines 01 to 09). -/
def marchImage (m : MarchTiles) : Image :=
  { spsize := 1024, fmts := [(0, 4), (6, 6)]
    lays := [.tile 1 false 0 0 m.t1 1 32, .tile 20 false 6 0 m.t20 1 32, .tile 21 false 6 0 m.t21 1 32, .tile 25 false 0 0 m.t25 1 1, .ring 1 20 2]
    handlers := { livein := 0xFFFF, liveout := 0xFFFF, valid := true } :: List.replicate 15 {} }
/-- Where Astrolabe keeps the boot files' `.text` (22 R407; the place is the model's, log 20). -/
def bootBase : Nat := 0x00BFFFFF0000
/-- Bytes of one boot file's `.text`. -/
def bootLen : Nat := 468
/-- The boot files' `.text`: the march image and its copy with low work tiles (23 R416). -/
def bootStore : List Byte := marchText {} ++ marchText marchLow
/-- A boot file (22 R407): 0 the march image, 1 its copy. -/
def bootFile (h : Nat) : File :=
  { handle := h, base := bootBase + h * bootLen, size := bootLen, text := bootBase + h * bootLen, textLen := bootLen, boot := true
    images := [marchImage (if h = 0 then {} else marchLow)] }

end Sys2Proof.Machine
end

