-- ==== Sys2Proof/Machine/Ops.lean ====
section
/-! DEFINITION. The named operations that every meaning is built from: keyed maps, memory and its poison bits, actors and
cells, the result of an issue attempt, the result queue, the agenda, the trace, the audit log, and the ONE operation by
which an instruction that fails a check is answered: the kill of its actor (00 R15, 16 R344). -/

namespace Sys2Proof.Machine

-- Keyed maps -------------------------------------------------------------------------------------------------------

/-- The value of key `n` in a map; `d` when it is not listed. -/
def kvGet {α : Type} (d : α) : List (Nat × α) → Nat → α
  | [], _ => d
  | (k, v) :: r, n => if k = n then v else kvGet d r n

/-- Whether a map lists key `n`. -/
def kvHas {α : Type} (l : List (Nat × α)) (n : Nat) : Bool := l.any fun e => e.1 == n

/-- The map with key `n` at `v`, keys rising. -/
def kvSet {α : Type} : List (Nat × α) → Nat → α → List (Nat × α)
  | [], n, v => [(n, v)]
  | (k, w) :: r, n, v =>
    if n < k then (n, v) :: (k, w) :: r else if n = k then (n, v) :: r else (k, w) :: kvSet r n v

/-- The map without key `n`. -/
def kvDel {α : Type} (l : List (Nat × α)) (n : Nat) : List (Nat × α) := l.filter fun e => e.1 != n

/-- A rising list with `n` in it. -/
def insNat : List Nat → Nat → List Nat
  | [], n => [n]
  | k :: r, n => if n < k then n :: k :: r else if n = k then k :: r else k :: insNat r n

/-- A rising list with `lo`, …, `lo + n - 1` in it. -/
def addRange (l : List Nat) (lo n : Nat) : List Nat := (List.range n).foldl (fun acc i => insNat acc (lo + i)) l
/-- A list without `lo`, …, `lo + n - 1`. -/
def delRange (l : List Nat) (lo n : Nat) : List Nat := l.filter fun g => g < lo || lo + n ≤ g

/-- The list with its element at `i` replaced. -/
def setAt {α : Type} (l : List α) (i : Nat) (v : α) : List α := l.set i v
/-- The list with its element at `i` changed by `f`. -/
def modAt {α : Type} (l : List α) (i : Nat) (f : α → α) : List α :=
  match l[i]? with | some v => l.set i (f v) | none => l
/-- The first index whose element passes. -/
def findIdx {α : Type} (p : α → Bool) : List α → Option Nat
  | [] => none
  | v :: r => if p v then some 0 else (findIdx p r).map (· + 1)
/-- The sum of a list. -/
def total : List Nat → Nat := List.foldl (· + ·) 0
/-- The element of least key, the first on a tie. -/
def minBy {α : Type} (key : α → Nat) : List α → Option α
  | [] => none
  | v :: r => match minBy key r with
    | none => some v
    | some w => if key v ≤ key w then some v else some w
/-- The list in ascending order of a key (an insertion sort; equal keys keep their order). -/
def insertBy {α : Type} (key : α → Nat) (v : α) : List α → List α
  | [] => [v]
  | w :: r => if key v ≤ key w then v :: w :: r else w :: insertBy key v r
/-- The list sorted by a key. -/
def sortBy {α : Type} (key : α → Nat) : List α → List α
  | [] => []
  | v :: r => insertBy key v (sortBy key r)

-- Memory -----------------------------------------------------------------------------------------------------------
-- Addresses of the model's one byte store. Below 2^48: physical addresses (03 R68). From 2^48: scratchpads, 2^22 per
-- cell (05 R110). From 2^58: private windows of roaming actors, 4,096 per name (14 R312). From 2^100: regions of parked
-- actors, 2^22 per name (14 R311).

/-- Key of cell address `a` of cell `c`'s scratchpad (05 R110). -/
def spKey (c a : Nat) : Nat := 2 ^ 48 + c * 2 ^ 22 + a
/-- Key of a roaming actor's private window (14 R312). -/
def winKey (n : ActorName) : Nat := 2 ^ 58 + n.toNat * 2 ^ 12
/-- Key of a parked actor's region (14 R311). -/
def parkKey (n : ActorName) : Nat := 2 ^ 100 + n.toNat * 2 ^ 22

/-- What a byte that nothing has written reads as: the boot files where Astrolabe placed them, else 0 (23 R413, log 7). -/
def Memory.default (a : Nat) : Byte :=
  if bootBase ≤ a ∧ a < bootBase + 2 * bootLen then bootStore.getD (a - bootBase) 0 else 0

/-- One byte of memory. -/
def Memory.get : List Host.Cell → Nat → Byte
  | [], a => Memory.default a
  | (k, b) :: r, a => if k = a then b else if a < k then Memory.default a else Memory.get r a

/-- Bytes `a` and up, read along a rising list. -/
def Memory.walk : List Host.Cell → Nat → Nat → List Byte
  | _, _, 0 => []
  | [], a, n + 1 => Memory.default a :: Memory.walk [] (a + 1) n
  | (k, b) :: r, a, n + 1 =>
    if k = a then b :: Memory.walk r (a + 1) n else Memory.default a :: Memory.walk ((k, b) :: r) (a + 1) n

/-- `n` bytes of memory from `a`. -/
def Memory.read (m : List Host.Cell) (a n : Nat) : List Byte :=
  Memory.walk (m.filter fun e => a ≤ e.1 && e.1 < a + n) a n

/-- The entries that bytes at `a` and up need. -/
def Memory.fresh : Nat → List Byte → List Host.Cell
  | _, [] => []
  | a, b :: r => if b = Memory.default a then Memory.fresh (a + 1) r else (a, b) :: Memory.fresh (a + 1) r

/-- Memory after `bs` is written at `a`: what lies below, the bytes that differ from what an unlisted byte reads as, and
what lies above. -/
def Memory.write (m : List Host.Cell) (a : Nat) (bs : List Byte) : List Host.Cell :=
  m.filter (fun e => e.1 < a) ++ Memory.fresh a bs ++ m.filter (fun e => a + bs.length ≤ e.1)

/-- The canonical form of memory: addresses rise, and no entry says what an unlisted address says. -/
def Memory.wf : List Host.Cell → Bool
  | [] => true
  | [(k, b)] => b != Memory.default k
  | (k, b) :: (k', b') :: r => b != Memory.default k && k < k' && Memory.wf ((k', b') :: r)

/-- `n` bytes of memory from `a`. -/
def State.bytes (s : State) (a n : Nat) : List Byte := Memory.read s.mem a n
/-- The little-endian number in `n` bytes from `a`. -/
def State.num (s : State) (a n : Nat) : Nat := ofBytes (s.bytes a n)
/-- Bytes stored at `a`. -/
def State.put (s : State) (a : Nat) (bs : List Byte) : State := { s with mem := Memory.write s.mem a bs }
/-- `n` zero bytes stored at `a`; where every byte that nothing has written reads 0, no entry stays. -/
def State.zero (s : State) (a n : Nat) : State :=
  if bootBase + 2 * bootLen ≤ a ∨ a + n ≤ bootBase then { s with mem := s.mem.filter fun e => e.1 < a || a + n ≤ e.1 }
  else s.put a (List.replicate n 0)

-- Poison bits (03 R70, 07 R167, 08 R188) ---------------------------------------------------------------------------

/-- The 32-byte sectors that `n` bytes from `a` touch: first sector and how many. -/
def sectorsOf (a n : Nat) : Nat × Nat := if n = 0 then (a / 32, 0) else (a / 32, (a + n - 1) / 32 - a / 32 + 1)
/-- Whether any sector of `n` bytes from `a` is poisoned. -/
def State.spoisoned (s : State) (a n : Nat) : Bool :=
  n != 0 && s.spois.any fun k => a / 32 ≤ k && k ≤ (a + n - 1) / 32
/-- The sectors that `n` bytes from `a` cover wholly: first sector and how many. -/
def wholeSectors (a n : Nat) : Nat × Nat := (ceilDiv a 32, (a + n) / 32 - ceilDiv a 32)
/-- Poison bits after a write of `n` bytes from `a` whose bytes are poisoned as `p` says: a sector covered wholly takes
`p`, one covered partly keeps its bit as well (07 R167). -/
def State.spoisWrite (s : State) (a n : Nat) (p : Bool) : State :=
  if p then { s with spois := addRange s.spois (sectorsOf a n).1 (sectorsOf a n).2 }
  else { s with spois := delRange s.spois (wholeSectors a n).1 (wholeSectors a n).2 }
/-- Poison bits of `n` bytes from `a` all cleared. -/
def State.spoisClear (s : State) (a n : Nat) : State :=
  { s with spois := delRange s.spois (sectorsOf a n).1 (sectorsOf a n).2 }

-- Maps of the state ------------------------------------------------------------------------------------------------

/-- The actor of a name; an actor that does not exist reads as FREE data. -/
def State.actor (s : State) (n : ActorName) : Actor := kvGet { st := .free } s.actors n.toNat
/-- Whether an actor of this name has a record. -/
def State.has (s : State) (n : ActorName) : Bool := kvHas s.actors n.toNat
/-- The state with an actor's data replaced. -/
def State.setActor (s : State) (a : Actor) : State := { s with actors := kvSet s.actors a.name.toNat a }
/-- The state without an actor's record. -/
def State.dropActor (s : State) (n : ActorName) : State := { s with actors := kvDel s.actors n.toNat }
/-- The state with an actor changed, if it exists. -/
def State.modActor (s : State) (n : ActorName) (f : Actor → Actor) : State :=
  if s.has n then s.setActor { f (s.actor n) with name := n } else s
/-- The actor whose instruction issues. -/
def State.cur (s : State) : Actor := s.actor s.focus
/-- The state with the issuing actor's data replaced. -/
def State.setCur (s : State) (a : Actor) : State := s.setActor { a with name := s.focus }
/-- A cell. -/
def State.cell (s : State) (c : Nat) : Cell := kvGet {} s.cells c
/-- The state with a cell replaced. -/
def State.setCell (s : State) (c : Nat) (v : Cell) : State := { s with cells := kvSet s.cells c v }
/-- The state with a cell changed. -/
def State.modCell (s : State) (c : Nat) (f : Cell → Cell) : State := s.setCell c (f (s.cell c))
/-- The actors, in ascending order of their names. -/
def State.all (s : State) : List Actor := s.actors.map (·.2)

/-- `pkg` of a name (14 R305). -/
def pkgOf (n : ActorName) : Nat := n.toNat / 2 ^ 54
/-- `job` of a name (14 R305). -/
def jobOf (n : ActorName) : Nat := n.toNat / 2 ^ 38 % 2 ^ 16
/-- `serial` of a name (14 R305). -/
def serialOf (n : ActorName) : Nat := n.toNat / 2 ^ 8 % 2 ^ 30
/-- `gen` of a name (14 R305). -/
def genOf (n : ActorName) : Nat := n.toNat % 2 ^ 8
/-- A name of its fields (14 R305). -/
def nameOf (pkg job serial gen : Nat) : ActorName := BitVec.ofNat 64 (pkg * 2 ^ 54 + job * 2 ^ 38 + serial * 2 ^ 8 + gen)

/-- The job service, the portal, the duty agent and the security service (14 R326, 18 R381, 21 R402, 23 R418). -/
def State.service (s : State) (serial : Nat) : ActorName := nameOf s.regs.aid 0 serial 0
/-- The name that the model gives the boot program of a cell; job 0 has no such serial (14 R305; log 20). -/
def bootName (c : Nat) : ActorName := nameOf 0 0 (1024 + c) 0
/-- Whether a name is that of a boot program. -/
def isBoot (n : ActorName) : Bool := jobOf n == 0 && 1024 ≤ serialOf n && serialOf n < 1536
/-- The key under which the model keeps the shadow run of an audit buffer (21 R396; log 21). -/
def shadowName (buf : Nat) : ActorName := nameOf 0 0 (2048 + buf) 0

/-- The file of a handle; 0 and 1 are the boot files (22 R407). -/
def State.file (s : State) (h : Nat) : File := if h < 2 then bootFile h else (s.files.find? fun f => f.handle == h).getD {}
/-- The image of an actor. -/
def State.image (s : State) (a : Actor) : Image := (s.file a.file).images.getD a.img {}
/-- A live job of the module. -/
def State.job (s : State) (j : Nat) : Option Job := s.jobs.find? fun x => x.jobn == j
/-- A job changed. -/
def State.modJob (s : State) (j : Nat) (f : Job → Job) : State :=
  { s with jobs := s.jobs.map fun x => if x.jobn == j then f x else x }
/-- An audit buffer. -/
def State.audit (s : State) (b : Nat) : AuditBuf := kvGet {} s.audits b

/-- Key of region offset 0 of an actor: its region, its private window, or its parked region (05 R110, R111). -/
def regionKey (a : Actor) : Nat :=
  if a.roaming then winKey a.name else if a.st == .parked then parkKey a.name else spKey a.cell a.base
/-- Bytes that an actor's region offsets reach (05 R111; 08 R188 for boot mode). -/
def regionSize (a : Actor) : Nat := if a.roaming then 4096 else a.size * 4096

-- The agenda -------------------------------------------------------------------------------------------------------

/-- A step that the part will take, `d` cycles from now or later. -/
def State.post (s : State) (d : Nat) (ev : Instr) (arg : EvArg) : State :=
  { s with agenda := s.agenda ++ [⟨s.cycle + d, ⟨ev, arg⟩⟩] }
/-- A fresh number for a request or a transfer. -/
def State.freshId (s : State) : State := { s with nextId := s.nextId + 1 }
/-- A free value of 64 bits, and the state that has used it (log 3). -/
def State.freshVal (s : State) : State := { s with free := s.free + 1 }

-- Sillage (21 R406) ------------------------------------------------------------------------------------------------

/-- The bytes of a trace record. -/
def traceRecord (t : Nat) (oth act : ActorName) (seq chan rsn cell kind : Nat) : List Byte :=
  bytesOf 8 (seq * 2 ^ 48 + chan * 2 ^ 44 + rsn * 2 ^ 36 + cell * 2 ^ 27 + kind) ++ bytesOf 8 act.toNat ++
    bytesOf 8 oth.toNat ++ bytesOf 8 t

/-- A trace record written into the ring; kinds 1 to 4 only for actors whose `trc` selects them. -/
def State.trace (s : State) (kind : Nat) (a : Actor) (oth : ActorName) (seq chan rsn : Nat) : State :=
  let sel := if kind = 1 ∨ kind = 2 then bit a.dbg.trc 0 else if kind = 3 then bit a.dbg.trc 1
    else if kind = 4 then bit a.dbg.trc 2 else true
  if s.regs.silEn && sel && a.shadow.isNone then
    let slot := s.regs.swr % 2 ^ s.regs.slog
    let s := s.put (s.regs.silbase * 2 ^ 16 + slot * 32)
      (traceRecord (s.cycle % 2 ^ 64) oth a.name (seq % 2 ^ 16) chan rsn a.cell kind)
    { s with regs := { s.regs with swr := (s.regs.swr + 1) % 2 ^ 32 } }
  else s

-- Kills (00 R15, 16 R341 to R344) ----------------------------------------------------------------------------------

/-- Reason codes (16 R341). -/
def rNormal : Reason := 0x00
def rIllegal : Reason := 0x01
def rGivenTile : Reason := 0x10
def rTileState : Reason := 0x11
def rTileBounds : Reason := 0x12
def rExtent : Reason := 0x20
def rLockedMiss : Reason := 0x21
def rPoison : Reason := 0x30
def rBudget : Reason := 0x40
def rOverflow : Reason := 0x41
def rPeerLost : Reason := 0x50
def rBuoyLost : Reason := 0x51
def rReplyTwice : Reason := 0x60
def rBarrierBusy : Reason := 0x61
def rAuditMismatch : Reason := 0x70
def rKilled : Reason := 0x80
def rLinked : Reason := 0x81
def rEscalate : Reason := 0x82

/-- Reason group of a code (16 R342). -/
def groupOf (r : Reason) : Nat := if r = 0 then 0 else if r.toNat < 0x80 then 1 else if r.toNat < 0xC0 then 2 else 3

/-- The incoming buffer of a B latch becomes current once the current one is free (05 R130). -/
def Cell.promote (e : Cell) : Cell :=
  if e.lbOwner = 0 && e.lbBind.isNone && e.lbNext.loaded then
    { e with lb := e.lbNext, lbOwner := e.lbIn, lbSrc := e.lbInSrc, lbNext := {}, lbIn := 0, lbInSrc := 0 }
  else e
/-- A relay whose message will start no handler: the buffer that holds it is cleared (10 R238). -/
def Cell.clearRelay (e : Cell) (id : Nat) : Cell :=
  let e : Cell := if id != 0 && e.lbInSrc == id then { e with lbNext := {}, lbIn := 0, lbInSrc := 0 } else e
  let e : Cell := { e with xfers := e.xfers.map fun (x : Xfer) => if x.id == id && x.kind == .relay then { x with k := 1 } else x }
  if id != 0 && e.lbSrc == id then ({ e with lb := {}, lbOwner := 0, lbSrc := 0 } : Cell).promote else e
/-- The buffers of a relay cleared wherever they are. -/
def State.clearRelay (s : State) (id : Nat) : State := { s with cells := s.cells.map fun e => (e.1, e.2.clearRelay id) }
/-- The transfers of an outbox's messages. -/
def outboxXids (l : List OutItem) : List Nat := (l.map fun o => match o with | .msg _ x => x | .relay _ x => [x] | _ => []).flatten
/-- A transfer of a dead actor: what has not left stays behind (05 R134). -/
def Xfer.dropHeld (x : Xfer) (n : ActorName) : Xfer := if x.actor == n then { x with held := [], pieces := [], todo := [] } else x

/-- The part's side of step 2 of R344: side-log entries and held pieces of the actor go, held relays are discarded, and
packets of it that no tag has sent yet are dropped (04 R108, 05 R134). -/
def State.dropWork (s : State) (n : ActorName) : State :=
  { s with
    cells := s.cells.map fun e => (e.1, { e.2 with
      side := e.2.side.filter fun x => x.actor != n
      xfers := (e.2.xfers.filter fun x => !(x.actor == n && (x.kind == .relay || x.kind == .mcast) && x.toRead != 0)).map
        fun x => x.dropHeld n })
    ports := s.ports.map fun e => (e.1, { e.2 with held := e.2.held.filter fun p => p.owner != n })
    actors := s.actors.map fun e => if e.1 == n.toNat then
      (e.1, { e.2 with flying := ((s.ports.map fun q => q.2.held.filter fun p => p.owner == n).flatten.map fun p => p.pa / 2 ^ 16).foldl List.erase e.2.flying })
      else e }

/-- TAKING A KILL (16 R344, steps 1 and 2): the actor enters DYING with its reason fixed (R343), its name becomes stale,
its outbox is dropped, and its reclaim is due. An actor in TRANSIT takes the kill after COMMIT (R311, R360); a shadow run
ends with a signature of the reason alone (21 R396). -/
def killActor (s : State) (n : ActorName) (r : Reason) : State :=
  let a := s.actor n
  match a.st with
  | .free | .dying => s
  | .transit => { s with held := s.held ++ [⟨n, ⟨.dying, { actor := n, n := r.toNat }⟩⟩] }
  | .idle | .ready | .active | .parked =>
    let s := (outboxXids a.outbox).foldl State.clearRelay s
    let s := (s.setActor { a with name := n, st := .dying, debt := some r, outbox := [], walks := [] }).dropWork n
    match a.shadow with
    | some b => s.post 0 .shadowComplete { n := b }
    | none => (s.trace 7 a 0 0 0 r.toNat).post 0 .reclaim { actor := n }

-- The result of an issue attempt (00 R15) --------------------------------------------------------------------------

/-- How an evaluation ends early: `Stall()`, with what the attempt has asked for, or `Kill(reason)`. -/
inductive Stop | stall (s : State) | kill (r : Reason)

/-- An evaluation. -/
abbrev Res (α : Type) := Except Stop α
/-- The answer of a step. -/
abbrev Out := Host.Outcome State Fault Refusal

/-- `Kill(reason)`. -/
def Kill {α : Type} (r : Reason) : Res α := .error (.kill r)
/-- `Stall()`. -/
def Stall {α : Type} (s : State) : Res α := .error (.stall s)
/-- A check. -/
def check (c : Bool) (r : Reason) : Res Unit := if c then .ok () else Kill r

/-- The outcome of an issue: retired, stalled, or its actor killed. -/
def finish (s : State) : Res State → Out
  | .ok t => .next { t with stalled := false }
  | .error (.stall t) => .next { t with stalled := true }
  | .error (.kill r) => .next { killActor s s.focus r with stalled := false }

-- The result queue and the program counter (08 R170 to R172, 01 R17) -----------------------------------------------

/-- `Push` of an entry. -/
def Actor.push (a : Actor) (e : Ent) : Actor := { a with h := e :: a.h.take 15 }
/-- `Push` of a value. -/
def Actor.pushVal (a : Actor) (v : W64) (p : Bool) : Actor := a.push (.val v p)
/-- Retirement of an instruction of `n` words that does not transfer control (01 R17). -/
def Actor.retire (a : Actor) (n : Nat) : Actor := { a with pc := a.pc + 4 * n, retired := a.retired + 1 }
/-- Retirement of an instruction that sets the program counter. -/
def Actor.jump (a : Actor) (pc : Nat) : Actor := { a with pc := pc, retired := a.retired + 1 }
/-- The issuing actor retires an instruction of `n` words. -/
def State.retire (s : State) (n : Nat) : State := s.setCur (s.cur.retire n)
/-- The issuing actor pushes a value. -/
def State.push (s : State) (v : W64) (p : Bool) : State := s.setCur (s.cur.pushVal v p)
/-- Budget cycles left in the invocation (14 R322); while the actor is stopped the count stands. -/
def State.budrem (s : State) (a : Actor) : Nat :=
  a.budget - ((if a.dbg.stop then a.dbg.since else s.cycle) - a.start - a.paused)
/-- The context-cache slot that holds an actor's context (14 R308, R309). -/
def ctxSlot (a : Actor) : Nat := if a.roaming then 8 + a.rslot else a.seat
/-- The cell whose issue core runs an actor's context (14 R309). -/
def runCell (a : Actor) : Nat := if a.roaming && a.rc then a.rcell else a.cell
/-- The result of an instruction of `n` words: pushed, and the instruction retired. -/
def State.result (s : State) (n : Nat) (v : W64) (p : Bool) : State := s.setCur ((s.cur.pushVal v p).retire n)
/-- A named register written (01 R25). -/
def Actor.setS (a : Actor) (k : Nat) (e : Ent) : Actor := { a with s := a.s.set k e }
/-- A nonzero `dst` takes the result as well (01 R25). -/
def Actor.setDst (a : Actor) (dst : Option (Fin 16)) (e : Ent) : Actor :=
  match dst with | none => a | some k => a.setS k.val e

/-- Entries that wait for `tok` take their value. -/
def fillTok (tok : Nat) (v : W64) (p : Bool) (e : Ent) : Ent :=
  match e with | .wait t => if t = tok then .val v p else e | .val _ _ => e
/-- An actor's registers after the value of `tok` has arrived. -/
def Actor.fill (a : Actor) (tok : Nat) (v : W64) (p : Bool) : Actor :=
  { a with h := a.h.map (fillTok tok v p), s := a.s.map (fillTok tok v p) }

-- Values from outside: the audit log (21 R394, R396) ---------------------------------------------------------------

/-- Bytes of a log entry. -/
def LogEnt.size : LogEnt → Nat | .bytes _ bs => bs.length | .val _ _ _ => 8
/-- An audit buffer changed. -/
def State.modAudit (s : State) (b : Nat) (f : AuditBuf → AuditBuf) : State :=
  { s with audits := s.audits.map fun e => if e.1 == b then (e.1, f e.2) else e }
/-- A log entry of an audited invocation; a log that outgrows its 2 MiB buffer abandons the sample (R397). -/
def State.logIn (s : State) (a : Actor) (e : LogEnt) : State :=
  match a.audit with
  | none => s
  | some b =>
    let size := total ((s.audit b).log.map LogEnt.size)
    let s := s.modAudit b fun x => { x with log := x.log ++ [e] }
    if size ≤ 2 ^ 21 && 2 ^ 21 < size + e.size then s.post 0 .shadowAbandon { n := b, actor := a.name, m := a.invNo } else s
/-- Bytes appended to the output stream of an audited or shadow invocation. -/
def State.logOut (s : State) (a : Actor) (bs : List Byte) : State :=
  match a.audit, a.shadow with
  | some b, _ | none, some b => s.modAudit b fun x => { x with out := x.out ++ bs }
  | none, none => s
/-- The entry of token `tok` takes its value. -/
def LogEnt.fillVal (tok : Nat) (v : W64) (p : Bool) : LogEnt → LogEnt
  | .val t v' p' => if t = tok then .val 0 v p else .val t v' p'
  | e => e
/-- The entry of token `tok` takes its bytes. -/
def LogEnt.fillBytes (tok : Nat) (bs : List Byte) : LogEnt → LogEnt
  | .bytes t bs' => if t = tok then .bytes 0 bs else .bytes t bs'
  | e => e
/-- The next entry of the log that a shadow run reads, taken out. -/
def State.nextLog (s : State) (b : Nat) : Option LogEnt × State :=
  match (s.audit b).left with
  | [] => (none, s)
  | e :: r => (some e, s.modAudit b fun x => { x with left := r })
/-- A value that enters the issuing actor from outside at issue: recorded when the invocation is audited, taken from the
log in a shadow run. -/
def State.outside (s : State) (v : W64) (p : Bool) : W64 × Bool × State :=
  match s.cur.shadow with
  | none => (v, p, s.logIn s.cur (.val 0 v p))
  | some b =>
    match s.nextLog b with
    | (some (.val _ v' p'), s') => (v', p', s')
    | (_, s') => (0, false, s')
/-- A push of a value from outside. -/
def State.pushOutside (s : State) (v : W64) (p : Bool) : State :=
  let (v', p', s') := s.outside v p
  s'.push v' p'
/-- A push that becomes ready when an answer arrives: `ask` sends the request under its token. In a shadow run no request
leaves and the log gives the value at once. -/
def State.pushAsked (s : State) (ask : Nat → State → State) : State :=
  match s.cur.shadow with
  | some _ => s.pushOutside 0 false
  | none =>
    let tok := s.nextId
    let s := s.freshId
    let s := s.logIn s.cur (.val tok 0 false)
    ask tok (s.setCur (s.cur.push (.wait tok)))
/-- The answer to a request of an actor: its entries become ready. -/
def State.answer (s : State) (n : ActorName) (tok : Nat) (v : W64) (p : Bool) : State :=
  let s : State := { s with audits := s.audits.map fun e => (e.1, { e.2 with log := e.2.log.map (LogEnt.fillVal tok v p) }) }
  s.modActor n fun a => a.fill tok v p

-- Outstanding operations (11 R262, 09 R213) ------------------------------------------------------------------------

/-- An operation of the issuing invocation that awaits its acknowledgement. -/
def Actor.addOut (a : Actor) (o : OutOp) : Actor := { a with outs := a.outs ++ [{ o with inv := a.invNo }] }
/-- An acknowledgement. -/
def Actor.dropOut (a : Actor) (id : Nat) : Actor := { a with outs := a.outs.filter fun o => o.id != id }
/-- Whether everything that a commit point waits for has been acknowledged (11 R262). -/
def Actor.commitReady (a : Actor) : Bool := a.outs.all fun o => o.inv != a.invNo || o.kind == .fetch
/-- Whether an operation of scope `sc` is one that a fence of it waits for (09 R213). -/
def OutOp.inScope (o : OutOp) : Scope → Bool
  | .a | .c => false
  | .k => o.pkg
  | .p => o.pkg || o.pod
/-- Whether the wait of a `.rel` fence would end (09 R213). -/
def Actor.relReady (a : Actor) (sc : Scope) : Bool :=
  a.outs.all fun o => !(o.inv == a.invNo && (o.kind == .write || o.kind == .ret) && o.inScope sc)
/-- Whether the wait of an `.acq` fence would end: every earlier fetch counts, whatever its invocation (09 R213). -/
def Actor.acqReady (a : Actor) (sc : Scope) : Bool :=
  a.outs.all fun o => !((o.kind == .fetch || o.kind == .ret) && o.inScope sc)
/-- Whether an earlier `.acq` access, of this or an earlier invocation, holds later global accesses back (09 R207, R215): `end` does not
wait for a fetch. -/
def Actor.acqHold (a : Actor) : Bool := a.outs.any fun o => o.acq

-- Geometry (00 R2 to R7) -------------------------------------------------------------------------------------------

/-- Column of a cell. -/
def cellX (c : Nat) : Nat := c % 32
/-- Row of a cell. -/
def cellY (c : Nat) : Nat := c / 32
/-- |a − b|. -/
def absDiff (a b : Nat) : Nat := if a ≤ b then b - a else a - b
/-- Manhattan distance of two cells (15 R333). -/
def dist (c d : Nat) : Nat := absDiff (cellX c) (cellX d) + absDiff (cellY c) (cellY d)
/-- The compute die of a cell (00 R5). -/
def dieOf (c : Nat) : Nat := cellX c / 16 + 2 * (cellY c / 8)

end Sys2Proof.Machine
end

