-- ==== Sys2Proof/Machine/Operands.lean ====
section
/-! DEFINITION. Every operand form: scalar selectors (01 R29), substituted parameter words (01 R27), tile selectors and
ring slots (01 R30, 05 R126), the tile-state checks and transitions of 05 R117 and R118, formats, and the elements of a
tile with their poison (05 R116, 07 R167). -/

namespace Sys2Proof.Machine

-- Scalars ----------------------------------------------------------------------------------------------------------

/-- The name that `self` reads: the audited actor's in a shadow run (21 R396). -/
def selfName (a : Actor) : ActorName := if a.shadow.isSome then a.target else a.name

/-- What a scalar selector reads (01 R29). -/
def readEnt (a : Actor) : Scalar → Ent
  | .zero => .val 0 false
  | .h k => a.h.getD k.val (.val 0 false)
  | .m k => .val (a.msg.m.getD k.val 0) false
  | .self => .val (selfName a) false
  | .sender => .val a.msg.sender false
  | .chan => .val (BitVec.ofNat 64 a.msg.chan.val) false
  | .s k => a.s.getD k.val (.val 0 false)

/-- The value and poison bit of an operand; an operand that is not ready stalls (08 R171). -/
def operand (s : State) (sel : Scalar) : Res (W64 × Bool) :=
  match readEnt s.cur sel with
  | .val v p => .ok (v, p)
  | .wait _ => Stall s

/-- An operand whose poison kills (08 R172, 21 R392). -/
def cleanOperand (s : State) (sel : Scalar) : Res W64 := do
  let (v, p) ← operand s sel
  check (!p) rPoison
  return v

/-- A parameter word, substituted at issue (01 R27, R35 step 3); `hi` says that it is an upper half. -/
def param (s : State) (hi : Bool) : PWord → Res Nat
  | .const v => .ok v.toNat
  | .subst sel => do
    let v ← cleanOperand s sel
    return if hi then v.toNat / 2 ^ 32 else v.toNat % 2 ^ 32

/-- A 64-bit field in two parameter words. -/
def param64 (s : State) (lo hi : PWord) : Res Nat := do
  let a ← param s false lo
  let b ← param s true hi
  return a + b * 2 ^ 32

/-- A 32-bit displacement sign-extended to 64 bits. -/
def sext32 (d : W32) : W64 := d.signExtend 64

-- Tiles ------------------------------------------------------------------------------------------------------------

/-- The handle that a tile selector resolves to (05 R126); `dst` says that the field is a destination or another write
operand. -/
def resolve (a : Actor) (dst : Bool) : TileSel → Res Nat
  | .t k => .ok k.val
  | .q n k =>
    let r := a.rings.getD n.val {}
    if r.def_ then .ok (r.first + (((if dst then r.pidx else r.cidx) + k.val) % r.count)) else Kill rTileState

/-- The entry of a handle. -/
def tileAt (a : Actor) (h : Nat) : TileEnt := a.tiles.getD h {}

/-- The entry of a handle as its number (05 R115). -/
def tileNum : TileState → Nat
  | .free => 0 | .empty => 1 | .filling => 2 | .ready => 3 | .draining => 4 | .given => 5 | .latched => 6
/-- The 128 bits of a tile entry (05 R115). -/
def tileBits (e : TileEnt) : Nat :=
  e.loc.toNat * 2 ^ 72 + e.pitch.toNat * 2 ^ 48 + e.rows.toNat * 2 ^ 40 + e.cols.toNat * 2 ^ 29 + e.fmt.val * 2 ^ 25 +
    e.bar.val * 2 ^ 21 + e.drn % 128 * 2 ^ 14 + ofBool e.glob * 2 ^ 13 + ofBool e.lu * 2 ^ 12 + tileNum e.state

/-- The tile entry of 128 bits, if its fields are some entry's (05 R115). -/
def tileOf (v : Nat) : Option TileEnt :=
  let st : Option TileState := match bits v 2 0 with | 0 => some .free | 1 => some .empty | 3 => some .ready | 5 => some .given | _ => none
  match st with
  | none => none
  | some st =>
    if bits v 24 21 ≤ 8 && bits v 20 14 = 0 then
      some { loc := BitVec.ofNat 56 (bits v 127 72), pitch := BitVec.ofNat 24 (bits v 71 48), rows := BitVec.ofNat 8 (bits v 47 40), cols := BitVec.ofNat 11 (bits v 39 29), fmt := Fin.ofNat 16 (bits v 28 25), bar := Fin.ofNat 9 (bits v 24 21), glob := bit v 13, lu := bit v 12, state := st }
    else none

/-- A stop cause recorded against an actor: a watchpoint or breakpoint (21 R405). -/
def Actor.cause (a : Actor) (c ix : Nat) : Actor := { a with dbg := { a.dbg with pend := a.dbg.pend ++ [(c, ix)] } }
/-- The tile watchpoints that a change of handle `h`'s state fires (21 R405). -/
def Actor.watchTile (a : Actor) (h : Nat) : Actor :=
  let fire (i : Nat) (b : Actor) : Actor :=
    let w := a.dbg.twp.getD i (false, 0)
    if w.1 && w.2 == h then b.cause 4 (i + 2) else b
  fire 1 (fire 0 a)
/-- The scratchpad watchpoints that an access to `n` bytes at region offset `off` fires (21 R405); `wr` for a write. -/
def Actor.watchBytes (a : Actor) (wr : Bool) (off n : Nat) : Actor :=
  let fire (i : Nat) (b : Actor) : Actor :=
    let w := a.dbg.swp.getD i (false, 0, 0, 0)
    if w.1 && n != 0 && bit w.2.1 (ofBool wr) && w.2.2.2 < off + n && off < w.2.2.2 + w.2.2.1 then b.cause 3 i else b
  fire 1 (fire 0 a)
/-- The entry of a handle written; a change of its state fires tile watchpoints. -/
def Actor.setTile (a : Actor) (h : Nat) (e : TileEnt) : Actor :=
  let a' := { a with tiles := a.tiles.set h e }
  if (tileAt a h).state == e.state then a' else a'.watchTile h
/-- The state of a handle changed. -/
def Actor.tileState (a : Actor) (h : Nat) (st : TileState) : Actor := a.setTile h { tileAt a h with state := st }

/-- Whether a handle lies within a defined ring (05 R133). -/
def inRing (a : Actor) (h : Nat) : Bool := a.rings.any fun r => r.def_ && r.first ≤ h && h < r.first + r.count
/-- What a last-use mark leaves of a handle (05 R118, R133). -/
def Actor.release (a : Actor) (h : Nat) : Actor :=
  if inRing a h then a.setTile h { tileAt a h with state := .empty, drn := 0, lu := false } else a.setTile h {}
/-- A last-use mark takes effect at retirement (05 R118, R131). -/
def Actor.lastUse (a : Actor) (h : Nat) : Actor :=
  match (tileAt a h).state with
  | .ready => a.release h
  | .draining => a.setTile h { tileAt a h with lu := true }
  | _ => a
/-- Last-use marks on several operands; a handle that stands twice is freed once (05 R132). -/
def Actor.lastUses (a : Actor) (l : List (Bool × Nat)) : Actor :=
  (((l.filter (·.1)).map (·.2)).eraseDups).foldl Actor.lastUse a
/-- An outbound transfer issues (05 R118). -/
def Actor.drain (a : Actor) (h : Nat) : Actor :=
  let e := tileAt a h
  a.setTile h { e with state := .draining, drn := e.drn + 1 }
/-- An outbound transfer, or a give, has read its last byte (05 R118). A GIVEN handle of an invocation that has ended (`lu`) is then FREE
(R128). -/
def Actor.drained (a : Actor) (h : Nat) : Actor :=
  let e := tileAt a h
  match e.state with
  | .draining =>
    if 1 < e.drn then a.setTile h { e with drn := e.drn - 1 }
    else if e.lu then a.release h
    else a.setTile h { e with state := .ready, drn := 0 }
  | .given =>
    if e.lu && e.drn ≤ 1 then a.setTile h {} else a.setTile h { e with drn := e.drn - 1 }
  | _ => a.setTile h { e with drn := e.drn - 1 }

/-- The check of a read operand (05 R117). -/
def needRead (s : State) (h : Nat) : Res TileEnt :=
  let e := tileAt s.cur h
  match e.state with
  | .ready | .draining => .ok e
  | .filling => Stall s
  | .given => Kill rGivenTile
  | .free | .empty | .latched => Kill rTileState
/-- The check of a write operand (05 R117). -/
def needWrite (s : State) (h : Nat) : Res TileEnt :=
  let e := tileAt s.cur h
  match e.state with
  | .empty | .ready => .ok e
  | .filling | .draining => Stall s
  | .given => Kill rGivenTile
  | .free | .latched => Kill rTileState
/-- The check of a `sendt` source (05 R117). -/
def needSend (s : State) (h : Nat) : Res TileEnt := needRead s h
/-- The check of `tdef` and `tfree` on a handle (05 R117). -/
def needDef (s : State) (h : Nat) (isFree : Bool) : Res TileEnt :=
  let e := tileAt s.cur h
  match e.state with
  | .free | .empty | .ready => .ok e
  | .filling | .draining => Stall s
  | .given => if e.drn = 0 then .ok e else Stall s
  | .latched => if isFree then .ok e else Kill rTileState

-- Formats of tiles -------------------------------------------------------------------------------------------------

/-- The descriptor value that a tile names (06 R152). -/
def descVal (a : Actor) (e : TileEnt) : W64 := a.fmts.getD e.fmt.val 0
/-- The descriptor of a tile; an invalid one kills (06 R139). -/
def needDesc (a : Actor) (e : TileEnt) : Res Desc := do
  check (validDesc (descVal a e)) rIllegal
  return descOf (descVal a e)
/-- Bytes of a row (05 R116). -/
def rowBytes (cols wd : Nat) : Nat := ceilDiv (cols * wd) 8
/-- Bytes of a tile (05 R116). -/
def tileSize (e : TileEnt) (d : Desc) : Nat := e.rows.toNat * rowBytes e.cols.toNat d.wd
/-- The size that an instruction finds (06 R140). -/
def needSize (a : Actor) (e : TileEnt) (d : Desc) : Res Nat := do
  let n := tileSize e d
  check (n ≤ 262144 && (e.glob || e.loc.toNat + n ≤ regionSize a)) rTileBounds
  return n
/-- The key of a scratchpad tile's first byte. -/
def tileKey (a : Actor) (e : TileEnt) : Nat := regionKey a + e.loc.toNat

-- Elements (05 R116, 07 R167) --------------------------------------------------------------------------------------

/-- The codes of a row, lowest element first. -/
def splitCodes (w : Nat) : Nat → Nat → List Nat
  | 0, _ => []
  | n + 1, v => v % 2 ^ w :: splitCodes w n (v / 2 ^ w)
/-- The number of a row of codes. -/
def joinCodes (w : Nat) (l : List Nat) : Nat := l.foldr (fun c acc => acc * 2 ^ w + c) 0
/-- A tile's elements row by row: code and poison bit. -/
abbrev Mat := List (List (Nat × Bool))

/-- Which sectors of `n` bytes from `k` are poisoned. -/
def State.poisonIn (s : State) (k n : Nat) : List Nat :=
  s.spois.filter fun x => n != 0 && k / 32 ≤ x && x ≤ (k + n - 1) / 32
/-- Whether element `j` of a row at key `k` touches a poisoned sector of a list. -/
def elemPois (ps : List Nat) (k w j : Nat) : Bool :=
  !ps.isEmpty && ps.any fun x => (k + j * w / 8) / 32 ≤ x && x ≤ (k + (j * w + w - 1) / 8) / 32
/-- One row of elements from key `k`. -/
def State.readRow (s : State) (k cols w : Nat) : List (Nat × Bool) :=
  let ps := s.poisonIn k (rowBytes cols w)
  (splitCodes w cols (s.num k (rowBytes cols w))).mapIdx fun j c => (c, elemPois ps k w j)
/-- The watchpoints that the scratchpad bytes of a tile operand fire (21 R405). -/
def Actor.watchOp (a : Actor) (wr : Bool) (h : Nat) : Actor :=
  let e := tileAt a h
  if e.glob then a else a.watchBytes wr e.loc.toNat (tileSize e (descOf (descVal a e)))
/-- The elements of a scratchpad tile at key `k`. -/
def State.readMat (s : State) (k rows cols w : Nat) : Mat :=
  (List.range rows).map fun i => s.readRow (k + i * rowBytes cols w) cols w

/-- The bytes of a tile's elements, rows packed. -/
def matBytes (w : Nat) (m : Mat) : List Byte :=
  (m.map fun r => bytesOf (rowBytes r.length w) (joinCodes w (r.map (·.1)))).flatten
/-- The sectors that the poisoned elements of a tile at key `k` touch. -/
def matPois (k w : Nat) (m : Mat) : List Nat :=
  let rb := rowBytes (m.headD []).length w
  (m.mapIdx fun i r => if r.any (·.2) then
      (r.mapIdx fun j e => if e.2 then
        let b := k + i * rb + j * w / 8
        addRange [] (b / 32) ((k + i * rb + (j * w + w - 1) / 8) / 32 - b / 32 + 1) else []).flatten else []).flatten
/-- The sectors that a write of `n` bytes at `k` covers wholly and leaves clean. -/
def cleanSectors (k n : Nat) (bad : List Nat) : List Nat :=
  ((List.range (wholeSectors k n).2).map fun i => (wholeSectors k n).1 + i).filter fun x => !bad.contains x

/-- The index tile's elements in order, as integers with their poison. -/
def indexVals (d : Desc) (m : Mat) : List (Int × Bool) := m.flatten.map fun e => (signed d.wd e.1, e.2)

/-- The program counter's word address advanced by an instruction of `n` words, and the marks applied (R17, R131). -/
def State.retireWith (s : State) (n : Nat) (marks : List (Bool × Nat)) : State :=
  s.setCur ((s.cur.retire n).lastUses marks)

end Sys2Proof.Machine
end

