-- ==== Sys2Proof/Machine/Flags.lean ====
section
/-! DEFINITION. Predicates: guards (01 R23, 08 R173), the comparisons of 08 R181, and the wrapper of every guarded
instruction. -/

namespace Sys2Proof.Machine

/-- A predicate and its poison bit; p0 is always true and never poisoned (01 R21, 08 R173). -/
def Actor.pred (a : Actor) (k : Fin 8) : Bool × Bool := if k = 0 then (true, false) else a.p.getD k.val (false, false)
/-- A predicate written. -/
def Actor.setPred (a : Actor) (k : Fin 8) (v p : Bool) : Actor := { a with p := a.p.set k.val (v, p) }

/-- Step 2 of R35: a poisoned guard kills, whatever `pn`; otherwise whether the instruction takes effect. -/
def guardVal (a : Actor) (g : Guard) : Res Bool := do
  let (v, p) := a.pred g.p
  check (!p) rPoison
  return v != g.pn

/-- What a guarded-off instruction pushes: its first operand's entry, as it is, once for every push (01 R23). -/
def guardedOff (s : State) (n : Nat) (pushes : List Scalar) : State :=
  s.setCur ((pushes.foldl (fun b sel => b.push (readEnt s.cur sel)) s.cur).retire n)

/-- A guarded instruction of `n` words: its body when the guard is true, else only the pushes of R23. -/
def guarded (s : State) (g : Guard) (n : Nat) (pushes : List Scalar) (body : Res State) : Out :=
  finish s (do if ← guardVal s.cur g then body else return guardedOff s n pushes)

/-- An instruction of boot mode; anywhere else step 1 of R35 kills (01 R33, 08 R192). -/
def bootOnly (s : State) (o : Out) : Out := if (s.cell s.cur.cell).boot then o else finish s (Kill rIllegal)

/-- An unguarded instruction. -/
def unguarded (s : State) (body : Res State) : Out := finish s body

/-- The bits of a width. -/
def widthBits : Width → Nat | .w8 => 8 | .w16 => 16 | .w32 => 32 | .w64 => 64
/-- The bytes of a width. -/
def widthBytes (w : Width) : Nat := widthBits w / 8
/-- The low `w` bits of a value, as an unsigned number. -/
def lowU (w : Width) (v : W64) : Nat := v.toNat % 2 ^ (widthBits w)
/-- The low `w` bits of a value, as a two's-complement number. -/
def lowS (w : Width) (v : W64) : Int := signed (widthBits w) (lowU w v)
/-- An integer's low `w` bits, zero-extended to 64 bits (08 R174). -/
def narrow (w : Width) (i : Int) : W64 := BitVec.ofNat 64 (i % 2 ^ (widthBits w)).toNat

/-- An integer comparison (08 R181): `xs`, `ys` the signed readings, `x`, `y` the unsigned ones. -/
def compareInt (c : Cond) (xs ys : Int) (x y : Nat) : Bool :=
  match c with
  | .eq => x == y
  | .ne => x != y
  | .lt => xs < ys
  | .ge => ys ≤ xs
  | .ltu => x < y
  | .geu => y ≤ x
  | .le => xs ≤ ys
  | .gt => ys < xs
  | .leu => x ≤ y
  | .gtu => y < x
  | .un | .ord => false

/-- The order of two numbers that are not NaN, with −0 equal to +0. -/
def floatOrder (x y : Val) : Int := if x.isZero && y.isZero then 0 else x.cmp y

/-- A floating-point comparison (08 R181). -/
def compareFloat (c : Cond) (x y : Val) : Bool :=
  let nan := x.isNan || y.isNan
  let o := floatOrder x y
  match c with
  | .eq => !nan && o == 0
  | .ne => nan || o != 0
  | .lt => !nan && o < 0
  | .ge => !nan && 0 ≤ o
  | .le => !nan && o ≤ 0
  | .gt => !nan && 0 < o
  | .un => nan
  | .ord => !nan
  | .ltu | .geu | .leu | .gtu => false

/-- A condition of its number (08 R181, 10 R251). -/
def condOfNum (n : Nat) : Cond :=
  match n with
  | 0 => .eq | 1 => .ne | 2 => .lt | 3 => .ge | 4 => .ltu | 5 => .geu | 6 => .le | 7 => .gt | 8 => .leu | 9 => .gtu
  | 10 => .un | _ => .ord

end Sys2Proof.Machine
end

