-- ==== Sys2Proof/Machine/Packets.lean ====
section
/-! DEFINITION. Addresses and bytes on the links: homes of addresses (03 R68, R69, R79 to R81), the integrity check (11 R261), and the bits
of request packets and replies (03 R74; 09 R219). -/

namespace Sys2Proof.Machine

-- Homes ------------------------------------------------------------------------------------------------------------

/-- The tier of a physical address (03 R68). -/
inductive Tier | dram | cxl | host | buoy
  deriving DecidableEq, Repr
/-- The window of R68 that holds a physical address. -/
def tierOf (pa : Nat) : Option Tier :=
  if pa < 0x00C000000000 then some .dram
  else if 0x100000000000 ≤ pa ∧ pa < 0x200000000000 then some .cxl
  else if 0x200000000000 ≤ pa ∧ pa < 0x300000000000 then some .host
  else if 0x400000000000 ≤ pa ∧ pa < 0x800000000000 then some .buoy
  else none

/-- The slice of a device DRAM address (03 R69). -/
def dramSlice (pa : Nat) : Nat := bits pa 17 12 ^^^ bits pa 23 18 ^^^ bits pa 29 24 ^^^ bits pa 35 30 ^^^ bits pa 39 36
/-- The slice of a CXL address (03 R69). -/
def cxlSlice (pa : Nat) : Nat :=
  bits pa 17 12 ^^^ bits pa 23 18 ^^^ bits pa 29 24 ^^^ bits pa 35 30 ^^^ bits pa 41 36 ^^^ bits pa 43 42
/-- Slice-local address of a DRAM or CXL address (03 R69). -/
def sliceLocal (pa : Nat) : Nat := pa % 2 ^ 44 / 2 ^ 18 * 4096 + pa % 4096
/-- The plane of a pod buoy offset, and its switch-local address (03 R81). -/
def buoyPlane (off : Nat) : Nat := (off % 2 ^ 20 / 2 ^ 16 + off / 2 ^ 20 % 16) % 16
def buoyLocal (off : Nat) : Nat := off / 2 ^ 20 * 2 ^ 16 + off % 2 ^ 16
/-- The mirror of a pod buoy offset (04 R100). -/
def buoyMirror (off : Nat) : Nat := ((off / 2 ^ 20) ^^^ 2 ^ 25) * 2 ^ 20 + ((off % 2 ^ 20) ^^^ 0x80000)
/-- The physical address of a mirror. -/
def mirrorPa (pa : Nat) : Nat := 0x400000000000 + buoyMirror (pa - 0x400000000000)

/-- `Home(addr)` of a physical address (00 R15, 03 R89). -/
def homeOf (pa : Nat) : Option Home :=
  (tierOf pa).map fun t => match t with
    | .dram => .slice (dramSlice pa)
    | .cxl => .slice (cxlSlice pa)
    | .host => .hostPort
    | .buoy => .plane (buoyPlane (pa - 0x400000000000))

/-- The address of a byte within its home: slice-local (R69), switch-local (R81), or the bus address for the host port (R68). -/
def homeLocal (pa : Nat) : Nat :=
  match tierOf pa with
  | some .buoy => buoyLocal (pa - 0x400000000000)
  | some .host => pa - 0x200000000000
  | _ => sliceLocal pa

-- CXL ports (03 R79, R80) ------------------------------------------------------------------------------------------

/-- The decoders that boot programs: the attached capacity in contiguous ranges of the CXL window, port 0 first, at most 16 TiB (R79),
each as its base in the window and its size. -/
def cxlDecoders : List (Nat × Nat) :=
  (List.range 4).map fun p =>
    let below (k : Nat) := min (2 ^ 44) (total ((List.range k).map fun i => Config.cxlCapacity i / 2 ^ 16 * 2 ^ 16))
    (below p, below (p + 1) - below p)
/-- The port that owns a CXL address and the device address behind it: the home agent maps a slice-local address back to the window
offset, and that through the decoders (R69, R79, R80); none where nothing is attached. -/
def State.cxlTarget (s : State) (pa : Nat) : Option (Nat × Nat) :=
  let c := pa % 2 ^ 44
  (findIdx (fun d => d.1 ≤ c && c < d.1 + d.2) s.decoders).map fun p => (p, c - (s.decoders.getD p (0, 0)).1)
/-- Whether memory stands behind a physical address: it lies in a window, and a CXL address in a decoder's range. -/
def State.present (s : State) (pa : Nat) : Bool :=
  match tierOf pa with
  | none => false
  | some .cxl => (s.cxlTarget pa).isSome
  | some _ => true

/-- Whether a granule number names one of device DRAM, CXL memory or buoy memory, which carry ECC and a poison bit (R70). -/
def State.struckAt (s : State) (g : Nat) : Bool := s.present (g * 64) && tierOf (g * 64) != some .host

-- The integrity check (11 R261) ------------------------------------------------------------------------------------

/-- One byte taken into the CRC-64 of R261: eight shifts. -/
def crcShift : Nat → Nat → Nat
  | 0, c => c
  | n + 1, c => crcShift n (if bit c 63 then (c * 2 % 2 ^ 64) ^^^ 0x42F0E1EBA9EA3693 else c * 2 % 2 ^ 64)
/-- The CRC-64 of bytes with an initial value (R261; 21 R394). -/
def crc64 (init : Nat) (bs : List Byte) : Nat := bs.foldl (fun c b => crcShift 8 (c ^^^ (b.toNat * 2 ^ 56))) init

-- Packets (03 R74, 09 R219) ----------------------------------------------------------------------------------------

/-- The 16-byte header of a request or a reply (R74). `loc` keeps 34 bits; the home-local address of a buoy or host packet may have more
(log 107). -/
def headerBits (mask loc len type tag rq aop : Nat) : Nat :=
  mask % 2 ^ 64 * 2 ^ 64 + loc / 16 % 2 ^ 34 * 2 ^ 30 + len % 64 * 2 ^ 24 + type * 2 ^ 20 + tag % 8 * 2 ^ 17 + rq % 2 ^ 10 * 2 ^ 7 + aop
/-- The header of a request. -/
def reqHeader (p : Packet) : Nat :=
  let h (mask len type aop : Nat) := headerBits mask (homeLocal p.pa) len type p.tag p.rq aop
  match p.kind with
  | .rd => h 0 (p.len - 1) 0 0
  | .wr => h 0 (p.len - 1) 1 0
  | .wrm => h p.mask 0 2 0
  | .at_ => h 0 0 3 p.aop
  | .rc => h 0 (p.len - 1) 4 0
  | .rcDecl => h 0 (p.len - 1) 4 1
/-- The 32 bytes of an AT request (R74): operand, comparand, request ID, and bit 3 of the address. -/
def atBody (p : Packet) : List Byte :=
  bytesOf 8 p.v.toNat ++ bytesOf 8 p.c.toNat ++ bytesOf 2 p.reqid ++ bytesOf 14 (homeLocal p.pa / 8 % 2)
/-- The code of a reduction operation (09 R216). -/
def redOpCode : RedOp → Nat | .sum => 0 | .min => 1 | .max => 2
/-- The control granule of an RC packet (R219); a contribution leaves a declaration's fields 0. -/
def rcControl (p : Packet) : Nat :=
  let c := p.rc
  let decl := c.npc % 2 ^ 16 * 2 ^ 400 + c.tva % 2 ^ 64 * 2 ^ 320 + c.iss.toNat * 2 ^ 256 + c.rcp.toNat * 2 ^ 192 + c.ch % 16 * 2 ^ 160 +
    redOpCode c.op * 2 ^ 136
  (if p.kind == .rcDecl then decl else 0) + c.pc % 2 ^ 16 * 2 ^ 384 + c.cols % 2 ^ 11 * 2 ^ 144 + c.rows % 2 ^ 8 * 2 ^ 128 +
    c.desc.toNat * 2 ^ 64 + c.k % 2 ^ 32 * 2 ^ 32 + p.reqid % 2 ^ 16
/-- The bytes of a request: header, and data in granules. -/
def reqBytes (p : Packet) : List Byte :=
  bytesOf 16 (reqHeader p) ++ match p.kind with
    | .rd => []
    | .wr | .wrm => p.data
    | .at_ => atBody p
    | .rc | .rcDecl => bytesOf 64 (rcControl p) ++ p.data ++ List.replicate (ceilDiv p.data.length 64 * 64 - p.data.length) 0
/-- The type code of a reply. -/
def replyType : PKind → Nat | .rd => 8 | .wr | .wrm => 9 | .at_ => 10 | .rc | .rcDecl => 11
/-- The header of a reply: that of its request, with the reply's type, and `pois` for `mask`. -/
def repHeader (r : Reply) : Nat :=
  headerBits (total (r.pois.map (2 ^ ·))) (homeLocal r.pa) (if r.kind == .rd then r.len - 1 else 0) (replyType r.kind) r.tag r.rq r.aop
/-- The bytes of a reply: the granules read, the old value of an atomic, or the status of a contribution with its request ID. -/
def repBytes (r : Reply) : List Byte :=
  bytesOf 16 (repHeader r) ++ match r.kind with
    | .rd => r.data
    | .wr | .wrm => []
    | .at_ => bytesOf 8 r.val.toNat
    | .rc | .rcDecl => bytesOf 8 (r.reqid % 2 ^ 16 * 2 ^ 16 + r.st % 256)

end Sys2Proof.Machine
end

