-- ==== Sys2Proof/Machine/Links.lean ====
section
/-! DEFINITION. Routes, ports and links: the eight tags of a port (03 R71), the mesh (00 R5, R6) and its UCIe crossings (18 R364 to R370), the UALink stations (18 R371 to R376), and the events of the die links. -/

namespace Sys2Proof.Machine

-- Ports' keys -----------------------------------------------------------------------------------------------------

/-- A home's number in the model's maps. -/
def homeNum : Home → Nat | .slice n => n | .plane p => 64 + p | .hostPort => 80
/-- Key of a requester's port to a home. -/
def portKey (rq : Nat) (h : Home) : Nat := rq * 128 + homeNum h
/-- Whether a plane is lost (03 R86). -/
def State.planeDead (s : State) (p : Nat) : Bool := bit s.regs.dsw p
/-- Whether a module is lost (16 R358). -/
def State.peerDead (s : State) (m : Nat) : Bool := s.regs.dead.contains m

-- Agents of the mesh (18 R365) -------------------------------------------------------------------------------------

/-- The cell at which a requester enters the mesh. -/
def entryCell (rq : Nat) : Nat :=
  if rq < 512 then rq
  else if rq < 544 then
    let e := rq - 512
    let sl := 8 * (e / 4) + 2 * (e % 4)
    if sl < 32 then sl else (sl - 32) + 480
  else if rq < 552 then 64 * (rq - 544)
  else if rq < 560 then 31 + 64 * (rq - 552)
  else if rq = 560 then 32 else if rq = 561 then 288 else 319
/-- The cell at which a home enters the mesh: a slice, the station of a plane, the host port. -/
def homeCell : Home → Nat
  | .slice n => if n < 32 then n else n - 32 + 480
  | .plane p => entryCell (544 + p)
  | .hostPort => entryCell 560
/-- The routing number of a home. -/
def homeRoute : Home → Nat | .slice n => n | .plane p => 544 + p | .hostPort => 560

-- The mesh (00 R5, R6) -------------------------------------------------------------------------------------------

/-- A hop between routers: over a skip channel or an ordinary link, from one cell to another (00 R5). -/
inductive Hop | skip (src dst : Nat) | link (src dst : Nat)
  deriving DecidableEq, Repr
/-- The X leg along row `y` from column `x` to column `x2`: a skip channel, which joins local columns c and c + 4 of one die, whenever it
does not overshoot or leave the die, else an ordinary link (00 R6). -/
def xLeg (y x2 : Nat) : Nat → Nat → List Hop
  | 0, _ => []
  | f + 1, x =>
    if x = x2 then []
    else if x < x2 then
      if x + 4 ≤ x2 && x % 16 + 4 ≤ 15 then .skip (32 * y + x) (32 * y + x + 4) :: xLeg y x2 f (x + 4)
      else .link (32 * y + x) (32 * y + x + 1) :: xLeg y x2 f (x + 1)
    else if x2 + 4 ≤ x && 4 ≤ x % 16 then .skip (32 * y + x) (32 * y + x - 4) :: xLeg y x2 f (x - 4)
    else .link (32 * y + x) (32 * y + x - 1) :: xLeg y x2 f (x - 1)
/-- The Y leg along column `x` from row `y` to row `y2`, over ordinary links. -/
def yLeg (x y2 : Nat) : Nat → Nat → List Hop
  | 0, _ => []
  | f + 1, y =>
    if y = y2 then []
    else if y < y2 then .link (32 * y + x) (32 * (y + 1) + x) :: yLeg x y2 f (y + 1)
    else .link (32 * y + x) (32 * (y - 1) + x) :: yLeg x y2 f (y - 1)
/-- The XY route between two cells (00 R6): along the source row, then along the destination column. -/
def meshPath (src dst : Nat) : List Hop :=
  xLeg (cellY src) (cellX dst) 32 (cellX src) ++ yLeg (cellX dst) (cellY dst) 16 (cellY src)
/-- The group of UCIe modules that a hop crosses, if it crosses a die boundary: first module, size, and the direction, `true` to the right
or down (18 R364). -/
def Hop.crossing : Hop → Option (Nat × Nat × Bool)
  | .skip _ _ => none
  | .link a b =>
    let y := cellY a; let x := cellX a
    if dieOf a = dieOf b then none
    else if y = cellY b then some (48 * (y / 8) + 6 * (y % 8), 6, decide (a < b))
    else some (48 * (2 + x / 16) + 3 * (x % 16), 3, decide (a < b))
/-- The UCIe module that a stream of number `n` uses in the group of `g` modules from `base`: the one of its residue, or
the next of the group that is not disabled (18 R364, R369). -/
def State.pickModule (s : State) (base g n : Nat) : Nat :=
  let at_ (i : Nat) := base + (n % g + i) % g
  match (List.range g).find? fun i => (kvGet {} s.ucie (at_ i)).lanes != 2 with
  | some i => at_ i
  | none => at_ 0
/-- The crossings of the route from one cell to another, each a module and a direction. The links within a die, and those to base and I/O
dies, deliver in order and lose nothing (R72, 18 R364): what they do to a packet is timing (log 2, log 10). -/
def State.route (s : State) (src dst n : Nat) : List (Nat × Bool) :=
  ((meshPath src dst).filterMap Hop.crossing).map fun c => (s.pickModule c.1 c.2.1 n, c.2.2)

/-- One direction of a UCIe module. -/
def Ucie.dir (u : Ucie) (d : Bool) : UcieDir := if d then u.fwd else u.rev
/-- One direction replaced. -/
def Ucie.setDir (u : Ucie) (d : Bool) (v : UcieDir) : Ucie := if d then { u with fwd := v } else { u with rev := v }
/-- A UCIe module. -/
def State.module (s : State) (m : Nat) : Ucie := kvGet {} s.ucie m
/-- A UCIe module replaced. -/
def State.setModule (s : State) (m : Nat) (u : Ucie) : State := { s with ucie := kvSet s.ucie m u }
/-- One direction changed. -/
def State.modDir (s : State) (m : Nat) (d : Bool) (f : UcieDir → UcieDir) : State :=
  s.setModule m ((s.module m).setDir d (f ((s.module m).dir d)))

/-- The bytes of a packet with the 16-bit length word that precedes it in a flit's payload (R384). -/
def framed (bs : List Byte) : List Byte := bytesOf 2 bs.length ++ bs
/-- Packets enter the next crossing of their way, or have arrived (18 R364, R366): what they bring happens with the last of them. -/
def State.forwardWire (s : State) (w : Wire) : State :=
  match w.route with
  | [] => { s with agenda := s.agenda ++ [⟨s.cycle, w.ev⟩] }
  | (m, d) :: _ =>
    let s := { s with wires := s.wires ++ [w] }
    let parts := w.parts.mapIdx fun i bs => ({ data := framed bs, last := decide (i + 1 = w.parts.length), id := w.id } : Chunk)
    let s := s.modDir m d fun x => { x with queue := x.queue ++ parts }
    s.post 0 .flitTransmit { n := m, flag := d }
/-- Packets on their way from one cell to another, under a routing number. -/
def State.travel (s : State) (src dst n : Nat) (parts : List (List Byte)) (ev : Event) : State :=
  let w : Wire := { id := s.nextId, route := s.route src dst n, parts := parts, ev := ev }
  s.freshId.forwardWire w
/-- Tile bytes as the packets that carry them, of at most 4 KiB; the manual gives them no header (log 107). -/
def tileParts (bs : List Byte) : List (List Byte) :=
  (List.range (ceilDiv bs.length 4096)).map fun i => (bs.drop (4096 * i)).take 4096

-- Stations (18 R371, R374) -----------------------------------------------------------------------------------------

/-- A station. -/
def State.station (s : State) (k : Nat) : Station := kvGet {} s.stations k
/-- A station replaced. -/
def State.setStation (s : State) (k : Nat) (v : Station) : State := { s with stations := kvSet s.stations k v }
/-- The event of a request packet at its home. -/
def pktEvent (p : Packet) : Event :=
  ⟨match p.kind with | .rd => .rd | .wr => .wr | .wrm => .wrm | .at_ => .at_ | .rc => .rcContribution | .rcDecl => .rcDeclaration,
   { pkt := p }⟩
/-- The event of a reply at its requester. -/
def repEvent (r : Reply) : Event :=
  ⟨match r.kind with | .rd => .rdr | .wr | .wrm => .wack | .at_ => .atr | .rc | .rcDecl => .rca, { rep := r }⟩
/-- A request leaves for the fabric from entry `i` of station `k`, under the tag of the entry's generation; its timeout is due (R374). What
a message brings to its module is outside the model. -/
def State.fabricSend (s : State) (k i : Nat) (e : StationEnt) : State :=
  let st := s.station k
  let s := s.setStation k { st with ents := kvSet st.ents i { e with busy := true } }
  let s := match e.module with
    | some _ => s
    | none =>
      let v := pktEvent { e.pkt with tag := i * 16 + e.gen }
      s.post 0 v.ev { v.arg with flag := true }
  s.post (2 ^ s.regs.ftmo) .fabricTimeout { n := k, m := i, k := e.gen }
/-- A request takes a free entry of station `k`, or waits for one (R374). -/
def State.enterStation (s : State) (k : Nat) (e : StationEnt) : State :=
  let st := s.station k
  match (List.range 256).find? fun i => !(kvGet {} st.ents i).busy with
  | some i => s.fabricSend k i { e with gen := (kvGet {} st.ents i).gen, tries := max 1 e.tries }
  | none => s.setStation k { st with queue := st.queue ++ [e] }
/-- An entry is free again; a request that waited takes it. -/
def State.freeEntry (s : State) (k i : Nat) : State :=
  let st := s.station k
  let e := kvGet {} st.ents i
  let s := s.setStation k { st with ents := kvSet st.ents i { gen := (e.gen + 1) % 16 }, queue := st.queue.drop 1 }
  match st.queue with
  | [] => s
  | q :: _ => s.fabricSend k i { q with gen := (e.gen + 1) % 16, tries := max 1 q.tries }
/-- The first live plane from `p`, wrapping (R373). -/
def State.livePlane (s : State) (p : Nat) : Option Nat :=
  ((List.range 16).map fun i => (p + i) % 16).find? fun q => !s.planeDead q
/-- A message for another module crosses the mesh to the station of its plane (18 R365, R372, R373), with the bytes of its tiles. -/
def State.fabricMessage (s : State) (rq m : Nat) (bytes : List Byte) (g : EvArg) : State :=
  match s.livePlane ((rq + m) % 16) with
  | some k => s.travel (entryCell rq) (entryCell (544 + k)) rq (bytes :: (g.tiles.map tileParts).flatten) ⟨.messageArrival, { g with flag := true, n := k, k := rq }⟩
  | none => s

-- Ports (03 R71, R78, 18 R375) -------------------------------------------------------------------------------------

/-- A port. -/
def State.port (s : State) (rq : Nat) (h : Home) : Port := kvGet {} s.ports (portKey rq h)
/-- A port replaced. -/
def State.setPort (s : State) (rq : Nat) (h : Home) (p : Port) : State := { s with ports := kvSet s.ports (portKey rq h) p }
/-- Whether a packet carries a request ID. -/
def numbered (k : PKind) : Bool := k == .at_ || k == .rc || k == .rcDecl
/-- A packet leaves, on its tag or for its plane's station (R71, 18 R365). -/
def State.launchPkt (s : State) (p : Packet) : State :=
  s.travel (entryCell p.rq) (homeCell p.home) p.rq [reqBytes p] (pktEvent p)
/-- A packet that already has its request ID is sent: for its plane's station, on a free tag, or after the packets held for that home: a
requester sends in the order it generated (R71). At most 64 AT and RC packets to a plane await replies, and the next is held (18 R375). -/
def State.resendPkt (s : State) (p : Packet) : State :=
  let q := s.port p.rq p.home
  let hold : State := s.setPort p.rq p.home { q with held := q.held ++ [p] }
  if !q.held.isEmpty then hold
  else match p.home with
  | .plane _ =>
    if !numbered p.kind then s.launchPkt p
    else if q.out < 64 then (s.setPort p.rq p.home { q with out := q.out + 1 }).launchPkt p
    else hold
  | _ =>
    match (List.range 8).find? fun t => !q.used.contains t with
    | some t => (s.setPort p.rq p.home { q with used := q.used ++ [t] }).launchPkt { p with tag := t }
    | none => hold
/-- A packet is made and sent; an AT or RC packet takes the next request ID of its home (R78). -/
def State.sendPkt (s : State) (p : Packet) : State :=
  let s := s.modActor p.owner fun a => { a with flying := a.flying ++ [p.pa / 2 ^ 16] }
  if numbered p.kind then
    let q := s.port p.rq p.home
    (s.setPort p.rq p.home { q with next := (q.next + 1) % 2 ^ 16 }).resendPkt { p with reqid := q.next }
  else s.resendPkt p
/-- An RC packet answered RETRY leaves again with its request ID (09 R221). -/
def State.sendAgain (s : State) (p : Packet) : State :=
  (s.modActor p.owner fun a => { a with flying := a.flying ++ [p.pa / 2 ^ 16] }).resendPkt p
/-- Whether a 65th AT or RC packet to one buoy home would be outstanding (18 R375). -/
def State.portFull (s : State) (rq : Nat) (h : Home) : Bool :=
  match h with | .plane _ => 64 ≤ (s.port rq h).out | _ => false
/-- The packets held for a plane that may leave now, with what then awaits replies, and those that stay (R71, 18 R375). -/
def drainHeld : Nat → List Packet → List Packet × Nat × List Packet
  | out, [] => ([], out, [])
  | out, p :: r =>
    if numbered p.kind && 64 ≤ out then ([], out, p :: r)
    else let (go, n, l) := drainHeld (if numbered p.kind then out + 1 else out) r; (p :: go, n, l)
/-- A reply has reached its requester: its tag is free and the next held packet leaves on it (R71). -/
def State.freeTag (s : State) (r : Reply) : State :=
  let s := s.modActor r.owner fun a => { a with flying := a.flying.erase (r.pa / 2 ^ 16) }
  let q := s.port r.rq r.home
  match r.home with
  | .plane _ =>
    if !numbered r.kind then s
    else
      let (go, n, l) := drainHeld (q.out - 1) q.held
      go.foldl State.launchPkt (s.setPort r.rq r.home { q with out := n, held := l })
  | _ =>
    match q.held with
    | [] => s.setPort r.rq r.home { q with used := q.used.filter (· != r.tag) }
    | p :: rest => (s.setPort r.rq r.home { q with held := rest }).launchPkt { p with tag := r.tag }
/-- A home answers (R72, R74): a plane through its station, any other home over the mesh. Requesters from 1,024 on are the
host and other modules, whose packets are inputs of the model (log 23); what they receive is outside it. -/
def State.sendReply (s : State) (r : Reply) : State :=
  if 1024 ≤ r.rq then s
  else match r.home with
  | .plane k => s.post 0 .fabricReply { n := k, rep := r }
  | h => s.travel (homeCell h) (entryCell r.rq) (homeRoute h) [repBytes r] (repEvent r)

-- UCIe events (18 R366 to R370) ------------------------------------------------------------------------------------

/-- Chunks packed into one flit's 244 payload bytes: what fits and what is left (R366, R384). A packet begins with its length word, and
that is not split (DESIGN CHOICE, log 107). -/
def packFlit : Nat → List Chunk → List Chunk × List Chunk
  | _, [] => ([], [])
  | room, c :: r =>
    if room = 0 || (room < 2 && !c.more) then ([], c :: r)
    else if c.data.length ≤ room then let (a, b) := packFlit (room - c.data.length) r; (c :: a, b)
    else ([{ c with data := c.data.take room, last := false }], { c with data := c.data.drop room, more := true } :: r)
/-- The code of a flit's kind (R366). -/
def flitCode : FlitKind → Nat | .data => 0 | .idle => 1 | .nak => 2 | .retrain => 3
/-- Bits 1983:0 of a flit (R366): its first word, and its payload, zeros after the last packet (R384). -/
def flitBody (f : Flit) : List Byte :=
  let w := f.fseq % 4096 + flitCode f.kind * 2 ^ 12 + (match f.ack with | some k => k % 4096 * 2 ^ 16 + 2 ^ 28 | none => 0)
  let pay := (f.pay.map (·.data)).flatten
  bytesOf 4 w ++ pay ++ List.replicate (244 - pay.length) 0
/-- A flit with the 256 bytes that carry it: its body and their CRC-64 (R366). -/
def sealFlit (f : Flit) : Flit := { f with raw := flitBody f ++ bytesOf 8 (crc64 0 (flitBody f)) }
/-- Whether the CRC of what arrived fails (R367). -/
def flitFails (f : Flit) : Bool := crc64 0 (f.raw.take 248) != ofBytes (f.raw.drop 248)
/-- A flit whose way has inverted some of its bits. -/
def damageFlit (f : Flit) (noise : BitVec 2048) : Flit := { f with raw := bytesOf 256 (ofBytes f.raw ^^^ noise.toNat) }

/-- The acknowledgement that a flit of direction `d` carries: the last data flit received good in the other one. -/
def State.ackOf (s : State) (m : Nat) (d : Bool) : Nat := (((s.module m).dir (!d)).exp + 4095) % 4096
/-- A flit sent: it reaches the other end as its way leaves it (R367). -/
def State.sendFlit (s : State) (m : Nat) (d : Bool) (f : Flit) : State :=
  let f := sealFlit { f with ack := some (s.ackOf m d) }
  let s' := s.freshVal
  s'.post 0 .flitReceive { n := m, flag := d, flit := damageFlit f (Config.flitNoise s.free) }
/-- Buffered flits after one acknowledged. -/
def afterAck (k : Nat) (l : List Flit) : List Flit :=
  if l.any fun f => f.fseq == k then (l.dropWhile fun f => f.fseq != k).drop 1 else l
/-- A transmitter takes an acknowledgement: buffered flits up to it are free (R367). -/
def State.takeAck (s : State) (m : Nat) (d : Bool) (k : Nat) : State :=
  let s := s.modDir m d fun x => { x with buf := afterAck k x.buf, acked := some k }
  if ((s.module m).dir d).queue.isEmpty then s else s.post 0 .flitTransmit { n := m, flag := d }

/-- FLIT_TRANSMIT (R366, R367): the transmitter of a direction packs its waiting packets into the next data flit, keeps it
in the replay buffer and sends it, unless 64 flits are unacknowledged, a NAK awaits its resends, or the module retrains. -/
def execFlitTransmit (s : State) : Out :=
  let m := s.arg.n; let d := s.arg.flag
  let u := s.module m; let x := u.dir d
  if u.busy || u.lanes = 2 || x.again || 64 ≤ x.buf.length || x.queue.isEmpty then .next s
  else
    let (pay, rest) := packFlit 244 x.queue
    let f : Flit := { fseq := x.next, pay := pay }
    let s := s.modDir m d fun x => { x with next := (x.next + 1) % 4096, buf := x.buf ++ [f], queue := rest }
    let s := s.sendFlit m d f
    .next (if rest.isEmpty then s else s.post 0 .flitTransmit { n := m, flag := d })

/-- A record that waits for host queue `q` (18 R381, R382): kind, status, and the words m0 (below bit 48) to m2. -/
def State.record (s : State) (q kind stat low : Nat) (m1 m2 : W64) : State :=
  let m0 := BitVec.ofNat 64 (kind * 2 ^ 56 + stat * 2 ^ 48 + low)
  s.post 0 .hostQueueWrite { n := q, flag := true, msg := { chan := 15, plen := 4, m := [m0, m1, m2, 0] } }
/-- A link-event record (18 R385). -/
def State.linkEvent (s : State) (m stat : Nat) : State := s.record 0 7 stat 0 0 (BitVec.ofNat 64 m)
/-- What is on its way over a module is lost: flits, NAKs and acknowledgements (R368). -/
def State.loseFlits (s : State) (m : Nat) : State :=
  { s with agenda := s.agenda.filter fun e => !((e.ev.ev == Instr.flitReceive || e.ev.ev == Instr.nakResend || e.ev.ev == Instr.idleFlit) && e.ev.arg.n == m) }
/-- A retrain starts (R368): the module stops, what is on its way is lost, and it ends 1,700 cycles later. -/
def State.startRetrain (s : State) (m : Nat) (wide : Bool) : State :=
  let u := s.module m
  let s := s.setModule m { u with busy := true, fwd := { u.fwd with again := false }, rev := { u.rev with again := false } }
  (s.loseFlits m).post 1700 .retrainComplete { n := m, flag := wide }
/-- LINK_FALLBACK (R368): reaching the threshold retrains at ×32, or reports when the host retrains. -/
def State.linkFallback (s : State) (m : Nat) (d : Bool) : State :=
  let x := (s.module m).dir d
  if s.regs.ethr = 0 ∨ x.errc ≠ s.regs.ethr ∨ (s.module m).busy then s
  else if s.regs.hwrt then s.startRetrain m false
  else s.linkEvent m 1

/-- What each payload chunk of an accepted flit completes: packets whose last byte has arrived go on. -/
def State.acceptChunks (s : State) (pay : List Chunk) : State :=
  pay.foldl (fun s c =>
    if c.last then
      match s.wires.find? fun w => w.id == c.id with
      | some w => ({ s with wires := s.wires.filter fun v => v.id != c.id }).forwardWire { w with route := w.route.drop 1 }
      | none => s
    else s) s

/-- FLIT_RECEIVE (R367): the receiver of a direction checks a flit and accepts, discards or NAKs it, once until a good flit with the number
expected. While the module retrains nothing is received (R368). -/
def execFlitReceive (s : State) : Out :=
  let m := s.arg.n; let d := s.arg.flag; let f := s.arg.flit
  let x := (s.module m).dir d
  if (s.module m).busy || (s.module m).lanes = 2 then .next s
  else if flitFails f then
    let s := s.modDir m d fun y => { y with errc := min (y.errc + 1) 255, nak := true, rply := if y.nak then y.rply else y.rply + 1 }
    let s := if x.errc = 0 then s.post (2 ^ s.regs.ewin - s.cycle % 2 ^ s.regs.ewin) .errorWindowEnd { n := m, flag := d } else s
    let s := if x.nak then s else s.sendFlit m (!d) { kind := .nak }
    .next (if x.errc < 255 then s.linkFallback m d else s)
  else
    let s := match f.ack with | some k => s.takeAck m (!d) k | none => s
    match f.kind with
    | .nak => .next ((s.modDir m (!d) fun y => { y with again := true }).post 0 .nakResend { n := m, flag := !d, k := f.ack.getD 4095 })
    | .idle | .retrain => .next s
    | .data =>
      if f.fseq = x.exp then
        let s := s.modDir m d fun y => { y with exp := (y.exp + 1) % 4096, nak := false }
        let s := s.acceptChunks f.pay
        .next (s.post 0 .idleFlit { n := m, flag := !d })
      else .next s

/-- NAK_RESEND (R367): every buffered flit after the acknowledged one is sent again, in order, before any new flit. -/
def execNakResend (s : State) : Out :=
  let m := s.arg.n; let d := s.arg.flag
  if (s.module m).busy then .next s
  else
    let l := afterAck s.arg.k ((s.module m).dir d).buf
    .next ((l.foldl (fun (t : State) f => t.sendFlit m d f) (s.modDir m d fun y => { y with again := false })).post 0 .flitTransmit { n := m, flag := d })

/-- IDLE_FLIT (R367): an acknowledgement returns in an idle flit. -/
def execIdleFlit (s : State) : Out :=
  .next (if (s.module s.arg.n).busy || (s.module s.arg.n).lanes = 2 then s else s.sendFlit s.arg.n s.arg.flag { kind := .idle })

/-- ERROR_WINDOW_END (R368): `errc` returns to 0. -/
def execErrorWindowEnd (s : State) : Out :=
  .next (s.modDir s.arg.n s.arg.flag fun x => { x with errc := 0 })

/-- The group of a UCIe module: its first module and its size (18 R364). -/
def groupOfModule (m : Nat) : Nat × Nat :=
  let b := m / 48
  if b < 2 then (48 * b + m % 48 / 6 * 6, 6) else (48 * b + m % 48 / 3 * 3, 3)
/-- The packets that a direction of a module still has to deliver: the flits that its receiver has not accepted, and what waits. -/
def UcieDir.undelivered (x : UcieDir) : List Chunk := ((x.buf.dropWhile fun f => f.fseq != x.exp).map (·.pay)).flatten ++ x.queue
/-- MODULE_DISABLE (R369): a module that will not train is disabled; its streams, replay buffers included, move to the
next module of its group, which sends them first, and every packet that would cross it later crosses there; with every module of the group
failed the part stops. Its counts of NAKs and failures stand (R370). -/
def State.disableModule (s : State) (m : Nat) : State :=
  let (base, g) := groupOfModule m
  let u := s.module m
  let next := ((List.range g).map fun i => base + (m - base + 1 + i) % g).find? fun k => k != m && (s.module k).lanes != 2
  let move (s : State) (k : Nat) (d : Bool) : State :=
    let moved := (u.dir d).undelivered
    let s := s.modDir k d fun y => { y with queue := moved ++ y.queue }
    let s := { s with wires := s.wires.map fun w => { w with route := w.route.map fun c => if c = (m, d) then (k, d) else c } }
    if moved.isEmpty then s else s.post 0 .flitTransmit { n := k, flag := d }
  let s := (s.loseFlits m).setModule m { lanes := 2, fwd := { rply := u.fwd.rply, errc := u.fwd.errc }, rev := { rply := u.rev.rply, errc := u.rev.errc } }
  match next with
  | some k => (move (move s k true) k false).linkEvent m 2
  | none => { s.linkEvent m 2 with halted := true }

/-- RETRAIN_COMPLETE (R368): the transmitters resend every buffered flit after the last acknowledgement; a module that
fails at ×64 falls back to ×32, and one that fails at ×32 is disabled (R369, R370). `flag` says ×64 was tried. -/
def execRetrainComplete (s : State) : Out :=
  let m := s.arg.n
  let s := s.freshVal
  if Config.trains s.free then
    let s := s.setModule m { s.module m with busy := false, lanes := if s.arg.flag then 0 else 1 }
    let again (s : State) (d : Bool) : State :=
      let x := (s.module m).dir d
      let l := match x.acked with | some k => afterAck k x.buf | none => x.buf
      let s := l.foldl (fun (t : State) f => t.sendFlit m d f) s
      s.post 0 .flitTransmit { n := m, flag := d }
    .next (again (again s true) false)
  else if s.arg.flag then .next (s.startRetrain m false)
  else .next (s.disableModule m)

/-- D2D_RETRAIN (R370): `d2dctl` written with `go` retrains module `sel` at ×64. -/
def execD2dRetrain (s : State) : Out :=
  let v := s.arg.v.toNat
  let sel := v % 256
  let s := { s with regs := { s.regs with sel := sel } }
  .next (if bit v 63 && sel < 192 && !(s.module sel).busy then s.startRetrain sel true else s)

/-- What `d2dstat` reads of a module (R370): the NAKs that its two receivers have sent, its width, and their failures in the current window.
The register has one count where each receiver keeps one: their sum (DESIGN CHOICE, log 108). -/
def Ucie.stat (u : Ucie) : Nat :=
  (u.fwd.rply + u.rev.rply) % 2 ^ 32 * 2 ^ 32 + u.lanes * 2 ^ 8 + min (u.fwd.errc + u.rev.errc) 255

end Sys2Proof.Machine
end

