-- ==== Sys2Proof/Machine/Translate.lean ====
section
/-! DEFINITION. Regions, extents and frames: the lookup of 04 R100 with the admission of 03 R67 and R88 and the
dead-plane check of 03 R86, and Astrolabe's side: frames, backing, and the extent it installs (04 R96 to R102). -/

namespace Sys2Proof.Machine

-- Lookup -----------------------------------------------------------------------------------------------------------

/-- What an access does to global memory (03 R67, R88). `fetch acq` says whether it is a `tfetch.acq`. -/
inductive Access | fetch (acq : Bool) | gather | write | atomic | contrib | declare
  deriving DecidableEq, Repr

/-- Whether an access is admitted (03 R67, R88). -/
def admitted (acc : Access) (e : Ext) : Bool :=
  (match acc with | .atomic | .contrib | .declare => e.kind != .host | _ => true) &&
  (match acc, e.share with
    | .write, .user | .gather, .user | .fetch false, .user | .declare, .user | .declare, .priv => false
    | _, _ => true)

/-- Whether an entry covers a page (04 R95). -/
def Ext.covers (e : Ext) (vp : Nat) : Bool := e.npg != 0 && e.vpage ≤ vp && vp < e.vpage + e.npg
/-- The translation of an address by an entry that covers it (04 R95). -/
def Ext.pa (e : Ext) (va : Nat) : Nat := (e.ppage + (va / 2 ^ 16 - e.vpage)) * 2 ^ 16 + va % 2 ^ 16
/-- The index of the entry that hits: a valid one, or a locked one that `xunmap` has released (04 R100). -/
def hitIdx (a : Actor) (va : Nat) : Option Nat :=
  match findIdx (fun e => e.valid && e.covers (va / 2 ^ 16)) a.exts with
  | some i => some i
  | none => findIdx (fun e => e.locked && e.covers (va / 2 ^ 16)) a.exts

/-- The dead-plane check of a buoy access (03 R86): the physical address to use, or the kill. -/
def buoyCheck (s : State) (e : Ext) (pa : Nat) : Res Nat :=
  if e.kind != .buoy then .ok pa
  else if !e.mirror then do check (s.regs.dsw == 0) rBuoyLost; return pa
  else do
    let pair := (List.range 8).any fun p => s.planeDead p && s.planeDead (p + 8)
    check (!pair) rBuoyLost
    return if s.planeDead (buoyPlane (pa - 0x400000000000)) then mirrorPa pa else pa

/-- The outcome of one lookup. -/
inductive Look | hit (pa idx : Nat) | absent | waiting | miss
  deriving DecidableEq, Repr

/-- The lookup of one address (04 R100). -/
def look (s : State) (a : Actor) (acc : Access) (va : Nat) : Res Look := do
  check (va / 2 ^ 56 == 0) rExtent
  match hitIdx a va with
  | some i =>
    let e := a.exts.getD i {}
    check e.valid rLockedMiss
    check (admitted acc e) rExtent
    return .hit (← buoyCheck s e (e.pa va)) i
  | none =>
    match a.walks.find? fun w => w.1 == va / 2 ^ 16 with
    | some (_, true) => return .absent
    | some (_, false) => return .waiting
    | none => return .miss

/-- The lookups of a footprint, in order. A piece that kills does so before any walk of an earlier piece is asked: R100 gives no order
between the pieces (DESIGN CHOICE, log 101). -/
def lookAll (s : State) (a : Actor) (acc : Access) : List Nat → Res (List Look)
  | [] => .ok []
  | va :: r => do
    let l ← look s a acc va
    let ls ← lookAll s a acc r
    return l :: ls

/-- A walk request for a page leaves for Astrolabe (04 R100). -/
def State.askWalk (s : State) (n : ActorName) (va : Nat) : State :=
  if (s.actor n).walks.any fun w => w.1 == va / 2 ^ 16 then s
  else (s.modActor n fun a => { a with walks := a.walks ++ [(va / 2 ^ 16, false)] }).post 0 .walkRequest { actor := n, n := va }

/-- Entries hit are the most recently used (04 R102). -/
def Actor.touch (a : Actor) (t : Nat) (ls : List Look) : Actor :=
  ls.foldl (fun b l => match l with
    | .hit _ i => { b with exts := modAt b.exts i fun e => { e with used := t } }
    | _ => b) a

/-- The issuing actor's footprint resolved: physical addresses, `none` where the answer is ABSENT. Pages without an answer
are asked for and the instruction stalls (04 R100, R103). A shadow run resolves nothing (21 R396). -/
def resolveVas (s : State) (acc : Access) (vas : List Nat) : Res (State × List (Option Nat)) :=
  if s.cur.shadow.isSome then .ok (s, vas.map fun _ => some 0)
  else do
    let ls ← lookAll s s.cur acc vas
    let missing := (vas.zip ls).filter fun e => e.2 == Look.miss
    if !missing.isEmpty then Stall (missing.foldl (fun t e => t.askWalk s.focus e.1) s)
    else if ls.any (· == Look.waiting) then Stall s
    else return (s.setCur (s.cur.touch s.tick ls), ls.map fun l => match l with | .hit pa _ => some pa | _ => none)

-- Regions ----------------------------------------------------------------------------------------------------------

/-- The region of an image that holds an address, with its index. -/
def regionAt (im : Image) (va : Nat) : Option (Nat × RegionRec) :=
  match findIdx (fun r => r.vbase ≤ va && va < r.vbase + r.size) im.regions with
  | some i => some (i, im.regions.getD i {})
  | none => none
/-- Whose backing serves a region of an actor: its own, or the commons region's, which stands under its number (03 R67, 04 R98). Its own is
keyed by its whole name: a restarted actor is another generation, and does not find a private mirrored allocation of an earlier one, which
lasts (03 R84; DESIGN CHOICE, log 103). -/
def backOwner (a : Actor) (r : RegionRec) : ActorName := if r.share == .priv then a.name else BitVec.ofNat 64 r.sym
/-- Whether a run of pages covers a page. -/
def Backing.covers (b : Backing) (vp : Nat) : Bool := b.vpage ≤ vp && vp < b.vpage + b.npg
/-- The backing of a page of an actor's region. -/
def State.backing (s : State) (a : Actor) (r : RegionRec) (vp : Nat) : Option Backing :=
  s.backs.find? fun b => b.job == jobOf a.name && b.owner == backOwner a r && b.covers vp

-- Frames -----------------------------------------------------------------------------------------------------------
-- Pages of 64 KiB. The portal window lies in pages 0 to 3 of device DRAM (18 R378; the place is the model's, log 8); frames
-- are handed out from page 16 up, lowest first (log 8).

/-- Where X0 keeps the portal window. -/
def portalBase : Nat := 0
/-- First page of the last 512 MiB of device DRAM, where the continuation records and context blocks of 65,536 actors stand, 8 KiB for
each (14 R310, R312; the place is the model's, log 8). -/
def contextPage : Nat := 0x00BFE000
/-- First page and end of a tier's frames: CXL frames in the ranges that boot's decoders cover (R79), buoy frames in whole granules (R81).
Host memory is the host's to give (R97). -/
def State.frameRange (s : State) : RegKind → Nat × Nat
  | .dram => (16, contextPage)
  | .cxl => (0x10000000, 0x10000000 + total (s.decoders.map (·.2)) / 2 ^ 16)
  | .host => (0x20000000, 0x20000000)
  | .buoy => (0x40000000, 0x80000000)
/-- Pages of a page size code (02 R51). -/
def pagesOf (page : Nat) : Nat := if page = 0 then 1 else if page = 1 then 32 else 16384
/-- The whole granules that a run of buoy pages touches, as a run (R81). -/
def granuleRun (p n : Nat) : Nat × Nat := (p / 16 * 16, (ceilDiv (p + n) 16 - p / 16) * 16)
/-- The mirror of a run of whole granules (R82, 04 R100). -/
def mirrorRun (u : Nat × Nat) : Nat × Nat := (mirrorPa (u.1 * 2 ^ 16) / 2 ^ 16 / 16 * 16, u.2)
/-- The frames that a backing takes: its pages, whole granules of buoy memory, and the page that it is moving to. -/
def Backing.frames (b : Backing) : List (Nat × Nat) :=
  (if b.kind == .buoy then granuleRun b.ppage b.npg :: (if b.mirror then [mirrorRun (granuleRun b.ppage b.npg)] else []) else [(b.ppage, b.npg)]) ++
  (if b.moving && b.dest != 0 then [(b.dest, b.npg)] else [])
/-- Page runs in use: those of backings, and stored files. -/
def State.usedRuns (s : State) : List (Nat × Nat) :=
  (s.backs.map Backing.frames).flatten ++ s.files.map fun f => (f.base / 2 ^ 16, ceilDiv f.size (2 ^ 16))
/-- Whether a run is free of every run in use. -/
def runFree (used : List (Nat × Nat)) (p n : Nat) : Bool := used.all fun u => p + n ≤ u.1 || u.1 + u.2 ≤ p
/-- Whether a run of a tier is free, and its mirror if it has one; the primary of a mirrored run lies in the lower half of the granules. -/
def State.runServes (s : State) (k : RegKind) (p n : Nat) (mirror : Bool) : Bool :=
  let used := s.usedRuns
  let u := if k == .buoy then granuleRun p n else (p, n)
  (s.frameRange k).1 ≤ u.1 && u.1 + u.2 ≤ (s.frameRange k).2 && runFree used u.1 u.2 &&
    (!mirror || (u.1 + u.2 ≤ 0x60000000 && runFree used (mirrorRun u).1 u.2))
/-- The lowest free run of `n` pages whose first page is `ph` beyond a multiple of `al`. -/
def State.findRun (s : State) (k : RegKind) (n al ph : Nat) (mirror : Bool) : Option Nat :=
  let cands := ((s.frameRange k).1 :: s.usedRuns.map fun u => u.1 + u.2).filterMap fun c =>
    let p := ceilDiv (c - ph) al * al + ph
    if s.runServes k p n mirror then some p else none
  minBy id cands
/-- Granules that a run of buoy pages takes. -/
def granules (p npg : Nat) : Nat := (granuleRun p npg).2 / 16

/-- Whether the job's buoy quota and the part's free granules admit `g` more granules (03 R83). -/
def State.quotaOk (s : State) (j g : Nat) : Bool :=
  match s.job j with | some x => x.buoy + g ≤ x.buoyQ | none => false
/-- The quota charged or returned. -/
def State.charge (s : State) (j : Nat) (f : Nat → Nat) : State := s.modJob j fun x => { x with buoy := f x.buoy }
/-- Granules that an allocation of `g` MiB costs (03 R82). -/
def quotaCost (g : Nat) (mirror : Bool) : Nat := if mirror then 2 * g else g

/-- A run of a region backed at page `p` and zeroed (04 R96, R97). -/
def State.backRun (s : State) (a : Actor) (r : RegionRec) (vp n p : Nat) : State :=
  let s := s.zero (p * 2 ^ 16) (n * 2 ^ 16)
  let b : Backing := { job := jobOf a.name, owner := backOwner a r, vpage := vp, npg := n, ppage := p, kind := r.kind, mirror := r.mirror, locked := r.locked || r.share != .priv }
  let s : State := { s with gpois := delRange s.gpois (p * 2 ^ 10) (n * 2 ^ 10), backs := s.backs ++ [b] }
  if r.kind == .buoy then s.charge (jobOf a.name) (· + quotaCost (granules p n) r.mirror) else s
/-- The unit in which a region is backed: its page, for buoy memory at least a granule (R81). -/
def RegionRec.unit (r : RegionRec) : Nat := if r.kind == .buoy then max 16 (pagesOf r.page) else pagesOf r.page
/-- Exactly `n` pages of a region from `vp` backed at the lowest free run that lies as `vp` does to the units of the region from `from_`;
`none` when no frame, or no quota, serves it. -/
def State.backAs (s : State) (a : Actor) (r : RegionRec) (from_ vp n : Nat) : Option State :=
  let ph := (vp - from_) % r.unit
  match s.findRun r.kind n r.unit ph r.mirror with
  | none => none
  | some p => if r.kind == .buoy && !s.quotaOk (jobOf a.name) (quotaCost (granules p n) r.mirror) then none else some (s.backRun a r vp n p)
/-- The pages of a unit that a first touch of page `vp` backs (R97): those of the unit, counted from the region's base, that the region
holds and that nothing backs yet, around `vp`: first page and length. -/
def State.touched (s : State) (a : Actor) (r : RegionRec) (vp : Nat) : Nat × Nat :=
  let base := r.vbase / 2 ^ 16
  let lo := base + (vp - base) / r.unit * r.unit
  let hi := min (lo + r.unit) ((r.vbase + r.size) / 2 ^ 16)
  let bare (i : Nat) : Bool := (s.backing a r i).isNone
  let up := ((List.range (hi - vp)).map (vp + ·)).takeWhile bare
  let down := ((List.range (vp - lo)).map fun i => vp - 1 - i).takeWhile bare
  (vp - down.length, down.length + up.length)
/-- A first touch of a page (R97); `none` when no frame, or no quota, serves it. -/
def State.back (s : State) (a : Actor) (r : RegionRec) (vp : Nat) : Option State :=
  let u := s.touched a r vp
  s.backAs a r (r.vbase / 2 ^ 16) u.1 u.2
/-- Whether a first touch fails for its quota alone (09 R225). -/
def State.quotaFails (s : State) (a : Actor) (r : RegionRec) (vp : Nat) : Bool :=
  r.kind == .buoy && !s.quotaOk (jobOf a.name) (quotaCost (granules (((s.touched a r vp).1 - r.vbase / 2 ^ 16) % r.unit) (s.touched a r vp).2) r.mirror)

/-- Backing of some runs returned; buoy granules go back to the quota, and a primary that served alone does so no more (R82). A page's
access counter and queued bit stay, and the next page on that frame takes them (DESIGN CHOICE, log 102). -/
def State.unback (s : State) (p : Backing → Bool) : State :=
  let gone := s.backs.filter p
  let s := { s with backs := s.backs.filter (fun b => !p b), lone := s.lone.filter fun k => !(gone.any fun b => b.ppage ≤ k && k < b.ppage + b.npg) }
  gone.foldl (fun s b => if b.kind == .buoy then s.charge b.job (· - quotaCost (granules b.ppage b.npg) b.mirror) else s) s

-- Extents that Astrolabe installs (04 R96, R102) -------------------------------------------------------------------

/-- The largest run around a page that is contiguous in virtual and physical space within one region (04 R102): the run
grown by its neighbours, `fuel` times. -/
def growRun (bs : List Backing) : Nat → Nat × Nat × Nat → Nat × Nat × Nat
  | 0, r => r
  | f + 1, (v, n, p) =>
    match bs.find? fun b => b.vpage + b.npg == v && b.ppage + b.npg == p && !b.moving with
    | some b => growRun bs f (b.vpage, n + b.npg, b.ppage)
    | none =>
      match bs.find? fun b => b.vpage == v + n && b.ppage == p + n && !b.moving with
      | some b => growRun bs f (v, n + b.npg, p)
      | none => (v, n, p)
/-- The extent that covers a backed page: first page, length, first physical page. -/
def State.extentFor (s : State) (a : Actor) (r : RegionRec) (b : Backing) : Nat × Nat × Nat :=
  let inRegion (c : Backing) := r.vbase / 2 ^ 16 ≤ c.vpage && c.vpage + c.npg ≤ (r.vbase + r.size) / 2 ^ 16
  let bs := s.backs.filter fun c => c.job == jobOf a.name && c.owner == backOwner a r && inRegion c
  growRun bs bs.length (b.vpage, b.npg, b.ppage)
/-- A run cut back to what a pinned entry leaves of it around page `vp`, so that no two valid entries overlap (04 R95). -/
def clipAt (vp : Nat) (u : Nat × Nat × Nat) (e : Ext) : Nat × Nat × Nat :=
  if e.vpage + e.npg ≤ vp then
    let lo := max u.1 (e.vpage + e.npg)
    (lo, u.1 + u.2.1 - lo, u.2.2 + (lo - u.1))
  else if vp < e.vpage then (u.1, min u.2.1 (e.vpage - u.1), u.2.2)
  else u
/-- The extent for a page, clear of the actor's pinned entries. -/
def State.walkExt (s : State) (a : Actor) (r : RegionRec) (b : Backing) (vp : Nat) : Nat × Nat × Nat :=
  (a.exts.filter fun (e : Ext) => e.valid && e.pin).foldl (clipAt vp) (s.extentFor a r b)
/-- The share that an actor's entries of a region carry (04 R98). -/
def State.shareOf (s : State) (a : Actor) (r : RegionRec) : Share :=
  if r.share == .priv then .priv
  else match s.job (jobOf a.name) with
    | some j => if j.owners.any fun o => o.1 == r.sym && o.2 == serialOf a.name then .owner else .user
    | none => .user
/-- An entry of its fields (04 R94). -/
def State.mkExt (s : State) (a : Actor) (ri : Nat) (r : RegionRec) (v n p : Nat) (locked pin : Bool) : Ext :=
  { vpage := v, npg := n, ppage := p, rgn := ri, mirror := r.mirror, page := r.page, share := s.shareOf a r, kind := r.kind,
    pin := pin, locked := locked, valid := true, used := s.tick }
/-- The slot for a new dynamic entry: one with `valid` 0, else the least recently hit without `pin` (04 R102). -/
def Actor.dynSlot (a : Actor) : Option Nat :=
  let dyn := (List.range 16).map (· + 16)
  match dyn.find? fun i => !(a.exts.getD i {}).valid with
  | some i => some i
  | none => minBy (fun i => (a.exts.getD i {}).used) (dyn.filter fun i => !(a.exts.getD i {}).pin)
/-- A dynamic entry installed; entries that it would overlap make way. -/
def Actor.install (a : Actor) (e : Ext) : Actor :=
  let a := { a with exts := a.exts.map fun (x : Ext) =>
    if x.valid && !x.locked && !x.pin && x.vpage < e.vpage + e.npg && e.vpage < x.vpage + x.npg then { x with valid := false } else x }
  match a.dynSlot with
  | some i => { a with exts := a.exts.set i e }
  | none => a

end Sys2Proof.Machine
end

