-- ==== Sys2Proof/Machine/Transfer.lean ====
section
/-! DEFINITION. Transfers of the copy engine (05 R120 to R122, R134; 09 R200 to R208): their pieces and packets, barriers,
the side log (04 R104 to R107), and the events RDR, WACK, TRANSFER_COMPLETE, OUTBOUND_READ_DONE and SIDE_LOG_REPLAY. -/

namespace Sys2Proof.Machine

-- Patterns and pieces (05 R121, R122; 03 R75) ----------------------------------------------------------------------

/-- The global side of a transfer (05 R121). -/
structure Pattern where
  g  : Nat
  n0 : Nat
  n1 : Nat := 1
  n2 : Nat := 1
  n3 : Nat := 1
  s1 : Int := 0
  s2 : Int := 0
  s3 : Int := 0
  deriving DecidableEq, Repr

/-- Bytes of a pattern. -/
def Pattern.total (p : Pattern) : Nat := p.n0 * p.n1 * p.n2 * p.n3
/-- An address a signed distance away, modulo 2^64. -/
def addrAt (g : Nat) (d : Int) : Nat := (((g : Int) + d) % 2 ^ 64).toNat
/-- The first addresses of a pattern's runs, in pattern order. -/
def Pattern.runs (p : Pattern) : List Nat :=
  ((List.range p.n3).map fun (i3 : Nat) => ((List.range p.n2).map fun (i2 : Nat) => (List.range p.n1).map fun (i1 : Nat) =>
    addrAt p.g (i1 * p.s1 + i2 * p.s2 + i3 * p.s3)).flatten).flatten
/-- A run split at 4 KiB boundaries; `off` is its offset in the scratchpad side. -/
def splitRun (va off len : Nat) : List Piece :=
  (List.range (ceilDiv (va % 4096 + len) 4096)).map fun i =>
    let lo := if i = 0 then va else (va / 4096 + i) * 4096
    let hi := min (va + len) ((va / 4096 + i + 1) * 4096)
    { va := lo, off := off + (lo - va), len := hi - lo }
/-- The pieces of a pattern. -/
def Pattern.split (p : Pattern) : List Piece := (p.runs.mapIdx fun i va => splitRun va (i * p.n0) p.n0).flatten

-- Barriers (05 R123) -----------------------------------------------------------------------------------------------

/-- A barrier's count changed; a count left at exactly 0 flips the phase. -/
def Barrier.add (b : Barrier) (v : W64) : Barrier :=
  { b with count := b.count + v, phase := if b.count + v = 0 then !b.phase else b.phase }
/-- A credit. -/
def Barrier.credit (b : Barrier) (n : Nat) : Barrier := { b.add (-BitVec.ofNat 64 n) with infl := b.infl - 1 }
/-- The barriers that a transfer names, credited. -/
def Actor.credits (a : Actor) (bars : List Nat) (n : Nat) : Actor :=
  bars.foldl (fun b k => { b with bars := modAt b.bars k fun x => x.credit n }) a
/-- The barriers that a transfer names, with one more transfer in flight. -/
def Actor.inflight (a : Actor) (bars : List Nat) : Actor :=
  bars.foldl (fun b k => { b with bars := modAt b.bars k fun x => { x with infl := x.infl + 1 } }) a
/-- The barrier of a `bar` field. -/
def barOf (b : Fin 9) : List Nat := if b = 0 then [] else [b.val - 1]

-- Transfers of a cell ----------------------------------------------------------------------------------------------

/-- A transfer of a cell. -/
def State.xfer (s : State) (c id : Nat) : Option Xfer := (s.cell c).xfers.find? fun x => x.id == id
/-- A transfer added. -/
def State.addXfer (s : State) (c : Nat) (x : Xfer) : State := s.modCell c fun e => { e with xfers := e.xfers ++ [x] }
/-- A transfer changed. -/
def State.modXfer (s : State) (c id : Nat) (f : Xfer → Xfer) : State :=
  s.modCell c fun e => { e with xfers := e.xfers.map fun x => if x.id == id then f x else x }
/-- A transfer that is over. -/
def State.delXfer (s : State) (c id : Nat) : State :=
  s.modCell c fun e => { e with xfers := e.xfers.filter fun x => x.id != id }
/-- The transfers that count against the 32 of R120 (a contribution is none of its kinds). -/
def Cell.outstanding (e : Cell) : Nat := (e.xfers.filter fun x => x.kind != .contrib).length
/-- An instruction that would start a 33rd transfer stalls (05 R120). -/
def needXfer (s : State) : Res Unit := if (s.cell (runCell s.cur)).outstanding < 32 then .ok () else Stall s
/-- A global access waits for an earlier `.acq` access of the context (09 R207, R215). -/
def needGlobal (s : State) : Res Unit := if s.cur.acqHold then Stall s else .ok ()
/-- Whether an actor still issues. -/
def State.alive (s : State) (n : ActorName) : Bool := s.has n && (s.actor n).st != .dying
/-- The page of an address: of its region's page size, named by its first 64 KiB (02 R51). -/
def pageOf (im : Image) (va : Nat) : Nat :=
  match regionAt im va with
  | some (_, r) => va / 2 ^ 16 / pagesOf r.page * pagesOf r.page
  | none => va / 2 ^ 16
/-- Which homes an access to some addresses touches: package memory, buoy planes (09 R213). -/
def homesTouched (s : State) (a : Actor) (vas : List Nat) : Bool × Bool :=
  let ks := vas.map fun va => ((regionAt (s.image a) va).map (·.2.kind)).getD .dram
  (ks.any (· != .buoy), ks.any (· == .buoy))

-- Packets of a piece -----------------------------------------------------------------------------------------------

/-- The RD packet of a piece: the granules that hold its bytes. -/
def readPkt (c : Nat) (n : ActorName) (id : Nat) (p : Piece) (pa : Nat) : Packet :=
  { kind := .rd, home := (homeOf pa).getD .hostPort, rq := c, pa := pa / 64 * 64, len := ceilDiv (pa % 64 + p.len) 64,
    owner := n, xid := id, piece := p.off }
/-- A WRM packet of bytes inside one granule. -/
def maskPkt (c : Nat) (n : ActorName) (id pa : Nat) (bs : List Byte) : Packet :=
  { kind := .wrm, home := (homeOf pa).getD .hostPort, rq := c, pa := pa / 64 * 64, len := 1,
    data := List.replicate (pa % 64) 0 ++ bs ++ List.replicate (64 - pa % 64 - bs.length) 0,
    mask := (2 ^ bs.length - 1) * 2 ^ (pa % 64), owner := n, xid := id }
/-- The packets of a piece written: partial granules at its ends as WRM, whole granules as one WR (03 R74, R77). -/
def writePkts (c : Nat) (n : ActorName) (id pa : Nat) (bs : List Byte) : List Packet :=
  let head := if pa % 64 = 0 then 0 else min (64 - pa % 64) bs.length
  let body := (bs.length - head) / 64 * 64
  let tail := bs.length - head - body
  (if head = 0 then [] else [maskPkt c n id pa (bs.take head)]) ++
  (if body = 0 then [] else
    [{ kind := .wr, home := (homeOf pa).getD .hostPort, rq := c, pa := pa + head, len := body / 64,
       data := (bs.drop head).take body, owner := n, xid := id }]) ++
  (if tail = 0 then [] else [maskPkt c n id (pa + head + body) (bs.drop (head + body))])

-- Lookup outside an issue (04 R103, R107) --------------------------------------------------------------------------

/-- The outcome of a lookup by the copy engine. -/
inductive Found | hit (pa : Nat) | hold | dead (r : Reason)
/-- The lookup of one address for an actor's earlier instruction. -/
def State.lookFor (s : State) (n : ActorName) (acc : Access) (va : Nat) : Found × State :=
  match look s (s.actor n) acc va with
  | .ok (.hit pa i) => (.hit pa, s.modActor n fun a => { a with exts := modAt a.exts i fun e => { e with used := s.tick } })
  | .ok .miss => (.hold, s.askWalk n va)
  | .ok .absent | .ok .waiting => (.hold, s)
  | .error (.kill r) => (.dead r, s)
  | .error (.stall t) => (.hold, t)

-- Completion -------------------------------------------------------------------------------------------------------

/-- The bytes that a fetch of an audited invocation delivered enter the log (21 R394). -/
def State.logFetched (s : State) (x : Xfer) : State :=
  if !s.audits.isEmpty && (x.kind == .fetch || x.kind == .gather) then
    let bs := s.bytes (regionKey (s.actor x.actor) + x.soff) x.bytes
    { s with audits := s.audits.map fun e => (e.1, { e.2 with log := e.2.log.map (LogEnt.fillBytes x.id bs) }) }
  else s
/-- A transfer's last byte is written: the destination is READY, its barriers are credited (05 R118, R123). -/
def State.landed (s : State) (x : Xfer) : State :=
  (s.logFetched x).modActor x.actor fun a =>
    let a : Actor := match x.dst with
      | some h => if (tileAt a h).state == .filling then a.tileState h .ready else a
      | none => a
    (a.credits x.bars x.bytes).dropOut x.id
/-- A transfer whose last packet has been answered is complete. -/
def State.maybeDone (s : State) (c id : Nat) : State :=
  match s.xfer c id with
  | some x =>
    if x.left = 0 && x.held.isEmpty && x.todo.isEmpty && (x.pieces.isEmpty || (x.kind != .write && x.kind != .scatter)) then
      s.post 0 .transferComplete { n := c, m := id }
    else s
  | none => s
/-- An outbound transfer has read its source's last byte (05 R118). -/
def State.sourceRead (s : State) (n : ActorName) (h : Option Nat) : State :=
  match h with | some k => s.modActor n fun a => a.drained k | none => s

-- Pieces -----------------------------------------------------------------------------------------------------------

/-- A fetch piece leaves as an RD packet. -/
def State.fetchPiece (s : State) (c : Nat) (x : Xfer) (p : Piece) (pa : Nat) : State :=
  (s.modXfer c x.id fun y => { y with left := y.left + 1 }).sendPkt (readPkt c x.actor x.id p pa)
/-- Bytes up to the next 128-byte row of scratchpad: what the copy engine reads or writes in one of its slots (05 R113, R114). -/
def rowRoom (k n : Nat) : Nat := min n (128 - k % 128)
/-- The engine has more of a transfer's source to read, or pieces to send. Between its slots, other transfers and the issue core go on
(05 R114, R122; 09 R208). -/
def State.goOn (s : State) (c id : Nat) : State := s.post 0 .outboundReadDone { n := c, m := id }
/-- Pieces of a write that have their addresses join those to be read and sent. -/
def State.addPieces (s : State) (c : Nat) (x : Xfer) (ps : List Piece) : State :=
  let s := s.modXfer c x.id fun y => { y with pieces := y.pieces ++ ps }
  if x.pieces.isEmpty && !ps.isEmpty then s.goOn c x.id else s
/-- Pieces of a fetch that have their addresses join those to be sent. -/
def State.addFetches (s : State) (c : Nat) (x : Xfer) (ps : List Piece) : State :=
  let s := s.modXfer c x.id fun y => { y with todo := y.todo ++ ps }
  if x.todo.isEmpty && !ps.isEmpty then s.goOn c x.id else s

-- The side log (04 R104 to R107) -----------------------------------------------------------------------------------

/-- Whether an entry has issued all its pieces (R106): none waits for its page, and those of a write have been read and sent. -/
def Cell.issued (e : Cell) (n : SideEnt) : Bool :=
  n.pieces.isEmpty && !(e.xfers.any fun x => x.id == n.id && (x.kind == .write || x.kind == .scatter) && !x.pieces.isEmpty)
/-- The pages that an actor's pending entries target (R106): each entry those of its footprint, until it has issued all its pieces. -/
def Cell.pending (e : Cell) (n : ActorName) : List Nat := ((e.side.filter fun x => x.actor == n && !e.issued x).map (·.targets)).flatten
/-- Whether an access of the issuing actor falls behind a pending entry of it (R106). -/
def behind (s : State) (vas : List Nat) : Bool :=
  vas.any fun va => ((s.cell (runCell s.cur)).pending s.focus).contains (pageOf (s.image s.cur) va)
/-- An entry added. -/
def State.sideAdd (s : State) (c : Nat) (e : SideEnt) : State := s.modCell c fun x => { x with side := x.side ++ [e] }
/-- Side-log entries in use, with one kept for each scatter whose index has not been read (R104). -/
def Cell.logged (e : Cell) : Nat := e.side.length + (e.xfers.filter fun x => x.kind == .scatter && x.toRead != 0).length
/-- A full side log stalls (R104). -/
def needSide (s : State) (need : Bool) : Res Unit :=
  if need && 32 ≤ (s.cell (runCell s.cur)).logged then Stall s else .ok ()

/-- The AT packet of an atomic (03 R74). -/
def atomicPkt (c : Nat) (n : ActorName) (id aop : Nat) (v cmp : W64) (pa : Nat) : Packet :=
  { kind := .at_, home := (homeOf pa).getD .hostPort, rq := c, pa := pa, aop := aop, v := v, c := cmp, owner := n, xid := id }
/-- The RC packet of a contribution's piece (09 R219): `data` its elements, `pois` their poisoned granules. -/
def contribPkt (c : Nat) (n : ActorName) (id pa off : Nat) (ctl : RcCtl) (data : List Byte) : Packet :=
  { kind := .rc, home := (homeOf pa).getD .hostPort, rq := c, pa := pa, len := ceilDiv data.length 64 + 1, data := data,
    rc := { ctl with pc := off / 4096 }, owner := n, xid := id, piece := off }
/-- A piece of a contribution is read and leaves as one RC packet (09 R218); its bytes and its address are kept for RETRY. -/
def State.contribPiece (s : State) (c : Nat) (x : Xfer) (p : Piece) (pa : Nat) : State :=
  let k := regionKey (s.actor x.actor) + x.soff + p.off
  if s.spoisoned k p.len then killActor s x.actor rPoison
  else
    let bs := s.bytes k p.len
    let s := s.modXfer c x.id fun y => { y with
      left := y.left + 1, pieces := y.pieces ++ [{ p with pa := some pa }]
      data := y.data.take p.off ++ List.replicate (p.off - y.data.length) 0 ++ bs ++ y.data.drop (p.off + p.len) }
    s.sendPkt (contribPkt c x.actor x.id pa p.off x.rc bs)

/-- What an entry's piece does once its page is mapped: an atomic or a contribution leaves, a piece of a write is read and sent next. -/
def State.replayPiece (s : State) (c : Nat) (e : SideEnt) (p : Piece) (pa : Nat) : State :=
  match e.kind with
  | .at_ => s.sendPkt (atomicPkt c e.actor e.id e.aop e.v e.c pa)
  | .rc => match s.xfer c e.id with | some x => s.contribPiece c x p pa | none => s
  | _ => match s.xfer c e.id with | some x => s.addPieces c x [{ p with pa := some pa }] | none => s
/-- How an entry's access is admitted. -/
def SideEnt.access (e : SideEnt) : Access := match e.kind with | .at_ => .atomic | .rc => .contrib | _ => .write

/-- The pieces of an entry tried in order. The pieces left stay. -/
def State.replayEntry (s : State) (c : Nat) (e : SideEnt) : List Piece → State × List Piece
  | [] => (s, [])
  | p :: r =>
    if !s.alive e.actor then (s, [])
    else match s.lookFor e.actor e.access p.va with
      | (.hit pa, s) => (s.replayPiece c e p pa).replayEntry c e r
      | (.hold, s) => let (t, l) := s.replayEntry c e r; (t, p :: l)
      | (.dead k, s) => (killActor s e.actor k, [])
/-- An entry's pieces after a replay; the source of a contribution whose last piece has left has been read (R105). -/
def State.settle (s : State) (c : Nat) (e : SideEnt) (left : List Piece) : State :=
  let s := s.modCell c fun x => { x with side := x.side.map fun y => if y.id == e.id then { y with pieces := left } else y }
  let s := s.modXfer c e.id fun x => { x with held := left }
  match s.xfer c e.id with
  | some x => if left.isEmpty && !e.pieces.isEmpty && x.kind == .contrib && s.alive x.actor then (s.sourceRead x.actor x.src).maybeDone c e.id else s
  | none => s
/-- An actor's entries replayed in log order (R106, R107); `blocked` are the pages that an earlier entry still targets. -/
def State.replay (s : State) (c : Nat) (n : ActorName) : List SideEnt → List Nat → State
  | [], _ => s
  | e :: r, blocked =>
    if e.actor == n then
      let (t, left) := if e.targets.any blocked.contains then (s, e.pieces) else s.replayEntry c e e.pieces
      let t := if e.targets.any blocked.contains then t else t.settle c e left
      t.replay c n r (if (t.cell c).issued { e with pieces := left } then blocked else blocked ++ e.targets)
    else s.replay c n r blocked
/-- SIDE_LOG_REPLAY (R107): the memory unit of cell `n` issues what it can of an actor's entries. -/
def execSideLogReplay (s : State) : Out := .next (s.replay s.arg.n s.arg.actor (s.cell s.arg.n).side [])
/-- The entry of an operation that has been acknowledged is free (R104). -/
def State.sideFree (s : State) (c id : Nat) : State :=
  s.modCell c fun x => { x with side := x.side.filter fun e => e.id != id }
/-- An entry has issued all its pieces: those behind it may go on (R106). -/
def State.sideNext (s : State) (c : Nat) (n : ActorName) : State :=
  if (s.cell c).side.any fun e => e.actor == n && !e.pieces.isEmpty then s.post 0 .sideLogReplay { n := c, actor := n } else s

/-- Held fetch and gather pieces of one transfer tried again (R103): those that hit, and those that stay held. -/
def State.retryPieces (s : State) (x : Xfer) : List Piece → State × List Piece × List Piece
  | [] => (s, [], [])
  | p :: r =>
    match s.lookFor x.actor (if x.kind == .gather then .gather else .fetch x.acq) p.va with
    | (.hit pa, s) => let (t, h, l) := s.retryPieces x r; (t, { p with pa := some pa } :: h, l)
    | (.hold, s) => let (t, h, l) := s.retryPieces x r; (t, h, p :: l)
    | (.dead k, s) => (killActor s x.actor k, [], [])
/-- Every held piece of an actor tried again, and its side log replayed (R101, R103, R107). -/
def State.resume (s : State) (n : ActorName) : State :=
  let one (s : State) (c : Nat) : State :=
    let s := (s.cell c).xfers.foldl (fun (s : State) x =>
      if x.actor == n && !x.held.isEmpty && (x.kind == .fetch || x.kind == .gather) && s.alive n then
        let (s, hits, left) := s.retryPieces x x.held
        if s.alive n then (s.modXfer c x.id fun y => { y with held := left }).addFetches c x hits else s
      else s) s
    s.sideNext c n
  (s.cells.map (·.1)).foldl one s

-- Gathers and scatters (09 R203) -----------------------------------------------------------------------------------

/-- The pieces of a row of a gather or scatter. -/
def rowPieces (x : Xfer) (rb k : Nat) (ix : Int) : List Piece := splitRun (addrAt x.g (ix * x.stride)) (k * rb) rb
/-- The pieces of a gather or scatter as its index tile gives them, each looked up: those that hit, and those held; a NONE answer
kills (04 R103). -/
def State.indexPieces (s : State) (x : Xfer) (acc : Access) : List Piece → State × List Piece × List Piece
  | [] => (s, [], [])
  | p :: r =>
    match s.lookFor x.actor acc p.va with
    | (.hit pa, s) => let (t, h, l) := s.indexPieces x acc r; (t, { p with pa := some pa } :: h, l)
    | (.hold, s) => let (t, h, l) := s.indexPieces x acc r; (t, h, p :: l)
    | (.dead k, s) => (killActor s x.actor k, [], [])
/-- The copy engine has read the index tile of a gather or scatter: its rows are looked up and issue, and the homes that they touch are
known (09 R203, R213). A poisoned index kills (09 R206); a scatter that touches a page which a pending entry targets is appended whole (04
R106). -/
def State.readIndex (s : State) (c : Nat) (x : Xfer) : State :=
  let a := s.actor x.actor
  let ixs := indexVals (intDesc 4 32 true) [s.readRow (regionKey a + x.doff) x.k 32]
  let rb := x.bytes / x.k
  let good := ixs.takeWhile fun e => !e.2
  let pieces := (good.mapIdx fun k e => rowPieces x rb k e.1).flatten
  let sc := x.kind == .scatter
  let (pkg, pod) := homesTouched s a (pieces.map (·.va))
  let targets := pieces.map fun p => pageOf (s.image a) p.va
  let whole := sc && targets.any ((s.cell c).pending x.actor).contains
  let s := s.modActor x.actor fun b => { b with outs := b.outs.map fun o => if o.id == x.id then { o with pkg := pkg, pod := pod } else o }
  let s := s.modXfer c x.id fun y => { y with toRead := 0, pieces := if sc then [] else pieces }
  let x : Xfer := { x with pieces := [] }
  let (s, hits, held) := if whole then (s, [], pieces) else s.indexPieces x (if sc then .write else .gather) pieces
  let s := if good.length < x.k && s.alive x.actor then killActor s x.actor rPoison else s
  if !s.alive x.actor then s
  else
    let s := (s.modXfer c x.id fun y => { y with held := held }).sourceRead x.actor x.ix
    if sc then
      let s := s.addPieces c x hits
      if held.isEmpty then s
      else (s.sideAdd c { actor := x.actor, inv := x.inv, id := x.id, kind := .wr, pieces := held, targets := targets }).post 0 .sideLogReplay { n := c, actor := x.actor }
    else s.addFetches c x hits

-- Slots of the copy engine (05 R113, R114; 09 R205, R206) -----------------------------------------------------------

/-- One 128-byte unit of a local copy, read before it is written; poison follows by sectors (R205). -/
def State.copyUnit (s : State) (src dst n : Nat) : State :=
  let sects := (List.range (ceilDiv n 32)).map fun i => (s.spoisoned (src + 32 * i) (min 32 (n - 32 * i)), 32 * i, min 32 (n - 32 * i))
  let s := s.put dst (s.bytes src n)
  sects.foldl (fun (t : State) e => t.spoisWrite (dst + e.2.1) e.2.2 e.1) s
/-- A write has sent its last piece: a mark on its source takes effect, unless a piece waits for its page, and what is logged behind it
may go on (04 R105, R106). -/
def State.writeSent (s : State) (c : Nat) (x : Xfer) : State :=
  if x.held.isEmpty then ((s.sourceRead x.actor x.src).maybeDone c x.id).sideNext c x.actor else s
/-- A slot of a write: the next row of its first piece is read; a poisoned sector is not sent and kills (R206). Once its last row is read
the piece leaves. -/
def State.writeSlot (s : State) (c : Nat) (x : Xfer) : State :=
  match x.pieces with
  | [] => s
  | p :: r =>
    let k := regionKey (s.actor x.actor) + x.soff + p.off + x.data.length
    let n := rowRoom k (p.len - x.data.length)
    if s.spoisoned k n then killActor s x.actor rPoison
    else
      let bs := x.data ++ s.bytes k n
      if bs.length < p.len then (s.modXfer c x.id fun y => { y with data := bs }).goOn c x.id
      else
        let ps := match p.pa with | some pa => writePkts c x.actor x.id pa bs | none => []
        let s := ps.foldl State.sendPkt (s.modXfer c x.id fun y => { y with left := y.left + ps.length, pieces := r, data := [] })
        if r.isEmpty then s.writeSent c x else s.goOn c x.id
/-- A slot of a fetch: its next piece leaves. -/
def State.fetchSlot (s : State) (c : Nat) (x : Xfer) : State :=
  match x.todo with
  | [] => s
  | p :: r =>
    let s := s.modXfer c x.id fun y => { y with todo := r }
    let s := match p.pa with | some pa => s.fetchPiece c x p pa | none => s
    if r.isEmpty then s else s.goOn c x.id

/-- OUTBOUND_READ_DONE (05 R118, R131): a slot of the copy engine for a transfer: a fetch's next piece leaves; the next row of the source
of a write, a local copy or a given tile is read (11 R263: a poisoned sector kills before release); a gather or scatter has read its index
tile. A mark on the source takes effect once its last byte is read. DEDUCED (log 105): the engine reads a source in ascending rows. -/
def execOutboundReadDone (s : State) : Out :=
  let c := s.arg.n
  match s.xfer c s.arg.m with
  | none => .next s
  | some x =>
    let key := regionKey (s.actor x.actor) + x.soff
    if !s.alive x.actor then .next s
    else match x.kind with
      | .write => .next (s.writeSlot c x)
      | .fetch => .next (s.fetchSlot c x)
      | .gather => .next (if x.toRead = 0 then s.fetchSlot c x else s.readIndex c x)
      | .scatter => .next (if x.toRead = 0 then s.writeSlot c x else s.readIndex c x)
      | .copy =>
        let n := min 128 (x.bytes - x.left)
        let s := (s.copyUnit (key + x.left) (regionKey (s.actor x.actor) + x.doff + x.left) n).modXfer c x.id fun y => { y with left := x.left + n }
        .next (if x.left + n < x.bytes then s.goOn c x.id else (s.sourceRead x.actor x.src).post 0 .transferComplete { n := c, m := x.id })
      | .give =>
        let k := key + x.data.length
        let n := rowRoom k (x.bytes - x.data.length)
        if s.spoisoned k n then .next (killActor s x.actor rPoison)
        else
          let bs := x.data ++ s.bytes k n
          if bs.length < x.bytes then .next ((s.modXfer c x.id fun y => { y with data := bs }).goOn c x.id)
          else
            let s := s.modXfer c x.id fun y => { y with data := bs, toRead := 0 }
            .next ((s.sourceRead x.actor x.src).modActor x.actor fun a => a.dropOut x.id)
      | .contrib => .next ((s.sourceRead x.actor x.src).maybeDone c x.id)
      | .mcast | .relay => .next s

/-- TRANSFER_COMPLETE (05 R118, R123): the last byte is written, or the last WACK has arrived; its side-log entry is free. -/
def execTransferComplete (s : State) : Out :=
  match s.xfer s.arg.n s.arg.m with
  | none => .next s
  | some x =>
    let s := (s.delXfer s.arg.n x.id).sideFree s.arg.n x.id
    let s := s.landed x
    .next (if x.kind == .fetch then s.sourceRead x.actor x.src else s)

/-- What the bytes of a reply from `at_` up put in place in one slot: the next row of scratchpad, and its poison (09 R206, 07 R167). -/
def State.landRow (s : State) (x : Xfer) (p : Piece) (r : Reply) (at_ : Nat) : State :=
  let k := regionKey (s.actor x.actor) + x.soff + p.off + at_
  let n := rowRoom k (p.len - at_)
  let sh := p.va % 64 + at_
  let s := s.put k ((r.data.drop sh).take n)
  (List.range (ceilDiv (sh % 64 + n) 64)).foldl (fun (t : State) i =>
    let g := sh / 64 + i
    let lo := max (64 * g) sh
    let hi := min (64 * g + 64) (sh + n)
    t.spoisWrite (k + lo - sh) (hi - lo) (r.pois.contains g)) s
/-- RDR (03 R74): the bytes of a piece land in the destination tile row by row (05 R114; `k` of them have); a poisoned granule poisons the
sectors that it writes, a clean write of a whole sector cleans it. Bytes for a dead actor are discarded (05 R134). -/
def execRdr (s : State) : Out :=
  let r := s.arg.rep; let k := s.arg.k
  let s := if k = 0 then s.freeTag r else s
  match s.xfer r.rq r.xid with
  | none => .next s
  | some x =>
    let less (t : State) : State := (t.modXfer r.rq r.xid fun y => { y with left := y.left - 1 }).maybeDone r.rq r.xid
    match x.pieces.find? fun p => p.off == r.piece with
    | some p =>
      if s.alive x.actor then
        let n := rowRoom (regionKey (s.actor x.actor) + x.soff + p.off + k) (p.len - k)
        let s := s.landRow x p r k
        .next (if k + n < p.len then s.post 0 .rdr { rep := r, k := k + n } else less s)
      else .next (less s)
    | none => .next (less s)

/-- The bytes of portal slots that a write of the host port has put in place: a slot whose 128 bytes all have their WACKs is
complete (18 R378, R379). `mask` enables the bytes from `pa`. -/
def State.portalAck (s : State) (pa mask n : Nat) : State :=
  (List.range (ceilDiv n 64)).foldl (fun (t : State) i =>
    let off := pa + 64 * i - portalBase
    let c := off / 2 ^ 16; let slot := off % 2 ^ 16 / 128
    let new := (mask / 2 ^ (64 * i) % 2 ^ 64) * 2 ^ (off % 128)
    let ch := kvGet {} t.chans c
    let have_ := kvGet 0 ch.acks slot ||| new
    if c < 4 then
      if have_ = 2 ^ 128 - 1 then
        ({ t with chans := kvSet t.chans c { ch with acks := kvDel ch.acks slot } } : State).post 0 .portalSlotComplete { n := c, m := slot }
      else { t with chans := kvSet t.chans c { ch with acks := kvSet ch.acks slot have_ } }
    else t) s
/-- WACK (03 R76): a write's packet has passed its home's order point. The host port's own record of a write is in `piece` (its byte
enables) and `len` (its bytes). -/
def execWack (s : State) : Out :=
  let r := s.arg.rep
  let s := s.freeTag r
  if r.rq = 560 then .next (s.portalAck r.pa r.piece r.len)
  else
  let s := s.modXfer r.rq r.xid fun y => { y with left := y.left - 1 }
  .next (s.maybeDone r.rq r.xid)

end Sys2Proof.Machine
end

