-- ==== Sys2Proof/Machine/Units.lean ====
section
/-! DEFINITION. What the two arithmetic units of a cell share: read holds (10 R230), bindings of accumulators and latches
(07 R155), the buffers of the B latch (05 R130), and the completion of a unit's instruction. -/

namespace Sys2Proof.Machine

-- Read holds (R230) ------------------------------------------------------------------------------------------------

/-- Whether a unit still reads one of `n` bytes at region offset `off` for an actor: a byte that it reads until it completes, or one that it
reads through a cycle which is not over (R244). -/
def UnitJob.reads (j : UnitJob) (now : Nat) (a : ActorName) (off n : Nat) : Bool :=
  j.actor == a && n != 0 && ((j.holds.any fun h => h.1 < off + n && off < h.1 + h.2) ||
    j.brief.any fun h => now ≤ h.2.2 && h.1 < off + n && off < h.1 + h.2.1)
/-- An instruction that would write bytes which a unit still reads stalls. -/
def needNoHold (s : State) (off n : Nat) : Res Unit :=
  let e := s.cell (runCell s.cur)
  let held (u : Option UnitJob) := match u with | some j => j.reads s.cycle s.focus off n | none => false
  if held e.munit || held e.vunit then Stall s else .ok ()
/-- The matrix unit must be free (R244). -/
def needM (s : State) : Res Unit := if (s.cell s.cur.cell).munit.isSome then Stall s else .ok ()
/-- The vector unit must be free (R248). -/
def needV (s : State) : Res Unit := if (s.cell s.cur.cell).vunit.isSome then Stall s else .ok ()
/-- Whether a unit still works for an actor (R231). -/
def State.unitsBusy (s : State) (a : Actor) : Bool :=
  let e := s.cell a.cell
  let mine (u : Option UnitJob) := match u with | some j => j.actor == a.name | none => false
  !a.roaming && (mine e.munit || mine e.vunit)

-- The B latch (05 R130) --------------------------------------------------------------------------------------------

/-- The relayed tile leaves the B latch. -/
def Cell.leaveLatch (e : Cell) (n : ActorName) : Cell :=
  if e.lbOwner == n then ({ e with lbOwner := 0, lbSrc := 0, lb := {} } : Cell).promote else e

-- Bindings (07 R155, 10 R231) --------------------------------------------------------------------------------------

/-- Bindings of an invocation released and cleared. -/
def Cell.unbind (e : Cell) (b : ActorName × Nat) : Cell :=
  let mine (x : Option (ActorName × Nat)) : Bool := x == some b
  let e : Cell := { e with accs := e.accs.map fun a => if mine a.bind then {} else a }
  let e : Cell := if mine e.laBind then { e with la := {}, laBind := none } else e
  if mine e.lbBind then ({ e with lb := {}, lbBind := none } : Cell).promote else e
/-- Whether an invocation is over. -/
def State.isOver (s : State) (b : ActorName × Nat) : Bool :=
  !(s.has b.1 && (s.actor b.1).st == .active && (s.actor b.1).invNo == b.2)
/-- The bindings of an invocation that has ended go when its last matrix instruction has completed. -/
def State.unbindIfOver (s : State) (c : Nat) (b : ActorName × Nat) : State :=
  let busy := match (s.cell c).munit with | some j => (j.actor, j.inv) == b | none => false
  if s.isOver b && !busy then s.modCell c fun e => e.unbind b else s

-- Completion -------------------------------------------------------------------------------------------------------

/-- An instruction handed to the matrix unit, which it occupies for `d` cycles. -/
def State.startM (s : State) (d : Nat) (j : UnitJob) : State :=
  let c := s.cur.cell
  (s.modCell c fun e => { e with munit := some { j with actor := s.focus, inv := s.cur.invNo } }).post d .matrixComplete { n := c }
/-- An instruction handed to the vector unit. -/
def State.startV (s : State) (d : Nat) (j : UnitJob) : State :=
  let c := s.cur.cell
  (s.modCell c fun e => { e with vunit := some { j with actor := s.focus, inv := s.cur.invNo } }).post d .vectorComplete { n := c }
/-- A unit's writes land and its destinations are READY (05 R119); they land for a dead actor too (10 R232). -/
def State.unitWrites (s : State) (j : UnitJob) : State :=
  let s := j.writes.foldl (fun (t : State) w => t.put w.1 w.2) s
  let s := { s with spois := j.pset.foldl insNat (s.spois.filter fun k => !j.pclr.contains k) }
  if s.alive j.actor then
    s.modActor j.actor fun a => j.ready.foldl (fun b h => if (tileAt b h).state == .filling then b.tileState h .ready else b) a
  else s
/-- MATRIX_COMPLETE (10 R231, R244): the writes land, the accumulators are no longer busy, bindings of an ended invocation
are released. -/
def execMatrixComplete (s : State) : Out :=
  let c := s.arg.n
  match (s.cell c).munit with
  | none => .next s
  | some j =>
    let s := s.unitWrites j
    let s := s.modCell c fun e => { e with munit := none, accs := e.accs.mapIdx fun k a => if j.accs.contains k then { a with busy := false } else a }
    let s := s.unbindIfOver c (j.actor, j.inv)
    .next ((s.cell c).xfers.foldl (fun (t : State) x => if x.kind == .relay then t.post 0 .relaySend { n := c, m := x.id } else t) s)
/-- VECTOR_COMPLETE (10 R248). -/
def execVectorComplete (s : State) : Out :=
  let c := s.arg.n
  match (s.cell c).vunit with
  | none => .next s
  | some j => .next ((s.unitWrites j).modCell c fun e => { e with vunit := none })

end Sys2Proof.Machine
end

