-- ==== Sys2Proof/Machine/TileMem.lean ====
section
/-! DEFINITION. The tile, transfer, ring and barrier instructions (09 R195 to R212). -/

namespace Sys2Proof.Machine

-- Handles: R195 to R199 --------------------------------------------------------------------------------------------

/-- The checks of `tdef` on a new entry, after the state of the handle (R197). -/
def defChecks (a : Actor) (e : TileEnt) (loc pitch : Nat) : Res Unit := do
  let d ← needDesc a e
  let n := tileSize e d
  check (n ≤ 262144) rTileBounds
  if e.glob then do
    check (loc / 2 ^ 56 == 0) rExtent
    check (rowBytes e.cols.toNat d.wd ≤ pitch && pitch ≤ 2 ^ 24 - 1) rTileBounds
  else do
    check (!a.roaming) rExtent
    check (loc % 128 == 0 && loc + n ≤ regionSize a && pitch == 0) rTileBounds
/-- `tdef` (R196, R197): the entry is written, EMPTY. -/
def execTdef (d : TileSel) (loc0 loc1 pitch : PWord) (rows : BitVec 8) (cols : BitVec 11) (fmt : Fin 16) (bar : Fin 9)
    (glob : Bool) (s : State) : Out :=
  unguarded s do
    let loc ← param64 s loc0 loc1
    let pit ← param s false pitch
    let h ← resolve s.cur true d
    let _ ← needDef s h false
    let e : TileEnt := { loc := BitVec.ofNat 56 loc, pitch := BitVec.ofNat 24 pit, rows := rows, cols := cols, fmt := fmt, bar := bar, glob := glob, state := .empty }
    defChecks s.cur e loc pit
    return s.setCur ((s.cur.setTile h e).retire 5)
/-- `tview` (R198): a READY window of the source's bytes. -/
def execTview (d a : TileSel) (row0 : BitVec 7) (col0 : BitVec 10) (rows : BitVec 8) (cols : BitVec 11) (s : State) : Out :=
  unguarded s do
    let h ← resolve s.cur true d
    let k ← resolve s.cur false a
    let _ ← needDef s h false
    let src ← needRead s k
    let ds ← needDesc s.cur src
    let _ ← needSize s.cur src ds
    let rb := rowBytes src.cols.toNat ds.wd
    let r0 := row0.toNat; let c0 := col0.toNat
    check (r0 + rows.toNat ≤ src.rows.toNat && c0 + cols.toNat ≤ src.cols.toNat) rTileBounds
    check (c0 * ds.wd % 8 == 0) rTileBounds
    let loc := src.loc.toNat + r0 * (if src.glob then src.pitch.toNat else rb) + c0 * ds.wd / 8
    check (src.glob || (loc % 128 == 0 && (rows.toNat ≤ 1 || (c0 == 0 && cols == src.cols)))) rTileBounds
    let e : TileEnt := { src with loc := BitVec.ofNat 56 loc, rows := rows, cols := cols, bar := 0, drn := 0, lu := false, state := .ready }
    return s.setCur ((s.cur.setTile h e).retire 5)
/-- `tfree` (R199): the entry is cleared; a LATCHED tile leaves the B latch. -/
def execTfree (d : TileSel) (s : State) : Out :=
  unguarded s do
    let h ← resolve s.cur true d
    let e ← needDef s h true
    let s := if e.state == .latched then s.modCell s.cur.cell fun c => c.leaveLatch s.focus else s
    return s.setCur ((s.cur.setTile h {}).retire 1)
/-- `tstat` (R199): half of an entry, whatever its state. -/
def execTstat (a : TileSel) (hi : Bool) (s : State) : Out :=
  unguarded s do
    let h ← resolve s.cur false a
    let v := tileBits (tileAt s.cur h)
    return (s.pushOutside (BitVec.ofNat 64 (if hi then v / 2 ^ 64 else v)) false).retire 1
/-- `tzero` (R199): the vector unit writes zeros; sectors covered wholly become clean. -/
def execTzero (d : TileSel) (s : State) : Out :=
  unguarded s do
    let h ← resolve s.cur true d
    let e ← needWrite s h
    check (!e.glob) rExtent
    let ds ← needDesc s.cur e
    let n ← needSize s.cur e ds
    needNoHold s e.loc.toNat n
    needV s
    let k := tileKey s.cur e
    let s := s.setCur (((s.cur.tileState h .filling).watchOp true h).retire 1)
    return s.startV (8 + ceilDiv n 256) { writes := [(k, List.replicate n 0)], pclr := cleanSectors k n [], ready := [h] }

-- Transfers: R200 to R206 ------------------------------------------------------------------------------------------

/-- The pattern record at a region offset (R202). -/
def patternRecord (s : State) (g o : Nat) : Res Pattern := do
  check (o % 32 == 0 && o + 32 ≤ regionSize s.cur) rExtent
  check (!s.spoisoned (regionKey s.cur + o) 32) rPoison
  let v := s.num (regionKey s.cur + o) 32
  let p : Pattern := { g := g, n0 := bits v 18 0, n1 := bits v 47 32, n2 := bits v 63 48, n3 := bits v 79 64, s1 := signed 32 (bits v 127 96), s2 := signed 32 (bits v 159 128), s3 := signed 32 (bits v 191 160) }
  check (bits v 255 192 == 0 && bits v 95 80 == 0 && bits v 31 19 == 0 && 1 ≤ p.n0 && p.n0 ≤ 262144 && 1 ≤ p.n1 &&
    1 ≤ p.n2 && 1 ≤ p.n3) rTileBounds
  return p
/-- The tile of a `.gt` form: `dst` when it is the destination of a `twrite`. -/
def globalTile (s : State) (dst : Bool) : GForm → Res (Option Nat)
  | .gt t => do let h ← resolve s.cur dst t; return some h
  | _ => .ok none
/-- The global side of `tfetch` and `twrite` (R203): `e` is the scratchpad tile, `h` the global tile of a `.gt` form. -/
def globalSide (s : State) (c : CopyArgs) (e : TileEnt) (wd : Nat) (g p2 : Nat) (h : Option Nat) : Res Pattern :=
  match c.gf with
  | .g2 => .ok { g := g, n0 := rowBytes e.cols.toNat wd, n1 := e.rows.toNat, s1 := signed 32 p2 }
  | .g4 => patternRecord s g p2
  | .gt _ => do
    let t := tileAt s.cur (h.getD 0)
    let d ← needDesc s.cur t
    return { g := t.loc.toNat, n0 := rowBytes t.cols.toNat d.wd, n1 := t.rows.toNat, s1 := t.pitch.toNat }
/-- What every transfer from or to a scratchpad tile does at issue once its checks have passed: the states change (R118), its
barriers count it (R123), it retires, and its watchpoints fire. -/
def State.begin (s : State) (x : Xfer) (drains : List Nat) (lu : Bool) (ops : List (Bool × Nat)) : State :=
  let a := match x.dst with | some h => s.cur.tileState h .filling | none => s.cur
  let a := drains.foldl Actor.drain (a.inflight x.bars)
  let a := match x.src with | some h => if lu then a.setTile h { tileAt a h with lu := true } else a | none => a
  s.setCur ((ops.foldl (fun (b : Actor) o => b.watchOp o.1 o.2) a).retire 5)
/-- In a shadow run a transfer ends as it begins: a fetch takes its bytes from the log, nothing else leaves (21 R396). -/
def State.shadowEnd (s : State) (b : Nat) (x : Xfer) (drains : List Nat) : State :=
  let s := if x.kind == .fetch || x.kind == .gather then
      match s.nextLog b with
      | (some (.bytes _ bs), t) => t.put (regionKey s.cur + x.soff) (bs.take x.bytes)
      | (_, t) => t
    else s
  (drains.foldl (fun (t : State) h => t.sourceRead t.focus (some h)) s).landed x
/-- The 8-byte VA, the 8-byte length and the data of a global write in an output stream (21 R394). -/
def outRecord (va : Nat) (bs : List Byte) : List Byte := bytesOf 8 va ++ bytesOf 8 bs.length ++ bs
/-- The OutOp of a transfer over some addresses. -/
def outOf (s : State) (id : Nat) (k : OutKind) (acq : Bool) (vas : List Nat) : OutOp :=
  let (pkg, pod) := homesTouched s s.cur vas
  { id := id, kind := k, pkg := pkg, pod := pod, acq := acq }

/-- The OutOp of a gather or scatter: until its index tile is read, its homes may lie anywhere (09 R213). -/
def indexedOut (id : Nat) (k : OutKind) (acq : Bool) : OutOp := { id := id, kind := k, pkg := true, pod := true, acq := acq }
/-- A side-log entry of the issuing actor: its pieces, and the pages of its footprint `vas` (04 R104, R106). -/
def sideOf (s : State) (id : Nat) (k : PKind) (ps : List Piece) (vas : List Nat) : SideEnt :=
  { actor := s.focus, inv := s.cur.invNo, id := id, kind := k, pieces := ps, targets := vas.map (pageOf (s.image s.cur)) }
/-- The state check of a tile that a form may lack. -/
def needOpt (h : Option Nat) (f : Nat → Res TileEnt) : Res Unit :=
  match h with | some k => (f k).map fun _ => () | none => .ok ()

/-- `tfetch` (R200 to R204). -/
def execTfetch (c : CopyArgs) (s : State) : Out :=
  unguarded s do
    let g ← param64 s c.p0 c.p1
    let p2 ← param s false c.p2
    let to_ ← resolve s.cur true c.tile
    let gh ← globalTile s false c.gf
    let e ← needWrite s to_
    needOpt gh (needRead s)
    check (!e.glob && (match gh with | some h => (tileAt s.cur h).glob | none => true) && !s.cur.roaming) rExtent
    let d ← needDesc s.cur e
    let p ← globalSide s c e d.wd g p2 gh
    let n ← needSize s.cur e d
    check (p.total == n) rTileBounds
    needNoHold s e.loc.toNat n
    needXfer s
    needGlobal s
    let ps := p.split
    let (s, pas) ← resolveVas s (.fetch (c.sem == .acq)) (ps.map (·.va))
    let ps := (ps.zip pas).map fun q => { q.1 with pa := q.2 }
    let x : Xfer := { id := s.nextId, kind := .fetch, actor := s.focus, inv := s.cur.invNo, dst := some to_, src := gh, soff := e.loc.toNat, bytes := n, bars := barOf e.bar, pieces := ps, held := ps.filter (·.pa.isNone), acq := c.sem == .acq }
    let drains := gh.toList
    let s := s.freshId.begin x drains c.lu [(true, to_)]
    match s.cur.shadow with
    | some b => return s.shadowEnd b x drains
    | none =>
      let s := s.setCur (s.cur.addOut (outOf s x.id .fetch (c.sem == .acq) (ps.map (·.va))))
      let s := s.logIn s.cur (.bytes x.id (List.replicate n 0))
      let cell := runCell s.cur
      return (s.addXfer cell x).addFetches cell x (ps.filter (·.pa.isSome))

/-- `twrite` (R200 to R204, R206): pieces whose answer is ABSENT, and every piece behind a pending entry, go to the side log
(04 R104, R106). -/
def execTwrite (c : CopyArgs) (s : State) : Out :=
  unguarded s do
    let g ← param64 s c.p0 c.p1
    let p2 ← param s false c.p2
    let gh ← globalTile s true c.gf
    let from_ ← resolve s.cur false c.tile
    needOpt gh (needWrite s)
    let e ← needRead s from_
    check (!e.glob && (match gh with | some h => (tileAt s.cur h).glob | none => true) && !s.cur.roaming) rExtent
    let d ← needDesc s.cur e
    let p ← globalSide s c e d.wd g p2 gh
    let n ← needSize s.cur e d
    check (p.total == n) rTileBounds
    if c.sem == .rel && !s.cur.relReady c.sc then Stall s
    needXfer s
    needGlobal s
    let ps := p.split
    let vas := ps.map (·.va)
    let (s, pas) ← resolveVas s .write vas
    let all := s.cur.shadow.isNone && behind s vas
    let ps := (ps.zip pas).map fun q => { q.1 with pa := if all then none else q.2 }
    needSide s (ps.any (·.pa.isNone))
    let bars := barOf c.wbar ++ (match gh with | some h => barOf (tileAt s.cur h).bar | none => [])
    let x : Xfer := { id := s.nextId, kind := .write, actor := s.focus, inv := s.cur.invNo, dst := gh, src := some from_, soff := e.loc.toNat, bytes := n, bars := bars, pieces := ps.filter (·.pa.isSome), held := ps.filter (·.pa.isNone) }
    let s := s.freshId.begin x [from_] c.lu [(false, from_)]
    let s := s.logOut s.cur (outRecord p.g (s.bytes (tileKey s.cur e) n))
    match s.cur.shadow with
    | some b => return s.shadowEnd b x [from_]
    | none =>
      let s := s.setCur (s.cur.addOut (outOf s x.id .write false vas))
      let cell := runCell s.cur
      let s := s.addXfer cell x
      let s := if x.pieces.isEmpty then s else s.post 0 .outboundReadDone { n := cell, m := x.id }
      return if x.held.isEmpty then s
        else (s.sideAdd cell (sideOf s x.id .wr x.held vas)).post 0 .sideLogReplay { n := cell, actor := s.focus }

/-- `tcopy` (R200, R204, R205). -/
def execTcopy (to_ from_ : TileSel) (lu : Bool) (s : State) : Out :=
  unguarded s do
    let h ← resolve s.cur true to_
    let k ← resolve s.cur false from_
    let e ← needWrite s h
    let f ← needRead s k
    check (!e.glob && !f.glob && !s.cur.roaming) rExtent
    check (h != k) rTileState
    let de ← needDesc s.cur e
    let df ← needDesc s.cur f
    let n ← needSize s.cur e de
    let m ← needSize s.cur f df
    check (n == m) rTileBounds
    needNoHold s e.loc.toNat n
    needXfer s
    let x : Xfer := { id := s.nextId, kind := .copy, actor := s.focus, inv := s.cur.invNo, dst := some h, src := some k, soff := f.loc.toNat, doff := e.loc.toNat, bytes := n, bars := barOf e.bar }
    let s := s.freshId.begin x [k] lu [(true, h), (false, k)]
    let cell := s.cur.cell
    return (s.addXfer cell x).post 0 .outboundReadDone { n := cell, m := x.id }

/-- The checks that `tgath` and `tscat` share on their index tile (R204): its elements. -/
def needIndex (s : State) (ix : Nat) (rows : Nat) : Res TileEnt := do
  let e := tileAt s.cur ix
  let d ← needDesc s.cur e
  check (d.cls == 4) rIllegal
  let _ ← needSize s.cur e d
  check (rows ≤ e.rows.toNat * e.cols.toNat) rTileBounds
  return e
/-- `tgath` (R200 to R204): rows are looked up as their indices are read (04 R103). -/
def execTgath (c : CopyArgs) (ix : TileSel) (s : State) : Out :=
  unguarded s do
    let g ← param64 s c.p0 c.p1
    let st ← param s false c.p2
    let h ← resolve s.cur true c.tile
    let i ← resolve s.cur false ix
    let e ← needWrite s h
    let ie ← needRead s i
    check (!e.glob && !ie.glob && !s.cur.roaming) rExtent
    check (i != h) rTileState
    let d ← needDesc s.cur e
    let n ← needSize s.cur e d
    let _ ← needIndex s i e.rows.toNat
    needNoHold s e.loc.toNat n
    needXfer s
    needGlobal s
    let x : Xfer := { id := s.nextId, kind := .gather, actor := s.focus, inv := s.cur.invNo, dst := some h, ix := some i, soff := e.loc.toNat, doff := ie.loc.toNat, bytes := n, bars := barOf e.bar, k := e.rows.toNat, toRead := 1, g := g, stride := signed 32 st }
    let s := s.freshId.begin x [i] false [(true, h), (false, i)]
    match s.cur.shadow with
    | some b => return s.shadowEnd b x [i]
    | none =>
      let s := s.setCur (s.cur.addOut (indexedOut x.id .fetch (c.sem == .acq)))
      let s := s.logIn s.cur (.bytes x.id (List.replicate n 0))
      return (s.addXfer s.cur.cell x).post 0 .outboundReadDone { n := s.cur.cell, m := x.id }
/-- `tscat` (R200 to R204). -/
def execTscat (c : CopyArgs) (ix : TileSel) (s : State) : Out :=
  unguarded s do
    let g ← param64 s c.p0 c.p1
    let st ← param s false c.p2
    let k ← resolve s.cur false c.tile
    let i ← resolve s.cur false ix
    let e ← needRead s k
    let ie ← needRead s i
    check (!e.glob && !ie.glob && !s.cur.roaming) rExtent
    check (i != k) rTileState
    let d ← needDesc s.cur e
    let n ← needSize s.cur e d
    let _ ← needIndex s i e.rows.toNat
    if c.sem == .rel && !s.cur.relReady c.sc then Stall s
    needXfer s
    needGlobal s
    needSide s true
    let x : Xfer := { id := s.nextId, kind := .scatter, actor := s.focus, inv := s.cur.invNo, src := some k, ix := some i, soff := e.loc.toNat, doff := ie.loc.toNat, bytes := n, bars := barOf c.wbar, k := e.rows.toNat, toRead := 1, g := g, stride := signed 32 st }
    let s := s.freshId.begin x [k, i] c.lu [(false, k), (false, i)]
    let s := s.logOut s.cur (outRecord g (s.bytes (tileKey s.cur e) n))
    match s.cur.shadow with
    | some b => return s.shadowEnd b x [k, i]
    | none =>
      let s := s.setCur (s.cur.addOut (indexedOut x.id .write false))
      return (s.addXfer s.cur.cell x).post 0 .outboundReadDone { n := s.cur.cell, m := x.id }

-- Rings: R209, R210 ------------------------------------------------------------------------------------------------

/-- `rdef` (R209). -/
def execRdef (d : Fin 4) (first : Fin 28) (count : Fin 9) (s : State) : Out :=
  unguarded s (return s.setCur ({ s.cur with rings := s.cur.rings.set d.val { def_ := true, first := first.val, count := count.val } }.retire 1))
/-- The cursor of a ring instruction; one that is not defined kills (05 R126). -/
def needRing (s : State) (d : Fin 4) : Res Ring :=
  let r := s.cur.rings.getD d.val {}
  if r.def_ then .ok r else Kill rTileState
/-- `radv` (R209): one index moves, modulo the count. -/
def execRadv (d : Fin 4) (cons : Bool) (step : Fin 64) (s : State) : Out :=
  unguarded s do
    let r ← needRing s d
    let r := if cons then { r with cidx := (r.cidx + step.val) % r.count } else { r with pidx := (r.pidx + step.val) % r.count }
    return s.setCur ({ s.cur with rings := s.cur.rings.set d.val r }.retire 1)
/-- `rwait` (R210). -/
def execRwait (d : Fin 4) (cons : Bool) (k : Fin 8) (s : State) : Out :=
  unguarded s do
    let r ← needRing s d
    let h := r.first + ((if cons then r.cidx else r.pidx) + k.val) % r.count
    match (tileAt s.cur h).state with
    | .ready => if cons then return s.retire 1 else Kill rTileState
    | .draining => if cons then return s.retire 1 else Stall s
    | .filling => Stall s
    | .empty => if cons then Kill rTileState else return s.retire 1
    | .free | .latched => Kill rTileState
    | .given => Kill rGivenTile

-- Barriers: R211, R212 ---------------------------------------------------------------------------------------------

/-- A barrier of the issuing actor. -/
def barrierAt (s : State) (d : Fin 8) : Barrier := s.cur.bars.getD d.val {}
/-- A barrier replaced, and the instruction retired. -/
def setBarrier (s : State) (d : Fin 8) (b : Barrier) : State := s.setCur ({ s.cur with bars := s.cur.bars.set d.val b }.retire 1)
/-- `binit` (R212). -/
def execBinit (d : Fin 8) (a : Scalar) (s : State) : Out :=
  unguarded s do
    let v ← cleanOperand s a
    let b := barrierAt s d
    check (b.count == 0 && b.infl == 0) rBarrierBusy
    return setBarrier s d { b with count := v, phase := false }
/-- `bexp` (R212). -/
def execBexp (d : Fin 8) (a : Scalar) (s : State) : Out :=
  unguarded s do
    let v ← cleanOperand s a
    return setBarrier s d ((barrierAt s d).add v)
/-- `bwait` (R212): stalls while the phase is a[0] xor b. -/
def execBwait (d : Fin 8) (a : Scalar) (b : Bool) (s : State) : Out :=
  unguarded s do
    let v ← cleanOperand s a
    if (barrierAt s d).phase == xor (bit v.toNat 0) b then Stall s else return s.retire 1
/-- The 128 bits of a barrier (05 R123). -/
def barrierBits (b : Barrier) : Nat := b.count.toNat * 2 ^ 64 + b.infl % 128 * 2 + ofBool b.phase
/-- `bstat` (R212). -/
def execBstat (d : Fin 8) (hi : Bool) (s : State) : Out :=
  let v := barrierBits (barrierAt s d)
  unguarded s (return (s.pushOutside (BitVec.ofNat 64 (if hi then v / 2 ^ 64 else v)) false).retire 1)

end Sys2Proof.Machine
end

