-- ==== Sys2Proof/Machine/Atomics.lean ====
section
/-! DEFINITION. Fences (09 R213), atomics (R214, R215), and reduction objects at their issuers: `robj` and `ared` (R216 to
R218). -/

namespace Sys2Proof.Machine

/-- `fence` (R213). -/
def execFence (acq rel : Bool) (sc : Scope) (s : State) : Out :=
  unguarded s (if (rel && !s.cur.relReady sc) || (acq && !s.cur.acqReady sc) then Stall s else return s.retire 1)

-- Atomics ----------------------------------------------------------------------------------------------------------

/-- The entry just pushed goes to a nonzero `dst` as well (01 R25). -/
def State.pushedTo (s : State) (dst : Option (Fin 16)) : State := s.setCur (s.cur.setDst dst (s.cur.h.headD (.val 0 false)))
/-- Whether one more atomic to the home of `pa` would be the 65th that awaits its reply (18 R375). -/
def needPort (s : State) (pa : Nat) : Res Unit :=
  match homeOf pa with
  | some h => if s.portFull (runCell s.cur) h then Stall s else .ok ()
  | none => .ok ()
/-- An atomic that goes straight to its home, its value awaited under `tok`. -/
def State.sendAtomic (s : State) (aop : Nat) (v c : W64) (va pa : Nat) (acq : Bool) (kind : OutKind) (tok : Nat) : State :=
  let s := s.setCur (s.cur.addOut (outOf s tok kind acq [va]))
  s.sendPkt (atomicPkt (runCell s.cur) s.focus tok aop v c pa)
/-- What every atomic does (R215): `v` and `c` its operands, `va` its address. -/
def atomicAt (s : State) (aop : Nat) (v c : W64) (va : Nat) (dst : Option (Fin 16)) (sem : Sem) (sc : Scope) (nr : Bool) : Res State := do
  check (va % 8 == 0) rExtent
  if (sem == .rel || sem == .ar) && !s.cur.relReady sc then Stall s
  needGlobal s
  let acq := sem == .acq || sem == .ar
  let (s, pas) ← resolveVas s .atomic [va]
  let pa := (pas.headD none)
  let out := outRecord va (bytesOf 8 v.toNat ++ if aop = 9 then bytesOf 8 c.toNat else [])
  if s.cur.shadow.isSome then
    let s := s.logOut s.cur out
    return (if nr then s else (s.pushOutside 0 false).pushedTo dst).retire 3
  let late := behind s [va]
  match pa, late with
  | some pa, false =>
    needPort s pa
    let s := s.logOut s.cur out
    if nr then
      let tok := s.nextId
      return (s.freshId.sendAtomic aop v c va pa acq .write tok).retire 3
    else
      let s := s.pushAsked fun tok t => t.sendAtomic aop v c va pa acq .ret tok
      return (s.pushedTo dst).retire 3
  | _, _ =>
    if !nr then Stall s
    needSide s true
    let s := s.logOut s.cur out
    let id := s.nextId
    let cell := runCell s.cur
    let s := s.freshId
    let s := s.setCur (s.cur.addOut (outOf s id .write acq [va]))
    let e : SideEnt := { sideOf s id .at_ [{ va := va, len := 8 }] [va] with aop := aop, v := v, c := c }
    return ((s.sideAdd cell e).post 0 .sideLogReplay { n := cell, actor := s.focus }).retire 3
/-- A guarded atomic: its operands, then its effect; a returning one whose guard is false pushes `a` (R215). -/
def atomicOp (aop : Nat) (a b c : Scalar) (dst : Option (Fin 16)) (sem : Sem) (sc : Scope) (nr : Bool) (disp : W32) (g : Guard) (s : State) : Out :=
  guarded s g 3 (if nr then [] else [a]) do
    let (x, px) ← operand s a
    let (v, pv) ← operand s b
    let (w, pw) ← operand s c
    check (!(px || pv || pw)) rPoison
    atomicAt s aop v w (x + sext32 disp).toNat dst sem sc nr
/-- `aadd` (R215). -/
def execAadd (a b : Scalar) (dst : Option (Fin 16)) (sem : Sem) (sc : Scope) (nr : Bool) (disp : W32) (g : Guard) (s : State) : Out :=
  atomicOp 0 a b .zero dst sem sc nr disp g s
/-- `aand` (R215). -/
def execAand (a b : Scalar) (dst : Option (Fin 16)) (sem : Sem) (sc : Scope) (nr : Bool) (disp : W32) (g : Guard) (s : State) : Out :=
  atomicOp 1 a b .zero dst sem sc nr disp g s
/-- `aor` (R215). -/
def execAor (a b : Scalar) (dst : Option (Fin 16)) (sem : Sem) (sc : Scope) (nr : Bool) (disp : W32) (g : Guard) (s : State) : Out :=
  atomicOp 2 a b .zero dst sem sc nr disp g s
/-- `axor` (R215). -/
def execAxor (a b : Scalar) (dst : Option (Fin 16)) (sem : Sem) (sc : Scope) (nr : Bool) (disp : W32) (g : Guard) (s : State) : Out :=
  atomicOp 3 a b .zero dst sem sc nr disp g s
/-- `amin` (R215). -/
def execAmin (a b : Scalar) (dst : Option (Fin 16)) (sem : Sem) (sc : Scope) (nr : Bool) (disp : W32) (g : Guard) (s : State) : Out :=
  atomicOp 4 a b .zero dst sem sc nr disp g s
/-- `amax` (R215). -/
def execAmax (a b : Scalar) (dst : Option (Fin 16)) (sem : Sem) (sc : Scope) (nr : Bool) (disp : W32) (g : Guard) (s : State) : Out :=
  atomicOp 5 a b .zero dst sem sc nr disp g s
/-- `aminu` (R215). -/
def execAminu (a b : Scalar) (dst : Option (Fin 16)) (sem : Sem) (sc : Scope) (nr : Bool) (disp : W32) (g : Guard) (s : State) : Out :=
  atomicOp 6 a b .zero dst sem sc nr disp g s
/-- `amaxu` (R215). -/
def execAmaxu (a b : Scalar) (dst : Option (Fin 16)) (sem : Sem) (sc : Scope) (nr : Bool) (disp : W32) (g : Guard) (s : State) : Out :=
  atomicOp 7 a b .zero dst sem sc nr disp g s
/-- `axchg` (R215). -/
def execAxchg (a b : Scalar) (dst : Option (Fin 16)) (sem : Sem) (sc : Scope) (nr : Bool) (disp : W32) (g : Guard) (s : State) : Out :=
  atomicOp 8 a b .zero dst sem sc nr disp g s
/-- `acas` (R215): `c` is the comparand. -/
def execAcas (a b c : Scalar) (dst : Option (Fin 16)) (sem : Sem) (sc : Scope) (nr : Bool) (disp : W32) (g : Guard) (s : State) : Out :=
  atomicOp 9 a b c dst sem sc nr disp g s

-- Reduction objects ------------------------------------------------------------------------------------------------

/-- The pieces of `n` target bytes at `va`, 4,096 each (R218). -/
def redPieces (va n : Nat) : List Piece :=
  (List.range (ceilDiv n 4096)).map fun j => { va := va + 4096 * j, off := 4096 * j, len := min 4096 (n - 4096 * j) }
/-- The declaration of one piece (R217, R219). -/
def declPkt (c : Nat) (n : ActorName) (id pa j : Nat) (ctl : RcCtl) : Packet :=
  { kind := .rcDecl, home := (homeOf pa).getD .hostPort, rq := c, pa := pa, len := 1, rc := { ctl with pc := j }, owner := n, xid := id, piece := 4096 * j }
/-- `robj` (R216, R217): the status is pushed, and ready once every home has answered. -/
def execRobj (a : Scalar) (b : Fin 14) (p0 p1 p2 : PWord) (rows : BitVec 8) (cols : BitVec 11) (fmt : Fin 16) (op : RedOp) (s : State) : Out :=
  unguarded s do
    let va ← param64 s p0 p1
    let n ← param s false p2
    let rcp ← cleanOperand s a
    let dv := s.cur.fmts.getD fmt.val 0
    let d := descOf dv
    check (validDesc dv && 1 ≤ d.cls && d.cls ≤ 4) rIllegal
    let size := rows.toNat * rowBytes cols.toNat d.wd
    check (va % 4096 == 0 && 1 ≤ n && n ≤ 65535 && size ≤ 262144) rTileBounds
    needGlobal s
    let ps := redPieces va size
    let (s, pas) ← resolveVas s .declare (ps.map (·.va))
    if pas.any (·.isNone) then Stall s
    let s := s.logOut s.cur (outRecord va [])
    if s.cur.shadow.isSome then return (s.pushOutside 0 false).retire 5
    let cell := runCell s.cur
    let ask (tok : Nat) (t : State) : State :=
      let ctl : RcCtl := { npc := ps.length, tva := va, iss := t.focus, rcp := rcp, ch := b.val, rows := rows.toNat, cols := cols.toNat, op := op, desc := dv, k := n, lead := tok }
      let x : Xfer := { id := tok, kind := .contrib, actor := t.focus, inv := t.cur.invNo, left := ps.length, rc := ctl }
      let t := (t.setCur (t.cur.addOut (outOf t tok .write false (ps.map (·.va))))).addXfer cell x
      (pas.mapIdx fun j pa => (j, pa.getD 0)).foldl (fun (u : State) e => u.sendPkt (declPkt cell u.focus tok e.2 e.1 ctl)) t
    return (s.pushAsked ask).retire 5
/-- The pieces of a contribution that have their addresses leave in order, until a poisoned sector kills the actor. -/
def State.contribAll (s : State) (c : Nat) (x : Xfer) : List Piece → State
  | [] => s
  | p :: r => match p.pa with
    | some pa => if s.alive x.actor then (s.contribPiece c x p pa).contribAll c x r else s
    | none => s.contribAll c x r
/-- `ared` (R216, R218): one RC packet per piece; pieces whose answer is ABSENT, and all of them behind a pending entry, go to
the side log (04 R104, R106). -/
def execAred (a : TileSel) (p0 p1 p2 : PWord) (lu : Bool) (s : State) : Out :=
  unguarded s do
    let va ← param64 s p0 p1
    let k ← param s false p2
    let h ← resolve s.cur false a
    let e ← needRead s h
    check (!e.glob) rExtent
    let d ← needDesc s.cur e
    check (1 ≤ d.cls && d.cls ≤ 5) rIllegal
    let n ← needSize s.cur e d
    needGlobal s
    let ps := redPieces va n
    let vas := ps.map (·.va)
    let (s, pas) ← resolveVas s .contrib vas
    let all := s.cur.shadow.isNone && behind s vas
    let ps := (ps.zip pas).map fun q => { q.1 with pa := if all then none else q.2 }
    let held := ps.filter (·.pa.isNone)
    needSide s (!held.isEmpty)
    let ctl : RcCtl := { rows := e.rows.toNat, cols := e.cols.toNat, desc := descVal s.cur e, k := k }
    let x : Xfer := { id := s.nextId, kind := .contrib, actor := s.focus, inv := s.cur.invNo, src := some h, soff := e.loc.toNat, bytes := n, held := held, rc := ctl }
    let s := s.freshId.begin x [h] lu [(false, h)]
    let s := s.logOut s.cur (outRecord va (s.bytes (tileKey s.cur e) n))
    match s.cur.shadow with
    | some b => return s.shadowEnd b x [h]
    | none =>
      let s := s.setCur (s.cur.addOut (outOf s x.id .write false vas))
      let cell := runCell s.cur
      let s := (s.addXfer cell x).contribAll cell x ps
      return if held.isEmpty then s.post 0 .outboundReadDone { n := cell, m := x.id }
        else (s.sideAdd cell (sideOf s x.id .rc held vas)).post 0 .sideLogReplay { n := cell, actor := s.focus }

end Sys2Proof.Machine
end

