-- ==== Sys2Proof/Machine/Walks.lean ====
section
/-! DEFINITION. Astrolabe's page service: walks and their answers (04 R101), requests to the host (21 R402), access
counters and their notifications (03 R90, R91), and page migration (04 R109). -/

namespace Sys2Proof.Machine

-- Requests to the host (21 R402) -----------------------------------------------------------------------------------

/-- A request of duty `d` leaves for host queue q3 and awaits its answer. -/
def State.askHost (s : State) (d : Nat) (what : DutyWhat) (m1 m2 m3 : W64) : State :=
  let num := s.dutyNum
  let m0 := BitVec.ofNat 64 (d * 2 ^ 56 + num)
  let q : DutyReq := { num := num, duty := d, what := what }
  let s : State := { s with dutyNum := (num + 1) % 2 ^ 32, duties := s.duties ++ [q] }
  s.post 0 .hostQueueWrite { n := 3, msg := { dest := s.service 2, sender := s.service 3, chan := 3, plen := 4, m := [m0, m1, m2, m3] } }
/-- Whether duty `d` is the host's (R402). -/
def State.hostDuty (s : State) (d : Nat) : Bool := bit s.regs.duty d

-- Access counters (03 R90, R91) ------------------------------------------------------------------------------------

/-- The backing that holds a physical page. -/
def State.backAt (s : State) (pp : Nat) : Option Backing := s.backs.find? fun b => b.ppage ≤ pp && pp < b.ppage + b.npg
/-- Whether a physical page has a counter: dram or cxl, unlocked and private. -/
def Backing.counted (b : Backing) : Bool := !b.locked && (b.kind == .dram || b.kind == .cxl)
/-- MIGRATION_NOTIFY (R91): a notification is queued, or dropped when 1,024 wait. -/
def State.notify (s : State) (pp : Nat) : State :=
  if s.queued.contains pp then s
  else if s.notes.length < 1024 then
    ({ s with notes := s.notes ++ [pp], queued := insNat s.queued pp } : State).post 0 .migration { n := pp }
  else
    ({ s with regs := { s.regs with lost := min (s.regs.lost + 1) (2 ^ 32 - 1) } } : State).post 0 .lostScan {}
/-- Whether the counter of a cxl page asks for promotion (R91, R92). -/
def State.isHot (s : State) (n : Nat) : Bool := s.regs.migEn && s.regs.hot != 0 && s.regs.hot ≤ n
/-- A home accepts a packet of some granules of a page (R90). -/
def State.countAccess (s : State) (pa granules : Nat) : State :=
  let pp := pa / 2 ^ 16
  match s.backAt pp with
  | some b =>
    if b.counted then
      let n := kvGet 0 s.counts pp
      let m := min (n + granules) 0xFFFF
      let s := { s with counts := kvSet s.counts pp m }
      if b.kind == .cxl && s.isHot m && !s.isHot n then s.notify pp else s
    else s
  | none => s
/-- EPOCH_END (R90): every counter halves; the next epoch ends 2^`epoch` cycles later. -/
def execEpochEnd (s : State) : Out :=
  .next (({ s with counts := s.counts.map fun e => (e.1, e.2 / 2) } : State).post (2 ^ s.regs.epoch) .epochEnd {})
/-- LOST_SCAN (R91): `lost` has changed, so every hot cxl page whose queued bit is clear is queued. -/
def execLostScan (s : State) : Out :=
  if s.regs.lost = s.seenLost then .next s
  else
    let s : State := { s with seenLost := s.regs.lost }
    .next (s.counts.foldl (fun (t : State) e => match t.backAt e.1 with
      | some b => if b.counted && b.kind == .cxl && t.isHot e.2 && t.notes.length < 1024 then t.notify e.1 else t
      | none => t) s)

-- Walks (04 R101) --------------------------------------------------------------------------------------------------

/-- The answer of a walk leaves. -/
def State.answerWalk (s : State) (n : ActorName) (va : Nat) (c : WalkClass) : State :=
  s.post 0 .walkAnswer { actor := n, n := va, cls := c }
/-- The dram page that Astrolabe demotes when it needs a frame: the least used (R91). -/
def State.victim (s : State) : Option Nat :=
  (minBy (fun (b : Backing) => kvGet 0 s.counts b.ppage) (s.backs.filter fun b => b.counted && b.kind == .dram && !b.moving)).map
    (·.ppage)
/-- While no frame serves a page Astrolabe demotes a dram page, if one can help, and looks again 64 cycles later (log 104). -/
def State.lookAgain (s : State) (dram : Bool) (g : EvArg) : State :=
  let s := s.post 64 .walkRequest g
  match (if dram then s.victim else none) with
  | some pp => s.post 0 .migration { n := pp, k := 1 }
  | none => s
/-- The overflow area of an actor as a region: private, unlocked, in device DRAM (14 R315). -/
def areaRegion (a : Actor) : RegionRec := { vbase := a.ovfv * 2 ^ 16, size := 65536 * 2 ^ a.ovf }
/-- The walk of a page of an overflow area, which the copy engine of a delivery asks for (14 R315): the page is backed on first touch. -/
def State.walkArea (s : State) (a : Actor) (g : EvArg) : State :=
  let mapped (s : State) : State := s.post 0 .walkAnswer { g with cls := .mapped }
  match s.backing a (areaRegion a) (g.n / 2 ^ 16) with
  | some b => if b.moving then s.lookAgain false g else mapped s
  | none => match s.back a (areaRegion a) (g.n / 2 ^ 16) with
    | some t => mapped t
    | none => s.lookAgain true g
/-- WALK_REQUEST (R101): a missed address is classified. A page that is not yet backed is answered ABSENT; Astrolabe backs
it and answers MAPPED, or asks the host (a host region, or duty 0 with the host); a refusal by the buoy quota is NONE. `flag`: the page is
one of an overflow area, for a delivery. -/
def execWalkRequest (s : State) : Out :=
  let n := s.arg.actor; let va := s.arg.n
  if !s.alive n then .next s
  else if s.arg.flag then .next (s.walkArea (s.actor n) s.arg)
  else
    let a := s.actor n
    match regionAt (s.image a) va with
    | none => .next (s.answerWalk n va .none)
    | some (ri, r) =>
      if r.locked then .next (s.answerWalk n va .none)
      else match s.backing a r (va / 2 ^ 16) with
        | some b => .next (s.answerWalk n va (if b.moving then .absent else .mapped))
        | none =>
          if r.kind == .host || s.hostDuty 0 then
            let s := s.answerWalk n va .absent
            .next (s.askHost 0 (.page n va) (BitVec.ofNat 64 va) n (BitVec.ofNat 64 ri))
          else
            match s.back a r (va / 2 ^ 16) with
            | some t => .next ((t.answerWalk n va .absent).answerWalk n va .mapped)
            | none =>
              if s.quotaFails a r (va / 2 ^ 16) then .next (s.answerWalk n va .none)
              else .next ((s.answerWalk n va .absent).lookAgain (r.kind == .dram) { actor := n, n := va })

/-- What waited for an actor goes on, unless the actor is moving (14 R315; 15 R337). -/
def State.unhold (s : State) (n : ActorName) : State :=
  if (s.actor n).st == .transit then s
  else
    let mine := s.held.filter fun h => h.actor == n
    mine.foldl (fun (t : State) h => { t with agenda := t.agenda ++ [⟨t.cycle, h.ev⟩] }) { s with held := s.held.filter fun h => h.actor != n }
/-- WALK_ANSWER (R101, R102): MAPPED installs the extent and lets held work go on; ABSENT holds it; NONE kills, but for a page of a host
region that only an `xmap` waits for (09 R227). The walk of an `xmap` installs nothing: the instruction does. -/
def execWalkAnswer (s : State) : Out :=
  let n := s.arg.actor; let va := s.arg.n
  let vp := va / 2 ^ 16
  if !s.alive n then .next s
  else if s.arg.flag then .next (s.unhold n)
  else
    let a := s.actor n
    let rest := a.walks.filter fun w => w.1 != vp
    let hold := s.setActor { a with walks := a.walks.map fun w => if w.1 == vp then (vp, true) else w }
    let walked := a.walks.any fun w => w.1 == vp
    match s.arg.cls with
    | .absent => .next hold
    | .mapped =>
      match regionAt (s.image a) va with
      | none => .next hold
      | some (ri, r) =>
        match s.backing a r vp with
        | none => .next hold
        | some b =>
          if b.moving || !walked then .next hold
          else
            let (v, np, pp) := s.walkExt a r b vp
            let b : Actor := { a with walks := rest }
            let there := a.exts.any fun e => e.valid && e.covers vp
            let s := s.setActor (if there then b else b.install (s.mkExt a ri r v np pp false false))
            .next (s.resume n)
    | .none =>
      let host := match regionAt (s.image a) va with | some (_, r) => r.kind == .host | none => false
      if host && a.xwalk == some vp && !walked then .next (s.setActor { a with xwalk := none, pend := some 4 })
      else .next (killActor s n rExtent)

-- Migration (04 R109) ----------------------------------------------------------------------------------------------

/-- Whether a packet of an actor to one of some physical runs, or to the mirror of one, awaits its reply. -/
def Actor.flies (a : Actor) (runs : List (Nat × Nat)) : Bool :=
  let at_ (p : Nat) : Bool := runs.any fun u => u.1 ≤ p && p < u.1 + u.2
  a.flying.any fun p => at_ p || (tierOf (p * 2 ^ 16) == some .buoy && at_ (mirrorPa (p * 2 ^ 16) / 2 ^ 16))
/-- Whether a valid dynamic entry covers a physical page. -/
def Actor.holds (a : Actor) (pp : Nat) : Bool :=
  a.exts.any fun e => e.valid && !e.locked && e.ppage ≤ pp && pp < e.ppage + e.npg
/-- Whether an entry is dynamic, valid, and covers one of `n` physical pages from `pp`. -/
def Ext.meetsRun (e : Ext) (pp n : Nat) : Bool := e.valid && !e.locked && e.ppage < pp + n && pp < e.ppage + e.npg
/-- Dynamic entries that cover one of `n` physical pages from `pp` cleared. -/
def Actor.dropRun (a : Actor) (pp n : Nat) : Actor :=
  { a with exts := a.exts.map fun (e : Ext) => if e.meetsRun pp n then { e with valid := false } else e }
/-- A backing cut so that one page stands alone. -/
def Backing.cut (b : Backing) (pp : Nat) : List Backing :=
  let i := pp - b.ppage
  (if i = 0 then [] else [{ b with npg := i }]) ++ [{ b with vpage := b.vpage + i, ppage := pp, npg := 1 }] ++
  (if i + 1 < b.npg then [{ b with vpage := b.vpage + i + 1, ppage := pp + 1, npg := b.npg - i - 1 }] else [])
/-- The backing of one physical page changed. -/
def State.modBack (s : State) (pp : Nat) (f : Backing → Backing) : State :=
  { s with backs := s.backs.map fun b => if b.ppage == pp && b.npg == 1 then f b else b }
/-- Astrolabe's queue gives up a page: its queued bit clears. -/
def State.dequeue (s : State) (pp : Nat) : State :=
  { s with queued := s.queued.filter (· != pp) }
/-- A page starts to move to a tier: new walks find it ABSENT, and every copy engine that holds an entry is told. -/
def State.startMove (s : State) (b : Backing) (pp : Nat) (to_ : RegKind) : State :=
  match s.findRun to_ 1 1 0 false with
  | none => s.dequeue pp
  | some dest =>
    let s : State := { s with backs := (s.backs.map fun (c : Backing) => if c.ppage == b.ppage then c.cut pp else [c]).flatten }
    let who := (s.all.filter fun a => a.holds pp).map (·.name)
    let s := s.modBack pp fun c => { c with moving := true, dest := dest, acks := who.length }
    if who.isEmpty then s.post 0 .migration { n := pp, flag := true }
    else who.foldl (fun (t : State) n => t.post 0 .invalidation { actor := n, n := pp, m := 1 }) s
/-- The actors of a job that wait for a page of a run walk again. -/
def State.rewalk (s : State) (b : Backing) : State :=
  s.all.foldl (fun (t : State) a => if jobOf a.name == b.job then
      ((a.walks.map (·.1) ++ a.xwalk.toList).filter b.covers).foldl (fun (u : State) w => u.post 0 .walkRequest { actor := a.name, n := w * 2 ^ 16 }) t
    else t) s
/-- A page has moved: its bytes and poison are copied, its backing changes, and the actors that wait for it walk again. -/
def State.finishMove (s : State) (b : Backing) : State :=
  let src := b.ppage * 2 ^ 16; let dst := b.dest * 2 ^ 16
  let ps := (s.gpois.filter fun g => src / 64 ≤ g && g < src / 64 + 1024).map fun g => g - src / 64 + dst / 64
  let s := s.put dst (s.bytes src (2 ^ 16))
  let s : State := { s with gpois := ps.foldl insNat (delRange s.gpois (dst / 64) 1024), counts := kvDel s.counts b.ppage }
  let s := s.modBack b.ppage fun c => { c with ppage := b.dest, kind := if c.kind == .dram then .cxl else .dram, moving := false }
  let s := s.dequeue b.ppage
  s.rewalk b
/-- MIGRATION (R109, 03 R91): Astrolabe takes up a notified cxl page (`k` 0) or demotes a dram page (`k` 1), and, once every
copy engine has acknowledged (`flag`), moves it. A page that cannot move is declined. -/
def execMigration (s : State) : Out :=
  let pp := s.arg.n
  if s.arg.flag then
    match s.backs.find? fun b => b.ppage == pp && b.moving with
    | some b => .next (s.finishMove b)
    | none => .next (s.dequeue pp)
  else
    let s := if s.arg.k = 0 then { s with notes := s.notes.filter (· != pp) } else s
    match s.backAt pp with
    | some b =>
      if b.counted && !b.moving && b.kind == (if s.arg.k = 0 then .cxl else .dram) then
        .next (s.startMove b pp (if s.arg.k = 0 then .dram else .cxl))
      else .next (s.dequeue pp)
    | none => .next (s.dequeue pp)
/-- INVALIDATION (R109): a copy engine clears the entries of an actor that cover one of `m` pages from `n`. `other` is the
actor whose `bfree` waits, if it is no migration (09 R226). -/
def execInvalidation (s : State) : Out :=
  let s' := s.modActor s.arg.actor fun a => a.dropRun s.arg.n s.arg.m
  .next (s'.post 0 .invalidationAck s.arg)
/-- A `bfree` whose actor has died gives up its run. -/
def State.unmove (s : State) (pp : Nat) : State :=
  match s.backs.find? fun b => b.ppage == pp && b.moving with
  | some b => ({ s with backs := s.backs.map fun (c : Backing) => if c.ppage == pp then { c with moving := false } else c } : State).rewalk b
  | none => s
/-- INVALIDATION_ACK (R109): it acknowledges once every request sent through them has been answered. -/
def execInvalidationAck (s : State) : Out :=
  let g := s.arg
  if s.has g.actor && (s.actor g.actor).flies [(g.n, g.m)] then .next (s.post 1 .invalidationAck g)
  else if g.other != 0 then
    .next (if s.alive g.other then s.modActor g.other fun a => { a with pend := a.pend.map (· - 1) } else s.unmove g.n)
  else match s.backs.find? fun b => b.ppage == g.n && b.moving with
    | some b =>
      let s := s.modBack g.n fun c => { c with acks := c.acks - 1 }
      .next (if b.acks ≤ 1 then s.post 0 .migration { n := g.n, flag := true } else s)
    | none => .next s

end Sys2Proof.Machine
end

