-- ==== Sys2Proof/Machine/Home.lean ====
section
/-! DEFINITION. The homes: what a slice, a switch plane or the host port does with a packet that it accepts (03 R76 to R78,
R82, R85; 09 R217 to R223), replies at the requester, the mirror's part, and the scrub of 21 R391. -/

namespace Sys2Proof.Machine

-- Effects and replies ----------------------------------------------------------------------------------------------

/-- What an accepted packet does at its home. -/
structure Effect where
  writes : List (Nat × List Byte) := []
  pset   : List Nat := []
  pclr   : List Nat := []
  filt   : Bool := false
  red    : Option RedPiece := none
  reply  : Reply := {}
  deriving DecidableEq, Repr

/-- The reply header of a packet. -/
def replyTo (p : Packet) : Reply :=
  { kind := p.kind, home := p.home, rq := p.rq, tag := p.tag, pa := p.pa, aop := if p.kind == .rcDecl then 1 else p.aop, reqid := p.reqid, owner := p.owner, xid := p.xid, piece := p.piece }
/-- The WACK of a write; the host port's own record of what it wrote returns with it (18 R379). -/
def written (p : Packet) (mask n : Nat) : Reply := if p.rq = 560 then { replyTo p with piece := mask, len := n } else replyTo p
/-- Granules of `n` bytes from `pa`. -/
def granulesOf (pa n : Nat) : List Nat := (List.range (ceilDiv (pa % 64 + n) 64)).map fun i => pa / 64 + i
/-- A filter entry of a requester at a home: the last 64 are kept (03 R78). -/
def State.remember (s : State) (h : Home) (r : Reply) : State :=
  let k := portKey r.rq h
  { s with filters := kvSet s.filters k ((r.reqid, r) :: (kvGet [] s.filters k).take 63) }
/-- The cached reply of a duplicate (03 R78). -/
def State.recall (s : State) (p : Packet) : Option Reply :=
  ((kvGet [] s.filters (portKey p.rq p.home)).find? fun e => e.1 == p.reqid).map fun e => { e.2 with tag := p.tag, home := p.home }
/-- A reduction piece replaced, or added. -/
def State.setRed (s : State) (r : RedPiece) : State :=
  if s.reds.any fun x => x.home == r.home && x.pa == r.pa then
    { s with reds := s.reds.map fun x => if x.home == r.home && x.pa == r.pa then r else x }
  else { s with reds := s.reds ++ [r] }
/-- An effect takes place at a home. -/
def State.apply (s : State) (h : Home) (e : Effect) : State :=
  let s := e.writes.foldl (fun (t : State) w => t.put w.1 w.2) s
  let s : State := { s with gpois := e.pset.foldl insNat (s.gpois.filter fun g => !e.pclr.contains g) }
  let s := if e.filt then s.remember h e.reply else s
  match e.red with | some r => s.setRed r | none => s
/-- The backing of an allocation. -/
def BuoyAlloc.holds (e : BuoyAlloc) (b : Backing) : Bool :=
  b.job == e.job && b.kind == .buoy && b.owner == e.owner && e.va / 2 ^ 16 ≤ b.vpage && b.vpage < e.va / 2 ^ 16 + e.mib * 16
/-- The first pages of the runs of the allocation that a backing belongs to: all that one `balloc` made, or what one first touch made. -/
def State.allocOf (s : State) (b : Backing) : List Nat :=
  match s.ballocs.find? fun e => e.holds b with
  | some e => (s.backs.filter e.holds).map (·.ppage)
  | none => [b.ppage]
/-- The mirrored allocation that a primary address lies in, while its mirror's plane is live and it is not served alone (R82). -/
def State.mirrored (s : State) (pa : Nat) : Option Backing :=
  match s.backAt (pa / 2 ^ 16) with
  | some b =>
    if b.kind == .buoy && b.mirror && !s.lone.contains b.ppage && !s.planeDead (buoyPlane (mirrorPa pa - 0x400000000000)) then some b
    else none
  | none => none
/-- An effect as its mirror will hold it: its bytes, and the poison bits that it sets or clears. A granule that a partial WRM leaves poisoned
is poisoned at the mirror too: DEDUCED (log 109), for the primary forwards the result, and the bytes merged into were lost. -/
def mirrorOf (e : Effect) : List (Nat × List Byte) × List Nat × List Nat :=
  let g (x : Nat) := mirrorPa (x * 64) / 64
  (e.writes.map fun w => (mirrorPa w.1, w.2), e.pset.map g, e.pclr.map g)
/-- An effect takes place and is answered; a mirrored allocation's primary answers once its mirror has acknowledged, or the
forward has timed out (R82). -/
def State.execute (s : State) (p : Packet) (e : Effect) : State :=
  let s := s.apply p.home e
  match s.mirrored p.pa with
  | none => s.sendReply e.reply
  | some b =>
    let id := s.nextId
    let (w, ps, pc) := mirrorOf e
    let plane := buoyPlane (mirrorPa p.pa - 0x400000000000)
    let red := e.red.map fun r => { r with home := .plane plane, pa := mirrorPa r.pa, mirror := true }
    let f : Forward := { id := id, mirror := plane, back := s.allocOf b, writes := w, pset := ps, pclr := pc, filt := e.filt, red := red, reply := e.reply }
    let s : State := { s.freshId with fwds := s.fwds ++ [f] }
    (s.post 0 .mirrorAck { n := id }).post (2 ^ s.regs.ftmo) .mirrorForwardTimeout { n := id }
/-- MIRROR_ACK (R82): a live mirror has taken a forward; the primary replies. -/
def execMirrorAck (s : State) : Out :=
  match s.fwds.find? fun f => f.id == s.arg.n with
  | none => .next s
  | some f =>
    if s.planeDead f.mirror then .next s
    else
      let s : State := { s with fwds := s.fwds.filter fun x => x.id != f.id }
      let s := s.apply (.plane f.mirror) { writes := f.writes, pset := f.pset, pclr := f.pclr, filt := f.filt, red := f.red, reply := f.reply }
      .next (s.sendReply f.reply)
/-- MIRROR_FORWARD_TIMEOUT (R82): the primary serves the allocation alone from now on, until its backing is returned, and replies. -/
def execMirrorForwardTimeout (s : State) : Out :=
  match s.fwds.find? fun f => f.id == s.arg.n with
  | none => .next s
  | some f =>
    let s : State := { s with fwds := s.fwds.filter (fun x => x.id != f.id), lone := f.back.foldl insNat s.lone }
    .next (s.sendReply f.reply)

-- Requests whose plane is lost (03 R87; 16 R359) -------------------------------------------------------------------

/-- The backing of a buoy address or of the primary that it mirrors. -/
def State.buoyBack (s : State) (pa : Nat) : Option Backing :=
  match s.backAt (pa / 2 ^ 16) with
  | some b => some b
  | none => (s.backAt (mirrorPa pa / 2 ^ 16)).filter (·.mirror)
/-- A request that will not be answered: it no longer counts as outstanding. -/
def State.abandon (s : State) (p : Packet) : State := s.freeTag { kind := p.kind, home := p.home, rq := p.rq, tag := p.tag, pa := p.pa, owner := p.owner }
/-- A buoy request for a lost plane (03 R87): resent to the mirror's plane with its request ID, or its issuer dies. -/
def State.rehome (s : State) (p : Packet) : State :=
  let alt := mirrorPa p.pa
  match s.buoyBack p.pa with
  | some b =>
    if b.mirror && !s.planeDead (buoyPlane (alt - 0x400000000000)) then
      let q : Packet := { p with home := .plane (buoyPlane (alt - 0x400000000000)), pa := alt }
      s.sendAgain q
    else killActor s p.owner rBuoyLost
  | none => killActor s p.owner rBuoyLost
/-- A request in flight on a lost plane. -/
def State.loseRequest (s : State) (p : Packet) : State := (s.abandon p).rehome p

-- Reads, writes and atomics (R76 to R78) ---------------------------------------------------------------------------

/-- A packet's meaning at its home. A packet for a plane reaches the plane's station first, and takes an entry there (18 R374) unless the
plane is lost; `flag` says that it has come from the station. No memory stands behind an address outside the windows or behind no port. -/
def atHome (s : State) (f : State → Packet → State) : Out :=
  let p := s.arg.pkt
  match p.home, s.arg.flag with
  | .plane k, false => .next (if s.planeDead k then s.loseRequest p else s.enterStation k { rq := p.rq, pkt := p })
  | _, _ => if s.present p.pa then .next (f (s.countAccess p.pa (max 1 p.len)) p) else .fault (.noSuchAddress p.pa)
/-- RD (R76): the granules as they stand, with their poison bits. -/
def execRd (s : State) : Out :=
  atHome s fun s p =>
    let ps := (List.range p.len).filter fun g => s.gpois.contains (p.pa / 64 + g)
    s.sendReply { replyTo p with data := s.bytes p.pa (64 * p.len), pois := ps, len := p.len }
/-- WR (R76, R77): whole granules; their poison clears. -/
def execWr (s : State) : Out :=
  atHome s fun s p => s.execute p { writes := [(p.pa, p.data)], pclr := granulesOf p.pa p.data.length, reply := written p (2 ^ p.data.length - 1) p.data.length }
/-- The bytes of a granule with the enabled ones replaced. -/
def mergeMask (mask : Nat) (old new : List Byte) : List Byte := (old.zip new).mapIdx fun k e => if bit mask k then e.2 else e.1
/-- WRM (R77): a read-modify-write of one granule; a poisoned granule stays poisoned and the WACK says so, unless every byte
is enabled. -/
def execWrm (s : State) : Out :=
  atHome s fun s p =>
    let bad := s.gpois.contains (p.pa / 64)
    let full := p.mask == 2 ^ 64 - 1
    let bs := mergeMask p.mask (s.bytes p.pa 64) p.data
    s.execute p { writes := [(p.pa, bs)], pset := if bad && !full then [p.pa / 64] else [], pclr := if full then [p.pa / 64] else [], reply := { written p p.mask 64 with pois := if bad && !full then [0] else [] } }
/-- The new value of an atomic, or none when nothing is written (09 R215). -/
def atomicNew (aop : Nat) (old v c : W64) : Option W64 :=
  match aop with
  | 0 => some (old + v)
  | 1 => some (old &&& v)
  | 2 => some (old ||| v)
  | 3 => some (old ^^^ v)
  | 4 => some (if old.toInt ≤ v.toInt then old else v)
  | 5 => some (if old.toInt ≤ v.toInt then v else old)
  | 6 => some (if old.toNat ≤ v.toNat then old else v)
  | 7 => some (if old.toNat ≤ v.toNat then v else old)
  | 8 => some v
  | _ => if old = c then some v else none
/-- AT (R78): a duplicate is answered from the filter; a poisoned granule is left, and the reply is poisoned; otherwise the
new value is written and the filter takes the old one. -/
def execAt (s : State) : Out :=
  atHome s fun s p =>
    match s.recall p with
    | some r => s.sendReply r
    | none =>
      let old := BitVec.ofNat 64 (s.num p.pa 8)
      if s.gpois.contains (p.pa / 64) then s.sendReply { replyTo p with val := old, pois := [0] }
      else
        let w := match atomicNew p.aop old p.v p.c with | some v => [(p.pa, bytesOf 8 v.toNat)] | none => []
        s.execute p { writes := w, filt := true, reply := { replyTo p with val := old } }

-- Reduction objects (09 R217 to R223) ------------------------------------------------------------------------------

/-- RC_DECLARATION (R217): a home records a piece, or refuses it: 64 live pieces (FULL), or a live object there (OVERLAP). -/
def execRcDeclaration (s : State) : Out :=
  atHome s fun s p =>
    match s.recall p with
    | some r => s.sendReply r
    | none =>
      let mine := s.reds.filter fun x => x.home == p.home
      let d := descOf p.rc.desc
      let size := p.rc.rows * rowBytes p.rc.cols d.wd
      let bytes := min 4096 (size - 4096 * p.rc.pc)
      if mine.any fun x => x.pa == p.pa then s.execute p { filt := true, reply := { replyTo p with st := 7 } }
      else if 64 ≤ mine.length then s.execute p { filt := true, reply := { replyTo p with st := 6 } }
      else
        let r : RedPiece := { home := p.home, pa := p.pa, bytes := bytes, lead := p.rc.lead, ctl := p.rc }
        s.execute p { filt := true, red := some r, reply := { replyTo p with st := 0 } }
/-- One element of a merge (R220): slice 0 replaces, a later slice is combined; the result is rounded into the target. -/
def mergeElem (first : Bool) (op : RedOp) (dt ds : Desc) (t v : Nat) : Nat :=
  let x := ds.decode v
  let y := dt.decode t
  dt.round (if first then x else match op with | .sum => y.add false x | .min => y.min x | .max => y.max x) .rne 0 false
/-- Merge(k) (R220): the piece's new bytes, and its granules' poison. -/
def State.merge (s : State) (r : RedPiece) (k : Nat) (data : List Byte) (desc : W64) (bad : List Nat) :
    List Byte × List Nat × List Nat :=
  let dt := descOf r.ctl.desc
  let ds := descOf desc
  let n := r.bytes * 8 / dt.wd
  let old := splitCodes dt.wd n (s.num r.pa r.bytes)
  let new := splitCodes dt.wd n (ofBytes data)
  let out := bytesOf r.bytes (joinCodes dt.wd ((old.zip new).map fun e => mergeElem (k == 0) r.ctl.op dt ds e.1 e.2))
  (out, bad.map fun g => r.pa / 64 + g, if k = 0 then granulesOf r.pa r.bytes else [])
/-- A slice merged, and then each held slice whose turn has come (R220). -/
def State.mergeAll (s : State) : Nat → RedPiece → Nat → List Byte → W64 → List Nat → State × RedPiece
  | 0, r, _, _, _, _ => (s, r)
  | f + 1, r, k, data, desc, bad =>
    let (bs, ps, pc) := s.merge r k data desc bad
    let s := s.apply r.home { writes := [(r.pa, bs)], pset := ps, pclr := pc }
    let r := { r with nx := k + 1 }
    match r.holds.find? fun h => h.1 == k + 1 with
    | some (j, d, ds, b) => s.mergeAll f { r with holds := r.holds.filter fun h => h.1 != j } j d ds b
    | none => (s, r)
/-- Whether a source descriptor is admitted at a target (R220). -/
def redAdmits (target src : W64) : Bool :=
  let ds := descOf src
  validDesc src && 1 ≤ ds.cls && ds.cls ≤ 5 && ds.wd == (descOf target).wd
/-- RC_CONTRIBUTION (R220, R221): MERGED, HELD, RETRY, DUP, RANGE or NOOBJ. RETRY alone is not recorded in the filter. -/
def execRcContribution (s : State) : Out :=
  atHome s fun s p =>
    match s.recall p with
    | some r => s.sendReply r
    | none =>
      let say (st : Nat) (keep : Bool) : Effect := { filt := keep, reply := { replyTo p with st := st } }
      match s.reds.find? fun x => x.home == p.home && x.pa == p.pa with
      | none => s.execute p (say 5 true)
      | some r =>
        let k := p.rc.k
        if r.ctl.k ≤ k || r.ctl.rows != p.rc.rows || r.ctl.cols != p.rc.cols || !redAdmits r.ctl.desc p.rc.desc then
          s.execute p (say 4 true)
        else if k < r.nx || r.holds.any fun h => h.1 == k then s.execute p (say 3 true)
        else if k = r.nx then
          let (s, r) := s.mergeAll (r.holds.length + 1) r k p.data p.rc.desc p.pois
          let done := r.nx = r.ctl.k
          let ps := (List.range (ceilDiv r.bytes 64)).map fun i => r.pa / 64 + i
          let e : Effect := { say 0 true with red := some { r with done := done }, writes := [(r.pa, s.bytes r.pa r.bytes)], pset := ps.filter s.gpois.contains, pclr := ps.filter fun g => !s.gpois.contains g }
          let s := s.execute p e
          if done then s.post 0 .reductionNotice { n := r.lead } else s
        else if total ((s.reds.filter fun x => x.home == p.home).map fun x => x.holds.length) < 64 then
          s.execute p { say 1 true with red := some { r with holds := r.holds ++ [(k, p.data, p.rc.desc, p.pois)] } }
        else s.execute p (say 2 false)

-- Replies ----------------------------------------------------------------------------------------------------------

/-- ATR (09 R215): the old value becomes ready, with the reply's poison; the operation is acknowledged. -/
def execAtr (s : State) : Out :=
  let r := s.arg.rep
  let s := (s.freeTag r).answer r.owner r.xid r.val (!r.pois.isEmpty)
  .next ((s.modActor r.owner fun a => a.dropOut r.xid).sideFree r.rq r.xid)
/-- A declaration's answers taken together: any refusal refuses the object; FULL before OVERLAP (log 24). -/
def worse (x y : Nat) : Nat := if x = 0 then y else if y = 0 then x else min x y
/-- RCA (09 R217, R221): what the answer of one piece does at the requester. -/
def execRca (s : State) : Out :=
  let r := s.arg.rep
  let s := s.freeTag r
  match s.xfer r.rq r.xid with
  | none => .next s
  | some x =>
    if r.kind == .rcDecl then
      let st := worse x.toRead (if r.st = 6 then 1 else if r.st = 7 then 2 else 0)
      let s := s.modXfer r.rq r.xid fun y => { y with left := y.left - 1, toRead := st }
      if 1 < x.left then .next s
      else
        let s := s.delXfer r.rq r.xid
        let s : State := if st = 0 then s else { s with reds := s.reds.filter fun y => y.lead != x.id }
        let s := s.answer x.actor x.id (BitVec.ofNat 64 st) false
        .next (s.modActor x.actor fun a => a.dropOut x.id)
    else
      match r.st with
      | 2 => .next (s.post 512 .rcRetry { rep := r })
      | 3 => .next (killActor s x.actor rReplyTwice)
      | 4 => .next (killActor s x.actor rTileBounds)
      | 5 => .next (killActor s x.actor rExtent)
      | _ => .next ((s.modXfer r.rq r.xid fun y => { y with left := y.left - 1 }).maybeDone r.rq r.xid)
/-- RC_RETRY (09 R221): the contribution is resent with its request ID to the home that asked for it, or to the mirror's if that plane is lost
meanwhile (R223), unless its actor has died. -/
def execRcRetry (s : State) : Out :=
  let r := s.arg.rep
  match s.xfer r.rq r.xid with
  | none => .next s
  | some x =>
    match x.pieces.find? fun p => p.off == r.piece with
    | some p =>
      let q : Packet := { contribPkt r.rq x.actor x.id r.pa p.off x.rc ((x.data.drop p.off).take p.len) with reqid := r.reqid, home := r.home }
      let dead := match r.home with | .plane k => s.planeDead k | _ => false
      .next (if !s.alive x.actor then s else if dead then s.rehome q else s.sendAgain q)
    | none => .next s

/-- SCRUB (21 R391): every granule that a slice or a plane serves has been read; those that cannot be corrected (a free value) are
poisoned. The next is due 24 hours later. -/
def execScrub (s : State) : Out :=
  let bad := (Config.badGranules s.free).filter s.struckAt
  let s := s.freshVal
  .next (({ s with gpois := bad.foldl insNat s.gpois } : State).post oneDay .scrub {})

end Sys2Proof.Machine
end

