-- ==== Sys2Proof/Machine/Messages.lean ====
section
/-! DEFINITION. Messages (11 R260 to R274): their bytes and check, sequence numbers, release at a commit point, delivery in
order (14 R314 to R316), tiles and relays on their way (05 R127 to R130), replies, exit signals (16 R347) and the events of
all these. -/

namespace Sys2Proof.Machine

-- Bytes of a message (R260, R261) ----------------------------------------------------------------------------------

/-- The header doubleword. -/
def msgHeader (m : Msg) : Nat :=
  m.seq % 2 ^ 16 * 2 ^ 48 + m.rgen.val * 2 ^ 21 + m.slot.val * 2 ^ 18 + m.caps.length * 2 ^ 15 + m.plen * 2 ^ 12 +
    ofBool m.rep * 2 ^ 11 + ofBool m.down * 2 ^ 10 + ofBool m.exit * 2 ^ 9 + ofBool m.bounce * 2 ^ 8 + ofBool m.call * 2 ^ 7 +
    m.cprio.val * 2 ^ 4 + m.chan.val
/-- Bytes 0 to 119 of a message. -/
def msgBody (m : Msg) : List Byte :=
  bytesOf 8 m.dest.toNat ++ bytesOf 8 m.sender.toNat ++ bytesOf 8 (msgHeader m) ++
    ((List.range 4).map fun i => bytesOf 8 (if i < m.plen then (m.m.getD i 0).toNat else 0)).flatten ++
    ((List.range 4).map fun i => if i < m.caps.length then bytesOf 16 (tileBits (m.caps.getD i {})) else List.replicate 16 0).flatten
/-- The 128 bytes of a message with its check. -/
def msgBytes (m : Msg) : List Byte := msgBody m ++ bytesOf 8 (crc64 0 (msgBody m))
/-- The message that 120 bytes hold: at most four tiles, each with the capability that its bytes make; a field of a capability that no entry
has reads as its lowest value (DESIGN CHOICE, log 119). -/
def msgOf (bs : List Byte) : Msg :=
  let d (i : Nat) := ofBytes ((bs.drop (8 * i)).take 8)
  let h := d 2
  let cap (k : Nat) : TileEnt :=
    let v := d (7 + 2 * k) + 2 ^ 64 * d (8 + 2 * k)
    { loc := BitVec.ofNat 56 (bits v 127 72), pitch := BitVec.ofNat 24 (bits v 71 48), rows := BitVec.ofNat 8 (bits v 47 40), cols := BitVec.ofNat 11 (bits v 39 29), fmt := Fin.ofNat 16 (bits v 28 25), bar := if bits v 24 21 ≤ 8 then Fin.ofNat 9 (bits v 24 21) else 0, glob := bit v 13 }
  { dest := BitVec.ofNat 64 (d 0), sender := BitVec.ofNat 64 (d 1), seq := bits h 63 48, rgen := Fin.ofNat 16 (bits h 24 21)
    slot := Fin.ofNat 8 (bits h 20 18), plen := bits h 14 12, rep := bit h 11, down := bit h 10, exit := bit h 9, bounce := bit h 8
    call := bit h 7, cprio := Fin.ofNat 8 (bits h 6 4), chan := Fin.ofNat 16 (bits h 3 0)
    m := (List.range 4).map fun i => BitVec.ofNat 64 (d (3 + i)), caps := (List.range (min 4 (bits h 17 15))).map cap }

-- The overflow area (14 R315) --------------------------------------------------------------------------------------

/-- Bytes of an actor's overflow area in use: pair table, spilled messages, reorder entries and outbox entries, tile bytes. -/
def ovfUsed (a : Actor) : Nat :=
  16 * (a.pairs.filter fun p => !p.gone).length + 128 * (a.mbox.length - (if a.roaming then 0 else 16)) +
    total (a.pairs.map fun p => 128 * (p.held.length - 8)) + 128 * (a.outbox.length - 16) +
    total (a.mbox.map fun m => total (m.spill.map fun t => t.2.length))
/-- Whether the area holds what an actor keeps there. -/
def ovfFits (a : Actor) : Bool := ovfUsed a ≤ 65536 * 2 ^ a.ovf
/-- The pair-table entry of a peer. -/
def pairOf (a : Actor) (p : ActorName) : Pair := (a.pairs.find? fun x => x.peer == p).getD { peer := p }
/-- A pair-table entry replaced or made. -/
def Actor.setPair (a : Actor) (x : Pair) : Actor :=
  if a.pairs.any fun y => y.peer == x.peer then { a with pairs := a.pairs.map fun y => if y.peer == x.peer then x else y }
  else { a with pairs := a.pairs ++ [x] }
/-- A pair-table entry removed (R315): it takes no room any more. DEDUCED (log 32): the number expected of the peer stays, for
what the peer has sent before its death still arrives in its order (R316). -/
def Actor.dropPair (a : Actor) (p : ActorName) : Actor := { a with pairs := a.pairs.map fun x => if x.peer == p then { x with gone := true } else x }
/-- The first page of its area that what an actor keeps there needs and that is not mapped (R315); the area fills from its first page (log
110). -/
def State.gapFor (s : State) (a : Actor) : Option Nat :=
  ((List.range (ceilDiv (ovfUsed a) 65536)).map (a.ovfv + ·)).find? fun vp =>
    match s.backing a (areaRegion a) vp with | some b => b.moving | none => true
/-- The page of its area that an actor lacks is asked for. -/
def State.askArea (s : State) (n : ActorName) : State :=
  match s.gapFor (s.actor n) with | some vp => s.post 0 .walkRequest { actor := n, n := vp * 2 ^ 16, flag := true } | none => s
/-- An actor's new data, unless its overflow area is full: then it dies and the item is discarded (R315). -/
def State.keep (s : State) (a : Actor) : State := if ovfFits a then (s.setActor a).askArea a.name else killActor s a.name rOverflow
/-- A delivery that needs an unmapped page of its receiver's area is held until the page is MAPPED (R315). -/
def State.holdFor (s : State) (n : ActorName) (vp : Nat) (ev : Event) : State :=
  ({ s with held := s.held ++ [⟨n, ev⟩] } : State).post 0 .walkRequest { actor := n, n := vp * 2 ^ 16, flag := true }

-- Sequence numbers (R262, R283) ------------------------------------------------------------------------------------

/-- Key of a sender and a receiver. -/
def seqKey (from_ to_ : ActorName) : Nat := from_.toNat * 2 ^ 64 + to_.toNat
/-- The next number of a pair. -/
def State.seqOf (s : State) (from_ to_ : ActorName) : Nat := kvGet 0 s.seqs (seqKey from_ to_)
/-- The next number of a pair taken. -/
def State.takeSeq (s : State) (from_ to_ : ActorName) : State :=
  { s with seqs := kvSet s.seqs (seqKey from_ to_) ((s.seqOf from_ to_ + 1) % 2 ^ 16) }

-- Leaving ----------------------------------------------------------------------------------------------------------

/-- The agent that sends under a name (18 R365): the cell that runs its actor, the host port for the portal and the host, Astrolabe for any
other, on X0 or, under `twin`, on X1. -/
def State.agentOf (s : State) (n : ActorName) : Nat :=
  if s.has n then runCell (s.actor n) else if n == 0 || n == s.service 2 then 560 else if s.regs.twin then 562 else 561
/-- The cell at which a name's messages arrive: its actor's mailbox, or its agent's. -/
def State.cellOf (s : State) (n : ActorName) : Nat := if s.has n then (s.actor n).cell else entryCell (s.agentOf n)
/-- The event of a message at its receiver. -/
def msgEvent (g : EvArg) : Event := ⟨if g.msg.exit then .exitSignal else .messageArrival, g⟩
/-- A message sets out for its receiver on this module, with the bytes of its tiles; whether its check fails there is a free value (R261). -/
def State.sendOut (s : State) (g : EvArg) : State :=
  let rq := s.agentOf g.msg.sender
  s.freshVal.travel (entryCell rq) (s.cellOf g.msg.dest) rq (msgBytes g.msg :: (g.tiles.map tileParts).flatten)
    (msgEvent { g with flag2 := Config.messageBad s.free })
/-- A transfer of which one copy has landed, or never will: a give is over, a multicast once its last copy has (05 R120). -/
def Xfer.copyEnds (id : Nat) (x : Xfer) : Option Xfer :=
  if x.id != id || (x.kind != .give && x.kind != .mcast) then some x
  else if x.kind == .mcast && 1 < x.left then some { x with left := x.left - 1 }
  else none
/-- One copy of each of some transfers ends. -/
def State.endXfers (s : State) (ids : List Nat) : State :=
  ids.foldl (fun (t : State) id => if id = 0 then t else { t with cells := t.cells.map fun e => (e.1, { e.2 with xfers := e.2.xfers.filterMap (Xfer.copyEnds id) }) }) s
/-- The sender's side of a message that found no receiver (R269, 14 R315): counted, traced, its relay cleared, its tiles lost. -/
def State.dropped (s : State) (g : EvArg) : State :=
  let m := g.msg
  let s := ((s.clearRelay g.k).endXfers g.xids).modActor m.sender fun a => ({ a with drops := a.drops + 1 } : Actor).dropPair m.dest
  let s : State := { s with seqs := kvDel s.seqs (seqKey m.sender m.dest) }
  if s.has m.sender then s.trace 6 (s.actor m.sender) m.dest m.seq m.chan.val 0 else s
/-- Something for another module leaves for the fabric (18 R372, R373). -/
def State.toModule (s : State) (from_ : ActorName) (g : EvArg) : State :=
  s.fabricMessage (s.agentOf from_) (pkgOf g.msg.dest) (msgBytes g.msg) g
/-- Where a message goes once it has its number (R269, R420; 18 R372, R373): another module, a host queue, a live actor, or
nowhere. The Boolean says that it was stale. -/
def State.routeMsg (s : State) (g : EvArg) : State × Bool :=
  let m := g.msg
  if pkgOf m.dest != s.regs.aid then
    if s.peerDead (pkgOf m.dest) then (s.dropped g, false) else (s.toModule m.sender g, false)
  else if jobOf m.dest == 0 then
    if m.dest == s.service 2 && !m.exit then (s.post 0 .hostQueueWrite { n := m.chan.val % 4, msg := m }, false)
    else (s.dropped g, true)
  else if s.alive m.dest then (s.sendOut g, false)
  else (s.dropped g, true)
/-- A message that the part makes: it takes the next number of its pair, at priority 0 (R264, R283). Such a message is not
bounced. -/
def State.partMessage (s : State) (m : Msg) : State :=
  let q := s.seqOf m.sender m.dest
  ((s.takeSeq m.sender m.dest).routeMsg { msg := { m with seq := q, cprio := 0 } }).1
/-- BOUNCE (R269, 05 R128): the message returns on channel 15 without its tiles, from the name that it missed. -/
def State.bounce (s : State) (m : Msg) : State :=
  s.partMessage { dest := m.sender, sender := m.dest, chan := 15, bounce := true, plen := m.plen, m := m.m }
/-- A message for a stale name: dropped, and returned when flagged (R269). A reply and a message of the part never bounce. -/
def State.stale (s : State) (g : EvArg) : State :=
  let s := s.dropped g
  if g.msg.bounce && !g.msg.rep && g.msg.chan.val < 14 then s.bounce g.msg else s
/-- The contents of an exit signal (R283). -/
def exitMsg (from_ to_ : ActorName) (r : Reason) : Msg :=
  { dest := to_, sender := from_, chan := 15, exit := true, plen := 2, m := [from_, r.setWidth 64, 0, 0] }
/-- The contents of a DOWN notice (R283) and of the notices and reports that share its form (14 R325, 16 R355). -/
def downMsg (from_ to_ : ActorName) (m0 m1 m2 m3 : W64) (plen : Nat) : Msg :=
  { dest := to_, sender := from_, chan := 14, down := true, plen := plen, m := [m0, m1, m2, m3] }
/-- The messages for an actor that it has not met in their order: on their way, held for it, or early (R261, R316). -/
def State.coming (s : State) (n : ActorName) : List Msg :=
  let evs := s.agenda.map (·.ev) ++ s.wires.map (·.ev) ++ s.held.map (·.ev)
  ((((evs.filter fun e => e.ev == .messageArrival || e.ev == .messageResend).map (·.arg)) ++ ((s.actor n).pairs.map (·.held)).flatten).map (·.msg)).filter fun m => m.dest == n
/-- The senders of the DOWN notices of deaths that an actor has not met yet. -/
def State.downsComing (s : State) (n : ActorName) : List ActorName := ((s.coming n).filter fun m => m.down && m.m.getD 2 0 == 0).map (·.sender)
/-- A live-count notice (14 R325): it takes the next number of the pair of the actor whose death brought the count to 0, and follows the DOWN
notices of the other members, which it names (log 112). -/
def State.countMessage (s : State) (m : Msg) : State :=
  let q := s.seqOf m.sender m.dest
  ((s.takeSeq m.sender m.dest).routeMsg { msg := { m with seq := q, cprio := 0 }, nats := (s.downsComing m.dest).map (·.toNat) }).1

-- Kills by name (R282) ---------------------------------------------------------------------------------------------

/-- A cohort that holds an actor. -/
def State.cohortOf (s : State) (n : ActorName) : Option Cohort :=
  s.cohorts.find? fun c => c.job == jobOf n && c.serial ≤ serialOf n && serialOf n < c.serial + c.n
/-- The live members of a cohort, in the order of their serials. -/
def State.members (s : State) (c : Cohort) : List Actor :=
  sortBy (fun (a : Actor) => serialOf a.name) (s.all.filter fun a =>
    a.shadow.isNone && jobOf a.name == c.job && c.serial ≤ serialOf a.name && serialOf a.name < c.serial + c.n && a.st != .dying)
/-- The serials whose trees cover an actor of serial `n`: its own and those above it, dead ones of which something lives included (14 R324). -/
def State.lineage (s : State) (job : Nat) : Nat → Nat → List Nat
  | 0, _ => []
  | f + 1, n => match s.trees.find? fun t => t.job == job && t.serial == n with
    | some t => n :: (if jobOf t.sup == job then s.lineage job f (serialOf t.sup) else [])
    | none => []
/-- An actor and every live actor below it in the supervision tree (14 R324). -/
def State.below (s : State) (n : ActorName) : List ActorName :=
  (s.all.filter fun a => a.shadow.isNone && jobOf a.name == jobOf n &&
    (s.lineage (jobOf n) s.trees.length (serialOf a.name)).contains (serialOf n)).map (·.name)
/-- A kill with reason KILLED; `final` bars a restart (R282). An actor in TRANSIT takes it after COMMIT. -/
def State.killBy (s : State) (final : Bool) (n : ActorName) : State :=
  if !s.alive n then s
  else if (s.actor n).st == .transit then { s with held := s.held ++ [⟨n, ⟨.dying, { actor := n, n := rKilled.toNat, flag := final }⟩⟩] }
  else killActor (if final then s.modActor n fun a => { a with nokick := true } else s) n rKilled
/-- A kill of an actor of another module leaves for it, with its reason and its level; no exit signal. Its form is the model's own (log 111). -/
def State.killOrder (s : State) (from_ target : ActorName) (r : Reason) (lv : KillLevel) : State :=
  if s.peerDead (pkgOf target) then s
  else s.toModule from_ { msg := { dest := target, sender := from_, plen := 2, m := [from_, r.setWidth 64, 0, 0] }, actor := from_, lv := some lv }
/-- The targets of `kill` (R282). A target on another module is that module's to end. -/
def State.killLevel (s : State) (from_ target : ActorName) (lv : KillLevel) : State :=
  if pkgOf target != s.regs.aid then s.killOrder from_ target rKilled lv
  else match lv with
    | .act => s.killBy false target
    | .coh =>
      match s.cohortOf target with
      | some c => if s.alive target then ((s.members c).map (·.name)).foldl (State.killBy · true) s else s
      | none => s.killBy false target
    | .tree => if s.alive target then (s.below target).foldl (State.killBy · true) s else s
    | .job =>
      if s.alive target then
        ((s.all.filter fun a => jobOf a.name == jobOf target && a.shadow.isNone && !isBoot a.name).map (·.name)).foldl (State.killBy · true) s
      else s

-- Eligibility (14 R317) ------------------------------------------------------------------------------------------

/-- A waiting message's eligibility (14 R317), and that its bytes and its relay buffer are in place (05 R128, R130). -/
def State.runnable (s : State) (a : Actor) (m : Mail) : Bool :=
  let ch := m.msg.chan.val
  let open_ (x : Mail) : Bool := !bit a.chmask x.msg.chan.val && ((s.image a).handlers.getD x.msg.chan.val {}).valid
  open_ m && ch < 16 && !a.fresh &&
  !(a.mbox.any fun x => x.arr < m.arr && x.msg.sender == m.msg.sender && open_ x) &&
  (if m.latch != 0 then (s.cell a.cell).lbSrc == m.latch && (s.cell a.cell).lbOwner == a.name
   else !((List.range m.msg.caps.length).any fun k => (tileAt a (28 + k)).state == .latched)) &&
  m.wait.isEmpty
/-- The message that an actor starts next: the highest carried priority, the oldest on a tie (R317). -/
def State.nextMail (s : State) (a : Actor) : Option Mail := minBy (fun (m : Mail) => 7 - m.msg.cprio.val) (a.mbox.filter (s.runnable a))
/-- An IDLE actor with a message that it can start is READY (R311). -/
def State.refresh (s : State) (n : ActorName) : State :=
  let a := s.actor n
  if s.has n && a.st == .idle && (s.nextMail a).isSome then s.setActor { a with name := n, st := .ready } else s
/-- A name enters a cell's cache of 1,024 (14 R307). -/
def State.cacheName (s : State) (c : Nat) (n : ActorName) : State :=
  s.modCell c fun e => { e with ncache := (n :: e.ncache.filter (· != n)).take 1024 }
/-- Astrolabe invalidates a cached name in every network interface (14 R307). -/
def State.forgetName (s : State) (n : ActorName) : State :=
  { s with cells := s.cells.map fun e => (e.1, { e.2 with ncache := e.2.ncache.filter (· != n) }) }

-- Release (R262) ---------------------------------------------------------------------------------------------------

/-- Traffic of a message to a seated actor of the same job on this module (15 R330). -/
def State.countTraffic (s : State) (a : Actor) (g : EvArg) (multi : Bool) : State :=
  let p := s.actor g.msg.dest
  let relay := if g.k = 0 then 0 else total (g.msg.caps.map fun e => tileSize e (descOf (descVal a e)))
  if multi || a.roaming || !s.alive p.name || p.roaming || p.name == a.name || jobOf p.name != jobOf a.name || jobOf a.name == 0 then s
  else
    let u := ceilDiv (128 + total (g.tiles.map List.length) + relay) 64
    s.modCell a.cell fun c => { c with seats := modAt c.seats a.seat fun st =>
      let t := st.traffic
      let i := match findIdx (fun e => e.v && e.pser == serialOf p.name) t with
        | some i => i
        | none => match findIdx (fun e => !e.v) t with
          | some i => i
          | none => (minBy (fun i => (t.getD i {}).cnt) (List.range 4)).getD 0
      let e := t.getD i {}
      let e : Traffic := { cnt := min ((if e.v then e.cnt else 0) + u) (2 ^ 24 - 1), pcell := p.cell, pser := serialOf p.name, v := true }
      { st with traffic := t.set i e } }
/-- The transfer that carries each tile of a message, if its bytes travel. -/
def State.carriers (s : State) (c : Nat) (m : Msg) (xids : List Nat) : List (Option Xfer) :=
  let datas := xids.filterMap fun id => s.xfer c id
  (List.range m.caps.length).map fun k => datas.find? fun x => x.k == k
/-- A message that will not leave: its tiles and its relay go no further. -/
def State.discard (s : State) (o : OutItem) : State := ((outboxXids [o]).foldl State.clearRelay s).endXfers (outboxXids [o])
/-- A message leaves: it takes the next number of its pair, and a child's start message lets it run (R276). `relay` is the relay
whose message it is. A sender whose area has no room for the pair's entry dies, and the message is discarded (14 R315). -/
def State.releaseMsg (s : State) (a : Actor) (m : Msg) (xids : List Nat) (relay : Nat) : State :=
  let q := s.seqOf a.name m.dest
  let l := s.carriers a.cell m xids
  let g : EvArg := { msg := { m with seq := q, cprio := Fin.ofNat 8 a.eprio }, tiles := l.map fun x => (x.map (·.data)).getD [], xids := l.map fun x => (x.map (·.id)).getD 0, k := relay }
  let now := s.actor a.name
  let s := if s.alive a.name then s.keep (now.setPair { pairOf now m.dest with gone := false }) else s
  if s.has a.name && (s.actor a.name).debt == some rOverflow then s.discard (.msg m (relay :: xids))
  else
    let s := s.countTraffic a g (l.any fun x => match x with | some y => y.kind == .mcast | none => false)
    let s := (s.takeSeq a.name m.dest).trace 3 a m.dest q m.chan.val 0
    let (s, st) := (s.cacheName a.cell m.dest).routeMsg g
    let s := (s.modActor m.dest fun (b : Actor) => if b.supn == a.name then { b with fresh := false } else b).refresh m.dest
    if st && g.msg.bounce && !g.msg.rep then s.bounce g.msg else s
/-- One outbox entry leaves (R262). -/
def State.releaseItem (s : State) (a : Actor) (o : OutItem) : State :=
  match o with
  | .child _ => s
  | .msg m xids => s.releaseMsg a m xids 0
  | .relay m id => s.releaseMsg a m [] id
  | .sig t r =>
    let q := s.seqOf a.name t
    ((s.takeSeq a.name t).routeMsg { msg := { exitMsg a.name t r with seq := q } }).1
  | .kill t lv => s.killLevel a.name t lv
/-- The bytes of an outbox entry in an output stream, `seq` 0 (21 R394). -/
def outBytes (a : Actor) : OutItem → List Byte
  | .child _ => []
  | .msg m _ | .relay m _ => msgBody { m with seq := 0, cprio := Fin.ofNat 8 a.eprio, sender := selfName a }
  | .sig t r => msgBody (exitMsg (selfName a) t r)
  | .kill t _ => msgBody { exitMsg (selfName a) t rKilled with exit := false }
/-- The commit point of R262, the issuing actor's: it waits for acknowledgements, then every entry leaves in program order
(in a shadow run into the signature alone). -/
def commit (s : State) : Res State :=
  let a := s.cur
  if !a.commitReady then Stall s
  else
    let s := s.logOut a (a.outbox.map (outBytes a)).flatten
    let s := s.setCur { a with outbox := [] }
    if a.shadow.isSome then .ok s
    else .ok (a.outbox.foldl (fun (t : State) o => if t.cur.debt == some rOverflow then t.discard o else t.releaseItem a o) s)

-- Delivery (14 R314 to R316, 05 R128) ------------------------------------------------------------------------------

/-- Whether a capability names bytes that travel. -/
def travels (e : TileEnt) : Bool := !e.glob
/-- Whether an inbox zone is in use: by the invocation in progress, or by a waiting message whose tile lies in it. -/
def zoneBusy (a : Actor) (k : Nat) : Bool :=
  (a.zones.getD k {}).held || a.mbox.any fun m => m.latch == 0 && (m.msg.caps.getD k { glob := true }).glob == false && !m.spill.any fun t => t.1 == k
/-- Whether an actor keeps its mail in its overflow area or has no place for a tile (R128). -/
def noZone (a : Actor) (k : Nat) (e : TileEnt) (n : Nat) : Bool :=
  travels e && (a.roaming || (a.zones.getD k {}).bytes == 0 || (a.zones.getD k {}).bytes < n)
/-- The bytes of tile `k` of a message. -/
def tileBytes (g : EvArg) (k : Nat) : List Byte := g.tiles.getD k []
/-- Whether the receiver has no place for a tile of a message, which then returns (R128). -/
def noPlace (t : Actor) (g : EvArg) : Bool := g.k = 0 && (g.msg.caps.mapIdx fun k e => (k, e)).any fun c => noZone t c.1 c.2 (tileBytes g c.1).length
/-- The tiles of a message whose bytes land at its receiver. -/
def landing (g : EvArg) : List Nat := if g.k = 0 then ((g.msg.caps.mapIdx fun k e => (k, e)).filter fun c => travels c.2).map (·.1) else []
/-- A receiver's data with a message in its mailbox: tiles with a free zone will land there, tiles whose zone is in use in the overflow area. -/
def Actor.mailed (t : Actor) (g : EvArg) : Actor :=
  let spill := ((landing g).filter (zoneBusy t)).map fun k => (k, List.replicate (tileBytes g k).length (0 : Byte))
  { t with mbox := t.mbox ++ [{ msg := g.msg, arr := t.nmail, wait := landing g, spill := spill, latch := g.k }], nmail := t.nmail + 1 }
/-- A message put into its receiver's mailbox, where its bytes land; a tile without a place returns the message (R128). -/
def State.mail (s : State) (t : Actor) (g : EvArg) : State :=
  let m := g.msg
  if noPlace t g then (s.endXfers g.xids).bounce m
  else
    let s := s.setActor (t.mailed g)
    let s := ((landing g).filter fun k => k < g.tiles.length).foldl (fun (u : State) k => u.post 0 .tileLanded { actor := t.name, other := m.sender, n := m.seq, m := k, tiles := [tileBytes g k], xids := [g.xids.getD k 0] }) s
    (s.trace 4 t m.sender m.seq m.chan.val 0).refresh t.name
/-- Whether a message in its order goes to the mailbox: no reply does, nor an exit signal that the mask lets through (16 R347). -/
def mailable (t : Actor) (g : EvArg) : Bool :=
  !g.msg.rep && (!g.msg.exit || g.msg.bounce || bit t.xmask (groupOf ((g.msg.m.getD 1 0).setWidth 8))) && !noPlace t g
/-- A receiver's data once it has taken a message, as far as its overflow area is concerned. -/
def Actor.taken (t : Actor) (g : EvArg) : Actor := if mailable t g then t.mailed g else t
/-- An exit signal met in its order (16 R347). -/
def State.signal (s : State) (t : Actor) (g : EvArg) : State :=
  let r : Reason := (g.msg.m.getD 1 0).setWidth 8
  if bit t.xmask (groupOf r) then s.mail t g
  else if groupOf r = 0 then s
  else killActor s t.name rLinked
/-- A message in its order: a reply to its slot, a signal to the exit mask, any other to the mailbox. A death notice removes the pair's entry
(R315). -/
def State.deliver (s : State) (g : EvArg) : State :=
  let t := s.actor g.msg.dest
  let s := if g.msg.rep then s.post 0 .replyArrival g else if g.msg.exit && !g.msg.bounce then s.signal t g else s.mail t g
  if (g.msg.exit || (g.msg.down && g.msg.m.getD 2 0 == 0)) && !s.alive g.msg.sender then s.modActor t.name fun a => a.dropPair g.msg.sender else s
/-- A message whose turn it is, for a receiver's data `t` in which the pair expects the next: a receiver without room for it dies, one
without the page for it waits (R315). The Boolean says that it was delivered. -/
def State.accept (s : State) (t : Actor) (g : EvArg) : State × Bool :=
  if !ovfFits (t.taken g) then ((killActor s t.name rOverflow).endXfers g.xids, false)
  else match s.gapFor (t.taken g) with
    | some vp => (s.holdFor t.name vp (msgEvent g), false)
    | none => ((s.setActor t).deliver g, true)
/-- The messages held for their order that now follow (R316). -/
def State.follow (s : State) (to_ from_ : ActorName) : Nat → State
  | 0 => s
  | f + 1 =>
    let a := s.actor to_
    let p := pairOf a from_
    match p.held.find? fun g => g.msg.seq == p.exp with
    | none => s
    | some g =>
      if !s.alive to_ then s
      else
        let p := { p with held := p.held.filter fun x => x.msg.seq != g.msg.seq }
        let (s, ok) := (s.setActor (a.setPair p)).accept (a.setPair { p with exp := (p.exp + 1) % 2 ^ 16 }) g
        if ok then s.follow to_ from_ f else s
/-- R316: delivered, held, or a duplicate. A message for the portal goes to its host queue (R420); a count notice waits for the notices that
it follows (14 R325). -/
def State.arrive (s : State) (g : EvArg) : State :=
  let t := s.actor g.msg.dest
  let n := g.msg.dest
  if n == s.service 2 && !g.msg.exit then s.post 0 .hostQueueWrite { n := g.msg.chan.val % 4, msg := g.msg }
  else if !s.alive n then s.stale g
  else if t.st == .transit then { s with held := s.held ++ [⟨n, msgEvent g⟩] }
  else if (s.downsComing n).any fun d => g.nats.contains d.toNat then s.post 1 .messageArrival g
  else
    let p := pairOf t g.msg.sender
    let d := (g.msg.seq + 2 ^ 16 - p.exp) % 2 ^ 16
    if d = 0 then
      let (s, ok) := s.accept (t.setPair { p with exp := (p.exp + 1) % 2 ^ 16 }) g
      if ok then s.follow n g.msg.sender p.held.length else s
    else if d < 32768 then
      let u := t.setPair { p with held := (p.held.filter fun x => x.msg.seq != g.msg.seq) ++ [g] }
      if !ovfFits u then (killActor s n rOverflow).endXfers g.xids
      else match s.gapFor u with
        | some vp => s.holdFor n vp (msgEvent g)
        | none => s.setActor u
    else s.trace 5 t g.msg.sender g.msg.seq g.msg.chan.val 0
/-- A message that its module will never take (16 R358): it is stale without a bounce; a sender whose tile's bytes are not acknowledged dies. -/
def State.peerDrops (s : State) (g : EvArg) : State :=
  if g.actor != 0 then s
  else
    let s := s.dropped { g with k := 0 }
    if g.tiles.any fun bs => !bs.isEmpty then killActor s g.msg.sender rPeerLost else s
/-- A message for another module is at the station of plane `n`, from requester `k` (18 R373): it enters, there or at the next live plane. -/
def State.atStation (s : State) (g : EvArg) : State :=
  let m := pkgOf g.msg.dest
  if s.peerDead m then s.peerDrops g
  else match s.livePlane g.n with
    | some k => s.enterStation k { module := some m, rq := g.k, msg := { g with flag := false } }
    | none => s
/-- A message whose check may have failed at its receiver is taken, or rejected and resent with its `seq` by a sender of this module (R261). -/
def State.checked (s : State) (g : EvArg) : State :=
  if !g.flag2 then s.arrive g else if pkgOf g.msg.sender == s.regs.aid then s.post 0 .messageResend g else s
/-- MESSAGE_ARRIVAL (R261, R316); `flag`: at a station of the fabric, on its way to another module. -/
def execMessageArrival (s : State) : Out := .next (if s.arg.flag then s.atStation s.arg else s.checked s.arg)
/-- MESSAGE_RESEND (R261): the same message, with the same `seq`. -/
def execMessageResend (s : State) : Out := .next (s.sendOut s.arg)
/-- EXIT_SIGNAL (16 R346, R347): an exit signal reaches its target in the order of its pair. -/
def execExitSignal (s : State) : Out := .next (s.checked s.arg)

/-- TILE_LANDED (05 R128): the bytes of a message's tile are in its zone, or in the overflow area; the transfer is over (05 R120). -/
def execTileLanded (s : State) : Out :=
  let g := s.arg
  let t := s.actor g.actor
  if s.alive g.actor && t.st == .transit then .next { s with held := s.held ++ [⟨g.actor, ⟨.tileLanded, g⟩⟩] }
  else
    let s := s.endXfers g.xids
    if !s.alive g.actor then .next s
    else match t.mbox.find? fun m => m.msg.sender == g.other && m.msg.seq == g.n with
      | none => .next s
      | some m =>
        let bs := g.tiles.headD []
        let sp := m.spill.any fun x => x.1 == g.m
        let upd (x : Mail) : Mail := { x with wait := x.wait.filter (· != g.m), spill := x.spill.map fun y => if y.1 == g.m then (y.1, bs) else y }
        let s := s.setActor { t with mbox := t.mbox.map fun x => if x.arr == m.arr then upd x else x }
        let k := regionKey t + (t.zones.getD g.m {}).off
        let s := if sp then s else (s.put k bs).spoisWrite k bs.length false
        .next (s.refresh g.actor)

-- Replies (R271, R272) ---------------------------------------------------------------------------------------------

/-- A reply is refused: its sender dies, on this module or on its own (R271, R272). -/
def State.refuse (s : State) (m : Msg) : State :=
  if pkgOf m.sender == s.regs.aid then killActor s m.sender rReplyTwice else s.killOrder m.dest m.sender rReplyTwice .act
/-- REPLY_ARRIVAL (R271): a reply fills its slot, is discarded, or is refused: then the replier dies. -/
def execReplyArrival (s : State) : Out :=
  let m := s.arg.msg
  let t := s.actor m.dest
  if !s.alive m.dest then .next s
  else if t.st == .transit then .next { s with held := s.held ++ [⟨m.dest, ⟨.replyArrival, s.arg⟩⟩] }
  else
    let y := t.ys.getD m.slot.val {}
    let put (y : ReplySlot) : Out := .next (s.setActor { t with ys := t.ys.set m.slot.val y })
    let late := { y with late := min (y.late + 1) 15 }
    if y.gen != m.rgen then put late
    else match y.st with
      | .free => put late
      | .pending => put { y with val := m.m.getD 0 0, pois := m.pois, st := .filled }
      | .filled => .next (s.refuse m)
/-- AWAIT_TIMEOUT (R273): an `await` whose slot is still PENDING ends. `m` names the wait. -/
def execAwaitTimeout (s : State) : Out :=
  let t := s.actor s.arg.actor
  let y := t.ys.getD s.arg.n {}
  if t.await == some s.arg.m && y.st == .pending then
    .next (s.modActor s.arg.actor fun a => { a with pend := some 1, ys := a.ys.set s.arg.n { y with st := .free } })
  else .next s

-- Multicast and relay (05 R129, R130) ------------------------------------------------------------------------------

/-- The broadcast bus of a cell: a row or a column of its die, as a number. -/
def busOf (c : Nat) (shape : Shape) : Nat :=
  match shape with | .column => dieOf c * 64 + 32 + cellX c % 16 | _ => dieOf c * 64 + cellY c % 8
/-- A cell's place on its bus. -/
def busPlace (c bus : Nat) : Nat := if bus % 64 < 32 then cellX c % 16 else cellY c % 8
/-- MCAST_BUS_SERVE (R129): a bus takes up the tile of the next waiting cell, round-robin in order of place; of several that wait in one cell
the one that issued first (DESIGN CHOICE, log 113). Without a receiver the transfer is over once the tile is read. -/
def execMcastBusServe (s : State) : Out :=
  let bus := s.arg.n
  let waits (x : Xfer) : Bool := x.kind == .mcast && x.bus == some bus && x.toRead != 0
  let cs := (s.cells.filter fun e => e.2.xfers.any waits).map (·.1)
  let last := kvGet 15 s.buses bus
  match minBy (fun c => (busPlace c bus + 16 - last - 1) % 16) cs with
  | none => .next s
  | some c =>
    match (s.cell c).xfers.find? waits with
    | none => .next s
    | some x =>
      let s : State := { s with buses := kvSet s.buses bus (busPlace c bus) }
      let k := regionKey (s.actor x.actor) + x.soff
      if s.spoisoned k x.bytes then .next (killActor s x.actor rPoison)
      else
        let s := if x.left = 0 then s.delXfer c x.id else s.modXfer c x.id fun y => { y with data := s.bytes k x.bytes, toRead := 0 }
        .next ((s.sourceRead x.actor x.src).modActor x.actor fun a => a.dropOut x.id)
/-- The bytes of a latch's tile, row by row. -/
def Latch.bytes (l : Latch) : List Byte :=
  let wd := (descOf l.desc).wd
  ((List.range l.rows).map fun r => bytesOf (rowBytes l.cols wd) (joinCodes wd ((l.codes.drop (r * l.cols)).take l.cols))).flatten
/-- RELAY_SEND (R130, 20 R388): a relay leaves once no earlier instruction of its actor still reads `lb` and the successor's
incoming buffer is free; otherwise, and while the successor is parked, it stays held. A successor that no longer lives takes nothing. -/
def execRelaySend (s : State) : Out :=
  let c := s.arg.n
  match s.xfer c s.arg.m with
  | none => .next s
  | some x =>
    let d := s.actor x.dest
    let reading := match (s.cell c).munit with | some j => j.readsLb && j.actor == x.actor | none => false
    let left (s : State) : State :=
      ((s.modXfer c x.id fun y => { y with toRead := 0 }).modCell c fun e => e.leaveLatch x.actor).modActor x.actor fun a => a.dropOut x.id
    if x.toRead = 0 || reading then .next s
    else if !s.alive x.dest then .next ((left s).delXfer c x.id)
    else if d.st == .transit then .next { s with held := s.held ++ [⟨x.dest, ⟨.relaySend, s.arg⟩⟩] }
    else if d.st == .parked || (s.cell d.cell).lbIn != 0 then .next (s.post 1 .relaySend s.arg)
    else
      let s := s.modCell d.cell fun e => { e with lbIn := x.dest, lbInSrc := x.id }
      .next ((left s).travel c d.cell c (tileParts x.latch.bytes) ⟨.relayArrival, { n := c, m := x.id }⟩)
/-- RELAY_ARRIVAL (R130): the buffer is in place; it becomes current once the latch is free. A relay whose message will never
come is cleared (10 R238). -/
def execRelayArrival (s : State) : Out :=
  match s.xfer s.arg.n s.arg.m with
  | none => .next s
  | some x =>
    let s := s.delXfer s.arg.n x.id
    let here (e : Cell) : Bool := e.lbInSrc == x.id
    let s : State := { s with cells := s.cells.map fun e => if here e.2 then (e.1, ({ e.2 with lbNext := { x.latch with loaded := true } } : Cell).promote) else e }
    let s := if x.k = 1 || !s.alive x.dest then s.clearRelay x.id else s
    .next (s.refresh x.dest)

-- Completion of a reduction object (09 R222) -----------------------------------------------------------------------

/-- REDUCTION_NOTICE (R222): once every piece of an object is merged, its lead home sends the completion message and the
object is released at every home. -/
def execReductionNotice (s : State) : Out :=
  let ps := s.reds.filter fun r => r.lead == s.arg.n && !r.mirror
  match ps.head? with
  | none => .next s
  | some r =>
    if ps.all (·.done) && ps.length == r.ctl.npc then
      let s : State := { s with reds := s.reds.filter fun x => x.lead != s.arg.n }
      .next (s.partMessage { dest := r.ctl.rcp, sender := r.ctl.iss, chan := Fin.ofNat 16 r.ctl.ch, plen := 4, m := [BitVec.ofNat 64 r.ctl.tva, BitVec.ofNat 64 r.ctl.k, 0, 0] })
    else .next s

end Sys2Proof.Machine
end

