-- ==== Sys2Proof/Machine/Place.lean ====
section
/-! DEFINITION. Placement and creation: cells, seats and regions (14 R308, 15 R338), the initial state of an actor from its
image (02 R54), locked regions (04 R96), live counts (14 R324), refusal codes (11 R278), and the event SPAWN_ANSWER. -/

namespace Sys2Proof.Machine

-- Cells (15 R338) --------------------------------------------------------------------------------------------------

/-- The seated actors of a cell. -/
def State.seated (s : State) (c : Nat) : List Actor := s.all.filter fun a => !a.roaming && a.st != .parked && a.cell == c
/-- The lowest free seat of a cell. -/
def State.freeSeat (s : State) (c : Nat) : Option Nat := (List.range 8).find? fun k => !(s.seated c).any fun a => a.seat == k
/-- Runs of 4 KiB units of a cell in use: first unit and length. -/
def State.unitRuns (s : State) (c : Nat) : List (Nat × Nat) := (s.seated c).map fun a => (a.base / 4096, a.size)
/-- The lowest free run of `z` units of 1,024. -/
def lowestRun (used : List (Nat × Nat)) (z : Nat) : Option Nat :=
  minBy id ((0 :: used.map fun u => u.1 + u.2).filter fun b => b + z ≤ 1024 && runFree used b z)
/-- The actors whose contexts occupy roaming slots of a cell. -/
def State.roamers (s : State) (c : Nat) : List Actor := s.all.filter fun a => a.roaming && a.rc && a.rcell == c
/-- A roaming slot that is free, or whose actor is between invocations (14 R313). -/
def State.slotFor (s : State) (c : Nat) : Option Nat :=
  match (List.range 8).find? fun k => !(s.roamers c).any fun a => a.rslot == k with
  | some k => some k
  | none => (minBy (fun (a : Actor) => a.ranAt) ((s.roamers c).filter fun a => a.st != .active)).map (·.rslot)
/-- The pairs of a cell: the one to its right or below is numbered 2c or 2c + 1 (15 R332). -/
def pairsOf (c : Nat) : List Nat :=
  [2 * c, 2 * c + 1] ++ (if cellX c = 0 then [] else [2 * (c - 1)]) ++ (if c < 32 then [] else [2 * (c - 32) + 1])
/-- Whether a cell belongs to an exchange between FREEZE and COMMIT. -/
def State.exchanging (s : State) (c : Nat) : Bool :=
  (pairsOf c).any fun k => match (kvGet {} s.pairs k).phase with | .freeze | .mark | .copy => true | .idle | .eval => false
/-- Whether a cell may take a new actor of a job: in service, out of boot mode, in no exchange, not draining for the job. -/
def State.openTo (s : State) (c job : Nat) : Bool :=
  let e := s.cell c
  e.health == 0 && !e.retire && !e.boot && e.drain != some job && !s.exchanging c
/-- The cost of a cell from a reference cell (R338). -/
def State.placeCost (s : State) (c r : Nat) : Nat :=
  let e := s.cell c
  dist c r + (if e.gated && !e.waking then s.regs.wake else 0)

/-- A place for an actor. -/
structure Spot where
  cell : Nat := 0
  seat : Nat := 0
  base : Nat := 0
  deriving DecidableEq, Repr

/-- The place that a cell offers an actor of `z` units, or a roaming actor. -/
def State.spotAt (s : State) (c job : Nat) (roaming : Bool) (z : Nat) : Option Spot :=
  if !s.openTo c job then none
  else if roaming then (s.slotFor c).map fun _ => { cell := c }
  else match s.freeSeat c, lowestRun (s.unitRuns c) z with
    | some k, some b => some { cell := c, seat := k, base := b * 4096 }
    | _, _ => none
/-- PLACEMENT (R338): the candidate of least cost, the lowest cell number on a tie. -/
def State.place (s : State) (job r : Nat) (roaming : Bool) (z : Nat) : Option Spot :=
  minBy (fun (p : Spot) => s.placeCost p.cell r) ((List.range 512).filterMap fun c => s.spotAt c job roaming z)

/-- How many regions of `z` units a cell still holds, at most `n`. -/
def regionsLeft (used : List (Nat × Nat)) (z : Nat) : Nat → Nat
  | 0 => 0
  | n + 1 => match lowestRun used z with
    | some b => regionsLeft ((b, z) :: used) z n + 1
    | none => 0
/-- The seats that a cell offers to actors of `z` units: cost, cell and seat. -/
def State.seatsAt (s : State) (c job r z : Nat) : List (Nat × Nat × Nat) :=
  if !s.openTo c job then []
  else
    let free := (List.range 8).filter fun k => !(s.seated c).any fun a => a.seat == k
    (free.take (regionsLeft (s.unitRuns c) z free.length)).map fun k => (s.placeCost c r, c, k)
/-- The cells of the buses of a shape, in ascending order of the bus's lowest cell; cells in ascending place. -/
def busCells (shape : Shape) : List (List Nat) :=
  match shape with
  | .any => []
  | .row => (List.range 32).map fun i => (List.range 16).map fun x => i / 2 * 32 + i % 2 * 16 + x
  | .column => (List.range 64).map fun i => (List.range 8).map fun y => (i / 32 * 8 + y) * 32 + i % 32
/-- The seats of a cohort of shape `row` or `column`: the bus whose `n` cheapest seats cost least, in ascending order of cell
and seat. Several may lie in one cell, as R338 says; the run of 20 R389 takes one of each (DEDUCED, log 125). -/
def State.placeBus (s : State) (job r z n : Nat) (shape : Shape) : Option (List (Nat × Nat)) :=
  let offers := (busCells shape).filterMap fun cs =>
    let l := (sortBy (fun (e : Nat × Nat × Nat) => e.1) ((cs.map fun c => s.seatsAt c job r z).flatten)).take n
    if l.length = n then some l else none
  (minBy (fun l => total (l.map fun (e : Nat × Nat × Nat) => e.1)) offers).map fun l =>
    sortBy (fun (e : Nat × Nat) => e.1 * 8 + e.2) (l.map fun e => e.2)

/-- A member to be placed: its name, its image, the cell that the host chose (21 R402; none where the part chooses), and its reference cell
(R338). -/
structure Cand where
  name : ActorName := 0
  img  : Nat := 0
  host : Option Nat := none
  ref  : Nat := 0
  deriving DecidableEq, Repr
/-- Places for the members of a creation, chosen one after another: a gated cell that one of them has chosen costs the next its distance
alone (R338). -/
def State.placeEach (s : State) (job : Nat) (f : File) : List Cand → Option (List Spot)
  | [] => some []
  | x :: rest =>
    let im := f.images.getD x.img {}
    let p := match x.host with | some c => s.spotAt c job im.roaming im.spsize | none => s.place job x.ref im.roaming im.spsize
    match p with
    | none => none
    | some p =>
      let s := s.setActor { name := x.name, roaming := im.roaming, cell := p.cell, seat := p.seat, base := p.base, size := im.spsize }
      let s := if (s.cell p.cell).gated then s.modCell p.cell fun e => { e with waking := true } else s
      (s.placeEach job f rest).map fun l => p :: l
/-- Places on the seats of one bus; a roaming member has no seat. -/
def State.placeOnBus (s : State) (job r : Nat) (f : File) (shape : Shape) (who : List (ActorName × Nat)) : Option (List Spot) :=
  let ims := who.map fun w => f.images.getD w.2 {}
  if ims.any (·.roaming) then none
  else
    let z := (ims.map (·.spsize)).foldl max 0
    match s.placeBus job r z who.length shape with
    | none => none
    | some seats =>
      let step (acc : State × List Spot) (e : (ActorName × Nat) × (Nat × Nat)) : State × List Spot :=
        let im := f.images.getD e.1.2 {}
        let b := (lowestRun (acc.1.unitRuns e.2.1) im.spsize).getD 0 * 4096
        let p : Spot := { cell := e.2.1, seat := e.2.2, base := b }
        (acc.1.setActor { name := e.1.1, cell := p.cell, seat := p.seat, base := b, size := im.spsize }, acc.2 ++ [p])
      some ((who.zip seats).foldl step (s, [])).2
/-- Whether cells lie on one bus of a shape (R338; 05 R129). -/
def oneBus (shape : Shape) (cells : List Nat) : Bool := shape == .any || cells.all fun c => busOf c shape == busOf (cells.headD 0) shape
/-- Places for all members, or none. Each has its own reference cell; the bus of a shaped cohort is chosen from member 0's (DESIGN CHOICE, log
114). Cells that the host chose must fit the shape (R402). -/
def State.placeAll (s : State) (job r : Nat) (f : File) (shape : Shape) (q : SpawnReq) (who : List (ActorName × Nat)) : Option (List Spot) :=
  if q.cells.isEmpty && shape != .any then s.placeOnBus job (q.refs.headD r) f shape who
  else if !oneBus shape q.cells || (shape != .any && who.any fun w => (f.images.getD w.2 {}).roaming) then none
  else s.placeEach job f (who.mapIdx fun i w => { name := w.1, img := w.2, host := q.cells[i]?, ref := q.refs.getD i r })

-- The initial state of an actor (02 R54) ---------------------------------------------------------------------------

/-- What a layout record defines. -/
def Actor.layout (a : Actor) : LayRec → Actor
  | .tile h ready fmt bar off rows cols =>
    let e : TileEnt := { loc := BitVec.ofNat 56 off, rows := BitVec.ofNat 8 rows, cols := BitVec.ofNat 11 cols, fmt := Fin.ofNat 16 fmt, bar := Fin.ofNat 9 bar, state := if ready then .ready else .empty }
    { a with tiles := a.tiles.set h e }
  | .inbox k off bytes => { a with zones := a.zones.set k { off := off, bytes := bytes } }
  | .data _ _ _ => a
  | .ring q first n => { a with rings := a.rings.set q { def_ := true, first := first, count := n } }
  | .barrier b v => { a with bars := a.bars.set b { count := v } }
/-- The seed that a generator takes for 0 (06 R150). -/
def seedOf (v : W64) : W64 := if v = 0 then 0x9E3779B97F4A7C15 else v
/-- A new actor from its image. -/
def newActor (im : Image) (f : File) (img : Nat) (n supn : ActorName) (p : Spot) (pmax : Nat) : Actor :=
  let a : Actor := { name := n, supn := supn, file := f.handle, img := img, roaming := im.roaming, cell := p.cell, seat := p.seat, base := p.base, size := im.spsize, bprio := min im.prio pmax, xmask := im.xmask, ovf := im.ovf, chmask := im.chmask, gen := seedOf im.seed }
  im.lays.foldl Actor.layout { a with fmts := im.fmts.foldl (fun l e => l.set e.1 e.2) a.fmts }
/-- The region or private window of a new actor: zeros, then the image's data (R54). -/
def State.initRegion (s : State) (a : Actor) (im : Image) (f : File) : State :=
  let k := regionKey a
  let n := regionSize a
  let s : State := (s.zero k n)
  let s : State := { s with spois := s.spois.filter fun x => x < k / 32 || (k + n) / 32 ≤ x }
  if im.roaming then s.put k (s.bytes (f.rodata + im.win) im.winsz)
  else im.lays.foldl (fun (t : State) r => match r with
    | .data off bytes src => t.put (k + off) (t.bytes (f.rodata + src) bytes)
    | _ => t) s

-- Locked regions (04 R96, R98) -------------------------------------------------------------------------------------

/-- The key of a region of an actor among the runs that the host has named. -/
def runKey (n : ActorName) (ri : Nat) : Nat := n.toNat * 32 + ri
/-- A locked host region backed by the run that the host has named, zeroed (R96, R97; 21 R402). -/
def State.backHost (s : State) (q : SpawnReq) (a : Actor) (ri : Nat) (r : RegionRec) (vp n : Nat) : Option State :=
  match kvGet none q.runs (runKey a.name ri) with
  | some p => some { s.zero (p * 2 ^ 16) (n * 2 ^ 16) with backs := s.backs ++ [{ job := jobOf a.name, owner := backOwner a r, vpage := vp, npg := n, ppage := p, kind := .host, locked := true }] }
  | none => none
/-- The entry of a locked region: a private region backed anew, a commons region's run; none when it cannot be backed. A user that is spawned
before the owner has the run backed at its own spawn, and the owner receives it: R96 does not say who comes first (DESIGN CHOICE, log 115). -/
def State.lockOne (s : State) (q : SpawnReq) (a : Actor) (ri : Nat) (r : RegionRec) : Option (State × Ext) :=
  let vp := r.vbase / 2 ^ 16
  let n := r.size / 2 ^ 16
  match s.backing a r vp with
  | some b =>
    let (v, m, p) := s.extentFor a r b
    if v ≤ vp && vp + n ≤ v + m then some (s, s.mkExt a ri r vp n (p + (vp - v)) true false) else none
  | none =>
    let o := backOwner a r
    if s.backs.any fun b => b.job == jobOf a.name && b.owner == o && vp < b.vpage + b.npg && b.vpage < vp + n then none
    else match (if r.kind == .host then s.backHost q a ri r vp n else s.backAs a r vp vp n) with
      | some t => (t.backing a r vp).map fun b => (t, t.mkExt a ri r vp n (b.ppage + (vp - b.vpage)) true false)
      | none => none
/-- The locked entries of an actor, in the order of its records. -/
def State.lockAll (s : State) (q : SpawnReq) (a : Actor) : List (Nat × RegionRec) → Option (State × List Ext)
  | [] => some (s, [])
  | (ri, r) :: rest => match s.lockOne q a ri r with
    | none => none
    | some (t, e) => (t.lockAll q a rest).map fun x => (x.1, e :: x.2)
/-- The owners that a first spawn from an image fixes (R98). -/
def State.ownRegions (s : State) (a : Actor) (im : Image) : State :=
  (im.regions.filter fun r => r.share == .owner).foldl (fun (t : State) r => t.modJob (jobOf a.name) fun j =>
    if j.owners.any fun o => o.1 == r.sym then j else { j with owners := j.owners ++ [(r.sym, serialOf a.name)] }) s
/-- The lowest place for a context block that no actor has (14 R310, R312; the places are the model's, log 8). -/
def State.freeBlock (s : State) : Nat :=
  let at_ (k : Nat) : Nat := contextPage * 2 ^ 16 + 8192 * k
  match (List.range 65536).find? fun k => !s.all.any fun a => a.cbp == at_ k with | some k => at_ k | none => 0
/-- One actor made at its place: its cell wakes, with its scratchpad zeroed, if it was gated (15 R339); none when a locked region cannot be backed. -/
def State.make (s : State) (q : SpawnReq) (f : File) (n supn : ActorName) (img : Nat) (p : Spot) (fresh : Bool) : Option State :=
  let im := f.images.getD img {}
  let pmax := match s.job (jobOf n) with | some j => j.pmax | none => 7
  let a : Actor := { newActor im f img n supn p pmax with fresh := fresh, cbp := s.freeBlock }
  let s := s.ownRegions a im
  let s := if (s.cell p.cell).gated && !(s.cell p.cell).waking then s.zero (spKey p.cell 0) (2 ^ 22) else s
  let locked := (im.regions.mapIdx fun i r => (i, r)).filter fun r => r.2.locked
  match s.lockAll q a locked with
  | none => none
  | some (s, es) =>
    let s := (s.setActor { a with exts := es ++ List.replicate (32 - es.length) {} }).initRegion a im f
    let s := if im.roaming then s else s.modCell p.cell fun c => { c with seats := modAt c.seats p.seat fun t => { cool := t.cool } }
    let e := s.cell p.cell
    some (if e.gated && !e.waking then (s.modCell p.cell fun c => { c with waking := true }).post 3400 .cellWake { n := p.cell } else s)
/-- All members made, or none. -/
def State.makeAll (s : State) (q : SpawnReq) (f : File) (supn : ActorName) (fresh : Bool) : List ((ActorName × Nat) × Spot) → Option State
  | [] => some s
  | (w, p) :: rest => match s.make q f w.1 supn w.2 p fresh with
    | some t => t.makeAll q f supn fresh rest
    | none => none

-- Live counts (14 R324) --------------------------------------------------------------------------------------------

/-- A new actor counts: its job, its own tree and every tree above. -/
def State.countIn (s : State) (n supn : ActorName) : State :=
  let s := s.modJob (jobOf n) fun j => { j with live := j.live + 1 }
  let s : State := { s with trees := s.trees ++ [{ job := jobOf n, serial := serialOf n, name := n, sup := supn, live := 0 }] }
  let l := s.lineage (jobOf n) s.trees.length (serialOf n)
  { s with trees := s.trees.map fun (t : Tree) => if t.job == jobOf n && l.contains t.serial then { t with live := t.live + 1 } else t }

-- What a request asks for (11 R276, R277, R286) --------------------------------------------------------------------

/-- The members of a cohort record: image and `arg` of each. -/
def cohortMembers (f : File) (crec : Nat) (n : Nat) : List (Nat × W64) :=
  (List.range n).map fun i => match f.sups.getD (crec + 1 + i) (.member 0 0) with | .member img arg => (img, arg) | _ => (0, 0)
/-- What a request creates: image and start message words of each, and the shape of a cohort. -/
def wanted (f : File) (q : SpawnReq) : List (Nat × List W64) × Option Shape :=
  let cohort (n : Nat) (m1 : W64) : List (Nat × List W64) :=
    (cohortMembers f q.crec n).mapIdx fun i e => (e.1, [e.2, m1, BitVec.ofNat 64 i, BitVec.ofNat 64 n])
  match q.kind with
  | .spawn | .root | .move => ([(q.img, [q.arg, 0, 0, 0])], none)
  | .spawnc | .supStart | .restart =>
    match f.sups.getD q.crec (.member 0 0) with
    | .child _ _ img arg => ([(img, [arg, 0, 0, 0])], none)
    | .cohort n shape => (cohort n (if q.kind == .spawnc then q.arg else 0), some shape)
    | .member img arg => ([(img, [arg, 0, 0, 0])], none)
/-- Seats that a job's actors hold. -/
def State.jobSeats (s : State) (j : Nat) : Nat := (s.all.filter fun a => jobOf a.name == j && !a.roaming && a.st != .parked && a.shadow.isNone).length
/-- Whether the job's seat quota admits `n` more seats (14 R326). -/
def State.seatsOk (s : State) (j : Job) (n : Nat) : Bool := j.seatsQ = 0 || s.jobSeats j.jobn + n ≤ j.seatsQ
/-- Whether quotas, the module's 65,536 actors and the job's serials admit a creation (R278 code 2). -/
def State.quotasOk (s : State) (j : Job) (q : SpawnReq) (n seats : Nat) : Bool :=
  (j.actQ = 0 || j.live + n ≤ j.actQ) && s.seatsOk j seats && total (s.jobs.map (·.live)) + n ≤ 65536 &&
    (q.serial != 0 || j.serial + n ≤ 2 ^ 30)
/-- Child entries of the restart engine in use (16 R349). -/
def State.childEntries (s : State) : Nat := total (s.sups.map fun t => t.ents.length)
/-- A supervisor's table. -/
def State.supTab (s : State) (n : ActorName) : Option SupTab := s.sups.find? fun t => t.sup == n
/-- The outcome of a request: a refusal code, a question to the host, or the actors made. -/
inductive Made | code (c : Nat) | ask (s : State) | ok (s : State) (names : List ActorName) (words : List (List W64))

/-- A placement request of duty 3 for the next member leaves for the host (21 R402). -/
def State.askPlace (s : State) (q : SpawnReq) (n : ActorName) (r : Nat) (roaming : Bool) : State :=
  s.askHost 3 (.place q) n (BitVec.ofNat 64 r) (BitVec.ofNat 64 (ofBool roaming))
/-- The locked host regions of actors to be made that have no run yet and that the host has not answered for. -/
def State.hostRuns (s : State) (q : SpawnReq) (f : File) (who : List (ActorName × Nat)) : List (ActorName × Nat × RegionRec) :=
  (who.map fun w =>
    let im := f.images.getD w.2 {}
    (im.regions.mapIdx fun i r => (w.1, i, r)).filter fun x =>
      x.2.2.locked && x.2.2.kind == .host && !kvHas q.runs (runKey w.1 x.2.1) &&
      (s.backing { name := w.1 } x.2.2 (x.2.2.vbase / 2 ^ 16)).isNone).flatten
/-- A request of duty 0 for a locked host region of an actor to be made leaves for the host (04 R96, R97; 21 R402). -/
def State.askRun (s : State) (q : SpawnReq) (n : ActorName) (ri : Nat) (r : RegionRec) : State :=
  s.askHost 0 (.locked q n ri (r.size / 2 ^ 16)) (BitVec.ofNat 64 r.vbase) n (BitVec.ofNat 64 ri)
/-- The checks of R278 in the order of their codes, then the creation: all members or none. `gen` is their generation,
`fresh` that their start messages are not released yet. -/
def State.create (s : State) (q : SpawnReq) (supn : ActorName) (gen : Nat) (fresh : Bool) : Made :=
  let f := s.file q.file
  let (want, shape) := wanted f q
  let n := want.length
  let old := q.kind == .restart
  match s.job q.job with
  | none => .code 1
  | some j =>
    let seats := (want.filter fun w => !(f.images.getD w.1 {}).roaming).length
    if f.handle != q.file || want.any (fun w => f.images.length ≤ w.1) then .code 1
    else if !(if old then s.seatsOk j seats else s.quotasOk j q n seats) then .code 2
    else
      let first := if q.serial = 0 then j.serial else q.serial
      let s' := if q.serial = 0 then s.modJob q.job fun x => { x with serial := x.serial + n } else s
      let who := want.mapIdx fun i w => (nameOf s.regs.aid q.job (first + i) gen, w.1)
      if s.hostDuty 3 && q.cells.length < n then
        let w := who.getD q.cells.length (0, 0)
        let r := q.refs.getD q.cells.length q.cell
        .ask (s'.askPlace { q with serial := first } w.1 r (f.images.getD w.2 {}).roaming)
      else match s'.placeAll q.job q.cell f (shape.getD .any) q who with
        | none => .code 3
        | some spots => match s'.hostRuns q f who with
          | (m, ri, r) :: _ => .ask (s'.askRun { q with serial := first } m ri r)
          | [] => match s'.makeAll q f supn fresh (who.zip spots) with
            | none => .code 4
            | some t =>
              if q.kind == .supStart && (match s.supTab supn with | some x => x.ents.any fun e => e.rcd == q.crec | none => false) then .code 6
              else if q.kind == .supStart && (16384 ≤ s.childEntries || (match s.supTab supn with | some x => 128 ≤ x.ents.length | none => false)) then .code 7
              else
                let names := who.map (·.1)
                let t := if old then t else names.foldl (fun (u : State) m => u.countIn m supn) t
                let t := match shape with
                  | some sh => if old then { t with cohorts := t.cohorts.map fun (c : Cohort) => if c.job == q.job && c.serial == first then { c with name0 := names.headD 0 } else c }
                    else { t with cohorts := t.cohorts ++ [{ job := q.job, serial := first, n := n, shape := sh, sup := supn, live := n, name0 := names.headD 0 }] }
                  | none => t
                let t : State := if old then { t with trees := t.trees.map fun (x : Tree) =>
                  match (names.find? fun m => x.job == jobOf m && x.serial == serialOf m) with | some m => { x with name := m } | none => x } else t
                .ok t names (want.map (·.2))

/-- A start message (R276, R277). -/
def startMsg (from_ to_ : ActorName) (w : List W64) : Msg := { dest := to_, sender := from_, chan := 0, plen := 4, m := w }
/-- A link made: each end on this module holds one entry, or, where a table is full, neither does: a link is symmetric (R280; log 35). -/
def State.addLink (s : State) (x y : ActorName) : State :=
  let room (n m : ActorName) : Bool := !s.has n || (s.actor n).links.contains m || (s.actor n).links.length < 16
  let add (s : State) (x y : ActorName) : State := s.modActor x fun a => if a.links.contains y then a else { a with links := a.links ++ [y] }
  if room x y && room y x then add (add s x y) y x else s
/-- A monitor made, where both tables have room. -/
def State.addMon (s : State) (x y : ActorName) : State :=
  let mine := !s.has x || (s.actor x).mons.contains y || (s.actor x).mons.length < 16
  let its := !s.has y || (s.actor y).watch.contains x || (s.actor y).watch.length < 64
  if !(mine && its) then s
  else
    let s := s.modActor x fun a => if a.mons.contains y then a else { a with mons := a.mons ++ [y] }
    s.modActor y fun a => if a.watch.contains x then a else { a with watch := a.watch ++ [x] }
/-- The entry that `sup .start` installs (16 R349, R350). -/
def State.installChild (s : State) (a : Actor) (q : SpawnReq) (name : ActorName) : State :=
  let im := s.image a
  let e : ChildEnt := match (s.file a.file).sups.getD q.crec (.member 0 0) with
    | .child rmask order img arg => { rcd := q.crec, name := name, arg := arg, img := img, order := order, rmask := rmask, st := .running }
    | .cohort n _ => { rcd := q.crec, name := name, img := q.crec, n := n, rmask := 15, coh := true, st := .running }
    | .member _ _ => {}
  let t : SupTab := (s.supTab a.name).getD { sup := a.name, rwin := im.rwin, rmax := im.rmax, policy := im.policy }
  let t : SupTab := { t with ents := sortBy (fun (x : ChildEnt) => x.rcd) (t.ents ++ [e]) }
  { s with sups := t :: s.sups.filter fun x => x.sup != a.name }
/-- The answer to a launch: a record of kind 2 on the queue of its channel (14 R327, 18 R382). -/
def State.launchRecord (s : State) (q : SpawnReq) (stat : Nat) (n : ActorName) : State :=
  s.record q.chan 2 stat (q.job * 2 ^ 16 + q.seq) n 0
/-- A root made: the job's root is known, its start message leaves at once at priority 0 (R327). -/
def State.rootMade (s : State) (q : SpawnReq) (n : ActorName) (w : List W64) : State :=
  let s := s.modJob q.job fun j => { j with root := n }
  (s.partMessage (startMsg (s.service 1) n w)).launchRecord q 0 n
/-- The place of a creation's start messages in an outbox is filled. -/
def Actor.born (a : Actor) (tok : Nat) (ms : List Msg) : Actor :=
  { a with outbox := (a.outbox.map fun o => match o with
    | .child t => if t = tok then ms.map fun m => .msg m [] else [.child t]
    | o => [o]).flatten }
/-- FILE_REMOVE: marked files leave the store once no live actor, no specification, no job and no shadow run names them (02 R62). -/
def State.sweepFiles (s : State) : State :=
  let named (h : Nat) : Bool := s.all.any (fun a => a.file == h) || s.jobs.any (fun j => j.file == h) || s.audits.any fun e => e.2.snap.file == h
  { s with files := s.files.filter fun f => !(f.marked && !named f.handle) }
/-- SPAWN_ANSWER (11 R276 to R278, R286; 14 R327): Astrolabe makes the actors of a request, or refuses it. The creator's push
is ready, its outbox holds the start messages in the place of the instruction. -/
def execSpawnAnswer (s : State) : Out :=
  let q := s.arg.req
  if q.kind == .root then
    match s.create q (s.service 1) 0 false with
    | .code c => .next ((({ s with jobs := s.jobs.filter fun j => j.jobn != q.job } : State).sweepFiles).launchRecord q (0x10 + c) 0)
    | .ask t => .next t
    | .ok t names words => .next (t.rootMade q (names.headD 0) (words.headD []))
  else if !s.alive q.by_ then .next s
  else
    let done (s : State) (v : W64) : State := (s.answer q.by_ q.tok v false).modActor q.by_ fun a => a.dropOut q.tok
    match s.create q q.by_ 0 true with
    | .code c => .next ((done s (BitVec.ofNat 64 c)).modActor q.by_ fun a => a.born q.tok [])
    | .ask t => .next t
    | .ok t names words =>
      let n := names.headD 0
      let t := done t n
      let a := t.actor q.by_
      let t := t.keep (a.born q.tok ((names.zip words).map fun e => startMsg q.by_ e.1 e.2))
      if !t.alive q.by_ then .next t
      else
        let t := if q.kind == .supStart then t.installChild a q n else t
        let t := if q.lnk then t.addLink q.by_ n else t
        .next (if q.mon then t.addMon q.by_ n else t)

end Sys2Proof.Machine
end

