-- ==== Sys2Proof/Machine/Boot.lean ====
section
/-! DEFINITION. Boot programs (22 R407; 23 R415, R416): the march image started on every cell in boot mode, what Astrolabe
does with each status, and `halt` (08 R193). -/

namespace Sys2Proof.Machine

/-- Runs of the march image on one cell: 8 banks of 256 windows, the last of a bank with the low work tiles (R416). -/
def bootRuns : Nat := 2048
/-- The number of the run that a boot program makes: bank and window of its launch words. -/
def runOf (a : Actor) : Nat := (a.msg.m.getD 0 0).toNat * 256 + (a.msg.m.getD 1 0).toNat / 16
/-- BOOT_STATUS (R416): a cell retires, runs its next program, or leaves boot mode; when no cell is left in boot mode, step 5
of R414 programs the CXL decoders and sets `done` (BOOT_DISCOVERY; 03 R79). The status word keeps its poison bit `p` (08 R193), which R416
does not look at. -/
def State.bootStatus (s : State) (c : Nat) (v : W64) (p : Bool) : State :=
  let n := v.toNat
  let run := runOf (s.actor (bootName c))
  let e := s.cell c
  let s := (s.dropActor (bootName c)).modCell c fun e => { e with status := some (v, p) }
  let nfail := n % 256
  let nrep := n / 256 % 256
  let s :=
    if n / 2 ^ 56 = 0xFF ∨ nrep < nfail ∨ (nfail ≠ 0 ∧ e.freeRep = 16) then
      let s := s.modCell c fun e => { e with health := 1, boot := false }
      { s with regs := { s.regs with nret := (s.regs.nret + 1) % 512 } }
    else
      let s := s.modCell c fun e => { e with freeRep := e.freeRep + nrep }
      if run + 1 < bootRuns then s.post 0 .bootProgramStart { n := c, m := run + 1 } else s.modCell c fun e => { e with boot := false }
  if (List.range 512).all fun k => !(s.cell k).boot then { s with decoders := cxlDecoders, regs := { s.regs with done := true } } else s
/-- The repair entry of row `row` of the context cache with spare `spare` (08 R192). -/
def cacheEntry (row spare : Nat) : W32 := BitVec.ofNat 32 (2 ^ 31 + 2 ^ 30 + row * 2 ^ 15 + spare * 2 ^ 14)
/-- Whether an entry repairs a row of the context cache (08 R192). -/
def cacheRepair (w : W32) : Bool := bit w.toNat 31 && bit w.toNat 30
/-- The entries that a self-test writes for failing rows `rows`: in ascending order, those that no entry steers yet, one for each spare that
none uses and while an entry is free (log 124). -/
def cacheEntries (repair : List W32) (free : Nat) (rows : List Nat) : List W32 :=
  let old := repair.filter cacheRepair
  let rows := (List.range 256).filter fun r => rows.contains r && !(old.any fun w => w.toNat / 2 ^ 15 % 256 = r)
  let spares := [0, 1].filter fun k => !(old.any fun w => w.toNat / 2 ^ 14 % 2 = k)
  ((rows.zip spares).take (16 - free)).map fun e => cacheEntry e.1 e.2
/-- Step 4 of R414: the context cache of cell `c` runs its own self-test and writes `area` 1 repair entries, from the first free entry on. -/
def State.selfTest (s : State) (c : Nat) : State :=
  s.freshVal.modCell c fun e =>
    let l := cacheEntries e.repair e.freeRep (Config.cacheRows s.free c)
    { e with repair := e.repair.take e.freeRep ++ l ++ e.repair.drop (e.freeRep + l.length), freeRep := e.freeRep + l.length }
/-- BOOT_PROGRAM_START (22 R407): run `m` of cell `n`: the image in seat 0 at region base 0, its launch words in a message on
channel 0. It waits for the units to finish the run before; before the first run the context cache tests itself (R414). -/
def execBootProgramStart (s : State) : Out :=
  let c := s.arg.n
  let run := s.arg.m
  let e := s.cell c
  if !e.boot then .next s
  else if s.has (bootName c) || e.munit.isSome || e.vunit.isSome then .next (s.post 1 .bootProgramStart s.arg)
  else
    let s := if run = 0 then s.selfTest c else s
    let f := bootFile (if run % 256 = 255 then 1 else 0)
    let im := f.images.getD 0 {}
    let a := newActor im f 0 (bootName c) 0 { cell := c } 7
    let m : Msg := { dest := bootName c, chan := 0, plen := 4, m := [BitVec.ofNat 64 (run / 256), BitVec.ofNat 64 (run % 256 * 16), 16, BitVec.ofNat 64 (s.cell c).freeRep] }
    .next ((s.setActor { a with mbox := [{ msg := m }], nmail := 1, st := .ready }).initRegion a im f)
/-- `halt` (08 R193): the boot program ends and its status, with its poison bit, goes to Astrolabe. -/
def execHalt (a : Scalar) (g : Guard) (s : State) : Out :=
  bootOnly s <| guarded s g 1 [] do
    let (v, p) ← operand s a
    return s.bootStatus s.cur.cell v p

end Sys2Proof.Machine
end

