-- ==== Sys2Proof/Machine/Life.lean ====
section
/-! DEFINITION. Death and revival: the steps of 16 R344, reclaim, live-count notices and the end of a job (14 R325, R328), the
restart engine (16 R349 to R356), links and monitors (11 R279), and the events DYING, RECLAIM, LINK_ANSWER, RESTART and
RESTART_RETRY. -/

namespace Sys2Proof.Machine

-- Counts (14 R324, R325, R328) -------------------------------------------------------------------------------------

/-- A live-count notice of `what`, to a live recipient, from the actor whose death brought the count to 0 (R325; log 112). -/
def State.countNotice (s : State) (from_ what to_ : ActorName) (m1 m2 : W64) : State :=
  if s.alive to_ then s.countMessage (downMsg from_ to_ what m1 m2 0 3) else s
/-- Whether a name is one of a job's on this module. -/
def State.ofJob (s : State) (j : Nat) (n : ActorName) : Bool := jobOf n == j && pkgOf n == s.regs.aid
/-- JOB_END (R328): its record, and everything that it held. A later job of its number goes on with the serials, so that no name is valid
for two incarnations (R306; log 15). -/
def State.endJob (s : State) (j : Job) : State :=
  let s := s.record j.chan 3 0 (j.rsn.toNat * 2 ^ 40 + j.jobn * 2 ^ 16 + j.seq) 0 0
  let s := s.unback fun b => b.job == j.jobn
  let s : State := { s with
    jobs := s.jobs.filter (fun x => x.jobn != j.jobn), serials := kvSet s.serials j.jobn j.serial, ballocs := s.ballocs.filter fun b => b.job != j.jobn
    cells := s.cells.map fun e => (e.1, if e.2.drain == some j.jobn then { e.2 with drain := none } else e.2)
    cohorts := s.cohorts.filter fun c => c.job != j.jobn, trees := s.trees.filter fun t => t.job != j.jobn
    seqs := s.seqs.filter fun e => !(s.ofJob j.jobn (BitVec.ofNat 64 (e.1 / 2 ^ 64)) || s.ofJob j.jobn (BitVec.ofNat 64 e.1)) }
  s.sweepFiles
/-- Live counts fall for an actor that is not restarted, and counts at 0 send their notices (LIVE_COUNT_NOTICE); its registry
keys go (11 R285). -/
def State.ended (s : State) (n : ActorName) (r : Reason) : State :=
  let job := jobOf n
  let s := match s.cohortOf n with
    | none => s
    | some c =>
      if c.live ≤ 1 then ({ s with cohorts := s.cohorts.filter fun x => !(x.job == job && x.serial == c.serial) } : State).countNotice n c.name0 c.sup 0 1
      else { s with cohorts := s.cohorts.map fun (x : Cohort) => if x.job == job && x.serial == c.serial then { x with live := x.live - 1 } else x }
  let l := s.lineage job s.trees.length (serialOf n)
  let down (t : Tree) : Tree := if t.job == job && l.contains t.serial then
    { t with live := t.live - 1, rsn := if t.serial == serialOf n then r else t.rsn } else t
  let trees := s.trees.map down
  let gone : List Tree := l.filterMap fun k => trees.find? fun (t : Tree) => t.job == job && t.serial == k && t.live == 0
  let s : State := { s with trees := trees.filter fun (t : Tree) => t.live != 0 }
  let s := gone.foldl (fun (u : State) t => u.countNotice n t.name t.sup (t.rsn.setWidth 64) 2) s
  let s := s.modJob job fun j => { j with
    live := j.live - 1, rsn := if serialOf j.root == serialOf n then r else j.rsn, reg := j.reg.filter fun e => e.2 != serialOf n }
  match s.job job with
  | some j => if j.live = 0 then s.endJob j else s
  | none => s

-- Reclaim (16 R345, R346) ------------------------------------------------------------------------------------------

/-- A debugger's hold on its target ends: the target runs on (11 R287). -/
def Actor.letGo (a : Actor) (now : Nat) : Actor :=
  { a with paused := if a.dbg.stop then a.paused + (now - a.dbg.since) else a.paused, dbg := {} }
/-- Step 4: exit signals to linked actors, DOWN notices to watchers; the other ends of its links and monitors go. -/
def State.deathNotices (s : State) (a : Actor) (r : Reason) : State :=
  let s := a.links.foldl (fun (t : State) n => t.partMessage (exitMsg a.name n r)) s
  let s := a.watch.foldl (fun (t : State) n => t.partMessage (downMsg a.name n a.name (r.setWidth 64) 0 0 2)) s
  { s with actors := s.actors.map fun e => (e.1, { e.2 with links := e.2.links.filter (· != a.name), mons := e.2.mons.filter (· != a.name), watch := e.2.watch.filter (· != a.name) }) }
/-- The debugger of a dead target is told (cause 6) and detached; a dead debugger's target goes free (11 R287, R291). -/
def State.debugDeath (s : State) (a : Actor) (r : Reason) : State :=
  let d := a.dbg.dbgn
  let s := if d = 0 then s else
    let s := if a.dbg.tok = 0 then s else s.answer d a.dbg.tok (if 0 < a.dbg.stc then 2 else 3) false
    let s := s.partMessage { dest := d, sender := a.name, chan := Fin.ofNat 16 a.dbg.nch, plen := 3, m := [6, BitVec.ofNat 64 a.pc, r.setWidth 64, 0] }
    s.modActor d fun b => { b with target := 0 }
  if a.target = 0 || a.shadow.isSome then s else s.modActor a.target fun b => if b.dbg.dbgn == a.name then b.letGo s.cycle else b
/-- What an actor held is reclaimed (R345). The copies of tiles that waited for it have no receiver any more (05 R120). -/
def State.release (s : State) (a : Actor) : State :=
  let n := a.name
  let waiting := (s.held.filter fun h => h.actor == n).map (·.ev.arg) ++ (a.pairs.map (·.held)).flatten
  let s := s.endXfers (waiting.map (·.xids)).flatten
  let s := a.mbox.foldl (fun (t : State) m => if m.latch = 0 then t else t.clearRelay m.latch) s
  let mine (b : Option (ActorName × Nat)) : Bool := match b with | some x => x.1 == n | none => false
  let tidy (e : Cell) : Cell :=
    let e : Cell := { e with accs := e.accs.map fun (x : Acc) => if mine x.bind then {} else x }
    let e : Cell := if mine e.laBind then { e with la := {}, laBind := none } else e
    let e : Cell := if mine e.lbBind then { e with lb := {}, lbBind := none } else e
    let e : Cell := if e.lbIn == n && e.lbNext.loaded then { e with lbNext := {}, lbIn := 0, lbInSrc := 0 } else e
    let e : Cell := (if e.lbOwner == n then { e with lb := {}, lbOwner := 0, lbSrc := 0 } else e).promote
    { e with xfers := e.xfers.filter fun x => x.actor != n || (x.kind == .relay && x.toRead = 0) }
  let s : State := { s with cells := s.cells.map fun e => (e.1, tidy e.2) }
  let kept (b : Backing) : Bool := s.ballocs.any fun x => x.mir && x.job == b.job && x.va / 2 ^ 16 ≤ b.vpage && b.vpage < x.va / 2 ^ 16 + x.mib * 16
  let s := s.unback fun b => b.owner == n && b.job == jobOf n && !(b.mirror && kept b)
  ({ s with ballocs := s.ballocs.filter fun x => !(x.actor == n && !x.mir), held := s.held.filter fun h => h.actor != n } : State).forgetName n
/-- Children whose start message was never released are reclaimed without signals (11 R276). -/
def State.dropUnborn (s : State) (n : ActorName) : State :=
  (s.all.filter fun a => a.fresh && a.supn == n).foldl (fun (t : State) a => ((t.release a).dropActor a.name).ended a.name rKilled) s

-- The restart engine (16 R349 to R356) -----------------------------------------------------------------------------

/-- Whether an entry names an actor. -/
def ChildEnt.names (e : ChildEnt) (n : ActorName) : Bool :=
  e.st != .none && jobOf e.name == jobOf n && genOf e.name == genOf n && serialOf e.name ≤ serialOf n && serialOf n < serialOf e.name + e.n
/-- The names of an entry's members. -/
def ChildEnt.members (e : ChildEnt) : List ActorName :=
  (List.range e.n).map fun i => nameOf (pkgOf e.name) (jobOf e.name) (serialOf e.name + i) (genOf e.name)
/-- A supervisor's table changed. -/
def State.modTab (s : State) (sup : ActorName) (f : SupTab → SupTab) : State :=
  { s with sups := s.sups.map fun t => if t.sup == sup then f t else t }
/-- A child entry changed. -/
def State.modEnt (s : State) (sup : ActorName) (rcd : Nat) (f : ChildEnt → ChildEnt) : State :=
  s.modTab sup fun t => { t with ents := t.ents.map fun e => if e.rcd == rcd then f e else e }
/-- A child entry. -/
def State.ent (s : State) (sup : ActorName) (rcd : Nat) : Option ChildEnt :=
  (s.supTab sup).bind fun t => t.ents.find? fun e => e.rcd == rcd
/-- RESTART_REPORT (R355). -/
def State.report (s : State) (sup : ActorName) (e : ChildEnt) (code : W64) (new : ActorName) : State :=
  s.partMessage (downMsg e.name sup e.name (e.why.setWidth 64) code new 4)
/-- The window of a table at a cycle (R353). -/
def SupTab.window (t : SupTab) (now : Nat) : SupTab := if t.rcnt = 0 ∨ t.wbeg + t.rwin ≤ now then { t with wbeg := now, rcnt := 0 } else t
/-- The rate limit (R353): the table with one more event counted, or none beyond the limit. -/
def SupTab.count (t : SupTab) (now : Nat) : Option SupTab :=
  let u := t.window now
  if u.rcnt = u.rmax then none else some { u with rcnt := u.rcnt + 1 }
/-- Members of an entry that are already reclaimed no longer await a restart: their counts fall. -/
def State.giveUp (s : State) (e : ChildEnt) : State :=
  e.members.foldl (fun (t : State) n => if t.has n then t else t.ended n e.why) s
/-- ESCALATE (R353): the supervisor dies, no restart is made; `lead` keeps in mind that what lives of the entry dies with it (R356). -/
def State.escalate (s : State) (sup : ActorName) (e : ChildEnt) : State :=
  let s := s.modEnt sup e.rcd fun x => { x with st := .stopped, wait := [], event := false, lead := true, asked := false }
  (killActor s sup rEscalate).giveUp e
/-- Not restarted: the entry is stopped, counts fall, and it is reported (R344, R351, R355). -/
def State.stopEnt (s : State) (sup : ActorName) (e : ChildEnt) : State :=
  let s := s.modEnt sup e.rcd fun x => { x with st := .stopped, wait := [], event := false, lead := false, why := e.why }
  (s.giveUp e).report sup e 4 0
/-- An event whose reclaims are over restarts its entries, in ascending order (R352); an entry on which the host decides waits for it. -/
def State.fire (s : State) (sup : ActorName) (rcd : Nat) : State :=
  match s.supTab sup with
  | none => s
  | some t => match t.ents.find? fun e => e.rcd == rcd with
    | none => s
    | some e =>
      if e.asked then s
      else if e.event then
        let l := t.ents.filter (·.event)
        if l.all fun x => x.wait.isEmpty then s.post 0 .restart { actor := sup, nats := l.map (·.rcd) } else s
      else if e.wait.isEmpty then s.post 0 .restart { actor := sup, nats := [rcd] }
      else s
/-- A restart event (R352): the entries that it takes, the kills in descending order, and the wait for their reclaims. -/
def State.beginEvent (s : State) (sup : ActorName) (rcd : Nat) : State :=
  match s.supTab sup with
  | none => s
  | some t =>
    let all := t.policy = 2
    let takes (e : ChildEnt) : Bool := e.rcd == rcd || (all && e.st == .running)
    let left (e : ChildEnt) : List ActorName := e.members.filter s.has
    let upd (e : ChildEnt) : ChildEnt := if takes e then
      { e with st := .restarting, event := all, lead := e.rcd == rcd, wait := left e, why := if e.rcd == rcd then e.why else rKilled } else e
    let s := s.modTab sup fun x => { x with ents := x.ents.map upd }
    let s := ((t.ents.filter takes).reverse.map left).flatten.foldl (State.killBy · false) s
    s.fire sup rcd
/-- A restart that is due is made, unless an entry that it would restart is at generation 255: that counts as a restart beyond the rate limit
(R306, R351). -/
def State.perform (s : State) (sup : ActorName) (e : ChildEnt) : State :=
  match s.supTab sup with
  | none => s
  | some t =>
    let due := t.ents.filter fun x => x.rcd == e.rcd || (t.policy == 2 && x.st == .running && bit x.rmask 2)
    if due.any fun x => genOf x.name == 255 then s.escalate sup e else s.beginEvent sup e.rcd
/-- The decision that a death is a restart event: the rate limit, then the event (R353). -/
def State.restartEvent (s : State) (sup : ActorName) (e : ChildEnt) : State :=
  match s.supTab sup with
  | none => s
  | some t =>
    match t.count s.cycle with
      | none => (s.modTab sup fun x => x.window s.cycle).escalate sup e
      | some u => (s.modTab sup fun _ => u).perform sup e
/-- RESTART_DECISION (R351): what becomes of a dead actor, whose record is gone. Duty 1 asks the host (21 R402). While its supervisor is
DYING, an entry that is restarting is given up with the table (R356, R360). -/
def State.decide (s : State) (a : Actor) (r : Reason) : State :=
  match (s.supTab a.supn).bind fun t => t.ents.find? fun e => e.names a.name with
  | none => s.ended a.name r
  | some e =>
    let here (x : ChildEnt) : ChildEnt := { x with cells := kvSet x.cells (serialOf a.name) a.cell, why := if x.coh && x.st == .restarting then x.why else r }
    if !s.alive a.supn then if e.st == .restarting then s else s.ended a.name r
    else match e.st with
      | .none | .stopped => s.ended a.name r
      | .restarting => (s.modEnt a.supn e.rcd fun x => { here x with wait := x.wait.filter (· != a.name) }).fire a.supn e.rcd
      | .running =>
        let e := here e
        let s := s.modEnt a.supn e.rcd fun _ => e
        if !a.nokick && s.hostDuty 1 then
          let s := s.modEnt a.supn e.rcd fun x => { x with st := .restarting, asked := true }
          s.askHost 1 (.restart a.name r a.supn) a.name (r.setWidth 64) a.supn
        else if a.nokick || !bit e.rmask (groupOf r) then
          let s := s.modEnt a.supn e.rcd fun x => { x with st := .stopped }
          (s.ended a.name r).report a.supn e 4 0
        else s.restartEvent a.supn e
/-- SUPERVISOR_DEATH (R356, R360): every entry is stopped, what lives of a running or restarting child or cohort dies, in descending order, the
table goes. -/
def State.supDeath (s : State) (n : ActorName) : State :=
  match s.supTab n with
  | none => s
  | some t =>
    let s : State := { s with sups := s.sups.filter fun x => x.sup != n }
    t.ents.reverse.foldl (fun (u : State) e =>
      let u := if e.st == .running || e.st == .restarting || e.lead then (e.members.filter u.alive).foldl (State.killBy · true) u else u
      if e.st == .restarting then u.giveUp e else u) s

/-- DYING (16 R344, R360): a kill that waited for an exchange takes effect; `flag` bars a restart (11 R282). With a level it is the order of
another module's actor `other` (log 111). -/
def execDying (s : State) : Out :=
  let g := s.arg
  let r : Reason := BitVec.ofNat 8 g.n
  match g.lv with
  | some lv => .next (if r = rKilled then s.killLevel g.other g.actor lv else killActor s g.actor r)
  | none => .next (if r = rKilled then s.killBy g.flag g.actor else killActor s g.actor r)
/-- RECLAIM (R344, steps 3 to 7): once nothing of the actor is in flight, signals are sent, its state is reclaimed, and the
restart engine decides. -/
def execReclaim (s : State) : Out :=
  let n := s.arg.actor
  let a := s.actor n
  let r := a.debt.getD 0
  if !(s.has n && a.st == .dying) then .next s
  else if !a.flying.isEmpty || s.unitsBusy a then .next (s.post 1 .reclaim s.arg)
  else if isBoot n then .next ((s.release a).bootStatus a.cell (0xFF00000000000000 + r.setWidth 64) false)
  else
    let s := s.deathNotices a r
    let s := s.debugDeath a r
    let s := match a.audit with | some b => s.post 0 .shadowAbandon { n := b, actor := n, m := a.invNo } | none => s
    let s := (s.release a).dropActor n
    let s := (s.dropUnborn n).supDeath n
    .next ((s.decide a r).sweepFiles)

-- Restarts (R354) --------------------------------------------------------------------------------------------------

/-- Where each member of an entry died, or `c` for one that has not (R338, R354). -/
def ChildEnt.refs (e : ChildEnt) (c : Nat) : List Nat := (List.range e.n).map fun i => kvGet c e.cells (serialOf e.name + i)
/-- One entry restarted: the actors made at the next generation, their start messages released at once, the report sent; a
failure is reported and tried again 4,096 cycles later. An entry that all-for-one took with bit 2 of its mask clear is
stopped. -/
def State.restartEnt (s : State) (sup : ActorName) (rcd : Nat) (r : SpawnReq) : State :=
  match s.ent sup rcd with
  | none => s
  | some e =>
    if !s.alive sup || e.st != .restarting then s
    else if e.event && !e.lead && !bit e.rmask 2 then s.stopEnt sup e
    else
      let q : SpawnReq := { kind := .restart, by_ := sup, job := jobOf e.name, file := (s.actor sup).file, crec := rcd, cell := (s.actor sup).cell, serial := serialOf e.name, refs := e.refs (s.actor sup).cell, cells := r.cells, runs := r.runs }
      match s.create q sup (genOf e.name + 1) false with
      | .ask t => t
      | .code _ =>
        let s := (s.modEnt sup rcd fun x => { x with event := false, lead := false }).report sup e 5 0
        s.post 4096 .restartRetry { actor := sup, n := rcd }
      | .ok t names words =>
        let n := names.headD 0
        let t := t.modEnt sup rcd fun x => { x with st := .running, name := n, event := false, lead := false, cells := [] }
        let t := (names.zip words).foldl (fun (u : State) w => u.partMessage (startMsg sup w.1 w.2)) t
        t.report sup e 3 n
/-- RESTART (R354): the entries of an event. -/
def execRestart (s : State) : Out :=
  .next (s.arg.nats.foldl (fun (t : State) k => t.restartEnt s.arg.actor k s.arg.req) s)
/-- RESTART_RETRY (R354): a failed restart is tried again, as a new event of the rate limit. -/
def execRestartRetry (s : State) : Out :=
  let sup := s.arg.actor
  match s.supTab sup, s.ent sup s.arg.n with
  | some t, some e =>
    if e.st != .restarting || !s.alive sup then .next s
    else match t.count s.cycle with
      | none => .next ((s.modTab sup fun x => x.window s.cycle).escalate sup e)
      | some u => .next ((s.modTab sup fun _ => u).restartEnt sup s.arg.n {})
  | _, _ => .next s

-- Links and monitors (11 R279, 16 R348) ----------------------------------------------------------------------------

/-- The status of a `link` or `monitor` whose target is here (R279, R348), and the state with its entries. -/
def State.tie (s : State) (x y : ActorName) (mon : Bool) : Nat × State :=
  let a := s.actor x
  let t := s.actor y
  let mine := if mon then a.mons else a.links
  if mine.contains y then (0, s)
  else if s.has x && 16 ≤ mine.length then (1, s)
  else if !s.has y then (3, s)
  else if (if mon then 64 ≤ t.watch.length else 16 ≤ t.links.length) then (2, s)
  else (0, if mon then s.addMon x y else s.addLink x y)
/-- A link or a monitor of `y` by `x` ends: what this module holds of it goes (R280). -/
def State.untie (s : State) (x y : ActorName) (mon : Bool) : State :=
  let s := s.modActor x fun a => if mon then { a with mons := a.mons.filter (· != y) } else { a with links := a.links.filter (· != y) }
  s.modActor y fun b => if mon then { b with watch := b.watch.filter (· != x) } else { b with links := b.links.filter (· != x) }
/-- What passes between two modules about a link (`mon` false) or a monitor: a request, its answer, or its end, by `what` 0, 1
and 2 (R279, R280; 18 R372). Its form is the model's own (log 111). -/
def State.tieMsg (s : State) (from_ to_ : ActorName) (mon : Bool) (what tok st : Nat) : State :=
  s.toModule from_ { actor := from_, msg := { dest := to_, sender := from_, chan := 15, plen := 3, m := [BitVec.ofNat 64 tok, BitVec.ofNat 64 (what * 2 + ofBool mon), BitVec.ofNat 64 st, 0] } }
/-- LINK_ANSWER (R279, R348): the status `k` of a `link` (`n` 0) or a `monitor` (`n` 1) of an actor of this module reaches it;
one that another module refuses (`flag`) ends the entry that stood since issue. From an actor of another module it is the
request, which this module answers, or with `flag2` the end of the entry. -/
def execLinkAnswer (s : State) : Out :=
  let g := s.arg
  let mon := g.n = 1
  if pkgOf g.actor = s.regs.aid then
    let s := if g.flag && g.k != 0 then s.untie g.actor g.other mon else s
    let s := s.modActor g.actor fun a => { a with asks := a.asks.filter fun x => x.1 != g.m }
    .next (s.answer g.actor g.m (BitVec.ofNat 64 g.k) false)
  else if g.flag2 then .next (s.untie g.actor g.other mon)
  else
    let (v, t) := s.tie g.actor g.other mon
    .next (t.tieMsg g.other g.actor mon 1 g.m v)

end Sys2Proof.Machine
end

