-- ==== Sys2Proof/Machine/Azimuth.lean ====
section
/-! DEFINITION. Azimuth (15 R329 to R340): swap instants, the decision and the exchange, power gating, pre-emption and parking
(14 R311, R323), and the roaming contexts (14 R309, R313): the events SWAP_INSTANT, SWAP_EVAL_END, FREEZE, MARK,
EXCHANGE_COMMIT, CELL_WAKE, PREEMPT, UNPARK, CONTEXT_FETCH and ROAMING_OFFER. -/

namespace Sys2Proof.Machine

-- Moving an actor (15 R336) ----------------------------------------------------------------------------------------

/-- What moves with a seated actor besides its context: region bytes, poisoned sectors, traffic entries, B latch buffers. -/
structure Lifted where
  bs  : List Byte := []
  ps  : List Nat := []
  seat : Seat := {}
  cur : Option (Latch × Nat) := none
  nxt : Option (Latch × Nat) := none
  deriving DecidableEq, Repr

/-- An actor's things taken up. -/
def State.lift (s : State) (a : Actor) : Lifted :=
  let k := regionKey a
  let n := regionSize a
  let e := s.cell a.cell
  let ps := (s.spois.filter fun x => k / 32 ≤ x && x < (k + n) / 32).map fun x => x - k / 32
  if a.st == .parked then { bs := s.bytes k n, ps := ps, cur := a.pLatch }
  else { bs := s.bytes k n, ps := ps, seat := e.seats.getD a.seat {}, cur := if e.lbOwner == a.name then some (e.lb, e.lbSrc) else none, nxt := if e.lbIn == a.name then some (e.lbNext, e.lbInSrc) else none }
/-- Its buffers and its traffic entries leave the cell; the cooldown is the seat's and stays (R334). -/
def State.vacate (s : State) (a : Actor) : State :=
  s.modCell a.cell fun e =>
    let e : Cell := { e with seats := modAt e.seats a.seat fun st => { cool := st.cool } }
    let e : Cell := if e.lbIn == a.name then { e with lbNext := {}, lbIn := 0, lbInSrc := 0 } else e
    if e.lbOwner == a.name then ({ e with lb := {}, lbOwner := 0, lbSrc := 0 } : Cell).promote else e
/-- An actor with its things put down at a place; an exchange starts the seat's cooldown. -/
def State.putDown (s : State) (a : Actor) (p : Spot) (l : Lifted) (cool : Option Nat) : State :=
  let a : Actor := { a with cell := p.cell, seat := p.seat, base := p.base, st := .idle, pLatch := none }
  let k := regionKey a
  let n := regionSize a
  let s : State := (s.setActor a).put k l.bs
  let s : State := { s with spois := (l.ps.map (· + k / 32)).foldl insNat (s.spois.filter fun x => x < k / 32 || (k + n) / 32 ≤ x) }
  let s := s.modCell p.cell fun e =>
    let e : Cell := { e with seats := modAt e.seats p.seat fun st => { traffic := l.seat.traffic, cool := cool.orElse fun _ => st.cool } }
    let e : Cell := match l.cur with | some (b, id) => { e with lb := b, lbOwner := a.name, lbSrc := id } | none => e
    match l.nxt with | some (b, id) => ({ e with lbNext := b, lbIn := a.name, lbInSrc := id } : Cell).promote | none => e
  s.refresh a.name
/-- Whether an actor has something in a B latch. -/
def State.latched (s : State) (a : Actor) : Bool :=
  let e := s.cell a.cell
  if a.st == .parked then a.pLatch.isSome
  else e.lbOwner == a.name || e.lbIn == a.name || a.tiles.any fun t => t.state == .latched
/-- Whether a cell's B latch is free for an actor, but for one other actor's hold (R334, condition 6). -/
def State.latchFree (s : State) (c : Nat) (other : ActorName) : Bool :=
  let e := s.cell c
  (e.lbOwner == 0 || e.lbOwner == other) && (e.lbIn == 0 || e.lbIn == other) && e.lbBind.isNone

-- The decision (15 R333, R334) -------------------------------------------------------------------------------------

/-- The cells of a pair. -/
def pairCells (k : Nat) : Nat × Nat := (k / 2, k / 2 + (if k % 2 = 0 then 1 else 32))
/-- The actor in a seat. -/
def State.inSeat (s : State) (c k : Nat) : Option Actor := (s.seated c).find? fun a => a.seat == k
/-- Conditions 1 to 3 of R334 on one actor. -/
def State.movable (s : State) (a : Actor) : Bool :=
  (a.st == .idle || a.st == .ready) && !s.unitsBusy a && !a.dbg.stop && !a.dbg.step && a.shadow.isNone &&
    !s.cells.any fun e => e.2.xfers.any fun x => x.actor == a.name && !x.held.isEmpty
/-- `cost` (R333) of an actor in a cell by traffic entries; `other` is the other actor of the exchange, at `there`. -/
def trafficCost (st : Seat) (a : Actor) (c : Nat) (other : Option Actor) (there : Nat) : Nat :=
  total (st.traffic.map fun e =>
    if e.v then
      let peer := match other with | some o => if serialOf o.name == e.pser && jobOf o.name == jobOf a.name then there else e.pcell | none => e.pcell
      e.cnt * dist c peer
    else 0)
/-- Where an actor's region goes in a cell, the units of the actor that leaves counted as free (condition 5). -/
def State.baseIn (s : State) (a : Option Actor) (c : Nat) (leaves : Option Actor) : Option Nat :=
  match a with
  | none => some 0
  | some x =>
    let used := ((s.seated c).filter fun y => match leaves with | some z => y.name != z.name | none => true).map fun y => (y.base / 4096, y.size)
    (lowestRun used x.size).map (· * 4096)
/-- Whether an exchange of seats `a` and `b` of a pair is eligible at instant `i` (R334). -/
def State.eligible (s : State) (p q a b i : Nat) : Bool :=
  let x := s.inSeat p a
  let y := s.inSeat q b
  let ok (o : Option Actor) : Bool := match o with | some z => s.movable z | none => true
  let cool (c k : Nat) : Bool := match ((s.cell c).seats.getD k {}).cool with | some j => 4 < (i + 2 ^ 32 - j) % 2 ^ 32 | none => true
  let latch (o : Option Actor) (c : Nat) (w : Option Actor) : Bool := match o with | some z => !s.latched z || s.latchFree c (match w with | some v => v.name | none => 0) | none => true
  (x.isSome || y.isSome) && ok x && ok y && cool p a && cool q b && (s.baseIn x q y).isSome && (s.baseIn y p x).isSome &&
    latch x q y && latch y p x
/-- The gain of an exchange (R333), by the counts as they stood at the instant: an actor seated after it has none. -/
def State.gain (s : State) (p q a b : Nat) : Int :=
  let x := s.inSeat p a
  let y := s.inSeat q b
  let st (c k : Nat) : Seat := (kvGet [] s.evalSeats c).getD k {}
  let cost (o : Option Actor) (e : Seat) (c : Nat) (w : Option Actor) (there : Nat) : Nat := match o with | some z => if e.who == z.name then trafficCost e z c w there else 0 | none => 0
  (cost x (st p a) p y q : Int) + cost y (st q b) q x p - cost x (st p a) q y p - cost y (st q b) p x q
/-- The eligible exchange of greatest gain, the lowest 8a + b on a tie. -/
def State.bestExchange (s : State) (p q i : Nat) : Option (Nat × Nat × Int) :=
  (List.range 64).foldl (fun best k =>
    let a := k / 8; let b := k % 8
    if s.eligible p q a b i then
      let g := s.gain p q a b
      match best with
      | some (_, _, h) => if h < g then some (a, b, g) else best
      | none => some (a, b, g)
    else best) none

-- Swap instants (15 R331, R332, R339) ------------------------------------------------------------------------------

/-- The pairs of instant `i` (R332). -/
def pairsAt (i : Nat) : List Nat :=
  let ph := i / 2 % 2
  (List.range 512).filterMap fun c =>
    if i % 2 = 0 then (if (cellY c + ph) % 2 = 0 && cellY c + 1 ≤ 15 then some (2 * c + 1) else none)
    else (if (cellX c + ph) % 2 = 0 && cellX c + 1 ≤ 31 then some (2 * c) else none)
/-- Whether a cell takes part in an instant. -/
def State.takesPart (s : State) (c : Nat) : Bool :=
  let e := s.cell c
  let draining : Bool := match e.drain with | some j => (s.seated c).any fun a => jobOf a.name == j | none => false
  !e.gated && e.health == 0 && !e.boot && !draining && (pairsOf c).all fun k => (kvGet {} s.pairs k).phase == .idle
/-- CELL_GATE (R339): a cell with nothing to do for `gate` instants loses its power. -/
def State.gateCell (s : State) (c : Nat) : State :=
  let e := s.cell c
  let idle := (s.seated c).isEmpty && (s.roamers c).isEmpty && !(s.all.any fun a => a.roaming && a.cell == c) && e.side.isEmpty && e.xfers.isEmpty
  if e.boot || e.gated then s
  else if idle then
    let n := e.idle + 1
    s.setCell c { e with idle := n, gated := s.regs.gate != 0 && s.regs.gate ≤ n }
  else if e.idle = 0 then s else s.setCell c { e with idle := 0 }
/-- A pair's level falls after 64 instants without an exchange (R334). -/
def PairSt.rest (p : PairSt) : PairSt :=
  if p.quiet + 1 < 64 then { p with quiet := p.quiet + 1 } else { p with quiet := 0, h := p.h - 1 }
/-- The seats of a cell with the actors in them, as an instant finds them. -/
def State.seatsNow (s : State) (c : Nat) : List Seat := (s.cell c).seats.mapIdx fun k st => { st with who := match s.inSeat c k with | some a => a.name | none => 0 }
/-- SWAP_INSTANT (R332): the pairs of the instant evaluate, idle cells are gated, the next instant is due. -/
def execSwapInstant (s : State) : Out :=
  let i := (s.regs.inst + 1) % 2 ^ 32
  let s : State := { s with regs := { s.regs with inst := i }, lastInst := s.cycle, evalSeats := s.cells.map fun e => (e.1, s.seatsNow e.1) }
  let go := (pairsAt i).filter fun k => s.regs.azEn && s.takesPart (pairCells k).1 && s.takesPart (pairCells k).2
  let s := go.foldl (fun (t : State) k => { t with pairs := kvSet t.pairs k { kvGet {} t.pairs k with phase := .eval, inst := i } }) s
  let s := (List.range 512).foldl State.gateCell s
  .next ((s.post 64 .swapEvalEnd {}).post (2 ^ s.regs.ivl) .swapInstant {})
/-- COUNT_HALVING (R331). -/
def Seat.halve (st : Seat) : Seat :=
  { st with traffic := st.traffic.map fun e => if e.cnt / 2 = 0 then { e with cnt := 0, v := false } else { e with cnt := e.cnt / 2 } }
/-- The name of the actor in a seat, 0 for an empty one. -/
def State.whoIn (s : State) (c k : Nat) : ActorName := match s.inSeat c k with | some a => a.name | none => 0
/-- What a pair takes to FREEZE: its best exchange, if it gains enough. -/
def State.decidePair (s : State) (k : Nat) (x : PairSt) : Option PairSt :=
  let (p, q) := pairCells k
  match s.bestExchange p q x.inst with
  | some (a, b, g) => if (s.regs.thr * 2 ^ x.h : Int) < g then some { x with phase := .freeze, a := a, b := b, whoA := s.whoIn p a, whoB := s.whoIn q b } else none
  | none => none
/-- SWAP_EVAL_END (R334): each pair that evaluated takes its best exchange to FREEZE, or performs none, as every pair that took no part; then
every count halves. -/
def execSwapEvalEnd (s : State) : Out :=
  let s := s.pairs.foldl (fun (t : State) e =>
    let set (t : State) (x : PairSt) : State := { t with pairs := kvSet t.pairs e.1 x }
    match e.2.phase with
    | .eval => match t.decidePair e.1 e.2 with
      | some x => (set t x).post 1 .freeze { n := e.1 }
      | none => set t ({ e.2 with phase := .idle } : PairSt).rest
    | .idle => set t e.2.rest
    | .freeze | .mark | .copy => t) s
  .next { s with cells := s.cells.map fun e => (e.1, { e.2 with seats := e.2.seats.map Seat.halve }), evalSeats := [] }

-- The exchange (15 R335 to R337) -----------------------------------------------------------------------------------

/-- A pair's state changed. -/
def State.modPair (s : State) (k : Nat) (f : PairSt → PairSt) : State := { s with pairs := kvSet s.pairs k (f (kvGet {} s.pairs k)) }
/-- FREEZE (R335): the chosen exchange of pair `n` is checked again; its actors enter TRANSIT, or it is abandoned, as it is when other actors
sit there. -/
def execFreeze (s : State) : Out :=
  let k := s.arg.n
  let x := kvGet {} s.pairs k
  let (p, q) := pairCells k
  let A := s.inSeat p x.a
  let B := s.inSeat q x.b
  let ok (o : Option Actor) : Bool := match o with | some z => s.movable z | none => true
  let stop : Out := .next (s.modPair k fun y => ({ y with phase := .idle } : PairSt).rest)
  match s.baseIn A q B, s.baseIn B p A with
  | some ba, some bb =>
    if s.whoIn p x.a == x.whoA && s.whoIn q x.b == x.whoB && ok A && ok B then
      let s := (A.toList ++ B.toList).foldl (fun (t : State) z => t.setActor { z with st := .transit }) s
      .next ((s.modPair k fun y => { y with phase := .mark }).post 1 .mark { n := k, nats := [ba, bb] })
    else stop
  | _, _ => stop
/-- MARK (R335, 14 R307): cached names are invalidated and the copy starts, 256 bytes a cycle (R336). -/
def execMark (s : State) : Out :=
  let k := s.arg.n
  let x := kvGet {} s.pairs k
  let (p, q) := pairCells k
  let who := (s.inSeat p x.a).toList ++ (s.inSeat q x.b).toList
  let s := who.foldl (fun (t : State) z => t.forgetName z.name) s
  let n := (who.map regionSize).foldl max 0
  .next ((s.modPair k fun y => { y with phase := .copy }).post (n / 256) .exchangeCommit s.arg)
/-- What waited for a moving actor goes on (R337): held events, and a `dhalt`. -/
def State.leaveTransit (s : State) (n : ActorName) : State :=
  let a := s.actor n
  let s := if a.dbg.stop && a.dbg.tok != 0 then (s.answer a.dbg.dbgn a.dbg.tok 0 false).modActor n fun b => { b with dbg := { b.dbg with tok := 0 } } else s
  s.unhold n
/-- Whether an exchange of two actors (0: none) puts back what the last one of its pair moved, within 16 instants (R334). -/
def PairSt.putsBack (x : PairSt) (na nb : ActorName) : Bool :=
  na == x.prevB && nb == x.prevA && match x.prevI with | some i => (x.inst + 2 ^ 32 - i) % 2 ^ 32 ≤ 16 | none => false
/-- EXCHANGE_COMMIT (R335, R337): the actors stand at their new places, held traffic goes on, both seats cool down. -/
def execExchangeCommit (s : State) : Out :=
  let k := s.arg.n
  let x := kvGet {} s.pairs k
  let (p, q) := pairCells k
  let A := s.inSeat p x.a
  let B := s.inSeat q x.b
  let la := A.map s.lift
  let lb := B.map s.lift
  let s := (A.toList ++ B.toList).foldl State.vacate s
  let now := s.regs.inst
  let s := s.modCell p fun e => { e with seats := modAt e.seats x.a fun st => { st with cool := some now } }
  let s := s.modCell q fun e => { e with seats := modAt e.seats x.b fun st => { st with cool := some now } }
  let s := match A, la with | some a, some l => s.putDown a { cell := q, seat := x.b, base := s.arg.nats.getD 0 0 } l (some now) | _, _ => s
  let s := match B, lb with | some b, some l => s.putDown b { cell := p, seat := x.a, base := s.arg.nats.getD 1 0 } l (some now) | _, _ => s
  let na := match A with | some a => a.name | none => 0
  let nb := match B with | some b => b.name | none => 0
  let back := x.putsBack na nb
  let raised := back && x.h < 4
  let s := s.modPair k fun y => { y with phase := .idle, quiet := 0, h := if back then min (y.h + 1) 4 else y.h, prevA := na, prevB := nb, prevI := some x.inst }
  let s : State := { s with regs := { s.regs with xchg := min (s.regs.xchg + 1) 0xFFFF, rev := if raised then min (s.regs.rev + 1) 0xFFFF else s.regs.rev } }
  .next (((A.toList ++ B.toList).map (·.name)).foldl State.leaveTransit s)
/-- CELL_WAKE (R339): a gated cell that a placement chose issues again. -/
def execCellWake (s : State) : Out :=
  .next (s.modCell s.arg.n fun e => { e with gated := false, waking := false, idle := 0 })

-- Pre-emption and parking (14 R311, R323) --------------------------------------------------------------------------

/-- The place for an actor that moves (R338): an actor with something in a B latch only where the latch is free. -/
def State.placeMove (s : State) (a : Actor) : Option Spot :=
  let cands := (List.range 512).filterMap fun c => if s.latched a && !s.latchFree c a.name then none else s.spotAt c (jobOf a.name) a.roaming a.size
  minBy (fun (p : Spot) => s.placeCost p.cell a.cell) cands
/-- A gated cell that a placement chose wakes, its scratchpad zeroed. -/
def State.wakeCell (s : State) (c : Nat) : State :=
  let e := s.cell c
  if e.gated && !e.waking then ((s.zero (spKey c 0) (2 ^ 22)).modCell c fun e => { e with waking := true }).post 3400 .cellWake { n := c } else s
/-- PARK (R311): the region and the latch tile are written to DRAM; the traffic entries clear. -/
def State.park (s : State) (a : Actor) : State :=
  let l := s.lift a
  let s := s.vacate a
  let b : Actor := { a with st := .parked, pLatch := l.cur.orElse fun _ => l.nxt }
  let k := parkKey a.name
  let s : State := (s.setActor b).put k l.bs
  ({ s with spois := (l.ps.map (· + k / 32)).foldl insNat s.spois } : State).post 64 .unpark { actor := a.name }
/-- An actor moves to a place, or a roaming one to another anchor. -/
def State.relocate (s : State) (a : Actor) (p : Spot) : State :=
  let s := (s.wakeCell p.cell).forgetName a.name
  if a.roaming then (s.setActor { a with cell := p.cell, rc := false }).refresh a.name
  else
    let l := s.lift a
    (if a.st == .parked then s else s.vacate a).putDown a p l none
/-- Whether the host has been asked where an actor goes. -/
def State.askedMove (s : State) (n : ActorName) : Bool :=
  s.duties.any fun d => match d.what with | .place q => q.kind == .move && q.by_ == n | _ => false
/-- The host is asked where an actor goes (duty 3). -/
def State.askMove (s : State) (a : Actor) : State :=
  if s.askedMove a.name then s
  else s.askPlace { kind := .move, by_ := a.name, job := jobOf a.name, cell := a.cell } a.name a.cell a.roaming
/-- An actor leaves its cell: to the place of least cost, else it is parked; a roaming one without a place stays. -/
def State.leave (s : State) (a : Actor) : State :=
  if s.hostDuty 3 then s.askMove a
  else match s.placeMove a with
    | some p => s.relocate a p
    | none => if a.roaming then s else s.park a
/-- PREEMPT (R323; 21 R400): cell `n` drains of job `m`, or, being retired (`flag`), of every actor; each leaves once it is
between invocations. -/
def execPreempt (s : State) : Out :=
  let c := s.arg.n
  let s := if s.arg.flag then s else s.modCell c fun e => { e with drain := some s.arg.m }
  let mine (a : Actor) : Bool := a.shadow.isNone && !isBoot a.name && (s.arg.flag || jobOf a.name == s.arg.m) && (a.st == .idle || a.st == .ready || a.st == .active || a.st == .transit)
  let here := (s.seated c).filter mine
  let roam := s.all.filter fun a => a.roaming && mine a && (if s.arg.flag then a.cell == c else a.rc && a.rcell == c)
  let free (a : Actor) : Bool := (a.st == .idle || a.st == .ready) && !s.unitsBusy a && !a.dbg.stop
  let s1 := (here.filter free).foldl State.leave s
  let s2 := (roam.filter free).foldl (fun (t : State) a => if s.arg.flag then t.leave a else t.setActor { t.actor a.name with name := a.name, rc := false }) s1
  .next (if (here ++ roam).all (fun a => free a && !s.hostDuty 3) then s2 else s2.post 64 .preempt s.arg)
/-- UNPARK (R311): a parked actor is granted a seat and its region restored; while none is free it waits. -/
def execUnpark (s : State) : Out :=
  let n := s.arg.actor
  let a := s.actor n
  if !(s.has n && a.st == .parked) then .next s
  else if s.hostDuty 3 then .next (s.askMove a)
  else match s.placeMove a with
    | some p => .next (s.relocate a p)
    | none => .next (s.post 64 .unpark s.arg)

-- Roaming contexts (14 R309, R313) ---------------------------------------------------------------------------------

/-- The effective priority at which an actor competes (14 R318). -/
def State.competes (s : State) (a : Actor) : Nat :=
  if a.st == .active then a.eprio else match s.nextMail a with | some m => max a.bprio m.msg.cprio.val | none => a.bprio
/-- A roaming slot of a cell that is free. -/
def State.openSlot (s : State) (c : Nat) : Option Nat := (List.range 8).find? fun k => !(s.roamers c).any fun x => x.rslot == k
/-- The slot of a cell that an incoming context takes (R313), and the actor that leaves it. A cell that drains for the actor's job has none for
an invocation that is to start (R323; DEDUCED, log 116: such a cell offers the actor to others, R309). -/
def State.slotVictim (s : State) (c : Nat) (a : Actor) : Option (Nat × Option ActorName) :=
  let rs := s.roamers c
  if a.st != .active && (s.cell c).drain == some (jobOf a.name) then none
  else match s.openSlot c with
  | some k => some (k, none)
  | none => match minBy (fun (x : Actor) => x.ranAt) (rs.filter fun x => x.st == .idle || x.st == .ready) with
    | some x => some (x.rslot, some x.name)
    | none =>
      let waiting := sortBy (fun (x : Actor) => x.rslot) (rs.filter fun x => x.st == .active && x.waits == some x.retired && x.eprio < s.competes a)
      (minBy (fun (x : Actor) => x.eprio) waiting).map fun x => (x.rslot, some x.name)
/-- A context takes a slot; the context that leaves it is written back (CONTEXT_WRITEBACK). -/
def State.takeSlot (s : State) (a : Actor) (c k : Nat) (out : Option ActorName) : State :=
  let s := match out with | some n => s.modActor n fun b => { b with rc := false } | none => s
  s.setActor { a with rc := true, rcell := c, rslot := k, fetching := false, offer := none }
/-- CONTEXT_FETCH (R313): a roaming context arrives in a slot of its anchor; without a slot it waits, and after 1,024 cycles
the anchor offers it to other cells (R309; only an invocation that is to start). -/
def execContextFetch (s : State) : Out :=
  let n := s.arg.actor
  let a := s.actor n
  if !(s.has n && a.roaming && !a.rc && (a.st == .ready || a.st == .active)) then .next (s.modActor n fun b => { b with fetching := false })
  else match s.slotVictim a.cell a with
    | some (k, out) => .next (s.takeSlot a a.cell k out)
    | none =>
      let s := s.post 16 .contextFetch s.arg
      if a.offer.isSome || a.st == .active then .next s
      else .next ((s.freshId.setActor { a with offer := some s.nextId }).post 1024 .roamingOffer { actor := n, n := s.nextId })
/-- The waits for a slot of an anchor that has one: their 1,024 cycles begin anew (R309). -/
def State.endOffers (s : State) : State :=
  (s.all.filter fun a => a.offer.isSome && (a.st != .ready || ((s.cell a.cell).drain != some (jobOf a.name) && (s.openSlot a.cell).isSome))).foldl
    (fun (t : State) a => t.setActor { a with offer := none }) s
/-- ROAMING_OFFER (R309): the anchor has had no free slot since the offer became due: the first cell of its die, nearest first, with a free
roaming slot runs the next invocation, unless it drains for the job (R323). -/
def execRoamingOffer (s : State) : Out :=
  let n := s.arg.actor
  let a := s.actor n
  if !(s.has n && a.roaming && !a.rc && a.st == .ready && a.offer == some s.arg.n) then .next s
  else
    let fit (c : Nat) : Bool := dieOf c == dieOf a.cell && c != a.cell && (s.cell c).health == 0 && !(s.cell c).boot && !(s.cell c).gated && (s.cell c).drain != some (jobOf n)
    match (sortBy (fun c => dist a.cell c) ((List.range 512).filter fit)).findSome? fun c => (s.openSlot c).map fun k => (c, k) with
    | some (c, k) => .next (s.takeSlot a c k none)
    | none => .next (s.post 16 .roamingOffer s.arg)

end Sys2Proof.Machine
end

