-- ==== Sys2Proof/Machine/Buoy.lean ====
section
/-! DEFINITION. Buoy allocation and extents: `balloc`, `bfree`, `xmap` and `xunmap` (09 R224 to R228). While one of them
waits, `pend` of its actor says how far it is; it issues again until its status is there. -/

namespace Sys2Proof.Machine

/-- The checks that come before any other (R224): the range's address, a multiple of `al`, and its size. -/
def buoyRange (s : State) (al : Nat) (p0 p1 p2 : PWord) : Res (Nat × Nat) := do
  let va ← param64 s p0 p1
  let n ← param s false p2
  check (va % al == 0 && n != 0) rExtent
  check (va / 2 ^ 56 == 0) rExtent
  return (va, n)
/-- A status pushed, and the instruction retired. -/
def State.status (s : State) (v : Nat) : State := ((s.setCur { s.cur with pend := none, xwalk := none, drains := [] }).pushOutside (BitVec.ofNat 64 v) false).retire 5
/-- The instruction waits in phase `k`. -/
def State.phase (s : State) (k : Nat) : State := s.setCur { s.cur with pend := some k }

-- Allocations (R225, R226; 03 R83) ---------------------------------------------------------------------------------

/-- Granules backed one by one at the lowest free frames; none when they run out. -/
def State.backEach (s : State) (a : Actor) (r : RegionRec) : List Nat → Option State
  | [] => some s
  | vp :: l => match s.backAs a r vp vp 16 with | some t => t.backEach a r l | none => none
/-- The granules of an allocation backed: at the run that the host named (its first granule, as a pod buoy offset: 21 R402), else together,
else one by one. -/
def State.placeRun (s : State) (a : Actor) (r : RegionRec) (vp mib : Nat) (first : Option Nat) : Option State :=
  match first with
  | some g =>
    let p := 0x40000000 + g * 16
    if s.runServes .buoy p (mib * 16) r.mirror then some (s.backRun a r vp (mib * 16) p) else none
  | none => (s.backAs a r 0 vp (mib * 16)).orElse fun _ => s.backEach a r ((List.range mib).map fun i => vp + 16 * i)
/-- An allocation of `mib` granules at `va` in region `r` (R225): its status, the lowest that applies, and the state. `first` is the
granule that the host chose. -/
def State.alloc (s : State) (a : Actor) (r : RegionRec) (va mib : Nat) (first : Option Nat) : Nat × State :=
  let vp := va / 2 ^ 16
  let here (b : Backing) : Bool := b.job == jobOf a.name && b.owner == backOwner a r && b.vpage < vp + mib * 16 && vp < b.vpage + b.npg
  let e : BuoyAlloc := { job := jobOf a.name, actor := a.name, va := va, mib := mib, mir := r.mirror, owner := backOwner a r }
  if !s.quotaOk (jobOf a.name) (quotaCost mib r.mirror) then (1, s)
  else match s.placeRun a r vp mib first with
    | none => (2, s)
    | some t => if s.backs.any here then (3, s) else (0, { t with ballocs := t.ballocs ++ [e] })
/-- `balloc` (R225). -/
def execBalloc (p0 p1 p2 : PWord) (mir com : Bool) (s : State) : Out :=
  unguarded s do
    let (va, mib) ← buoyRange s (2 ^ 20) p0 p1 p2
    match regionAt (s.image s.cur) va with
    | none => Kill rExtent
    | some (_, r) =>
      check (r.kind == .buoy && !r.locked && va + mib * 2 ^ 20 ≤ r.vbase + r.size) rExtent
      check (r.mirror == mir && (r.share != .priv) == com) rExtent
      check (mir || !com) rExtent
      needGlobal s
      if s.cur.shadow.isSome then return s.status 0
      match s.cur.pend with
      | some k => if 16 ≤ k then return s.status (k - 16) else Stall s
      | none =>
        if s.hostDuty 4 then
          let m3 := BitVec.ofNat 64 (mib + ofBool mir * 2 ^ 32 + ofBool com * 2 ^ 33)
          Stall ((s.phase 8).askHost 4 (.buoy s.focus 0 va mib mir com) (BitVec.ofNat 64 (jobOf s.focus)) (BitVec.ofNat 64 va) m3)
        else
          let (st, t) := s.alloc s.cur r va mib none
          return t.status st
/-- `bfree` (R226): its runs take no new walks while every actor that holds an entry of them lets go. -/
def execBfree (p0 p1 p2 : PWord) (s : State) : Out :=
  unguarded s do
    let (va, mib) ← buoyRange s (2 ^ 20) p0 p1 p2
    needGlobal s
    if s.cur.shadow.isSome then return s.status 0
    match s.ballocs.find? fun e => e.va == va && e.mib == mib && e.job == jobOf s.focus && (e.actor == s.focus || e.mir) with
    | none => return s.status 4
    | some e =>
      match s.cur.pend with
      | none =>
        let runs := s.backs.filter e.holds
        let who := (runs.map fun b => (s.all.filter fun a => a.exts.any fun x => x.meetsRun b.ppage b.npg).map fun a => (a.name, b)).flatten
        let s : State := { s with backs := s.backs.map fun (b : Backing) => if e.holds b then { b with moving := true } else b }
        let s := s.phase (1 + who.length)
        Stall (who.foldl (fun (t : State) w => t.post 0 .invalidation { actor := w.1, other := t.focus, n := w.2.ppage, m := w.2.npg }) s)
      | some 1 =>
        let runs := s.backs.filter e.holds
        let s := s.unback e.holds
        let s : State := { s with ballocs := s.ballocs.filter fun x => x != e }
        return (runs.foldl State.rewalk s).status 0
      | some _ => Stall s

-- Mapping (R227) ---------------------------------------------------------------------------------------------------

/-- A run of pages cut at a range: first page, length, first physical page. -/
def clipRun (lo n : Nat) (b : Nat × Nat × Nat) : Nat × Nat × Nat :=
  let v := max lo b.1
  (v, min (lo + n) (b.1 + b.2.1) - v, b.2.2 + (v - b.1))
/-- A range of pages widened to whole pages of a region (04 R94). -/
def wholePages (page vp n : Nat) : Nat × Nat :=
  let k := pagesOf page
  (vp / k * k, ceilDiv (vp + n) k * k - vp / k * k)
/-- What is left of a run without the pages of another range. -/
def runWithout (lo n : Nat) (b : Nat × Nat × Nat) : List (Nat × Nat × Nat) :=
  let end_ := b.1 + b.2.1
  if end_ ≤ lo ∨ lo + n ≤ b.1 then [b]
  else (if b.1 < lo then [(b.1, lo - b.1, b.2.2)] else []) ++
    (if lo + n < end_ then [(lo + n, end_ - (lo + n), b.2.2 + (lo + n - b.1))] else [])
/-- Neighbouring runs that are contiguous on both sides joined. -/
def joinRuns : List (Nat × Nat × Nat) → List (Nat × Nat × Nat)
  | [] => []
  | r :: rest => match joinRuns rest with
    | [] => [r]
    | q :: l => if r.1 + r.2.1 = q.1 ∧ r.2.2 + r.2.1 = q.2.2 then (r.1, r.2.1 + q.2.1, r.2.2) :: l else r :: q :: l
/-- Whether a dynamic entry overlaps a range of pages. -/
def Ext.overlaps (e : Ext) (vp n : Nat) : Bool := e.valid && !e.locked && e.vpage < vp + n && vp < e.vpage + e.npg
/-- The backed runs of a range of an actor's region, rising. -/
def State.runsIn (s : State) (a : Actor) (r : RegionRec) (vp n : Nat) : List (Nat × Nat × Nat) :=
  sortBy (fun (b : Nat × Nat × Nat) => b.1) ((s.backs.filter fun b => b.job == jobOf a.name && b.owner == backOwner a r && !b.moving &&
    b.vpage < vp + n && vp < b.vpage + b.npg).map fun b => clipRun vp n (b.vpage, b.npg, b.ppage))
/-- The first page of a range that no run covers. -/
def firstGap (vp : Nat) : List (Nat × Nat × Nat) → Nat
  | [] => vp
  | b :: r => if b.1 = vp then firstGap (vp + b.2.1) r else vp
/-- `xmap` (R227): each page of the range that nothing backs is walked for, as a first touch; then, once the requests sent through the
unpinned entries that overlap the range have been answered, pinned entries cover it. In a region of larger pages the range is widened to
whole pages (04 R94; log 106). -/
def execXmap (p0 p1 p2 : PWord) (s : State) : Out :=
  unguarded s do
    let (va, n) ← buoyRange s (2 ^ 16) p0 p1 p2
    let vp := va / 2 ^ 16
    needGlobal s
    if s.cur.shadow.isSome then return s.status 0
    match regionAt (s.image s.cur) va with
    | none => return s.status 2
    | some (ri, r) =>
      if r.vbase + r.size < va + n * 2 ^ 16 then return s.status 2
      if r.locked then return s.status 3
      if s.cur.pend == some 4 then return s.status 4
      let (vp, n) := wholePages r.page vp n
      let runs := s.runsIn s.cur r vp n
      let gap := firstGap vp runs
      if gap < vp + n then
        if s.cur.xwalk == some gap then Stall s
        Stall ((s.setCur { s.cur with pend := some 0, xwalk := some gap }).post 0 .walkRequest { actor := s.focus, n := gap * 2 ^ 16 })
      let kept := s.cur.exts.filter fun (e : Ext) => e.valid && e.pin
      let fresh := joinRuns (kept.foldl (fun l (e : Ext) => (l.map (runWithout e.vpage e.npg)).flatten) runs)
      if 12 < kept.length + fresh.length then return s.status 1
      let drop (e : Ext) : Bool := e.overlaps vp n && !e.pin
      let drains := s.cur.drains ++ (s.cur.exts.filter drop).map fun (e : Ext) => (e.ppage, e.npg)
      if s.cur.exts.any drop || s.cur.flies s.cur.drains then
        Stall (s.setCur { s.cur with exts := s.cur.exts.map (fun (e : Ext) => if drop e then { e with valid := false } else e), pend := some 2, drains := drains })
      let add (a : Actor) (b : Nat × Nat × Nat) : Actor := a.install (s.mkExt s.cur ri r b.1 b.2.1 b.2.2 false true)
      return (s.setCur (fresh.foldl add s.cur)).status 0

-- Unmapping (R228) -------------------------------------------------------------------------------------------------

/-- `xunmap` (R228): the entries are cleared, and its status follows once the requests sent through them are answered; the
backing of a private locked region returns to Astrolabe. -/
def execXunmap (p0 p1 p2 : PWord) (s : State) : Out :=
  unguarded s do
    let (va, n) ← buoyRange s (2 ^ 16) p0 p1 p2
    let vp := va / 2 ^ 16
    needGlobal s
    if s.cur.shadow.isSome then return s.status 0
    let meets (e : Ext) : Bool := e.npg != 0 && e.vpage < vp + n && vp < e.vpage + e.npg
    let exact (e : Ext) : Bool := e.vpage == vp && e.npg == n
    let inside (e : Ext) : Bool := vp ≤ e.vpage && e.vpage + e.npg ≤ vp + n
    match s.cur.pend with
    | none =>
      let l := s.cur.exts.filter fun (e : Ext) => e.valid && meets e
      if l.isEmpty then return s.status 4
      if l.any fun e => if e.locked then !exact e else !inside e then return s.status 2
      let s := s.setCur { s.cur with exts := s.cur.exts.map (fun (e : Ext) => if e.valid && meets e then { e with valid := false, pin := false } else e), drains := l.map fun (e : Ext) => (e.ppage, e.npg) }
      Stall (s.phase 1)
    | some _ =>
      if s.cur.flies s.cur.drains then Stall s
      let mine := s.cur.exts.any fun (e : Ext) => e.locked && exact e && e.share == .priv
      let s := if mine then s.unback fun b => b.job == jobOf s.focus && b.owner == s.focus && b.locked && b.vpage == vp && b.npg == n else s
      return s.status 0

end Sys2Proof.Machine
end

