-- ==== Sys2Proof/Machine/Fetch.lean ====
section
/-! DEFINITION. Fetching an instruction: the bytes of `.text` at an actor's program counter (01 R17, R19) and what they decode to. -/

namespace Sys2Proof.Machine

/-- The bytes of `.text` from an actor's program counter, at most the longest instruction's (01 R19). -/
def State.code (s : State) (a : Actor) : List Byte :=
  let f := s.file a.file
  if a.pc < f.textLen then s.bytes (f.text + a.pc) (min 20 (f.textLen - a.pc)) else []
/-- The instruction at an actor's program counter; none where its words do not lie in `.text` or do not decode (01 R19, R34). -/
def State.fetch (s : State) (a : Actor) : Option Instr :=
  if a.pc % 4 = 0 then
    match decode (s.code a) with
    | .ok (i, _) => some i
    | .error _ => none
  else none

end Sys2Proof.Machine
end

