-- ==== Sys2Proof/Machine/Sextant.lean ====
section
/-! DEFINITION. Sextant (21 R393 to R398): the sample at a handler's start, its signature, the shadow runs on other cells, the
verdict, and the quarantine of a cell. -/

namespace Sys2Proof.Machine

-- Quarantine (R398) ------------------------------------------------------------------------------------------------

/-- CELL_QUARANTINE (R398): the actors of a cell die with AUDIT_MISMATCH, the cell leaves service, and the host is told. -/
def State.quarantine (s : State) (c : Nat) : State :=
  let who := ((s.seated c).filter fun a => !isBoot a.name) ++ s.roamers c
  let s := s.modCell c fun e => { e with health := 2, gated := true }
  let s := who.foldl (fun (t : State) a => killActor t a.name rAuditMismatch) s
  s.record 0 4 0 0 0 (BitVec.ofNat 64 c)

-- Samples (R393, R394) ---------------------------------------------------------------------------------------------

/-- A count that stops at 0xFFFF, one higher. -/
def sat16 (n : Nat) : Nat := min (n + 1) 0xFFFF
/-- The tiles attached to the message of an actor's invocation, with their bytes in its zones. -/
def State.attached (s : State) (a : Actor) : List (Nat × List Byte) :=
  (List.range a.msg.caps.length).filterMap fun k =>
    let e := tileAt a (28 + k)
    if e.glob || e.state == .latched then none
    else some (k, s.bytes (tileKey a e) (tileSize e (descOf (descVal a e))))
/-- An audited handler is about to start (R393): the cell's sampling register rises; if this start is sampled, a free buffer
takes the snapshot. -/
def State.sample (s : State) (n : ActorName) : State :=
  let a := s.actor n
  let c := runCell a
  let r := (s.cell c).sreg
  let s := s.modCell c fun e => { e with sreg := r + 1 }
  if s.regs.audEn && r.toNat % 2 ^ s.regs.audK = 0 then
    match (List.range 64).find? fun b => !kvHas s.audits b with
    | none => s
    | some b =>
      let lat := if a.tiles.any fun t => t.state == .latched then some ((s.cell a.cell).lb, 0) else none
      let buf : AuditBuf := { actor := n, cell := c, cells := [c], snap := { a with pLatch := lat }, tiles := s.attached a }
      let s : State := { s with audits := kvSet s.audits b buf, regs := { s.regs with smp := sat16 s.regs.smp } }
      s.modActor n fun x => { x with audit := some b }
  else s
/-- The signature of an output stream (R394). -/
def signature (out : List Byte) : W64 × W64 := (BitVec.ofNat 64 (crc64 0 out), BitVec.ofNat 64 (crc64 (2 ^ 64 - 1) out))
/-- The bytes of the named registers that `liveout` saves, in ascending order (R394). -/
def liveBytes (a : Actor) : List Byte :=
  ((List.range 16).map fun k => if bit a.liveout k then
    match a.s.getD k (.val 0 false) with | .val v _ => bytesOf 8 v.toNat | .wait _ => bytesOf 8 0 else []).flatten
/-- A sampled invocation has completed: its signature is taken and its shadow run is due. -/
def State.sampleDone (s : State) (n : ActorName) : State :=
  let a := s.actor n
  match a.audit with
  | none => s
  | some b =>
    let s := s.logOut a (liveBytes a)
    let s := s.modAudit b fun x => { x with sigs := [signature x.out] }
    (s.modActor n fun x => { x with audit := none }).post 0 .shadowRun { n := b }

-- Shadow runs (R396) -----------------------------------------------------------------------------------------------

/-- Whether a cell's B latch can take the relayed tile of a snapshot. -/
def State.latchSpare (s : State) (c : Nat) : Bool :=
  let e := s.cell c
  e.lbOwner == 0 && e.lbIn == 0 && e.lbBind.isNone && !e.lbNext.loaded
/-- The place that a cell offers a shadow run: a seat and a region, or a free roaming slot. -/
def State.shadowSpot (s : State) (b : AuditBuf) (c : Nat) : Option Spot :=
  let a := b.snap
  if b.cells.contains c || (s.cell c).gated || !s.openTo c 65536 || (a.pLatch.isSome && !s.latchSpare c) then none
  else if a.roaming then
    ((List.range 8).find? fun k => !(s.roamers c).any fun x => x.rslot == k).map fun k => { cell := c, seat := k }
  else match s.freeSeat c, lowestRun (s.unitRuns c) a.size with
    | some k, some u => some { cell := c, seat := k, base := u * 4096 }
    | _, _ => none
/-- A sample ends without a verdict (R397). -/
def State.abandonSample (s : State) (b : Nat) : State :=
  let x := s.audit b
  let s : State := { s with audits := kvDel s.audits b, regs := { s.regs with aban := sat16 s.regs.aban } }
  (s.modActor x.actor fun a => if a.audit == some b then { a with audit := none } else a).sweepFiles
/-- The context of a shadow run: the snapshot's, with nothing of the actor's ties. -/
def shadowActor (b : Nat) (x : AuditBuf) (p : Spot) (now : Nat) : Actor :=
  let a := x.snap
  { a with name := shadowName b, supn := 0, st := .active, cell := p.cell, seat := if a.roaming then a.seat else p.seat, base := p.base, rc := a.roaming, rcell := p.cell, rslot := p.seat, walks := [], links := [], mons := [], watch := [], mbox := [], pairs := [], outbox := [], outs := [], flying := [], xwalk := none, drains := [], asks := [], offer := none, dbg := {}, target := x.actor, audit := none, shadow := some b, start := now, paused := 0, pLatch := none, fetching := false, waits := none, await := none, pend := none }
/-- SHADOW_RUN (R396): the run of a sample on the nearest cell that qualifies; none abandons it. -/
def execShadowRun (s : State) : Out :=
  let b := s.arg.n
  if !kvHas s.audits b then .next s
  else
    let x := s.audit b
    match minBy (fun (p : Spot) => dist p.cell x.cell) ((List.range 512).filterMap (s.shadowSpot x)) with
    | none => .next (s.abandonSample b)
    | some p =>
      let a := shadowActor b x p s.cycle
      let s := s.modAudit b fun y => { y with cells := y.cells ++ [p.cell], left := y.log, out := [] }
      let s := (s.setActor a).initRegion a (s.image a) (s.file a.file)
      let s := x.tiles.foldl (fun (t : State) e => t.put (tileKey a (tileAt a (28 + e.1))) e.2) s
      let s := match x.snap.pLatch with
        | some l => s.modCell p.cell fun e => { e with lb := l.1, lbOwner := a.name, lbSrc := 0 }
        | none => s
      .next (s.post (4 * a.budget) .shadowAbandon { n := b, flag := true, actor := x.actor, m := x.snap.invNo, k := x.sigs.length })

-- Verdicts (R397) --------------------------------------------------------------------------------------------------

/-- A sample ends: its buffer is free. -/
def State.freeAudit (s : State) (b : Nat) : State := ({ s with audits := kvDel s.audits b } : State).sweepFiles
/-- An unresolved sample. -/
def State.unresolved (s : State) (b : Nat) : State :=
  let c := (s.audit b).cell
  (({ s with regs := { s.regs with unr := sat16 s.regs.unr } } : State).record 0 4 1 0 0 (BitVec.ofNat 64 c)).freeAudit b
/-- Signatures compared (R397). A first mismatch asks the host when duty 2 is its (R402). -/
def State.verdict (s : State) (b : Nat) : State :=
  let x := s.audit b
  let c1 := x.cells.getD 1 0
  match x.sigs with
  | [o, y] =>
    if o = y then s.freeAudit b
    else
      let s : State := { s with regs := { s.regs with mis := sat16 s.regs.mis } }
      if s.hostDuty 2 then
        (s.record 0 4 2 0 0 (BitVec.ofNat 64 x.cell)).askHost 2 (.audit b) (BitVec.ofNat 64 (x.cell + c1 * 2 ^ 16)) x.actor (BitVec.ofNat 64 x.snap.msg.chan.val)
      else s.post 0 .shadowRun { n := b }
  | [o, y, z] =>
    if z = o then (s.quarantine c1).freeAudit b
    else if z = y then (s.quarantine x.cell).freeAudit b
    else s.unresolved b
  | _ => s
/-- A shadow context leaves its cell. -/
def State.dropShadow (s : State) (b : Nat) : State := (s.release (s.actor (shadowName b))).dropActor (shadowName b)
/-- SHADOW_COMPLETE (R396, R397): a shadow run is over once the units are done with it; a run that faulted has the signature
of its reason alone. -/
def execShadowComplete (s : State) : Out :=
  let b := s.arg.n
  let a := s.actor (shadowName b)
  if !s.has (shadowName b) || !kvHas s.audits b then .next s
  else if s.unitsBusy a then .next (s.post 1 .shadowComplete s.arg)
  else
    let out := match a.debt with | some r => [r] | none => (s.audit b).out
    let s := s.dropShadow b
    .next ((s.modAudit b fun x => { x with sigs := x.sigs ++ [signature out] }).verdict b)
/-- SHADOW_ABANDON (R396, R397): the sample of an invocation (`actor`, `m`) is given up; with `flag`, only if its shadow run
number `k` still runs. -/
def execShadowAbandon (s : State) : Out :=
  let g := s.arg
  let b := g.n
  let x := s.audit b
  let a := s.actor (shadowName b)
  if !kvHas s.audits b || x.actor != g.actor || x.snap.invNo != g.m then .next s
  else if g.flag && (a.st != .active || x.sigs.length != g.k) then .next s
  else if !s.has (shadowName b) then .next (s.abandonSample b)
  else if s.unitsBusy a then .next ((s.setActor { a with st := .dying }).post 1 .shadowAbandon { g with flag := false })
  else .next ((s.dropShadow b).abandonSample b)
/-- The end of a shadow run that has faulted nowhere. -/
def State.shadowDone (s : State) (b : Nat) : State :=
  let s := s.logOut s.cur (liveBytes s.cur)
  (s.setCur { s.cur with st := .dying, debt := none }).post 0 .shadowComplete { n := b }

/-- QUARANTINE_WRITE (R399): `quar` written. -/
def execQuarantineWrite (s : State) : Out := .next (s.quarantine (s.arg.v.toNat % 512))

end Sys2Proof.Machine
end

