-- ==== Sys2Proof/Machine/MsgInstr.lean ====
section
/-! DEFINITION. The message, lifecycle and naming instructions (11 R262 to R286): `send` to `reply`, `await`, `end`, `spawn` to
`supq`. What an invocation sends waits in its outbox; `commit` releases it. -/

namespace Sys2Proof.Machine

-- Outbox -----------------------------------------------------------------------------------------------------------

/-- Entries appended to the outbox; a full overflow area kills (R262). -/
def needOutbox (a : Actor) (l : List OutItem) : Res Actor := do
  let b : Actor := { a with outbox := a.outbox ++ l }
  check (l.isEmpty || ovfFits b) rOverflow
  return b
/-- The issuing actor with a longer outbox; the page of its area that this needs is asked for (14 R315). A shadow run has no area. -/
def State.spillOut (s : State) (a : Actor) : State := if a.shadow.isSome then s.setCur a else (s.setCur a).askArea a.name
/-- The values of some operands, all stalls before any poison (R267, check 1). -/
def operands (s : State) : List Scalar → Res (List (W64 × Bool))
  | [] => .ok []
  | x :: r => do
    let v ← operand s x
    let vs ← operands s r
    return v :: vs
/-- The values of operands none of which may be poisoned. -/
def cleanOperands (s : State) (l : List Scalar) : Res (List W64) := do
  let vs ← operands s l
  check (vs.all fun v => !v.2) rPoison
  return vs.map (·.1)
/-- A name's job must be the issuer's (R279). -/
def needJob (s : State) (n : ActorName) : Res Unit := check (jobOf n == jobOf (selfName s.cur)) rExtent
/-- A destination must be of the issuer's job or of job 0, on a module that is not lost (R267, check 2). -/
def needDest (s : State) (n : ActorName) : Res Unit := do
  check (jobOf n == 0 || jobOf n == jobOf (selfName s.cur)) rExtent
  check (!s.peerDead (pkgOf n)) rPeerLost

-- Tiles ------------------------------------------------------------------------------------------------------------

/-- The capability of a tile (05 R127). -/
def capOf (e : TileEnt) : TileEnt := { e with state := .free, drn := 0, lu := false, loc := if e.glob then e.loc else 0 }
/-- The handles that tile fields resolve to (05 R126). -/
def resolveAll (a : Actor) : List TileSel → Res (List Nat)
  | [] => .ok []
  | x :: r => do
    let h ← resolve a false x
    let hs ← resolveAll a r
    return h :: hs
/-- Each of some handles is in a state that it may be sent from, and the tile of each is sound. -/
def needSends (s : State) : List Nat → Res Unit
  | [] => .ok ()
  | h :: r => do
    let e ← needSend s h
    if !e.glob then
      let d ← needDesc s.cur e
      let _ ← needSize s.cur e d
    needSends s r
/-- The handles that tile fields resolve to, all resolved before any state is checked (05 R126), each in a state that it may be sent
from (R267, check 4). -/
def sendTiles (s : State) (l : List TileSel) : Res (List Nat) := do
  let hs ← resolveAll s.cur l
  needSends s hs
  return hs
/-- Room for `n` more transfers (05 R120). -/
def needXfers (s : State) (n : Nat) : Res Unit :=
  if n = 0 || (s.cell (runCell s.cur)).outstanding + n ≤ 32 then .ok () else Stall s
/-- Tile `k` of a message, handle `h`, is given: its bytes are read by a transfer, whose number is answered (05 R118, R127). In a shadow
run nothing is read. -/
def State.giveTile (s : State) (k h : Nat) : State × List Nat :=
  let a := s.cur
  let e := tileAt a h
  if e.glob || a.shadow.isSome then (s.setCur (a.setTile h { e with state := .given }), [])
  else
    let id := s.nextId
    let n := tileSize e (descOf (descVal a e))
    let x : Xfer := { id := id, kind := .give, actor := s.focus, inv := a.invNo, src := some h, soff := e.loc.toNat, bytes := n, k := k, toRead := 1 }
    let a := (a.setTile h { e with state := .given, drn := e.drn + 1 }).addOut { id := id, kind := .give }
    (((s.freshId.setCur (a.watchOp false h)).addXfer a.cell x).post 0 .outboundReadDone { n := a.cell, m := id }, [id])
/-- All tiles of a message given. -/
def State.giveTiles (s : State) : Nat → List Nat → State × List Nat
  | _, [] => (s, [])
  | k, h :: r =>
    let (s, x) := s.giveTile k h
    let (s, y) := s.giveTiles (k + 1) r
    (s, x ++ y)
/-- Whether an address of the issuing actor lies in buoy memory: by its extent, or its region where none is installed. -/
def inBuoy (s : State) (va : Nat) : Bool :=
  match hitIdx s.cur va, regionAt (s.image s.cur) va with
  | some i, _ => (s.cur.exts.getD i {}).kind == .buoy
  | none, some (_, r) => r.kind == .buoy
  | none, none => false
/-- A message with its tiles goes to the outbox, and the instruction of three words retires (R268). -/
def sendMsg (s : State) (m : Msg) (tl : List TileSel) : Res State := do
  let hs ← sendTiles s tl
  check (decide hs.Nodup) rTileState
  let m := { m with sender := selfName s.cur, caps := hs.map fun h => capOf (tileAt s.cur h) }
  let _ ← needOutbox s.cur [.msg m []]
  check (m.rep || pkgOf m.dest == pkgOf m.sender || m.caps.all fun c => !c.glob || inBuoy s c.loc.toNat) rExtent
  needXfers s (m.caps.filter (!·.glob)).length
  let (t, ids) := s.giveTiles 0 hs
  return (t.spillOut { t.cur with outbox := t.cur.outbox ++ [.msg m ids] }).retire 3
/-- The payload and the flags of a message (R265). -/
def msgWith (x : SendArgs) (dest : ActorName) (pl : List W64) : Msg :=
  { dest := dest, chan := x.ch.castLE (by decide), bounce := x.bnc, plen := pl.length, m := pl ++ List.replicate (4 - pl.length) 0 }

/-- `send` (R266 to R268). -/
def execSend (a : Scalar) (x : SendArgs) (g : Guard) (s : State) : Out :=
  guarded s g 3 [] do
    let v ← cleanOperands s (a :: x.pl)
    let d := v.headD 0
    needDest s d
    sendMsg s (msgWith x d (v.drop 1)) []
/-- `sendt` (R266 to R268; 05 R127). -/
def execSendt (a : Scalar) (x : SendArgs) (g : Guard) (s : State) : Out :=
  guarded s g 3 [] do
    let v ← cleanOperands s (a :: x.pl)
    let d := v.headD 0
    needDest s d
    sendMsg s (msgWith x d (v.drop 1)) x.tl
/-- `call` (R268, R271): the slot takes its next generation and is PENDING; m3 carries the reply tag. -/
def execCallRequest (a : Scalar) (x : SendArgs) (g : Guard) (s : State) : Out :=
  guarded s g 3 [] do
    let v ← cleanOperands s (a :: x.pl)
    let d := v.headD 0
    needDest s d
    let y := s.cur.ys.getD x.ys.val {}
    let y := { y with gen := y.gen + 1, st := .pending }
    let pl := v.drop 1
    let tag : W64 := BitVec.ofNat 64 (0x80 + x.ys.val * 16 + y.gen.val)
    let m := msgWith x d (pl ++ List.replicate (3 - pl.length) 0 ++ [tag])
    let t ← sendMsg s { m with call := true, slot := x.ys, rgen := y.gen } x.tl
    return t.setCur { t.cur with ys := t.cur.ys.set x.ys.val y }
/-- `reply` (R267, R268). -/
def execReply (a b : Scalar) (pl : Scalar) (g : Guard) (s : State) : Out :=
  guarded s g 3 [] do
    let v ← cleanOperands s [a, b, pl]
    let d := v.headD 0
    let tag := (v.getD 1 0).toNat
    needDest s d
    check (bit tag 7 && tag < 256) rIllegal
    sendMsg s { dest := d, rep := true, slot := Fin.ofNat 8 (bits tag 6 4), rgen := Fin.ofNat 16 (bits tag 3 0), plen := 1, m := [v.getD 2 0, 0, 0, 0] } []

/-- The receivers of an `mcast`: the other members of the sender's cohort on its bus (05 R129). -/
def State.onBus (s : State) (c : Cohort) (bus cell : Nat) (self : ActorName) : List ActorName :=
  ((s.members c).filter fun a => !a.roaming && a.st != .parked && a.name != self && busOf a.cell c.shape == bus && a.cell < 512 && cell < 512).map (·.name)
/-- `mcast` (R266 to R268; 05 R129): one message per receiver, and one transfer over the bus. -/
def execMcast (x : SendArgs) (g : Guard) (s : State) : Out :=
  guarded s g 3 [] do
    let pl ← cleanOperands s x.pl
    let hs ← sendTiles s x.tl
    let h := hs.headD 0
    let e := tileAt s.cur h
    let self := selfName s.cur
    match s.cohortOf self with
    | none => Kill rExtent
    | some c =>
      check (!e.glob && c.shape != .any && !s.cur.roaming) rExtent
      let cell := s.cur.cell
      let bus := busOf cell c.shape
      let m (d : ActorName) : Msg := { msgWith x d pl with sender := self, caps := [capOf e] }
      let who := s.onBus c bus cell self
      let id := s.nextId
      let a ← needOutbox s.cur (who.map fun d => .msg (m d) [id])
      needXfers s 1
      if s.cur.shadow.isSome then return (s.setCur a).retire 3
      let n := tileSize e (descOf (descVal s.cur e))
      let t : Xfer := { id := id, kind := .mcast, actor := s.focus, inv := a.invNo, src := some h, soff := e.loc.toNat, bytes := n, bus := some bus, toRead := 1, left := who.length }
      let a := ((a.drain h).addOut { id := id, kind := .give }).watchOp false h
      return (((s.freshId.spillOut a).addXfer cell t).post 0 .mcastBusServe { n := bus }).retire 3

-- Futures (R273) ---------------------------------------------------------------------------------------------------

/-- `await` ends: value, then status, and the slot is FREE. -/
def State.awaited (s : State) (b : Fin 8) (v : W64) (p : Bool) (st : Nat) : State :=
  let s := (s.pushOutside v p).pushOutside (BitVec.ofNat 64 st) false
  let y := s.cur.ys.getD b.val {}
  (s.setCur { s.cur with await := none, pend := none, ys := s.cur.ys.set b.val { y with st := .free } }).retire 1
/-- `await` (R273): a commit, and then the wait for the slot, or for the timeout. -/
def execAwait (a : Scalar) (b : Fin 8) (g : Guard) (s : State) : Out :=
  guarded s g 1 [a, a] do
    let v ← cleanOperand s a
    let first := s.cur.await.isNone
    let s ← if first then commit s else pure s
    if !s.alive s.focus then return s
    if s.cur.shadow.isSome then return s.awaited b 0 false 0
    let y := s.cur.ys.getD b.val {}
    if s.cur.pend == some 1 then return s.awaited b 0 false 1
    match y.st with
    | .free => return s.awaited b 0 false 2
    | .filled => return s.awaited b y.val y.pois 0
    | .pending =>
      if !first then Stall s
      else
        let tok := s.nextId
        let s := s.freshId.setCur { s.cur with await := some tok }
        Stall (if v = 0 then s else s.post v.toNat .awaitTimeout { actor := s.focus, n := b.val, m := tok })

-- The end of an invocation (R274) ----------------------------------------------------------------------------------

/-- The named registers that `liveout` saves; one that is not ready yet stalls (08 R171). -/
def saveLive (s : State) : Res (List (W64 × Bool)) :=
  let a := s.cur
  let ent (k : Nat) : Ent := a.s.getD k (.val 0 false)
  if (List.range 16).any fun k => bit a.liveout k && (match ent k with | .wait _ => true | .val _ _ => false) then Stall s
  else .ok (a.saved.mapIdx fun k old => if bit a.liveout k then (match ent k with | .val v p => (v, p) | .wait _ => old) else old)
/-- Handles t28 to t31 and the zones at the end of an invocation (05 R128). -/
def Actor.freeZones (a : Actor) : Actor :=
  let step (b : Actor) (k : Nat) : Actor :=
    let e := tileAt b k
    if e.state == .latched then b else if e.drn != 0 then b.setTile k { e with lu := true } else b.setTile k {}
  { [28, 29, 30, 31].foldl step a with zones := a.zones.map fun (z : Zone) => { z with held := false } }
/-- An invocation is over: the actor is IDLE, or READY when a message waits; a roaming context away from its anchor is written
back (14 R309); bindings go with the last matrix instruction (10 R231). -/
def State.invocationOver (s : State) (saved : List (W64 × Bool)) : State :=
  let a := s.cur
  let s := s.trace 2 a a.msg.sender a.msg.seq a.msg.chan.val 0
  let c := runCell a
  let b : Actor := { a.freeZones.retire 1 with saved := saved, st := .idle, ranAt := s.cycle, rc := a.rc && a.rcell == a.cell, h := List.replicate 16 (.val 0 false), lc := 0, ls := List.replicate 8 0, ldep := 0, offer := none, await := none, pend := none }
  ((s.setCur b).unbindIfOver c (s.focus, a.invNo)).refresh s.focus
/-- The commit of `end`; while it waits, `await` is the token 0, which no request has (21 R405 asks for it). -/
def committing (s : State) : Res State :=
  match commit s with
  | .error (.stall t) => Stall (t.setCur { t.cur with await := some 0 })
  | r => r
/-- `end` (R274). -/
def execEnd (g : Guard) (s : State) : Out :=
  guarded s g 1 [] do
    let saved ← saveLive s
    let s ← committing s
    if !s.alive s.focus then return s
    match s.cur.shadow with
    | some b => return s.shadowDone b
    | none => return (s.sampleDone s.focus).invocationOver saved

-- Creation (R275 to R278, R286) ------------------------------------------------------------------------------------

/-- A creation asked for: its name, or code, is pushed and ready with Astrolabe's answer, and its start messages take their place in
the outbox. In a shadow run the log gives the name. -/
def State.askSpawn (s : State) (q : SpawnReq) : State :=
  let q : SpawnReq := { q with by_ := s.focus, job := jobOf (selfName s.cur), file := s.cur.file, cell := s.cur.cell }
  match s.cur.shadow with
  | some _ =>
    let s := s.pushOutside 0 false
    match s.cur.h.headD (.val 0 false) with
    | .val v _ =>
      let (want, _) := wanted (s.file q.file) q
      let ms := if serialOf v = 0 then [] else want.mapIdx fun i w => OutItem.msg (startMsg (selfName s.cur) (nameOf (pkgOf v) (jobOf v) (serialOf v + i) (genOf v)) w.2) []
      (s.setCur { s.cur with outbox := s.cur.outbox ++ ms }).retire 5
    | .wait _ => s.retire 5
  | none =>
    let ask (tok : Nat) (t : State) : State :=
      let a := t.cur.addOut { id := tok, kind := .spawn }
      (t.setCur { a with outbox := a.outbox ++ [.child tok] }).post 0 .spawnAnswer { req := { q with tok := tok } }
    (s.pushAsked ask).retire 5
/-- `spawn` (R276). -/
def execSpawn (img arg0 arg1 : PWord) (lnk mon : Bool) (s : State) : Out :=
  unguarded s do
    let i ← param s false img
    let v ← param64 s arg0 arg1
    return s.askSpawn { kind := .spawn, img := i, arg := BitVec.ofNat 64 v, lnk := lnk, mon := mon }
/-- A record of `.supervise` in the range of the issuer's image (R277, R286). -/
def ownRecord (s : State) (k : Nat) : Option SupRec :=
  let im := s.image s.cur
  if im.sup ≤ k && k < im.sup + im.nsup then (s.file s.cur.file).sups[k]? else none
/-- `spawnc` (R277). -/
def execSpawnc (crec arg0 arg1 : PWord) (s : State) : Out :=
  unguarded s do
    let k ← param s false crec
    let v ← param64 s arg0 arg1
    check (match ownRecord s k with | some (.cohort _ _) => true | _ => false) rIllegal
    return s.askSpawn { kind := .spawnc, crec := k, arg := BitVec.ofNat 64 v }
/-- The record of `sup` and `supq`: a child or a cohort, of an image with a policy (R286). -/
def supRecord (s : State) (crec : PWord) : Res Nat := do
  let k ← param s false crec
  check ((s.image s.cur).policy != 0) rIllegal
  check (match ownRecord s k with | some (.cohort _ _) | some (.child _ _ _ _) => true | _ => false) rIllegal
  return k
/-- `sup .start` (R286). -/
def execSupStart (crec : PWord) (s : State) : Out :=
  unguarded s do
    let k ← supRecord s crec
    return s.askSpawn { kind := .supStart, crec := k }
/-- An entry removed and its children ended for good (R286); a restart event that waited for it goes on with the others. -/
def State.supRemove (s : State) (sup : ActorName) (e : ChildEnt) : State :=
  let s := s.modTab sup fun t => { t with ents := t.ents.filter fun x => x.rcd != e.rcd }
  let s := (e.members.filter s.alive).foldl (State.killBy · true) s
  if e.st == .restarting then
    let s := s.giveUp e
    match (s.supTab sup).bind fun t => t.ents.find? fun x => e.event && x.event with
    | some x => s.fire sup x.rcd
    | none => s
  else s
/-- `sup .stop` (R286). -/
def execSupStop (crec : PWord) (s : State) : Out :=
  unguarded s do
    let k ← supRecord s crec
    match s.cur.shadow, s.ent s.focus k with
    | none, some e => return ((s.supRemove s.focus e).pushOutside 0 false).retire 5
    | _, _ => return (s.pushOutside 8 false).retire 5
/-- `supq .name` (R286). -/
def execSupqName (crec : PWord) (s : State) : Out :=
  unguarded s do
    let k ← supRecord s crec
    let v := match s.ent s.focus k with | some e => e.name | none => 0
    return (s.pushOutside v false).retire 5
/-- `supq .count` (R286; 16 R353). -/
def execSupqCount (crec : PWord) (s : State) : Out :=
  unguarded s do
    let _ ← supRecord s crec
    let v := match s.supTab s.focus with | some t => (t.window s.cycle).rcnt | none => 0
    return (s.pushOutside (BitVec.ofNat 64 v) false).retire 5
/-- The number of an entry's state (16 R350). -/
def childNum : ChildState → Nat | .none => 0 | .running => 1 | .restarting => 2 | .stopped => 3
/-- `supq .state` (R286). -/
def execSupqState (crec : PWord) (s : State) : Out :=
  unguarded s do
    let k ← supRecord s crec
    let v := match s.ent s.focus k with | some e => childNum e.st | none => 0
    return (s.pushOutside (BitVec.ofNat 64 v) false).retire 5

-- Links, monitors, exits and kills (R279 to R282) ------------------------------------------------------------------

/-- What `link` and `monitor` share (R279). -/
def tieOp (mon : Bool) (a : Scalar) (g : Guard) (s : State) : Out :=
  guarded s g 1 [a] do
    let n ← cleanOperand s a
    needJob s n
    if n = selfName s.cur then return (s.pushOutside 0 false).retire 1
    if s.peerDead (pkgOf n) then return (s.pushOutside 3 false).retire 1
    let me := s.focus
    let mine := if mon then s.cur.mons else s.cur.links
    let ask (tok : Nat) (t : State) : State :=
      let done (v : Nat) (t : State) : State := t.post 0 .linkAnswer { actor := me, other := n, n := ofBool mon, m := tok, k := v }
      if pkgOf n = t.regs.aid then let (v, t) := t.tie me n mon; done v t
      else if mine.contains n then done 0 t
      else if 16 ≤ mine.length then done 1 t
      else
        let a : Actor := { t.cur with asks := t.cur.asks ++ [(tok, n, mon)] }
        (t.setCur (if mon then { a with mons := mine ++ [n] } else { a with links := mine ++ [n] })).tieMsg me n mon 0 tok 0
    return (s.pushAsked ask).retire 1
/-- `link` (R279, R280). -/
def execLink (a : Scalar) (g : Guard) (s : State) : Out := tieOp false a g s
/-- `monitor` (R279, R280). -/
def execMonitor (a : Scalar) (g : Guard) (s : State) : Out := tieOp true a g s
/-- What `unlink` and `demon` share (R279, R280): the entries of both ends go. -/
def untieOp (mon : Bool) (a : Scalar) (g : Guard) (s : State) : Out :=
  guarded s g 1 [a] do
    let n ← cleanOperand s a
    needJob s n
    let had := (if mon then s.cur.mons else s.cur.links).contains n
    let s := if had && s.cur.shadow.isNone then
        let t := s.untie s.focus n mon
        if pkgOf n = s.regs.aid || s.peerDead (pkgOf n) then t else t.tieMsg s.focus n mon 2 0 0
      else s
    return (s.pushOutside (if had then 0 else 1) false).retire 1
/-- `unlink` (R279, R280). -/
def execUnlink (a : Scalar) (g : Guard) (s : State) : Out := untieOp false a g s
/-- `demon` (R279, R280). -/
def execDemon (a : Scalar) (g : Guard) (s : State) : Out := untieOp true a g s
/-- `exit` (R281): a signal at release; of the actor itself, its end with the reason, after a commit when that is NORMAL. -/
def execExit (a b : Scalar) (g : Guard) (s : State) : Out :=
  guarded s g 1 [] do
    let v ← cleanOperands s [a, b]
    let n := v.headD 0
    let r : Reason := (v.getD 1 0).setWidth 8
    needJob s n
    if n != selfName s.cur then
      let c ← needOutbox s.cur [.sig n r]
      return (s.spillOut c).retire 1
    else if r = rNormal then
      let s ← commit s
      if !s.alive s.focus then return s
      match s.cur.shadow with
      | some k => return s.shadowDone k
      | none =>
        let s := s.sampleDone s.focus
        return killActor s s.focus rNormal
    else Kill r
/-- `kill` (R282). -/
def execKill (a : Scalar) (lv : KillLevel) (g : Guard) (s : State) : Out :=
  guarded s g 1 [] do
    let n ← cleanOperand s a
    needJob s n
    if lv == .act && n == selfName s.cur then Kill rKilled
    else
      let c ← needOutbox s.cur [.kill n lv]
      return (s.spillOut c).retire 1
/-- `trapx` (R279; 16 R342): the old exit mask is pushed, the new one set. -/
def execTrapx (a : Scalar) (g : Guard) (s : State) : Out :=
  guarded s g 1 [a] do
    let v ← cleanOperand s a
    let old := s.cur.xmask
    return (s.setCur { s.cur with xmask := v.toNat % 16 }).result 1 (BitVec.ofNat 64 old) false

-- Mask, priority and names (R284, R285) ----------------------------------------------------------------------------

/-- `chmask` (R284). -/
def execChmask (a : Scalar) (g : Guard) (s : State) : Out :=
  guarded s g 1 [a] do
    let v ← cleanOperand s a
    let old := s.cur.chmask
    return (s.setCur { s.cur with chmask := v.toNat % 2 ^ 16 }).result 1 (BitVec.ofNat 64 old) false
/-- A base priority under its job's ceiling (14 R321). -/
def State.underCeiling (s : State) (n : ActorName) (p : Nat) : Nat := match s.job (jobOf n) with | some j => min p j.pmax | none => p
/-- `prio` (R284; 14 R321). -/
def execPrio (a : Scalar) (g : Guard) (s : State) : Out :=
  guarded s g 1 [a] do
    let v ← cleanOperand s a
    check (v.toNat ≤ 7) rIllegal
    let old := s.cur.bprio
    return (s.setCur { s.cur with bprio := s.underCeiling (selfName s.cur) v.toNat }).result 1 (BitVec.ofNat 64 old) false
/-- The live actor of a serial, by its current name. -/
def State.bySerial (s : State) (j serial : Nat) : Option ActorName :=
  (s.all.find? fun a => a.shadow.isNone && jobOf a.name == j && serialOf a.name == serial && a.st != .dying && pkgOf a.name == s.regs.aid).map (·.name)
/-- A serial's name at its current generation (R285): its actor's, or, while a restart is due, its entry's. -/
def State.nameNow (s : State) (j serial : Nat) : ActorName :=
  match s.all.find? fun a => a.shadow.isNone && jobOf a.name == j && serialOf a.name == serial && pkgOf a.name == s.regs.aid with
  | some a => a.name
  | none =>
    match ((s.sups.map (·.ents)).flatten).find? fun e => e.st != .none && jobOf e.name == j && serialOf e.name ≤ serial && serial < serialOf e.name + e.n with
    | some e => nameOf (pkgOf e.name) j serial (genOf e.name)
    | none => 0
/-- `lookup` (R284, R285). -/
def execLookup (a : Scalar) (g : Guard) (s : State) : Out :=
  guarded s g 1 [a] do
    let k ← cleanOperand s a
    let j := jobOf (selfName s.cur)
    let v := match s.job j with
      | some x => match x.reg.find? fun e => e.1 == k with | some e => s.nameNow j e.2 | none => 0
      | none => 0
    return (s.pushOutside v false).retire 1
/-- The status of a `reg` and the registry after it (R285). -/
def State.register (s : State) (j own : Nat) (k : W64) (b : ActorName) : Nat × List (W64 × Nat) :=
  let reg := match s.job j with | some x => x.reg | none => []
  let have_ := (reg.find? fun e => e.1 == k).map (·.2)
  if b = 0 then
    if have_ == some own then (0, reg.filter fun e => e.1 != k) else (3, reg)
  else if jobOf b != j || !s.alive b then (3, reg)
  else match have_ with
    | some n => if n = serialOf b then (0, reg) else if (s.bySerial j n).isSome then (1, reg) else (0, reg.map fun e => if e.1 == k then (k, serialOf b) else e)
    | none => if 1024 ≤ reg.length then (2, reg) else (0, reg ++ [(k, serialOf b)])
/-- `reg` (R284, R285). -/
def execReg (a b : Scalar) (g : Guard) (s : State) : Out :=
  guarded s g 1 [a] do
    let v ← cleanOperands s [a, b]
    let me := selfName s.cur
    let (st, reg) := s.register (jobOf me) (serialOf me) (v.headD 0) (v.getD 1 0)
    let s := if s.cur.shadow.isSome then s else s.modJob (jobOf me) fun x => { x with reg := reg }
    return (s.pushOutside (BitVec.ofNat 64 st) false).retire 1

end Sys2Proof.Machine
end

