-- ==== Sys2Proof/Machine/Debug.lean ====
section
/-! DEFINITION. Debugging one actor (11 R287 to R291; 21 R404, R405): stops and notices, `dhalt` to `dtrc`, and the context
addresses of R289. -/

namespace Sys2Proof.Machine

-- Stops (21 R405) --------------------------------------------------------------------------------------------------

/-- A target stops: a `dhalt` or `dstep` that waits is answered, and any other cause is told to the debugger, the lowest number if
several fall together (R291). -/
def State.stopTarget (s : State) (n : ActorName) : State :=
  let a := s.actor n
  let d := a.dbg
  let s := if d.tok = 0 then s else s.answer d.dbgn d.tok 0 false
  let s := s.modActor n fun b => { b with dbg := { b.dbg with stop := true, since := s.cycle, tok := 0, stc := 0, step := false, pend := [] } }
  let s := s.trace 8 (s.actor n) d.dbgn 0 0 0
  match minBy (fun (c : Nat × Nat) => c.1) d.pend with
  | none => s
  | some c => s.partMessage { dest := d.dbgn, sender := n, chan := Fin.ofNat 16 d.nch, plen := 3, m := [BitVec.ofNat 64 c.1, BitVec.ofNat 64 a.pc, BitVec.ofNat 64 c.2, 0] }
/-- The breakpoint at an actor's program counter (R405); the first instruction after a resume does not fire it. -/
def Actor.breakAt (a : Actor) : Option Nat :=
  if a.dbg.skip then none else (List.range 4).find? fun i => let b := a.dbg.bp.getD i (false, 0); b.1 && b.2 == a.pc
/-- Whether a debugged actor stops before its next instruction. -/
def Actor.stopsNow (a : Actor) : Bool := a.dbg.dbgn != 0 && !a.dbg.stop && (!a.dbg.pend.isEmpty || (a.st == .active && a.breakAt.isSome))
/-- The stop before an instruction, with a breakpoint among its causes. -/
def State.stopBefore (s : State) (n : ActorName) : State :=
  let s := match (s.actor n).breakAt with
    | some i => if (s.actor n).st == ActState.active then s.modActor n fun a => a.cause 2 i else s
    | none => s
  s.stopTarget n
/-- What an instruction that has retired leaves to do for its actor's debugger: `dstep` counts it, `dhalt` that waited for the end of a
commit stops the actor. -/
def State.afterIssue (s : State) (before : Actor) : State :=
  let a := s.actor before.name
  if a.dbg.dbgn = 0 || !s.alive a.name || a.dbg.stop then s
  else if a.retired = before.retired then s
  else
    let s := s.setActor { a with dbg := { a.dbg with skip := false, stc := a.dbg.stc - 1 } }
    if a.dbg.tok != 0 && a.dbg.stc ≤ 1 then s.stopTarget a.name else s

/-- The target of the issuing actor, unless the issuer has none. -/
def State.target (s : State) : Option Actor :=
  if s.cur.target = 0 || s.cur.shadow.isSome then none else some (s.actor s.cur.target)
/-- A target that was stopped goes on; the cycles of the stop do not count against its budget (R287). -/
def Actor.goOn (a : Actor) (now : Nat) : Actor :=
  if a.dbg.stop then { a with paused := a.paused + (now - a.dbg.since), dbg := { a.dbg with stop := false, skip := true } } else a

-- Debug control: maj 0x3C ------------------------------------------------------------------------------------------

/-- The status that refuses a `dhalt`, lowest first (R288); 0 for none. -/
def State.haltStatus (s : State) (t : ActorName) : Nat :=
  if t = selfName s.cur || jobOf t != jobOf (selfName s.cur) then 1
  else if s.alive t && (s.actor t).dbg.dbgn != 0 then 2
  else if !s.alive t then 3
  else if s.cur.target != 0 then 4 else 0
/-- `dhalt` (R288): the target stops at once, but for one inside the commit of its `end` (21 R405) or in TRANSIT. -/
def execDhalt (a : Scalar) (b : Fin 14) (g : Guard) (s : State) : Out :=
  guarded s g 1 [a] do
    let t ← cleanOperand s a
    if s.cur.shadow.isSome then return (s.pushOutside 0 false).retire 1
    let st := s.haltStatus t
    if st != 0 then return (s.pushOutside (BitVec.ofNat 64 st) false).retire 1
    let ask (tok : Nat) (u : State) : State :=
      let u := u.setCur { u.cur with target := t }
      let u := u.modActor t fun x => { x with dbg := { x.dbg with dbgn := u.focus, nch := b.val, tok := tok, stc := 0 } }
      let x := u.actor t
      if x.st == .transit then u.modActor t fun y => { y with dbg := { y.dbg with stop := true, since := u.cycle } }
      else if x.st == .active && x.await == some 0 then u
      else u.stopTarget t
    return (s.pushAsked ask).retire 1
/-- `dstep` (R288): the target runs `a` instructions. DESIGN CHOICE (log 31): a count outside 1 to 65,535 leaves a free
count of that range. -/
def execDstep (a : Scalar) (_ : Fin 1) (g : Guard) (s : State) : Out :=
  guarded s g 1 [a] do
    let v ← cleanOperand s a
    match s.target with
    | none => return (s.pushOutside 1 false).retire 1
    | some t =>
      if !t.dbg.stop || t.dbg.tok != 0 then return (s.pushOutside 1 false).retire 1
      let n := if 1 ≤ v.toNat ∧ v.toNat ≤ 65535 then v.toNat else 1 + (Config.freeValue s.free).toNat % 65535
      let ask (tok : Nat) (u : State) : State :=
        u.modActor t.name fun x => let x := x.goOn u.cycle; { x with dbg := { x.dbg with tok := tok, stc := n, step := true } }
      return (s.freshVal.pushAsked ask).retire 1
/-- `dres` (R288): the target goes on; a[0] detaches it. -/
def execDres (a : Scalar) (g : Guard) (s : State) : Out :=
  guarded s g 1 [a] do
    let v ← cleanOperand s a
    match s.target with
    | none => return (s.pushOutside 1 false).retire 1
    | some t =>
      let s := (s.pushOutside 0 false).retire 1
      let s := s.modActor t.name fun x => x.goOn s.cycle
      if bit v.toNat 0 then
        -- DESIGN CHOICE (log 31): a `dhalt` or `dstep` that still waits gets a free value
        let s := if t.dbg.tok = 0 then s else (s.answer s.focus t.dbg.tok (Config.freeValue s.free) false).freshVal
        let s := s.modActor t.name fun x => { x with dbg := {} }
        return s.setCur { s.cur with target := 0 }
      else return s

-- Context addresses (R289) -----------------------------------------------------------------------------------------

/-- The number of a reply slot's state and its 128 bits (R270). -/
def slotBits (y : ReplySlot) : Nat :=
  y.val.toNat * 2 ^ 64 + ofBool y.pois * 2 ^ 12 + y.late * 2 ^ 8 + y.gen.val * 2 ^ 4 + (match y.st with | .free => 0 | .pending => 1 | .filled => 2)
/-- The 128 bits of an extent entry (04 R94). -/
def extBits (e : Ext) : Nat :=
  e.vpage * 2 ^ 88 + e.npg * 2 ^ 48 + e.ppage * 2 ^ 16 + e.rgn * 2 ^ 11 + ofBool e.mirror * 2 ^ 10 + e.page * 2 ^ 8 +
    (match e.share with | .priv => 0 | .owner => 1 | .user => 2) * 2 ^ 6 +
    (match e.kind with | .dram => 0 | .cxl => 1 | .buoy => 2 | .host => 3) * 2 ^ 3 + ofBool e.pin * 4 + ofBool e.locked * 2 + ofBool e.valid
/-- The 16 bits of a ring cursor (05 R125). -/
def ringBits (r : Ring) : Nat := ofBool r.def_ * 2 ^ 15 + r.first * 2 ^ 10 + r.count * 2 ^ 6 + r.pidx * 2 ^ 3 + r.cidx
/-- The ring cursor of 16 bits. -/
def ringOf (v : Nat) : Ring := { def_ := bit v 15, first := bits v 14 10, count := bits v 9 6, pidx := bits v 5 3, cidx := bits v 2 0 }
/-- Predicates p1 to p7 with their poison, as address 0x021 shows them. -/
def predBits (a : Actor) : Nat :=
  total ((List.range 7).map fun i => let q := a.p.getD (i + 1) (false, false); ofBool q.1 * 2 ^ (i + 1) + ofBool q.2 * 2 ^ (i + 9))
/-- Whether an actor is in an invocation. -/
def Actor.inside (a : Actor) : Bool := a.st == .active
/-- Half of 128 bits. -/
def half (v : Nat) (hi : Bool) : Nat := if hi then v / 2 ^ 64 else v % 2 ^ 64
/-- What stands at a context address (R289); none where none is assigned. A register that is not ready yet reads as `free`. -/
def contextAt (s : State) (a : Actor) (free : W64) (n : Nat) : Option Nat :=
  let ent (e : Ent) : Nat := match e with | .val v _ => v.toNat | .wait _ => free.toNat
  let odd := n % 2 = 1
  if n < 0x10 then some (if a.inside then ent (a.s.getD n (.val 0 false)) else (a.saved.getD n (0, false)).1.toNat)
  else if n < 0x20 then some (ent (a.h.getD (n - 0x10) (.val 0 false)))
  else if n = 0x20 then some a.pc
  else if n = 0x21 then some (predBits a)
  else if n = 0x22 then some a.lc.toNat
  else if n = 0x23 then some a.ldep
  else if 0x28 ≤ n ∧ n < 0x30 then some (a.ls.getD (n - 0x28) 0).toNat
  else if n = 0x30 then some a.chmask
  else if n = 0x31 then some (a.bprio + ofBool (a.xmask != 0) * 2 ^ 8 + ofBool a.dbg.step * 2 ^ 9 + ofBool a.audit.isSome * 2 ^ 10 + a.xmask * 2 ^ 12)
  else if n = 0x32 then some (if a.inside then s.budrem a else 0)
  else if 0x40 ≤ n ∧ n < 0x80 then some (half (tileBits (tileAt a ((n - 0x40) / 2))) odd)
  else if 0x80 ≤ n ∧ n < 0x90 then some (half (barrierBits (a.bars.getD ((n - 0x80) / 2) {})) odd)
  else if n = 0x90 then some (total ((List.range 4).map fun i => ringBits (a.rings.getD i {}) * 2 ^ (16 * i)))
  else if 0x98 ≤ n ∧ n < 0xA8 then some (half (slotBits (a.ys.getD ((n - 0x98) / 2) {})) odd)
  else if 0xB0 ≤ n ∧ n < 0xC0 then some (a.fmts.getD (n - 0xB0) 0).toNat
  else if n = 0xC0 then some a.gen.toNat
  else if 0xC8 ≤ n ∧ n < 0x108 then some (half (extBits (a.exts.getD ((n - 0xC8) / 2) {})) odd)
  else if 0x108 ≤ n ∧ n < 0x118 then some (a.links.getD (n - 0x108) 0).toNat
  else if 0x118 ≤ n ∧ n < 0x128 then some (a.mons.getD (n - 0x118) 0).toNat
  else if 0x400000 ≤ n ∧ n < 0x480000 ∧ 8 * (n - 0x400000) + 8 ≤ regionSize a then some (s.num (regionKey a + 8 * (n - 0x400000)) 8)
  else none
/-- 128 bits with one half replaced. -/
def putHalf (v : Nat) (hi : Bool) (w : Nat) : Nat := if hi then w * 2 ^ 64 + v % 2 ^ 64 else v / 2 ^ 64 * 2 ^ 64 + w
/-- A tile entry written by `dwr`: refused where R289 refuses it. -/
def writeTile (a : Actor) (h : Nat) (v : Nat) : Option Actor :=
  let old := tileAt a h
  let still := match old.state with | .filling | .draining | .latched => false | _ => old.drn = 0
  match tileOf v with
  | some e =>
    let ok := match defChecks a e e.loc.toNat e.pitch.toNat with | .ok _ => true | .error _ => false
    let shape := 1 ≤ e.rows.toNat && e.rows.toNat ≤ 128 && 1 ≤ e.cols.toNat && e.cols.toNat ≤ 1024
    if still && ok && shape then some (a.setTile h e) else none
  | none => none
/-- A reply slot written by `dwr`. -/
def writeSlot (a : Actor) (k : Nat) (v : Nat) : Option Actor :=
  let st : Option SlotState := match bits v 1 0 with | 0 => some .free | 1 => some .pending | 2 => some .filled | _ => none
  match st with
  | some st =>
    if (a.ys.getD k {}).st == .pending then none
    else some { a with ys := a.ys.set k { val := BitVec.ofNat 64 (v / 2 ^ 64), pois := bit v 12, late := bits v 11 8, gen := Fin.ofNat 16 (bits v 7 4), st := st } }
  | none => none
/-- A context address written (R289); none where it is not writable in the present state. DESIGN CHOICE (log 118): a generator of 0 is stored
as 0, since R150 names its substitute for the image's seed and `syswr` alone. -/
def writeContext (s : State) (a : Actor) (n : Nat) (v : W64) : Option Actor :=
  let w := v.toNat
  let odd := n % 2 = 1
  if n < 0x10 then some (if a.inside then a.setS n (.val v false) else { a with saved := a.saved.set n (v, false) })
  else if n < 0x20 then if a.inside then some { a with h := a.h.set (n - 0x10) (.val v false) } else none
  else if n = 0x20 then if w % 4 = 0 && w < (s.file a.file).textLen then some { a with pc := w } else none
  else if n = 0x21 then some { a with p := a.p.mapIdx fun i q => if i = 0 then q else (bit w i, bit w (i + 8)) }
  else if n = 0x22 then some { a with lc := v }
  else if 0x28 ≤ n ∧ n < 0x30 then some { a with ls := a.ls.set (n - 0x28) v }
  else if n = 0x30 then some { a with chmask := w % 2 ^ 16 }
  else if n = 0x31 then some { a with bprio := s.underCeiling a.name (bits w 2 0), xmask := bits w 15 12 }
  else if 0x40 ≤ n ∧ n < 0x80 then
    let h := (n - 0x40) / 2
    writeTile a h (putHalf (tileBits (tileAt a h)) odd w)
  else if 0x80 ≤ n ∧ n < 0x90 then
    let k := (n - 0x80) / 2
    let b := a.bars.getD k {}
    if b.infl != 0 then none
    else some { a with bars := a.bars.set k (if odd then { b with count := v } else { b with phase := bit w 0 }) }
  else if n = 0x90 then some { a with rings := (List.range 4).map fun i => ringOf (w / 2 ^ (16 * i) % 2 ^ 16) }
  else if 0x98 ≤ n ∧ n < 0xA8 then
    let k := (n - 0x98) / 2
    writeSlot a k (putHalf (slotBits (a.ys.getD k {})) odd w)
  else if 0xB0 ≤ n ∧ n < 0xC0 then some { a with fmts := a.fmts.set (n - 0xB0) v }
  else if n = 0xC0 then some { a with gen := v }
  else none
/-- `drd` (R288, R289): the value, then the status. -/
def execDrd (a : Scalar) (g : Guard) (s : State) : Out :=
  guarded s g 1 [a, a] do
    let n ← cleanOperand s a
    let out (s : State) (v st : Nat) : Res State :=
      return ((s.pushOutside (BitVec.ofNat 64 v) false).pushOutside (BitVec.ofNat 64 st) false).retire 1
    match s.target with
    | none => out s 0 1
    | some t =>
      if !t.dbg.stop || t.dbg.tok != 0 then out s 0 1
      else match contextAt s t (Config.freeValue s.free) n.toNat with
        | none => out s 0 3
        | some v => out s.freshVal v 0
/-- `dwr` (R288, R289); an audited invocation that it reaches is no longer sampled (21 R397). -/
def execDwr (a b : Scalar) (g : Guard) (s : State) : Out :=
  guarded s g 1 [a] do
    let l ← cleanOperands s [a, b]
    let n := (l.headD 0).toNat
    let v := l.getD 1 0
    let out (s : State) (st : Nat) : Res State := return (s.pushOutside (BitVec.ofNat 64 st) false).retire 1
    match s.target with
    | none => out s 1
    | some t =>
      if !t.dbg.stop || t.dbg.tok != 0 then out s 1
      else if (contextAt s t 0 n).isNone then out s 3
      else
        let s' := match t.audit with | some k => s.post 0 .shadowAbandon { n := k, actor := t.name, m := t.invNo } | none => s
        if 0x400000 ≤ n then
          let k := regionKey t + 8 * (n - 0x400000)
          out ((s'.put k (bytesOf 8 v.toNat)).spoisWrite k 8 false) 0
        else match writeContext s t n v with
          | some u => out ((s'.setActor u).refresh t.name) 0
          | none => out s 2

-- The record and the block in device memory (14 R310, R312; 21 R404) ------------------------------------------------

/-- The number of a state (14 R311). -/
def stateNum : ActState → Nat | .free => 0 | .idle => 1 | .ready => 2 | .active => 3 | .parked => 4 | .transit => 5 | .dying => 6
/-- Messages that have left an actor's mailbox, of those that have entered it (14 R310, R314). -/
def Actor.mhead (a : Actor) : Nat := (a.nmail + 2 ^ 32 - a.mbox.length) % 2 ^ 32
/-- The continuation record of a live actor (14 R310). DESIGN CHOICE (log 120): `imgref` is the file's handle and the image's number. -/
def contRecord (s : State) (a : Actor) : Nat :=
  a.supn.toNat * 2 ^ 448 + a.cbp * 2 ^ 400 + (if a.inside then s.budrem a else 0) * 2 ^ 336 + a.mhead * 2 ^ 304 + a.nmail % 2 ^ 32 * 2 ^ 272 +
    a.pc * 2 ^ 240 + a.xmask * 2 ^ 231 + a.cell * 2 ^ 222 + (if a.roaming then 0 else a.seat) * 2 ^ 219 + a.rcell * 2 ^ 210 + a.rslot * 2 ^ 207 + ofBool a.rc * 2 ^ 206 +
    a.eprio * 2 ^ 197 + a.bprio * 2 ^ 194 + stateNum a.st * 2 ^ 190 + a.msg.chan.val * 2 ^ 186 + ofBool (a.xmask != 0) * 2 ^ 185 + ofBool a.dbg.step * 2 ^ 184 +
    ofBool a.audit.isSome * 2 ^ 183 + ofBool a.roaming * 2 ^ 182 + ofBool (a.dbg.dbgn != 0) * 2 ^ 181 + ofBool a.dbg.stop * 2 ^ 180 +
    (a.file % 2 ^ 16 * 2 ^ 16 + a.img) * 2 ^ 148 + a.name.toNat * 2 ^ 64 + a.ovfv * 2 ^ 24 + a.ovf * 2 ^ 12
/-- The `dbg` field of a context block (21 R404). -/
def dbgBits (d : Debug) : Nat :=
  d.stc * 2 ^ 640 + d.dbgn.toNat * 2 ^ 576 + d.nch * 2 ^ 572 + d.trc * 2 ^ 512 +
    total ((List.range 2).map fun i => let w := d.twp.getD i (false, 0); (ofBool w.1 * 2 ^ 63 + w.2) * 2 ^ (384 + 64 * i)) +
    total ((List.range 2).map fun i => let w := d.swp.getD i (false, 0, 0, 0); (ofBool w.1 * 2 ^ 63 + w.2.1 * 2 ^ 61 + w.2.2.1 * 2 ^ 22 + w.2.2.2) * 2 ^ (256 + 64 * i)) +
    total ((List.range 4).map fun i => let b := d.bp.getD i (false, 0); (ofBool b.1 * 2 ^ 63 + b.2) * 2 ^ (64 * i))
/-- The poison bit of a register's entry. -/
def entPois : Ent → Bool | .val _ p => p | .wait _ => false
/-- The value of a register's entry; one that is not ready yet shows `free`. -/
def entVal (free : W64) : Ent → Nat | .val v _ => v.toNat | .wait _ => free.toNat
/-- The `regx` field of a context block (14 R312): the poison of the registers, the predicates, theirs, and the depth of the link stack. -/
def regxBits (a : Actor) : Nat :=
  total ((List.range 16).map fun i => ofBool (entPois (a.s.getD i (.val 0 false))) * 2 ^ i + ofBool (entPois (a.h.getD i (.val 0 false))) * 2 ^ (16 + i)) +
    total ((List.range 7).map fun i => let q := a.p.getD (i + 1) (false, false); ofBool q.1 * 2 ^ (32 + i) + ofBool q.2 * 2 ^ (40 + i)) + a.ldep * 2 ^ 47
/-- `n` values of `w` bits, the first lowest. -/
def packed (w n : Nat) (f : Nat → Nat) : Nat := total ((List.range n).map fun i => f i * 2 ^ (w * i))
/-- The context block of a live actor (14 R312). Between invocations `s` holds the registers that `liveout` saved. -/
def contextBlock (a : Actor) (free : W64) : Nat :=
  dbgBits a.dbg * 2 ^ 13312 + packed 64 16 (fun i => (a.mons.getD i 0).toNat) * 2 ^ 12288 + packed 64 16 (fun i => (a.links.getD i 0).toNat) * 2 ^ 11264 +
    packed 128 8 (fun i => slotBits (a.ys.getD i {})) * 2 ^ 10240 + packed 16 4 (fun i => ringBits (a.rings.getD i {})) * 2 ^ 9216 +
    packed 64 16 (fun i => (a.fmts.getD i 0).toNat) * 2 ^ 8192 + packed 128 8 (fun i => barrierBits (a.bars.getD i {})) * 2 ^ 7168 +
    packed 128 32 (fun i => tileBits (tileAt a i)) * 2 ^ 3072 + a.chmask * 2 ^ 2752 + regxBits a * 2 ^ 2688 + a.gen.toNat * 2 ^ 2624 + a.lc.toNat * 2 ^ 2560 +
    packed 64 8 (fun i => (a.ls.getD i 0).toNat) * 2 ^ 2048 + packed 64 16 (fun i => entVal free (a.h.getD i (.val 0 false))) * 2 ^ 1024 +
    packed 64 16 fun i => if a.inside then entVal free (a.s.getD i (.val 0 false)) else (a.saved.getD i (0, false)).1.toNat

-- Breakpoints, watchpoints, tracing: maj 0x3D (R290) ---------------------------------------------------------------

/-- A setting of the issuer's target: 0 pushed, or 1 without a target. -/
def debugSet (s : State) (f : Debug → Debug) : State :=
  match s.target with
  | none => (s.pushOutside 1 false).retire 3
  | some t => ((s.modActor t.name fun x => { x with dbg := f x.dbg }).pushOutside 0 false).retire 3
/-- `dbp` (R290). -/
def execDbp (a : Scalar) (ix : Fin 4) (en : Bool) (g : Guard) (s : State) : Out :=
  guarded s g 3 [a] do
    let v ← cleanOperand s a
    return debugSet s fun d => { d with bp := d.bp.set ix.val (en, v.toNat % 2 ^ 32) }
/-- `dwp` (R290): 0 and 1 watch scratchpad bytes, 2 and 3 a handle. -/
def execDwp (a : Scalar) (ix : Fin 4) (en : Bool) (wk : Fin 4) (len : W32) (g : Guard) (s : State) : Out :=
  guarded s g 3 [a] do
    let v ← cleanOperand s a
    return debugSet s fun d =>
      if ix.val < 2 then { d with swp := d.swp.set ix.val (en, wk.val, len.toNat, v.toNat % 2 ^ 22) }
      else { d with twp := d.twp.set (ix.val - 2) (en, v.toNat % 32) }
/-- `dtrc` (R290). -/
def execDtrc (a : Scalar) (g : Guard) (s : State) : Out :=
  guarded s g 3 [a] do
    let v ← cleanOperand s a
    check (v.toNat < 8) rIllegal
    return debugSet s fun d => { d with trc := v.toNat }

end Sys2Proof.Machine
end

