-- ==== Sys2Proof/Machine/Fabric.lean ====
section
/-! DEFINITION. The pod fabric's losses and answers (18 R374 to R376; 16 R358, R359; 03 R86, R87; 09 R223): the events
FABRIC_TIMEOUT, FABRIC_REPLY and STATION_LINK_DOWN. -/

namespace Sys2Proof.Machine

-- Lost modules (16 R358) -------------------------------------------------------------------------------------------

/-- What one actor meets when module `m` is lost: an exit signal for each link, a DOWN notice for each monitor, after the
messages already delivered (11 R283). -/
def State.peerNotices (s : State) (a : Actor) (m : Nat) : State :=
  let gone (n : ActorName) : Bool := pkgOf n == m
  let l := a.links.filter gone
  let w := a.mons.filter gone
  let who := (l ++ w).eraseDups
  let s := who.foldl (fun (t : State) n => { t with seqs := kvSet t.seqs (seqKey n a.name) (pairOf a n).exp }) s
  let s := s.modActor a.name fun b => { b with
    links := b.links.filter (fun n => !gone n), mons := b.mons.filter (fun n => !gone n)
    pairs := b.pairs.map fun p => if who.contains p.peer then { p with held := [] } else p }
  let s := l.foldl (fun (t : State) n => t.partMessage (exitMsg n a.name rPeerLost)) s
  w.foldl (fun (t : State) n => t.partMessage (downMsg n a.name n (rPeerLost.setWidth 64) 0 0 2)) s
/-- Request entries given up (their generations move on, the next waiting requests take them). -/
def State.dropRequests (s : State) (p : StationEnt → Bool) : State :=
  s.stations.foldl (fun (t : State) k =>
    let t := t.setStation k.1 { t.station k.1 with queue := (t.station k.1).queue.filter fun e => !p e }
    ((t.station k.1).ents.filter fun e => e.2.busy && p e.2).foldl (fun (u : State) e => u.freeEntry k.1 e.1) t) s
/-- The requests of all stations: in their entries, or waiting for one. -/
def State.requests (s : State) : List StationEnt :=
  (s.stations.map fun k => (k.2.ents.filter fun e => e.2.busy).map (·.2) ++ k.2.queue).flatten
/-- A `link` or `monitor` of an actor of a lost module that still awaits its answer: status 3, and no signal (11 R279). -/
def State.askLost (s : State) (a : Actor) (m : Nat) : State :=
  let gone := a.asks.filter fun x => pkgOf x.2.1 == m
  gone.foldl (fun (t : State) x => ((t.untie a.name x.2.1 x.2.2).modActor a.name fun b => { b with asks := b.asks.filter fun y => y.1 != x.1 }).answer a.name x.1 3 false) s
/-- PEER_LOST (R358): a dead-peer bit is set, once: its record, the notices, and what was on its way to it is dropped. -/
def State.losePeer (s : State) (m : Nat) : State :=
  if s.peerDead m || m = s.regs.aid then s
  else
    let s : State := { s with regs := { s.regs with dead := insNat s.regs.dead m } }
    let s := s.record 0 8 0 0 0 (BitVec.ofNat 64 m)
    let lost := (s.requests.filter fun e => e.module == some m).map (·.msg)
    let s := lost.foldl State.peerDrops (s.dropRequests fun e => e.module == some m)
    let s := s.all.foldl (fun (t : State) a => t.askLost a m) s
    s.all.foldl (fun (t : State) a => t.peerNotices a m) s

-- Lost planes (16 R359) --------------------------------------------------------------------------------------------

/-- The packets held for a lost plane (18 R375) take the same way. -/
def State.loseHeld (s : State) (p : Nat) : State :=
  let mine (k : Nat) : Bool := k % 128 == 64 + p
  let l := ((s.ports.filter fun e => mine e.1).map fun e => e.2.held).flatten
  let s : State := { s with ports := s.ports.map fun e => if mine e.1 then (e.1, { e.2 with held := [] }) else e }
  l.foldl (fun (t : State) q => (t.modActor q.owner fun a => { a with flying := a.flying.erase (q.pa / 2 ^ 16) }).rehome q) s
/-- Reduction objects after a loss (09 R223): unmirrored buoy objects end, and the contributors that still await an answer of one die; a
mirror's pieces take the place of lost ones. -/
def State.loseReds (s : State) (p : Nat) : State :=
  let buoy (r : RedPiece) : Bool := match r.home with | .plane _ => true | _ => false
  let mir (r : RedPiece) : Bool := match s.buoyBack r.pa with | some b => b.mirror | none => false
  let lost := s.reds.filter fun r => r.home == .plane p
  let ended := (s.reds.filter fun r => buoy r && !mir r).map (·.pa)
  let step (r : RedPiece) : Option RedPiece :=
    if buoy r && !mir r then none
    else if r.home == .plane p then none
    else if r.mirror && lost.any fun x => x.lead == r.lead && mirrorPa x.pa == r.pa then some { r with mirror := false }
    else some r
  let hit (x : Xfer) : Bool := x.kind == .contrib && x.left != 0 && x.pieces.any fun q => match q.pa with | some a => ended.contains a | none => false
  let who := ((s.cells.map fun e => (e.2.xfers.filter hit).map (·.actor)).flatten).eraseDups
  who.foldl (fun (t : State) n => killActor t n rBuoyLost) { s with reds := s.reds.filterMap step }
/-- A plane is lost, once: its bit and its record; its requests are resent or kill; module requests on it take another plane
(18 R376), and the switch agents on it pass their jobs' quotas and allocations to the next live plane, which holds the copy (03 R83). With all
16 planes lost every other module is. -/
def State.losePlane (s : State) (p : Nat) : State :=
  if s.planeDead p then s
  else
    let s : State := { s with regs := { s.regs with dsw := s.regs.dsw + 2 ^ p } }
    let s := s.record 0 9 0 0 0 (BitVec.ofNat 64 p)
    let s : State := { s with jobs := s.jobs.map fun j => if j.agent = p then { j with agent := (s.livePlane ((p + 1) % 16)).getD p } else j }
    let st := s.station p
    let waiting := ((st.ents.filter fun e => e.2.busy).map (·.2)) ++ st.queue
    let s := s.setStation p { ents := st.ents.map fun e => (e.1, if e.2.busy then { gen := (e.2.gen + 1) % 16 } else e.2) }
    let s : State := { s with fwds := s.fwds.filter fun f => f.reply.home != .plane p }
    let s := s.loseReds p
    let s := waiting.foldl (fun (t : State) e => match e.module with
      | none => t.loseRequest e.pkt
      | some _ => match t.livePlane ((p + 1) % 16) with
        | some k => t.enterStation k e
        | none => t) s
    let s := s.loseHeld p
    if s.regs.dsw = 0xFFFF then (List.range 1024).foldl State.losePeer s else s

-- Events -----------------------------------------------------------------------------------------------------------

/-- FABRIC_TIMEOUT (R374): entry `m` of station `n`, at generation `k`, is unanswered: resent under a new tag, or its target
is lost. -/
def execFabricTimeout (s : State) : Out :=
  let n := s.arg.n; let i := s.arg.m
  let st := s.station n
  let e := kvGet {} st.ents i
  if !e.busy || e.gen != s.arg.k then .next s
  else if e.tries = 1 + s.regs.fretry then
    match e.module with
    | none => .next (s.losePlane n)
    | some m => .next (s.losePeer m)
  else
    let e : StationEnt := { e with gen := (e.gen + 1) % 16, tries := e.tries + 1 }
    match e.module with
    | none => .next (s.fabricSend n i e)
    | some _ => match s.livePlane ((n + 1) % 16) with
      | some k =>
        if k = n then .next (s.fabricSend n i e)
        else .next ((s.freeEntry n i).enterStation k e)
      | none => .next s
/-- FABRIC_REPLY (R374): a reply at station `n` is matched to its entry by its tag, or discarded and counted. Another module's answer to a
message says with `st` 1 that it dropped the message as stale (11 R269; log 111), else its tiles have landed there. -/
def execFabricReply (s : State) : Out :=
  let n := s.arg.n; let r := s.arg.rep
  let i := r.tag / 16
  let e := kvGet {} (s.station n).ents i
  if e.busy && e.gen == r.tag % 16 && !s.planeDead n then
    let s := s.freeEntry n i
    match e.module with
    | some _ => .next (if e.msg.actor != 0 then s else if r.st = 1 then s.dropped { e.msg with k := 0 } else s.endXfers e.msg.xids)
    | none => .next (s.travel (entryCell (544 + n)) (entryCell r.rq) (544 + n) [repBytes r] (repEvent r))
  else .next { s with regs := { s.regs with late := min (s.regs.late + 1) (2 ^ 32 - 1) } }
/-- STATION_LINK_DOWN (R376): station `n`'s link has been down for 2^20 cycles. -/
def execStationLinkDown (s : State) : Out := .next (s.losePlane (s.arg.n % 16))

end Sys2Proof.Machine
end

