-- ==== Sys2Proof/Machine/Manage.lean ====
section
/-! DEFINITION. Resets, power and ageing (23 R411 to R414; 21 R400). -/

namespace Sys2Proof.Machine

/-- The memory that is not the module's: the host's and the pod's. A reset leaves it. -/
def outsideMem (a : Nat) : Bool := (0x200000000000 ≤ a && a < 0x300000000000) || (0x400000000000 ≤ a && a < 0x800000000000)
/-- The state from which boot proceeds after a reset (R413, R414): as `State.reset`, with the memory outside the module, the inputs and errors
to come and the model's own counters kept; the portal-reset record is the first that goes to q0 (18 R383). A firmware that does not verify stops the boot. -/
def State.boot (s : State) : State :=
  let fw := (Config.fwErr s.free).toNat % 4
  let r : State := State.reset
  { r with
    agenda := if fw = 0 then r.agenda else [], inputs := s.inputs, strikes := s.strikes, tick := s.tick, free := s.free + 1, nextId := s.nextId
    mem := s.mem.filter fun e => outsideMem e.1, gpois := s.gpois.filter fun g => outsideMem (g * 64)
    regs := { r.regs with fwerr := fw } }
/-- POWER_ON_RESET (R413, R414): all state clear, the repair tables included. `flag` says that X0 failed its self-test, `nats` are the
UCIe modules that would not train; there is no training where the firmware fails its check. -/
def execPowerOnReset (s : State) : Out :=
  let t := s.boot
  let t : State := { t with regs := { t.regs with twin := s.arg.flag } }
  .next (if t.regs.fwerr = 0 then s.arg.nats.foldl (fun (u : State) m => u.disableModule (m % 192)) t else t)
/-- WARM_RESET (R413; 18 R383): all state clear but the repair tables. -/
def execWarmReset (s : State) : Out :=
  let t := s.boot
  let cells := s.cells.map fun e => (e.1, ({ repair := e.2.repair, freeRep := e.2.freeRep } : Cell))
  let t : State := { t with cells := cells, regs := { t.regs with twin := s.regs.twin } }
  .next (if t.regs.fwerr = 0 then s.arg.nats.foldl (fun (u : State) m => u.disableModule (m % 192)) t else t)
/-- THERMAL_TRIP (R411): every clock stops and reset is held. -/
def execThermalTrip (s : State) : Out := .next { s with tripped := true }
/-- The sensors' readings enter `pwrstat` (R412): `n` the hottest junction, `m` the power. -/
def State.sensors (s : State) : State :=
  { s with regs := { s.regs with tmax := s.arg.n % 2 ^ 16, pw := s.arg.m % 2 ^ 13 } }
/-- THROTTLE (R412): a throttle point is exceeded: starts of invocations are held. -/
def execThrottle (s : State) : Out :=
  let t := s.sensors
  .next (if s.throttled then t else { t with throttled := true, regs := { t.regs with pthr := (t.regs.pthr + 1) % 2 ^ 32 } })
/-- THROTTLE_END (R412): below every throttle point again. -/
def execThrottleEnd (s : State) : Out := .next { s.sensors with throttled := false }
/-- A cell short of timing slack (21 R400): its voltage rises by one step, or it is retired. -/
def State.age (s : State) (c : Nat) : State :=
  let e := s.cell c
  if e.health != 0 then s
  else if e.voff < 15 then s.setCell c { e with voff := e.voff + 1 }
  else ((s.setCell c { e with health := 1, retire := true }).record 0 4 3 0 0 (BitVec.ofNat 64 c)).post 0 .preempt { n := c, flag := true }
/-- AGEING_CHECK (21 R400): every 10 s, the cells whose slack is below `mmin` (a free value). -/
def execAgeingCheck (s : State) : Out :=
  let weak := (List.range 512).filter fun c => (Config.weakCells s.free).contains c
  let s := s.freshVal.post tenSeconds .ageingCheck {}
  .next (if s.regs.ageEn then weak.foldl State.age s else s)

end Sys2Proof.Machine
end

