-- ==== Sys2Proof/Machine/Matrix.lean ====
section
/-! DEFINITION. The matrix group (10 R229 to R244): latches, accumulators, the accumulation order of 07 R158 to R161 and its
poison (07 R167), stores and relays. Sources are read, and accumulators updated, at issue; the accumulators stay busy and
the writes land when the unit completes (MATRIX_COMPLETE). -/

namespace Sys2Proof.Machine

-- Shared checks (R233) ---------------------------------------------------------------------------------------------

/-- Step 2: neither a roaming actor nor a global tile (R231). -/
def needLocal (s : State) (hs : List Nat) : Res Unit :=
  check (!s.cur.roaming && hs.all fun h => !(tileAt s.cur h).glob) rExtent
/-- The invocation that issues, as bindings name it (07 R155). -/
def State.mine (s : State) : ActorName × Nat := (s.focus, s.cur.invNo)
/-- Whether a binding is another invocation's. -/
def State.others (s : State) (b : Option (ActorName × Nat)) : Bool := b.isSome && b != some s.mine
/-- An accumulator. -/
def accAt (s : State) (k : Fin 4) : Acc := (s.cell s.cur.cell).accs.getD k.val {}
/-- Step 3 on an accumulator: bound to another invocation, or busy (07 R155, R157). -/
def needAcc (s : State) (k : Fin 4) : Res Unit := if s.others (accAt s k).bind || (accAt s k).busy then Stall s else .ok ()
/-- Step 3 on `la` (R237). -/
def needLa (s : State) : Res Unit := if s.others (s.cell s.cur.cell).laBind then Stall s else .ok ()
/-- Step 3 on `lb` (R237, 05 R130). -/
def needLb (s : State) : Res Unit :=
  let e := s.cell s.cur.cell
  if s.others e.lbBind || (e.lbOwner != 0 && e.lbOwner != s.focus) then Stall s else .ok ()
/-- The handle of an actor that is LATCHED. -/
def latchedOf (a : Actor) : Option Nat := findIdx (fun (t : TileEnt) => t.state == .latched) a.tiles
/-- The latch `la` as an operand (R237). -/
def laOperand (s : State) : Res Latch :=
  let e := s.cell s.cur.cell
  if e.laBind == some s.mine && e.la.loaded then .ok e.la else Kill rTileState
/-- The latch `lb` as an operand (R237). -/
def lbOperand (s : State) : Res Latch :=
  let e := s.cell s.cur.cell
  if (e.lbOwner == s.focus && (latchedOf s.cur).isSome) || (e.lbBind == some s.mine && e.lb.loaded) then .ok e.lb
  else Kill rTileState

-- Operands ---------------------------------------------------------------------------------------------------------

/-- The elements of a latch. -/
def Latch.mat (l : Latch) : Mat :=
  (List.range l.rows).map fun i => ((l.codes.drop (i * l.cols)).take l.cols).mapIdx fun j c =>
    (c, !l.pois.isEmpty && l.pois.contains (i * l.cols + j))
/-- A latch that holds some elements. -/
def latchOf (rows cols : Nat) (desc : W64) (m : Mat) : Latch :=
  { loaded := true, rows := rows, cols := cols, desc := desc, codes := m.flatten.map (·.1),
    pois := (m.flatten.mapIdx fun i e => if e.2 then [i] else []).flatten }
/-- A matrix transposed; `n` is its number of columns. -/
def transpose {α : Type} (n : Nat) (m : List (List α)) : List (List α) :=
  (List.range n).map fun j => (m.map fun r => (r.drop j).take 1).flatten

/-- An operand of the matrix unit: shape, descriptor and elements, and the tile that it is read from. -/
structure MOp where
  rows : Nat := 0
  cols : Nat := 0
  desc : W64 := 0
  mat  : Mat := []
  hold : Option (Nat × Nat) := none

/-- A handle operand, its state checked (step 4). Its elements are read. -/
def tileOp (s : State) (h : Nat) : MOp :=
  let e := tileAt s.cur h
  let d := descOf (descVal s.cur e)
  { rows := e.rows.toNat, cols := e.cols.toNat, desc := descVal s.cur e, mat := s.readMat (tileKey s.cur e) e.rows.toNat e.cols.toNat d.wd, hold := some (e.loc.toNat, tileSize e d) }
/-- A latch operand. -/
def latchOp (l : Latch) : MOp := { rows := l.rows, cols := l.cols, desc := l.desc, mat := l.mat }
/-- The size check of R140 on an operand in a tile. -/
def needOpSize (s : State) (h : Option Nat) : Res Unit :=
  match h with
  | none => .ok ()
  | some k => do
    let _ ← needSize s.cur (tileAt s.cur k) (descOf (descVal s.cur (tileAt s.cur k)))

/-- A value with its poison bit. -/
abbrev PVal := Val × Bool

/-- Scale bytes read at issue with the poison of their sectors (06 R145, R152). -/
def scaleBytes (s : State) (h n : Nat) : List (Nat × Bool) :=
  let k := tileKey s.cur (tileAt s.cur h)
  (s.bytes k n).mapIdx fun i b => (b.toNat, s.spoisoned (k + i) 1)
/-- The scale of element `j` of row `i`; without a scale tile, 1 (06 R144, R145). -/
def scaleAt (d : Desc) (cols : Nat) (sb : List (Nat × Bool)) (i j : Nat) : PVal :=
  match sb[d.scaleIdx cols i j]? with
  | some z => (scaleVal d.sfmt z.1, z.2)
  | none => (oneV, false)
/-- A product of values that carry poison. -/
def mulP (x y : PVal) : PVal := (x.1.mul y.1, x.2 || y.2)
/-- The elements decoded; `elem` says that scales enter at the element (07 R159). -/
def MOp.vals (o : MOp) (sb : List (Nat × Bool)) (elem : Bool) : List (List PVal) :=
  let d := descOf o.desc
  o.mat.mapIdx fun i r => r.mapIdx fun j c =>
    let v := (d.decode c.1, c.2)
    if elem && !sb.isEmpty then mulP v (scaleAt d o.cols sb i j) else v

-- The accumulation order (07 R158, R161) ---------------------------------------------------------------------------

/-- +∞ or −∞. -/
def infV (neg : Bool) : Val := .inf neg
/-- The leaf operation of a semiring (07 R161). -/
def srLeaf (sr : SemiRing) (x y : Val) : Val :=
  match sr with
  | .pt | .maxt => rneV (x.mul y)
  | .minp | .maxp => rneV (x.add false y)
  | .orand => if x.isZero || y.isZero then zeroV false else oneV
/-- The node operation of a semiring. -/
def srNode (sr : SemiRing) (x y : Val) : Val :=
  match sr with
  | .pt => rneV (x.add false y)
  | .minp => x.min y
  | .maxp | .maxt => x.max y
  | .orand => if x.isZero && y.isZero then zeroV false else oneV
/-- The padding leaf of a semiring. -/
def srPad : SemiRing → Val
  | .pt => zeroV true | .minp => infV false | .maxp | .maxt => infV true | .orand => zeroV false
/-- The identity that `mclr` stores (R235), as FP32. -/
def srClear : SemiRing → W32
  | .pt | .orand => 0 | .minp => 0x7F800000 | .maxp | .maxt => 0xFF800000
/-- Adjacent pairs combined. -/
def pairUp {α : Type} (f : α → α → α) : List α → List α
  | x :: y :: r => f x y :: pairUp f r
  | l => l
/-- `n` levels of the binary tree of R158. -/
def levels {α : Type} (f : α → α → α) : Nat → List α → List α
  | 0, l => l
  | n + 1, l => levels f n (pairUp f l)
/-- The root of a tree of 2^n leaves, the leaves beyond the list holding `pad`. -/
def treeOf {α : Type} (f : α → α → α) (pad : α) (n : Nat) (l : List α) : α :=
  (levels f n (l ++ List.replicate (2 ^ n - l.length) pad)).headD pad
/-- The chunk result of R158 for one row of A and one column of B. -/
def chunk (sr : SemiRing) (row col : List Val) (sA sB : Val) : Val :=
  rneV ((treeOf (srNode sr) (srPad sr) 7 (row.zipWith (srLeaf sr) col)).mul (sA.mul sB))
/-- The accumulation of a value into an element (R241, 07 R161). -/
def srAcc (sr : SemiRing) (old : W32) (v : Val) : W32 :=
  let o := dec32 old.toNat
  BitVec.ofNat 32 (match sr with
    | .pt => rne32 (o.add false v)
    | .minp => rne32 (o.min v)
    | .maxp | .maxt => rne32 (o.max v)
    | .orand => if o.isZero && v.isZero then 0 else rne32 oneV)

-- Accumulators -----------------------------------------------------------------------------------------------------

/-- Two rising lists of elements merged; the second wins. -/
def mergeElts : Nat → List (Nat × W32) → List (Nat × W32) → List (Nat × W32)
  | 0, l, _ => l
  | f + 1, l, r =>
    match l, r with
    | [], r => r
    | l, [] => l
    | a :: l', b :: r' =>
      if a.1 < b.1 then a :: mergeElts f l' (b :: r') else if a.1 = b.1 then b :: mergeElts f l' r' else b :: mergeElts f (a :: l') r'
/-- Elements written, in rising order of their places; those at the fill value are not listed. -/
def Acc.write (a : Acc) (new : List (Nat × W32)) : Acc :=
  { a with elts := (mergeElts (a.elts.length + new.length) a.elts new).filter fun e => e.2 != a.fill }
/-- The listed elements of row `i`. -/
def Acc.row (a : Acc) (i : Nat) : List (Nat × W32) := a.elts.filter fun e => e.1 / 128 == i
/-- Element (i, n) of an accumulator. -/
def Acc.at (a : Acc) (i n : Nat) : W32 := kvGet a.fill (a.row i) (128 * i + n)
/-- The elements of a window, row by row, with the poison bits of their sectors. -/
def Acc.window (a : Acc) (r0 c0 rows cols : Nat) : List (List (W32 × Bool)) :=
  (List.range rows).map fun i =>
    let r := a.row (r0 + i)
    (List.range cols).map fun j =>
      (kvGet a.fill r (128 * (r0 + i) + c0 + j), a.pois.contains (16 * (r0 + i) + (c0 + j) / 8))
/-- Values accumulated over a window at (0, 0); an element's poison joins its sector's (07 R167). -/
def Acc.accumulate (a : Acc) (sr : SemiRing) (v : List (List PVal)) : Acc :=
  let new := (v.mapIdx fun i r =>
    let old := a.row i
    r.mapIdx fun n x => (128 * i + n, srAcc sr (kvGet a.fill old (128 * i + n)) x.1)).flatten
  let bad := (v.mapIdx fun i r => (r.mapIdx fun n x => if x.2 then [16 * i + n / 8] else []).flatten).flatten
  { a.write new with pois := bad.foldl insNat a.pois }
/-- An accumulator written by an instruction that issues: bound, and busy. -/
def State.setAcc (s : State) (k : Fin 4) (a : Acc) : State :=
  s.modCell s.cur.cell fun e => { e with accs := e.accs.set k.val { a with bind := some s.mine, busy := true } }

-- Latches and clearing (R234 to R237) ------------------------------------------------------------------------------

/-- `mclr` (R235). -/
def execMclr (acc : Fin 4) (sr : SemiRing) (s : State) : Out :=
  unguarded s do
    needLocal s []
    needAcc s acc
    needM s
    return ((s.setAcc acc { fill := srClear sr }).retire 1).startM 1 { accs := [acc.val] }

/-- Which latch an instruction loads. -/
inductive LatchForm | a | b | relay
  deriving DecidableEq, Repr

/-- A tile copied into a latch (R236). The relay form takes a READY tile (05 R118, R130): it waits while one is DRAINING (log 65). -/
def loadLatch (s : State) (t : TileSel) (form : LatchForm) (tr lu : Bool) : Res State := do
  let h ← resolve s.cur false t
  needLocal s [h]
  if form == .relay then check ((s.cohortOf (selfName s.cur)).any fun c => c.shape != .any) rExtent
  let held := form != .a && (latchedOf s.cur).isSome
  if form == .a then needLa s else needLb s
  if form != .a && !held && (s.cell s.cur.cell).lbOwner == s.focus then Stall s
  let e ← needRead s h
  if form == .relay && e.state == .draining then Stall s
  check (!held) rTileState
  let d ← needDesc s.cur e
  check (d.cls == 0 || d.cls == 2 || d.cls == 3 || d.cls == 6) rIllegal
  check (!tr || (d.sgeo != 1 && d.sgeo != 2)) rIllegal
  let n ← needSize s.cur e d
  check (e.rows.toNat ≤ 128 && e.cols.toNat ≤ 128) rTileBounds
  needM s
  let o := tileOp s h
  let l := if tr then latchOf o.cols o.rows o.desc (transpose o.cols o.mat) else latchOf o.rows o.cols o.desc o.mat
  let me := some s.mine
  let s := s.modCell s.cur.cell fun (c : Cell) =>
    match form with
    | .a => { c with la := l, laBind := me }
    | .b => { c with lb := l, lbBind := me }
    | .relay => { c with lb := l, lbBind := none, lbOwner := s.focus, lbSrc := 0 }
  let a := (s.cur.watchOp false h).retire 1
  let s := s.setCur (if form == .relay then a.tileState h .latched else a.lastUses [(lu, h)])
  return s.startM (ceilDiv n 512) { holds := [(e.loc.toNat, n)], readsLb := form == .relay }
/-- `mlda` (R236). -/
def execMlda (a : TileSel) (lu : Bool) (s : State) : Out := unguarded s (loadLatch s a .a false lu)
/-- `mldb` (R236; 05 R130). -/
def execMldb (a : TileSel) (rl lu : Bool) (s : State) : Out := unguarded s (loadLatch s a (if rl then .relay else .b) false lu)
/-- `mtr` (R236): `lat` names `lb`. -/
def execMtr (a : TileSel) (lat lu : Bool) (s : State) : Out := unguarded s (loadLatch s a (if lat then .b else .a) true lu)

/-- `mrelay` (R238, R244): the buffer goes to the copy engine, its message to the outbox. -/
def execMrelay (a b : Scalar) (s : State) : Out :=
  unguarded s do
    let x ← operand s a
    let y ← operand s b
    needLocal s []
    check (!x.2 && !y.2) rPoison
    let self := selfName s.cur
    let e := s.cell s.cur.cell
    match latchedOf s.cur, s.cohortOf self with
    | some h, c =>
      let peer := x.1
      let inside := c.any fun (c : Cohort) => pkgOf peer == pkgOf self && jobOf peer == c.job && c.serial ≤ serialOf peer && serialOf peer < c.serial + c.n
      check (inside && !(s.actor peer).roaming) rExtent
      needXfers s 1
      let id := s.nextId
      let m : Msg := { dest := peer, sender := self, chan := 1, plen := 1, m := [y.1, 0, 0, 0], caps := [{ capOf (tileAt s.cur h) with loc := 0 }] }
      let t ← needOutbox (s.cur.tileState h .given) [.relay m id]
      if s.cur.shadow.isSome then
        return ((s.setCur t).modCell s.cur.cell fun (c : Cell) => c.leaveLatch s.focus).retire 1
      let n := e.lb.rows * rowBytes e.lb.cols (descOf e.lb.desc).wd
      let r : Xfer := { id := id, kind := .relay, actor := s.focus, inv := t.invNo, bytes := n, dest := peer, latch := e.lb, toRead := 1 }
      let t := t.addOut { id := id, kind := .give }
      return (((s.freshId.setCur t).addXfer s.cur.cell r).post 0 .relaySend { n := s.cur.cell, m := id }).retire 1
    | none, _ => Kill rTileState

-- Multiply-accumulate (R239 to R242) -------------------------------------------------------------------------------

/-- The handle of an operand that is a tile. -/
def tileSelOf : OpA → Option TileSel | .tile t => some t | .la => none
/-- The handle of an operand that is a tile. -/
def tileSelOfB : OpB → Option TileSel | .tile t => some t | .lb => none
/-- An optional tile field resolved. -/
def resolveOpt (a : Actor) : Option TileSel → Res (Option Nat)
  | none => .ok none
  | some t => (resolve a false t).map some
/-- The cycles of the array (07 R156). -/
def arrayCycles (w : Nat) : Nat := if 8 < w then 128 else if 4 < w then 64 else 32
/-- Formats admitted for a semiring (07 R156). -/
def srAdmits (sr : SemiRing) (d : Desc) : Bool := if sr == .orand then d.cls == 6 else d.cls == 0 || d.cls == 2 || d.cls == 3
/-- The scale checks of an operand of `mmas` (R241, 06 R145). -/
def needScales (s : State) (h : Option Nat) (n : Nat) : Res (List (Nat × Bool)) :=
  match h with
  | none => .ok []
  | some k => do
    let e := tileAt s.cur k
    check (n ≤ tileSize e (descOf (descVal s.cur e))) rTileBounds
    return scaleBytes s k n

/-- Chunk values of every element (i, n), with their poison (07 R158, R159, R167). -/
def chunks (sr : SemiRing) (a b : MOp) (sa sb : List (Nat × Bool)) : List (List PVal) :=
  let da := descOf a.desc
  let db := descOf b.desc
  let va := a.vals sa (da.sgeo == 1)
  let cols := transpose b.cols (b.vals sb (db.sgeo == 1 || db.sgeo == 2))
  let cs := cols.mapIdx fun n c =>
    let z := if db.sgeo == 3 then scaleAt db b.cols sb 0 n else (oneV, false)
    (c.map (·.1), z.1, z.2 || c.any (·.2))
  va.mapIdx fun i r =>
    let z := if da.sgeo == 2 || da.sgeo == 3 then scaleAt da a.cols sa i 0 else (oneV, false)
    let row := r.map (·.1)
    let bad := z.2 || r.any (·.2)
    cs.map fun c => (chunk sr row c.1 z.1 c.2.1, bad || c.2.2)

/-- `mma` and `mmas` (R241): `sa` and `sb` are the scale tiles, whose loading adds a cycle and holds them for two (R244). -/
def mulAcc (s : State) (acc : Fin 4) (a : OpA) (b : OpB) (sa sb : Option TileSel) (scaled : Bool) (sr : SemiRing)
    (la lb : Bool) : Res State := do
  let ha ← resolveOpt s.cur (tileSelOf a)
  let hb ← resolveOpt s.cur (tileSelOfB b)
  let hsa ← resolveOpt s.cur sa
  let hsb ← resolveOpt s.cur sb
  needLocal s (ha.toList ++ hb.toList ++ hsa.toList ++ hsb.toList)
  needAcc s acc
  if ha.isNone then needLa s
  if hb.isNone then needLb s
  let oa ← match ha with | some h => (needRead s h).map fun _ => tileOp s h | none => (laOperand s).map latchOp
  let ob ← match hb with | some h => (needRead s h).map fun _ => tileOp s h | none => (lbOperand s).map latchOp
  needOpt hsa (needRead s)
  needOpt hsb (needRead s)
  check ((hsa.toList ++ hsb.toList).all fun h => validDesc (descVal s.cur (tileAt s.cur h))) rIllegal
  let da := descOf oa.desc
  let db := descOf ob.desc
  check (validDesc oa.desc && validDesc ob.desc && srAdmits sr da && srAdmits sr db) rIllegal
  check (!scaled || (sr == .pt && (hsa.isNone || da.sgeo != 0) && (hsb.isNone || db.sgeo != 0))) rIllegal
  needOpSize s ha
  needOpSize s hb
  needOpSize s hsa
  needOpSize s hsb
  check (oa.rows ≤ 128 && oa.cols ≤ 128 && ob.cols ≤ 128 && ob.rows == oa.cols) rTileBounds
  let za ← needScales s hsa (da.scaleCount oa.rows oa.cols)
  let zb ← needScales s hsb (db.scaleCount ob.rows ob.cols)
  needM s
  let s := s.setAcc acc ((accAt s acc).accumulate sr (chunks sr oa ob za zb))
  let zs : List (Nat × Nat) := (hsa.toList ++ hsb.toList).map fun h => ((tileAt s.cur h).loc.toNat, tileSize (tileAt s.cur h) (descOf (descVal s.cur (tileAt s.cur h))))
  let t := (ha.toList ++ hb.toList ++ hsa.toList ++ hsb.toList).foldl (fun (c : Actor) h => c.watchOp false h) s.cur
  let s := s.setCur ((t.retire 3).lastUses ((ha.toList.map fun h => (la, h)) ++ (hb.toList.map fun h => (lb, h))))
  let d := arrayCycles (max da.wd db.wd) + ofBool scaled
  let read := ((oa.hold.toList ++ ob.hold.toList).map fun h => (h.1, h.2, s.cycle + d)) ++ zs.map fun h => (h.1, h.2, s.cycle + 2)
  return s.startM (d + 4) { brief := read, accs := [acc.val], readsLb := hb.isNone }
/-- `mma` (R241). -/
def execMma (acc : Fin 4) (a : OpA) (b : OpB) (sr : SemiRing) (lasta lastb : Bool) (s : State) : Out :=
  unguarded s (mulAcc s acc a b none none false sr lasta lastb)
/-- `mmas` (R241; 07 R162). -/
def execMmas (acc : Fin 4) (a : OpA) (b : OpB) (sa sb : Option TileSel) (sr : SemiRing) (lasta lastb : Bool) (s : State) : Out :=
  unguarded s (mulAcc s acc a b sa sb true sr lasta lastb)

/-- The handle of a source of `macc` that is a tile. -/
def tileSelOfC : OpC → Option TileSel | .tile t => some t | .acc _ => none
/-- `macc` (R242). -/
def execMacc (acc : Fin 4) (a : OpC) (sr : SemiRing) (lasta : Bool) (s : State) : Out :=
  unguarded s do
    let h ← resolveOpt s.cur (tileSelOfC a)
    needLocal s h.toList
    needAcc s acc
    match a with
    | .acc k => do
      needAcc s k
      needM s
      let s := if k == acc then s else s.setAcc k (accAt s k)
      let v := ((accAt s k).window 0 0 128 128).map fun r => r.map fun x => (dec32 x.1.toNat, x.2)
      return ((s.setAcc acc ((accAt s acc).accumulate sr v)).retire 3).startM 132 { accs := [acc.val, k.val] }
    | .tile _ => do
      let k := h.getD 0
      let e ← needRead s k
      let d ← needDesc s.cur e
      check (1 ≤ d.cls && d.cls ≤ 3) rIllegal
      let n ← needSize s.cur e d
      check (e.rows.toNat ≤ 128 && e.cols.toNat ≤ 128) rTileBounds
      needM s
      let v := (tileOp s k).vals [] false
      let s := s.setAcc acc ((accAt s acc).accumulate sr v)
      let s := s.setCur (((s.cur.watchOp false k).retire 3).lastUses [(lasta, k)])
      return s.startM (e.rows.toNat + 4) { brief := [(e.loc.toNat, n, s.cycle + e.rows.toNat)], accs := [acc.val] }

-- Store (R243) -----------------------------------------------------------------------------------------------------

/-- Values rounded into a format in row order, with one draw per element under stochastic rounding (06 R151), and the
generator afterwards. -/
def roundMat (d : Desc) (rnd : Rnd) (sat : Bool) (gen : W64) (m : List (List PVal)) : Mat × W64 :=
  let n := total (m.map List.length)
  let w := (m.headD []).length
  let ds := if rnd == .sr then draws n gen else []
  let out : Mat := m.mapIdx fun i r =>
    let dr := (ds.drop (i * w)).take w
    r.mapIdx fun j x => (d.round x.1 rnd (dr.getD j 0) sat, x.2)
  (out, if rnd == .sr then genAfter n gen else gen)
/-- The job of a unit that writes a tile (05 R116, 07 R167). -/
def writeJob (s : State) (h : Nat) (m : Mat) : UnitJob :=
  let e := tileAt s.cur h
  let d := descOf (descVal s.cur e)
  let k := tileKey s.cur e
  let bad := matPois k d.wd m
  { writes := [(k, matBytes d.wd m)], pset := bad, pclr := cleanSectors k (tileSize e d) bad, ready := [h] }

/-- `mst` (R243). -/
def execMst (acc : Fin 4) (to_ : TileSel) (row0 col0 : BitVec 7) (clr sat : Bool) (rnd : Rnd) (s : State) : Out :=
  unguarded s do
    let h ← resolve s.cur true to_
    needLocal s [h]
    needAcc s acc
    let e ← needWrite s h
    let d ← needDesc s.cur e
    check ((1 ≤ d.cls && d.cls ≤ 4) || (d.cls == 0 && d.sgeo == 0)) rIllegal
    let n ← needSize s.cur e d
    let rows := e.rows.toNat; let cols := e.cols.toNat
    let r0 := row0.toNat; let c0 := col0.toNat
    check (r0 + rows ≤ 128 && c0 + cols ≤ 128) rTileBounds
    needNoHold s e.loc.toNat n
    needM s
    let a := accAt s acc
    let win := a.window r0 c0 rows cols
    let (m, gen) := roundMat d rnd sat s.cur.gen (win.map fun r => r.map fun x => (dec32 x.1.toNat, x.2))
    let whole := ((List.range rows).map fun i =>
      ((List.range 16).filter fun k => c0 ≤ 8 * k && 8 * k + 8 ≤ c0 + cols).map fun k => 16 * (r0 + i) + k).flatten
    let zeros := ((List.range rows).map fun i => (List.range cols).map fun j => (128 * (r0 + i) + c0 + j, (0 : W32))).flatten
    let a' := if clr then { a.write zeros with pois := a.pois.filter fun k => !whole.contains k } else a
    let job := writeJob s h m
    let s := s.setAcc acc a'
    let s := s.setCur ((({ s.cur with gen := gen } : Actor).tileState h .filling).watchOp true h |>.retire 5)
    return s.startM (ceilDiv n 512) { job with accs := [acc.val] }

end Sys2Proof.Machine
end

