-- ==== Sys2Proof/Machine/Crypto.lean ====
section
/-! DEFINITION. Digests and signatures: SHA-512, and ECDSA on P-521 (02 R47, 23 R417, R418). The manual names the two standards; their
constants and their arithmetic are taken from FIPS 180-4 and FIPS 186-4 (PRESUMED, log 96). -/

namespace Sys2Proof.Machine

-- SHA-512 ----------------------------------------------------------------------------------------------------------

/-- The initial hash value. -/
def shaInit : List W64 := [0x6A09E667F3BCC908, 0xBB67AE8584CAA73B, 0x3C6EF372FE94F82B, 0xA54FF53A5F1D36F1, 0x510E527FADE682D1, 0x9B05688C2B3E6C1F, 0x1F83D9ABFB41BD6B, 0x5BE0CD19137E2179]
/-- The round constants. -/
def shaK : List W64 :=
    [0x428A2F98D728AE22, 0x7137449123EF65CD, 0xB5C0FBCFEC4D3B2F, 0xE9B5DBA58189DBBC, 0x3956C25BF348B538, 0x59F111F1B605D019, 0x923F82A4AF194F9B, 0xAB1C5ED5DA6D8118] ++
    [0xD807AA98A3030242, 0x12835B0145706FBE, 0x243185BE4EE4B28C, 0x550C7DC3D5FFB4E2, 0x72BE5D74F27B896F, 0x80DEB1FE3B1696B1, 0x9BDC06A725C71235, 0xC19BF174CF692694] ++
    [0xE49B69C19EF14AD2, 0xEFBE4786384F25E3, 0x0FC19DC68B8CD5B5, 0x240CA1CC77AC9C65, 0x2DE92C6F592B0275, 0x4A7484AA6EA6E483, 0x5CB0A9DCBD41FBD4, 0x76F988DA831153B5] ++
    [0x983E5152EE66DFAB, 0xA831C66D2DB43210, 0xB00327C898FB213F, 0xBF597FC7BEEF0EE4, 0xC6E00BF33DA88FC2, 0xD5A79147930AA725, 0x06CA6351E003826F, 0x142929670A0E6E70] ++
    [0x27B70A8546D22FFC, 0x2E1B21385C26C926, 0x4D2C6DFC5AC42AED, 0x53380D139D95B3DF, 0x650A73548BAF63DE, 0x766A0ABB3C77B2A8, 0x81C2C92E47EDAEE6, 0x92722C851482353B] ++
    [0xA2BFE8A14CF10364, 0xA81A664BBC423001, 0xC24B8B70D0F89791, 0xC76C51A30654BE30, 0xD192E819D6EF5218, 0xD69906245565A910, 0xF40E35855771202A, 0x106AA07032BBD1B8] ++
    [0x19A4C116B8D2D0C8, 0x1E376C085141AB53, 0x2748774CDF8EEB99, 0x34B0BCB5E19B48A8, 0x391C0CB3C5C95A63, 0x4ED8AA4AE3418ACB, 0x5B9CCA4F7763E373, 0x682E6FF3D6B2B8A3] ++
    [0x748F82EE5DEFB2FC, 0x78A5636F43172F60, 0x84C87814A1F0AB72, 0x8CC702081A6439EC, 0x90BEFFFA23631E28, 0xA4506CEBDE82BDE9, 0xBEF9A3F7B2C67915, 0xC67178F2E372532B] ++
    [0xCA273ECEEA26619C, 0xD186B8C721C0C207, 0xEADA7DD6CDE0EB1E, 0xF57D4F7FEE6ED178, 0x06F067AA72176FBA, 0x0A637DC5A2C898A6, 0x113F9804BEF90DAE, 0x1B710B35131C471B] ++
    [0x28DB77F523047D84, 0x32CAAB7B40C72493, 0x3C9EBE0A15C9BEBC, 0x431D67C49C100D4C, 0x4CC5D4BECB3E42B6, 0x597F299CFC657E2A, 0x5FCB6FAB3AD6FAEC, 0x6C44198C4A475817]
/-- Σ0, Σ1, σ0 and σ1. -/
def bigS0 (x : W64) : W64 := x.rotateRight 28 ^^^ x.rotateRight 34 ^^^ x.rotateRight 39
def bigS1 (x : W64) : W64 := x.rotateRight 14 ^^^ x.rotateRight 18 ^^^ x.rotateRight 41
def smallS0 (x : W64) : W64 := x.rotateRight 1 ^^^ x.rotateRight 8 ^^^ x >>> 7
def smallS1 (x : W64) : W64 := x.rotateRight 19 ^^^ x.rotateRight 61 ^^^ x >>> 6
/-- `n` more words of a schedule, of which the 16 newest stand in `w`, oldest first. -/
def shaWords : Nat → List W64 → List W64
  | 0, _ => []
  | n + 1, w => w.headD 0 :: shaWords n (w.drop 1 ++ [smallS1 (w.getD 14 0) + w.getD 9 0 + smallS0 (w.getD 1 0) + w.getD 0 0])
/-- One round. -/
def shaRound (v : List W64) (kw : W64 × W64) : List W64 :=
  let g := fun i => v.getD i 0
  let t1 := g 7 + bigS1 (g 4) + ((g 4 &&& g 5) ^^^ (~~~ (g 4) &&& g 6)) + kw.1 + kw.2
  let t2 := bigS0 (g 0) + ((g 0 &&& g 1) ^^^ (g 0 &&& g 2) ^^^ (g 1 &&& g 2))
  [t1 + t2, g 0, g 1, g 2, g 3 + t1, g 4, g 5, g 6]
/-- A big-endian number of bytes. -/
def beNat (bs : List Byte) : Nat := bs.foldl (fun n b => n * 256 + b.toNat) 0
/-- One block of 128 bytes. -/
def shaBlock (h : List W64) (block : List Byte) : List W64 :=
  let w := (List.range 16).map fun i => BitVec.ofNat 64 (beNat ((block.drop (8 * i)).take 8))
  List.zipWith (· + ·) h ((shaK.zip (shaWords 80 w)).foldl shaRound h)
/-- `n` blocks. -/
def shaBlocks : Nat → List W64 → List Byte → List W64
  | 0, h, _ => h
  | n + 1, h, bs => shaBlocks n (shaBlock h (bs.take 128)) (bs.drop 128)
/-- SHA-512 of a run of bytes, as a number. -/
def sha512 (bs : List Byte) : Nat :=
  let pad := bs ++ [0x80] ++ List.replicate ((239 - bs.length % 128) % 128) 0 ++ (bytesOf 16 (8 * bs.length)).reverse
  (shaBlocks (pad.length / 128) shaInit pad).foldl (fun n w => n * 2 ^ 64 + w.toNat) 0
/-- That digest as its 64 bytes, most significant first. -/
def sha512Bytes (bs : List Byte) : List Byte := (bytesOf 64 (sha512 bs)).reverse

-- P-521 ------------------------------------------------------------------------------------------------------------

/-- The prime of the field, the coefficient `b`, the order of the group and its generator. -/
def curveP : Nat := 2 ^ 521 - 1
def curveB : Nat := 0x51953EB9618E1C9A1F929A21A0B68540EEA2DA725B99B315F3B8B489918EF109E156193951EC7E937B1652C0BD3BB1BF073573DF883D2C34F1EF451FD46B503F00
def curveN : Nat := 0x1FFFFFFFFFFFFFFFFFFFFFFFFFFFFFFFFFFFFFFFFFFFFFFFFFFFFFFFFFFFFFFFFFA51868783BF2F966B7FCC0148F709A5D03BB5C9B8899C47AEBB6FB71E91386409
def curveG : Nat × Nat :=
  (0xC6858E06B70404E9CD9E3ECB662395B4429C648139053FB521F828AF606B4D3DBAA14B5E77EFE75928FE1DC127A2FFA8DE3348B3C1856A429BF97E7E31C2E5BD66,
   0x11839296A789A3BC0045C8A5FB42C7D1BD998F54449579B446817AFBD17273E662C97EE72995EF42640C550B9013FAD0761353C7086A272C24088BE94769FD16650)
/-- `b ^ e` modulo `m`, by the `n` low bits of `e`. -/
def powMod (m : Nat) : Nat → Nat → Nat → Nat
  | 0, _, _ => 1 % m
  | n + 1, b, e => (if e % 2 = 1 then b else 1) * powMod m n (b * b % m) (e / 2) % m
/-- The inverse modulo a prime. -/
def invMod (m b : Nat) : Nat := powMod m 521 (b % m) (m - 2)
/-- a − b modulo `m`. -/
def subMod (m a b : Nat) : Nat := (a % m + m - b % m) % m
/-- The sum of two points; `none` is the point at infinity. -/
def pointAdd : Option (Nat × Nat) → Option (Nat × Nat) → Option (Nat × Nat)
  | none, q => q
  | p, none => p
  | some (x, y), some (u, v) =>
    if x = u ∧ (y + v) % curveP = 0 then none
    else
      let l := if x = u then subMod curveP (3 * x * x) 3 * invMod curveP (2 * y) % curveP
        else subMod curveP v y * invMod curveP (subMod curveP u x) % curveP
      let w := subMod curveP (l * l) (x + u)
      some (w, subMod curveP (l * subMod curveP x w) y)
/-- A multiple of a point, by the `n` low bits of the factor. -/
def pointMul : Nat → Nat → Option (Nat × Nat) → Option (Nat × Nat)
  | 0, _, _ => none
  | n + 1, k, p => pointAdd (if k % 2 = 1 then p else none) (pointMul n (k / 2) (pointAdd p p))
/-- Whether a point lies on the curve. -/
def onCurve (q : Nat × Nat) : Bool :=
  q.1 < curveP && q.2 < curveP && q.2 * q.2 % curveP == subMod curveP (q.1 * q.1 * q.1 + curveB) (3 * q.1)
/-- Whether 132 bytes, r then s, are a signature of a message under a public key. -/
def ecdsaVerify (key : Nat × Nat) (msg sig : List Byte) : Bool :=
  let r := beNat (sig.take 66)
  let s := beNat (sig.drop 66)
  let w := invMod curveN s
  onCurve key && 0 < r && r < curveN && 0 < s && s < curveN &&
    match pointAdd (pointMul 521 (sha512 msg * w % curveN) (some curveG)) (pointMul 521 (r * w % curveN) (some key)) with
    | some (x, _) => x % curveN == r
    | none => false
/-- The signature of a message under a private key `d` with the nonce `k`: r then s, 66 bytes each, big-endian. -/
def ecdsaSign (d k : Nat) (msg : List Byte) : List Byte :=
  let r := match pointMul 521 k (some curveG) with | some (x, _) => x % curveN | none => 0
  (bytesOf 66 r).reverse ++ (bytesOf 66 (invMod curveN k * (sha512 msg + r * d) % curveN)).reverse

-- The keys of the module (23 R417) ---------------------------------------------------------------------------------

/-- Whether a file's signature verifies under the root key or one of the at most four owner keys. -/
def signatureOk (msg sig : List Byte) : Bool := (Config.rootKey :: Config.ownerKeys.take 4).any fun k => ecdsaVerify k msg sig

end Sys2Proof.Machine
end

