-- ==== Sys2Proof/Machine/Loader.lean ====
section
/-! DEFINITION. The object format (02 R43 to R60) and the load checks in the order of R61, and the image store (R62): a file in
host memory becomes a `File` of the store. -/

namespace Sys2Proof.Machine

-- Reading a file ---------------------------------------------------------------------------------------------------

/-- A file under check: a reader of `n` bytes at an offset, and its length. -/
structure Pof where
  rd  : Nat → Nat → Nat
  len : Nat

/-- A section: type, offset, size (R45). -/
structure Sect where
  type : Nat := 0
  off  : Nat := 0
  size : Nat := 0
  deriving DecidableEq, Repr

/-- A load check: a failing one gives its rejection code. -/
def reject (ok : Bool) (code : Nat) : Except Nat Unit := if ok then .ok () else .error code

/-- The section of a type; an absent one is empty. -/
def sectOf (l : List Sect) (t : Nat) : Sect := (l.find? fun s => s.type == t).getD { type := t }
/-- Record `i` of a section whose records have `n` bytes. -/
def Pof.rcd (p : Pof) (s : Sect) (n i : Nat) : Nat := p.rd (s.off + n * i) n
/-- Records of a section. -/
def Sect.count (s : Sect) (n : Nat) : Nat := s.size / n

/-- The header checks (R44; R61, check 1). -/
def Pof.header (p : Pof) : Except Nat Nat := do
  reject (64 ≤ p.len) 1
  let h := p.rd 0 64
  reject (bits h 31 0 == 0x00464F50 && bits h 47 32 == 1 && bits h 511 256 == 0 && bits h 63 50 == 0) 1
  reject (bit h 49 == (bits h 255 192 != 0)) 1
  return h
/-- The signature (R47, 23 R417; R61, check 2): over bytes 0 to `sigoff` − 1, of the 132 bytes at `sigoff`. -/
def Pof.signed (p : Pof) (h : Nat) (sigreq : Bool) : Except Nat Unit :=
  let sigoff := bits h 255 192
  if bit h 49 then do
    reject (sigoff + 136 == p.len) 2
    reject (signatureOk (bytesOf sigoff (p.rd 0 sigoff)) (bytesOf 132 (p.rd sigoff 132))) 2
  else reject (!sigreq) 2
/-- Record sizes of the section types (R46). -/
def esizeOf (t : Nat) : Nat := match t with | 3 => 64 | 7 => 32 | 4 | 5 | 6 | 8 | 9 => 16 | _ => 0
/-- Whether two runs of bytes share one. -/
def meets (a m b n : Nat) : Bool := m != 0 && n != 0 && a < b + n && b < a + m
/-- Whether the members of a list are pairwise apart. -/
def apart : List (Nat × Nat) → Bool
  | [] => true
  | x :: r => r.all (fun y => !meets x.1 x.2 y.1 y.2) && apart r
/-- The section table (R45, R46; R61, check 3). Reserved bits of its headers are ignored (00 R14). DESIGN CHOICE (log 97): R46 does
not say whether a `.text` whose size is no multiple of 4 is rejected; it is, with 0x03, as a size that no words fill. -/
def Pof.sections (p : Pof) (h : Nat) : Except Nat (List Sect) := do
  let sh := bits h 191 128
  let n := bits h 79 64
  reject (3 ≤ n && n ≤ 10 && sh % 8 == 0 && sh + 32 * n ≤ p.len) 3
  let rs := (List.range n).map fun i => p.rd (sh + 32 * i) 32
  let good (r : Nat) : Bool :=
    let t := bits r 7 0
    1 ≤ t && t ≤ 10 && bits r 63 32 == esizeOf t && 2 ≤ bits r 15 8 && bits r 15 8 ≤ 12 &&
      bits r 127 64 % 2 ^ bits r 15 8 == 0 && bits r 127 64 + bits r 191 128 ≤ p.len &&
      (t == 9 || esizeOf t == 0 || bits r 191 128 % esizeOf t == 0)
  reject (rs.all good) 3
  let l : List Sect := rs.map fun r => { type := bits r 7 0, off := bits r 127 64, size := bits r 191 128 }
  reject ((l.map (·.type)).eraseDups.length == n && [1, 3, 4].all (fun t => l.any fun s => s.type == t)) 3
  let sig := if bit h 49 then [(bits h 255 192, 136)] else []
  reject (apart ([(0, 64), (sh, 32 * n)] ++ sig ++ l.map fun s => (s.off, s.size))) 3
  reject ((sectOf l 1).size % 4 == 0 && (sectOf l 3).size == 64 * bits h 95 80 && (sectOf l 4).size == 256 * bits h 95 80) 3
  return l

-- Images and handlers (R48 to R50; R61, check 5) -------------------------------------------------------------------

/-- A handler entry. -/
def handlerOf (r : Nat) : Handler :=
  { budget := bits r 127 96, livein := bits r 95 80, liveout := bits r 79 64, pc := bits r 63 32, audit := bit r 1, valid := bit r 0 }
/-- The checks on one image record and its handlers. -/
def Pof.imageOk (p : Pof) (l : List Sect) (r : Nat) : Bool :=
  let text := sectOf l 1
  let hs := sectOf l 4
  let zero : Bool := [(511, 480), (447, 440), (431, 426), (383, 368), (191, 184), (47, 43), (7, 5), (4, 4)].all fun e => bits r e.1 e.2 == 0
  let hdl := bits r 95 64
  let policy := bits r 425 424
  let hok (i : Nat) : Bool :=
    let h := p.rcd hs 16 (hdl + i)
    bits h 31 2 == 0 && (handlerOf h).pc % 4 == 0 && (handlerOf h).pc < text.size
  zero && (if bit r 0 then bits r 42 32 == 0 else 1 ≤ bits r 42 32 && bits r 42 32 ≤ 1024 && bits r 367 352 == 0) &&
    bits r 367 352 ≤ 4096 && (bits r 367 352 == 0 || bits r 351 320 + bits r 367 352 ≤ (sectOf l 2).size) && bits r 11 8 ≤ 8 &&
    bits r 167 160 ≤ 32 && bits r 423 416 ≤ 129 && policy != 3 && (policy == 0 || (bits r 479 448 != 0 && bits r 439 432 != 0)) &&
    hdl % 16 == 0 && hdl + 16 ≤ hs.count 16 && (List.range 16).all hok

-- Regions, layouts and formats (R51 to R56; R61, check 6) ----------------------------------------------------------

/-- Bytes of a page size code. -/
def pageBytes (c : Nat) : Nat := if c = 0 then 2 ^ 16 else if c = 1 then 2 ^ 21 else 2 ^ 30
/-- A region record. -/
def regionOf (r : Nat) : RegionRec :=
  { kind := match bits r 2 0 with | 0 => .dram | 1 => .cxl | 2 => .buoy | _ => .host
    page := bits r 7 6, share := match bits r 9 8 with | 0 => .priv | 1 => .owner | _ => .user
    locked := bit r 4, mirror := bit r 5, vbase := bits r 127 64, size := bits r 191 128, sym := bits r 63 32 }
/-- The checks on one region record (R51, R52; 03 R66; 14 R315); reserved bits are ignored (00 R14). -/
def regionOk (r : Nat) : Bool :=
  let g := regionOf r
  bits r 2 0 ≤ 3 && bits r 7 6 != 3 && bits r 9 8 != 3 &&
    g.size != 0 && g.size % pageBytes g.page == 0 && (g.kind != .buoy || g.size % 2 ^ 20 == 0) && g.vbase % pageBytes g.page == 0 &&
    0x10000 ≤ g.vbase && g.vbase + g.size ≤ 0x00FF000000000000 && (g.share == .priv || g.kind != .host) && (!g.mirror || g.kind == .buoy)
/-- The region records of an image record. -/
def Pof.regions (p : Pof) (l : List Sect) (r : Nat) : List Nat :=
  (List.range (bits r 167 160)).map fun i => p.rd ((sectOf l 5).off + 16 * bits r 159 128 + 32 * i) 32
/-- A layout record. -/
def layoutOf (r : Nat) : LayRec :=
  match bits r 3 0 with
  | 0 => .tile (bits r 8 4) (bit r 9) (bits r 13 10) (bits r 17 14) (bits r 39 18) (bits r 47 40) (bits r 58 48)
  | 1 => .inbox (bits r 5 4) (bits r 39 18) (bits r 63 40)
  | 2 => .data (bits r 39 18) (bits r 63 40) (bits r 127 64)
  | 3 => .ring (bits r 5 4) (bits r 12 8) (bits r 16 13)
  | _ => .barrier (bits r 6 4) (BitVec.ofNat 64 (bits r 127 64))
/-- Whether a layout record is of a layout that the manual assigns (R53); bits that a layout does not list are ignored (00 R14). -/
def layoutBits (r : Nat) : Bool := bits r 3 0 ≤ 4
/-- The format records of an image record (R48, R56). -/
def Pof.formats (p : Pof) (l : List Sect) (r : Nat) : List Nat :=
  let n := ((List.range 16).filter fun k => bit r (168 + k)).length
  (List.range n).map fun i => p.rcd (sectOf l 6) 16 (bits r 223 192 + i)
/-- The numbers and descriptors of an image's formats. -/
def fmtPairs (fs : List Nat) : List (Nat × W64) := fs.map fun f => (bits f 3 0, BitVec.ofNat 64 (bits f 127 64))
/-- The layout records of an image record. -/
def Pof.layouts (p : Pof) (l : List Sect) (r : Nat) : List Nat :=
  (List.range (bits r 63 48)).map fun i => p.rcd (sectOf l 5) 16 (bits r 127 96 + i)
/-- Bytes of a tile record under the image's formats. -/
def tileRecBytes (fs : List (Nat × W64)) (fmt rows cols : Nat) : Nat :=
  match fs.find? fun e => e.1 == fmt with
  | some e => rows * rowBytes cols (descOf e.2).wd
  | none => 0
/-- The checks on one layout record (R53, R55). -/
def layoutOk (fs : List (Nat × W64)) (tiles : List Nat) (region rodata : Nat) : LayRec → Bool
  | .tile h _ fmt bar off rows cols =>
    let n := tileRecBytes fs fmt rows cols
    h ≤ 27 && bar ≤ 8 && 1 ≤ rows && rows ≤ 128 && 1 ≤ cols && cols ≤ 1024 && off % 128 == 0 && fs.any (fun e => e.1 == fmt) &&
      n ≤ 262144 && off + n ≤ region
  | .inbox _ off bytes => 128 ≤ bytes && bytes ≤ 262144 && off % 128 == 0 && off + bytes ≤ region
  | .data off bytes src => off + bytes ≤ region && src + bytes ≤ rodata
  | .ring _ first n => 2 ≤ n && n ≤ 8 && first + n ≤ 28 && (List.range n).all fun i => tiles.contains (first + i)
  | .barrier _ _ => true
/-- What a record defines, for the rule of one record each (R55): a handle, a slot, a cursor or a barrier. -/
def LayRec.subject : LayRec → Option (Nat × Nat)
  | .tile h _ _ _ _ _ _ => some (0, h)
  | .inbox k _ _ => some (1, k)
  | .data _ _ _ => none
  | .ring q _ _ => some (3, q)
  | .barrier b _ => some (4, b)
/-- Bytes that tiles and inbox zones take. -/
def LayRec.span (fs : List (Nat × W64)) : LayRec → Nat × Nat
  | .tile _ _ fmt _ off rows cols => (off, tileRecBytes fs fmt rows cols)
  | .inbox _ off bytes => (off, bytes)
  | _ => (0, 0)
/-- Whether a record is an inbox zone. -/
def LayRec.isInbox : LayRec → Bool | .inbox _ _ _ => true | _ => false
/-- Whether no inbox zone meets another tile or zone. -/
def inboxesApart (fs : List (Nat × W64)) (ls : List LayRec) : Bool :=
  (List.range ls.length).all fun i => (List.range ls.length).all fun j =>
    let x := ls.getD i (.barrier 0 0)
    let y := ls.getD j (.barrier 0 0)
    i == j || !x.isInbox || !meets (x.span fs).1 (x.span fs).2 (y.span fs).1 (y.span fs).2
/-- Check 6 of R61 on one image. -/
def Pof.layoutCheck (p : Pof) (l : List Sect) (r : Nat) : Bool :=
  let rs := p.regions l r
  let gs := rs.map regionOf
  let fs := p.formats l r
  let fp := fmtPairs fs
  let raw := p.layouts l r
  let ls := raw.map layoutOf
  let tiles := ls.filterMap fun x => match x with | .tile h _ _ _ _ _ _ => some h | _ => none
  let subs := ls.filterMap LayRec.subject
  let masked := (List.range 16).filter fun k => bit r (168 + k)
  (rs.isEmpty || bits r 159 128 + 2 * rs.length ≤ (sectOf l 5).count 16) && rs.all regionOk &&
    (gs.filter (·.locked)).length ≤ 16 && apart (gs.map fun g => (g.vbase, g.size)) &&
    (fs.isEmpty || bits r 223 192 + fs.length ≤ (sectOf l 6).count 16) && fp.map (·.1) == masked &&
    (raw.isEmpty || bits r 127 96 + raw.length ≤ (sectOf l 5).count 16) && raw.all layoutBits &&
    (!bit r 0 || raw.isEmpty) && ls.all (layoutOk fp tiles (bits r 42 32 * 4096) (sectOf l 2).size) &&
    subs.eraseDups.length == subs.length && inboxesApart fp ls
-- Symbols (R60) -----------------------------------------------------------------------------------------------------

/-- Symbols of a file; record 0 counts them (R60). -/
def Pof.symbols (p : Pof) (l : List Sect) : Nat := if (sectOf l 9).size < 16 then 1 else bits (p.rcd (sectOf l 9) 16 0) 127 64
/-- A name in ASCII up to its zero byte, within `n` bytes. -/
def Pof.cstr (p : Pof) : Nat → Nat → Option (List Nat)
  | 0, _ => none
  | n + 1, o =>
    let b := p.rd o 1
    if b = 0 then some [] else if 128 ≤ b then none else (p.cstr n (o + 1)).map fun r => b :: r
/-- The name of a symbol, from the string pool behind the last record; record 0, the header, names nothing. -/
def Pof.symName (p : Pof) (l : List Sect) (k : Nat) : Option (List Nat) :=
  let s := sectOf l 9
  let n := p.symbols l
  let o := 16 * n + bits (p.rcd s 16 k) 31 0
  if k = 0 then some [] else if n ≤ k ∨ s.size ≤ o then none else p.cstr (s.size - o) (s.off + o)
/-- The checks on a symbol record (R60); its reserved bits are ignored (00 R14). -/
def Pof.symOk (p : Pof) (l : List Sect) (k : Nat) : Bool :=
  let r := p.rcd (sectOf l 9) 16 k
  bits r 39 36 ≤ 5 && (p.symName l k).isSome

-- Commons regions (R52, 04 R98) -------------------------------------------------------------------------------------

/-- Whether two records describe one commons region (R52). -/
def sameRegion (a b : RegionRec) : Bool := a.kind == b.kind && a.page == b.page && a.vbase == b.vbase && a.size == b.size
/-- The owner records of a file, each with its region's name. -/
def Pof.owners (p : Pof) (l : List Sect) (gs : List RegionRec) : List (Option (List Nat) × RegionRec) :=
  (gs.filter fun g => g.share == .owner).map fun g => (p.symName l g.sym, g)
/-- Every user record names its owner's region through a global symbol, and each commons region has one owner record (R52). -/
def Pof.commonsOk (p : Pof) (l : List Sect) (gs : List RegionRec) : Bool :=
  let os := p.owners l gs
  os.all (fun o => o.1.isSome) && (os.map (·.1)).eraseDups.length == os.length &&
    gs.all fun g => g.share != .user ||
      (bit (p.rcd (sectOf l 9) 16 g.sym) 40 && os.any fun o => o.1 == p.symName l g.sym && sameRegion g o.2)
/-- A region record whose `sym` numbers its commons region within the file, from 1. -/
def Pof.numbered (p : Pof) (l : List Sect) (gs : List RegionRec) (g : RegionRec) : RegionRec :=
  if g.share == .priv then g
  else { g with sym := 1 + (findIdx (fun (o : Option (List Nat) × RegionRec) => o.1 == p.symName l g.sym) (p.owners l gs)).getD 0 }

-- Supervision and symbols (R57, R60; R61, check 7) -----------------------------------------------------------------

/-- A supervision record. -/
def supOf (r : Nat) : SupRec :=
  match bits r 3 0 with
  | 0 => .child (bits r 7 4) (bits r 31 16) (bits r 63 32) (BitVec.ofNat 64 (bits r 127 64))
  | 1 => .cohort (bits r 15 8) (match bits r 17 16 with | 1 => .row | 2 => .column | _ => .any)
  | _ => .member (bits r 63 32) (BitVec.ofNat 64 (bits r 127 64))
/-- Ranges of one supervision record (R57); bits that a layout does not list are ignored (00 R14). -/
def supOk (nimg nsym : Nat) (r : Nat) : Bool :=
  match bits r 3 0 with
  | 0 | 2 => bits r 63 32 < nimg
  | 1 => 1 ≤ bits r 15 8 && bits r 15 8 ≤ 64 && bits r 17 16 != 3 && bits r 63 32 < nsym
  | _ => false
/-- Whether a run of records is children and cohorts, each cohort followed by its members, children in ascending order. -/
def supRun : List SupRec → Nat → Option Nat → Bool
  | [], n, _ => n = 0
  | .member _ _ :: r, n + 1, o => supRun r n o
  | .member _ _ :: _, 0, _ => false
  | .child _ ord _ _ :: r, 0, o => (match o with | some k => k < ord | none => true) && supRun r 0 (some ord)
  | .cohort n _ :: r, 0, o => supRun r n o
  | _ :: _, _ + 1, _ => false
/-- Check 7 of R61. DESIGN CHOICE (log 98): the manual does not say what the check of symbol references covers; here every reference is
below the count of symbols, and every symbol has an assigned `sk` and a name in ASCII that ends within the pool. Whether `sk`, `type`
and `value` suit the record that refers to the symbol is not checked. -/
def Pof.supCheck (p : Pof) (l : List Sect) (imgs : List Nat) : Bool :=
  let s := sectOf l 7
  let nsym := p.symbols l
  let raw := (List.range (s.count 32)).map fun i => p.rcd s 32 i
  1 ≤ nsym && nsym * 16 ≤ max 16 (sectOf l 9).size && (List.range (nsym - 1)).all (fun i => p.symOk l (i + 1)) && raw.all (supOk imgs.length nsym) &&
    imgs.all fun r =>
      let n := bits r 423 416
      (n == 0 || bits r 415 384 + n ≤ s.count 32) && supRun (((raw.drop (bits r 415 384)).take n).map supOf) 0 none && bits r 255 224 < nsym &&
        (p.regions l r).all fun g => bits g 63 32 < nsym

-- The whole file (R61) ---------------------------------------------------------------------------------------------

/-- An image of the store. -/
def Pof.image (p : Pof) (l : List Sect) (gs : List RegionRec) (r : Nat) : Image :=
  { roaming := bit r 0, prio := bits r 3 1, ovf := bits r 11 8, xmask := bits r 15 12, chmask := bits r 31 16, spsize := bits r 42 32
    lays := (p.layouts l r).map layoutOf, handlers := (List.range 16).map fun i => handlerOf (p.rcd (sectOf l 4) 16 (bits r 95 64 + i))
    regions := (p.regions l r).map fun g => p.numbered l gs (regionOf g), fmts := fmtPairs (p.formats l r), seed := BitVec.ofNat 64 (bits r 319 256)
    win := bits r 351 320, winsz := bits r 367 352, sup := bits r 415 384, nsup := bits r 423 416, policy := bits r 425 424
    rmax := bits r 439 432, rwin := bits r 479 448 }
/-- Checks 1 to 7 of R61, and the file's records. -/
def Pof.parse (p : Pof) (sigreq : Bool) : Except Nat File := do
  let h ← p.header
  p.signed h sigreq
  let l ← p.sections h
  reject (bit h 48 && (sectOf l 8).size == 0) 4
  let imgs := (List.range (bits h 95 80)).map fun i => p.rcd (sectOf l 3) 64 i
  reject (1 ≤ imgs.length && bits h 127 96 < imgs.length && imgs.all (p.imageOk l)) 5
  let gs := (imgs.map fun r => (p.regions l r).map regionOf).flatten
  reject ((List.range ((sectOf l 6).count 16)).all fun i => validDesc (BitVec.ofNat 64 (bits (p.rcd (sectOf l 6) 16 i) 127 64))) 6
  reject (imgs.all (p.layoutCheck l) && p.commonsOk l gs) 6
  reject (p.supCheck l imgs) 7
  let s := sectOf l 7
  return { size := p.len, text := (sectOf l 1).off, textLen := (sectOf l 1).size, rodata := (sectOf l 2).off, dbg := (sectOf l 10).off, dbgLen := (sectOf l 10).size
           images := imgs.map (p.image l gs), sups := (List.range (s.count 32)).map fun i => supOf (p.rcd s 32 i), root := bits h 127 96 }

/-- Physical address of host bus address 0 (03 R68). -/
def hostBase : Nat := 0x200000000000
/-- A file at a bus address. -/
def State.pof (s : State) (bus len : Nat) : Pof := { rd := fun o n => s.num (hostBase + bus + o) n, len := len }
/-- A load (R61, R62): a rejection code, or the handle and the state whose store holds the file. `.dbg` is not loaded (R46): its bytes
are not copied and count against no limit; offsets within the file stand, so that its place in the stored copy stays as it was (log 99). -/
def State.load (s : State) (bus len : Nat) : Except Nat (Nat × State) := do
  let f ← (s.pof bus len).parse s.regs.sigreq
  let stored := total (s.files.map fun f => f.size - f.dbgLen)
  reject (s.files.length < 256 && stored + (len - f.dbgLen) ≤ 2 ^ 32) 8
  match s.findRun .dram (ceilDiv len (2 ^ 16)) 1 0 false with
  | none => .error 8
  | some pg =>
    let b := pg * 2 ^ 16
    let h := s.nextFile
    let f : File := { f with handle := h, base := b, text := b + f.text, rodata := b + f.rodata }
    return (h, { (s.put b (s.bytes (hostBase + bus) f.dbg)).put (b + f.dbg + f.dbgLen) (s.bytes (hostBase + bus + f.dbg + f.dbgLen) (len - f.dbg - f.dbgLen)) with files := s.files ++ [f], nextFile := h + 1 })

end Sys2Proof.Machine
end

