-- ==== Sys2Proof/Machine/Portal.lean ====
section
/-! DEFINITION. The host portal (18 R378 to R383; 23 R416, R419): slots and their order, host queues, the services of job 0
(11 R420): launches, loads, unloads, duty answers and attestation. -/

namespace Sys2Proof.Machine

-- Host queues (R381) -----------------------------------------------------------------------------------------------

/-- Physical address of a host bus address. -/
def busAddr (bus : Nat) : Nat := hostBase + bus % 2 ^ 44
/-- A host queue. -/
def State.queue (s : State) (q : Nat) : HostQueue := kvGet {} s.queues q
/-- The entries of a queue that have room are written, each with the queue's next number. -/
def State.drainQueue (s : State) (q : Nat) : Nat → State
  | 0 => s
  | f + 1 =>
    let x := s.queue q
    match x.wait with
    | [] => s
    | m :: rest =>
      let n := (x.wr + 1) % 2 ^ 16
      if (n + 2 * 2 ^ 16 - x.ack - 1) % 2 ^ 16 < 2 ^ x.log then
        let s := s.put (busAddr (x.base + 128 * (n % 2 ^ x.log))) (msgBytes { m with seq := n })
        ({ s with queues := kvSet s.queues q { x with wr := n, wait := rest } } : State).drainQueue q f
      else s
/-- HOST_QUEUE_WRITE (R381): a message, or a completion record (`flag`), waits for queue `n`, and what has room is written. -/
def execHostQueueWrite (s : State) : Out :=
  let q := s.arg.n
  let m := if s.arg.flag then { s.arg.msg with dest := s.service 2 } else s.arg.msg
  let x := s.queue q
  let s : State := if s.arg.flag2 then s else { s with queues := kvSet s.queues q { x with wait := x.wait ++ [m] } }
  .next (s.drainQueue q (x.wait.length + 1))
/-- HQACK_WRITE (R381): the host has consumed entries up to `v` of queue `n`. -/
def execHqackWrite (s : State) : Out :=
  let q := s.arg.n
  let s : State := { s with queues := kvSet s.queues q { s.queue q with ack := s.arg.v.toNat % 2 ^ 16 } }
  .next (s.post 0 .hostQueueWrite { n := q, flag2 := true })

-- Slots (R379) -----------------------------------------------------------------------------------------------------

/-- A portal channel. -/
def State.chan (s : State) (c : Nat) : PortalChan := kvGet {} s.chans c
/-- PORTAL_ERROR (R382): a record of kind 5. -/
def State.portalError (s : State) (c stat rseq : Nat) : State := s.record c 5 stat rseq 0 0
/-- A delivered portal message goes to its service, or to an actor with the next number from sender 0 (R420). -/
def State.portalDeliver (s : State) (c : Nat) (m : Msg) : State :=
  let g : EvArg := { msg := m, k := c }
  let ch := m.chan.val
  if jobOf m.dest != 0 then s.partMessage m
  else if m.dest == s.service 1 && ch == 0 then s.post 0 .launch g
  else if m.dest == s.service 1 && ch == 1 then s.post 0 (if m.m.getD 0 0 == 0 then .unload else .load) g
  else if m.dest == s.service 3 && ch == 2 then s.post 0 .dutyAnswer g
  else if m.dest == s.service 4 && ch == 2 then s.post 0 .attestationRequest g
  else s.portalError c 4 m.seq
/-- A channel's next message, and then those held that follow it. -/
def State.portalFollow (s : State) (c : Nat) : Nat → State
  | 0 => s
  | f + 1 =>
    let x := s.chan c
    match x.held.find? fun m => m.seq == x.exp with
    | none => s
    | some m =>
      let s : State := { s with chans := kvSet s.chans c { x with exp := (x.exp + 1) % 2 ^ 16, held := x.held.filter fun y => y.seq != m.seq } }
      (s.portalDeliver c m).portalFollow c f
/-- A complete slot handled by its number (R379). -/
def State.portalSlot (s : State) (c slot : Nat) : State :=
  let bs := s.bytes (portalBase + 2 ^ 16 * c + 128 * slot) 128
  let m := msgOf (bs.take 120)
  let x := s.chan c
  let d := (m.seq + 2 ^ 16 - x.exp) % 2 ^ 16
  if crc64 0 (bs.take 120) != ofBytes (bs.drop 120) then s.portalError c 1 m.seq
  else if m.sender != 0 then s.portalError c 3 m.seq
  else if d < 512 then
    let held := x.held.filter fun y => y.seq != m.seq
    ({ s with chans := kvSet s.chans c { x with held := held ++ [m] } } : State).portalFollow c (held.length + 1)
  else if d < 32768 then s.portalError c 2 m.seq
  else { s with chans := kvSet s.chans c { x with dup := (x.dup + 1) % 2 ^ 16 } }
/-- PORTAL_SLOT_COMPLETE (R379; 23 R419): slot `m` of channel `n`; before the portal opens it waits. -/
def execPortalSlotComplete (s : State) : Out :=
  let c := s.arg.n
  if s.regs.bootOpen then .next (s.portalSlot c s.arg.m)
  else .next { s with chans := kvSet s.chans c { s.chan c with early := (s.chan c).early ++ [s.arg.m] } }
/-- `sigreq` as a write of `bootctl` leaves it (23 R416, R419). -/
def State.writeSigreq (s : State) (v : Nat) : State :=
  if s.regs.bootOpen then s else { s with regs := { s.regs with sigreq := bit v 62 } }
/-- PORTAL_OPEN (23 R416): `bootctl` written with `open`: the portal opens once `done` is 1, and early slots are handled. -/
def execPortalOpen (s : State) : Out :=
  let v := s.arg.v.toNat
  let s := s.writeSigreq v
  if !s.regs.done || s.regs.bootOpen || !bit v 63 then .next s
  else
    let early := (s.chans.map fun e => e.2.early.map fun k => (e.1, k)).flatten
    let s : State := { s with regs := { s.regs with bootOpen := true }, chans := s.chans.map fun e => (e.1, { e.2 with early := [] }) }
    .next (early.foldl (fun (t : State) e => t.post 0 .portalSlotComplete { n := e.1, m := e.2 }) s)

-- The job service (14 R326, R327; 02 R61, R62) ---------------------------------------------------------------------

/-- Seats that no actor holds, in cells that take actors. -/
def State.freeSeats (s : State) : Nat :=
  total ((List.range 512).map fun c => if (s.cell c).health = 0 && !(s.cell c).boot then 8 - (s.seated c).length else 0)
/-- Buoy granules that no allocation holds, of the pod's 2^26 (03 R81). -/
def State.freeGranules (s : State) : Nat :=
  2 ^ 26 - total ((s.backs.filter fun b => b.kind == .buoy).map fun b => quotaCost (granules b.ppage b.npg) b.mirror)
/-- The status that refuses a launch, lowest first (R327). -/
def State.launchStatus (s : State) (m : Msg) : Nat :=
  let m1 := (m.m.getD 1 0).toNat; let m3 := (m.m.getD 3 0).toNat
  let jobn := bits m1 15 0
  let known := s.files.any fun f => f.handle == (m.m.getD 0 0).toNat && !f.marked && bits m1 31 16 < f.images.length
  if !known then 1
  else if jobn = 0 || (s.job jobn).isSome then 2
  else if 64 ≤ s.jobs.length then 3
  else if bits m1 63 35 != 0 || bits m3 63 61 != 0 || 4096 < bits m3 60 48 || s.freeSeats < bits m3 60 48 ||
      65536 - total (s.jobs.map (·.live)) < bits m3 47 32 || s.freeGranules < bits m3 31 0 then 4
  else 0
/-- LAUNCH (R327): admitted, with the root's placement asked for from Astrolabe's cell, or refused with a record. The switch agent on plane
`jobn` mod 16 holds its quota, or on the next live one (03 R83). -/
def execLaunch (s : State) : Out :=
  let m := s.arg.msg
  let m1 := (m.m.getD 1 0).toNat; let m3 := (m.m.getD 3 0).toNat
  let q : SpawnReq := { kind := .root, by_ := s.service 1, job := bits m1 15 0, file := (m.m.getD 0 0).toNat, img := bits m1 31 16, arg := m.m.getD 2 0, cell := s.cellOf (s.service 1), chan := s.arg.k, seq := m.seq }
  let st := s.launchStatus m
  if st != 0 then .next (s.launchRecord q st 0)
  else
    let j : Job := { jobn := q.job, file := q.file, pmax := bits m1 34 32, seatsQ := bits m3 60 48, actQ := bits m3 47 32, buoyQ := bits m3 31 0, chan := q.chan, seq := q.seq, agent := (s.livePlane (q.job % 16)).getD (q.job % 16), serial := kvGet 1 s.serials q.job }
    .next (({ s with jobs := s.jobs ++ [j] } : State).post 0 .spawnAnswer { req := q })
/-- LOAD (02 R61): the checks, the copy into the store, the record. -/
def execLoad (s : State) : Out :=
  let m := s.arg.msg
  match s.load ((m.m.getD 0 0).toNat % 2 ^ 44) (m.m.getD 1 0).toNat with
  | .error e => .next (s.record s.arg.k 1 e m.seq 0 0)
  | .ok (h, t) => .next (t.record s.arg.k 1 0 m.seq (BitVec.ofNat 64 h) 0)
/-- UNLOAD (02 R62): the file is marked, and leaves at once if nothing names it. -/
def execUnload (s : State) : Out :=
  let m := s.arg.msg
  let h := (m.m.getD 1 0).toNat
  if s.files.any fun f => f.handle == h then
    let s : State := { s with files := s.files.map fun (f : File) => if f.handle == h then { f with marked := true } else f }
    .next (s.sweepFiles.record s.arg.k 1 0 m.seq (BitVec.ofNat 64 h) 0)
  else .next (s.record s.arg.k 1 9 m.seq 0 0)

-- Attestation (23 R418) --------------------------------------------------------------------------------------------

/-- Bytes cut or padded with zeros to a length. -/
def fitBytes (n : Nat) (bs : List Byte) : List Byte := (bs ++ List.replicate n 0).take n
/-- The certificate buffer. -/
def certBuffer : List Byte :=
  let c := Config.certificate.take 2040
  fitBytes 2048 (bytesOf 8 c.length ++ c)
/-- Bytes 0 to 159 of a report. -/
def State.reportBody (s : State) (n0 n1 : W64) : List Byte :=
  bytesOf 8 0x0000000154525441 ++ bytesOf 8 n0.toNat ++ bytesOf 8 n1.toNat ++ sha512Bytes Config.firmware ++
    sha512Bytes Config.ownerKeyTable ++ bytesOf 8 (ofBool s.regs.sigreq * 2 ^ 63 + s.regs.aid * 2 ^ 48 + s.regs.nret)
/-- ATTESTATION_REQUEST (R418): the certificate, the report, and then the record. -/
def execAttestationRequest (s : State) : Out :=
  let m := s.arg.msg
  let rep := (m.m.getD 2 0).toNat; let cert := (m.m.getD 3 0).toNat
  if rep % 512 != 0 || cert % 512 != 0 then .next (s.record s.arg.k 10 1 m.seq 0 0)
  else
    let s' := if cert = 0 then s else s.put (busAddr cert) certBuffer
    let body := s.reportBody (m.m.getD 0 0) (m.m.getD 1 0)
    .next ((s'.put (busAddr rep) (fitBytes 512 (body ++ ecdsaSign Config.identityKey (Config.signNonce body) body))).record s.arg.k 10 0 m.seq 0 0)

-- Duty answers (21 R402, R403) -------------------------------------------------------------------------------------

/-- Whether a run of pages lies in the window of a region's tier (03 R68). -/
def inWindow (k : RegKind) (p n : Nat) : Bool :=
  let t : Tier := match k with | .dram => .dram | .cxl => .cxl | .host => .host | .buoy => .buoy
  tierOf (p * 2 ^ 16) == some t && tierOf ((p + n) * 2 ^ 16 - 1) == some t
/-- A page that the host has backed (duty 0): `pp` its physical page, `n` how many the host gave. The whole unit of the region is backed, granules
in buoy memory (04 R94, R97; 03 R81), and pages of the part's own tiers are zeroed. Pages outside the tier's window, or that something has, are
not backed (DESIGN CHOICE, log 117). -/
def State.hostBack (s : State) (a : Actor) (va pp n : Nat) : State :=
  let vp := va / 2 ^ 16
  match regionAt (s.image a) va with
  | none => s
  | some (_, r) =>
    let u := s.touched a r vp
    let room := min n ((r.vbase + r.size) / 2 ^ 16 - vp)
    let free := ((List.range room).takeWhile fun i => (s.backing a r (vp + i)).isNone).length
    let len := max u.2 (vp - u.1 + free)
    let p := pp - (vp - u.1)
    if free = 0 || p % r.unit != (u.1 - r.vbase / 2 ^ 16) % r.unit || !inWindow r.kind p len then s
    else if r.kind == .host then
      { s with backs := s.backs ++ [{ job := jobOf a.name, owner := backOwner a r, vpage := u.1, npg := len, ppage := p, kind := .host, locked := r.share != .priv }] }
    else if s.runServes r.kind p len r.mirror then s.backRun a r u.1 len p
    else s
/-- The entry of a dead actor that awaits the host's decision. -/
def State.askedEnt (s : State) (dead sup : ActorName) : Option ChildEnt :=
  (s.supTab sup).bind fun t => t.ents.find? fun e => e.asked && e.names dead
/-- The host's decision on a restart (16 R351, R353). -/
def State.hostRestart (s : State) (dead sup : ActorName) (v : Nat) : State :=
  match s.askedEnt dead sup with
  | none => s
  | some e =>
    let s := s.modEnt sup e.rcd fun x => { x with asked := false }
    if !s.alive sup then s
    else if v = 0 then s.perform sup e
    else if v = 1 then s.stopEnt sup e
    else s.escalate sup e
/-- A request with what the host has answered so far goes on. -/
def State.hostPlace (s : State) (q : SpawnReq) : State :=
  match q.kind with
  | .move =>
    let a := s.actor q.by_
    let c := q.cells.headD 0
    let fits := !(s.latched a && !s.latchFree c a.name)
    let free := (a.st == .idle || a.st == .ready || a.st == .parked) && !s.unitsBusy a && !a.dbg.stop
    match (if fits && free then s.spotAt c (jobOf a.name) a.roaming a.size else none) with
    | some p => s.relocate a p
    | none => if a.st == .parked then s.post 64 .unpark { actor := a.name } else s
  | .restart => s.post 0 .restart { actor := q.by_, nats := [q.crec], req := q }
  | .spawn | .spawnc | .supStart | .root => s.post 0 .spawnAnswer { req := q }
/-- DUTY_ANSWER (R402): the host's answer to a request that still waits; any other is discarded (R403). -/
def execDutyAnswer (s : State) : Out :=
  let m := s.arg.msg
  let w (i : Nat) := (m.m.getD i 0).toNat
  match s.duties.find? fun d => d.num == w 0 % 2 ^ 32 && d.duty == w 0 / 2 ^ 56 with
  | none => .next s
  | some d =>
    let s : State := { s with duties := s.duties.filter fun x => x.num != d.num }
    match d.what with
    | .page n va =>
      let denied := match regionAt (s.image (s.actor n)) va with | some (_, r) => s.quotaFails (s.actor n) r (va / 2 ^ 16) | none => false
      if !s.alive n then .next s
      else if w 1 = 2 || denied then .next (s.answerWalk n va .none)
      else .next ((s.hostBack (s.actor n) va (bits (w 2) 47 16) (w 3)).answerWalk n va .mapped)
    | .restart dead _ sup => .next (s.hostRestart dead sup (w 1))
    | .audit b =>
      let x := s.audit b
      if !kvHas s.audits b then .next s
      else if w 1 = 1 then .next ((s.quarantine x.cell).freeAudit b)
      else if w 1 = 2 then .next ((s.quarantine (x.cells.getD 1 0)).freeAudit b)
      else if w 1 = 3 then .next (s.post 0 .shadowRun { n := b })
      else .next (s.freeAudit b)
    | .place q => .next (s.hostPlace { q with cells := q.cells ++ [w 1 % 512] })
    | .locked q n ri npg => .next (s.hostPlace { q with runs := q.runs ++ [(runKey n ri, if w 1 = 0 ∧ npg ≤ w 3 then some (bits (w 2) 47 16) else none)] })
    | .buoy n _ va mib _ _ =>
      if !s.alive n then .next s
      else
        let (st, t) := match w 1, regionAt (s.image (s.actor n)) va with
          | 0, some (_, r) => s.alloc (s.actor n) r va mib (some (w 2))
          | v, _ => (v, s)
        .next (t.modActor n fun a => { a with pend := some (16 + st) })

/-- A request taken back when its duty returns to hardware (R403). -/
def State.takeBack (s : State) (d : DutyReq) : State :=
  match d.what with
  | .page n va => s.post 0 .walkRequest { actor := n, n := va }
  | .restart dead r sup =>
    match s.askedEnt dead sup with
    | none => s
    | some e =>
      let s := s.modEnt sup e.rcd fun x => { x with asked := false }
      if bit e.rmask (groupOf r) then s.restartEvent sup e else s.stopEnt sup e
  | .audit b => s.post 0 .shadowRun { n := b }
  | .place q => if q.kind == .move then (if (s.actor q.by_).st == .parked then s.post 0 .unpark { actor := q.by_ } else s) else s.hostPlace q
  | .locked q _ _ _ => s.hostPlace q
  | .buoy n _ _ _ _ _ => s.modActor n fun a => { a with pend := none }
/-- Whether a request is for a page of a host region, which stays the host's whatever the mode (R402). -/
def State.hostPage (s : State) (d : DutyReq) : Bool :=
  match d.what with
  | .page n va => match regionAt (s.image (s.actor n)) va with | some (_, r) => r.kind == .host | none => false
  | .locked _ _ _ _ => true
  | _ => false
/-- DUTYMODE_WRITE (R402, R403). -/
def execDutymodeWrite (s : State) : Out :=
  let v := s.arg.v.toNat % 32
  let back := s.duties.filter fun d => !bit v d.duty && !s.hostPage d
  let s : State := { s with duties := s.duties.filter fun d => !back.contains d, regs := { s.regs with duty := v, azEn := s.regs.azEn && !bit v 3 } }
  .next (back.foldl State.takeBack s)

-- Registers (00 R13, R14) ------------------------------------------------------------------------------------------

/-- A field that keeps its value when what is written lies outside its range. -/
def ranged (lo hi old new : Nat) : Nat := if lo ≤ new ∧ new ≤ hi then new else old
/-- The next swap instant is counted anew from the last one (15 R340). -/
def State.reschedule (s : State) : State :=
  let at_ := max s.cycle (s.lastInst + 2 ^ s.regs.ivl)
  { s with agenda := s.agenda.map fun (d : Due) => if d.ev.ev == .swapInstant then { d with at_ := at_ } else d }
/-- REGISTER_WRITE: `v` written to the management register at offset `n`: its RW fields, as their maps say. Fields that the
part alone writes, and reserved ones, ignore it. -/
def execRegisterWrite (s : State) : Out :=
  let o := s.arg.n; let v := s.arg.v.toNat
  let r := s.regs
  let set (x : Regs) : Out := .next { s with regs := x }
  if o = 0x300 then .next (s.writeSigreq v)
  else if o = 0x318 then set { r with pwrcap := max 1000 (min 5400 (bits v 12 0)) }
  else if o = 0x400 then set { r with migEn := bit v 63, epoch := ranged 20 40 r.epoch (bits v 39 32), hot := bits v 15 0 }
  else if o = 0x408 then .next (({ s with regs := { r with lost := bits v 63 32 } } : State).post 0 .lostScan {})
  else if o = 0x500 then
    let x : Regs := { r with azEn := bit v 63, wake := bits v 55 48, gate := bits v 47 40, ivl := ranged 14 30 r.ivl (bits v 36 32), thr := bits v 23 0 }
    .next (if x.ivl = r.ivl then { s with regs := x } else ({ s with regs := x } : State).reschedule)
  else if o = 0x508 then set { r with xchg := bits v 31 16, rev := bits v 15 0 }
  else if o = 0x600 then set { r with hwrt := bit v 63, ethr := bits v 39 32, ewin := ranged 16 30 r.ewin (bits v 4 0) }
  else if o = 0x608 then set { r with sel := bits v 7 0 }
  else if o = 0x620 then
    set { r with aid := if r.bootOpen then r.aid else bits v 57 48, ftmo := ranged 12 24 r.ftmo (bits v 39 32), fretry := min 7 (bits v 27 24) }
  else if o = 0x628 then set { r with late := bits v 63 32 }
  else if 0x800 ≤ o ∧ o < 0x820 ∧ o % 8 = 0 then
    let c := (o - 0x800) / 8
    .next { s with chans := kvSet s.chans c { s.chan c with dup := bits v 63 48 } }
  else if 0x840 ≤ o ∧ o < 0x8C0 ∧ o % 0x20 = 0 then
    let q := (o - 0x840) / 0x20
    let x := s.queue q
    .next (({ s with queues := kvSet s.queues q { x with base := v / 2 ^ 12 * 2 ^ 12, log := ranged 6 16 x.log (bits v 4 0) } } : State).post 0 .hostQueueWrite { n := q, flag2 := true })
  else if o = 0x900 then set { r with audEn := bit v 63, audK := min 20 (bits v 4 0) }
  else if o = 0x908 then set { r with smp := bits v 63 48, mis := bits v 47 32, aban := bits v 31 16, unr := bits v 15 0 }
  else if o = 0xA08 then set { r with ageEn := bit v 63, mmin := bits v 15 0 }
  else if o = 0xB00 then set { r with silbase := bits v 47 16 }
  else if o = 0xB08 then
    let w := bits v 52 48
    -- DESIGN CHOICE (log 30): a ring size outside 10 to 26 leaves a free size of that range
    let g := if 10 ≤ w ∧ w ≤ 26 then w else 10 + (Config.freeValue s.free).toNat % 17
    .next { s.freshVal with regs := { r with silEn := bit v 63, slog := g } }
  else if 0x1000 ≤ o ∧ o < 0x2000 ∧ o % 8 = 0 then .next (s.modCell ((o - 0x1000) / 8) fun e => { e with cec := bits v 63 48 })
  else .next s

/-- A bit in its place. -/
def bitAt (b : Bool) (k : Nat) : Nat := ofBool b * 2 ^ k
/-- What a read of the management register at offset `o` returns: its RO, RW and HW fields at their values; write-only and reserved fields,
and offsets without a register, as 0 (00 R13, R14; 03 R92; 15 R340; 18 R370, R377, R383; 21 R399, R402, R406; 23 R412, R416). -/
def State.readReg (s : State) (o : Nat) : Nat :=
  let r := s.regs
  if o = 0x300 then bitAt r.bootOpen 63 + bitAt r.sigreq 62
  else if o = 0x308 then bitAt r.done 63 + bitAt r.twin 62 + r.fwerr * 2 ^ 8
  else if o = 0x310 then r.nret
  else if o = 0x318 then r.pwrcap
  else if o = 0x320 then r.tmax * 2 ^ 48 + r.pthr * 2 ^ 16 + r.pw
  else if o = 0x400 then bitAt r.migEn 63 + r.epoch * 2 ^ 32 + r.hot
  else if o = 0x408 then r.lost * 2 ^ 32 + s.notes.length
  else if o = 0x500 then bitAt r.azEn 63 + r.wake * 2 ^ 48 + r.gate * 2 ^ 40 + r.ivl * 2 ^ 32 + r.thr
  else if o = 0x508 then r.inst * 2 ^ 32 + r.xchg * 2 ^ 16 + r.rev
  else if o = 0x600 then bitAt r.hwrt 63 + r.ethr * 2 ^ 32 + r.ewin
  else if o = 0x608 then r.sel
  else if o = 0x610 then (s.module r.sel).stat
  else if o = 0x620 then r.aid * 2 ^ 48 + r.ftmo * 2 ^ 32 + r.fretry * 2 ^ 24
  else if o = 0x628 then r.late * 2 ^ 32 + r.dsw
  else if 0x700 ≤ o ∧ o < 0x780 ∧ o % 8 = 0 then total ((List.range 64).map fun j => bitAt (r.dead.contains ((o - 0x700) * 8 + j)) j)
  else if 0x800 ≤ o ∧ o < 0x820 ∧ o % 8 = 0 then (s.chan ((o - 0x800) / 8)).dup * 2 ^ 48 + (s.chan ((o - 0x800) / 8)).exp
  else if 0x840 ≤ o ∧ o < 0x8C0 ∧ o % 8 = 0 then
    let q := s.queue ((o - 0x840) / 0x20)
    if o % 0x20 = 0 then q.base + q.log else if o % 0x20 = 8 then q.ack else if o % 0x20 = 0x10 then q.wr else 0
  else if o = 0x900 then bitAt r.audEn 63 + r.audK
  else if o = 0x908 then r.smp * 2 ^ 48 + r.mis * 2 ^ 32 + r.aban * 2 ^ 16 + r.unr
  else if o = 0xA00 then r.duty
  else if o = 0xA08 then bitAt r.ageEn 63 + r.mmin
  else if o = 0xB00 then r.silbase * 2 ^ 16
  else if o = 0xB08 then bitAt r.silEn 63 + r.slog * 2 ^ 48 + r.swr
  else if 0x1000 ≤ o ∧ o < 0x2000 ∧ o % 8 = 0 then
    let e := s.cell ((o - 0x1000) / 8)
    e.cec * 2 ^ 48 + e.voff * 2 ^ 4 + e.health
  else 0

end Sys2Proof.Machine
end

