-- ==== Sys2Proof/Machine/Scalar.lean ====
section
/-! DEFINITION. Scalar and control instructions (08): integer, FP32, predicate and control operations, `ld` and `st`, system
registers and counters, and the two repair-table instructions of boot mode. -/

namespace Sys2Proof.Machine

-- Shared shapes ----------------------------------------------------------------------------------------------------

/-- An operation on the width's bits of two operands: signed and unsigned readings in, an integer out (R174). -/
def intOp2 (w : Width) (a b : Scalar) (g : Guard) (s : State) (f : Nat → Int → Nat → Int → Int) : Out :=
  guarded s g 1 [a] do
    let (x, px) ← operand s a
    let (y, py) ← operand s b
    return s.result 1 (narrow w (f (lowU w x) (lowS w x) (lowU w y) (lowS w y))) (px || py)
/-- An operation on the width's bits of one operand (R175). -/
def intOp1 (w : Width) (a : Scalar) (g : Guard) (s : State) (f : Nat → W64) : Out :=
  guarded s g 1 [a] do
    let (x, px) ← operand s a
    return s.result 1 (f (lowU w x)) px
/-- An operation on a 64-bit operand and an immediate (R176). -/
def immOp (a : Scalar) (s : State) (f : W64 → W64) : Out :=
  unguarded s do
    let (x, px) ← operand s a
    return s.result 1 (f x) px
/-- An FP32 operation on two operands, rounded to nearest even (R179). -/
def fpOp2 (a b : Scalar) (g : Guard) (s : State) (f : Val → Val → Val) : Out :=
  guarded s g 1 [a] do
    let (x, px) ← operand s a
    let (y, py) ← operand s b
    return s.result 1 (BitVec.ofNat 64 (rne32 (f (dec32 x.toNat) (dec32 y.toNat)))) (px || py)
/-- An FP32 operation on one operand (R179). -/
def fpOp1 (a : Scalar) (g : Guard) (s : State) (f : Val → Val) : Out :=
  guarded s g 1 [a] do
    let (x, px) ← operand s a
    return s.result 1 (BitVec.ofNat 64 (rne32 (f (dec32 x.toNat)))) px
/-- A result pushed, and written to `dst` as well (01 R25). -/
def State.resultTo (s : State) (n : Nat) (dst : Option (Fin 16)) (v : W64) (p : Bool) : State :=
  s.setCur (((s.cur.pushVal v p).setDst dst (.val v p)).retire n)
/-- The draw of an instruction that rounds once, and the state after it (06 R151). -/
def State.oneDraw (s : State) (rnd : Rnd) : Nat × State :=
  if rnd == .sr then (drawOf (nextGen s.cur.gen), s.setCur { s.cur with gen := nextGen s.cur.gen }) else (0, s)

-- maj 0x01: R174 ---------------------------------------------------------------------------------------------------

/-- `add` (R174). -/
def execAdd (w : Width) (a b : Scalar) (g : Guard) (s : State) : Out := intOp2 w a b g s fun x _ y _ => x + y
/-- `sub` (R174). -/
def execSub (w : Width) (a b : Scalar) (g : Guard) (s : State) : Out := intOp2 w a b g s fun x _ y _ => (x : Int) - y
/-- `mul` (R174). -/
def execMul (w : Width) (a b : Scalar) (g : Guard) (s : State) : Out := intOp2 w a b g s fun x _ y _ => x * y
/-- `mulh` (R174): the upper half of the signed product. -/
def execMulh (w : Width) (a b : Scalar) (g : Guard) (s : State) : Out :=
  intOp2 w a b g s fun _ xs _ ys => xs * ys / 2 ^ widthBits w
/-- `mulhu` (R174): the upper half of the unsigned product. -/
def execMulhu (w : Width) (a b : Scalar) (g : Guard) (s : State) : Out :=
  intOp2 w a b g s fun x _ y _ => (x : Int) * y / 2 ^ widthBits w
/-- `div` (R174): truncated; all ones when the divisor is 0; the least value by −1 wraps to itself. -/
def execDiv (w : Width) (a b : Scalar) (g : Guard) (s : State) : Out :=
  intOp2 w a b g s fun _ xs _ ys => if ys = 0 then -1 else xs.tdiv ys
/-- `divu` (R174). -/
def execDivu (w : Width) (a b : Scalar) (g : Guard) (s : State) : Out :=
  intOp2 w a b g s fun x _ y _ => if y = 0 then -1 else (x : Int) / y
/-- `rem` (R174): the sign of the dividend; the dividend when the divisor is 0. -/
def execRem (w : Width) (a b : Scalar) (g : Guard) (s : State) : Out :=
  intOp2 w a b g s fun _ xs _ ys => if ys = 0 then xs else xs.tmod ys
/-- `remu` (R174). -/
def execRemu (w : Width) (a b : Scalar) (g : Guard) (s : State) : Out :=
  intOp2 w a b g s fun x _ y _ => if y = 0 then x else (x : Int) % y

-- maj 0x02: R174 ---------------------------------------------------------------------------------------------------

/-- `and` (R174). -/
def execAnd (w : Width) (a b : Scalar) (g : Guard) (s : State) : Out := intOp2 w a b g s fun x _ y _ => (x &&& y : Nat)
/-- `or` (R174). -/
def execOr (w : Width) (a b : Scalar) (g : Guard) (s : State) : Out := intOp2 w a b g s fun x _ y _ => (x ||| y : Nat)
/-- `xor` (R174). -/
def execXor (w : Width) (a b : Scalar) (g : Guard) (s : State) : Out := intOp2 w a b g s fun x _ y _ => (x ^^^ y : Nat)
/-- `andn` (R174). -/
def execAndn (w : Width) (a b : Scalar) (g : Guard) (s : State) : Out :=
  intOp2 w a b g s fun x _ y _ => (x &&& (2 ^ widthBits w - 1 - y) : Nat)
/-- `orn` (R174). -/
def execOrn (w : Width) (a b : Scalar) (g : Guard) (s : State) : Out :=
  intOp2 w a b g s fun x _ y _ => (x ||| (2 ^ widthBits w - 1 - y) : Nat)
/-- `shl` (R174): by the count modulo the width. -/
def execShl (w : Width) (a b : Scalar) (g : Guard) (s : State) : Out :=
  intOp2 w a b g s fun x _ y _ => (x : Int) * 2 ^ (y % widthBits w)
/-- `shr` (R174). -/
def execShr (w : Width) (a b : Scalar) (g : Guard) (s : State) : Out :=
  intOp2 w a b g s fun x _ y _ => (x : Int) / 2 ^ (y % widthBits w)
/-- `sar` (R174). -/
def execSar (w : Width) (a b : Scalar) (g : Guard) (s : State) : Out :=
  intOp2 w a b g s fun _ xs y _ => xs / 2 ^ (y % widthBits w)
/-- `rol` (R174). -/
def execRol (w : Width) (a b : Scalar) (g : Guard) (s : State) : Out :=
  intOp2 w a b g s fun x _ y _ =>
    let n := y % widthBits w
    (x : Int) * 2 ^ n + (x : Int) / 2 ^ (widthBits w - n)

-- maj 0x03: R174, R175 ---------------------------------------------------------------------------------------------

/-- `min` (R174). -/
def execMin (w : Width) (a b : Scalar) (g : Guard) (s : State) : Out :=
  intOp2 w a b g s fun _ xs _ ys => if xs ≤ ys then xs else ys
/-- `max` (R174). -/
def execMax (w : Width) (a b : Scalar) (g : Guard) (s : State) : Out :=
  intOp2 w a b g s fun _ xs _ ys => if xs ≤ ys then ys else xs
/-- `minu` (R174). -/
def execMinu (w : Width) (a b : Scalar) (g : Guard) (s : State) : Out :=
  intOp2 w a b g s fun x _ y _ => if x ≤ y then x else y
/-- `maxu` (R174). -/
def execMaxu (w : Width) (a b : Scalar) (g : Guard) (s : State) : Out :=
  intOp2 w a b g s fun x _ y _ => if x ≤ y then y else x
/-- How many of the `n` bits above bit 0 are 0 before the first 1, from the top. -/
def leadZeros : Nat → Nat → Nat
  | 0, _ => 0
  | n + 1, x => if bit x n then 0 else leadZeros n x + 1
/-- How many of the low `n` bits are 0 before the first 1, from the bottom. -/
def trailZeros : Nat → Nat → Nat
  | 0, _ => 0
  | n + 1, x => if bit x 0 then 0 else trailZeros n (x / 2) + 1
/-- How many of the low `n` bits are 1. -/
def countOnes : Nat → Nat → Nat
  | 0, _ => 0
  | n + 1, x => x % 2 + countOnes n (x / 2)
/-- `clz` (R175): the width when x is 0. -/
def execClz (w : Width) (a : Scalar) (g : Guard) (s : State) : Out :=
  intOp1 w a g s fun x => BitVec.ofNat 64 (leadZeros (widthBits w) x)
/-- `ctz` (R175): the width when x is 0. -/
def execCtz (w : Width) (a : Scalar) (g : Guard) (s : State) : Out :=
  intOp1 w a g s fun x => BitVec.ofNat 64 (trailZeros (widthBits w) x)
/-- `popc` (R175). -/
def execPopc (w : Width) (a : Scalar) (g : Guard) (s : State) : Out :=
  intOp1 w a g s fun x => BitVec.ofNat 64 (countOnes (widthBits w) x)
/-- `sext` (R175). -/
def execSext (w : Width) (a : Scalar) (g : Guard) (s : State) : Out :=
  intOp1 w a g s fun x => BitVec.ofInt 64 (signed (widthBits w) x)
/-- `zext` (R175). -/
def execZext (w : Width) (a : Scalar) (g : Guard) (s : State) : Out := intOp1 w a g s fun x => BitVec.ofNat 64 x
/-- `bswap` (R175). -/
def execBswap (w : Width) (a : Scalar) (g : Guard) (s : State) : Out :=
  intOp1 w a g s fun x => BitVec.ofNat 64 (ofBytes (bytesOf (widthBytes w) x).reverse)

-- maj 0x04, 0x05: R176, R177 ---------------------------------------------------------------------------------------

/-- `addi` (R176). -/
def execAddi (a : Scalar) (imm : BitVec 12) (s : State) : Out := immOp a s fun x => x + imm.signExtend 64
/-- `andi` (R176). -/
def execAndi (a : Scalar) (imm : BitVec 12) (s : State) : Out := immOp a s fun x => x &&& imm.signExtend 64
/-- `ori` (R176). -/
def execOri (a : Scalar) (imm : BitVec 12) (s : State) : Out := immOp a s fun x => x ||| imm.signExtend 64
/-- `xori` (R176). -/
def execXori (a : Scalar) (imm : BitVec 12) (s : State) : Out := immOp a s fun x => x ^^^ imm.signExtend 64
/-- `shli` (R176). -/
def execShli (a : Scalar) (imm : BitVec 6) (s : State) : Out := immOp a s fun x => x <<< imm.toNat
/-- `shri` (R176). -/
def execShri (a : Scalar) (imm : BitVec 6) (s : State) : Out := immOp a s fun x => x >>> imm.toNat
/-- `sari` (R176). -/
def execSari (a : Scalar) (imm : BitVec 6) (s : State) : Out := immOp a s fun x => x.sshiftRight imm.toNat
/-- `li` (R177). -/
def execLi (imm : BitVec 12) (s : State) : Out := unguarded s (return s.result 1 (imm.signExtend 64) false)
/-- `lit` (R177), three words. -/
def execLit (v : W64) (s : State) : Out := unguarded s (return s.result 3 v false)

-- maj 0x06: R178 ---------------------------------------------------------------------------------------------------

/-- `keep` (R178): the register takes the value with its poison bit; an operand that is not ready stalls (R171). -/
def execKeep (d : Fin 16) (a : Scalar) (s : State) : Out :=
  unguarded s do
    let (x, px) ← operand s a
    return s.setCur ((s.cur.setS d.val (.val x px)).retire 1)
/-- `dup` (R178). -/
def execDup (a : Scalar) (g : Guard) (s : State) : Out :=
  guarded s g 1 [a] do
    let (x, px) ← operand s a
    return s.result 1 x px
/-- `lea` (R178): b scaled by 1, 2, 4 or 8. -/
def execLea (w : Width) (a b : Scalar) (g : Guard) (s : State) : Out :=
  guarded s g 1 [a] do
    let (x, px) ← operand s a
    let (y, py) ← operand s b
    return s.result 1 (x + y * BitVec.ofNat 64 (widthBytes w)) (px || py)

-- maj 0x08, 0x09: R179, R180 ---------------------------------------------------------------------------------------

/-- `fadd` (R179). -/
def execFadd (a b : Scalar) (g : Guard) (s : State) : Out := fpOp2 a b g s (Val.add false)
/-- `fsub` (R179). -/
def execFsub (a b : Scalar) (g : Guard) (s : State) : Out := fpOp2 a b g s fun x y => x.add false y.negate
/-- `fmul` (R179). -/
def execFmul (a b : Scalar) (g : Guard) (s : State) : Out := fpOp2 a b g s Val.mul
/-- `fdiv` (R179). -/
def execFdiv (a b : Scalar) (g : Guard) (s : State) : Out := fpOp2 a b g s Val.div
/-- `fmin` (R179). -/
def execFmin (a b : Scalar) (g : Guard) (s : State) : Out := fpOp2 a b g s Val.min
/-- `fmax` (R179). -/
def execFmax (a b : Scalar) (g : Guard) (s : State) : Out := fpOp2 a b g s Val.max
/-- `fabs` (R179). -/
def execFabs (a : Scalar) (g : Guard) (s : State) : Out := fpOp1 a g s Val.abs
/-- `fsqrt` (R179). -/
def execFsqrt (a : Scalar) (g : Guard) (s : State) : Out := fpOp1 a g s Val.sqrt
/-- `ffma` (R180): one rounding of a × b + c. -/
def execFfma (a b c : Scalar) (dst : Option (Fin 16)) (rnd : Rnd) (sat : Bool) (g : Guard) (s : State) : Out :=
  guarded s g 3 [a] do
    let (x, px) ← operand s a
    let (y, py) ← operand s b
    let (z, pz) ← operand s c
    let (d, s) := s.oneDraw rnd
    let v := ((dec32 x.toNat).mul (dec32 y.toNat)).add (rnd == .rd) (dec32 z.toNat)
    return s.resultTo 3 dst (BitVec.ofNat 64 (f32.round v rnd d sat)) (px || py || pz)
/-- The source value and the destination format of a conversion (R180). -/
def cvtForms (k : CvtKind) (w : Width) (x : W64) : Val × Desc :=
  match k with
  | .f2i => (dec32 x.toNat, intDesc 5 (widthBits w) true)
  | .f2u => (dec32 x.toNat, intDesc 5 (widthBits w) false)
  | .i2f => (intV (lowS w x), f32)
  | .u2f => (intV (lowU w x), f32)
  | .f2b => (dec32 x.toNat, bf16)
  | .b2f => (bf16.decode (x.toNat % 2 ^ 16), f32)
  | .f2h => (dec32 x.toNat, fp16)
  | .h2f => (fp16.decode (x.toNat % 2 ^ 16), f32)
/-- `fcvt` (R180). -/
def execFcvt (kind : CvtKind) (w : Width) (a : Scalar) (dst : Option (Fin 16)) (rnd : Rnd) (sat : Bool) (g : Guard)
    (s : State) : Out :=
  guarded s g 3 [a] do
    let (x, px) ← operand s a
    let (d, s) := s.oneDraw rnd
    let (v, f) := cvtForms kind w x
    return s.resultTo 3 dst (BitVec.ofNat 64 (f.round v rnd d sat)) px

-- maj 0x0C to 0x0E: R181 to R183 -----------------------------------------------------------------------------------

/-- `pset` (R181). -/
def execPset (cond : Cond) (w : Width) (a b : Scalar) (dp : Fin 8) (g : Guard) (s : State) : Out :=
  guarded s g 3 [] do
    let (x, px) ← operand s a
    let (y, py) ← operand s b
    let v := compareInt cond (lowS w x) (lowS w y) (lowU w x) (lowU w y)
    return s.setCur ((s.cur.setPred dp v (px || py)).retire 3)
/-- `psetf` (R181). -/
def execPsetf (cond : Cond) (a b : Scalar) (dp : Fin 8) (g : Guard) (s : State) : Out :=
  guarded s g 3 [] do
    let (x, px) ← operand s a
    let (y, py) ← operand s b
    return s.setCur ((s.cur.setPred dp (compareFloat cond (dec32 x.toNat) (dec32 y.toNat)) (px || py)).retire 3)
/-- An operation on two predicates (R182). -/
def predOp (d a b : Fin 8) (s : State) (f : Bool → Bool → Bool) : Out :=
  let x := s.cur.pred a; let y := s.cur.pred b
  unguarded s (return s.setCur ((s.cur.setPred d (f x.1 y.1) (x.2 || y.2)).retire 1))
/-- `pand` (R182). -/
def execPand (d a b : Fin 8) (s : State) : Out := predOp d a b s and
/-- `por` (R182). -/
def execPor (d a b : Fin 8) (s : State) : Out := predOp d a b s or
/-- `pxor` (R182). -/
def execPxor (d a b : Fin 8) (s : State) : Out := predOp d a b s xor
/-- `pnot` (R182). -/
def execPnot (d a : Fin 8) (s : State) : Out := predOp d a a s fun x _ => !x
/-- `sel` (R183): `b` when the guard is true, else `a` by R23, each with its own poison bit alone. DESIGN CHOICE (log 123):
an `a` that is not selected is not waited for. -/
def execSel (a b : Scalar) (g : Guard) (s : State) : Out :=
  guarded s g 1 [a] do
    let (y, py) ← operand s b
    return s.result 1 y py

-- maj 0x10, 0x11: R184 to R186 -------------------------------------------------------------------------------------

/-- A branch target: the branch's own address plus 4 × `off` (01 R21). -/
def branchTarget (pc : Nat) (off : BitVec 18) : Nat := (((pc : Int) + 4 * off.toInt) % 2 ^ 32).toNat
/-- `br` (R184). -/
def execBr (p : Fin 8) (off : BitVec 18) (s : State) : Out :=
  guarded s ⟨p, false⟩ 1 [] (return s.setCur (s.cur.jump (branchTarget s.cur.pc off)))
/-- `bp` (R184): taken when the predicate is 0. -/
def execBp (p : Fin 8) (off : BitVec 18) (s : State) : Out :=
  guarded s ⟨p, true⟩ 1 [] (return s.setCur (s.cur.jump (branchTarget s.cur.pc off)))
/-- `call` (R184, R185): the ninth level kills. -/
def execCall (p : Fin 8) (off : BitVec 18) (s : State) : Out :=
  guarded s ⟨p, false⟩ 1 [] do
    let a := s.cur
    check (a.ldep < 8) rIllegal
    return s.setCur { a.jump (branchTarget a.pc off) with ls := a.ls.set a.ldep (BitVec.ofNat 64 (a.pc + 4)), ldep := a.ldep + 1 }
/-- `ret` (R184, R185): at depth 0 it kills. -/
def execRet (p : Fin 8) (s : State) : Out :=
  guarded s ⟨p, false⟩ 1 [] do
    let a := s.cur
    check (a.ldep != 0) rIllegal
    return s.setCur { a.jump (a.ls.getD (a.ldep - 1) 0).toNat with ldep := a.ldep - 1 }
/-- `loop` (R184). -/
def execLoop (p : Fin 8) (off : BitVec 18) (s : State) : Out :=
  guarded s ⟨p, false⟩ 1 [] do
    let a := s.cur
    if a.lc = 0 then return s.setCur (a.retire 1)
    else if a.lc = 1 then return s.setCur { a.retire 1 with lc := 0 }
    else return s.setCur { a.jump (branchTarget a.pc off) with lc := a.lc - 1 }
/-- `jmpx` (R186). -/
def execJmpx (a : Scalar) (g : Guard) (s : State) : Out :=
  guarded s g 1 [] do
    let x ← cleanOperand s a
    check (x.toNat % 4 == 0) rIllegal
    return s.setCur (s.cur.jump x.toNat)

-- maj 0x14, 0x15: R187, R188 ---------------------------------------------------------------------------------------

/-- The checks of a scratchpad offset (R188, 05 R111). -/
def spOffset (s : State) (w : Width) (o : W64) (p : Bool) : Res Nat := do
  check (!p) rPoison
  check (o.toNat % widthBytes w == 0 && o.toNat < regionSize s.cur) rExtent
  return o.toNat
/-- A load: the bytes at an offset, with the poison of their sector. -/
def loadFrom (s : State) (w : Width) (n o : Nat) (sx : Bool) (dst : Option (Fin 16)) : State :=
  let a := s.cur
  let x := s.num (regionKey a + o) (widthBytes w)
  let v := if sx then BitVec.ofInt 64 (signed (widthBits w) x) else BitVec.ofNat 64 x
  let s := s.resultTo n dst v (s.spoisoned (regionKey a + o) (widthBytes w))
  s.setCur (s.cur.watchBytes false o (widthBytes w))
/-- A store: the bytes at an offset; the value's poison is OR-ed into the sector's bit (R188). -/
def storeTo (s : State) (w : Width) (n o : Nat) (v : W64) (p : Bool) : State :=
  let a := s.cur
  let s := s.put (regionKey a + o) (bytesOf (widthBytes w) v.toNat)
  let s := if p then s.spoisWrite (regionKey a + o) (widthBytes w) true else s
  s.setCur ((a.retire n).watchBytes true o (widthBytes w))
/-- `ld` (R187). -/
def execLd (w : Width) (a : Scalar) (g : Guard) (s : State) : Out :=
  guarded s g 1 [a] do
    let (x, px) ← operand s a
    let o ← spOffset s w x px
    return loadFrom s w 1 o false none
/-- `st` (R187). -/
def execSt (w : Width) (a b : Scalar) (g : Guard) (s : State) : Out :=
  guarded s g 1 [] do
    let (x, px) ← operand s a
    let (y, py) ← operand s b
    let o ← spOffset s w x px
    return storeTo s w 1 o y py
/-- `ldx` (R187). -/
def execLdx (w : Width) (a b : Scalar) (disp : W32) (sx : Bool) (dst : Option (Fin 16)) (g : Guard) (s : State) : Out :=
  guarded s g 3 [a] do
    let (x, px) ← operand s a
    let (y, py) ← operand s b
    let o ← spOffset s w (x + y + sext32 disp) (px || py)
    return loadFrom s w 3 o sx dst
/-- `stx` (R187). -/
def execStx (w : Width) (a b c : Scalar) (disp : W32) (g : Guard) (s : State) : Out :=
  guarded s g 3 [] do
    let (x, px) ← operand s a
    let (y, py) ← operand s b
    let (z, pz) ← operand s c
    let o ← spOffset s w (x + y + sext32 disp) (px || py)
    return storeTo s w 3 o z pz

-- maj 0x3A: R189, R190 ---------------------------------------------------------------------------------------------

/-- What a system register reads (R189). -/
def sysValue (s : State) (a : Actor) (n : Nat) : Option W64 :=
  if n = 0x010 then some a.lc
  else if n = 0x011 then some (BitVec.ofNat 64 a.ldep)
  else if n = 0x020 then some (BitVec.ofNat 64 (runCell a))
  else if n = 0x021 then some (BitVec.ofNat 64 (ctxSlot a))
  else if n = 0x022 then some (BitVec.ofNat 64 (jobOf (selfName a)))
  else if n = 0x030 then some (BitVec.ofNat 64 (s.budrem a))
  else if n = 0x031 then some (BitVec.ofNat 64 a.eprio)
  else if 0x040 ≤ n ∧ n < 0x050 then some (a.fmts.getD (n - 0x040) 0)
  else if n = 0x050 then some a.gen
  else none
/-- A system register written; an RO register ignores the write (00 R13). -/
def sysWrite (a : Actor) (n : Nat) (v : W64) : Actor :=
  if n = 0x010 then { a with lc := v }
  else if 0x040 ≤ n ∧ n < 0x050 then { a with fmts := a.fmts.set (n - 0x040) v }
  else if n = 0x050 then { a with gen := seedGen v }
  else a
/-- What a counter reads (R189). -/
def counterValue (s : State) (a : Actor) (n : Nat) : Option W64 :=
  match n with
  | 0 => some (BitVec.ofNat 64 s.cycle)
  | 1 => some (BitVec.ofNat 64 (s.cycle - a.start))
  | 2 => some (BitVec.ofNat 64 a.retired)
  | 3 => some (BitVec.ofNat 64 a.drops)
  | _ => none
/-- A push of what was read, or the ILLEGAL kill of an unlisted number. -/
def pushRead (s : State) (v : Option W64) : Res State :=
  match v with | some x => return (s.pushOutside x false).retire 1 | none => Kill rIllegal
/-- `sysrd` (R189). -/
def execSysrd (a : Scalar) (g : Guard) (s : State) : Out :=
  guarded s g 1 [a] do
    let n ← cleanOperand s a
    pushRead s (sysValue s s.cur n.toNat)
/-- `syswr` (R189, R190). -/
def execSyswr (a b : Scalar) (g : Guard) (s : State) : Out :=
  guarded s g 1 [] do
    let n ← cleanOperand s a
    let v ← cleanOperand s b
    check (sysValue s s.cur n.toNat).isSome rIllegal
    return s.setCur ((sysWrite s.cur n.toNat v).retire 1)
/-- `ctrd` (R189). -/
def execCtrd (a : Scalar) (g : Guard) (s : State) : Out :=
  guarded s g 1 [a] do
    let n ← cleanOperand s a
    pushRead s (counterValue s s.cur n.toNat)

-- maj 0x3B: R191 ---------------------------------------------------------------------------------------------------

/-- `nop` (R191). -/
def execNop (s : State) : Out := unguarded s (return s.retire 1)
/-- `brk` (R191, 21 R405): with a debugger attached the actor stops before its next instruction. -/
def execBrk (imm : BitVec 12) (s : State) : Out :=
  unguarded s (return s.setCur (if s.cur.dbg.dbgn = 0 then s.cur.retire 1 else (s.cur.retire 1).cause 5 imm.toNat))
/-- `trap` (R191): a kill of reason 0xC0 + `imm`. -/
def execTrap (imm : BitVec 6) (s : State) : Out := unguarded s (Kill (0xC0 + imm.setWidth 8))

-- maj 0x3E: R192 ---------------------------------------------------------------------------------------------------
-- The byte store holds a cell's scratchpad as programs see it. The rows that a program does not see at the moment (failing
-- rows while they are steered, spare rows while they are not) lie from 2^90 on (log 22).

/-- Key of a row that no program sees: row `r` (from cell address 128·r) of a cell, or a spare row. -/
def hiddenRow (c r : Nat) : Nat := 2 ^ 90 + c * 2 ^ 23 + r * 128
/-- The spare that serves a row, as a hidden row's number: the lowest valid scratchpad entry that names the row, unless a
lower one names the same spare (R192). -/
def steeredTo (tab : List W32) (row : Nat) : Option Nat :=
  let ok (v : Nat) := bit v 31 && !bit v 30
  let row' (v : Nat) := bits v 26 15 * 8 + bits v 29 27
  let spare (v : Nat) := 2 ^ 15 + bits v 29 27 * 2 + bits v 14 14
  let live := ((tab.map (·.toNat)).filter ok).foldl (fun l v => if l.any fun u => spare u == spare v then l else l ++ [v]) []
  (live.find? fun v => row' v == row).map spare
/-- Where a row's bytes lie while no program sees them. -/
def rowHome (c : Nat) (tab : List W32) (row : Nat) : Nat := hiddenRow c ((steeredTo tab row).getD row)
/-- Bytes and poison bits of one 128-byte row moved. -/
def State.moveRow (s : State) (src dst : Nat) : State :=
  let ps := (List.range 4).filter fun i => s.spois.contains (src / 32 + i)
  let s := (s.put dst (s.bytes src 128)).spoisClear dst 128
  { s with spois := ps.foldl (fun l i => insNat l (dst / 32 + i)) s.spois }
/-- A repair-table entry written: the rows whose steering changes show what their new place holds. -/
def State.setRepair (s : State) (c i : Nat) (v : W32) : State :=
  let old := (s.cell c).repair
  let new := old.set i v
  let rowOf (x : W32) := bits x.toNat 26 15 * 8 + bits x.toNat 29 27
  let rows := ((old ++ new).map rowOf).eraseDups.filter fun r => steeredTo old r != steeredTo new r
  let s := rows.foldl (fun (t : State) r => t.moveRow (spKey c (r * 128)) (rowHome c old r)) s
  let s := rows.foldl (fun (t : State) r => t.moveRow (rowHome c new r) (spKey c (r * 128))) s
  s.modCell c fun x => { x with repair := new }
/-- `rpwr` (R192). Bits 13:0 of an entry are reserved and read 0. -/
def execRpwr (a b : Scalar) (g : Guard) (s : State) : Out :=
  bootOnly s <| guarded s g 1 [] do
    let n ← cleanOperand s a
    let v ← cleanOperand s b
    check (n.toNat < 16) rIllegal
    return (s.setRepair s.cur.cell n.toNat (BitVec.ofNat 32 (v.toNat % 2 ^ 32 / 2 ^ 14 * 2 ^ 14))).retire 1
/-- `rprd` (R192). -/
def execRprd (a : Scalar) (g : Guard) (s : State) : Out :=
  bootOnly s <| guarded s g 1 [a] do
    let n ← cleanOperand s a
    check (n.toNat < 16) rIllegal
    return s.result 1 (((s.cell s.cur.cell).repair.getD n.toNat 0).setWidth 64) false

end Sys2Proof.Machine
end

