-- ==== Sys2Proof/Machine/Vector.lean ====
section
/-! DEFINITION. The vector group (10 R245 to R259; 07 R163 to R168). Sources are read and results computed at issue; the
writes land, and the destinations become READY, when the unit completes (VECTOR_COMPLETE). -/

namespace Sys2Proof.Machine

-- Shared form (R233, R245 to R248) ---------------------------------------------------------------------------------

/-- A tile operand of a vector instruction, its state checked. -/
structure VOp where
  h    : Nat := 0
  ent  : TileEnt := {}
  val  : W64 := 0
  desc : Desc := f32

/-- What a vector instruction reads at issue: the state, the extension, the value x of R246 and the operands. -/
structure VIn where
  s : State
  e : VExt
  x : Nat
  xp : Bool
  d : VOp
  a : VOp
  b : VOp
  c : VOp

/-- What a vector instruction writes: elements as codes with their poison, the generator afterwards, and the scale bytes of
`vquant`. -/
structure VOut where
  mat    : Mat
  gen    : W64
  scales : List (Nat × Bool) := []

/-- Rows and columns of an operand. -/
def VOp.shape (o : VOp) : Nat × Nat := (o.ent.rows.toNat, o.ent.cols.toNat)
/-- The element codes of an operand. -/
def VIn.codes (i : VIn) (o : VOp) : Mat := i.s.readMat (tileKey i.s.cur o.ent) o.shape.1 o.shape.2 o.desc.wd
/-- The decoded elements of an operand, each with scale 1 (R247). -/
def VIn.vals (i : VIn) (o : VOp) : List (List PVal) := (i.codes o).map fun r => r.map fun c => (o.desc.decode c.1, c.2)
/-- The integer elements of an operand. -/
def VIn.ints (i : VIn) (o : VOp) : List (List (Int × Bool)) := (i.codes o).map fun r => r.map fun c => (signed o.desc.wd c.1, c.2)
/-- A matrix of one element. -/
def fillMat {α : Type} (sh : Nat × Nat) (v : α) : List (List α) := List.replicate sh.1 (List.replicate sh.2 v)
/-- x as a value: FP32 (R246). -/
def VIn.xf (i : VIn) : PVal := (dec32 i.x, i.xp)
/-- x as a signed 32-bit integer (R246). -/
def VIn.xi (i : VIn) : Int × Bool := (signed 32 (i.x % 2 ^ 32), i.xp)
/-- The float operand b, or x in every element under `xs`. -/
def VIn.bf (i : VIn) : List (List PVal) := if i.e.xs then fillMat i.d.shape i.xf else i.vals i.b
/-- The integer operand b, or x in every element under `xs`. -/
def VIn.bi (i : VIn) : List (List (Int × Bool)) := if i.e.xs then fillMat i.d.shape i.xi else i.ints i.b
/-- Two matrices combined element by element; poison joins (07 R167). -/
def zipP {α β γ : Type} (f : α → β → γ) (m : List (List (α × Bool))) (n : List (List (β × Bool))) : List (List (γ × Bool)) :=
  m.zipWith (fun r q => r.zipWith (fun x y => (f x.1 y.1, x.2 || y.2)) q) n
/-- A matrix changed element by element. -/
def mapP {α β : Type} (f : α → β) (m : List (List (α × Bool))) : List (List (β × Bool)) := m.map fun r => r.map fun x => (f x.1, x.2)
/-- Values rounded into the destination (06 R148), with their draws (06 R151). -/
def VIn.rounded (i : VIn) (m : List (List PVal)) : VOut :=
  let (out, gen) := roundMat i.d.desc i.e.rnd i.e.sat i.s.cur.gen m
  { mat := out, gen := gen }
/-- Codes written unchanged. -/
def VIn.moved (i : VIn) (m : Mat) : VOut := { mat := m, gen := i.s.cur.gen }
/-- An integer wrapped or clamped into an integer format (07 R166). -/
def Desc.putInt (d : Desc) (sat : Bool) (v : Int) : Nat :=
  let hi : Int := 2 ^ (d.wd - 1) - 1
  ((if sat then max (-hi - 1) (min hi v) else v) % 2 ^ d.wd).toNat

/-- What an instruction asks of its operands: which tile fields it has, whether `c` is written, its classes (ILLEGAL), its
shapes (TILE_BOUNDS), its factor f of R248, and its result. -/
structure VForm where
  a : Bool := true
  b : Bool := false
  c : Bool := false
  cw : Bool := false
  pos : Bool := false
  slow : Bool := false
  classes : VIn → Bool := fun _ => true
  shapes : VIn → Bool
  scale : VIn → Nat := fun _ => 0
  run : VIn → VOut

/-- An operand in its state check (step 4): `w` that it is written. -/
def vecOp (s : State) (w : Bool) (h : Option Nat) : Res VOp :=
  match h with
  | none => .ok {}
  | some k => do
    let e ← if w then needWrite s k else needRead s k
    return { h := k, ent := e, val := descVal s.cur e, desc := descOf (descVal s.cur e) }
/-- A tile field that an instruction has, resolved (05 R126). -/
def vecField (s : State) (has w : Bool) (t : TileSel) : Res (Option Nat) :=
  if has then (resolve s.cur w t).map some else .ok none
/-- Lanes of the vector unit (07 R163). -/
def lanes (w : Nat) : Nat := if 16 < w then 64 else if 8 < w then 128 else 256

/-- A vector instruction (R233): its checks in order, then its effect. -/
def vector (f : VForm) (d a b : TileSel) (e : VExt) (s : State) : Res State := do
  let x ← if e.sx == .zero then (.ok (sext32 e.k, false) : Res (W64 × Bool)) else operand s e.sx
  let hd ← vecField s true true d
  let ha ← vecField s f.a false a
  let hb ← vecField s (f.b && !e.xs) false b
  let hc ← vecField s f.c f.cw e.c
  let used := hd.toList ++ ha.toList ++ hb.toList ++ hc.toList
  needLocal s used
  let od ← vecOp s true hd
  let oa ← vecOp s false ha
  let ob ← vecOp s false hb
  let oc ← vecOp s f.cw hc
  let i : VIn := { s := s, e := e, x := x.1.toNat, xp := x.2, d := od, a := oa, b := ob, c := oc }
  check (used.all fun h => validDesc (descVal s.cur (tileAt s.cur h))) rIllegal
  check (f.cw || !(od.desc.cls == 0 && od.desc.sgeo != 0)) rIllegal
  check (f.classes i) rIllegal
  check (!(f.pos && x.2)) rPoison
  needOpSize s hd
  needOpSize s ha
  needOpSize s hb
  needOpSize s hc
  check (f.shapes i) rTileBounds
  let size (o : VOp) := tileSize o.ent o.desc
  check (!(f.c && size oc < f.scale i)) rTileBounds
  let meets (o : VOp) : Bool := o.h == oc.h || (oc.ent.loc.toNat < o.ent.loc.toNat + size o && o.ent.loc.toNat < oc.ent.loc.toNat + size oc)
  check (!(f.cw && (meets oa || meets od))) rTileState
  needNoHold s od.ent.loc.toNat (size od)
  if f.cw then needNoHold s oc.ent.loc.toNat (size oc)
  needV s
  let out := f.run i
  let reads := ha.toList ++ hb.toList ++ (if f.cw then [] else hc.toList)
  let writes := hd.toList ++ (if f.cw then hc.toList else [])
  let job := writeJob s od.h out.mat
  let ck := tileKey s.cur oc.ent
  let cbad := (out.scales.mapIdx fun j z => if z.2 then [(ck + j) / 32] else []).flatten
  let job : UnitJob := if f.cw then
      { job with writes := job.writes ++ [(ck, out.scales.map fun z => BitVec.ofNat 8 z.1)], pset := job.pset ++ cbad, pclr := job.pclr ++ cleanSectors ck out.scales.length cbad }
    else job
  let job : UnitJob := { job with ready := writes, holds := reads.map fun h => ((tileAt s.cur h).loc.toNat, tileSize (tileAt s.cur h) (descOf (descVal s.cur (tileAt s.cur h)))) }
  let wide := (used.map fun h => (descOf (descVal s.cur (tileAt s.cur h))).wd).foldl max 0
  let work := (used.map fun h => (tileAt s.cur h).rows.toNat * ceilDiv (tileAt s.cur h).cols.toNat (lanes wide)).foldl max 0
  let bytes (h : Nat) := tileSize (tileAt s.cur h) (descOf (descVal s.cur (tileAt s.cur h)))
  let moved := total ((hd.toList ++ ha.toList ++ hb.toList).map bytes) + total (hc.toList.map fun h => if f.scale i = 0 then bytes h else f.scale i)
  let t := reads.foldl (fun (c : Actor) h => c.watchOp false h) { s.cur with gen := out.gen }
  let t := writes.foldl (fun (c : Actor) h => (c.tileState h .filling).watchOp true h) t
  let t := (t.retire 3).lastUses ((ha.toList.map fun h => (e.lua, h)) ++ (hb.toList.map fun h => (e.lub, h)) ++ (if f.cw then [] else hc.toList.map fun h => (e.luc, h)))
  return (s.setCur t).startV (8 + max (work * (if f.slow then 4 else 1)) (ceilDiv moved 256)) job

/-- Equal rows and columns (R247). -/
def VIn.same (i : VIn) (os : List VOp) : Bool := os.all fun o => o.shape == i.d.shape
/-- The tile operand b, which `xs` leaves out. -/
def VIn.bs (i : VIn) : List VOp := if i.e.xs then [] else [i.b]
/-- Operands that are all float. -/
def allFloat (os : List VOp) : Bool := os.all fun o => o.desc.isFloat
/-- Operands that are all of integer classes. -/
def allInt (os : List VOp) : Bool := os.all fun o => o.desc.isInt

-- Element-wise arithmetic (R249, R250) -----------------------------------------------------------------------------

/-- A binary float operation (R249); `f` is given the rounding mode's RD. -/
def binForm (slow : Bool) (f : Bool → Val → Val → Val) : VForm :=
  { b := true, slow := slow, classes := fun i => allFloat (i.d :: i.a :: i.bs), shapes := fun i => i.same (i.a :: i.bs), run := fun i => i.rounded (zipP (f (i.e.rnd == .rd)) (i.vals i.a) i.bf) }
/-- `vadd` (R249). -/
def execVadd (d a b : TileSel) (e : VExt) (s : State) : Out := unguarded s (vector (binForm false Val.add) d a b e s)
/-- `vsub` (R249). -/
def execVsub (d a b : TileSel) (e : VExt) (s : State) : Out :=
  unguarded s (vector (binForm false fun rd x y => x.add rd y.negate) d a b e s)
/-- `vmul` (R249). -/
def execVmul (d a b : TileSel) (e : VExt) (s : State) : Out := unguarded s (vector (binForm false fun _ => Val.mul) d a b e s)
/-- `vdiv` (R249). -/
def execVdiv (d a b : TileSel) (e : VExt) (s : State) : Out := unguarded s (vector (binForm true fun _ => Val.div) d a b e s)
/-- `vmin` (R249). -/
def execVmin (d a b : TileSel) (e : VExt) (s : State) : Out := unguarded s (vector (binForm false fun _ => Val.min) d a b e s)
/-- `vmax` (R249). -/
def execVmax (d a b : TileSel) (e : VExt) (s : State) : Out := unguarded s (vector (binForm false fun _ => Val.max) d a b e s)
/-- `vfma` (R249). -/
def execVfma (d a b : TileSel) (e : VExt) (s : State) : Out :=
  let form : VForm := { b := true, c := true, classes := fun i => allFloat (i.d :: i.a :: i.c :: i.bs), shapes := fun i => i.same (i.a :: i.c :: i.bs), run := fun i => i.rounded (zipP (Val.add (i.e.rnd == .rd)) (zipP Val.mul (i.vals i.a) i.bf) (i.vals i.c)) }
  unguarded s (vector form d a b e s)

/-- A unary float operation (R250). DESIGN CHOICE (log 122): `sat` acts on a result in FP32 too, as R250 has it rounded into `d`. -/
def unForm (slow : Bool) (f : Val → Val) : VForm :=
  { slow := slow, classes := fun i => allFloat [i.d, i.a], shapes := fun i => i.same [i.a], run := fun i => i.rounded (mapP f (i.vals i.a)) }
/-- `vabs` (R250). -/
def execVabs (d a : TileSel) (e : VExt) (s : State) : Out := unguarded s (vector (unForm false Val.abs) d a a e s)
/-- `vneg` (R250). -/
def execVneg (d a : TileSel) (e : VExt) (s : State) : Out := unguarded s (vector (unForm false Val.negate) d a a e s)
/-- `vexp` (R250). -/
def execVexp (d a : TileSel) (e : VExt) (s : State) : Out := unguarded s (vector (unForm true fun v => dec32 (Fn.exp.at32 v)) d a a e s)
/-- `vexp2` (R250). -/
def execVexp2 (d a : TileSel) (e : VExt) (s : State) : Out := unguarded s (vector (unForm true fun v => dec32 (Fn.exp2.at32 v)) d a a e s)
/-- `vlog` (R250). -/
def execVlog (d a : TileSel) (e : VExt) (s : State) : Out := unguarded s (vector (unForm true fun v => dec32 (Fn.log.at32 v)) d a a e s)
/-- `vrcp` (R250). -/
def execVrcp (d a : TileSel) (e : VExt) (s : State) : Out := unguarded s (vector (unForm true (Val.div oneV)) d a a e s)
/-- `vrsqrt` (R250). -/
def execVrsqrt (d a : TileSel) (e : VExt) (s : State) : Out := unguarded s (vector (unForm true Val.rsqrt) d a a e s)
/-- `vsqrt` (R250). -/
def execVsqrt (d a : TileSel) (e : VExt) (s : State) : Out := unguarded s (vector (unForm true Val.sqrt) d a a e s)
/-- `vtanh` (R250). -/
def execVtanh (d a : TileSel) (e : VExt) (s : State) : Out := unguarded s (vector (unForm true fun v => dec32 (Fn.tanh.at32 v)) d a a e s)
/-- `vsigm` (R250). -/
def execVsigm (d a : TileSel) (e : VExt) (s : State) : Out := unguarded s (vector (unForm true fun v => dec32 (Fn.sigm.at32 v)) d a a e s)
/-- `verf` (R250). -/
def execVerf (d a : TileSel) (e : VExt) (s : State) : Out := unguarded s (vector (unForm true fun v => dec32 (Fn.erf.at32 v)) d a a e s)

-- Compare and select (R251) ----------------------------------------------------------------------------------------

/-- Whether a condition has a floating-point and an integer form (08 R181). -/
def floatCond (c : Cond) : Bool := !(c == .ltu || c == .geu || c == .leu || c == .gtu)
def intCond (c : Cond) : Bool := !(c == .un || c == .ord)
/-- The 32-bit pattern of an integer. -/
def pattern32 (v : Int) : Nat := (v % 2 ^ 32).toNat
/-- A truth value as an element: 1 or +1.0, 0 or +0 (R251). -/
def boolCode (d : Desc) (b : Bool) : Nat := d.round (if b then oneV else zeroV false) .rne 0 false
/-- `vcmp` (R251). -/
def execVcmp (d a b : TileSel) (e : VExt) (s : State) : Out :=
  let c := condOfNum e.fx.val
  let form : VForm := { b := true, classes := fun i => (allFloat (i.a :: i.bs) && floatCond c) || (allInt (i.a :: i.bs) && intCond c), shapes := fun i => i.same (i.a :: i.bs), run := fun i => i.moved (mapP (boolCode i.d.desc) (if i.a.desc.isFloat then zipP (compareFloat c) (i.vals i.a) i.bf else zipP (fun x y => compareInt c x y (pattern32 x) (pattern32 y)) (i.ints i.a) i.bi)) }
  unguarded s (vector form d a b e s)
/-- `vsel` (R251): a NaN element of the mask counts as true. DESIGN CHOICE (log 121): the element that the mask does not select counts as read,
so that its poison joins (07 R167). -/
def execVsel (d a b : TileSel) (e : VExt) (s : State) : Out :=
  let form : VForm := { b := true, c := true, classes := fun i => allFloat (i.a :: i.bs), shapes := fun i => i.same (i.a :: i.c :: i.bs), run := fun i => i.rounded (zipP (fun m (p : Val × Val) => if m.isZero then p.2 else p.1) (i.vals i.c) (zipP Prod.mk (i.vals i.a) i.bf)) }
  unguarded s (vector form d a b e s)

-- Reductions (R252; 07 R165) ---------------------------------------------------------------------------------------

/-- The tree of a reduction of 2^n leaves over floats, and its counterpart over integers, which wrap modulo 2^32. -/
inductive RedKind | sum | max | min
  deriving DecidableEq, Repr
/-- A float reduction over a tree of 2^n leaves. -/
def redFloat (k : RedKind) (n : Nat) (l : List Val) : Val :=
  match k with
  | .sum => treeOf (srNode .pt) (zeroV true) n l
  | .max => treeOf Val.max (infV true) n l
  | .min => treeOf Val.min (infV false) n l
/-- An integer reduction; the exact sum wraps modulo 2^32. -/
def redInt (k : RedKind) (l : List Int) : Int :=
  match k with
  | .sum => signed 32 (pattern32 (l.foldl (· + ·) 0))
  | .max => (l.drop 1).foldl max (l.headD 0)
  | .min => (l.drop 1).foldl min (l.headD 0)
/-- One element of a list, poisoned when any is. -/
def joinP {α β : Type} (f : List α → β) (l : List (α × Bool)) : β × Bool := (f (l.map (·.1)), l.any (·.2))
/-- Serial prefixes of a row (R165): every output combines the elements up to its own. -/
def scanP {α : Type} (f : α → α → α) : α → Bool → List (α × Bool) → List (α × Bool)
  | _, _, [] => []
  | o, p, x :: r => let o' := f o x.1; let p' := p || x.2; (o', p') :: scanP f o' p' r
/-- The draws that an instruction takes for its integer results (06 R151): none of them rounds. -/
def VIn.intResult (i : VIn) (m : List (List (Int × Bool))) : VOut :=
  let n := total (m.map List.length)
  { mat := mapP (i.d.desc.putInt i.e.sat) m, gen := if i.e.rnd == .sr then genAfter n i.s.cur.gen else i.s.cur.gen }
/-- A reduction: `ff` and `fi` reduce float and integer elements into the destination's matrix. -/
def redForm (sh : Nat × Nat → Nat × Nat) (ff : List (List PVal) → List (List PVal)) (fi : List (List (Int × Bool)) → List (List (Int × Bool))) : VForm :=
  { classes := fun i => allFloat [i.d, i.a] || allInt [i.d, i.a], shapes := fun i => i.d.shape == sh i.a.shape, run := fun i => if i.a.desc.isFloat then i.rounded (ff (i.vals i.a)) else i.intResult (fi (i.ints i.a)) }
/-- A reduction of every row over a tree of 1,024 leaves. -/
def rowForm (k : RedKind) : VForm :=
  redForm (fun n => (n.1, 1)) (fun m => m.map fun r => [joinP (redFloat k 10) r]) (fun m => m.map fun r => [joinP (redInt k) r])
/-- `vrsum` (R252). -/
def execVrsum (d a : TileSel) (e : VExt) (s : State) : Out := unguarded s (vector (rowForm .sum) d a a e s)
/-- `vrmax` (R252). -/
def execVrmax (d a : TileSel) (e : VExt) (s : State) : Out := unguarded s (vector (rowForm .max) d a a e s)
/-- `vrmin` (R252). -/
def execVrmin (d a : TileSel) (e : VExt) (s : State) : Out := unguarded s (vector (rowForm .min) d a a e s)
/-- The number of columns of a matrix. -/
def colsOf {α : Type} (m : List (List α)) : Nat := (m.headD []).length
/-- `vcsum` (R252): a tree of 128 leaves over every column. -/
def execVcsum (d a : TileSel) (e : VExt) (s : State) : Out :=
  let form := redForm (fun n => (1, n.2)) (fun m => [(transpose (colsOf m) m).map (joinP (redFloat .sum 7))]) (fun m => [(transpose (colsOf m) m).map (joinP (redInt .sum))])
  unguarded s (vector form d a a e s)
/-- `vscan` (R252). -/
def execVscan (d a : TileSel) (e : VExt) (s : State) : Out :=
  let form := redForm id (fun m => m.map (scanP (srNode .pt) (zeroV true) false)) (fun m => m.map (scanP (fun x y => signed 32 (pattern32 (x + y))) 0 false))
  unguarded s (vector form d a a e s)

-- Conversion, scaling and quantisation (R253, R254) ----------------------------------------------------------------

/-- `vcvt` (R253). -/
def execVcvt (d a : TileSel) (e : VExt) (s : State) : Out :=
  let form : VForm := { shapes := fun i => i.same [i.a], run := fun i => i.rounded (i.vals i.a) }
  unguarded s (vector form d a a e s)
/-- `vdeq` (R253). -/
def execVdeq (d a : TileSel) (e : VExt) (s : State) : Out :=
  let form : VForm := { c := true, classes := fun i => i.a.desc.cls == 0 && i.a.desc.sgeo != 0 && 1 ≤ i.d.desc.cls && i.d.desc.cls ≤ 3, shapes := fun i => i.same [i.a], scale := fun i => i.a.desc.scaleCount i.a.shape.1 i.a.shape.2, run := fun i => i.rounded (let sb := scaleBytes i.s i.c.h (i.a.desc.scaleCount i.a.shape.1 i.a.shape.2); (i.vals i.a).mapIdx fun r row => row.mapIdx fun j v => mulP v (scaleAt i.a.desc i.a.shape.2 sb r j)) }
  unguarded s (vector form d a a e s)
/-- a × 2^n, exact; beyond ±1,000 every n gives what ±1,000 gives, since no format reaches there (R253). -/
def scaleBy (n : Int) (v : Val) : Val := v.mul (.num false (.rat 1 1 (max (-1000) (min 1000 n))))
/-- `vscale` (R253). -/
def execVscale (d a : TileSel) (e : VExt) (s : State) : Out :=
  let form : VForm := { classes := fun i => allFloat [i.d, i.a], shapes := fun i => i.same [i.a], run := fun i => i.rounded ((i.vals i.a).map fun r => r.map fun v => (scaleBy i.xi.1 v.1, v.2 || i.xp)) }
  unguarded s (vector form d a a e s)

/-- UE4M4 as a format (06 R143). -/
def ue4m4 : Desc := ⟨0, 8, 4, 4, 7, false, 0, 1, 0⟩
/-- The largest magnitude of a block, NaN left out. -/
def amaxOf (l : List Val) : Val := (l.filter fun v => !v.isNan).foldl (fun m v => m.max v.abs) (zeroV false)
/-- The scale byte of a block (R254); `unstated` stands where the format has no largest magnitude above 0 and the manual gives
no result. -/
def scaleByte (d : Desc) (unstated : Nat) (l : List Val) : Nat :=
  let amax := amaxOf l
  let top := d.maxVal
  if d.sfmt = 0 then
    if l.any Val.isNan then 255
    else match amax, top with
      | .inf _, _ => 254
      | .num _ m, .num _ t =>
        if m.isZero then 127 else if t.isZero then unstated
        else (min 254 (max 0 (127 + m.log2 - t.log2))).toNat
      | _, _ => unstated
  else if amax.isZero then 0x70
  else if top.isZero then unstated
  else max 1 (ue4m4.round (amax.div top) .ru 0 true)
/-- `vquant` (R254). -/
def execVquant (d a : TileSel) (e : VExt) (s : State) : Out :=
  let quant (i : VIn) : VOut :=
    let q := i.d.desc
    let cols := i.d.shape.2
    let v := (i.vals i.a).mapIdx fun r row => row.mapIdx fun j x => (q.scaleIdx cols r j, x)
    let at_ (k : Nat) : List Nat := ((i.codes i.a).mapIdx fun r row => (row.mapIdx fun j x => if q.scaleIdx cols r j = k then [x.1] else []).flatten).flatten
    let zs := (List.range (q.scaleCount i.d.shape.1 cols)).map fun k =>
      let blk := (v.flatten.filter fun x => x.1 == k).map (·.2)
      (scaleByte q (Config.scaleFree i.d.val i.a.val (at_ k)).toNat (blk.map (·.1)), blk.any (·.2))
    let scaled := v.map fun r => r.map fun x =>
      let z := zs.getD x.1 (0, false)
      (x.2.1.div (scaleVal q.sfmt z.1), z.2)
    { i.rounded scaled with scales := zs }
  let form : VForm := { c := true, cw := true, classes := fun i => allFloat [i.a] && i.d.desc.cls == 0 && i.d.desc.sgeo != 0, shapes := fun i => i.same [i.a], scale := fun i => i.d.desc.scaleCount i.d.shape.1 i.d.shape.2, run := quant }
  unguarded s (vector form d a a e s)

-- Data movement (R255) ---------------------------------------------------------------------------------------------

/-- An element of a matrix of codes; the all-zero code outside it. -/
def Mat.at (m : Mat) (i j : Nat) : Nat × Bool := (m.getD i []).getD j (0, false)
/-- An element that an index selects along a list; a poisoned index gives the all-zero code, poisoned. -/
def pick (l : List (Nat × Bool)) (ix : Int × Bool) : Nat × Bool :=
  if ix.2 then (0, true) else if ix.1 < 0 then (0, false) else l.getD ix.1.toNat (0, false)
/-- Equal descriptor values. -/
def VIn.alike (i : VIn) (os : List VOp) : Bool := os.all fun o => o.val == i.d.val
/-- `vtrans` (R255). -/
def execVtrans (d a : TileSel) (e : VExt) (s : State) : Out :=
  let form : VForm := { classes := fun i => i.alike [i.a], shapes := fun i => i.d.shape == (i.a.shape.2, i.a.shape.1), run := fun i => i.moved (transpose i.a.shape.2 (i.codes i.a)) }
  unguarded s (vector form d a a e s)
/-- `vperm` (R255). -/
def execVperm (d a b : TileSel) (e : VExt) (s : State) : Out :=
  let form : VForm := { b := true, classes := fun i => i.alike [i.a] && allInt [i.b], shapes := fun i => i.same [i.b] && i.d.shape.1 == i.a.shape.1, run := fun i => i.moved ((i.codes i.a).zipWith (fun r q => q.map (pick r)) (i.ints i.b)) }
  unguarded s (vector form d a b e s)
/-- `vgath` (R255). -/
def execVgath (d a b : TileSel) (e : VExt) (s : State) : Out :=
  let row (m : Mat) (cols : Nat) (ix : Int × Bool) : List (Nat × Bool) := (List.range cols).map fun j => pick (m.map fun r => r.getD j (0, false)) ix
  let form : VForm := { b := true, classes := fun i => i.alike [i.a] && allInt [i.b], shapes := fun i => i.d.shape.1 ≤ i.b.shape.1 * i.b.shape.2 && i.d.shape.2 == i.a.shape.2, run := fun i => i.moved (let m := i.codes i.a; ((i.ints i.b).flatten.take i.d.shape.1).map (row m i.a.shape.2)) }
  unguarded s (vector form d a b e s)
/-- `vbcast` (R255). -/
def execVbcast (d a : TileSel) (e : VExt) (s : State) : Out :=
  let form : VForm := { classes := fun i => i.alike [i.a], shapes := fun i => (i.a.shape.1 == i.d.shape.1 || i.a.shape.1 == 1) && (i.a.shape.2 == i.d.shape.2 || i.a.shape.2 == 1), run := fun i => i.moved (let m := i.codes i.a; (List.range i.d.shape.1).map fun r => (List.range i.d.shape.2).map fun c => Mat.at m (if i.a.shape.1 = 1 then 0 else r) (if i.a.shape.2 = 1 then 0 else c)) }
  unguarded s (vector form d a a e s)
/-- `vpack` (R255). -/
def execVpack (d a b : TileSel) (e : VExt) (s : State) : Out :=
  let form : VForm := { b := true, classes := fun i => i.alike [i.a, i.b], shapes := fun i => i.d.shape.1 == i.a.shape.1 && i.b.shape.1 == i.a.shape.1 && i.d.shape.2 == i.a.shape.2 + i.b.shape.2, run := fun i => i.moved ((i.codes i.a).zipWith (· ++ ·) (i.codes i.b)) }
  unguarded s (vector form d a b e s)
/-- `vunpk` (R255): x is a position. -/
def execVunpk (d a : TileSel) (e : VExt) (s : State) : Out :=
  let form : VForm := { pos := true, classes := fun i => i.alike [i.a], shapes := fun i => i.d.shape.1 == i.a.shape.1 && i.x % 2 ^ 32 + i.d.shape.2 ≤ i.a.shape.2, run := fun i => i.moved ((i.codes i.a).map fun r => (r.drop (i.x % 2 ^ 32)).take i.d.shape.2) }
  unguarded s (vector form d a a e s)

-- Integer and bitwise (R256) ---------------------------------------------------------------------------------------

/-- An integer operation: `f` takes the destination's width, a and b; `sat` may clamp (07 R166). -/
def intForm (f : Nat → Int → Int → Int) : VForm :=
  { b := true, classes := fun i => allInt (i.d :: i.a :: i.bs), shapes := fun i => i.same (i.a :: i.bs), run := fun i => i.moved (mapP (i.d.desc.putInt i.e.sat) (zipP (f i.d.desc.wd) (i.ints i.a) i.bi)) }
/-- `viadd` (R256). -/
def execViadd (d a b : TileSel) (e : VExt) (s : State) : Out := unguarded s (vector (intForm fun _ x y => x + y) d a b e s)
/-- `visub` (R256). -/
def execVisub (d a b : TileSel) (e : VExt) (s : State) : Out := unguarded s (vector (intForm fun _ x y => x - y) d a b e s)
/-- `vimul` (R256). -/
def execVimul (d a b : TileSel) (e : VExt) (s : State) : Out := unguarded s (vector (intForm fun _ x y => x * y) d a b e s)
/-- A bitwise operation on codes (R256). -/
def bitForm (f : Nat → Nat → Nat) : VForm :=
  { b := true, classes := fun i => i.alike (i.a :: i.bs), shapes := fun i => i.same (i.a :: i.bs), run := fun i => i.moved (zipP f (i.codes i.a) (if i.e.xs then fillMat i.d.shape (i.x % 2 ^ i.d.desc.wd, i.xp) else i.codes i.b)) }
/-- `vand` (R256). -/
def execVand (d a b : TileSel) (e : VExt) (s : State) : Out := unguarded s (vector (bitForm (· &&& ·)) d a b e s)
/-- `vor` (R256). -/
def execVor (d a b : TileSel) (e : VExt) (s : State) : Out := unguarded s (vector (bitForm (· ||| ·)) d a b e s)
/-- `vxor` (R256). -/
def execVxor (d a b : TileSel) (e : VExt) (s : State) : Out := unguarded s (vector (bitForm (· ^^^ ·)) d a b e s)
/-- An element brought to a width (R256). -/
def toWidth (w : Nat) (v : Int) : Int := signed w (v % 2 ^ w).toNat
/-- `vshl` (R256). -/
def execVshl (d a b : TileSel) (e : VExt) (s : State) : Out :=
  unguarded s (vector (intForm fun w x y => toWidth w x * 2 ^ (y % w).toNat) d a b e s)
/-- `vshr` (R256): `fx` 0 logical, 1 arithmetic. -/
def execVshr (d a b : TileSel) (e : VExt) (s : State) : Out :=
  unguarded s (vector (intForm fun w x y => (if e.fx.val = 0 then x % 2 ^ w else toWidth w x) / 2 ^ (y % w).toNat) d a b e s)

-- Softmax, lookup and fill (R257 to R259) --------------------------------------------------------------------------

/-- One row of `vsmx` before the rounding into the destination (R257). -/
def softmaxRow (r : List Val) : List Val :=
  let m := redFloat .max 10 r
  let es := r.map fun x => dec32 (Fn.exp.at32 (rneV (x.add false m.negate)))
  let t := redFloat .sum 10 es
  es.map fun x => x.div t
/-- `vsmx` (R257). -/
def execVsmx (d a : TileSel) (e : VExt) (s : State) : Out :=
  let form : VForm := { slow := true, classes := fun i => allFloat [i.d, i.a], shapes := fun i => i.same [i.a], run := fun i => i.rounded ((i.vals i.a).map fun r => let bad := r.any (·.2); (softmaxRow (r.map (·.1))).map fun v => (v, bad)) }
  unguarded s (vector form d a a e s)
/-- `vlut` (R258). -/
def execVlut (d a b : TileSel) (e : VExt) (s : State) : Out :=
  let form : VForm := { b := true, classes := fun i => i.a.desc.cls == 0 || i.a.desc.cls == 6, shapes := fun i => 2 ^ i.a.desc.wd ≤ i.b.shape.1 * i.b.shape.2 && i.same [i.a], run := fun i => i.rounded (let tab := (i.vals i.b).flatten; (i.codes i.a).map fun r => r.map fun c => let v := tab.getD c.1 (.nan, false); (v.1, v.2 || c.2)) }
  unguarded s (vector form d a b e s)
/-- `vfill` (R259). -/
def execVfill (d : TileSel) (e : VExt) (s : State) : Out :=
  let fill (i : VIn) : VOut :=
    if i.e.fx.val = 1 then i.moved (fillMat i.d.shape (i.x % 2 ^ i.d.desc.wd, i.xp))
    else
      let v := if i.d.desc.isFloat then i.xf.1 else if i.d.desc.isInt then intV i.xi.1 else intV (ofBool (i.x % 2 ^ 32 != 0))
      i.rounded (fillMat i.d.shape (v, i.xp))
  let form : VForm := { a := false, shapes := fun _ => true, run := fill }
  unguarded s (vector form d d d e s)

end Sys2Proof.Machine
end

