-- ==== Sys2Proof/Machine/Sched.lean ====
section
/-! DEFINITION. What runs next (14 R311, R317 to R322): the start of an invocation, the budget watchdog, the contexts that
compete for a cell's issue core, and the order that steps of one path keep. -/

namespace Sys2Proof.Machine

-- The start of an invocation (14 R311; 05 R127, R128; 02 R49, R50) -------------------------------------------------

/-- Handle t28 + k at entry (05 R127): the attached tile in its zone, the relayed tile LATCHED, a LATCHED handle as it was, or
FREE. -/
def boundTile (a : Actor) (m : Mail) (k : Nat) : TileEnt :=
  match m.msg.caps[k]? with
  | some e =>
    if m.latch != 0 then { e with state := .latched }
    else { e with state := .ready, loc := if e.glob then e.loc else BitVec.ofNat 56 (a.zones.getD k {}).off }
  | none => if (tileAt a (28 + k)).state == .latched then tileAt a (28 + k) else {}
/-- A named register at entry (02 R49, R50). -/
def entryReg (a : Actor) (livein k : Nat) : Ent := if bit livein k then (let v := a.saved.getD k (0, false); .val v.1 v.2) else .val 0 false
/-- Zone `k` made ready for a message: the tile of another waiting message leaves it for the overflow area, and the message's own
bytes come from there (05 R128). An area that has no room for what comes kills (14 R315). -/
def State.fillZone (s : State) (n : ActorName) (m : Mail) (k : Nat) : State :=
  match m.spill.find? fun x => x.1 == k with
  | none => s
  | some x =>
    let a := s.actor n
    let key := regionKey a + (a.zones.getD k {}).off
    let inZone (y : Mail) : Bool := y.arr != m.arr && y.latch == 0 && (y.msg.caps.getD k { glob := true }).glob == false && !y.spill.any fun t => t.1 == k
    let out (y : Mail) : Mail :=
      if inZone y then
        let e := y.msg.caps.getD k {}
        { y with spill := y.spill ++ [(k, s.bytes key (tileSize e (descOf (descVal a e))))] }
      else y
    let s := s.keep { a with mbox := a.mbox.map out }
    if !s.alive n then s else (s.put key x.2).spoisWrite key x.2.length false
/-- The invocation of a message: inbox handles bound, `livein` registers restored, the rest of the registers clear, `budrem`,
`eprio` and `chan` set. -/
def State.begin_ (s : State) (n : ActorName) (m : Mail) : State :=
  let s := (List.range 4).foldl (fun (t : State) k => if t.alive n then t.fillZone n m k else t) s
  if !s.alive n then s
  else
  let a := s.actor n
  let hd := (s.image a).handlers.getD m.msg.chan.val {}
  let zones := a.zones.mapIdx fun k (z : Zone) => { z with held := m.latch == 0 && travels (m.msg.caps.getD k { glob := true }) }
  let b : Actor := { a with st := .active, mbox := a.mbox.filter fun x => x.arr != m.arr, msg := m.msg, invNo := a.invNo + 1, eprio := max a.bprio m.msg.cprio.val, budget := if hd.budget = 0 then 2 ^ 32 else hd.budget, start := s.cycle, paused := 0, retired := 0, liveout := hd.liveout, pc := hd.pc, lc := 0, ls := List.replicate 8 0, ldep := 0, offer := none, h := List.replicate 16 (.val 0 false), s := (List.range 16).map (entryReg a hd.livein), p := List.replicate 8 (false, false), outbox := [], await := none, pend := none, waits := none, zones := zones }
  let b := [0, 1, 2, 3].foldl (fun (c : Actor) k => c.setTile (28 + k) (boundTile a m k)) b
  let s := s.setActor b
  let s := if m.latch != 0 then s.modCell a.cell fun e => { e with lbSrc := 0 } else s
  let s := s.post b.budget .budgetExpiry { actor := n, n := b.invNo }
  let s := s.trace 1 b m.msg.sender m.msg.seq m.msg.chan.val 0
  if hd.audit then s.sample n else s
/-- HANDLER_START (14 R311): the actor starts the message of R317; the instruction that begins the invocation issues with it. -/
def execHandlerStart (s : State) : Out :=
  let n := s.arg.actor
  match s.nextMail (s.actor n) with
  | some m => .next (if (s.actor n).st == .ready then s.begin_ n m else s)
  | none => .next s

/-- BUDGET_EXPIRY (14 R322): at 0 the actor dies; a stop has kept cycles back, so that it is looked at again. -/
def execBudgetExpiry (s : State) : Out :=
  let a := s.actor s.arg.actor
  if !(s.has s.arg.actor && a.st == .active && a.invNo == s.arg.n) then .next s
  else if a.dbg.stop || s.budrem a != 0 then .next (s.post (max 1 (s.budrem a)) .budgetExpiry s.arg)
  else .next (killActor s a.name rBudget)

-- Contexts that compete (14 R318, R319) ----------------------------------------------------------------------------

/-- Whether an actor's context is resident (14 R308, R309). -/
def resident (a : Actor) : Bool := !a.roaming || a.rc
/-- Whether a READY actor may start an invocation now: the cell that holds its context does not drain for its job (R323), no throttle holds starts (23
R412), and what was read from its zones has been read (05 R127, R128). -/
def State.mayStart (s : State) (a : Actor) : Bool :=
  a.st == .ready && !s.throttled && (!resident a || (s.cell (runCell a)).drain != some (jobOf a.name)) && (s.nextMail a).isSome &&
    (List.range 4).all fun k => (tileAt a (28 + k)).drn == 0
/-- Whether an actor is to issue: an invocation with budget left, or a start. -/
def State.wantsIssue (s : State) (a : Actor) : Bool :=
  !a.dbg.stop && ((a.st == .active && (a.shadow.isSome || s.budrem a != 0)) || s.mayStart a)
/-- Whether a cell issues: it is not gated, waking or retired. -/
def State.coreOn (s : State) (c : Nat) : Bool := let e := s.cell c; !e.gated && !e.waking && e.health != 1
/-- The contexts of a cell that are to issue. -/
def State.contexts (s : State) (c : Nat) : List Actor :=
  s.all.filter fun a => runCell a == c && resident a && s.wantsIssue a
/-- The roaming actors whose anchor is a cell that are to issue and have no context there (R309, R311). -/
def State.away (s : State) (c : Nat) : List Actor :=
  s.all.filter fun a => a.roaming && !a.rc && !a.fetching && a.cell == c && s.wantsIssue a
/-- The cells whose issue cores have something to try. -/
def State.cores (s : State) : List Nat :=
  ((s.all.filter fun a => s.wantsIssue a && (resident a || !a.fetching)).map fun a => if resident a then runCell a else a.cell).eraseDups.filter s.coreOn
/-- Effective priority in the competition; a shadow run has the lowest (21 R396). -/
def State.rank (s : State) (a : Actor) : Nat := if a.shadow.isSome then 0 else s.competes a
/-- The order in which a cell tries its contexts: the highest priority, then round-robin after the slot last chosen (R319). -/
def State.tryOrder (s : State) (c : Nat) : List Actor :=
  sortBy (fun (a : Actor) => (7 - s.rank a) * 16 + (ctxSlot a + 31 - (s.cell c).last) % 16) (s.contexts c)
/-- Whether a context waits on `await`, a reply or a barrier (R313): its instruction, or an entry that is not ready. -/
def Actor.waitsOn (a : Actor) (i : Option Instr) : Bool :=
  (match i with | some (.await _ _ _) => true | some (.bwait _ _ _) => true | _ => false) ||
    (a.h ++ a.s).any fun e => match e with | .wait _ => true | .val _ _ => false
/-- The state after a READY actor's first instruction would have stalled: the actor stays READY (R319); the walks that the
attempt asked for go on (04 R101). -/
def State.unstarted (s t : State) (n : ActorName) : State :=
  let asked := (t.agenda.drop s.agenda.length).filter fun d => d.ev.ev == .walkRequest
  ({ s with agenda := s.agenda ++ asked } : State).modActor n fun a => { a with walks := (t.actor n).walks }

-- The order that steps of one path keep ----------------------------------------------------------------------------

/-- The path on which an event travels, where the manual keeps its order: packets of one requester to one home (03 R72), flits of
one direction (18 R367), records of one host queue (18 R381), messages of one portal channel (18 R379), and what Astrolabe sends one
actor's extent table (04 R98). -/
def pathOf (e : Event) : Option (Nat × Nat × Nat) :=
  let g := e.arg
  match e.ev with
  | .rd | .wr | .wrm | .at_ | .rcContribution | .rcDeclaration => some (0, g.pkt.rq, homeNum g.pkt.home)
  | .flitReceive => some (1, g.n, ofBool g.flag)
  | .hostQueueWrite => some (2, g.n, 0)
  | .launch | .load | .unload | .attestationRequest | .dutyAnswer => some (3, g.k, 0)
  | .walkAnswer | .invalidation => some (4, g.actor.toNat, 0)
  | _ => none
/-- The places of the agenda entries that may be taken now: due, and first on their path. -/
def dueNow (now : Nat) : List (Nat × Nat × Nat) → Nat → List Due → List Nat
  | _, _, [] => []
  | seen, k, d :: r =>
    match pathOf d.ev with
    | none => (if d.at_ ≤ now then [k] else []) ++ dueNow now seen (k + 1) r
    | some p => (if d.at_ ≤ now && !seen.contains p then [k] else []) ++ dueNow now (p :: seen) (k + 1) r
/-- What a step may be. -/
inductive Choice | due (k : Nat) | input | core (c : Nat)
  deriving DecidableEq, Repr
/-- Every step that may come next. -/
def State.choices (s : State) : List Choice :=
  (dueNow s.cycle [] 0 s.agenda).map .due ++ (if s.inputs.isEmpty then [] else [.input]) ++ s.cores.map .core
/-- The choice that is taken: the only one, or a free one (log 1). -/
def State.chosen (s : State) : Option Choice :=
  match s.choices with
  | [] => none
  | [x] => some x
  | l => l[Config.choose s.tick % l.length]?
-- Errors of storages (21 R391) ------------------------------------------------------------------------------------

/-- A register's entry with its poison bit set. -/
def Ent.spoil : Ent → Ent | .val v _ => .val v true | .wait t => .wait t
/-- The cell of sector `k` of the scratchpads, of 2^17 sectors each (03 R68). -/
def sectorCell (k : Nat) : Nat := (k - 2 ^ 43) / 2 ^ 17
/-- A latch with other bits in one element. -/
def Latch.wrong (l : Latch) (i v : Nat) : Latch := { l with codes := modAt l.codes i fun _ => v % 2 ^ (descOf l.desc).wd }
/-- What an error does (03 R70; 21 R391): an uncorrectable one sets the poison bit of its granule, sector or register, or kills the owner of
its entry; one that is corrected is counted by the slice or the cell that corrects it; one that goes undetected or is miscorrected changes
what the sector holds. The scratchpad of a cell in boot mode sets no poison and counts nothing: an error there is
a wrong bit (22 R408). -/
def State.strike (s : State) : Strike → State
  | .granule g => if s.struckAt g then { s with gpois := insNat s.gpois g } else s
  | .sector k => if (s.cell (sectorCell k)).boot then s else { s with spois := insNat s.spois k }
  | .acc c q k => s.modCell c fun e => { e with accs := modAt e.accs q fun a => { a with pois := insNat a.pois k } }
  | .latch c b l => s.modCell c fun e => if b then { e with lb := { e.lb with pois := l.foldl insNat e.lb.pois } } else { e with la := { e.la with pois := l.foldl insNat e.la.pois } }
  | .reg n named i => s.modActor n fun a => if named then { a with s := modAt a.s i Ent.spoil } else { a with h := modAt a.h i Ent.spoil }
  | .pred n i => s.modActor n fun a => if i = 0 then a else { a with p := modAt a.p i fun q => (q.1, true) }
  | .entry n => killActor s n rPoison
  | .slice n => { s with corrected := kvSet s.corrected n (kvGet 0 s.corrected n + 1) }
  | .cell c => s.modCell c fun e => { e with cec := min (e.cec + 1) 0xFFFF }
  | .wrong k bs => if 2 ^ 43 ≤ k ∧ sectorCell k < 512 then s.put (32 * k) (bs.take 32) else s
  | .wrongAcc c q i v => s.modCell c fun e => { e with accs := modAt e.accs q fun a => a.write [(i % 2 ^ 14, v)] }
  | .wrongLatch c b i v => s.modCell c fun e => if b then { e with lb := e.lb.wrong i v } else { e with la := e.la.wrong i v }
/-- The error that comes with a step, if one does. -/
def State.struck (s : State) : State :=
  match s.strikes with | [] => s | e :: r => ({ s with strikes := r } : State).strike e
/-- What holds at every moment is brought about: an actor that is IDLE with a message that it can start is READY (R311), and an offer of a
roaming actor whose anchor has a slot again lapses (R309). -/
def State.settled (s : State) : State := ((s.actors.map fun e => (e.2.name : ActorName)).foldl State.refresh s).endOffers
/-- The cycles that a step takes: a free count (log 2). -/
def State.tock (s : State) : State := { s with cycle := s.cycle + Config.elapse s.tick, tick := s.tick + 1 }
/-- Time passes with a step, and an error may come with it. -/
def State.pass (s : State) : State := s.struck.settled.tock
/-- Nothing can be done yet: the part idles until its next step is due. -/
def State.idle (s : State) : State :=
  match minBy id ((s.agenda.map (·.at_)).filter fun n => s.cycle < n) with
  | some n => { s with cycle := n, tick := s.tick + 1 }
  | none => { s with tick := s.tick + 1 }

end Sys2Proof.Machine
end

