-- ==== Sys2Proof/Machine/Dispatch.lean ====
section
/-! DEFINITION. The dispatch of the part: one arm per constructor of `Instr`, each one direct call of its meaning. -/

namespace Sys2Proof.Machine

def exec (i : Instr) (s : State) : Host.Outcome State Fault Refusal :=
  match i with
  | .add w a b g => Sys2Proof.Machine.execAdd w a b g s
  | .sub w a b g => Sys2Proof.Machine.execSub w a b g s
  | .mul w a b g => Sys2Proof.Machine.execMul w a b g s
  | .mulh w a b g => Sys2Proof.Machine.execMulh w a b g s
  | .mulhu w a b g => Sys2Proof.Machine.execMulhu w a b g s
  | .div w a b g => Sys2Proof.Machine.execDiv w a b g s
  | .divu w a b g => Sys2Proof.Machine.execDivu w a b g s
  | .rem w a b g => Sys2Proof.Machine.execRem w a b g s
  | .remu w a b g => Sys2Proof.Machine.execRemu w a b g s
  | .and w a b g => Sys2Proof.Machine.execAnd w a b g s
  | .or w a b g => Sys2Proof.Machine.execOr w a b g s
  | .xor w a b g => Sys2Proof.Machine.execXor w a b g s
  | .andn w a b g => Sys2Proof.Machine.execAndn w a b g s
  | .orn w a b g => Sys2Proof.Machine.execOrn w a b g s
  | .shl w a b g => Sys2Proof.Machine.execShl w a b g s
  | .shr w a b g => Sys2Proof.Machine.execShr w a b g s
  | .sar w a b g => Sys2Proof.Machine.execSar w a b g s
  | .rol w a b g => Sys2Proof.Machine.execRol w a b g s
  | .min w a b g => Sys2Proof.Machine.execMin w a b g s
  | .max w a b g => Sys2Proof.Machine.execMax w a b g s
  | .minu w a b g => Sys2Proof.Machine.execMinu w a b g s
  | .maxu w a b g => Sys2Proof.Machine.execMaxu w a b g s
  | .clz w a g => Sys2Proof.Machine.execClz w a g s
  | .ctz w a g => Sys2Proof.Machine.execCtz w a g s
  | .popc w a g => Sys2Proof.Machine.execPopc w a g s
  | .sext w a g => Sys2Proof.Machine.execSext w a g s
  | .zext w a g => Sys2Proof.Machine.execZext w a g s
  | .bswap w a g => Sys2Proof.Machine.execBswap w a g s
  | .addi a imm => Sys2Proof.Machine.execAddi a imm s
  | .andi a imm => Sys2Proof.Machine.execAndi a imm s
  | .ori a imm => Sys2Proof.Machine.execOri a imm s
  | .xori a imm => Sys2Proof.Machine.execXori a imm s
  | .shli a imm => Sys2Proof.Machine.execShli a imm s
  | .shri a imm => Sys2Proof.Machine.execShri a imm s
  | .sari a imm => Sys2Proof.Machine.execSari a imm s
  | .li imm => Sys2Proof.Machine.execLi imm s
  | .lit v => Sys2Proof.Machine.execLit v s
  | .keep d a => Sys2Proof.Machine.execKeep d a s
  | .dup a g => Sys2Proof.Machine.execDup a g s
  | .lea w a b g => Sys2Proof.Machine.execLea w a b g s
  | .fadd a b g => Sys2Proof.Machine.execFadd a b g s
  | .fsub a b g => Sys2Proof.Machine.execFsub a b g s
  | .fmul a b g => Sys2Proof.Machine.execFmul a b g s
  | .fdiv a b g => Sys2Proof.Machine.execFdiv a b g s
  | .fmin a b g => Sys2Proof.Machine.execFmin a b g s
  | .fmax a b g => Sys2Proof.Machine.execFmax a b g s
  | .fabs a g => Sys2Proof.Machine.execFabs a g s
  | .fsqrt a g => Sys2Proof.Machine.execFsqrt a g s
  | .ffma a b c dst rnd sat g => Sys2Proof.Machine.execFfma a b c dst rnd sat g s
  | .fcvt kind w a dst rnd sat g => Sys2Proof.Machine.execFcvt kind w a dst rnd sat g s
  | .pset cond w a b dp g => Sys2Proof.Machine.execPset cond w a b dp g s
  | .psetf cond a b dp g => Sys2Proof.Machine.execPsetf cond a b dp g s
  | .pand d a b => Sys2Proof.Machine.execPand d a b s
  | .por d a b => Sys2Proof.Machine.execPor d a b s
  | .pxor d a b => Sys2Proof.Machine.execPxor d a b s
  | .pnot d a => Sys2Proof.Machine.execPnot d a s
  | .sel a b g => Sys2Proof.Machine.execSel a b g s
  | .br p off => Sys2Proof.Machine.execBr p off s
  | .bp p off => Sys2Proof.Machine.execBp p off s
  | .call p off => Sys2Proof.Machine.execCall p off s
  | .ret p => Sys2Proof.Machine.execRet p s
  | .loop p off => Sys2Proof.Machine.execLoop p off s
  | .jmpx a g => Sys2Proof.Machine.execJmpx a g s
  | .ld w a g => Sys2Proof.Machine.execLd w a g s
  | .st w a b g => Sys2Proof.Machine.execSt w a b g s
  | .ldx w a b disp sx dst g => Sys2Proof.Machine.execLdx w a b disp sx dst g s
  | .stx w a b c disp g => Sys2Proof.Machine.execStx w a b c disp g s
  | .tfree d => Sys2Proof.Machine.execTfree d s
  | .tstat a hi => Sys2Proof.Machine.execTstat a hi s
  | .tzero d => Sys2Proof.Machine.execTzero d s
  | .tdef d loc0 loc1 pitch rows cols fmt bar glob => Sys2Proof.Machine.execTdef d loc0 loc1 pitch rows cols fmt bar glob s
  | .tview d a row0 col0 rows cols => Sys2Proof.Machine.execTview d a row0 col0 rows cols s
  | .tcopy to_ from_ lu => Sys2Proof.Machine.execTcopy to_ from_ lu s
  | .tfetch c => Sys2Proof.Machine.execTfetch c s
  | .twrite c => Sys2Proof.Machine.execTwrite c s
  | .tgath c ix => Sys2Proof.Machine.execTgath c ix s
  | .tscat c ix => Sys2Proof.Machine.execTscat c ix s
  | .rdef d first count => Sys2Proof.Machine.execRdef d first count s
  | .radv d cons step => Sys2Proof.Machine.execRadv d cons step s
  | .rwait d cons k => Sys2Proof.Machine.execRwait d cons k s
  | .binit d a => Sys2Proof.Machine.execBinit d a s
  | .bexp d a => Sys2Proof.Machine.execBexp d a s
  | .bwait d a b => Sys2Proof.Machine.execBwait d a b s
  | .bstat d hi => Sys2Proof.Machine.execBstat d hi s
  | .mclr acc sr => Sys2Proof.Machine.execMclr acc sr s
  | .mlda a lu => Sys2Proof.Machine.execMlda a lu s
  | .mldb a rl lu => Sys2Proof.Machine.execMldb a rl lu s
  | .mtr a lat lu => Sys2Proof.Machine.execMtr a lat lu s
  | .mrelay a b => Sys2Proof.Machine.execMrelay a b s
  | .mma acc a b sr lasta lastb => Sys2Proof.Machine.execMma acc a b sr lasta lastb s
  | .mmas acc a b sa sb sr lasta lastb => Sys2Proof.Machine.execMmas acc a b sa sb sr lasta lastb s
  | .macc acc a sr lasta => Sys2Proof.Machine.execMacc acc a sr lasta s
  | .mst acc to_ row0 col0 clr sat rnd => Sys2Proof.Machine.execMst acc to_ row0 col0 clr sat rnd s
  | .vadd d a b e => Sys2Proof.Machine.execVadd d a b e s
  | .vsub d a b e => Sys2Proof.Machine.execVsub d a b e s
  | .vmul d a b e => Sys2Proof.Machine.execVmul d a b e s
  | .vdiv d a b e => Sys2Proof.Machine.execVdiv d a b e s
  | .vmin d a b e => Sys2Proof.Machine.execVmin d a b e s
  | .vmax d a b e => Sys2Proof.Machine.execVmax d a b e s
  | .vfma d a b e => Sys2Proof.Machine.execVfma d a b e s
  | .vabs d a e => Sys2Proof.Machine.execVabs d a e s
  | .vneg d a e => Sys2Proof.Machine.execVneg d a e s
  | .vexp d a e => Sys2Proof.Machine.execVexp d a e s
  | .vexp2 d a e => Sys2Proof.Machine.execVexp2 d a e s
  | .vlog d a e => Sys2Proof.Machine.execVlog d a e s
  | .vrcp d a e => Sys2Proof.Machine.execVrcp d a e s
  | .vrsqrt d a e => Sys2Proof.Machine.execVrsqrt d a e s
  | .vsqrt d a e => Sys2Proof.Machine.execVsqrt d a e s
  | .vtanh d a e => Sys2Proof.Machine.execVtanh d a e s
  | .vsigm d a e => Sys2Proof.Machine.execVsigm d a e s
  | .verf d a e => Sys2Proof.Machine.execVerf d a e s
  | .vcmp d a b e => Sys2Proof.Machine.execVcmp d a b e s
  | .vsel d a b e => Sys2Proof.Machine.execVsel d a b e s
  | .vrsum d a e => Sys2Proof.Machine.execVrsum d a e s
  | .vrmax d a e => Sys2Proof.Machine.execVrmax d a e s
  | .vrmin d a e => Sys2Proof.Machine.execVrmin d a e s
  | .vcsum d a e => Sys2Proof.Machine.execVcsum d a e s
  | .vscan d a e => Sys2Proof.Machine.execVscan d a e s
  | .vcvt d a e => Sys2Proof.Machine.execVcvt d a e s
  | .vquant d a e => Sys2Proof.Machine.execVquant d a e s
  | .vdeq d a e => Sys2Proof.Machine.execVdeq d a e s
  | .vscale d a e => Sys2Proof.Machine.execVscale d a e s
  | .vtrans d a e => Sys2Proof.Machine.execVtrans d a e s
  | .vperm d a b e => Sys2Proof.Machine.execVperm d a b e s
  | .vgath d a b e => Sys2Proof.Machine.execVgath d a b e s
  | .vbcast d a e => Sys2Proof.Machine.execVbcast d a e s
  | .vpack d a b e => Sys2Proof.Machine.execVpack d a b e s
  | .vunpk d a e => Sys2Proof.Machine.execVunpk d a e s
  | .viadd d a b e => Sys2Proof.Machine.execViadd d a b e s
  | .visub d a b e => Sys2Proof.Machine.execVisub d a b e s
  | .vimul d a b e => Sys2Proof.Machine.execVimul d a b e s
  | .vand d a b e => Sys2Proof.Machine.execVand d a b e s
  | .vor d a b e => Sys2Proof.Machine.execVor d a b e s
  | .vxor d a b e => Sys2Proof.Machine.execVxor d a b e s
  | .vshl d a b e => Sys2Proof.Machine.execVshl d a b e s
  | .vshr d a b e => Sys2Proof.Machine.execVshr d a b e s
  | .vsmx d a e => Sys2Proof.Machine.execVsmx d a e s
  | .vlut d a b e => Sys2Proof.Machine.execVlut d a b e s
  | .vfill d e => Sys2Proof.Machine.execVfill d e s
  | .aadd a b dst sem sc nr disp g => Sys2Proof.Machine.execAadd a b dst sem sc nr disp g s
  | .aand a b dst sem sc nr disp g => Sys2Proof.Machine.execAand a b dst sem sc nr disp g s
  | .aor a b dst sem sc nr disp g => Sys2Proof.Machine.execAor a b dst sem sc nr disp g s
  | .axor a b dst sem sc nr disp g => Sys2Proof.Machine.execAxor a b dst sem sc nr disp g s
  | .amin a b dst sem sc nr disp g => Sys2Proof.Machine.execAmin a b dst sem sc nr disp g s
  | .amax a b dst sem sc nr disp g => Sys2Proof.Machine.execAmax a b dst sem sc nr disp g s
  | .aminu a b dst sem sc nr disp g => Sys2Proof.Machine.execAminu a b dst sem sc nr disp g s
  | .amaxu a b dst sem sc nr disp g => Sys2Proof.Machine.execAmaxu a b dst sem sc nr disp g s
  | .axchg a b dst sem sc nr disp g => Sys2Proof.Machine.execAxchg a b dst sem sc nr disp g s
  | .acas a b c dst sem sc nr disp g => Sys2Proof.Machine.execAcas a b c dst sem sc nr disp g s
  | .robj a b p0 p1 p2 rows cols fmt op => Sys2Proof.Machine.execRobj a b p0 p1 p2 rows cols fmt op s
  | .ared a p0 p1 p2 lu => Sys2Proof.Machine.execAred a p0 p1 p2 lu s
  | .fence acq rel sc => Sys2Proof.Machine.execFence acq rel sc s
  | .balloc p0 p1 p2 mir com => Sys2Proof.Machine.execBalloc p0 p1 p2 mir com s
  | .bfree p0 p1 p2 => Sys2Proof.Machine.execBfree p0 p1 p2 s
  | .xmap p0 p1 p2 => Sys2Proof.Machine.execXmap p0 p1 p2 s
  | .xunmap p0 p1 p2 => Sys2Proof.Machine.execXunmap p0 p1 p2 s
  | .send a x g => Sys2Proof.Machine.execSend a x g s
  | .sendt a x g => Sys2Proof.Machine.execSendt a x g s
  | .mcast x g => Sys2Proof.Machine.execMcast x g s
  | .callRequest a x g => Sys2Proof.Machine.execCallRequest a x g s
  | .reply a b pl g => Sys2Proof.Machine.execReply a b pl g s
  | .await a b g => Sys2Proof.Machine.execAwait a b g s
  | .end_ g => Sys2Proof.Machine.execEnd g s
  | .spawn img arg0 arg1 lnk mon => Sys2Proof.Machine.execSpawn img arg0 arg1 lnk mon s
  | .spawnc crec arg0 arg1 => Sys2Proof.Machine.execSpawnc crec arg0 arg1 s
  | .link a g => Sys2Proof.Machine.execLink a g s
  | .unlink a g => Sys2Proof.Machine.execUnlink a g s
  | .monitor a g => Sys2Proof.Machine.execMonitor a g s
  | .demon a g => Sys2Proof.Machine.execDemon a g s
  | .exit a b g => Sys2Proof.Machine.execExit a b g s
  | .kill a lv g => Sys2Proof.Machine.execKill a lv g s
  | .trapx a g => Sys2Proof.Machine.execTrapx a g s
  | .chmask a g => Sys2Proof.Machine.execChmask a g s
  | .prio a g => Sys2Proof.Machine.execPrio a g s
  | .lookup a g => Sys2Proof.Machine.execLookup a g s
  | .reg a b g => Sys2Proof.Machine.execReg a b g s
  | .supStart crec => Sys2Proof.Machine.execSupStart crec s
  | .supStop crec => Sys2Proof.Machine.execSupStop crec s
  | .supqName crec => Sys2Proof.Machine.execSupqName crec s
  | .supqCount crec => Sys2Proof.Machine.execSupqCount crec s
  | .supqState crec => Sys2Proof.Machine.execSupqState crec s
  | .sysrd a g => Sys2Proof.Machine.execSysrd a g s
  | .syswr a b g => Sys2Proof.Machine.execSyswr a b g s
  | .ctrd a g => Sys2Proof.Machine.execCtrd a g s
  | .nop => Sys2Proof.Machine.execNop s
  | .brk imm => Sys2Proof.Machine.execBrk imm s
  | .trap imm => Sys2Proof.Machine.execTrap imm s
  | .dhalt a b g => Sys2Proof.Machine.execDhalt a b g s
  | .dstep a b g => Sys2Proof.Machine.execDstep a b g s
  | .dres a g => Sys2Proof.Machine.execDres a g s
  | .drd a g => Sys2Proof.Machine.execDrd a g s
  | .dwr a b g => Sys2Proof.Machine.execDwr a b g s
  | .dbp a ix en g => Sys2Proof.Machine.execDbp a ix en g s
  | .dwp a ix en wk len g => Sys2Proof.Machine.execDwp a ix en wk len g s
  | .dtrc a g => Sys2Proof.Machine.execDtrc a g s
  | .rpwr a b g => Sys2Proof.Machine.execRpwr a b g s
  | .rprd a g => Sys2Proof.Machine.execRprd a g s
  | .halt a g => Sys2Proof.Machine.execHalt a g s
  | .powerOnReset => Sys2Proof.Machine.execPowerOnReset s
  | .warmReset => Sys2Proof.Machine.execWarmReset s
  | .bootProgramStart => Sys2Proof.Machine.execBootProgramStart s
  | .portalOpen => Sys2Proof.Machine.execPortalOpen s
  | .thermalTrip => Sys2Proof.Machine.execThermalTrip s
  | .throttle => Sys2Proof.Machine.execThrottle s
  | .registerWrite => Sys2Proof.Machine.execRegisterWrite s
  | .quarantineWrite => Sys2Proof.Machine.execQuarantineWrite s
  | .dutymodeWrite => Sys2Proof.Machine.execDutymodeWrite s
  | .d2dRetrain => Sys2Proof.Machine.execD2dRetrain s
  | .hqackWrite => Sys2Proof.Machine.execHqackWrite s
  | .hostQueueWrite => Sys2Proof.Machine.execHostQueueWrite s
  | .portalSlotComplete => Sys2Proof.Machine.execPortalSlotComplete s
  | .launch => Sys2Proof.Machine.execLaunch s
  | .load => Sys2Proof.Machine.execLoad s
  | .unload => Sys2Proof.Machine.execUnload s
  | .attestationRequest => Sys2Proof.Machine.execAttestationRequest s
  | .dutyAnswer => Sys2Proof.Machine.execDutyAnswer s
  | .flitTransmit => Sys2Proof.Machine.execFlitTransmit s
  | .flitReceive => Sys2Proof.Machine.execFlitReceive s
  | .nakResend => Sys2Proof.Machine.execNakResend s
  | .errorWindowEnd => Sys2Proof.Machine.execErrorWindowEnd s
  | .retrainComplete => Sys2Proof.Machine.execRetrainComplete s
  | .fabricTimeout => Sys2Proof.Machine.execFabricTimeout s
  | .fabricReply => Sys2Proof.Machine.execFabricReply s
  | .stationLinkDown => Sys2Proof.Machine.execStationLinkDown s
  | .rd => Sys2Proof.Machine.execRd s
  | .wr => Sys2Proof.Machine.execWr s
  | .wrm => Sys2Proof.Machine.execWrm s
  | .at_ => Sys2Proof.Machine.execAt s
  | .rcContribution => Sys2Proof.Machine.execRcContribution s
  | .rcDeclaration => Sys2Proof.Machine.execRcDeclaration s
  | .rdr => Sys2Proof.Machine.execRdr s
  | .wack => Sys2Proof.Machine.execWack s
  | .atr => Sys2Proof.Machine.execAtr s
  | .rca => Sys2Proof.Machine.execRca s
  | .rcRetry => Sys2Proof.Machine.execRcRetry s
  | .reductionNotice => Sys2Proof.Machine.execReductionNotice s
  | .mirrorAck => Sys2Proof.Machine.execMirrorAck s
  | .mirrorForwardTimeout => Sys2Proof.Machine.execMirrorForwardTimeout s
  | .scrub => Sys2Proof.Machine.execScrub s
  | .epochEnd => Sys2Proof.Machine.execEpochEnd s
  | .lostScan => Sys2Proof.Machine.execLostScan s
  | .migration => Sys2Proof.Machine.execMigration s
  | .invalidation => Sys2Proof.Machine.execInvalidation s
  | .invalidationAck => Sys2Proof.Machine.execInvalidationAck s
  | .walkRequest => Sys2Proof.Machine.execWalkRequest s
  | .walkAnswer => Sys2Proof.Machine.execWalkAnswer s
  | .sideLogReplay => Sys2Proof.Machine.execSideLogReplay s
  | .transferComplete => Sys2Proof.Machine.execTransferComplete s
  | .outboundReadDone => Sys2Proof.Machine.execOutboundReadDone s
  | .tileLanded => Sys2Proof.Machine.execTileLanded s
  | .mcastBusServe => Sys2Proof.Machine.execMcastBusServe s
  | .relaySend => Sys2Proof.Machine.execRelaySend s
  | .relayArrival => Sys2Proof.Machine.execRelayArrival s
  | .matrixComplete => Sys2Proof.Machine.execMatrixComplete s
  | .vectorComplete => Sys2Proof.Machine.execVectorComplete s
  | .messageArrival => Sys2Proof.Machine.execMessageArrival s
  | .messageResend => Sys2Proof.Machine.execMessageResend s
  | .replyArrival => Sys2Proof.Machine.execReplyArrival s
  | .awaitTimeout => Sys2Proof.Machine.execAwaitTimeout s
  | .handlerStart => Sys2Proof.Machine.execHandlerStart s
  | .contextFetch => Sys2Proof.Machine.execContextFetch s
  | .roamingOffer => Sys2Proof.Machine.execRoamingOffer s
  | .budgetExpiry => Sys2Proof.Machine.execBudgetExpiry s
  | .spawnAnswer => Sys2Proof.Machine.execSpawnAnswer s
  | .linkAnswer => Sys2Proof.Machine.execLinkAnswer s
  | .dying => Sys2Proof.Machine.execDying s
  | .reclaim => Sys2Proof.Machine.execReclaim s
  | .exitSignal => Sys2Proof.Machine.execExitSignal s
  | .restart => Sys2Proof.Machine.execRestart s
  | .restartRetry => Sys2Proof.Machine.execRestartRetry s
  | .swapInstant => Sys2Proof.Machine.execSwapInstant s
  | .swapEvalEnd => Sys2Proof.Machine.execSwapEvalEnd s
  | .freeze => Sys2Proof.Machine.execFreeze s
  | .mark => Sys2Proof.Machine.execMark s
  | .exchangeCommit => Sys2Proof.Machine.execExchangeCommit s
  | .cellWake => Sys2Proof.Machine.execCellWake s
  | .preempt => Sys2Proof.Machine.execPreempt s
  | .unpark => Sys2Proof.Machine.execUnpark s
  | .shadowRun => Sys2Proof.Machine.execShadowRun s
  | .shadowComplete => Sys2Proof.Machine.execShadowComplete s
  | .shadowAbandon => Sys2Proof.Machine.execShadowAbandon s
  | .ageingCheck => Sys2Proof.Machine.execAgeingCheck s
  | .throttleEnd => Sys2Proof.Machine.execThrottleEnd s
  | .idleFlit => Sys2Proof.Machine.execIdleFlit s

end Sys2Proof.Machine
end

