-- ==== Sys2Proof/Machine/Issue.lean ====
section
/-! DEFINITION. One turn of a cell's issue core (14 R319; 00 R15): contexts are tried in their order until one issues. -/

namespace Sys2Proof.Machine

/-- The instruction at an actor's program counter issues, or stalls; one that does not decode kills (01 R34), a raw word
of a `.word` too (R41). -/
def issue (s : State) (n : ActorName) : Out :=
  let s : State := { s with focus := n }
  match s.fetch (s.actor n) with
  | some i => exec i s
  | none => finish s (Kill rIllegal)

/-- What trying a context comes to: it issued, or it did not and the next is tried, or the machine stopped. -/
inductive Tried | issued (s : State) | not_ (s : State) | stopped (o : Out)

/-- An invocation in progress is tried. A stalled attempt keeps what it has asked for; a roaming context that waits is marked
(14 R313). -/
def tryActive (s : State) (n : ActorName) : Tried :=
  let a := s.actor n
  match issue s n with
  | .next t =>
    if t.stalled then
      .not_ (if a.roaming && a.waitsOn (s.fetch a) then t.modActor n fun b => { b with waits := some b.retired } else t)
    else .issued (t.afterIssue a)
  | o => .stopped o
/-- A READY actor is tried as if its invocation had begun (14 R319): it begins with its first instruction, or stays READY. A
debugger's `dstep` that its last `end` left unfinished, and a breakpoint, stop it before (11 R288, 21 R405). An actor whose start kills it
begins nothing. -/
def tryReady (s : State) (n : ActorName) : Tried :=
  let d := (s.actor n).dbg
  if d.dbgn != 0 && d.stc != 0 && !d.skip then .not_ (s.stopTarget n)
  else match exec .handlerStart { s with arg := { actor := n } } with
    | .next t =>
      let a := t.actor n
      if !t.alive n then .not_ t
      else if a.dbg.dbgn != 0 && a.breakAt.isSome then
        .not_ ((s.modActor n fun b => { b.cause 2 (a.breakAt.getD 0) with pc := a.pc }).stopTarget n)
      else match issue t n with
        | .next u => if u.stalled then .not_ (s.unstarted u n) else .issued (u.afterIssue a)
        | o => .stopped o
    | o => .stopped o
/-- A context is tried: a stop that is due comes first (21 R405). -/
def tryContext (s : State) (n : ActorName) : Tried :=
  if (s.actor n).stopsNow then .not_ (s.stopBefore n)
  else if (s.actor n).st == .active then tryActive s n
  else if s.mayStart (s.actor n) then tryReady s n
  else .not_ s
/-- The contexts of a cell in their order: the first that issues is the slot last chosen (14 R319). -/
def issueFirst (s : State) (c : Nat) : List Actor → Out
  | [] => .next s
  | a :: r =>
    match tryContext s a.name with
    | .issued t => .next (t.modCell c fun e => { e with last := ctxSlot a })
    | .not_ t => issueFirst t c r
    | .stopped o => o
/-- A roaming actor whose context is away asks for it: to start, or once its wait would end (14 R311, R313). -/
def askContext (s : State) (a : Actor) : State :=
  let wanted := a.st == .ready || (match issue s a.name with | .next t => !t.stalled | _ => false)
  if wanted then (s.modActor a.name fun b => { b with fetching := true }).post 0 .contextFetch { actor := a.name } else s
/-- A turn of a cell's issue core. -/
def coreTurn (s : State) (c : Nat) : Out :=
  let s := (s.away c).foldl askContext s
  issueFirst s c (s.tryOrder c)

/-- A step of the part's own, taken from the agenda or from outside. -/
def runEvent (s : State) (e : Event) : Out := exec e.ev { s with focus := 0, stalled := false, arg := e.arg }
/-- The choice of a step carried out. -/
def carryOut (s : State) : Choice → Out
  | .due k =>
    match s.agenda[k]? with
    | some d => runEvent { s with agenda := s.agenda.eraseIdx k } d.ev
    | none => .next s
  | .input =>
    match s.inputs with
    | e :: r => runEvent { s with inputs := r } e
    | [] => .next s
  | .core c => coreTurn s c
/-- Time passes with a step that answers a next state. -/
def thenPass : Out → Out
  | .next t => .next t.pass
  | o => o
/-- A power-on reset that arrives from outside, which alone is taken once the clocks have stopped (23 R411, R413). -/
def State.powerOn (s : State) : Bool := match s.inputs with | e :: _ => e.ev == .powerOnReset | [] => false

end Sys2Proof.Machine
end

