-- ==== Sys2Proof/Machine/Step.lean ====
section
/-! DEFINITION. One step of the part: a due step of its own, an input from outside, or one turn of a cell's issue core. -/

namespace Sys2Proof.Machine

/-- The records that the part still writes to the host after it has stopped: the first that is due (18 R369, R385). -/
def State.lastWords (s : State) : Option Nat := findIdx (fun d => d.ev.ev == .hostQueueWrite) s.agenda
/-- One step. With stopped clocks or a stopped part only a power-on reset is taken (23 R411, 18 R369), and a part that has stopped still
reports why (18 R385). -/
def step (s : State) : Host.Outcome State Fault Refusal :=
  if s.powerOn then thenPass (carryOut s .input)
  else if s.tripped then .fault .clockStopped
  else if s.halted then
    match s.lastWords with
    | some k => thenPass (carryOut s (.due k))
    | none => .fault .partStopped
  else match s.chosen with
    | some c => thenPass (carryOut s c)
    | none => .next s.idle

/-- Where `withFetchWord` puts the text of its program. -/
def probeText : Nat := 2 ^ 20
/-- The file of that program: 20 bytes of text, loaded as boot files are. -/
def probeFile : File := { handle := 2, base := probeText, size := 20, text := probeText, textLen := 20, images := [{}], boot := true }
/-- The context that runs it: cell 0's boot program, at its first instruction. -/
def probeActor (now : Nat) : Actor :=
  { name := bootName 0, file := 2, st := .active, size := 1024, invNo := 1, budget := 2 ^ 32, start := now }
/-- The state with an instruction where the next step fetches: nothing else is due, and the one context of the part, a boot
program of cell 0, stands at it (it stands for the load of a program, log 9). -/
def State.withFetchWord (s : State) (nbits w : Nat) : State :=
  let s : State := { s with agenda := [], inputs := [], files := probeFile :: s.files, actors := [((bootName 0).toNat, probeActor s.cycle)], tripped := false, halted := false }
  s.put probeText (tableBytes nbits w)

end Sys2Proof.Machine
end

