-- ==== Sys2Proof/Safety.lean ====
section
/-! DEFINITION. What claims about the part are stated in: runs and invariants, the conditions under which an instruction takes
effect, and the three answers of an issue attempt (00 R15). -/

namespace Sys2Proof

open Machine

/-- One step that answers a next state. -/
def Steps (s t : State) : Prop := step s = .next t
/-- `t` is reached from `s` by steps that all answer a next state. -/
inductive Reaches : State → State → Prop
  | refl (s : State) : Reaches s s
  | step (s t u : State) (h : Reaches s t) (k : Steps t u) : Reaches s u
/-- A state that some run from reset reaches. -/
def Reachable (s : State) : Prop := Reaches State.reset s
/-- An invariant that every step keeps. -/
def Kept (Inv : State → Prop) : Prop := ∀ s t, Inv s → Steps s t → Inv t

-- Conditions of an issue -------------------------------------------------------------------------------------------

/-- A scalar operand is ready: its value and its poison bit (01 R29, 08 R171). -/
def Reads (s : State) (a : Scalar) (v : W64) (p : Bool) : Prop := readEnt s.cur a = .val v p
/-- The guard is true and not poisoned (01 R23, 08 R173). -/
def GuardOn (s : State) (g : Guard) : Prop := s.cur.pred g.p = (!g.pn, false)
/-- The guard is false and not poisoned. -/
def GuardOff (s : State) (g : Guard) : Prop := s.cur.pred g.p = (g.pn, false)

-- Answers of an issue ----------------------------------------------------------------------------------------------

/-- The instruction issued: the state it leaves. -/
def ran (t : State) : Out := .next { t with stalled := false }
/-- The instruction stalls. -/
def waits (t : State) : Out := .next { t with stalled := true }
/-- The instruction kills its actor with a reason. -/
def dies (s : State) (r : Reason) : Out := .next { killActor s s.focus r with stalled := false }
/-- The issuing actor past an instruction of `n` words (01 R17). -/
def past (s : State) (n : Nat) : Actor := { s.cur with pc := s.cur.pc + 4 * n, retired := s.cur.retired + 1 }
/-- An instruction of `n` words ran and pushed a value; it changed nothing else (08 R171). -/
def pushed (s : State) (n : Nat) (v : W64) (p : Bool) : Out :=
  ran (s.setCur { past s n with h := .val v p :: s.cur.h.take 15 })
/-- The same, with the value in a named register as well (01 R25). -/
def pushedTo (s : State) (n : Nat) (dst : Option (Fin 16)) (v : W64) (p : Bool) : Out :=
  ran (s.setCur { past s n with h := .val v p :: s.cur.h.take 15, s := match dst with | none => s.cur.s | some k => s.cur.s.set k.val (.val v p) })
/-- An instruction of `n` words pushed a value that comes from outside the invocation; when it is audited the log records the value,
and in a shadow run the log gives it (21 R394, R396). -/
def gave (s : State) (n : Nat) (v : W64) : Out :=
  if s.cur.audit = none ∧ s.cur.shadow = none then pushed s n v false else ran ((s.pushOutside v false).retire n)
/-- A two's-complement or unsigned number of `n` bits, zero-extended to a doubleword (08 R174). -/
def wide {n : Nat} (v : BitVec n) : W64 := v.setWidth 64

/-- The guard of a guarded instruction, its words, and what it pushes when it is guarded off: its first operand, once for every
value that it pushes otherwise (01 R23). -/
def guardShape : Instr → Option (Guard × Nat × List Scalar)
  | .add _ a _ g | .sub _ a _ g | .mul _ a _ g | .mulh _ a _ g | .mulhu _ a _ g | .div _ a _ g | .divu _ a _ g
  | .rem _ a _ g | .remu _ a _ g | .and _ a _ g | .or _ a _ g | .xor _ a _ g | .andn _ a _ g | .orn _ a _ g
  | .shl _ a _ g | .shr _ a _ g | .sar _ a _ g | .rol _ a _ g | .min _ a _ g | .max _ a _ g | .minu _ a _ g
  | .maxu _ a _ g | .lea _ a _ g => some (g, 1, [a])
  | .clz _ a g | .ctz _ a g | .popc _ a g | .sext _ a g | .zext _ a g | .bswap _ a g | .ld _ a g => some (g, 1, [a])
  | .dup a g | .fabs a g | .fsqrt a g | .sysrd a g | .ctrd a g | .rprd a g => some (g, 1, [a])
  | .fadd a _ g | .fsub a _ g | .fmul a _ g | .fdiv a _ g | .fmin a _ g | .fmax a _ g | .sel a _ g => some (g, 1, [a])
  | .ffma a _ _ _ _ _ g | .fcvt _ _ a _ _ _ g | .ldx _ a _ _ _ _ g => some (g, 3, [a])
  | .pset _ _ _ _ _ g | .psetf _ _ _ _ g | .stx _ _ _ _ _ g => some (g, 3, [])
  | .br p _ | .call p _ | .ret p | .loop p _ => some (⟨p, false⟩, 1, [])
  | .bp p _ => some (⟨p, true⟩, 1, [])
  | .jmpx _ g | .st _ _ _ g | .syswr _ _ g | .rpwr _ _ g | .halt _ g => some (g, 1, [])
  | .aadd a _ _ _ _ nr _ g | .aand a _ _ _ _ nr _ g | .aor a _ _ _ _ nr _ g | .axor a _ _ _ _ nr _ g
  | .amin a _ _ _ _ nr _ g | .amax a _ _ _ _ nr _ g | .aminu a _ _ _ _ nr _ g | .amaxu a _ _ _ _ nr _ g
  | .axchg a _ _ _ _ nr _ g | .acas a _ _ _ _ _ nr _ g => some (g, 3, if nr then [] else [a])
  | .send _ _ g | .sendt _ _ g | .mcast _ g | .callRequest _ _ g | .reply _ _ _ g => some (g, 3, [])
  | .await a _ g | .drd a g => some (g, 1, [a, a])
  | .end_ g | .exit _ _ g | .kill _ _ g => some (g, 1, [])
  | .link a g | .unlink a g | .monitor a g | .demon a g | .trapx a g | .chmask a g | .prio a g | .lookup a g
  | .reg a _ g | .dhalt a _ g | .dstep a _ g | .dres a g | .dwr a _ g => some (g, 1, [a])
  | .dbp a _ _ g | .dwp a _ _ _ _ g | .dtrc a g => some (g, 3, [a])
  | _ => none
/-- The scalar instructions that read and write registers of the issuing context only: integer, FP32, predicate and control
instructions (08 R174 to R186), and `nop`. -/
def registerOnly : Instr → Bool
  | .add _ _ _ _ | .sub _ _ _ _ | .mul _ _ _ _ | .mulh _ _ _ _ | .mulhu _ _ _ _ | .div _ _ _ _ | .divu _ _ _ _
  | .rem _ _ _ _ | .remu _ _ _ _ | .and _ _ _ _ | .or _ _ _ _ | .xor _ _ _ _ | .andn _ _ _ _ | .orn _ _ _ _
  | .shl _ _ _ _ | .shr _ _ _ _ | .sar _ _ _ _ | .rol _ _ _ _ | .min _ _ _ _ | .max _ _ _ _ | .minu _ _ _ _
  | .maxu _ _ _ _ | .clz _ _ _ | .ctz _ _ _ | .popc _ _ _ | .sext _ _ _ | .zext _ _ _ | .bswap _ _ _ => true
  | .addi _ _ | .andi _ _ | .ori _ _ | .xori _ _ | .shli _ _ | .shri _ _ | .sari _ _ | .li _ | .lit _ => true
  | .keep _ _ | .dup _ _ | .lea _ _ _ _ | .fadd _ _ _ | .fsub _ _ _ | .fmul _ _ _ | .fdiv _ _ _ | .fmin _ _ _
  | .fmax _ _ _ | .fabs _ _ | .fsqrt _ _ | .ffma _ _ _ _ _ _ _ | .fcvt _ _ _ _ _ _ _ => true
  | .pset _ _ _ _ _ _ | .psetf _ _ _ _ _ | .pand _ _ _ | .por _ _ _ | .pxor _ _ _ | .pnot _ _ | .sel _ _ _ => true
  | .br _ _ | .bp _ _ | .call _ _ | .ret _ | .loop _ _ | .jmpx _ _ | .nop => true
  | _ => false
/-- The instructions that issue only in boot mode (01 R33). -/
def bootInstr : Instr → Bool | .rpwr _ _ _ | .rprd _ _ | .halt _ _ => true | _ => false
/-- The issuing actor's cell is in boot mode. -/
def BootMode (s : State) : Prop := (s.cell s.cur.cell).boot = true

-- Tile operands ----------------------------------------------------------------------------------------------------

/-- Handle `h` is in a state that a read operand may have (05 R117). -/
def Readable (s : State) (h : Nat) : Prop := (tileAt s.cur h).state = .ready ∨ (tileAt s.cur h).state = .draining
/-- Handle `h` is in a state that a write operand may have (05 R117). -/
def Writable (s : State) (h : Nat) : Prop := (tileAt s.cur h).state = .empty ∨ (tileAt s.cur h).state = .ready
/-- Handle `h` is in a state that `tdef` and `tview` allow (05 R117). -/
def Definable (s : State) (h : Nat) : Prop :=
  (tileAt s.cur h).state = .free ∨ (tileAt s.cur h).state = .empty ∨ (tileAt s.cur h).state = .ready ∨
    ((tileAt s.cur h).state = .given ∧ (tileAt s.cur h).drn = 0)
/-- The tile of handle `h` has a valid descriptor `d` and `n` bytes, neither too large nor, in the scratchpad, out of its region
(05 R116; 06 R139, R140). -/
def Sized (s : State) (h : Nat) (d : Desc) (n : Nat) : Prop :=
  let e := tileAt s.cur h
  validDesc (descVal s.cur e) = true ∧ d = descOf (descVal s.cur e) ∧ n = e.rows.toNat * rowBytes e.cols.toNat d.wd ∧ n ≤ 262144 ∧
    (e.glob = false → e.loc.toNat + n ≤ regionSize s.cur)
/-- A scratchpad tile of handle `h` (10 R231). -/
def Local (s : State) (h : Nat) : Prop := (tileAt s.cur h).glob = false
/-- No unit still reads one of `n` bytes from region offset `off` (10 R230). -/
def Unread (s : State) (off n : Nat) : Prop := needNoHold s off n = .ok ()
/-- The copy engine has room for another transfer, and no earlier `.acq` access holds later ones back (05 R120; 09 R207). -/
def EngineFree (s : State) : Prop := (s.cell (runCell s.cur)).outstanding < 32 ∧ s.cur.acqHold = false

-- Vector operands --------------------------------------------------------------------------------------------------

/-- The format of the tile of handle `h` (06 R139). -/
def fmtOf (s : State) (h : Nat) : Desc := descOf (descVal s.cur (tileAt s.cur h))
/-- Its rows and columns. -/
def shapeOf (s : State) (h : Nat) : Nat × Nat := ((tileAt s.cur h).rows.toNat, (tileAt s.cur h).cols.toNat)
/-- Its bytes (05 R116). -/
def bytesAt (s : State) (h : Nat) : Nat := tileSize (tileAt s.cur h) (fmtOf s h)
/-- Its element codes with their poison (05 R116, 07 R167). -/
def codesOf (s : State) (h : Nat) : Mat := s.readMat (tileKey s.cur (tileAt s.cur h)) (shapeOf s h).1 (shapeOf s h).2 (fmtOf s h).wd
/-- Its elements as values (06 R143). -/
def valsOf (s : State) (h : Nat) : List (List PVal) := (codesOf s h).map fun r => r.map fun c => ((fmtOf s h).decode c.1, c.2)
/-- Its elements as two's-complement integers. -/
def intsOf (s : State) (h : Nat) : List (List (Int × Bool)) := (codesOf s h).map fun r => r.map fun c => (signed (fmtOf s h).wd c.1, c.2)
/-- A float tile (10 R247). -/
def FloatTile (s : State) (h : Nat) : Prop := (fmtOf s h).cls ≤ 3
/-- An integer tile (10 R247). -/
def IntTile (s : State) (h : Nat) : Prop := (fmtOf s h).cls = 4 ∨ (fmtOf s h).cls = 5
/-- A tile of scaled class 0 (10 R247). -/
def ScaledTile (s : State) (h : Nat) : Prop := (fmtOf s h).cls = 0 ∧ (fmtOf s h).sgeo ≠ 0
/-- The value x of a vector instruction (10 R246). -/
def VecValue (s : State) (e : VExt) (x : W64) (p : Bool) : Prop := if e.sx = .zero then x = sext32 e.k ∧ p = false else Reads s e.sx x p
/-- The vector unit is free, and the destination and the sources of a vector instruction are scratchpad tiles that it may write
and read (10 R231, R233, R248). -/
def VecOk (s : State) (d : Nat) (rs : List Nat) : Prop :=
  s.cur.roaming = false ∧ (s.cell s.cur.cell).vunit = none ∧ (Local s d ∧ Writable s d ∧ (∃ f n, Sized s d f n) ∧
    Unread s (tileAt s.cur d).loc.toNat (bytesAt s d)) ∧ ∀ r ∈ rs, Local s r ∧ Readable s r ∧ ∃ f n, Sized s r f n
/-- The cycles for which a vector instruction holds its unit, less one: V of 10 R248; `used` are its tiles, `moved` its bytes. -/
def vecCycles (s : State) (slow : Bool) (used : List Nat) (moved : Nat) : Nat :=
  let w := (used.map fun h => (fmtOf s h).wd).foldl max 0
  let work := (used.map fun h => (tileAt s.cur h).rows.toNat * ceilDiv (tileAt s.cur h).cols.toNat (lanes w)).foldl max 0
  8 + max (work * (if slow then 4 else 1)) (ceilDiv moved 256)
/-- A vector instruction issues (10 R248): its sources are held, its destination is FILLING, and the unit will write the elements
`m`; `a`, `b` and `c` are its sources, `scale` the bytes that it reads of a scale tile `c`. -/
def vecRuns (s : State) (e : VExt) (slow : Bool) (d : Nat) (a b c : Option Nat) (scale : Nat) (m : Mat × W64) : Out :=
  let rs := a.toList ++ b.toList ++ c.toList
  let moved := total ((d :: a.toList ++ b.toList).map (bytesAt s)) + total (c.toList.map fun h => if scale = 0 then bytesAt s h else scale)
  let held := rs.foldl (fun (q : Actor) h => q.watchOp false h) { s.cur with gen := m.2 }
  let t := ((held.tileState d .filling).watchOp true d).retire 3
  ran ((s.setCur (t.lastUses ((a.toList.map fun h => (e.lua, h)) ++ (b.toList.map fun h => (e.lub, h)) ++ c.toList.map fun h => (e.luc, h)))).startV
    (vecCycles s slow (d :: rs) moved)
    { writeJob s d m.1 with ready := [d], holds := rs.map fun h => ((tileAt s.cur h).loc.toNat, bytesAt s h) })
/-- The source b of a vector instruction, absent under `xs` (10 R245). -/
def VecB (s : State) (e : VExt) (b : TileSel) (hb : Option Nat) : Prop :=
  if e.xs = true then hb = none else ∃ k, resolve s.cur false b = .ok k ∧ hb = some k

-- Events -----------------------------------------------------------------------------------------------------------

/-- Event `ev`, whose operands stand in `s.arg`, takes place: it answers a next state, and `P` holds of it. -/
def Happens (s : State) (ev : Instr) (P : State → Prop) : Prop := ∃ t, exec ev s = .next t ∧ P t
/-- In `t` a step is to come that is event `ev` with operands `g`, not before `d` cycles after `s`. -/
def Awaits (s t : State) (d : Nat) (ev : Instr) (g : EvArg) : Prop := ⟨s.cycle + d, ⟨ev, g⟩⟩ ∈ t.agenda
/-- In `t` a record is to be written to host queue `q` (18 R381, R382): its kind, status, low bits of m0, m1 and m2. -/
def Told (s t : State) (q kind stat low : Nat) (m1 m2 : W64) : Prop :=
  Awaits s t 0 .hostQueueWrite { n := q, flag := true, msg := { chan := 15, plen := 4, m := [BitVec.ofNat 64 (kind * 2 ^ 56 + stat * 2 ^ 48 + low), m1, m2, 0] } }
/-- The request in `s.arg` takes place at its home: `P` holds of the state that it leaves there, and reply `r` is sent (03 R72). -/
def Answers (s : State) (ev : Instr) (r : Reply) (P : State → Prop) : Prop := ∃ t, exec ev s = .next (t.sendReply r) ∧ P t

-- Kills -----------------------------------------------------------------------------------------------------------

/-- The actors that a kill can reach: neither absent, nor dead already, nor in transit (16 R343, R344). -/
def killable (a : Actor) : Prop := a.st = .idle ∨ a.st = .ready ∨ a.st = .active ∨ a.st = .parked

-- Lookups ----------------------------------------------------------------------------------------------------------

/-- The address that a lookup found (04 R100). -/
def foundAt : Look → Option Nat
  | .hit pa _ => some pa
  | .absent | .waiting | .miss => none

end Sys2Proof
end

