-- ==== Sys2Proof/Certificates/Slice0/Obligations.lean ====
section
/-! DEFINITION. The statements for the provers: what each instruction and each step of the part's own does, what a kill and a reset
leave, frames, and what every step keeps. Where a docstring names a rule without its file, the rule is of the file that the group
is of: 08 for scalar, 09 for tile, 10 for matrix and vector, 11 for message instructions. -/

open Sys2Proof Sys2Proof.Machine

/-- R174: what each integer operation on two operands pushes, for every width, by the arithmetic of its bits. -/
def Obligations.IntegerBinaryResults : Prop :=
  ∀ (w : Width) (a b : Scalar) (g : Guard) (s : State) (u v : W64) (pa pb : Bool),
    Reads s a u pa → Reads s b v pb → GuardOn s g →
    let n := widthBits w
    let x : BitVec n := u.setWidth n
    let y : BitVec n := v.setWidth n
    let k := y.toNat % n
    let ans (r : BitVec n) : Out := pushed s 1 (wide r) (pa || pb)
    exec (.add w a b g) s = ans (x + y) ∧
    exec (.sub w a b g) s = ans (x - y) ∧
    exec (.mul w a b g) s = ans (x * y) ∧
    exec (.mulh w a b g) s = ans (((x.signExtend (2 * n) * y.signExtend (2 * n)) >>> n).setWidth n) ∧
    exec (.mulhu w a b g) s = ans (((x.setWidth (2 * n) * y.setWidth (2 * n)) >>> n).setWidth n) ∧
    exec (.div w a b g) s = ans (if y = 0 then BitVec.allOnes n else x.sdiv y) ∧
    exec (.divu w a b g) s = ans (if y = 0 then BitVec.allOnes n else x.udiv y) ∧
    exec (.rem w a b g) s = ans (if y = 0 then x else x.srem y) ∧
    exec (.remu w a b g) s = ans (if y = 0 then x else x.umod y) ∧
    exec (.and w a b g) s = ans (x &&& y) ∧
    exec (.or w a b g) s = ans (x ||| y) ∧
    exec (.xor w a b g) s = ans (x ^^^ y) ∧
    exec (.andn w a b g) s = ans (x &&& ~~~y) ∧
    exec (.orn w a b g) s = ans (x ||| ~~~y) ∧
    exec (.shl w a b g) s = ans (x <<< k) ∧
    exec (.shr w a b g) s = ans (x >>> k) ∧
    exec (.sar w a b g) s = ans (x.sshiftRight k) ∧
    exec (.rol w a b g) s = ans (x.rotateLeft k) ∧
    exec (.min w a b g) s = ans (if x.sle y then x else y) ∧
    exec (.max w a b g) s = ans (if x.sle y then y else x) ∧
    exec (.minu w a b g) s = ans (if x ≤ y then x else y) ∧
    exec (.maxu w a b g) s = ans (if x ≤ y then y else x)

/-- R175: what each integer operation on one operand pushes. A count is a number of bits; `bswap` reverses the bytes. -/
def Obligations.IntegerUnaryResults : Prop :=
  ∀ (w : Width) (a : Scalar) (g : Guard) (s : State) (u : W64) (p : Bool),
    Reads s a u p → GuardOn s g →
    let n := widthBits w
    let x : BitVec n := u.setWidth n
    exec (.clz w a g) s = pushed s 1 (wide x.clz) p ∧
    exec (.ctz w a g) s = pushed s 1 (wide x.ctz) p ∧
    exec (.popc w a g) s = pushed s 1 (wide x.cpop) p ∧
    exec (.sext w a g) s = pushed s 1 (x.signExtend 64) p ∧
    exec (.zext w a g) s = pushed s 1 (wide x) p ∧
    ∃ r : BitVec n, exec (.bswap w a g) s = pushed s 1 (wide r) p ∧
      ∀ i < n / 8, r.extractLsb' (8 * i) 8 = x.extractLsb' (n - 8 - 8 * i) 8

/-- R176, R177: what each immediate instruction and `lit` pushes; each works on all 64 bits.
R178: `keep` copies a value with its poison bit to a named register and pushes nothing; `dup` pushes its operand; `lea` adds
an operand scaled by 1, 2, 4 or 8. -/
def Obligations.ImmediateAndMoveResults : Prop :=
  ((∀ (a : Scalar) (imm : BitVec 12) (sh : BitVec 6) (s : State) (u : W64) (p : Bool), Reads s a u p →
      exec (.addi a imm) s = pushed s 1 (u + imm.signExtend 64) p ∧
      exec (.andi a imm) s = pushed s 1 (u &&& imm.signExtend 64) p ∧
      exec (.ori a imm) s = pushed s 1 (u ||| imm.signExtend 64) p ∧
      exec (.xori a imm) s = pushed s 1 (u ^^^ imm.signExtend 64) p ∧
      exec (.shli a sh) s = pushed s 1 (u <<< sh.toNat) p ∧
      exec (.shri a sh) s = pushed s 1 (u >>> sh.toNat) p ∧
      exec (.sari a sh) s = pushed s 1 (u.sshiftRight sh.toNat) p) ∧
    ∀ (imm : BitVec 12) (v : W64) (s : State),
      exec (.li imm) s = pushed s 1 (imm.signExtend 64) false ∧
      exec (.lit v) s = pushed s 3 v false) ∧
  (∀ (w : Width) (d : Fin 16) (a b : Scalar) (g : Guard) (s : State) (u v : W64) (pa pb : Bool),
      Reads s a u pa → Reads s b v pb → GuardOn s g →
      exec (.keep d a) s = ran (s.setCur { past s 1 with s := s.cur.s.set d.val (.val u pa) }) ∧
      exec (.dup a g) s = pushed s 1 u pa ∧
      exec (.lea w a b g) s =
        pushed s 1 (u + v <<< (match w with | .w8 => 0 | .w16 => 1 | .w32 => 2 | .w64 => 3 : Nat)) (pa || pb))

/-- R179: each FP32 instruction pushes the exact result of its operands' FP32 values, rounded once to nearest even, and poison passes;
and the special cases of `fdiv`, `fsqrt`, `fmin`, `fmax` and `fabs`. -/
def Obligations.FloatInstructionResults : Prop :=
  (∀ (a b : Scalar) (g : Guard) (s : State) (u v : W64) (pa pb : Bool),
      Reads s a u pa → Reads s b v pb → GuardOn s g →
      let x := dec32 u.toNat
      let y := dec32 v.toNat
      let ans (r : Val) (p : Bool) : Out := pushed s 1 (BitVec.ofNat 64 (rne32 r)) p
      exec (.fadd a b g) s = ans (x.add false y) (pa || pb) ∧
      exec (.fsub a b g) s = ans (x.add false y.negate) (pa || pb) ∧
      exec (.fmul a b g) s = ans (x.mul y) (pa || pb) ∧
      exec (.fdiv a b g) s = ans (x.div y) (pa || pb) ∧
      exec (.fmin a b g) s = ans (x.min y) (pa || pb) ∧
      exec (.fmax a b g) s = ans (x.max y) (pa || pb) ∧
      exec (.fabs a g) s = ans x.abs pa ∧
      exec (.fsqrt a g) s = ans x.sqrt pa) ∧
  (∀ (a b : Scalar) (g : Guard) (s : State) (u v : W64) (pa pb : Bool),
      Reads s a u pa → Reads s b v pb → GuardOn s g →
      let x := dec32 u.toNat
      let y := dec32 v.toNat
      let nan : W64 := BitVec.ofNat 64 (rne32 .nan)
      ((∃ n m, x = .num n m ∧ m.isZero = false) → y.isZero = true →
        exec (.fdiv a b g) s = pushed s 1 (if x.neg? != y.neg? then 0xFF800000 else 0x7F800000) (pa || pb)) ∧
      (x.isZero = true → y.isZero = true → exec (.fdiv a b g) s = pushed s 1 nan (pa || pb)) ∧
      ((∃ n, x = .inf n) → (∃ n, y = .inf n) → exec (.fdiv a b g) s = pushed s 1 nan (pa || pb)) ∧
      (x.isZero = true → x.neg? = true → exec (.fsqrt a g) s = pushed s 1 0x80000000 pa) ∧
      (x.isZero = false → x.neg? = true → exec (.fsqrt a g) s = pushed s 1 nan pa) ∧
      (x.isNan = true ∨ y.isNan = true →
        exec (.fmin a b g) s = pushed s 1 nan (pa || pb) ∧ exec (.fmax a b g) s = pushed s 1 nan (pa || pb)) ∧
      (x.isZero = true → x.neg? = true → y.isZero = true → y.neg? = false →
        exec (.fmin a b g) s = pushed s 1 0x80000000 (pa || pb) ∧ exec (.fmax a b g) s = pushed s 1 0 (pa || pb)) ∧
      (x.isNan = true → exec (.fabs a g) s = pushed s 1 nan pa))

/-- R180: `ffma` rounds a × b + c once, and `fcvt` converts by its kind; with stochastic rounding each takes one draw of the
actor's generator (R151). -/
def Obligations.FusedAndConvertResults : Prop :=
  ∀ (k : CvtKind) (w : Width) (a b c : Scalar) (dst : Option (Fin 16)) (rnd : Rnd) (sat : Bool) (g : Guard) (s : State)
    (u v z : W64) (pa pb pc : Bool),
    Reads s a u pa → Reads s b v pb → Reads s c z pc → GuardOn s g →
    let draw := if rnd = .sr then drawOf (nextGen s.cur.gen) else 0
    let t := if rnd = .sr then s.setCur { s.cur with gen := nextGen s.cur.gen } else s
    let low := u.setWidth (widthBits w)
    let src : Val := match k with
      | .f2i | .f2u | .f2b | .f2h => dec32 u.toNat
      | .i2f => intV low.toInt
      | .u2f => intV low.toNat
      | .b2f => bf16.decode (u.toNat % 2 ^ 16)
      | .h2f => fp16.decode (u.toNat % 2 ^ 16)
    let to_ : Desc := match k with
      | .f2i => intDesc 5 (widthBits w) true
      | .f2u => intDesc 5 (widthBits w) false
      | .i2f | .u2f | .b2f | .h2f => f32
      | .f2b => bf16
      | .f2h => fp16
    exec (.ffma a b c dst rnd sat g) s = pushedTo t 3 dst
      (BitVec.ofNat 64 (f32.round (((dec32 u.toNat).mul (dec32 v.toNat)).add (rnd == .rd) (dec32 z.toNat)) rnd draw sat))
      (pa || pb || pc) ∧
    exec (.fcvt k w a dst rnd sat g) s = pushedTo t 3 dst (BitVec.ofNat 64 (to_.round src rnd draw sat)) pa

/-- R181, R182, R183: what each comparison and each predicate operation writes, and what `sel` pushes when its guard is true. -/
def Obligations.PredicateResults : Prop :=
  ∀ (w : Width) (cond : Cond) (a b : Scalar) (d pa_ pb_ : Fin 8) (g : Guard) (s : State) (u v : W64) (pa pb : Bool),
    Reads s a u pa → Reads s b v pb → GuardOn s g →
    let x := u.setWidth (widthBits w)
    let y := v.setWidth (widthBits w)
    let fx := dec32 u.toNat
    let fy := dec32 v.toNat
    let sets (n : Nat) (r p : Bool) : Out := ran (s.setCur { past s n with p := s.cur.p.set d.val (r, p) })
    let int : Bool := match cond with
      | .eq => x == y | .ne => x != y | .lt => x.slt y | .ge => !x.slt y | .ltu => x.ult y | .geu => !x.ult y
      | .le => x.sle y | .gt => !x.sle y | .leu => x.ule y | .gtu => !x.ule y | .un | .ord => false
    let nan : Bool := fx.isNan || fy.isNan
    let ord (f : Int → Bool) : Bool := !nan && f (if fx.isZero && fy.isZero then 0 else fx.cmp fy)
    let flt : Bool := match cond with
      | .eq => ord (· == 0) | .ne => !ord (· == 0) | .lt => ord (· < 0) | .ge => ord (0 ≤ ·)
      | .le => ord (· ≤ 0) | .gt => ord (0 < ·) | .un => nan | .ord => !nan | .ltu | .geu | .leu | .gtu => false
    let p := s.cur.pred pa_
    let q := s.cur.pred pb_
    exec (.pset cond w a b d g) s = sets 3 int (pa || pb) ∧
    exec (.psetf cond a b d g) s = sets 3 flt (pa || pb) ∧
    exec (.pand d pa_ pb_) s = sets 1 (p.1 && q.1) (p.2 || q.2) ∧
    exec (.por d pa_ pb_) s = sets 1 (p.1 || q.1) (p.2 || q.2) ∧
    exec (.pxor d pa_ pb_) s = sets 1 (p.1 ^^ q.1) (p.2 || q.2) ∧
    exec (.pnot d pa_) s = sets 1 (!p.1) p.2 ∧
    exec (.sel a b g) s = pushed s 1 v pb

/-- R184, R186, with R185: a branch whose guard holds goes to its own address plus 4 × `off`; `call` and `ret` use the link
stack; `loop` counts `lc` down; `jmpx` goes to its operand.
R185, R186: the ninth call and a return from an empty link stack kill with ILLEGAL, and so does a `jmpx` to a misaligned
offset; a poisoned target kills with POISON, misaligned or not. -/
def Obligations.ControlResults : Prop :=
  (∀ (p : Fin 8) (off : BitVec 18) (a : Scalar) (g : Guard) (s : State) (u : W64),
      let goes (c : Actor) (pc : Nat) : Out := ran (s.setCur { c with pc := pc, retired := s.cur.retired + 1 })
      let target := (((s.cur.pc : Int) + 4 * off.toInt) % 2 ^ 32).toNat
      (GuardOn s ⟨p, false⟩ → exec (.br p off) s = goes s.cur target) ∧
      (GuardOn s ⟨p, true⟩ → exec (.bp p off) s = goes s.cur target) ∧
      (GuardOn s ⟨p, false⟩ → s.cur.ldep < 8 →
        exec (.call p off) s = goes { s.cur with ls := s.cur.ls.set s.cur.ldep (BitVec.ofNat 64 (s.cur.pc + 4)), ldep := s.cur.ldep + 1 } target) ∧
      (GuardOn s ⟨p, false⟩ → ∀ d, s.cur.ldep = d + 1 → exec (.ret p) s = goes { s.cur with ldep := d } (s.cur.ls.getD d 0).toNat) ∧
      (GuardOn s ⟨p, false⟩ → s.cur.lc = 0 → exec (.loop p off) s = ran (s.setCur (past s 1))) ∧
      (GuardOn s ⟨p, false⟩ → s.cur.lc = 1 → exec (.loop p off) s = ran (s.setCur { past s 1 with lc := 0 })) ∧
      (GuardOn s ⟨p, false⟩ → s.cur.lc ≠ 0 → s.cur.lc ≠ 1 →
        exec (.loop p off) s = goes { s.cur with lc := s.cur.lc - 1 } target) ∧
      (GuardOn s g → Reads s a u false → u.toNat % 4 = 0 → exec (.jmpx a g) s = goes s.cur u.toNat)) ∧
  (∀ (p : Fin 8) (off : BitVec 18) (a : Scalar) (g : Guard) (s : State) (u : W64),
      (GuardOn s ⟨p, false⟩ → 8 ≤ s.cur.ldep → exec (.call p off) s = dies s rIllegal) ∧
      (GuardOn s ⟨p, false⟩ → s.cur.ldep = 0 → exec (.ret p) s = dies s rIllegal) ∧
      (GuardOn s g → Reads s a u false → u.toNat % 4 ≠ 0 → exec (.jmpx a g) s = dies s rIllegal) ∧
      (GuardOn s g → Reads s a u true → exec (.jmpx a g) s = dies s rPoison))

/-- R23: an instruction whose guard is false takes none of its effects; for every value that it would push it pushes its first
operand's entry as it stands, ready or not, with its own poison bit.
R173: a poisoned guard predicate kills with POISON whatever its value and whatever `pn`. -/
def Obligations.GuardResults : Prop :=
  (∀ (i : Instr) (g : Guard) (n : Nat) (l : List Scalar) (s : State),
      guardShape i = some (g, n, l) → GuardOff s g → (bootInstr i = true → BootMode s) →
      exec i s = ran (s.setCur { past s n with h := l.foldl (fun h a => readEnt s.cur a :: h.take 15) s.cur.h })) ∧
  (∀ (i : Instr) (g : Guard) (n : Nat) (l : List Scalar) (s : State),
      guardShape i = some (g, n, l) → (s.cur.pred g.p).2 = true → (bootInstr i = true → BootMode s) → exec i s = dies s rPoison)

/-- R171: an instruction that reads an entry which is not ready stalls, with nothing changed; shown of the instructions that read
one operand. -/
def Obligations.UnreadyOperandStalls : Prop :=
  ∀ (w : Width) (a b : Scalar) (g : Guard) (d : Fin 16) (imm : BitVec 12) (s : State) (tok : Nat),
    readEnt s.cur a = .wait tok → GuardOn s g →
    exec (.add w a b g) s = waits s ∧ exec (.clz w a g) s = waits s ∧ exec (.addi a imm) s = waits s ∧
    exec (.keep d a) s = waits s ∧ exec (.dup a g) s = waits s ∧ exec (.fabs a g) s = waits s ∧
    exec (.ld w a g) s = waits s ∧ exec (.st w a b g) s = waits s ∧ exec (.jmpx a g) s = waits s ∧
    exec (.sysrd a g) s = waits s ∧ exec (.await a 0 g) s = waits s

/-- R187, R188: a load at an aligned offset inside the region pushes the little-endian bytes at it, zero-extended or, for `ldx.sx`,
sign-extended, poisoned as their sector is; `ldx` writes `dst` as well. Nothing else changes but the watchpoints that fire (21
R405). -/
def Obligations.LoadResults : Prop :=
  ∀ (w : Width) (a b : Scalar) (disp : W32) (sx : Bool) (dst : Option (Fin 16)) (g : Guard) (s : State) (u v : W64),
    Reads s a u false → Reads s b v false → GuardOn s g → Memory.wf s.mem = true →
    let k := widthBits w / 8
    let at_ (o : W64) : BitVec (widthBits w) :=
      BitVec.ofNat _ (ofBytes ((List.range k).map fun i => Memory.get s.mem (regionKey s.cur + o.toNat + i)))
    let ok (o : W64) : Prop := o.toNat % k = 0 ∧ o.toNat < regionSize s.cur
    let loads (o : W64) (n : Nat) (dst : Option (Fin 16)) (r : W64) : Out :=
      let e : Ent := .val r (s.spoisoned (regionKey s.cur + o.toNat) k)
      ran (s.setCur (Actor.watchBytes { past s n with h := e :: s.cur.h.take 15, s := match dst with | none => s.cur.s | some j => s.cur.s.set j.val e }
        false o.toNat k))
    let o := u + v + disp.signExtend 64
    (ok u → exec (.ld w a g) s = loads u 1 none (wide (at_ u))) ∧
    (ok o → exec (.ldx w a b disp sx dst g) s = loads o 3 dst (if sx then (at_ o).signExtend 64 else wide (at_ o)))

/-- R187, R188: a store at an aligned offset inside the region writes the low bytes of its value there and no other byte; it adds
its value's poison to the sector's bit and never clears one; of the registers it changes only the program counter and the count
of retired instructions, and the watchpoints that fire. -/
def Obligations.StoreResults : Prop :=
  ∀ (w : Width) (a b c : Scalar) (disp : W32) (g : Guard) (s : State) (u v z : W64) (pv pz : Bool),
    Reads s a u false → GuardOn s g → Memory.wf s.mem = true →
    let k := widthBits w / 8
    let ok (o : W64) : Prop := o.toNat % k = 0 ∧ o.toNat < regionSize s.cur
    let stores (i : Instr) (o : W64) (n : Nat) (x : W64) (p : Bool) : Prop :=
      ∃ t, exec i s = ran t ∧ Memory.wf t.mem = true ∧
        (∀ j < k, Memory.get t.mem (regionKey s.cur + o.toNat + j) = x.extractLsb' (8 * j) 8) ∧
        (∀ q, q < regionKey s.cur + o.toNat ∨ regionKey s.cur + o.toNat + k ≤ q → Memory.get t.mem q = Memory.get s.mem q) ∧
        (∀ q, t.spois.contains q = (s.spois.contains q || (p && (regionKey s.cur + o.toNat) / 32 ≤ q && q ≤ (regionKey s.cur + o.toNat + k - 1) / 32))) ∧
        { t with mem := s.mem, spois := s.spois } = s.setCur ((past s n).watchBytes true o.toNat k)
    let o := u + v + disp.signExtend 64
    (Reads s b v pv → ok u → stores (.st w a b g) u 1 v pv) ∧
    (Reads s b v false → Reads s c z pz → ok o → stores (.stx w a b c disp g) o 3 z pz)

/-- R188: at step 4 a poisoned offset kills with POISON, and one that is misaligned or at or above the region size kills with
EXTENT. -/
def Obligations.ScratchpadChecks : Prop :=
  ∀ (w : Width) (a b c : Scalar) (disp : W32) (sx : Bool) (dst : Option (Fin 16)) (g : Guard) (s : State) (u v z : W64)
    (pu pv pz : Bool),
    Reads s a u pu → Reads s b v pv → Reads s c z pz → GuardOn s g →
    let bad (o : W64) : Prop := o.toNat % (widthBits w / 8) ≠ 0 ∨ regionSize s.cur ≤ o.toNat
    let o := u + v + disp.signExtend 64
    (pu = true → exec (.ld w a g) s = dies s rPoison ∧ exec (.st w a b g) s = dies s rPoison) ∧
    ((pu || pv) = true → exec (.ldx w a b disp sx dst g) s = dies s rPoison ∧ exec (.stx w a b c disp g) s = dies s rPoison) ∧
    (pu = false → bad u → exec (.ld w a g) s = dies s rExtent ∧ exec (.st w a b g) s = dies s rExtent) ∧
    ((pu || pv) = false → bad o →
      exec (.ldx w a b disp sx dst g) s = dies s rExtent ∧ exec (.stx w a b c disp g) s = dies s rExtent)

/-- R189: what `sysrd` and `ctrd` push for each number of their tables, and the kill of a number that they do not list. In an
invocation that is neither audited nor a shadow run the value is pushed and nothing else changes; else the log records or gives
it (21 R394, R396).
R189, R190: `syswr` writes `lc`, a format descriptor or the generator (by its seed rule, 06 R150), ignores a write to a
read-only register, and kills for a number that the table does not list; a poisoned number or value kills with POISON. -/
def Obligations.SystemRegisterResults : Prop :=
  (∀ (a : Scalar) (g : Guard) (s : State) (u : W64), Reads s a u false → GuardOn s g →
      let c := s.cur
      let value : Option W64 := match u.toNat with
        | 0x010 => some c.lc
        | 0x011 => some (BitVec.ofNat 64 c.ldep)
        | 0x020 => some (BitVec.ofNat 64 (runCell c))
        | 0x021 => some (BitVec.ofNat 64 (ctxSlot c))
        | 0x022 => some (BitVec.ofNat 64 (jobOf (selfName c)))
        | 0x030 => some (BitVec.ofNat 64 (s.budrem c))
        | 0x031 => some (BitVec.ofNat 64 c.eprio)
        | 0x050 => some c.gen
        | n => if 0x040 ≤ n ∧ n ≤ 0x04F then some (c.fmts.getD (n - 0x040) 0) else none
      let counter : Option W64 := match u.toNat with
        | 0 => some (BitVec.ofNat 64 s.cycle)
        | 1 => some (BitVec.ofNat 64 (s.cycle - c.start))
        | 2 => some (BitVec.ofNat 64 c.retired)
        | 3 => some (BitVec.ofNat 64 c.drops)
        | _ => none
      let ans (r : Option W64) : Out := match r with
        | none => dies s rIllegal
        | some v => if c.audit = none ∧ c.shadow = none then pushed s 1 v false else ran ((s.pushOutside v false).retire 1)
      exec (.sysrd a g) s = ans value ∧ exec (.ctrd a g) s = ans counter) ∧
  (∀ (a b : Scalar) (g : Guard) (s : State) (u v : W64) (pu pv : Bool), Reads s a u pu → Reads s b v pv → GuardOn s g →
      let r : Actor := past s 1
      ((pu || pv) = true → exec (.syswr a b g) s = dies s rPoison) ∧
      (pu = false → pv = false → exec (.syswr a b g) s = match u.toNat with
        | 0x010 => ran (s.setCur { r with lc := v })
        | 0x050 => ran (s.setCur { r with gen := seedGen v })
        | 0x011 | 0x020 | 0x021 | 0x022 | 0x030 | 0x031 => ran (s.setCur r)
        | n => if 0x040 ≤ n ∧ n ≤ 0x04F then ran (s.setCur { r with fmts := s.cur.fmts.set (n - 0x040) v }) else dies s rIllegal))

/-- R191: `nop` does nothing, `brk` stops an actor with a debugger before its next instruction and does nothing otherwise, and
`trap` kills with reason 0xC0 + `imm`. -/
def Obligations.NopBreakTrap : Prop :=
  ∀ (imm : BitVec 12) (k : BitVec 6) (s : State),
    exec .nop s = ran (s.setCur (past s 1)) ∧
    (s.cur.dbg.dbgn = 0 → exec (.brk imm) s = ran (s.setCur (past s 1))) ∧
    (s.cur.dbg.dbgn ≠ 0 → exec (.brk imm) s =
      ran (s.setCur { past s 1 with dbg := { s.cur.dbg with pend := s.cur.dbg.pend ++ [(5, imm.toNat)] } })) ∧
    exec (.trap k) s = dies s (0xC0 + k.setWidth 8)

/-- R192, R193: in boot mode `rpwr` writes a repair-table entry, whose bits 13:0 stay 0, `rprd` pushes one, and `halt` ends the
boot program and gives its status to Astrolabe; an index above 15 and a poisoned index or value kill. -/
def Obligations.BootInstructions : Prop :=
  ∀ (a b : Scalar) (g : Guard) (s : State) (u v : W64) (pu pv : Bool),
    BootMode s → Reads s a u pu → Reads s b v pv → GuardOn s g →
    let entry (t : State) (i : Nat) : W32 := (t.cell s.cur.cell).repair.getD i 0
    ((pu || pv) = true → exec (.rpwr a b g) s = dies s rPoison) ∧
    (pu = true → exec (.rprd a g) s = dies s rPoison) ∧
    (pu = false → pv = false → 16 ≤ u.toNat → exec (.rpwr a b g) s = dies s rIllegal) ∧
    (pu = false → 16 ≤ u.toNat → exec (.rprd a g) s = dies s rIllegal) ∧
    (pu = false → pv = false → u.toNat < 16 → (s.cell s.cur.cell).repair.length = 16 →
      ∃ t, exec (.rpwr a b g) s = ran t ∧ entry t u.toNat = v.setWidth 32 &&& 0xFFFFC000 ∧
        (∀ i ≠ u.toNat, entry t i = entry s i) ∧ t.cur = { past s 1 with name := s.focus }) ∧
    (pu = false → u.toNat < 16 → exec (.rprd a g) s = pushed s 1 ((entry s u.toNat).setWidth 64) false) ∧
    exec (.halt a g) s = ran (s.bootStatus s.cur.cell u pu)

/-- R33: outside boot mode the instructions of major opcode 0x3E kill with ILLEGAL, whatever their guard and operands. -/
def Obligations.BootInstructionsElsewhereKill : Prop :=
  ∀ (i : Instr) (s : State), bootInstr i = true → ¬ BootMode s → exec i s = dies s rIllegal

/-- R197: `tdef` on a handle whose state allows it: its checks in their order, and the entry that it writes. -/
def Obligations.TileDefinitions : Prop :=
  ∀ (d : TileSel) (l0 l1 p : PWord) (rows : BitVec 8) (cols : BitVec 11) (fmt : Fin 16) (bar : Fin 9) (glob : Bool) (s : State)
    (h loc pit : Nat),
    param64 s l0 l1 = .ok loc → param s false p = .ok pit → resolve s.cur true d = .ok h → Definable s h →
    let w : W64 := s.cur.fmts.getD fmt.val 0
    let rb := ceilDiv (cols.toNat * (descOf w).wd) 8
    let n := rows.toNat * rb
    let e : TileEnt := { loc := BitVec.ofNat 56 loc, pitch := BitVec.ofNat 24 pit, rows := rows, cols := cols, fmt := fmt, bar := bar,
                         drn := 0, glob := glob, lu := false, state := .empty }
    let defines : Out := ran (s.setCur ((s.cur.setTile h e).retire 5))
    let x := exec (.tdef d l0 l1 p rows cols fmt bar glob) s
    (validDesc w = false → x = dies s rIllegal) ∧
    (validDesc w = true → 262144 < n → x = dies s rTileBounds) ∧
    (validDesc w = true → n ≤ 262144 → glob = false → x =
      if s.cur.roaming then dies s rExtent
      else if loc % 128 = 0 ∧ loc + n ≤ regionSize s.cur ∧ pit = 0 then defines else dies s rTileBounds) ∧
    (validDesc w = true → n ≤ 262144 → glob = true → x =
      if 2 ^ 56 ≤ loc then dies s rExtent
      else if rb ≤ pit ∧ pit ≤ 2 ^ 24 - 1 then defines else dies s rTileBounds)

/-- R198: `tview` makes a READY handle that names a window of its source, or kills with TILE_BOUNDS. -/
def Obligations.TileViews : Prop :=
  ∀ (d a : TileSel) (row0 : BitVec 7) (col0 : BitVec 10) (rows : BitVec 8) (cols : BitVec 11) (s : State) (h k n : Nat) (f : Desc),
    resolve s.cur true d = .ok h → resolve s.cur false a = .ok k → Definable s h → Readable s k → Sized s k f n →
    let src := tileAt s.cur k
    let loc := src.loc.toNat + row0.toNat * (if src.glob then src.pitch.toNat else ceilDiv (src.cols.toNat * f.wd) 8) +
      col0.toNat * f.wd / 8
    let fits : Prop := row0.toNat + rows.toNat ≤ src.rows.toNat ∧ col0.toNat + cols.toNat ≤ src.cols.toNat ∧
      col0.toNat * f.wd % 8 = 0 ∧ (src.glob = false → loc % 128 = 0 ∧ (1 < rows.toNat → col0 = 0 ∧ cols = src.cols))
    let e : TileEnt := { src with loc := BitVec.ofNat 56 loc, rows := rows, cols := cols, bar := 0, drn := 0, lu := false, state := .ready }
    (fits → exec (.tview d a row0 col0 rows cols) s =
      ran (s.setCur ((s.cur.setTile h e).retire 5))) ∧
    (¬ fits → exec (.tview d a row0 col0 rows cols) s = dies s rTileBounds)

/-- R199: `tfree` clears an entry, and a LATCHED tile leaves the B latch; `tstat` pushes half of an entry whatever its state; `tzero`
hands the vector unit a tile of zeros, for 8 cycles and one for each 256 bytes. -/
def Obligations.HandleResults : Prop :=
  ∀ (d a : TileSel) (hi : Bool) (s : State) (h n : Nat) (f : Desc),
    (resolve s.cur true d = .ok h → Definable s h →
      exec (.tfree d) s = ran (s.setCur ((s.cur.setTile h {}).retire 1))) ∧
    (resolve s.cur true d = .ok h → (tileAt s.cur h).state = .latched →
      exec (.tfree d) s = ran ((s.modCell s.cur.cell fun c => c.leaveLatch s.focus).setCur
        ((s.cur.setTile h {}).retire 1))) ∧
    (resolve s.cur false a = .ok h →
      exec (.tstat a hi) s = gave s 1 (BitVec.ofNat 64 (if hi then tileBits (tileAt s.cur h) / 2 ^ 64 else tileBits (tileAt s.cur h)))) ∧
    (resolve s.cur true d = .ok h → Writable s h → Local s h → Sized s h f n → Unread s (tileAt s.cur h).loc.toNat n →
      (s.cell s.cur.cell).vunit = none →
      let k := regionKey s.cur + (tileAt s.cur h).loc.toNat
      exec (.tzero d) s = ran ((s.setCur (((s.cur.tileState h .filling).watchOp true h).retire 1)).startV
        (8 + ceilDiv n 256) { writes := [(k, List.replicate n 0)], pclr := cleanSectors k n [], ready := [h] })) ∧
    (resolve s.cur true d = .ok h → Writable s h → ¬ Local s h → exec (.tzero d) s = dies s rExtent)

/-- 05 R117: what each state of a tile does to an instruction that fills it, reads it, defines it or frees it. -/
def Obligations.TileStateChecks : Prop :=
  ∀ (d a : TileSel) (row0 : BitVec 7) (col0 : BitVec 10) (rows : BitVec 8) (cols : BitVec 11) (s : State) (h k : Nat),
    resolve s.cur true d = .ok h → resolve s.cur false a = .ok k →
    let v := exec (.tview d a row0 col0 rows cols) s
    let e := tileAt s.cur h
    (e.state = .free ∨ e.state = .latched → exec (.tzero d) s = dies s rTileState) ∧
    (e.state = .filling ∨ e.state = .draining → exec (.tzero d) s = waits s ∧ exec (.tfree d) s = waits s ∧ v = waits s) ∧
    (e.state = .given → exec (.tzero d) s = dies s rGivenTile ∧ (e.drn ≠ 0 → exec (.tfree d) s = waits s ∧ v = waits s)) ∧
    (e.state = .latched → v = dies s rTileState) ∧
    (Definable s h →
      ((tileAt s.cur k).state = .free ∨ (tileAt s.cur k).state = .empty ∨ (tileAt s.cur k).state = .latched → v = dies s rTileState) ∧
      ((tileAt s.cur k).state = .filling → v = waits s) ∧
      ((tileAt s.cur k).state = .given → v = dies s rGivenTile))

/-- 05 R126: a slot of a ring resolves from the producer index as a destination and from the consumer index anywhere else; a ring
that is not defined kills. -/
def Obligations.TileSelectors : Prop :=
  ∀ (n k : Fin 4) (t : Fin 32) (a : Actor) (dst : Bool),
    let r := a.rings.getD n.val {}
    resolve a dst (.t t) = .ok t.val ∧
    (r.def_ = true → resolve a true (.q n k) = .ok (r.first + (r.pidx + k.val) % r.count) ∧
      resolve a false (.q n k) = .ok (r.first + (r.cidx + k.val) % r.count)) ∧
    (r.def_ = false → ∀ (d : TileSel) (s : State), s.cur = a → exec (.tfree (.q n k)) s = dies s rTileState ∧
      exec (.tstat (.q n k) false) s = dies s rTileState)

/-- R209, R210: `rdef` defines a cursor with both indices 0, `radv` moves one index modulo the count, and `rwait` passes, waits or
kills as the slot's state says; both kill with TILE_STATE on a cursor that is not defined. -/
def Obligations.RingResults : Prop :=
  ∀ (d : Fin 4) (first : Fin 28) (count : Fin 9) (cons : Bool) (step : Fin 64) (k : Fin 8) (s : State),
    let r := s.cur.rings.getD d.val {}
    let sets (q : Ring) : Out := ran (s.setCur { past s 1 with rings := s.cur.rings.set d.val q })
    let st := (tileAt s.cur (r.first + ((if cons then r.cidx else r.pidx) + k.val) % r.count)).state
    exec (.rdef d first count) s = sets { def_ := true, first := first.val, count := count.val, pidx := 0, cidx := 0 } ∧
    (r.def_ = true → exec (.radv d cons step) s =
      sets (if cons then { r with cidx := (r.cidx + step.val) % r.count } else { r with pidx := (r.pidx + step.val) % r.count })) ∧
    (r.def_ = true → exec (.rwait d cons k) s = match st, cons with
      | .ready, true | .draining, true | .empty, false => ran (s.setCur (past s 1))
      | .draining, false | .filling, _ => waits s
      | .given, _ => dies s rGivenTile
      | _, _ => dies s rTileState) ∧
    (r.def_ = false → exec (.radv d cons step) s = dies s rTileState ∧ exec (.rwait d cons k) s = dies s rTileState)

/-- R212: what each barrier instruction does to a barrier. -/
def Obligations.BarrierResults : Prop :=
  ∀ (d : Fin 8) (a : Scalar) (hi b : Bool) (s : State) (v : W64),
    let x := s.cur.bars.getD d.val {}
    let sets (q : Barrier) : Out := ran (s.setCur { past s 1 with bars := s.cur.bars.set d.val q })
    (Reads s a v true → exec (.binit d a) s = dies s rPoison ∧ exec (.bexp d a) s = dies s rPoison ∧
      exec (.bwait d a b) s = dies s rPoison) ∧
    (Reads s a v false →
      exec (.binit d a) s = (if x.count ≠ 0 ∨ x.infl ≠ 0 then dies s rBarrierBusy else sets { x with count := v, phase := false }) ∧
      exec (.bexp d a) s = sets { x with count := x.count + v, phase := if x.count + v = 0 then !x.phase else x.phase } ∧
      exec (.bwait d a b) s = if x.phase = (v.getLsbD 0 ^^ b) then waits s else ran (s.setCur (past s 1))) ∧
    exec (.bstat d hi) s = gave s 1 (if hi then x.count else BitVec.ofNat 64 (x.infl % 128 * 2 + x.phase.toNat))

/-- 05 R118, R123; 09 R204, R205: `tcopy` between two tiles of one size makes the destination FILLING and the source DRAINING, counts
the transfer at the destination's barrier, and leaves the copy to the copy engine; one handle for both kills with TILE_STATE, and
tiles of different sizes kill with TILE_BOUNDS. -/
def Obligations.LocalCopyIssues : Prop :=
  ∀ (to_ from_ : TileSel) (lu : Bool) (s : State) (h k n m : Nat) (f g : Desc),
    resolve s.cur true to_ = .ok h → resolve s.cur false from_ = .ok k → Writable s h → Readable s k → Local s h → Local s k →
    s.cur.roaming = false → Sized s h f n → Sized s k g m →
    (h = k → exec (.tcopy to_ from_ lu) s = dies s rTileState) ∧
    (h ≠ k → n ≠ m → exec (.tcopy to_ from_ lu) s = dies s rTileBounds) ∧
    (h ≠ k → n = m → Unread s (tileAt s.cur h).loc.toNat n → (s.cell (runCell s.cur)).outstanding < 32 →
      let bars := barOf (tileAt s.cur h).bar
      let x : Xfer := { id := s.nextId, kind := .copy, actor := s.focus, inv := s.cur.invNo, dst := some h, src := some k,
                        soff := (tileAt s.cur k).loc.toNat, doff := (tileAt s.cur h).loc.toNat, bytes := n, bars := bars }
      let a := ((s.cur.tileState h .filling).inflight bars).drain k
      let a := if lu then a.setTile k { tileAt a k with lu := true } else a
      let t := s.freshId.setCur (((a.watchOp true h).watchOp false k).retire 5)
      exec (.tcopy to_ from_ lu) s = ran ((t.addXfer t.cur.cell x).post 0 .outboundReadDone { n := t.cur.cell, m := s.nextId }))

/-- 05 R118, R121 to R123; 09 R203, R204: a `tfetch` whose pattern has the tile's size and whose footprint has its answers makes the
tile FILLING, and the global source tile of `.gt` DRAINING, counts the transfer at the tile's barrier, leaves each piece that
has its address to the copy engine, and holds the other pieces. -/
def Obligations.FetchIssues : Prop :=
  ∀ (c : CopyArgs) (s : State) (g p2 h n : Nat) (gh : Option Nat) (f : Desc) (r : Pattern) (ls : List Look),
    param64 s c.p0 c.p1 = .ok g → param s false c.p2 = .ok p2 → resolve s.cur true c.tile = .ok h → globalTile s false c.gf = .ok gh →
    Writable s h → (∀ k, gh = some k → ¬ Local s k ∧ Readable s k ∧ validDesc (descVal s.cur (tileAt s.cur k)) = true) →
    Local s h → s.cur.roaming = false → Sized s h f n → Unread s (tileAt s.cur h).loc.toNat n → EngineFree s → s.cur.shadow = none →
    (c.gf = .g4 → patternRecord s g p2 = .ok r) →
    let q := tileAt s.cur (gh.getD 0)
    let p : Pattern := match c.gf with
      | .g2 => { g := g, n0 := rowBytes (tileAt s.cur h).cols.toNat f.wd, n1 := (tileAt s.cur h).rows.toNat, s1 := signed 32 p2 }
      | .g4 => r
      | .gt _ => { g := q.loc.toNat, n0 := rowBytes q.cols.toNat (descOf (descVal s.cur q)).wd, n1 := q.rows.toNat, s1 := q.pitch.toNat }
    let acq := c.sem == .acq
    let vas := p.split.map (·.va)
    (p.total ≠ n → exec (.tfetch c) s = dies s rTileBounds) ∧
    (p.total = n → lookAll s s.cur (.fetch acq) vas = .ok ls → (∀ l ∈ ls, l ≠ .miss ∧ l ≠ .waiting) →
      let bars := barOf (tileAt s.cur h).bar
      let ps := (p.split.zip ls).map fun q => { q.1 with pa := match q.2 with | .hit pa _ => some pa | _ => none }
      let x : Xfer := { id := s.nextId, kind := .fetch, actor := s.focus, inv := s.cur.invNo, dst := some h, src := gh,
                        soff := (tileAt s.cur h).loc.toNat, bytes := n, bars := bars, pieces := ps, held := ps.filter (·.pa.isNone), acq := acq }
      let a := (({ s.cur.touch s.tick ls with name := s.focus } : Actor).tileState h .filling).inflight bars
      let a := match gh with
        | some k => let b := a.drain k; if c.lu then b.setTile k { tileAt b k with lu := true } else b
        | none => a
      let t := s.freshId.setCur ((a.watchOp true h).retire 5)
      let t := t.setCur (t.cur.addOut (outOf t x.id .fetch acq (ps.map (·.va))))
      let t := t.logIn t.cur (.bytes x.id (List.replicate n 0))
      let cell := runCell t.cur
      exec (.tfetch c) s = ran ((t.addXfer cell x).addFetches cell x (ps.filter (·.pa.isSome))))

/-- 05 R118, R121 to R123; 09 R203, R204: a `twrite` whose footprint has its answers makes its source DRAINING, and the global
destination tile of `.gt` FILLING, counts the transfer at its barriers, and leaves its pieces to the copy engine. The pieces
without an address, and all of them behind a pending entry of their pages, go to the side log (04 R104, R106). A `.rel` waits for
what a fence of its scope would wait for. -/
def Obligations.WriteIssues : Prop :=
  ∀ (c : CopyArgs) (s : State) (g p2 h n : Nat) (gh : Option Nat) (f : Desc) (r : Pattern) (ls : List Look),
    param64 s c.p0 c.p1 = .ok g → param s false c.p2 = .ok p2 → globalTile s true c.gf = .ok gh → resolve s.cur false c.tile = .ok h →
    Readable s h → (∀ k, gh = some k → ¬ Local s k ∧ Writable s k ∧ validDesc (descVal s.cur (tileAt s.cur k)) = true) →
    Local s h → s.cur.roaming = false → Sized s h f n → EngineFree s → (s.cell (runCell s.cur)).logged < 32 → s.cur.shadow = none →
    (c.gf = .g4 → patternRecord s g p2 = .ok r) →
    let q := tileAt s.cur (gh.getD 0)
    let p : Pattern := match c.gf with
      | .g2 => { g := g, n0 := rowBytes (tileAt s.cur h).cols.toNat f.wd, n1 := (tileAt s.cur h).rows.toNat, s1 := signed 32 p2 }
      | .g4 => r
      | .gt _ => { g := q.loc.toNat, n0 := rowBytes q.cols.toNat (descOf (descVal s.cur q)).wd, n1 := q.rows.toNat, s1 := q.pitch.toNat }
    let vas := p.split.map (·.va)
    (p.total ≠ n → exec (.twrite c) s = dies s rTileBounds) ∧
    (p.total = n → c.sem = .rel → s.cur.relReady c.sc = false → exec (.twrite c) s = waits s) ∧
    (p.total = n → (c.sem = .rel → s.cur.relReady c.sc = true) → lookAll s s.cur .write vas = .ok ls → (∀ l ∈ ls, l ≠ .miss ∧ l ≠ .waiting) →
      let a := ({ s.cur.touch s.tick ls with name := s.focus } : Actor)
      let late := behind (s.setCur a) vas
      let ps := (p.split.zip ls).map fun q => { q.1 with pa := if late then none else match q.2 with | .hit pa _ => some pa | _ => none }
      let bars := barOf c.wbar ++ (match gh with | some k => barOf (tileAt s.cur k).bar | none => [])
      let x : Xfer := { id := s.nextId, kind := .write, actor := s.focus, inv := s.cur.invNo, dst := gh, src := some h,
                        soff := (tileAt s.cur h).loc.toNat, bytes := n, bars := bars, pieces := ps.filter (·.pa.isSome), held := ps.filter (·.pa.isNone) }
      let a := match gh with | some k => a.tileState k .filling | none => a
      let a := (a.inflight bars).drain h
      let a := if c.lu then a.setTile h { tileAt a h with lu := true } else a
      let t := s.freshId.setCur ((a.watchOp false h).retire 5)
      let t := t.logOut t.cur (outRecord p.g (t.bytes (tileKey t.cur (tileAt s.cur h)) n))
      let t := t.setCur (t.cur.addOut (outOf t x.id .write false vas))
      let cell := runCell t.cur
      let t := t.addXfer cell x
      let t := if x.pieces.isEmpty then t else t.post 0 .outboundReadDone { n := cell, m := x.id }
      exec (.twrite c) s = ran (if x.held.isEmpty then t else
        (t.sideAdd cell { actor := t.focus, inv := t.cur.invNo, id := x.id, kind := .wr, pieces := x.held, targets := vas.map (pageOf (t.image t.cur)) }).post 0 .sideLogReplay { n := cell, actor := t.focus }))

/-- 05 R118, R123; 09 R203, R204: `tgath` makes its destination FILLING and `tscat` its source DRAINING; both make their index tile
DRAINING, count their transfer at its barrier, and leave the index tile to the copy engine. The index tile's format must be INT32,
and it must have an element for every row. -/
def Obligations.IndexedCopiesIssue : Prop :=
  ∀ (c : CopyArgs) (ix : TileSel) (s : State) (g st h i n m : Nat) (f fi : Desc),
    param64 s c.p0 c.p1 = .ok g → param s false c.p2 = .ok st → resolve s.cur false ix = .ok i → Readable s i → Local s h → Local s i →
    s.cur.roaming = false → i ≠ h → Sized s h f n → Sized s i fi m → EngineFree s → s.cur.shadow = none →
    let rows := (tileAt s.cur h).rows.toNat
    let elems := (tileAt s.cur i).rows.toNat * (tileAt s.cur i).cols.toNat
    let x : Xfer := { id := s.nextId, actor := s.focus, inv := s.cur.invNo, ix := some i, soff := (tileAt s.cur h).loc.toNat,
                      doff := (tileAt s.cur i).loc.toNat, bytes := n, k := rows, toRead := 1, g := g, stride := signed 32 st }
    (resolve s.cur true c.tile = .ok h → Writable s h →
      (fi.cls ≠ 4 → exec (.tgath c ix) s = dies s rIllegal) ∧
      (fi.cls = 4 → elems < rows → exec (.tgath c ix) s = dies s rTileBounds) ∧
      (fi.cls = 4 → rows ≤ elems → Unread s (tileAt s.cur h).loc.toNat n →
        let x : Xfer := { x with kind := .gather, dst := some h, bars := barOf (tileAt s.cur h).bar }
        let a := (((((s.cur.tileState h .filling).inflight x.bars).drain i).watchOp true h).watchOp false i).retire 5
        let t := s.freshId.setCur a
        let t := t.setCur (t.cur.addOut (indexedOut x.id .fetch (c.sem == .acq)))
        let t := t.logIn t.cur (.bytes x.id (List.replicate n 0))
        exec (.tgath c ix) s = ran ((t.addXfer t.cur.cell x).post 0 .outboundReadDone { n := t.cur.cell, m := s.nextId }))) ∧
    (resolve s.cur false c.tile = .ok h → Readable s h →
      (fi.cls ≠ 4 → exec (.tscat c ix) s = dies s rIllegal) ∧
      (fi.cls = 4 → elems < rows → exec (.tscat c ix) s = dies s rTileBounds) ∧
      (fi.cls = 4 → rows ≤ elems → (c.sem = .rel → s.cur.relReady c.sc = true) → (s.cell (runCell s.cur)).logged < 32 →
        let x : Xfer := { x with kind := .scatter, src := some h, bars := barOf c.wbar }
        let a := ((s.cur.inflight x.bars).drain h).drain i
        let a := if c.lu then a.setTile h { tileAt a h with lu := true } else a
        let t := s.freshId.setCur (((a.watchOp false h).watchOp false i).retire 5)
        let t := t.logOut t.cur (outRecord g (t.bytes (tileKey t.cur (tileAt s.cur h)) n))
        let t := t.setCur (t.cur.addOut (indexedOut x.id .write false))
        exec (.tscat c ix) s = ran ((t.addXfer t.cur.cell x).post 0 .outboundReadDone { n := t.cur.cell, m := s.nextId })))

/-- R235, R236: what `mclr`, `mlda`, `mldb`, `mldb.rl` and `mtr` leave in an accumulator or a latch once nothing holds them back: the
semiring's identity in every element; the tile's elements, poison, shape and descriptor value, or for `mtr` its transpose. The plain
forms bind to the invocation, the relay form makes a READY handle LATCHED and waits for a DRAINING one. The matrix unit is occupied for one cycle, or one for each
512 bytes. -/
def Obligations.LatchesLoad : Prop :=
  ∀ (acc : Fin 4) (sr : SemiRing) (a : TileSel) (lat lu : Bool) (s : State) (h n : Nat) (f : Desc),
    s.cur.roaming = false → (s.cell s.cur.cell).munit = none →
    let c := s.cell s.cur.cell
    let me : ActorName × Nat := (s.focus, s.cur.invNo)
    (((c.accs.getD acc.val {}).bind = none ∨ (c.accs.getD acc.val {}).bind = some me) → (c.accs.getD acc.val {}).busy = false →
      exec (.mclr acc sr) s = ran (((s.setAcc acc { fill := match sr with | .pt | .orand => 0 | .minp => 0x7F800000 | .maxp | .maxt => 0xFF800000 }).retire 1).startM
        1 { accs := [acc.val] })) ∧
    (resolve s.cur false a = .ok h → Local s h → Readable s h → Sized s h f n → f.cls = 0 ∨ f.cls = 2 ∨ f.cls = 3 ∨ f.cls = 6 →
      (tileAt s.cur h).rows.toNat ≤ 128 → (tileAt s.cur h).cols.toNat ≤ 128 →
      let e := tileAt s.cur h
      let m := s.readMat (regionKey s.cur + e.loc.toNat) e.rows.toNat e.cols.toNat f.wd
      let plain := latchOf e.rows.toNat e.cols.toNat (descVal s.cur e) m
      let turned := latchOf e.cols.toNat e.rows.toNat (descVal s.cur e) (transpose e.cols.toNat m)
      let loads (g : Cell → Cell) (a : Actor) (rl : Bool) : Out :=
        ran (((s.modCell s.cur.cell g).setCur a).startM (ceilDiv n 512) { holds := [(e.loc.toNat, n)], readsLb := rl })
      let marked := ((s.cur.watchOp false h).retire 1).lastUses [(lu, h)]
      let aFree : Prop := c.laBind = none ∨ c.laBind = some me
      let bFree : Prop := (c.lbBind = none ∨ c.lbBind = some me) ∧ c.lbOwner = 0 ∧ s.focus ≠ 0 ∧ latchedOf s.cur = none
      (aFree → exec (.mlda a lu) s = loads (fun c => { c with la := plain, laBind := some me }) marked false) ∧
      (bFree → exec (.mldb a false lu) s = loads (fun c => { c with lb := plain, lbBind := some me }) marked false) ∧
      (bFree → (s.cohortOf (selfName s.cur)).any (fun c => c.shape != .any) = true → e.state = .draining →
        exec (.mldb a true false) s = waits s) ∧
      (bFree → (s.cohortOf (selfName s.cur)).any (fun c => c.shape != .any) = true → e.state = .ready →
        exec (.mldb a true false) s = loads (fun c => { c with lb := plain, lbBind := none, lbOwner := s.focus, lbSrc := 0 })
          (((s.cur.watchOp false h).retire 1).tileState h .latched) true) ∧
      (f.sgeo ≠ 1 → f.sgeo ≠ 2 →
        (aFree → exec (.mtr a false lu) s = loads (fun c => { c with la := turned, laBind := some me }) marked false) ∧
        (bFree → exec (.mtr a true lu) s = loads (fun c => { c with lb := turned, lbBind := some me }) marked false)))

/-- R238: `mrelay` gives the LATCHED tile to a seated member of its actor's cohort: the handle is GIVEN, the buffer goes to the copy
engine, and the outbox takes the message; without a LATCHED tile it kills with TILE_STATE, and for any other name with EXTENT. -/
def Obligations.RelayLeaves : Prop :=
  ∀ (a b : Scalar) (s : State) (peer v : W64) (h : Nat), s.cur.roaming = false → Reads s a peer false → Reads s b v false →
    let self := selfName s.cur
    let member (c : Cohort) : Prop :=
      pkgOf peer = pkgOf self ∧ jobOf peer = c.job ∧ c.serial ≤ serialOf peer ∧ serialOf peer < c.serial + c.n ∧ (s.actor peer).roaming = false
    (latchedOf s.cur = none → exec (.mrelay a b) s = dies s rTileState) ∧
    (latchedOf s.cur = some h → (∀ c, s.cohortOf self = some c → ¬ member c) → exec (.mrelay a b) s = dies s rExtent) ∧
    (latchedOf s.cur = some h → ∀ c, s.cohortOf self = some c → member c → (s.cell (runCell s.cur)).outstanding < 32 →
      let e := s.cell s.cur.cell
      let m : Msg := { dest := peer, sender := self, chan := 1, plen := 1, m := [v, 0, 0, 0], caps := [{ capOf (tileAt s.cur h) with loc := 0 }] }
      let g := s.cur.tileState h .given
      let t : Actor := { g with outbox := g.outbox ++ [.relay m s.nextId] }
      ovfFits t = true → s.cur.shadow = none →
      exec (.mrelay a b) s = ran (((((s.freshId.setCur (t.addOut { id := s.nextId, kind := .give })).addXfer s.cur.cell
        { id := s.nextId, kind := .relay, actor := s.focus, inv := t.invNo, bytes := e.lb.rows * rowBytes e.lb.cols (descOf e.lb.desc).wd,
          dest := peer, latch := e.lb, toRead := 1 }).post 0 .relaySend { n := s.cur.cell, m := s.nextId })).retire 1))

/-- R241, R242, R243: an accumulation adds the chunk values of 07 R158 to R161, or a source's elements, under its semiring, and a store
rounds a window of the accumulator into a tile, once nothing holds them back; the unit is occupied, and its sources are held,
for the cycles of R244. -/
def Obligations.MatrixResults : Prop :=
  ∀ (acc : Fin 4) (s : State), s.cur.roaming = false → (s.cell s.cur.cell).munit = none →
    let c := s.cell s.cur.cell
    let me : ActorName × Nat := (s.focus, s.cur.invNo)
    let free (k : Fin 4) : Prop := ((c.accs.getD k.val {}).bind = none ∨ (c.accs.getD k.val {}).bind = some me) ∧ (c.accs.getD k.val {}).busy = false
    free acc →
    (∀ (a : OpA) (b : OpB) (sa sb : Option TileSel) (sr : SemiRing) (la lb : Bool) (ha hb hsa hsb : Option Nat),
      resolveOpt s.cur (tileSelOf a) = .ok ha → resolveOpt s.cur (tileSelOfB b) = .ok hb →
      resolveOpt s.cur sa = .ok hsa → resolveOpt s.cur sb = .ok hsb →
      (∀ h ∈ ha.toList ++ hb.toList ++ hsa.toList ++ hsb.toList, Local s h ∧ Readable s h ∧ ∃ f n, Sized s h f n) →
      (ha = none → c.laBind = some me ∧ c.la.loaded = true) →
      (hb = none → c.lbBind = some me ∧ c.lb.loaded = true ∧ (c.lbOwner = 0 ∨ c.lbOwner = s.focus)) →
      let oa := ha.elim (latchOp c.la) (tileOp s)
      let ob := hb.elim (latchOp c.lb) (tileOp s)
      let da := descOf oa.desc
      let db := descOf ob.desc
      validDesc oa.desc = true → validDesc ob.desc = true → srAdmits sr da = true → srAdmits sr db = true →
      oa.rows ≤ 128 → oa.cols ≤ 128 → ob.cols ≤ 128 → ob.rows = oa.cols →
      let scales (d : Desc) (h : Option Nat) (rows cols : Nat) : List (Nat × Bool) :=
        h.elim [] fun k => scaleBytes s k (d.scaleCount rows cols)
      let enough (d : Desc) (h : Option Nat) (rows cols : Nat) : Prop :=
        ∀ k, h = some k → d.sgeo ≠ 0 ∧ d.scaleCount rows cols ≤ tileSize (tileAt s.cur k) (descOf (descVal s.cur (tileAt s.cur k)))
      let reads := ha.toList ++ hb.toList ++ hsa.toList ++ hsb.toList
      let held (read : Nat) : List (Nat × Nat × Nat) := ((oa.hold.toList ++ ob.hold.toList).map fun h => (h.1, h.2, s.cycle + read)) ++
        (hsa.toList ++ hsb.toList).map fun h => ((tileAt s.cur h).loc.toNat, tileSize (tileAt s.cur h) (descOf (descVal s.cur (tileAt s.cur h))), s.cycle + 2)
      let adds (za zb : List (Nat × Bool)) (read : Nat) : Out :=
        ran (((s.setAcc acc ((accAt s acc).accumulate sr (chunks sr oa ob za zb))).setCur
          (((reads.foldl (fun (q : Actor) h => q.watchOp false h) s.cur).retire 3).lastUses ((ha.toList.map fun h => (la, h)) ++ hb.toList.map fun h => (lb, h)))).startM
          (read + 4) { brief := held read, accs := [acc.val], readsLb := hb.isNone })
      (sa = none → sb = none → exec (.mma acc a b sr la lb) s = adds [] [] (arrayCycles (max da.wd db.wd))) ∧
      (sr = .pt → enough da hsa oa.rows oa.cols → enough db hsb ob.rows ob.cols →
        exec (.mmas acc a b sa sb sr la lb) s = adds (scales da hsa oa.rows oa.cols) (scales db hsb ob.rows ob.cols) (arrayCycles (max da.wd db.wd) + 1))) ∧
    (∀ (sr : SemiRing) (la : Bool) (k : Fin 4), free k →
      let v := ((accAt s k).window 0 0 128 128).map fun r => r.map fun x => (dec32 x.1.toNat, x.2)
      exec (.macc acc (.acc k) sr la) s = ran ((((if k = acc then s else s.setAcc k (accAt s k)).setAcc acc ((accAt s acc).accumulate sr v)).retire 3).startM
        132 { accs := [acc.val, k.val] })) ∧
    (∀ (sr : SemiRing) (la : Bool) (a : TileSel) (h n : Nat) (f : Desc), resolve s.cur false a = .ok h → Local s h → Readable s h →
      Sized s h f n → 1 ≤ f.cls → f.cls ≤ 3 → (tileAt s.cur h).rows.toNat ≤ 128 → (tileAt s.cur h).cols.toNat ≤ 128 →
      exec (.macc acc (.tile a) sr la) s = ran (((s.setAcc acc ((accAt s acc).accumulate sr ((tileOp s h).vals [] false))).setCur
        (((s.cur.watchOp false h).retire 3).lastUses [(la, h)])).startM ((tileAt s.cur h).rows.toNat + 4)
          { brief := [((tileAt s.cur h).loc.toNat, n, s.cycle + (tileAt s.cur h).rows.toNat)], accs := [acc.val] })) ∧
    ∀ (to_ : TileSel) (row0 col0 : BitVec 7) (clr sat : Bool) (rnd : Rnd) (h n : Nat) (f : Desc), resolve s.cur true to_ = .ok h →
      Local s h → Writable s h → Sized s h f n → (1 ≤ f.cls ∧ f.cls ≤ 4) ∨ (f.cls = 0 ∧ f.sgeo = 0) →
      let rows := (tileAt s.cur h).rows.toNat
      let cols := (tileAt s.cur h).cols.toNat
      row0.toNat + rows ≤ 128 → col0.toNat + cols ≤ 128 → Unread s (tileAt s.cur h).loc.toNat n →
      let m := roundMat f rnd sat s.cur.gen (((accAt s acc).window row0.toNat col0.toNat rows cols).map fun r => r.map fun x => (dec32 x.1.toNat, x.2))
      ∃ b, exec (.mst acc to_ row0 col0 clr sat rnd) s = ran (((s.setAcc acc b).setCur
          (((({ s.cur with gen := m.2 } : Actor).tileState h .filling).watchOp true h).retire 5)).startM (ceilDiv n 512)
            { writeJob s h m.1 with accs := [acc.val] }) ∧
        (clr = false → b = accAt s acc) ∧
        (clr = true → b.elts = ((accAt s acc).write (((List.range rows).map fun i => (List.range cols).map fun j =>
          (128 * (row0.toNat + i) + col0.toNat + j, (0 : W32))).flatten)).elts ∧ b.fill = (accAt s acc).fill ∧
          ∀ k, k ∈ b.pois ↔ k ∈ (accAt s acc).pois ∧
            ¬ (row0.toNat ≤ k / 16 ∧ k / 16 < row0.toNat + rows ∧ col0.toNat ≤ 8 * (k % 16) ∧ 8 * (k % 16) + 8 ≤ col0.toNat + cols))

/-- R249, R250: the element-wise float operations. Each computes its exact result (the six functions of R250 the nearest FP32 value)
and rounds it once into the destination; `xs` takes x in every element of b; a poisoned element poisons the result. -/
def Obligations.VectorArithmetic : Prop :=
  ∀ (d a b : TileSel) (e : VExt) (s : State) (x : W64) (p : Bool) (hd ha : Nat) (hb : Option Nat),
    VecValue s e x p → resolve s.cur true d = .ok hd → resolve s.cur false a = .ok ha → VecB s e b hb →
    (∀ h ∈ hd :: ha :: hb.toList, FloatTile s h ∧ shapeOf s h = shapeOf s hd) → ¬ ScaledTile s hd →
    let rounds (m : List (List PVal)) := roundMat (fmtOf s hd) e.rnd e.sat s.cur.gen m
    let va := valsOf s ha
    let vb := hb.elim (fillMat (shapeOf s hd) (dec32 x.toNat, p)) (valsOf s)
    let two (slow : Bool) (f : Val → Val → Val) := vecRuns s e slow hd (some ha) hb none 0 (rounds (zipP f va vb))
    let one (slow : Bool) (f : Val → Val) := vecRuns s e slow hd (some ha) none none 0 (rounds (mapP f va))
    let sum := Val.add (e.rnd == .rd)
    (VecOk s hd (ha :: hb.toList) →
      exec (.vadd d a b e) s = two false sum ∧ exec (.vsub d a b e) s = two false (fun v w => sum v w.negate) ∧
      exec (.vmul d a b e) s = two false Val.mul ∧ exec (.vdiv d a b e) s = two true Val.div ∧
      exec (.vmin d a b e) s = two false Val.min ∧ exec (.vmax d a b e) s = two false Val.max) ∧
    (∀ hc, resolve s.cur false e.c = .ok hc → VecOk s hd (ha :: hb.toList ++ [hc]) → FloatTile s hc → shapeOf s hc = shapeOf s hd →
      exec (.vfma d a b e) s = vecRuns s e false hd (some ha) hb (some hc) 0 (rounds (zipP sum (zipP Val.mul va vb) (valsOf s hc)))) ∧
    (VecOk s hd [ha] →
      exec (.vabs d a e) s = one false Val.abs ∧ exec (.vneg d a e) s = one false Val.negate ∧
      exec (.vexp d a e) s = one true (fun v => dec32 (Fn.exp.at32 v)) ∧ exec (.vexp2 d a e) s = one true (fun v => dec32 (Fn.exp2.at32 v)) ∧
      exec (.vlog d a e) s = one true (fun v => dec32 (Fn.log.at32 v)) ∧ exec (.vrcp d a e) s = one true (fun v => Val.div oneV v) ∧
      exec (.vrsqrt d a e) s = one true Val.rsqrt ∧ exec (.vsqrt d a e) s = one true Val.sqrt ∧
      exec (.vtanh d a e) s = one true (fun v => dec32 (Fn.tanh.at32 v)) ∧ exec (.vsigm d a e) s = one true (fun v => dec32 (Fn.sigm.at32 v)) ∧
      exec (.verf d a e) s = one true (fun v => dec32 (Fn.erf.at32 v)))

/-- R251, R252: compares write 1 or 0 by the condition in `fx`, selects choose by a mask whose NaN elements count as true, and the
reductions combine rows or columns in the orders of 07 R165, integers wrapping modulo 2^32; a result is poisoned when an element that
it combines is. -/
def Obligations.VectorComparesAndReductions : Prop :=
  ∀ (d a b : TileSel) (e : VExt) (s : State) (x : W64) (p : Bool) (hd ha : Nat) (hb : Option Nat),
    VecValue s e x p → resolve s.cur true d = .ok hd → resolve s.cur false a = .ok ha → ¬ ScaledTile s hd →
    let rounds (m : List (List PVal)) := roundMat (fmtOf s hd) e.rnd e.sat s.cur.gen m
    let va := valsOf s ha
    let ia := intsOf s ha
    let vb := hb.elim (fillMat (shapeOf s hd) (dec32 x.toNat, p)) (valsOf s)
    let ib := hb.elim (fillMat (shapeOf s hd) (signed 32 (x.toNat % 2 ^ 32), p)) (intsOf s)
    let c := condOfNum e.fx.val
    (VecB s e b hb → (∀ h ∈ ha :: hb.toList, shapeOf s h = shapeOf s hd) →
      (VecOk s hd (ha :: hb.toList) → (∀ h ∈ ha :: hb.toList, FloatTile s h) → c ∉ [.ltu, .geu, .leu, .gtu] →
        exec (.vcmp d a b e) s = vecRuns s e false hd (some ha) hb none 0
          (mapP (boolCode (fmtOf s hd)) (zipP (compareFloat c) va vb), s.cur.gen)) ∧
      (VecOk s hd (ha :: hb.toList) → (∀ h ∈ ha :: hb.toList, IntTile s h) → c ∉ [.un, .ord] →
        exec (.vcmp d a b e) s = vecRuns s e false hd (some ha) hb none 0
          (mapP (boolCode (fmtOf s hd)) (zipP (fun v w => compareInt c v w (v % 2 ^ 32).toNat (w % 2 ^ 32).toNat) ia ib), s.cur.gen)) ∧
      ∀ hc, resolve s.cur false e.c = .ok hc → shapeOf s hc = shapeOf s hd → (∀ h ∈ ha :: hb.toList, FloatTile s h) →
        VecOk s hd (ha :: hb.toList ++ [hc]) → exec (.vsel d a b e) s = vecRuns s e false hd (some ha) hb (some hc) 0
          (rounds (zipP (fun m (q : Val × Val) => if m.isZero then q.2 else q.1) (valsOf s hc) (zipP Prod.mk va vb)))) ∧
    (VecOk s hd [ha] →
      let runs (m : List (List PVal)) := vecRuns s e false hd (some ha) none none 0 (rounds m)
      let puts (m : List (List (Int × Bool))) := vecRuns s e false hd (some ha) none none 0 (mapP ((fmtOf s hd).putInt e.sat) m,
        if e.rnd = .sr then genAfter (total (m.map List.length)) s.cur.gen else s.cur.gen)
      let floats := FloatTile s hd ∧ FloatTile s ha
      let ints := IntTile s hd ∧ IntTile s ha
      let sh := shapeOf s ha
      let rowsF (k : RedKind) := runs (va.map fun r => [joinP (redFloat k 10) r])
      let rowsI (k : RedKind) := puts (ia.map fun r => [joinP (redInt k) r])
      (shapeOf s hd = (sh.1, 1) →
        (floats → exec (.vrsum d a e) s = rowsF .sum ∧ exec (.vrmax d a e) s = rowsF .max ∧ exec (.vrmin d a e) s = rowsF .min) ∧
        (ints → exec (.vrsum d a e) s = rowsI .sum ∧ exec (.vrmax d a e) s = rowsI .max ∧ exec (.vrmin d a e) s = rowsI .min)) ∧
      (shapeOf s hd = (1, sh.2) →
        (floats → exec (.vcsum d a e) s = runs [(transpose (colsOf va) va).map (joinP (redFloat .sum 7))]) ∧
        (ints → exec (.vcsum d a e) s = puts [(transpose (colsOf ia) ia).map (joinP (redInt .sum))])) ∧
      (shapeOf s hd = sh →
        (floats → exec (.vscan d a e) s = runs (va.map (scanP (srNode .pt) (zeroV true) false))) ∧
        (ints → exec (.vscan d a e) s = puts (ia.map (scanP (fun v w => signed 32 ((v + w) % 2 ^ 32).toNat) 0 false)))))

/-- R253, R254, R255: conversions between formats, scaling by a power of two, dequantisation, quantisation with its scale bytes, and the
movements of codes. -/
def Obligations.VectorConversionsAndMoves : Prop :=
  ∀ (d a b : TileSel) (e : VExt) (s : State) (x : W64) (p : Bool) (hd ha : Nat),
    VecValue s e x p → resolve s.cur true d = .ok hd → resolve s.cur false a = .ok ha →
    let rounds (m : List (List PVal)) := roundMat (fmtOf s hd) e.rnd e.sat s.cur.gen m
    let va := valsOf s ha
    let ca := codesOf s ha
    let one (m : Mat × W64) := vecRuns s e false hd (some ha) none none 0 m
    let moves (m : Mat) := one (m, s.cur.gen)
    let same := shapeOf s ha = shapeOf s hd
    let alike (h : Nat) := descVal s.cur (tileAt s.cur h) = descVal s.cur (tileAt s.cur hd)
    let sa := shapeOf s ha
    let sd := shapeOf s hd
    (VecOk s hd [ha] → ¬ ScaledTile s hd →
      (same → exec (.vcvt d a e) s = one (rounds va)) ∧
      (same → FloatTile s hd → FloatTile s ha →
        exec (.vscale d a e) s = one (rounds (va.map fun r => r.map fun v => (scaleBy (signed 32 (x.toNat % 2 ^ 32)) v.1, v.2 || p)))) ∧
      (alike ha → sd = (sa.2, sa.1) → exec (.vtrans d a e) s = moves (transpose sa.2 ca)) ∧
      (alike ha → (sa.1 = sd.1 ∨ sa.1 = 1) → (sa.2 = sd.2 ∨ sa.2 = 1) →
        exec (.vbcast d a e) s = moves ((List.range sd.1).map fun i => (List.range sd.2).map fun j =>
          Mat.at ca (if sa.1 = 1 then 0 else i) (if sa.2 = 1 then 0 else j))) ∧
      (alike ha → p = false → sd.1 = sa.1 → x.toNat % 2 ^ 32 + sd.2 ≤ sa.2 →
        exec (.vunpk d a e) s = moves (ca.map fun r => (r.drop (x.toNat % 2 ^ 32)).take sd.2)) ∧
      (alike ha → p = true → exec (.vunpk d a e) s = dies s rPoison)) ∧
    (∀ hb, resolve s.cur false b = .ok hb → e.xs = false → VecOk s hd [ha, hb] → ¬ ScaledTile s hd → alike ha →
      let moves2 (m : Mat) := vecRuns s e false hd (some ha) (some hb) none 0 (m, s.cur.gen)
      let sb := shapeOf s hb
      (IntTile s hb → sb = sd → sd.1 = sa.1 → exec (.vperm d a b e) s = moves2 (ca.zipWith (fun r q => q.map (pick r)) (intsOf s hb))) ∧
      (IntTile s hb → sd.1 ≤ sb.1 * sb.2 → sd.2 = sa.2 →
        exec (.vgath d a b e) s = moves2 (((intsOf s hb).flatten.take sd.1).map fun ix =>
          (List.range sa.2).map fun j => pick (ca.map fun r => r.getD j (0, false)) ix)) ∧
      (alike hb → sd.1 = sa.1 → sb.1 = sa.1 → sd.2 = sa.2 + sb.2 →
        exec (.vpack d a b e) s = moves2 (ca.zipWith (· ++ ·) (codesOf s hb)))) ∧
    (∀ hc, resolve s.cur false e.c = .ok hc → VecOk s hd [ha, hc] → ScaledTile s ha → 1 ≤ (fmtOf s hd).cls → (fmtOf s hd).cls ≤ 3 → same →
      let n := (fmtOf s ha).scaleCount sa.1 sa.2
      n ≤ bytesAt s hc →
      exec (.vdeq d a e) s = vecRuns s e false hd (some ha) none (some hc) n (rounds (va.mapIdx fun i r => r.mapIdx fun j v =>
        mulP v (scaleAt (fmtOf s ha) sa.2 (scaleBytes s hc n) i j)))) ∧
    (∀ hc, resolve s.cur true e.c = .ok hc → VecOk s hd [ha] → Local s hc → Writable s hc → (∃ f n, Sized s hc f n) →
      Unread s (tileAt s.cur hc).loc.toNat (bytesAt s hc) → FloatTile s ha → ScaledTile s hd → same →
      let apart (h : Nat) : Prop := h ≠ hc ∧ ((tileAt s.cur h).loc.toNat + bytesAt s h ≤ (tileAt s.cur hc).loc.toNat ∨
        (tileAt s.cur hc).loc.toNat + bytesAt s hc ≤ (tileAt s.cur h).loc.toNat)
      apart ha → apart hd →
      let f := fmtOf s hd
      let n := f.scaleCount sd.1 sd.2
      n ≤ bytesAt s hc →
      let marked := va.mapIdx fun i r => r.mapIdx fun j v => (f.scaleIdx sd.2 i j, v)
      let block (k : Nat) := (marked.flatten.filter fun v => v.1 == k).map (·.2)
      let codes (k : Nat) : List Nat := ((codesOf s ha).mapIdx fun i r => (r.mapIdx fun j c => if f.scaleIdx sd.2 i j = k then [c.1] else []).flatten).flatten
      let free (k : Nat) : BitVec 8 := Config.scaleFree (descVal s.cur (tileAt s.cur hd)) (descVal s.cur (tileAt s.cur ha)) (codes k)
      let zs := (List.range n).map fun k => (scaleByte f (free k).toNat ((block k).map (·.1)), (block k).any (·.2))
      let m := rounds (marked.map fun r => r.map fun v => (v.2.1.div (scaleVal f.sfmt (zs.getD v.1 (0, false)).1), (zs.getD v.1 (0, false)).2))
      let key := tileKey s.cur (tileAt s.cur hc)
      let bad := (zs.mapIdx fun j z => if z.2 then [(key + j) / 32] else []).flatten
      let job := writeJob s hd m.1
      let scaled := [(key, zs.map fun z => BitVec.ofNat 8 z.1)]
      let held1 := [((tileAt s.cur ha).loc.toNat, bytesAt s ha)]
      let held := (({ s.cur with gen := m.2 } : Actor)).watchOp false ha
      let t := ((((held.tileState hd .filling).watchOp true hd).tileState hc .filling).watchOp true hc).retire 3
      let s1 : State := s.setCur (t.lastUses [(e.lua, ha)])
      exec (.vquant d a e) s = ran (s1.startV
        (vecCycles s false [hd, ha, hc] (bytesAt s hd + bytesAt s ha + if n = 0 then bytesAt s hc else n))
        { job with writes := job.writes ++ scaled, pset := job.pset ++ bad, pclr := job.pclr ++ cleanSectors key zs.length bad, ready := [hd, hc], holds := held1 }))

/-- R256, R257, R258, R259: integer and bitwise operations, softmax over rows, table look-up, and fills. Integer results wrap, or clamp
under `sat`, into the destination. -/
def Obligations.VectorIntegersAndTables : Prop :=
  ∀ (d a b : TileSel) (e : VExt) (s : State) (x : W64) (p : Bool) (hd ha : Nat) (hb : Option Nat),
    VecValue s e x p → resolve s.cur true d = .ok hd → resolve s.cur false a = .ok ha → ¬ ScaledTile s hd →
    let rounds (m : List (List PVal)) := roundMat (fmtOf s hd) e.rnd e.sat s.cur.gen m
    let ia := intsOf s ha
    let ib := hb.elim (fillMat (shapeOf s hd) (signed 32 (x.toNat % 2 ^ 32), p)) (intsOf s)
    let cb := hb.elim (fillMat (shapeOf s hd) (x.toNat % 2 ^ (fmtOf s hd).wd, p)) (codesOf s)
    let w := (fmtOf s hd).wd
    let two (m : Mat) := vecRuns s e false hd (some ha) hb none 0 (m, s.cur.gen)
    let put (f : Int → Int → Int) := two (mapP ((fmtOf s hd).putInt e.sat) (zipP f ia ib))
    let bits (f : Nat → Nat → Nat) := two (zipP f (codesOf s ha) cb)
    (VecB s e b hb → VecOk s hd (ha :: hb.toList) → (∀ h ∈ ha :: hb.toList, shapeOf s h = shapeOf s hd) →
      ((∀ h ∈ hd :: ha :: hb.toList, IntTile s h) →
        exec (.viadd d a b e) s = put (· + ·) ∧ exec (.visub d a b e) s = put (· - ·) ∧ exec (.vimul d a b e) s = put (· * ·) ∧
        exec (.vshl d a b e) s = put (fun v n => signed w (v % 2 ^ w).toNat * 2 ^ (n % w).toNat) ∧
        exec (.vshr d a b e) s = put (fun v n => (if e.fx.val = 0 then v % 2 ^ w else signed w (v % 2 ^ w).toNat) / 2 ^ (n % w).toNat)) ∧
      ((∀ h ∈ ha :: hb.toList, descVal s.cur (tileAt s.cur h) = descVal s.cur (tileAt s.cur hd)) →
        exec (.vand d a b e) s = bits (· &&& ·) ∧ exec (.vor d a b e) s = bits (· ||| ·) ∧ exec (.vxor d a b e) s = bits (· ^^^ ·))) ∧
    (VecOk s hd [ha] → FloatTile s hd → FloatTile s ha → shapeOf s ha = shapeOf s hd →
      exec (.vsmx d a e) s = vecRuns s e true hd (some ha) none none 0
        (rounds ((valsOf s ha).map fun r => (softmaxRow (r.map (·.1))).map fun v => (v, r.any (·.2))))) ∧
    (∀ hb, resolve s.cur false b = .ok hb → e.xs = false → VecOk s hd [ha, hb] → (fmtOf s ha).cls = 0 ∨ (fmtOf s ha).cls = 6 →
      shapeOf s ha = shapeOf s hd → 2 ^ (fmtOf s ha).wd ≤ (shapeOf s hb).1 * (shapeOf s hb).2 →
      exec (.vlut d a b e) s = vecRuns s e false hd (some ha) (some hb) none 0 (rounds ((codesOf s ha).map fun r => r.map fun c =>
        let v := (valsOf s hb).flatten.getD c.1 (.nan, false)
        (v.1, v.2 || c.2)))) ∧
    (VecOk s hd [] →
      let fills (m : Mat × W64) := exec (.vfill d e) s = vecRuns s e false hd none none none 0 m
      let value (v : Val) := fills (rounds (fillMat (shapeOf s hd) (v, p)))
      (e.fx.val = 1 → fills (fillMat (shapeOf s hd) (x.toNat % 2 ^ w, p), s.cur.gen)) ∧
      (e.fx.val ≠ 1 → FloatTile s hd → value (dec32 x.toNat)) ∧
      (e.fx.val ≠ 1 → IntTile s hd → value (intV (signed 32 (x.toNat % 2 ^ 32)))) ∧
      (e.fx.val ≠ 1 → (fmtOf s hd).cls = 6 → value (intV (if x.toNat % 2 ^ 32 = 0 then 0 else 1))))

/-- R213, R215: a fence ends, changing nothing, once no earlier operation of its kind and scope is outstanding, and stalls until then. An
atomic takes its operands, kills with EXTENT off an 8-byte boundary, waits as `fence.rel` does, and sends AT to the home; a returning
one pushes an entry that the ATR makes ready. Where the lookup answers ABSENT, a returning one stalls and the other is side-logged. -/
def Obligations.AtomicsAndFences : Prop :=
  (∀ (acq rel : Bool) (sc : Scope) (s : State),
    let held (o : OutOp) : Prop := o.inScope sc = true ∧
      ((rel = true ∧ o.inv = s.cur.invNo ∧ (o.kind = .write ∨ o.kind = .ret)) ∨ (acq = true ∧ (o.kind = .fetch ∨ o.kind = .ret)))
    ((∀ o ∈ s.cur.outs, ¬ held o) → exec (.fence acq rel sc) s = ran (s.retire 1)) ∧
    ((∃ o ∈ s.cur.outs, held o) → exec (.fence acq rel sc) s = waits s)) ∧
  ∀ (a b c : Scalar) (dst : Option (Fin 16)) (sem : Sem) (sc : Scope) (nr : Bool) (disp : W32) (g : Guard) (s : State) (x v w : W64),
    GuardOn s g → Reads s a x false → Reads s b v false → Reads s c w false →
    let op (k : Nat) : Out :=
      match k with
      | 0 => exec (.aadd a b dst sem sc nr disp g) s | 1 => exec (.aand a b dst sem sc nr disp g) s
      | 2 => exec (.aor a b dst sem sc nr disp g) s | 3 => exec (.axor a b dst sem sc nr disp g) s
      | 4 => exec (.amin a b dst sem sc nr disp g) s | 5 => exec (.amax a b dst sem sc nr disp g) s
      | 6 => exec (.aminu a b dst sem sc nr disp g) s | 7 => exec (.amaxu a b dst sem sc nr disp g) s
      | 8 => exec (.axchg a b dst sem sc nr disp g) s | _ => exec (.acas a b c dst sem sc nr disp g) s
    let va := (x + sext32 disp).toNat
    let rel := sem = .rel ∨ sem = .ar
    let acq := sem == .acq || sem == .ar
    ∀ k < 10,
      let cmp := if k = 9 then w else 0
      (va % 8 ≠ 0 → op k = dies s rExtent) ∧
      (va % 8 = 0 → rel → s.cur.relReady sc = false → op k = waits s) ∧
      (va % 8 = 0 → (rel → s.cur.relReady sc = true) → s.cur.acqHold = false → s.cur.shadow = none →
        ∀ l, lookAll s s.cur .atomic [va] = .ok [l] →
          let t := s.setCur (s.cur.touch s.tick [l])
          let u := t.logOut t.cur (outRecord va (bytesOf 8 v.toNat ++ if k = 9 then bytesOf 8 w.toNat else []))
          (∀ pa i, l = .hit pa i → behind t [va] = false → (∀ home, homeOf pa = some home → t.portFull (runCell t.cur) home = false) →
            op k = if nr then ran ((u.freshId.sendAtomic k v cmp va pa acq .write u.nextId).retire 3)
              else ran (((u.pushAsked fun tok q => q.sendAtomic k v cmp va pa acq .ret tok).pushedTo dst).retire 3)) ∧
          (l = .absent → nr = false → op k = waits t) ∧
          (l = .absent → nr = true → (t.cell (runCell t.cur)).logged < 32 →
            let cell := runCell u.cur
            let q := u.freshId.setCur (u.cur.addOut (outOf u.freshId u.nextId .write acq [va]))
            let e : SideEnt := { actor := q.focus, inv := q.cur.invNo, id := u.nextId, kind := .at_, aop := k, v := v, c := cmp, pieces := [{ va := va, len := 8 }], targets := [pageOf (q.image q.cur) va] }
            op k = ran (((q.sideAdd cell e).post 0 .sideLogReplay { n := cell, actor := q.focus }).retire 3)))

/-- R217, R218, R225 to R228: `robj` sends one declaration for each piece of its target and pushes an entry that the homes' answers make
ready; `ared` makes its source DRAINING and sends, or side-logs, one piece for each 4 KiB. `balloc`, `bfree`, `xmap` and `xunmap` push
their status when they complete; the last three wait first, and complete once what they wait for is done. -/
def Obligations.ReductionsAndExtents : Prop :=
  ∀ (p0 p1 p2 : PWord) (s : State) (va n : Nat), param64 s p0 p1 = .ok va → param s false p2 = .ok n → s.cur.acqHold = false → s.cur.shadow = none →
    (∀ (a : Scalar) (ch : Fin 14) (rows : BitVec 8) (cols : BitVec 11) (fmt : Fin 16) (op : RedOp) (rcp : W64) (ls : List Look),
      Reads s a rcp false →
      let dv := s.cur.fmts.getD fmt.val 0
      let size := rows.toNat * rowBytes cols.toNat (descOf dv).wd
      validDesc dv = true → 1 ≤ (descOf dv).cls → (descOf dv).cls ≤ 4 →
      (¬ (va % 4096 = 0 ∧ 1 ≤ n ∧ n ≤ 65535 ∧ size ≤ 262144) → exec (.robj a ch p0 p1 p2 rows cols fmt op) s = dies s rTileBounds) ∧
      (va % 4096 = 0 → 1 ≤ n → n ≤ 65535 → size ≤ 262144 →
        let vas := (redPieces va size).map (·.va)
        lookAll s s.cur .declare vas = .ok ls → (∀ l ∈ ls, ∃ pa i, l = .hit pa i) →
        let t := s.setCur (s.cur.touch s.tick ls)
        let cell := runCell (t.logOut t.cur (outRecord va [])).cur
        exec (.robj a ch p0 p1 p2 rows cols fmt op) s = ran (((t.logOut t.cur (outRecord va [])).pushAsked fun tok u =>
          let ctl : RcCtl := { npc := vas.length, tva := va, iss := u.focus, rcp := rcp, ch := ch.val, rows := rows.toNat, cols := cols.toNat, op := op, desc := dv, k := n, lead := tok }
          let x : Xfer := { id := tok, kind := .contrib, actor := u.focus, inv := u.cur.invNo, left := vas.length, rc := ctl }
          let u := (u.setCur (u.cur.addOut (outOf u tok .write false vas))).addXfer cell x
          (ls.mapIdx fun j l => (j, (foundAt l).getD 0)).foldl (fun (w : State) e => w.sendPkt (declPkt cell w.focus tok e.2 e.1 ctl)) u).retire 5))) ∧
    (∀ (a : TileSel) (lu : Bool) (h m : Nat) (f : Desc) (ls : List Look), resolve s.cur false a = .ok h → Readable s h → Local s h →
      Sized s h f m → 1 ≤ f.cls → f.cls ≤ 5 →
      lookAll s s.cur .contrib ((redPieces va m).map (·.va)) = .ok ls → (∀ l ∈ ls, ∃ pa i, l = .hit pa i) →
      let e := tileAt s.cur h
      let t := s.setCur (s.cur.touch s.tick ls)
      behind t ((redPieces va m).map (·.va)) = false →
      let ps := ((redPieces va m).zip ls).map fun q => { q.1 with pa := foundAt q.2 }
      let x : Xfer := { id := t.nextId, kind := .contrib, actor := t.focus, inv := t.cur.invNo, src := some h, soff := e.loc.toNat, bytes := m,
                        rc := { rows := e.rows.toNat, cols := e.cols.toNat, desc := descVal t.cur e, k := n } }
      let u := t.freshId.begin x [h] lu [(false, h)]
      let u := u.logOut u.cur (outRecord va (u.bytes (tileKey u.cur e) m))
      let u := u.setCur (u.cur.addOut (outOf u x.id .write false ((redPieces va m).map (·.va))))
      exec (.ared a p0 p1 p2 lu) s = ran (((u.addXfer (runCell u.cur) x).contribAll (runCell u.cur) x ps).post 0 .outboundReadDone { n := runCell u.cur, m := x.id })) ∧
    (va / 2 ^ 56 = 0 → n ≠ 0 → va % 2 ^ 20 = 0 →
      (∀ (mir com : Bool) (ri : Nat) (r : RegionRec), regionAt (s.image s.cur) va = some (ri, r) → r.kind = .buoy → r.locked = false →
        va + n * 2 ^ 20 ≤ r.vbase + r.size → r.mirror = mir → (com = true ↔ r.share ≠ .priv) → (com = true → mir = true) →
        (s.cur.pend = none → s.hostDuty 4 = false →
          exec (.balloc p0 p1 p2 mir com) s = ran ((s.alloc s.cur r va n none).2.status (s.alloc s.cur r va n none).1)) ∧
        (∀ st, s.cur.pend = some (16 + st) → exec (.balloc p0 p1 p2 mir com) s = ran (s.status st))) ∧
      let mine (e : BuoyAlloc) : Bool := e.va == va && e.mib == n && e.job == jobOf s.focus && (e.actor == s.focus || e.mir)
      (s.ballocs.find? mine = none → exec (.bfree p0 p1 p2) s = ran (s.status 4)) ∧
      (∀ e, s.ballocs.find? mine = some e → s.cur.pend = some 1 →
        exec (.bfree p0 p1 p2) s = ran (((s.backs.filter e.holds).foldl State.rewalk { s.unback e.holds with ballocs := (s.unback e.holds).ballocs.filter fun x => x != e }).status 0))) ∧
    (va / 2 ^ 56 = 0 → n ≠ 0 → va % 2 ^ 16 = 0 →
      let vp := va / 2 ^ 16
      let meets (e : Ext) : Prop := e.valid = true ∧ e.npg ≠ 0 ∧ e.vpage < vp + n ∧ vp < e.vpage + e.npg
      (regionAt (s.image s.cur) va = none → exec (.xmap p0 p1 p2) s = ran (s.status 2)) ∧
      (∀ ri r, regionAt (s.image s.cur) va = some (ri, r) →
        (r.vbase + r.size < va + n * 2 ^ 16 → exec (.xmap p0 p1 p2) s = ran (s.status 2)) ∧
        (va + n * 2 ^ 16 ≤ r.vbase + r.size → r.locked = true → exec (.xmap p0 p1 p2) s = ran (s.status 3)) ∧
        (va + n * 2 ^ 16 ≤ r.vbase + r.size → r.locked = false → s.cur.pend = some 4 → exec (.xmap p0 p1 p2) s = ran (s.status 4)) ∧
        (va + n * 2 ^ 16 ≤ r.vbase + r.size → r.locked = false → s.cur.pend ≠ some 4 →
          let w := wholePages r.page vp n
          let runs := s.runsIn s.cur r w.1 w.2
          w.1 + w.2 ≤ firstGap w.1 runs →
          let kept := s.cur.exts.filter fun (e : Ext) => e.valid && e.pin
          let fresh := joinRuns (kept.foldl (fun l (e : Ext) => (l.map (runWithout e.vpage e.npg)).flatten) runs)
          (12 < kept.length + fresh.length → exec (.xmap p0 p1 p2) s = ran (s.status 1)) ∧
          (kept.length + fresh.length ≤ 12 → (∀ e ∈ s.cur.exts, e.overlaps w.1 w.2 = true → e.pin = true) → s.cur.flies s.cur.drains = false →
            exec (.xmap p0 p1 p2) s = ran ((s.setCur (fresh.foldl (fun (a : Actor) b => a.install (s.mkExt s.cur ri r b.1 b.2.1 b.2.2 false true)) s.cur)).status 0)))) ∧
      (s.cur.pend = none → (∀ e ∈ s.cur.exts, ¬ meets e) → exec (.xunmap p0 p1 p2) s = ran (s.status 4)) ∧
      (s.cur.pend = none → (∃ e ∈ s.cur.exts, meets e ∧ (if e.locked then ¬ (e.vpage = vp ∧ e.npg = n) else ¬ (vp ≤ e.vpage ∧ e.vpage + e.npg ≤ vp + n))) →
        exec (.xunmap p0 p1 p2) s = ran (s.status 2)) ∧
      (s.cur.pend ≠ none → s.cur.flies s.cur.drains = false →
        exec (.xunmap p0 p1 p2) s = ran ((if ∃ e ∈ s.cur.exts, e.locked = true ∧ e.vpage = vp ∧ e.npg = n ∧ e.share = .priv then
          s.unback fun b => b.job == jobOf s.focus && b.owner == s.focus && b.locked && b.vpage == vp && b.npg == n else s).status 0)))

/-- R266, R267, R268, R271: what `send`, `sendt`, `call`, `reply` and `mcast` append to the outbox, and the tiles that they give; a
destination of another job kills with EXTENT, one on a lost module with PEER_LOST, and a reply tag without bit 7 with ILLEGAL. -/
def Obligations.MessagesWait : Prop :=
  ∀ (g : Guard) (s : State), GuardOn s g →
    let self := selfName s.cur
    let fits (l : List OutItem) : Prop := ovfFits { s.cur with outbox := s.cur.outbox ++ l } = true
    let words (sels : List Scalar) (vs : List W64) : Prop := List.Forall₂ (fun a v => Reads s a v false) sels vs
    let tilesOk (tl : List TileSel) (hs : List Nat) : Prop :=
      List.Forall₂ (fun t h => resolve s.cur false t = .ok h ∧ Readable s h ∧ (Local s h → ∃ f n, Sized s h f n)) tl hs ∧ hs.Nodup
    let body (x : SendArgs) (d : W64) (vs : List W64) : Msg :=
      { dest := d, sender := self, chan := x.ch.castLE (by decide), bounce := x.bnc, plen := vs.length, m := vs ++ List.replicate (4 - vs.length) 0 }
    let waitsIn (t : State) (m : Msg) (reads : List Nat) : State := (t.spillOut { t.cur with outbox := t.cur.outbox ++ [.msg m reads] }).retire 3
    (∀ (a : Scalar) (x : SendArgs) (d : W64) (vs : List W64), Reads s a d false → words x.pl vs →
      (jobOf d ≠ 0 → jobOf d ≠ jobOf self → exec (.send a x g) s = dies s rExtent) ∧
      ((jobOf d = 0 ∨ jobOf d = jobOf self) → s.peerDead (pkgOf d) = true → exec (.send a x g) s = dies s rPeerLost) ∧
      ((jobOf d = 0 ∨ jobOf d = jobOf self) → s.peerDead (pkgOf d) = false →
        (fits [.msg (body x d vs) []] → exec (.send a x g) s = ran (waitsIn s (body x d vs) [])) ∧
        ∀ hs, tilesOk x.tl hs →
          let caps := hs.map fun h => capOf (tileAt s.cur h)
          let given := s.giveTiles 0 hs
          (pkgOf d = pkgOf self ∨ ∀ c ∈ caps, c.glob = true → inBuoy s c.loc.toNat = true) →
          (s.cell (runCell s.cur)).outstanding + (caps.filter (!·.glob)).length ≤ 32 →
          (fits [.msg { body x d vs with caps := caps } []] → exec (.sendt a x g) s = ran (waitsIn given.1 { body x d vs with caps := caps } given.2)) ∧
          (vs.length ≤ 3 →
            let y := s.cur.ys.getD x.ys.val {}
            let tag : W64 := BitVec.ofNat 64 (0x80 + x.ys.val * 16 + (y.gen + 1).val)
            let m : Msg := { body x d vs with call := true, slot := x.ys, rgen := y.gen + 1, plen := 4, m := vs ++ List.replicate (3 - vs.length) 0 ++ [tag], caps := caps }
            fits [.msg m []] →
            let t := waitsIn given.1 m given.2
            exec (.callRequest a x g) s = ran (t.setCur { t.cur with ys := t.cur.ys.set x.ys.val { y with gen := y.gen + 1, st := .pending } })))) ∧
    (∀ (a b pl : Scalar) (d tag v : W64), Reads s a d false → Reads s b tag false → Reads s pl v false → (jobOf d = 0 ∨ jobOf d = jobOf self) →
      s.peerDead (pkgOf d) = false →
      (¬ (128 ≤ tag.toNat ∧ tag.toNat < 256) → exec (.reply a b pl g) s = dies s rIllegal) ∧
      (128 ≤ tag.toNat → tag.toNat < 256 →
        let m : Msg := { dest := d, sender := self, rep := true, slot := Fin.ofNat 8 (tag.toNat / 16), rgen := Fin.ofNat 16 tag.toNat, plen := 1, m := [v, 0, 0, 0] }
        fits [.msg m []] → exec (.reply a b pl g) s = ran (waitsIn s m []))) ∧
    (∀ (x : SendArgs) (vs : List W64) (h : Nat) (c : Cohort), words x.pl vs → tilesOk x.tl [h] → Local s h → s.cur.roaming = false →
      s.cohortOf self = some c → c.shape ≠ .any → s.cur.shadow = none → (s.cell (runCell s.cur)).outstanding < 32 →
      let e := tileAt s.cur h
      let bus := busOf s.cur.cell c.shape
      let items := (s.onBus c bus s.cur.cell self).map fun d => OutItem.msg { body x d vs with caps := [capOf e] } [s.nextId]
      items = [] ∨ fits items →
      let a := (((({ s.cur with outbox := s.cur.outbox ++ items } : Actor)).drain h).addOut { id := s.nextId, kind := .give }).watchOp false h
      let t : Xfer := { id := s.nextId, kind := .mcast, actor := s.focus, inv := s.cur.invNo, src := some h, soff := e.loc.toNat,
                        bytes := bytesAt s h, bus := some bus, toRead := 1, left := items.length }
      exec (.mcast x g) s = ran ((((s.freshId.spillOut a).addXfer s.cur.cell t).post 0 .mcastBusServe { n := bus }).retire 3))

/-- R262, R273, R274: `await` and `end` wait until what the invocation has sent is acknowledged, and then release the outbox; `await` goes
on to wait for its reply slot and pushes the value and the status 0, 1 or 2; `end` saves the registers of `liveout` and ends the
invocation. If the release of the outbox killed the actor, nothing more is done; an audit's shadow run releases nothing. -/
def Obligations.InvocationsCommit : Prop :=
  ∀ (g : Guard) (s : State), GuardOn s g →
    let left := (s.logOut s.cur (s.cur.outbox.map (outBytes s.cur)).flatten).setCur { s.cur with outbox := [] }
    let sent := if s.cur.shadow.isSome then left
      else s.cur.outbox.foldl (fun (t : State) o => if t.cur.debt == some rOverflow then t.discard o else t.releaseItem s.cur o) left
    (∀ (a : Scalar) (b : Fin 8) (limit : W64), Reads s a limit false →
      (s.cur.await = none → s.cur.commitReady = false → exec (.await a b g) s = waits s) ∧
      ∀ u, u = (if s.cur.await = none then sent else s) → (s.cur.await = none → s.cur.commitReady = true) →
        let y := u.cur.ys.getD b.val {}
        let gives (v : W64) (p : Bool) (st : W64) : Out :=
          let q := (u.pushOutside v p).pushOutside st false
          ran ((q.setCur { q.cur with await := none, pend := none, ys := q.cur.ys.set b.val { q.cur.ys.getD b.val {} with st := .free } }).retire 1)
        (u.alive u.focus = false → exec (.await a b g) s = ran u) ∧
        (u.alive u.focus = true → u.cur.shadow ≠ none → exec (.await a b g) s = gives 0 false 0) ∧
        (u.alive u.focus = true → u.cur.shadow = none →
          (u.cur.pend = some 1 → exec (.await a b g) s = gives 0 false 1) ∧
          (u.cur.pend ≠ some 1 → y.st = .free → exec (.await a b g) s = gives 0 false 2) ∧
          (u.cur.pend ≠ some 1 → y.st = .filled → exec (.await a b g) s = gives y.val y.pois 0) ∧
          (u.cur.pend ≠ some 1 → y.st = .pending → s.cur.await ≠ none → exec (.await a b g) s = waits u) ∧
          (u.cur.pend ≠ some 1 → y.st = .pending → s.cur.await = none →
            let t := u.freshId.setCur { u.cur with await := some u.nextId }
            exec (.await a b g) s = waits (if limit = 0 then t else t.post limit.toNat .awaitTimeout { actor := t.focus, n := b.val, m := u.nextId })))) ∧
    ((∀ k < 16, bit s.cur.liveout k = true → ∃ v p, s.cur.s.getD k (.val 0 false) = .val v p) →
      (s.cur.commitReady = false → exec (.end_ g) s = waits (s.setCur { s.cur with await := some 0 })) ∧
      (s.cur.commitReady = true →
        let saved := s.cur.saved.mapIdx fun k old => if bit s.cur.liveout k then (match s.cur.s.getD k (.val 0 false) with | .val v p => (v, p) | .wait _ => old) else old
        exec (.end_ g) s = ran (if sent.alive sent.focus then (match sent.cur.shadow with
          | some b => sent.shadowDone b
          | none => (sent.sampleDone sent.focus).invocationOver saved) else sent))) ∧
    (s.cur.commitReady = true → commit s = .ok sent)

/-- R275 to R286: what creation, restart-table, tie, exit, kill, mask, priority and name instructions do and push. -/
def Obligations.LifeResults : Prop :=
  ∀ (s : State), s.cur.shadow = none →
    let self := selfName s.cur
    let asks (n : Nat) (f : Nat → State → State) : Out := ran ((s.pushAsked f).retire n)
    let creates (q : SpawnReq) : Out := asks 5 fun tok t =>
      let a := t.cur.addOut { id := tok, kind := .spawn }
      (t.setCur { a with outbox := a.outbox ++ [.child tok] }).post 0 .spawnAnswer { req := { q with by_ := s.focus, job := jobOf self, file := s.cur.file, cell := s.cur.cell, tok := tok } }
    (∀ (p0 p1 p2 : PWord) (lnk mon : Bool) (k v : Nat), param s false p0 = .ok k → param64 s p1 p2 = .ok v →
      exec (.spawn p0 p1 p2 lnk mon) s = creates { kind := .spawn, img := k, arg := BitVec.ofNat 64 v, lnk := lnk, mon := mon } ∧
      ((∃ n sh, ownRecord s k = some (.cohort n sh)) → exec (.spawnc p0 p1 p2) s = creates { kind := .spawnc, crec := k, arg := BitVec.ofNat 64 v }) ∧
      ((¬ ∃ n sh, ownRecord s k = some (.cohort n sh)) → exec (.spawnc p0 p1 p2) s = dies s rIllegal)) ∧
    (∀ (p0 : PWord) (k : Nat), param s false p0 = .ok k → (s.image s.cur).policy ≠ 0 →
      ((∃ n sh, ownRecord s k = some (.cohort n sh)) ∨ ∃ m o i w, ownRecord s k = some (.child m o i w)) →
      exec (.supStart p0) s = creates { kind := .supStart, crec := k } ∧
      exec (.supStop p0) s = (match s.ent s.focus k with
        | some e => ran (((s.supRemove s.focus e).pushOutside 0 false).retire 5)
        | none => gave s 5 8) ∧
      exec (.supqName p0) s = gave s 5 (match s.ent s.focus k with | some e => e.name | none => 0) ∧
      exec (.supqCount p0) s = gave s 5 (BitVec.ofNat 64 (match s.supTab s.focus with | some t => (t.window s.cycle).rcnt | none => 0)) ∧
      exec (.supqState p0) s = gave s 5 (match s.ent s.focus k with
        | some e => (match e.st with | .none => 0 | .running => 1 | .restarting => 2 | .stopped => 3) | none => 0)) ∧
    (∀ (a : Scalar) (g : Guard) (n : W64), GuardOn s g → Reads s a n false → jobOf n = jobOf self →
      (n = self → exec (.link a g) s = gave s 1 0 ∧ exec (.monitor a g) s = gave s 1 0) ∧
      (n ≠ self → s.peerDead (pkgOf n) = true → exec (.link a g) s = gave s 1 3 ∧ exec (.monitor a g) s = gave s 1 3) ∧
      (n ≠ self → s.peerDead (pkgOf n) = false → ∀ mon : Bool,
        let mine := if mon then s.cur.mons else s.cur.links
        let answer (tok v : Nat) (t : State) : State := t.post 0 .linkAnswer { actor := s.focus, other := n, n := ofBool mon, m := tok, k := v }
        exec (if mon then .monitor a g else .link a g) s = asks 1 fun tok t =>
          if pkgOf n = t.regs.aid then answer tok (t.tie s.focus n mon).1 (t.tie s.focus n mon).2
          else if mine.contains n then answer tok 0 t
          else if 16 ≤ mine.length then answer tok 1 t
          else
            let c : Actor := { t.cur with asks := t.cur.asks ++ [(tok, n, mon)] }
            (t.setCur (if mon then { c with mons := mine ++ [n] } else { c with links := mine ++ [n] })).tieMsg s.focus n mon 0 tok 0) ∧
      (∀ mon : Bool, n ∉ (if mon then s.cur.mons else s.cur.links) → exec (if mon then .demon a g else .unlink a g) s = gave s 1 1) ∧
      (∀ mon : Bool, n ∈ (if mon then s.cur.mons else s.cur.links) →
        let t := s.untie s.focus n mon
        let t := if pkgOf n = s.regs.aid ∨ s.peerDead (pkgOf n) = true then t else t.tieMsg s.focus n mon 2 0 0
        exec (if mon then .demon a g else .unlink a g) s = ran ((t.pushOutside 0 false).retire 1)) ∧
      (∀ (b : Scalar) (r : W64), Reads s b r false →
        (n ≠ self → ovfFits { s.cur with outbox := s.cur.outbox ++ [.sig n (r.setWidth 8)] } = true →
          exec (.exit a b g) s = ran ((s.spillOut { s.cur with outbox := s.cur.outbox ++ [.sig n (r.setWidth 8)] }).retire 1)) ∧
        (n = self → r.setWidth 8 ≠ rNormal → exec (.exit a b g) s = dies s (r.setWidth 8)) ∧
        (n = self → r.setWidth 8 = rNormal → s.cur.commitReady = true →
          let left := (s.logOut s.cur (s.cur.outbox.map (outBytes s.cur)).flatten).setCur { s.cur with outbox := [] }
          let u := s.cur.outbox.foldl (fun (t : State) o => if t.cur.debt == some rOverflow then t.discard o else t.releaseItem s.cur o) left
          exec (.exit a b g) s = ran (if u.alive u.focus then (match u.cur.shadow with
            | some k => u.shadowDone k
            | none => killActor (u.sampleDone u.focus) (u.sampleDone u.focus).focus rNormal) else u))) ∧
      (∀ lv : KillLevel, (lv = .act → n = self → exec (.kill a lv g) s = dies s rKilled) ∧
        (¬ (lv = .act ∧ n = self) → ovfFits { s.cur with outbox := s.cur.outbox ++ [.kill n lv] } = true →
          exec (.kill a lv g) s = ran ((s.spillOut { s.cur with outbox := s.cur.outbox ++ [.kill n lv] }).retire 1)))) ∧
    ∀ (a b : Scalar) (g : Guard) (v w : W64), GuardOn s g → Reads s a v false → Reads s b w false →
      let sets (c : Actor) (old : Nat) : Out := ran ((s.setCur c).result 1 (BitVec.ofNat 64 old) false)
      exec (.trapx a g) s = sets { s.cur with xmask := v.toNat % 16 } s.cur.xmask ∧
      exec (.chmask a g) s = sets { s.cur with chmask := v.toNat % 65536 } s.cur.chmask ∧
      (v.toNat ≤ 7 → exec (.prio a g) s = sets { s.cur with bprio := s.underCeiling self v.toNat } s.cur.bprio) ∧
      (7 < v.toNat → exec (.prio a g) s = dies s rIllegal) ∧
      exec (.lookup a g) s = gave s 1 (match s.job (jobOf self) with
        | some x => (match x.reg.find? fun e => e.1 == v with | some e => s.nameNow (jobOf self) e.2 | none => 0)
        | none => 0) ∧
      let q := s.register (jobOf self) (serialOf self) v w
      exec (.reg a b g) s = ran (((s.modJob (jobOf self) fun x => { x with reg := q.2 }).pushOutside (BitVec.ofNat 64 q.1) false).retire 1)

/-- R287 to R290: what the debug instructions do to the issuer's target, and what they push: the status of a refusal at once, an entry
that becomes ready when the target stops for `dhalt` and `dstep`, and a context doubleword with its status for `drd`. -/
def Obligations.DebugResults : Prop :=
  ∀ (a b : Scalar) (g : Guard) (s : State) (v w : W64), GuardOn s g → Reads s a v false → Reads s b w false → s.cur.shadow = none →
    let self := selfName s.cur
    let t := s.actor s.cur.target
    let attached := s.cur.target ≠ 0
    let held := attached ∧ t.dbg.stop = true ∧ t.dbg.tok = 0
    let other := v ≠ self ∧ jobOf v = jobOf self
    (∀ ch : Fin 14,
      (¬ other → exec (.dhalt a ch g) s = gave s 1 1) ∧
      (other → s.alive v = true → (s.actor v).dbg.dbgn ≠ 0 → exec (.dhalt a ch g) s = gave s 1 2) ∧
      (other → s.alive v = false → exec (.dhalt a ch g) s = gave s 1 3) ∧
      (other → s.alive v = true → (s.actor v).dbg.dbgn = 0 → attached → exec (.dhalt a ch g) s = gave s 1 4) ∧
      (other → s.alive v = true → (s.actor v).dbg.dbgn = 0 → ¬ attached →
        exec (.dhalt a ch g) s = ran ((s.pushAsked fun tok u =>
          let u := u.setCur { u.cur with target := v }
          let u := u.modActor v fun x => { x with dbg := { x.dbg with dbgn := u.focus, nch := ch.val, tok := tok, stc := 0 } }
          if (u.actor v).st = .transit then u.modActor v fun y => { y with dbg := { y.dbg with stop := true, since := u.cycle } }
          else if (u.actor v).st = .active ∧ (u.actor v).await = some 0 then u
          else u.stopTarget v).retire 1))) ∧
    (¬ held → exec (.dstep a 0 g) s = gave s 1 1 ∧
      exec (.drd a g) s = ran (((s.pushOutside 0 false).pushOutside 1 false).retire 1) ∧ exec (.dwr a b g) s = gave s 1 1) ∧
    (¬ attached → exec (.dres a g) s = gave s 1 1 ∧
      (∀ ix en, exec (.dbp a ix en g) s = gave s 3 1) ∧ (∀ ix en wk len, exec (.dwp a ix en wk len g) s = gave s 3 1) ∧
      (v.toNat < 8 → exec (.dtrc a g) s = gave s 3 1)) ∧
    (attached →
      let sets (f : Debug → Debug) : Out := ran (((s.modActor t.name fun x => { x with dbg := f x.dbg }).pushOutside 0 false).retire 3)
      (∀ (ix : Fin 4) (en : Bool), exec (.dbp a ix en g) s = sets fun d => { d with bp := d.bp.set ix.val (en, v.toNat % 2 ^ 32) }) ∧
      (∀ (ix : Fin 4) (en : Bool) (wk : Fin 4) (len : W32),
        (ix.val < 2 → exec (.dwp a ix en wk len g) s = sets fun d => { d with swp := d.swp.set ix.val (en, wk.val, len.toNat, v.toNat % 2 ^ 22) }) ∧
        (2 ≤ ix.val → exec (.dwp a ix en wk len g) s = sets fun d => { d with twp := d.twp.set (ix.val - 2) (en, v.toNat % 32) })) ∧
      (v.toNat < 8 → exec (.dtrc a g) s = sets fun d => { d with trc := v.toNat }) ∧
      (8 ≤ v.toNat → exec (.dtrc a g) s = dies s rIllegal) ∧
      let on_ := (s.pushOutside 0 false).retire 1
      let on_ := on_.modActor t.name fun x => x.goOn on_.cycle
      (v.getLsbD 0 = false → exec (.dres a g) s = ran on_) ∧
      (v.getLsbD 0 = true → t.dbg.tok = 0 →
        let u := on_.modActor t.name fun x => { x with dbg := {} }
        exec (.dres a g) s = ran (u.setCur { u.cur with target := 0 }))) ∧
    (held →
      let runs (n : Nat) : Out := ran ((s.freshVal.pushAsked fun tok u =>
        u.modActor t.name fun x => let x := x.goOn u.cycle; { x with dbg := { x.dbg with tok := tok, stc := n, step := true } }).retire 1)
      (1 ≤ v.toNat → v.toNat ≤ 65535 → exec (.dstep a 0 g) s = runs v.toNat) ∧
      (¬ (1 ≤ v.toNat ∧ v.toNat ≤ 65535) → exec (.dstep a 0 g) s = runs (1 + (Config.freeValue s.free).toNat % 65535)) ∧
      (∀ c, contextAt s t (Config.freeValue s.free) v.toNat = some c →
        exec (.drd a g) s = ran (((s.freshVal.pushOutside (BitVec.ofNat 64 c) false).pushOutside 0 false).retire 1)) ∧
      (contextAt s t (Config.freeValue s.free) v.toNat = none → exec (.drd a g) s = ran (((s.pushOutside 0 false).pushOutside 3 false).retire 1)) ∧
      (contextAt s t 0 v.toNat = none → exec (.dwr a b g) s = gave s 1 3) ∧
      (∀ c, contextAt s t 0 v.toNat = some c →
        let u := match t.audit with | some k => s.post 0 .shadowAbandon { n := k, actor := t.name, m := t.invNo } | none => s
        (4194304 ≤ v.toNat →
          let key := regionKey t + 8 * (v.toNat - 4194304)
          exec (.dwr a b g) s = ran (((((u.put key (bytesOf 8 w.toNat)).spoisWrite key 8 false).pushOutside 0 false).retire 1))) ∧
        (v.toNat < 4194304 → ∀ q, writeContext s t v.toNat w = some q →
          exec (.dwr a b g) s = ran ((((u.setActor q).refresh t.name).pushOutside 0 false).retire 1)) ∧
        (v.toNat < 4194304 → writeContext s t v.toNat w = none → exec (.dwr a b g) s = gave s 1 2)))

/-- The two resets, the boot of a cell, the opening of the portal, and what stops, slows or wakes the clocks (23 R411 to R416; 22
R407; 15 R339). What the certificates of the firmware come to is a free value. -/
def Obligations.ResetsAndPower : Prop :=
  (∀ s : State, s.arg.nats = [] → Happens s .powerOnReset fun t => t.cells = [] ∧ t.actors = [] ∧ t.jobs = [] ∧ t.files = [] ∧
    t.regs.twin = s.arg.flag ∧ t.regs.bootOpen = false ∧ t.regs.done = false ∧ t.regs.fwerr = (Config.fwErr s.free).toNat % 4 ∧
    t.agenda = (if t.regs.fwerr = 0 then bootAgenda else []) ∧ (t.regs.fwerr = 0 → Told t t 0 6 0 0 0 0) ∧
    (∀ a, outsideMem a = false → t.bytes a 1 = [Memory.default a]) ∧ ∀ a, outsideMem a = true → t.bytes a 1 = s.bytes a 1) ∧
  (∀ s : State, s.arg.nats = [] → Happens s .warmReset fun t => t.actors = [] ∧ t.jobs = [] ∧ t.files = [] ∧
    (∀ c, t.cell c = { repair := (s.cell c).repair, freeRep := (s.cell c).freeRep }) ∧ t.regs.dsw = 0 ∧ t.regs.dead = [] ∧
    t.regs.bootOpen = false ∧ t.agenda = (if t.regs.fwerr = 0 then bootAgenda else []) ∧ (t.regs.fwerr = 0 → Told t t 0 6 0 0 0 0) ∧
    (∀ a, outsideMem a = false → t.bytes a 1 = [Memory.default a]) ∧ ∀ a, outsideMem a = true → t.bytes a 1 = s.bytes a 1) ∧
  (∀ s : State, Happens s .thermalTrip fun t => t = { s with tripped := true } ∧ (t.powerOn = false → step t = .fault .clockStopped)) ∧
  (∀ s : State, Happens s .throttle fun t => (∀ a, t.mayStart a = false) ∧ t.regs.tmax = s.arg.n % 2 ^ 16 ∧ t.regs.pw = s.arg.m % 2 ^ 13 ∧
    t.regs.pthr = (if s.throttled then s.regs.pthr else (s.regs.pthr + 1) % 2 ^ 32) ∧ t.actors = s.actors) ∧
  (∀ s : State, Happens s .throttleEnd fun t => t.throttled = false ∧ t.regs.pthr = s.regs.pthr ∧ t.actors = s.actors) ∧
  (∀ s : State, (s.cell s.arg.n).boot = true → s.has (bootName s.arg.n) = false → (s.cell s.arg.n).munit = none → (s.cell s.arg.n).vunit = none →
    Happens s .bootProgramStart fun t => let a := t.actor (bootName s.arg.n)
      t.has (bootName s.arg.n) = true ∧ a.st = .ready ∧ a.cell = s.arg.n ∧ a.seat = 0 ∧ a.base = 0 ∧ a.size = 1024 ∧
      a.file = (if s.arg.m % 256 = 255 then 1 else 0) ∧ (a.mbox.map fun x => (x.msg.chan, x.msg.m)) = [(0,
        [BitVec.ofNat 64 (s.arg.m / 256), BitVec.ofNat 64 (s.arg.m % 256 * 16), 16, BitVec.ofNat 64 (t.cell s.arg.n).freeRep])] ∧
      (s.arg.m ≠ 0 → t.cell s.arg.n = s.cell s.arg.n) ∧ (s.arg.m = 0 → ∀ l, l = cacheEntries (s.cell s.arg.n).repair (s.cell s.arg.n).freeRep (Config.cacheRows s.free s.arg.n) →
        (t.cell s.arg.n).freeRep = (s.cell s.arg.n).freeRep + l.length ∧ (t.cell s.arg.n).repair =
          (s.cell s.arg.n).repair.take (s.cell s.arg.n).freeRep ++ l ++ (s.cell s.arg.n).repair.drop ((s.cell s.arg.n).freeRep + l.length))) ∧
  (∀ s : State, Happens s .portalOpen fun t =>
    t.regs.bootOpen = (s.regs.bootOpen || (s.regs.done && bit s.arg.v.toNat 63)) ∧
    t.regs.sigreq = (if s.regs.bootOpen then s.regs.sigreq else bit s.arg.v.toNat 62) ∧
    (s.regs.bootOpen = false → t.regs.bootOpen = true → ∀ c k x, (c, x) ∈ s.chans → k ∈ x.early →
      Awaits s t 0 .portalSlotComplete { n := c, m := k })) ∧
  (∀ s : State, Happens s .cellWake fun t => t.cell s.arg.n = { s.cell s.arg.n with gated := false, waking := false, idle := 0 } ∧
    (∀ c, c ≠ s.arg.n → t.cell c = s.cell c) ∧ t.mem = s.mem)

/-- What the part does periodically: the ageing check, the scrub, the end of an epoch, and the scan after lost notifications (21 R391,
R400; 03 R90, R91). Which cells age and which granules have rotted, of those that a slice or a plane serves, are free values. -/
def Obligations.PeriodicEvents : Prop :=
  (∀ s : State, Happens s .ageingCheck fun t => Awaits s t tenSeconds .ageingCheck {} ∧ ∀ c < 512,
    ((s.regs.ageEn = false ∨ c ∉ Config.weakCells s.free ∨ (s.cell c).health ≠ 0) → t.cell c = s.cell c) ∧
    (s.regs.ageEn = true → c ∈ Config.weakCells s.free → (s.cell c).health = 0 →
      ((s.cell c).voff < 15 → t.cell c = { s.cell c with voff := (s.cell c).voff + 1 }) ∧
      (15 ≤ (s.cell c).voff → t.cell c = { s.cell c with health := 1, retire := true } ∧
        Told s t 0 4 3 0 0 (BitVec.ofNat 64 c) ∧ Awaits s t 0 .preempt { n := c, flag := true }))) ∧
  (∀ s : State, Happens s .scrub fun t => Awaits s t oneDay .scrub {} ∧ t.mem = s.mem ∧
    ∀ g, g ∈ t.gpois ↔ g ∈ s.gpois ∨ g ∈ Config.badGranules s.free ∧ s.struckAt g = true) ∧
  (∀ s : State, Happens s .epochEnd fun t => (∀ p, kvGet 0 t.counts p = kvGet 0 s.counts p / 2) ∧ Awaits s t (2 ^ s.regs.epoch) .epochEnd {}) ∧
  (∀ s : State, Happens s .lostScan fun t => t.seenLost = s.regs.lost ∧ t.counts = s.counts ∧
    (s.regs.lost ≠ s.seenLost → ∀ p n b, (p, n) ∈ s.counts → s.backAt p = some b → b.counted = true → b.kind = .cxl → s.isHot n = true →
      p ∈ t.queued ∨ 1024 ≤ t.notes.length))

/-- What a host does to the part (18 R379 to R382; 14 R327; 02 R61, R62; 21 R399, R402, R403; 23 R412, R416, R418; 03 R92): writes of
management registers, queue entries and their acknowledgement, portal slots, launches, loads and unloads, attestation, and the
answers to duties. -/
def Obligations.PortalEvents : Prop :=
  (∀ s : State, (Happens s .registerWrite fun t => t.mem = s.mem ∧ t.actors = s.actors ∧ t.jobs = s.jobs ∧ t.regs.done = s.regs.done ∧
      t.regs.nret = s.regs.nret ∧ t.regs.tmax = s.regs.tmax ∧ t.regs.pw = s.regs.pw ∧ t.regs.pthr = s.regs.pthr ∧ t.regs.dsw = s.regs.dsw ∧ t.regs.dead = s.regs.dead) ∧
    (s.arg.n = 0x318 → Happens s .registerWrite fun t => t.regs = { s.regs with pwrcap := max 1000 (min 5400 (bits s.arg.v.toNat 12 0)) }) ∧
    (s.arg.n = 0x400 → Happens s .registerWrite fun t => t.regs = { s.regs with
      migEn := bit s.arg.v.toNat 63, epoch := ranged 20 40 s.regs.epoch (bits s.arg.v.toNat 39 32), hot := bits s.arg.v.toNat 15 0 }) ∧
    (s.arg.n = 0x900 → Happens s .registerWrite fun t => t.regs = { s.regs with audEn := bit s.arg.v.toNat 63, audK := min 20 (bits s.arg.v.toNat 4 0) }) ∧
    (s.arg.n = 0xA08 → Happens s .registerWrite fun t => t.regs = { s.regs with ageEn := bit s.arg.v.toNat 63, mmin := bits s.arg.v.toNat 15 0 })) ∧
  (∀ s : State, Happens s .quarantineWrite fun t => let c := s.arg.v.toNat % 512
    (t.cell c).health = 2 ∧ (t.cell c).gated = true ∧ Told s t 0 4 0 0 0 (BitVec.ofNat 64 c) ∧
    ∀ a ∈ s.seated c, isBoot a.name = false → (s.actor a.name).st ≠ .free → (s.actor a.name).st ≠ .dying → (s.actor a.name).st ≠ .transit →
      (t.actor a.name).st = .dying ∧ (t.actor a.name).debt = some rAuditMismatch) ∧
  (∀ s : State, (∀ d ∈ s.duties, bit (s.arg.v.toNat % 32) d.duty = true) → Happens s .dutymodeWrite fun t =>
    t = { s with regs := { s.regs with duty := s.arg.v.toNat % 32, azEn := s.regs.azEn && !bit (s.arg.v.toNat % 32) 3 } }) ∧
  (∀ s : State, Happens s .hqackWrite fun t => (t.queue s.arg.n).ack = s.arg.v.toNat % 2 ^ 16 ∧
    Awaits s t 0 .hostQueueWrite { n := s.arg.n, flag2 := true } ∧ t.mem = s.mem) ∧
  (∀ s : State, Memory.wf s.mem = true → s.arg.flag2 = false → (s.queue s.arg.n).wait = [] →
    let x := s.queue s.arg.n
    let m := if s.arg.flag then { s.arg.msg with dest := s.service 2 } else s.arg.msg
    let n := (x.wr + 1) % 2 ^ 16
    ((n + 2 * 2 ^ 16 - x.ack - 1) % 2 ^ 16 < 2 ^ x.log → Happens s .hostQueueWrite fun t => t.queue s.arg.n = { x with wr := n } ∧
      t.bytes (busAddr (x.base + 128 * (n % 2 ^ x.log))) (msgBytes { m with seq := n }).length = msgBytes { m with seq := n } ∧
      ∀ a k, a + k ≤ busAddr (x.base + 128 * (n % 2 ^ x.log)) ∨ busAddr (x.base + 128 * (n % 2 ^ x.log)) + (msgBytes { m with seq := n }).length ≤ a →
        t.bytes a k = s.bytes a k) ∧
    (2 ^ x.log ≤ (n + 2 * 2 ^ 16 - x.ack - 1) % 2 ^ 16 → Happens s .hostQueueWrite fun t => t.queue s.arg.n = { x with wait := [m] } ∧ t.mem = s.mem)) ∧
  (∀ s : State, let c := s.arg.n
    let bs := s.bytes (portalBase + 2 ^ 16 * c + 128 * s.arg.m) 128
    let m := msgOf (bs.take 120)
    let good := crc64 0 (bs.take 120) = ofBytes (bs.drop 120)
    let d := (m.seq + 2 ^ 16 - (s.chan c).exp) % 2 ^ 16
    (s.regs.bootOpen = false → Happens s .portalSlotComplete fun t => t.chan c = { s.chan c with early := (s.chan c).early ++ [s.arg.m] }) ∧
    (s.regs.bootOpen = true →
      (¬ good → Happens s .portalSlotComplete fun t => Told s t c 5 1 m.seq 0 0 ∧ t.chans = s.chans) ∧
      (good → m.sender ≠ 0 → Happens s .portalSlotComplete fun t => Told s t c 5 3 m.seq 0 0 ∧ t.chans = s.chans) ∧
      (good → m.sender = 0 → 512 ≤ d → d < 32768 → Happens s .portalSlotComplete fun t => Told s t c 5 2 m.seq 0 0 ∧ t.chans = s.chans) ∧
      (good → m.sender = 0 → 32768 ≤ d → Happens s .portalSlotComplete fun t => t.chan c = { s.chan c with dup := ((s.chan c).dup + 1) % 2 ^ 16 }) ∧
      (good → m.sender = 0 → 0 < d → d < 512 → (s.chan c).held = [] → Happens s .portalSlotComplete fun t => t.chan c = { s.chan c with held := [m] }) ∧
      (good → m.sender = 0 → m.seq = (s.chan c).exp → m.seq < 2 ^ 16 → (s.chan c).held = [] → m.dest = s.service 1 → m.chan = 0 →
        Happens s .portalSlotComplete fun t => t.chan c = { s.chan c with exp := (m.seq + 1) % 2 ^ 16 } ∧ Awaits s t 0 .launch { msg := m, k := c }))) ∧
  (∀ s : State, let m := s.arg.msg
    let m1 := (m.m.getD 1 0).toNat
    let m3 := (m.m.getD 3 0).toNat
    (s.launchStatus m ≠ 0 → Happens s .launch fun t => Told s t s.arg.k 2 (s.launchStatus m) (bits m1 15 0 * 2 ^ 16 + m.seq) 0 0 ∧ t.jobs = s.jobs) ∧
    (s.launchStatus m = 0 → Happens s .launch fun t => ∃ j q, t.jobs = s.jobs ++ [j] ∧ j.jobn = bits m1 15 0 ∧ j.seatsQ = bits m3 60 48 ∧
      j.actQ = bits m3 47 32 ∧ j.buoyQ = bits m3 31 0 ∧ j.pmax = bits m1 34 32 ∧ Awaits s t 0 .spawnAnswer { req := q } ∧ q.kind = .root ∧ q.job = j.jobn ∧
      q.img = bits m1 31 16 ∧ q.arg = m.m.getD 2 0)) ∧
  (∀ s : State, let m := s.arg.msg
    (∀ e, s.load ((m.m.getD 0 0).toNat % 2 ^ 44) (m.m.getD 1 0).toNat = .error e → Happens s .load fun t => Told s t s.arg.k 1 e m.seq 0 0 ∧ t.files = s.files ∧ t.mem = s.mem) ∧
    (∀ h u, s.load ((m.m.getD 0 0).toNat % 2 ^ 44) (m.m.getD 1 0).toNat = .ok (h, u) → Happens s .load fun t => Told u t s.arg.k 1 0 m.seq (BitVec.ofNat 64 h) 0 ∧
      t.files = u.files ∧ t.mem = u.mem)) ∧
  (∀ s : State, let m := s.arg.msg
    let h := (m.m.getD 1 0).toNat
    ((∀ f ∈ s.files, f.handle ≠ h) → Happens s .unload fun t => Told s t s.arg.k 1 9 m.seq 0 0 ∧ t.files = s.files) ∧
    ((∃ f ∈ s.files, f.handle = h) → Happens s .unload fun t => Told s t s.arg.k 1 0 m.seq (BitVec.ofNat 64 h) 0 ∧
      (∀ f ∈ t.files, f.handle = h → f.marked = true) ∧
      ∀ f ∈ s.files, f.handle ≠ h → f.marked = false → f ∈ t.files)) ∧
  (∀ s : State, Memory.wf s.mem = true → let m := s.arg.msg
    let rep := (m.m.getD 2 0).toNat
    let cert := (m.m.getD 3 0).toNat
    let body := s.reportBody (m.m.getD 0 0) (m.m.getD 1 0)
    ((rep % 512 ≠ 0 ∨ cert % 512 ≠ 0) → Happens s .attestationRequest fun t => Told s t s.arg.k 10 1 m.seq 0 0 ∧ t.mem = s.mem) ∧
    (rep % 512 = 0 → cert % 512 = 0 → Happens s .attestationRequest fun t => Told s t s.arg.k 10 0 m.seq 0 0 ∧
      t.bytes (busAddr rep) 512 = fitBytes 512 (body ++ ecdsaSign Config.identityKey (Config.signNonce body) body))) ∧
  (∀ s : State, let m := s.arg.msg
    let w := fun i => (m.m.getD i 0).toNat
    ((∀ d ∈ s.duties, d.num ≠ w 0 % 2 ^ 32 ∨ d.duty ≠ w 0 / 2 ^ 56) → exec .dutyAnswer s = .next s) ∧
    (∀ num n va, s.duties = [⟨num, 0, .page n va⟩] → w 0 = num → num < 2 ^ 32 → s.alive n = true →
      (w 1 = 2 → Happens s .dutyAnswer fun t => t.duties = [] ∧ Awaits s t 0 .walkAnswer { actor := n, n := va, cls := .none }) ∧
      (w 1 = 0 → (∀ ri r, regionAt (s.image (s.actor n)) va = some (ri, r) → s.quotaFails (s.actor n) r (va / 2 ^ 16) = false) → Happens s .dutyAnswer fun t => Awaits s t 0 .walkAnswer { actor := n, n := va, cls := .mapped })) ∧
    (∀ num b, s.duties = [⟨num, 2, .audit b⟩] → w 0 = 2 * 2 ^ 56 + num → num < 2 ^ 32 → kvHas s.audits b = true → w 1 = 3 →
      Happens s .dutyAnswer fun t => t.duties = [] ∧ Awaits s t 0 .shadowRun { n := b }))

/-- The links between the dies (18 R366 to R370, R384): flits sent, received, refused and sent again, the error window and the retrain; a
module that retrains or is disabled sends and takes none. What their way does to flits and which modules train are free values. -/
def Obligations.DieLinkEvents : Prop :=
  ∀ s : State, let m := s.arg.n
    let d := s.arg.flag
    let u := s.module m
    let x := u.dir d
    let y := u.dir (!d)
    let f := s.arg.flit
    let on_ := u.busy = false ∧ u.lanes ≠ 2
    let back := some ((y.exp + 4095) % 4096)
    let ahead := some ((x.exp + 4095) % 4096)
    let goes (g : Flit) (noise : BitVec 2048) : Flit := damageFlit (sealFlit g) noise
    ((¬ on_ ∨ x.again = true ∨ 64 ≤ x.buf.length ∨ x.queue = []) → exec .flitTransmit s = .next s) ∧
    (on_ → x.again = false → x.buf.length < 64 → x.queue ≠ [] → Happens s .flitTransmit fun t =>
      let g : Flit := { fseq := x.next, pay := (packFlit 244 x.queue).1 }
      (t.module m).dir d = { x with next := (x.next + 1) % 4096, buf := x.buf ++ [g], queue := (packFlit 244 x.queue).2 } ∧
      Awaits s t 0 .flitReceive { n := m, flag := d, flit := goes { g with ack := back } (Config.flitNoise s.free) }) ∧
    (¬ on_ → exec .flitReceive s = .next s) ∧
    (on_ → flitFails f = false → f.ack = none → f.kind = .data → f.fseq = x.exp → Happens s .flitReceive fun t =>
      ((t.module m).dir d).exp = (x.exp + 1) % 4096 ∧ ((t.module m).dir d).nak = false ∧ Awaits s t 0 .idleFlit { n := m, flag := !d }) ∧
    (on_ → flitFails f = false → f.ack = none → f.kind = .data → f.fseq ≠ x.exp → exec .flitReceive s = .next s) ∧
    (∀ k, on_ → flitFails f = false → f.ack = some k → f.kind = .nak → Happens s .flitReceive fun t =>
      (t.module m).dir (!d) = { y with buf := afterAck k y.buf, acked := some k, again := true } ∧ Awaits s t 0 .nakResend { n := m, flag := !d, k := k }) ∧
    (∀ k, on_ → flitFails f = false → f.ack = some k → f.kind = .idle → Happens s .flitReceive fun t =>
      (t.module m).dir (!d) = { y with buf := afterAck k y.buf, acked := some k }) ∧
    (on_ → flitFails f = true → Happens s .flitReceive fun t =>
      ((t.module m).dir d).errc = min (x.errc + 1) 255 ∧ ((t.module m).dir d).nak = true ∧ ((t.module m).dir d).exp = x.exp ∧
      ((t.module m).dir d).rply = (if x.nak then x.rply else x.rply + 1) ∧
      (x.errc = 0 → Awaits s t (2 ^ s.regs.ewin - s.cycle % 2 ^ s.regs.ewin) .errorWindowEnd { n := m, flag := d }) ∧
      (x.errc < 255 → s.regs.ethr ≠ 0 → x.errc + 1 = s.regs.ethr → s.regs.hwrt = true →
        (t.module m).busy = true ∧ Awaits s t 1700 .retrainComplete { n := m }) ∧
      (x.nak = false → s.regs.ethr = 0 → Awaits s t 0 .flitReceive { n := m, flag := !d, flit := goes { kind := .nak, ack := ahead } (Config.flitNoise s.free) })) ∧
    (u.busy = true → exec .nakResend s = .next s) ∧
    (u.busy = false → Happens s .nakResend fun t => (t.module m).dir d = { x with again := false } ∧ Awaits s t 0 .flitTransmit { n := m, flag := d } ∧
      ∀ g ∈ afterAck s.arg.k x.buf, ∃ noise, Awaits s t 0 .flitReceive { n := m, flag := d, flit := goes { g with ack := back } noise }) ∧
    (¬ on_ → exec .idleFlit s = .next s) ∧
    (on_ → Happens s .idleFlit fun t => Awaits s t 0 .flitReceive { n := m, flag := d, flit := goes { kind := .idle, ack := back } (Config.flitNoise s.free) }) ∧
    (Happens s .errorWindowEnd fun t => (t.module m).dir d = { x with errc := 0 } ∧ (t.module m).dir (!d) = y) ∧
    (Happens s .retrainComplete fun t =>
      (Config.trains (s.free + 1) = true → (t.module m).busy = false ∧ (t.module m).lanes = (if d then 0 else 1) ∧
        ∀ e, Awaits s t 0 .flitTransmit { n := m, flag := e }) ∧
      (Config.trains (s.free + 1) = false → d = true → (t.module m).busy = true ∧ Awaits s t 1700 .retrainComplete { n := m }) ∧
      (Config.trains (s.free + 1) = false → d = false → (t.module m).lanes = 2 ∧ Told s t 0 7 2 0 0 (BitVec.ofNat 64 m) ∧
        ((t.module m).dir d).rply = x.rply ∧ ((t.module m).dir (!d)).rply = y.rply)) ∧
    (let sel := s.arg.v.toNat % 256
     Happens s .d2dRetrain fun t => t.regs = { s.regs with sel := sel } ∧
      (bit s.arg.v.toNat 63 = true → sel < 192 → (s.module sel).busy = false → (t.module sel).busy = true ∧
        Awaits s t 1700 .retrainComplete { n := sel, flag := true } ∧
        ∀ e ∈ t.agenda, e.ev.ev = .flitReceive ∨ e.ev.ev = .nakResend ∨ e.ev.ev = .idleFlit → e.ev.arg.n ≠ sel) ∧
      ((bit s.arg.v.toNat 63 = false ∨ 192 ≤ sel ∨ (s.module sel).busy = true) → t.ucie = s.ucie ∧ t.agenda = s.agenda))

/-- The pod fabric (18 R374 to R376; 16 R359): a request that no reply answers is sent again under a new tag until its tries are spent,
a reply is matched by its tag, and a station whose link stays down loses its plane. -/
def Obligations.FabricEvents : Prop :=
  ∀ s : State, let n := s.arg.n
    let i := s.arg.m
    let e := kvGet {} (s.station n).ents i
    ((e.busy = false ∨ e.gen ≠ s.arg.k) → exec .fabricTimeout s = .next s) ∧
    (e.busy = true → e.gen = s.arg.k → e.tries ≠ 1 + s.regs.fretry → e.module = none → Happens s .fabricTimeout fun t =>
      kvGet {} (t.station n).ents i = { e with gen := (e.gen + 1) % 16, tries := e.tries + 1 } ∧
      Awaits s t (2 ^ s.regs.ftmo) .fabricTimeout { n := n, m := i, k := (e.gen + 1) % 16 }) ∧
    (e.busy = true → e.gen = s.arg.k → e.tries = 1 + s.regs.fretry →
      exec .fabricTimeout s = .next (match e.module with | none => s.losePlane n | some m => s.losePeer m)) ∧
    (let j := s.arg.rep.tag / 16
     let q := kvGet {} (s.station n).ents j
     ((q.busy = false ∨ q.gen ≠ s.arg.rep.tag % 16 ∨ s.planeDead n = true) → Happens s .fabricReply fun t =>
       t = { s with regs := { s.regs with late := min (s.regs.late + 1) (2 ^ 32 - 1) } }) ∧
     (q.busy = true → q.gen = s.arg.rep.tag % 16 → s.planeDead n = false → (s.station n).queue = [] →
       let u := s.setStation n { ents := kvSet (s.station n).ents j { gen := (q.gen + 1) % 16 } }
       (∀ m, q.module = some m → exec .fabricReply s = .next (if q.msg.actor ≠ 0 then u
         else if s.arg.rep.st = 1 then u.dropped { q.msg with k := 0 } else u.endXfers q.msg.xids)) ∧
       (q.module = none → Happens s .fabricReply fun t => kvGet {} (t.station n).ents j = { gen := (q.gen + 1) % 16 } ∧ t.regs = s.regs ∧
         t.stations = u.stations ∧ t.actors = s.actors))) ∧
    (let p := s.arg.n % 16
     (s.planeDead p = true → exec .stationLinkDown s = .next s) ∧
     (s.planeDead p = false → s.station p = {} → (∀ e ∈ s.ports, e.1 % 128 = 64 + p → e.2.held = []) → s.regs.dsw + 2 ^ p ≠ 0xFFFF →
       (∀ c ∈ s.cells, ∀ x ∈ c.2.xfers, x.kind = .contrib → x.left = 0) → Happens s .stationLinkDown fun t => t.regs = { s.regs with dsw := s.regs.dsw + 2 ^ p } ∧ Told s t 0 9 0 0 0 (BitVec.ofNat 64 p) ∧
         (∀ f ∈ t.fwds, f.reply.home ≠ .plane p) ∧ (∀ r ∈ t.reds, r.home ≠ .plane p) ∧ t.actors = s.actors ∧
         t.jobs = s.jobs.map fun j => if j.agent = p then { j with agent := (t.livePlane ((p + 1) % 16)).getD p } else j))

/-- The homes (03 R76 to R78, R82; 18 R374; 09 R215, R217, R220, R221): what a read, a write, a masked write, an atomic, a declaration and a
contribution do at a home whose allocation is not mirrored, with the reply of each; that a packet for a plane first enters its station; and
the end of a forward to a mirror. -/
def Obligations.HomeEvents : Prop :=
  ∀ s : State, let p := s.arg.pkt
    let reds := s.reds.filter fun x => x.home == p.home
    let asks : List Instr := [.rd, .wr, .wrm, .at_, .rcDeclaration, .rcContribution]
    (∀ k, p.home = .plane k → s.arg.flag = false → ∀ ev ∈ asks,
      exec ev s = .next (if s.planeDead k = true then s.loseRequest p else s.enterStation k { rq := p.rq, pkt := p })) ∧
    let here := s.arg.flag = true ∨ ∀ k, p.home ≠ .plane k
    (here → s.present p.pa = false → ∀ ev ∈ asks, exec ev s = .fault (.noSuchAddress p.pa)) ∧
    (here → s.present p.pa = true → s.mirrored p.pa = none →
      Answers s .rd { replyTo p with data := s.bytes p.pa (64 * p.len), len := p.len, pois := (List.range p.len).filter fun g => s.gpois.contains (p.pa / 64 + g) }
        (fun t => t.mem = s.mem ∧ t.gpois = s.gpois) ∧
      Answers s .wr (written p (2 ^ p.data.length - 1) p.data.length) (fun t => t.mem = Memory.write s.mem p.pa p.data ∧
        ∀ g, g ∈ t.gpois ↔ g ∈ s.gpois ∧ g ∉ granulesOf p.pa p.data.length) ∧
      Answers s .wrm { written p p.mask 64 with pois := if s.gpois.contains (p.pa / 64) && !(p.mask == 2 ^ 64 - 1) then [0] else [] }
        (fun t => t.mem = Memory.write s.mem p.pa (mergeMask p.mask (s.bytes p.pa 64) p.data) ∧
          ∀ g, g ∈ t.gpois ↔ g ∈ s.gpois ∧ (p.mask = 2 ^ 64 - 1 → g ≠ p.pa / 64)) ∧
      (∀ r, s.recall p = some r → Answers s .at_ r (fun t => t.mem = s.mem) ∧ Answers s .rcContribution r (fun t => t.mem = s.mem ∧ t.reds = s.reds) ∧
        Answers s .rcDeclaration r (fun t => t.reds = s.reds)) ∧
      (s.recall p = none → let old := BitVec.ofNat 64 (s.num p.pa 8)
        (s.gpois.contains (p.pa / 64) = true → Answers s .at_ { replyTo p with val := old, pois := [0] } (fun t => t.mem = s.mem ∧ t.filters = s.filters)) ∧
        (s.gpois.contains (p.pa / 64) = false → Answers s .at_ { replyTo p with val := old } (fun t =>
          t.mem = (match atomicNew p.aop old p.v p.c with | some v => Memory.write s.mem p.pa (bytesOf 8 v.toNat) | none => s.mem) ∧
          (kvGet [] t.filters (portKey p.rq p.home)).head? = some (p.reqid, { replyTo p with val := old })))) ∧
      (s.recall p = none → let size := min 4096 (p.rc.rows * rowBytes p.rc.cols (descOf p.rc.desc).wd - 4096 * p.rc.pc)
        ((∃ x ∈ reds, x.pa = p.pa) → Answers s .rcDeclaration { replyTo p with st := 7 } (fun t => t.reds = s.reds)) ∧
        ((∀ x ∈ reds, x.pa ≠ p.pa) → 64 ≤ reds.length → Answers s .rcDeclaration { replyTo p with st := 6 } (fun t => t.reds = s.reds)) ∧
        ((∀ x ∈ reds, x.pa ≠ p.pa) → reds.length < 64 → Answers s .rcDeclaration { replyTo p with st := 0 } (fun t =>
          t.reds = s.reds ++ [{ home := p.home, pa := p.pa, bytes := size, lead := p.rc.lead, ctl := p.rc }]))) ∧
      (s.recall p = none → ((∀ x ∈ reds, x.pa ≠ p.pa) → Answers s .rcContribution { replyTo p with st := 5 } (fun t => t.mem = s.mem)) ∧
        ∀ r, (s.reds.find? fun x => x.home == p.home && x.pa == p.pa) = some r →
          let fits := p.rc.k < r.ctl.k ∧ r.ctl.rows = p.rc.rows ∧ r.ctl.cols = p.rc.cols ∧ redAdmits r.ctl.desc p.rc.desc = true
          let merged := p.rc.k < r.nx ∨ ∃ h ∈ r.holds, h.1 = p.rc.k
          (¬ fits → Answers s .rcContribution { replyTo p with st := 4 } (fun t => t.mem = s.mem ∧ t.reds = s.reds)) ∧
          (fits → merged → Answers s .rcContribution { replyTo p with st := 3 } (fun t => t.mem = s.mem ∧ t.reds = s.reds)) ∧
          (fits → ¬ merged → p.rc.k ≠ r.nx → total (reds.map fun x => x.holds.length) < 64 →
            Answers s .rcContribution { replyTo p with st := 1 } (fun t => t.mem = s.mem ∧
              { r with holds := r.holds ++ [(p.rc.k, p.data, p.rc.desc, p.pois)] } ∈ t.reds)) ∧
          (fits → ¬ merged → p.rc.k ≠ r.nx → 64 ≤ total (reds.map fun x => x.holds.length) →
            Answers s .rcContribution { replyTo p with st := 2 } (fun t => t.mem = s.mem ∧ t.reds = s.reds ∧ t.filters = s.filters)) ∧
          (Memory.wf s.mem = true → fits → p.rc.k = r.nx → r.holds = [] → p.rc.k + 1 ≠ r.ctl.k → Answers s .rcContribution { replyTo p with st := 0 } (fun t =>
            t.bytes r.pa (s.merge r p.rc.k p.data p.rc.desc p.pois).1.length = (s.merge r p.rc.k p.data p.rc.desc p.pois).1 ∧ { r with nx := p.rc.k + 1, done := false } ∈ t.reds)))) ∧
    ((∀ f ∈ s.fwds, f.id ≠ s.arg.n) → exec .mirrorAck s = .next s ∧ exec .mirrorForwardTimeout s = .next s) ∧
    (∀ f, (s.fwds.find? fun f => f.id == s.arg.n) = some f →
      (s.planeDead f.mirror = true → exec .mirrorAck s = .next s) ∧
      (s.planeDead f.mirror = false → Answers s .mirrorAck f.reply fun t => t.fwds = s.fwds.filter (fun x => x.id != f.id) ∧
        t.mem = f.writes.foldl (fun m w => Memory.write m w.1 w.2) s.mem) ∧
      Answers s .mirrorForwardTimeout f.reply fun t => t.fwds = s.fwds.filter (fun x => x.id != f.id) ∧ (∀ k ∈ f.back, k ∈ t.lone) ∧ t.mem = s.mem)

/-- Replies at their requesters (03 R71, R74, R76; 09 R206, R215, R217, R221, R222): every reply frees its tag, and then a read's bytes
land, a write is acknowledged, an atomic's old value becomes ready, and a contribution is acknowledged, sent again or fatal. -/
def Obligations.ReplyEvents : Prop :=
  ∀ s : State, let r := s.arg.rep
    let u := s.freeTag r
    (u.mem = s.mem ∧ u.cells = s.cells ∧ u.spois = s.spois ∧ u.reds = s.reds ∧ (∀ n, n ≠ r.owner → u.actor n = s.actor n) ∧
      (s.has r.owner = true → u.actor r.owner = { s.actor r.owner with name := r.owner, flying := (s.actor r.owner).flying.erase (r.pa / 2 ^ 16) }) ∧
      ∀ k, r.home = .slice k → (s.port r.rq r.home).held = [] → (u.port r.rq r.home).used = (s.port r.rq r.home).used.filter (· != r.tag)) ∧
    (s.xfer r.rq r.xid = none → exec .rdr s = .next (if s.arg.k = 0 then u else s) ∧ exec .rca s = .next u ∧ exec .rcRetry s = .next s) ∧
    (let v := if s.arg.k = 0 then u else s
     ∀ x p, Memory.wf s.mem = true → s.xfer r.rq r.xid = some x → (x.pieces.find? fun p => p.off == r.piece) = some p →
      let k := regionKey (v.actor x.actor) + x.soff + p.off + s.arg.k
      let sh := p.va % 64 + s.arg.k
      let n := rowRoom k (p.len - s.arg.k)
      let bs := (r.data.drop sh).take n
      (v.alive x.actor = true → Happens s .rdr fun t => t.bytes k bs.length = bs ∧ (∀ a n, a + n ≤ k ∨ k + bs.length ≤ a → t.bytes a n = s.bytes a n) ∧
        (ceilDiv (sh % 64 + n) 64 = 1 → t.spois = (s.spoisWrite k n (r.pois.contains (sh / 64))).spois) ∧
        (s.arg.k + n < p.len → t.xfer r.rq r.xid = some x ∧ Awaits v t 0 .rdr { rep := r, k := s.arg.k + n }) ∧
        (p.len ≤ s.arg.k + n → (t.xfer r.rq r.xid).map (·.left) = some (x.left - 1) ∧
          (x.left = 1 → x.held = [] → x.todo = [] → x.kind = .fetch → Awaits v t 0 .transferComplete { n := r.rq, m := r.xid }))) ∧
      (v.alive x.actor = false → Happens s .rdr fun t => t.mem = s.mem ∧ t.spois = s.spois ∧ (t.xfer r.rq r.xid).map (·.left) = some (x.left - 1))) ∧
    (r.rq = 560 → exec .wack s = .next (u.portalAck r.pa r.piece r.len)) ∧
    (∀ x, r.rq ≠ 560 → s.xfer r.rq r.xid = some x → Happens s .wack fun t => t.mem = s.mem ∧ (t.xfer r.rq r.xid).map (·.left) = some (x.left - 1) ∧
      (x.left = 1 → x.held = [] → x.todo = [] → x.pieces = [] → Awaits u t 0 .transferComplete { n := r.rq, m := r.xid })) ∧
    (s.has r.owner = true → Happens s .atr fun t => t.mem = s.mem ∧ let a := s.actor r.owner
      t.actor r.owner = { (a.fill r.xid r.val (!r.pois.isEmpty)) with name := r.owner, outs := a.outs.filter (fun o => o.id != r.xid), flying := a.flying.erase (r.pa / 2 ^ 16) }) ∧
    (∀ x, s.xfer r.rq r.xid = some x → r.kind = .rcDecl → x.left = 1 → x.toRead = 0 → s.has x.actor = true →
      let st := if r.st = 6 then 1 else if r.st = 7 then 2 else 0
      Happens s .rca fun t => t.xfer r.rq r.xid = none ∧ t.reds = (if st = 0 then s.reds else s.reds.filter fun y => y.lead != x.id) ∧
        (t.actor x.actor).h = (s.actor x.actor).h.map (fillTok x.id (BitVec.ofNat 64 st) false) ∧
        (t.actor x.actor).outs = (s.actor x.actor).outs.filter fun o => o.id != x.id) ∧
    (∀ x, s.xfer r.rq r.xid = some x → r.kind = .rc →
      (r.st = 2 → exec .rca s = .next (u.post 512 .rcRetry { rep := r })) ∧
      (r.st = 3 → exec .rca s = .next (killActor u x.actor rReplyTwice)) ∧
      (r.st = 4 → exec .rca s = .next (killActor u x.actor rTileBounds)) ∧
      (r.st = 5 → exec .rca s = .next (killActor u x.actor rExtent)) ∧
      (r.st ≤ 1 → Happens s .rca fun t => (t.xfer r.rq r.xid).map (·.left) = some (x.left - 1))) ∧
    (∀ x p, s.xfer r.rq r.xid = some x → (x.pieces.find? fun p => p.off == r.piece) = some p →
      let q : Packet := { contribPkt r.rq x.actor x.id r.pa p.off x.rc ((x.data.drop p.off).take p.len) with reqid := r.reqid, home := r.home }
      (s.alive x.actor = false → exec .rcRetry s = .next s) ∧
      (s.alive x.actor = true → (∀ k, r.home = .plane k → s.planeDead k = false) → exec .rcRetry s = .next (s.sendAgain q)) ∧
      (∀ k, s.alive x.actor = true → r.home = .plane k → s.planeDead k = true → exec .rcRetry s = .next (s.rehome q))) ∧
    (let ps := s.reds.filter fun x => x.lead == s.arg.n && !x.mirror
     (ps.any (fun x => !x.done) = true → exec .reductionNotice s = .next s) ∧
     (∀ q, ps.head? = some q → ps.all (·.done) = true → ps.length = q.ctl.npc →
       exec .reductionNotice s = .next (({ s with reds := s.reds.filter fun x => x.lead != s.arg.n } : State).partMessage
         { dest := q.ctl.rcp, sender := q.ctl.iss, chan := Fin.ofNat 16 q.ctl.ch, plen := 4, m := [BitVec.ofNat 64 q.ctl.tva, BitVec.ofNat 64 q.ctl.k, 0, 0] })))

/-- Astrolabe's page service (04 R101, R103 to R109; 21 R402): walks and their answers, the replay of a side log, and the migration of a
page with the invalidations that it asks for. -/
def Obligations.MemoryServiceEvents : Prop :=
  ∀ s : State, let n := s.arg.actor
    let va := s.arg.n
    let a := s.actor n
    let reply := fun c => exec .walkRequest s = .next (s.post 0 .walkAnswer { actor := n, n := va, cls := c })
    let waiting := { a with walks := a.walks.map fun w => if w.1 == va / 2 ^ 16 then (va / 2 ^ 16, true) else w }
    let rest := a.walks.filter fun w => w.1 != va / 2 ^ 16
    let walked := a.walks.any fun w => w.1 == va / 2 ^ 16
    (s.alive n = false → exec .walkRequest s = .next s ∧ exec .walkAnswer s = .next s) ∧
    (s.alive n = true → s.arg.flag = true →
      exec .walkRequest s = .next (s.walkArea a s.arg) ∧ exec .walkAnswer s = .next (s.unhold n)) ∧
    (s.alive n = true → s.arg.flag = false →
      (regionAt (s.image a) va = none → reply .none) ∧
      (∀ i r, regionAt (s.image a) va = some (i, r) → (r.locked = true → reply .none) ∧
        (r.locked = false → (∀ b, s.backing a r (va / 2 ^ 16) = some b → reply (if b.moving then .absent else .mapped)) ∧
          (s.backing a r (va / 2 ^ 16) = none →
            ((r.kind = .host ∨ s.hostDuty 0 = true) → Happens s .walkRequest fun t => Awaits s t 0 .walkAnswer { actor := n, n := va, cls := .absent } ∧
              t.duties = s.duties ++ [{ num := s.dutyNum, duty := 0, what := .page n va }] ∧ t.backs = s.backs ∧ t.mem = s.mem) ∧
            (r.kind ≠ .host → s.hostDuty 0 = false →
              (∀ u, s.back a r (va / 2 ^ 16) = some u →
                exec .walkRequest s = .next ((u.post 0 .walkAnswer { actor := n, n := va, cls := .absent }).post 0 .walkAnswer { actor := n, n := va, cls := .mapped })) ∧
              (s.back a r (va / 2 ^ 16) = none → if s.quotaFails a r (va / 2 ^ 16) then reply .none else
                exec .walkRequest s = .next ((s.post 0 .walkAnswer { actor := n, n := va, cls := .absent }).lookAgain (r.kind == .dram) { actor := n, n := va })))))) ∧
      (s.arg.cls = .absent → exec .walkAnswer s = .next (s.setActor waiting)) ∧
      (s.arg.cls = .none → ((∀ i r, regionAt (s.image a) va = some (i, r) → r.kind ≠ .host) ∨ a.xwalk ≠ some (va / 2 ^ 16) ∨ walked = true) →
        exec .walkAnswer s = .next (killActor s n rExtent)) ∧
      (s.arg.cls = .none → (∃ i r, regionAt (s.image a) va = some (i, r) ∧ r.kind = .host) → a.xwalk = some (va / 2 ^ 16) → walked = false →
        exec .walkAnswer s = .next (s.setActor { a with xwalk := none, pend := some 4 })) ∧
      (∀ i r b, s.arg.cls = .mapped → regionAt (s.image a) va = some (i, r) → s.backing a r (va / 2 ^ 16) = some b → b.moving = false → walked = true →
        let e := s.walkExt a r b (va / 2 ^ 16)
        let d : Actor := { a with walks := rest }
        exec .walkAnswer s = .next ((s.setActor (if a.exts.any fun e => e.valid && e.covers (va / 2 ^ 16) then d else
          d.install (s.mkExt a i r e.1 e.2.1 e.2.2 false false))).resume n))) ∧
    ((∀ e ∈ (s.cell s.arg.n).side, e.actor ≠ n) → exec .sideLogReplay s = .next s) ∧
    (∀ e p pa u, (s.cell s.arg.n).side = [e] → e.actor = n → s.alive n = true → e.kind = .at_ → e.pieces = [p] → s.lookFor n .atomic p.va = (.hit pa, u) →
      exec .sideLogReplay s = .next ((u.sendPkt (atomicPkt s.arg.n n e.id e.aop e.v e.c pa)).settle s.arg.n e [])) ∧
    (∀ b, s.arg.flag = true → (s.backs.find? fun b => b.ppage == va && b.moving) = some b → Memory.wf s.mem = true → Happens s .migration fun t =>
      t.bytes (b.dest * 2 ^ 16) (2 ^ 16) = s.bytes (va * 2 ^ 16) (2 ^ 16) ∧ va ∉ t.queued ∧
      ∀ x k, x + k ≤ b.dest * 2 ^ 16 ∨ b.dest * 2 ^ 16 + 2 ^ 16 ≤ x → t.bytes x k = s.bytes x k) ∧
    (s.arg.flag = false → s.arg.k = 0 → (∀ b, s.backAt va = some b → b.counted = false ∨ b.moving = true ∨ b.kind ≠ .cxl) → Happens s .migration fun t =>
      va ∉ t.queued ∧ va ∉ t.notes ∧ t.backs = s.backs ∧ t.mem = s.mem) ∧
    (∀ b d, s.arg.flag = false → s.arg.k = 0 → s.backAt va = some b → b.counted = true → b.moving = false → b.kind = .cxl → s.findRun .dram 1 1 0 false = some d →
      Happens s .migration fun t => t.mem = s.mem ∧ (∀ x, s.all.filter (fun a => a.holds va) ≠ [] → x ∈ s.all → x.holds va = true →
          Awaits s t 0 .invalidation { actor := x.name, n := va, m := 1 }) ∧
        (s.all.filter (fun a => a.holds va) = [] → Awaits s t 0 .migration { n := va, flag := true })) ∧
    (s.has n = true → Happens s .invalidation fun t => t.actor n = { a.dropRun va s.arg.m with name := n } ∧ Awaits s t 0 .invalidationAck s.arg ∧ t.mem = s.mem) ∧
    (s.has n = true → a.flies [(va, s.arg.m)] = true → exec .invalidationAck s = .next (s.post 1 .invalidationAck s.arg)) ∧
    (∀ b, (s.has n = false ∨ a.flies [(va, s.arg.m)] = false) → s.arg.other = 0 → (s.backs.find? fun b => b.ppage == va && b.moving) = some b → Happens s .invalidationAck fun t =>
      t.mem = s.mem ∧ (b.acks ≤ 1 → Awaits s t 0 .migration { n := va, flag := true }) ∧
      t.backs = s.backs.map fun c => if c.ppage == va && c.npg == 1 then { c with acks := c.acks - 1 } else c)

/-- Transfers after their issue, and the two units (05 R118, R119, R123, R128 to R131; 09 R205, R206; 10 R231, R232, R248; 11 R263): sources are
read, last bytes land, tiles and relays reach their receivers, and a unit's writes are put in place. -/
def Obligations.TransferAndUnitEvents : Prop :=
  ∀ s : State, Memory.wf s.mem = true → let c := s.arg.n
    let id := s.arg.m
    let e := s.cell c
    let g := s.arg
    let to_ := s.actor g.actor
    (s.xfer c id = none → exec .transferComplete s = .next s ∧ exec .outboundReadDone s = .next s ∧ exec .relaySend s = .next s ∧ exec .relayArrival s = .next s) ∧
    (∀ x, s.xfer c id = some x → let a := s.actor x.actor
      let key := regionKey a
      (s.audits = [] → s.has x.actor = true → (x.kind ≠ .fetch ∨ x.src = none) → Happens s .transferComplete fun t => t.xfer c id = none ∧ t.mem = s.mem ∧ (∀ y ∈ (t.cell c).side, y.id ≠ id) ∧
        let b : Actor := match x.dst with | some h => if (tileAt a h).state = TileState.filling then a.tileState h .ready else a | none => a
        let b := b.credits x.bars x.bytes
        t.actor x.actor = { b with name := x.actor, outs := b.outs.filter fun o => o.id != x.id }) ∧
      (s.alive x.actor = false → exec .outboundReadDone s = .next s) ∧
      (s.alive x.actor = true →
        (∀ p r, x.kind = .write ∨ (x.kind = .scatter ∧ x.toRead = 0) → x.pieces = p :: r →
          let k := key + x.soff + p.off + x.data.length
          let n := rowRoom k (p.len - x.data.length)
          let bs := x.data ++ s.bytes k n
          (s.spoisoned k n = true → exec .outboundReadDone s = .next (killActor s x.actor rPoison)) ∧
          (s.spoisoned k n = false → bs.length < p.len → Happens s .outboundReadDone fun t => t.mem = s.mem ∧ t.xfer c id = some { x with data := bs } ∧
            Awaits s t 0 .outboundReadDone { n := c, m := id }) ∧
          (∀ pa, s.spoisoned k n = false → p.len ≤ bs.length → p.pa = some pa →
            let ps := writePkts c x.actor id pa bs
            let u := ps.foldl State.sendPkt (s.modXfer c id fun y => { y with left := y.left + ps.length, pieces := r, data := [] })
            exec .outboundReadDone s = .next (if r.isEmpty then u.writeSent c x else u.post 0 .outboundReadDone { n := c, m := id }))) ∧
        (∀ p r pa, x.kind = .fetch ∨ (x.kind = .gather ∧ x.toRead = 0) → x.todo = p :: r → p.pa = some pa →
          let u := ((s.modXfer c id fun y => { y with todo := r }).modXfer c id fun y => { y with left := y.left + 1 }).sendPkt (readPkt c x.actor id p pa)
          exec .outboundReadDone s = .next (if r.isEmpty then u else u.post 0 .outboundReadDone { n := c, m := id })) ∧
        ((x.kind = .gather ∨ x.kind = .scatter) → x.toRead ≠ 0 → 0 < x.k → (indexVals (intDesc 4 32 true) [s.readRow (key + x.doff) x.k 32]).head?.map (·.2) = some true →
          killable a → Happens s .outboundReadDone fun t => (t.actor x.actor).st = .dying ∧ (t.actor x.actor).debt = some rPoison) ∧
        (x.kind = .copy → let n := min 128 (x.bytes - x.left)
          Happens s .outboundReadDone fun t => t.bytes (key + x.doff + x.left) n = s.bytes (key + x.soff + x.left) n ∧
          (∀ k m, k + m ≤ key + x.doff + x.left ∨ key + x.doff + x.left + n ≤ k → t.bytes k m = s.bytes k m) ∧ t.xfer c id = some { x with left := x.left + n } ∧
          if x.left + n < x.bytes then Awaits s t 0 .outboundReadDone { n := c, m := id } else Awaits s t 0 .transferComplete { n := c, m := id }) ∧
        (x.kind = .give → let k := key + x.soff + x.data.length
          let n := rowRoom k (x.bytes - x.data.length)
          (s.spoisoned k n = true → exec .outboundReadDone s = .next (killActor s x.actor rPoison)) ∧
          (s.spoisoned k n = false → Happens s .outboundReadDone fun t => t.mem = s.mem ∧ let bs := x.data ++ s.bytes k n
            if bs.length < x.bytes then t.xfer c id = some { x with data := bs } ∧ Awaits s t 0 .outboundReadDone { n := c, m := id }
            else t.xfer c id = some { x with data := bs, toRead := 0 })) ∧
        (x.kind = .contrib → exec .outboundReadDone s = .next ((s.sourceRead x.actor x.src).maybeDone c id))) ∧
      (let d := s.actor x.dest
        let reading := match e.munit with | some j => j.readsLb && j.actor == x.actor | none => false
        let left := ((s.modXfer c id fun y => { y with toRead := 0 }).modCell c fun q => q.leaveLatch x.actor).modActor x.actor fun q => q.dropOut id
        (x.toRead = 0 ∨ reading = true → exec .relaySend s = .next s) ∧
        (x.toRead ≠ 0 → reading = false → (s.alive x.dest = false → exec .relaySend s = .next (left.delXfer c id)) ∧
          (s.alive x.dest = true → (d.st = .transit → exec .relaySend s = .next { s with held := s.held ++ [⟨x.dest, ⟨.relaySend, g⟩⟩] }) ∧
            (d.st = .parked ∨ d.st ≠ .transit ∧ (s.cell d.cell).lbIn ≠ 0 → exec .relaySend s = .next (s.post 1 .relaySend g)) ∧
            (d.st ≠ .transit → d.st ≠ .parked → (s.cell d.cell).lbIn = 0 → Happens s .relaySend fun t => t.mem = s.mem ∧ t.xfer c id = some { x with toRead := 0 } ∧
              (d.cell ≠ c → (t.cell d.cell).lbIn = x.dest ∧ (t.cell d.cell).lbInSrc = id))))) ∧
      (Happens s .relayArrival fun t => t.xfer c id = none ∧ t.mem = s.mem ∧ ∀ k, k ≠ c → id ≠ 0 → x.k ≠ 1 → s.alive x.dest = true → (s.cell k).lbInSrc = id →
        t.cell k = ({ s.cell k with lbNext := { x.latch with loaded := true } } : Cell).promote)) ∧
    (s.alive g.actor = false → exec .tileLanded s = .next (s.endXfers g.xids)) ∧
    (s.alive g.actor = true → to_.st = .transit → exec .tileLanded s = .next { s with held := s.held ++ [⟨g.actor, ⟨.tileLanded, g⟩⟩] }) ∧
    (∀ m bs, s.alive g.actor = true → to_.st ≠ .transit → to_.name = g.actor → (to_.mbox.find? fun x => x.msg.sender == g.other && x.msg.seq == g.n) = some m → m.spill = [] → g.tiles = [bs] →
      let k := regionKey to_ + (to_.zones.getD g.m {}).off
      Happens s .tileLanded fun t => t.bytes k bs.length = bs ∧ (∀ a n, a + n ≤ k ∨ k + bs.length ≤ a → t.bytes a n = s.bytes a n) ∧
        (t.actor g.actor).mbox = to_.mbox.map fun x => if x.arr == m.arr then { x with wait := x.wait.filter (· != g.m), spill := x.spill.map fun y => if y.1 == g.m then (y.1, bs) else y } else x) ∧
    (let waits := fun (x : Xfer) => x.kind == .mcast && x.bus == some c && x.toRead != 0
     let cs := (s.cells.filter fun q => q.2.xfers.any waits).map (·.1)
     (cs = [] → exec .mcastBusServe s = .next s) ∧
     (∀ b x, minBy (fun q => (busPlace q c + 16 - kvGet 15 s.buses c - 1) % 16) cs = some b → (s.cell b).xfers.find? waits = some x →
       let k := regionKey (s.actor x.actor) + x.soff
       (s.spoisoned k x.bytes = true → exec .mcastBusServe s = .next (killActor { s with buses := kvSet s.buses c (busPlace b c) } x.actor rPoison)) ∧
       (s.spoisoned k x.bytes = false → Happens s .mcastBusServe fun t => t.mem = s.mem ∧ kvGet 15 t.buses c = busPlace b c ∧
         t.xfer b x.id = if x.left = 0 then none else (s.xfer b x.id).map fun y => { y with data := s.bytes k x.bytes, toRead := 0 }))) ∧
    (e.munit = none → exec .matrixComplete s = .next s) ∧ (e.vunit = none → exec .vectorComplete s = .next s) ∧
    (∀ j, e.munit = some j → Happens s .matrixComplete fun t => t.mem = (j.writes.foldl (fun m w => Memory.write m w.1 w.2) s.mem) ∧ (t.cell c).munit = none ∧
      (s.isOver (j.actor, j.inv) = false → (t.cell c).accs = e.accs.mapIdx fun k a => if j.accs.contains k then { a with busy := false } else a) ∧
      (∀ h, s.alive j.actor = true → j.ready = [h] → (tileAt (s.actor j.actor) h).state = .filling → t.actor j.actor = { (s.actor j.actor).tileState h .ready with name := j.actor })) ∧
    (∀ j, e.vunit = some j → Happens s .vectorComplete fun t => t.mem = (j.writes.foldl (fun m w => Memory.write m w.1 w.2) s.mem) ∧
      (t.cell c) = { e with vunit := none } ∧ (s.alive j.actor = false → t.actors = s.actors) ∧
      (∀ h, s.alive j.actor = true → j.ready = [h] → (tileAt (s.actor j.actor) h).state = .filling → t.actor j.actor = { (s.actor j.actor).tileState h .ready with name := j.actor }))

/-- Messages, replies and signals at their receivers, the start of an invocation and the end of a budget (11 R261, R269, R271 to
R273; 14 R311, R315 to R317, R322; 16 R346, R347). -/
def Obligations.MessageEvents : Prop :=
  ∀ s : State, let g := s.arg
    let m := g.msg
    let t := s.actor m.dest
    let p := pairOf t m.sender
    let d := (m.seq + 2 ^ 16 - p.exp) % 2 ^ 16
    let met := t.setPair { p with exp := (p.exp + 1) % 2 ^ 16 }
    let n := g.actor
    let a := s.actor n
    (g.flag = true → (s.peerDead (pkgOf m.dest) = true → g.actor = 0 → (∀ bs ∈ g.tiles, bs = []) → exec .messageArrival s = .next (s.dropped { g with k := 0 })) ∧
      ∀ k, s.peerDead (pkgOf m.dest) = false → s.livePlane g.n = some k →
        exec .messageArrival s = .next (s.enterStation k { module := some (pkgOf m.dest), rq := g.k, msg := { g with flag := false } })) ∧
    (g.flag = false → g.flag2 = true → exec .messageArrival s = .next (if pkgOf m.sender = s.regs.aid then s.post 0 .messageResend g else s)) ∧
    (Happens s .messageResend fun u => u.free = s.free + 1 ∧ u.actors = s.actors ∧ u.mem = s.mem ∧ u.seqs = s.seqs) ∧
    (g.flag = false → g.flag2 = false → m.exit = false →
      (m.dest = s.service 2 → exec .messageArrival s = .next (s.post 0 .hostQueueWrite { n := m.chan.val % 4, msg := m })) ∧
      (m.dest ≠ s.service 2 → s.alive m.dest = false → m.bounce = false → s.has m.sender = true → Happens s .messageArrival fun u =>
        u.actor m.sender = { ({ s.actor m.sender with drops := (s.actor m.sender).drops + 1 } : Actor).dropPair m.dest with name := m.sender }) ∧
      (m.dest ≠ s.service 2 → s.alive m.dest = true → t.st = .transit → exec .messageArrival s = .next { s with held := s.held ++ [⟨m.dest, ⟨.messageArrival, g⟩⟩] }) ∧
      (m.dest ≠ s.service 2 → s.alive m.dest = true → t.st ≠ .transit → t.name = m.dest → g.nats = [] →
        (32768 ≤ d → Happens s .messageArrival fun u => u.actors = s.actors) ∧
        (0 < d → d < 32768 → let b := t.setPair { p with held := (p.held.filter fun x => x.msg.seq != m.seq) ++ [g] }
          (ovfFits b = false → exec .messageArrival s = .next ((killActor s m.dest rOverflow).endXfers g.xids)) ∧
          (ovfFits b = true → s.gapFor b = none → exec .messageArrival s = .next (s.setActor b)) ∧
          ∀ vp, ovfFits b = true → s.gapFor b = some vp → exec .messageArrival s = .next (s.holdFor m.dest vp ⟨.messageArrival, g⟩)) ∧
        (d = 0 → p.held = [] → m.down = false →
          (m.rep = true → ovfFits met = true → s.gapFor met = none → Happens s .messageArrival fun u => Awaits s u 0 .replyArrival g ∧ u.actor m.dest = met ∧ u.mem = s.mem) ∧
          (m.rep = false → m.caps = [] → g.k = 0 → let x : Mail := { msg := m, arr := t.nmail }
            let got : Actor := { met with mbox := t.mbox ++ [x], nmail := t.nmail + 1 }
            ovfFits got = true → s.gapFor got = none →
              Happens s .messageArrival fun u => (u.actor m.dest).mbox = t.mbox ++ [x] ∧ (u.actor m.dest).pairs = met.pairs)))) ∧
    (g.flag2 = false → s.alive m.dest = false → m.exit = true → m.bounce = false → s.has m.sender = true → Happens s .exitSignal fun u =>
      u.actor m.sender = { ({ s.actor m.sender with drops := (s.actor m.sender).drops + 1 } : Actor).dropPair m.dest with name := m.sender }) ∧
    (g.flag2 = false → s.alive m.dest = true → killable t → t.name = m.dest → m.exit = true → m.bounce = false → m.rep = false → g.nats = [] → d = 0 → p.held = [] →
      ovfFits met = true → s.gapFor met = none → let r : Reason := (m.m.getD 1 0).setWidth 8
      bit t.xmask (groupOf r) = false → (groupOf r = 0 → Happens s .exitSignal fun u => (u.actor m.dest).st = t.st ∧ (u.actor m.dest).mbox = t.mbox) ∧
        (groupOf r ≠ 0 → Happens s .exitSignal fun u => (u.actor m.dest).st = .dying ∧ (u.actor m.dest).debt = some rLinked)) ∧
    (s.alive m.dest = false → exec .replyArrival s = .next s) ∧
    (s.alive m.dest = true → t.st = .transit → exec .replyArrival s = .next { s with held := s.held ++ [⟨m.dest, ⟨.replyArrival, g⟩⟩] }) ∧
    (s.alive m.dest = true → t.st ≠ .transit → let y := t.ys.getD m.slot.val {}
      let put := fun y => exec .replyArrival s = .next (s.setActor { t with ys := t.ys.set m.slot.val y })
      (y.gen ≠ m.rgen ∨ y.st = .free → put { y with late := min (y.late + 1) 15 }) ∧
      (y.gen = m.rgen → y.st = .pending → put { y with val := m.m.getD 0 0, pois := m.pois, st := .filled }) ∧
      (y.gen = m.rgen → y.st = .filled → exec .replyArrival s = .next (if pkgOf m.sender = s.regs.aid then killActor s m.sender rReplyTwice else s.killOrder m.dest m.sender rReplyTwice .act))) ∧
    (let y := a.ys.getD g.n {}
     (a.await ≠ some g.m ∨ y.st ≠ .pending → exec .awaitTimeout s = .next s) ∧
     (s.has n = true → a.await = some g.m → y.st = .pending → Happens s .awaitTimeout fun u => u.mem = s.mem ∧
       u.actor n = { a with name := n, pend := some 1, ys := a.ys.set g.n { y with st := .free } })) ∧
    (s.nextMail a = none ∨ a.st ≠ .ready → exec .handlerStart s = .next s) ∧
    (∀ x, s.nextMail a = some x → a.st = .ready → a.name = n → x.spill = [] →
      let hd := (s.image a).handlers.getD x.msg.chan.val {}
      hd.audit = false → Happens s .handlerStart fun u => let b := u.actor n
        b.st = .active ∧ b.msg = x.msg ∧ b.mbox = a.mbox.filter (fun y => y.arr != x.arr) ∧ b.invNo = a.invNo + 1 ∧ b.pc = hd.pc ∧
        b.eprio = max a.bprio x.msg.cprio.val ∧ b.budget = (if hd.budget = 0 then 2 ^ 32 else hd.budget) ∧ b.start = s.cycle ∧ b.retired = 0 ∧ b.lc = 0 ∧ b.ls = List.replicate 8 0 ∧ b.ldep = 0 ∧
        b.h = List.replicate 16 (.val 0 false) ∧ b.p = List.replicate 8 (false, false) ∧
        b.s = (List.range 16).map (fun k => if bit hd.livein k then .val (a.saved.getD k (0, false)).1 (a.saved.getD k (0, false)).2 else .val 0 false) ∧
        Awaits s u b.budget .budgetExpiry { actor := n, n := b.invNo }) ∧
    (s.has n = false ∨ a.st ≠ .active ∨ a.invNo ≠ g.n → exec .budgetExpiry s = .next s) ∧
    (s.has n = true → a.st = .active → a.invNo = g.n → (a.dbg.stop = true ∨ s.budrem a ≠ 0 → exec .budgetExpiry s = .next (s.post (max 1 (s.budrem a)) .budgetExpiry g)) ∧
      (a.dbg.stop = false → s.budrem a = 0 → a.name = n → Happens s .budgetExpiry fun u => (u.actor n).st = .dying ∧ (u.actor n).debt = some rBudget))

/-- Contexts, pre-emption and Azimuth's exchanges (14 R307, R309, R311, R313, R323; 15 R331, R332, R334 to R337, R339). -/
def Obligations.PlacementEvents : Prop :=
  ∀ s : State, let n := s.arg.actor
    let a := s.actor n
    let k := s.arg.n
    let x := kvGet ({} : PairSt) s.pairs k
    let p := (pairCells k).1
    let q := (pairCells k).2
    let A := s.inSeat p x.a
    let B := s.inSeat q x.b
    let slot := fun c k => { a with rc := true, rcell := c, rslot := k, fetching := false, offer := none }
    let comes := s.has n = true ∧ a.roaming = true ∧ a.rc = false ∧ (a.st = .ready ∨ a.st = .active)
    (¬ comes → Happens s .contextFetch fun t => t.mem = s.mem ∧ (s.has n = true → t.actor n = { a with name := n, fetching := false })) ∧
    (comes → a.name = n →
      (∀ j, s.slotVictim a.cell a = some (j, none) → exec .contextFetch s = .next (s.setActor (slot a.cell j))) ∧
      (∀ j m, s.slotVictim a.cell a = some (j, some m) → m ≠ n → s.has m = true → Happens s .contextFetch fun t => t.actor n = slot a.cell j ∧
        t.actor m = { s.actor m with name := m, rc := false }) ∧
      (s.slotVictim a.cell a = none → let w := s.post 16 .contextFetch s.arg
        exec .contextFetch s = .next (if a.offer.isSome ∨ a.st = .active then w else
          (w.freshId.setActor { a with offer := some s.nextId }).post 1024 .roamingOffer { actor := n, n := s.nextId }))) ∧
    (¬ (comes ∧ a.st = .ready ∧ a.offer = some s.arg.n) → exec .roamingOffer s = .next s) ∧
    (comes → a.st = .ready → a.offer = some s.arg.n → let open_ := fun c j => c < 512 ∧ dieOf c = dieOf a.cell ∧ c ≠ a.cell ∧ (s.cell c).health = 0 ∧ (s.cell c).boot = false ∧
        (s.cell c).gated = false ∧ (s.cell c).drain ≠ some (jobOf n) ∧ j < 8 ∧ ∀ y ∈ s.roamers c, y.rslot ≠ j
      ((∃ c j, open_ c j) → ∃ c j, open_ c j ∧ exec .roamingOffer s = .next (s.setActor (slot c j))) ∧
      ((∀ c j, ¬ open_ c j) → exec .roamingOffer s = .next (s.post 16 .roamingOffer s.arg))) ∧
    (s.arg.flag = false → s.hostDuty 3 = false → let d := s.modCell k fun e => { e with drain := some s.arg.m }
      (d.seated k = [] → d.all.filter (fun y => y.roaming && y.rc && y.rcell == k) = [] → exec .preempt s = .next d) ∧
      (∀ y, d.seated k = [y] → d.all.filter (fun z => z.roaming && z.rc && z.rcell == k) = [] → y.shadow = none → isBoot y.name = false → jobOf y.name = s.arg.m →
        (y.st = .active ∨ y.st = .transit → exec .preempt s = .next (d.post 64 .preempt s.arg)) ∧
        (y.st = .idle ∨ y.st = .ready → d.unitsBusy y = false → y.dbg.stop = false → y.roaming = false →
          (∀ l, d.placeMove y = some l → exec .preempt s = .next (d.relocate y l)) ∧
          (d.placeMove y = none → Memory.wf s.mem = true → y.st ≠ .parked → Happens s .preempt fun t => (t.actor y.name).st = .parked ∧
            t.bytes (parkKey y.name) (regionSize y) = s.bytes (regionKey y) (regionSize y) ∧ Awaits s t 64 .unpark { actor := y.name })))) ∧
    (s.has n = false ∨ a.st ≠ .parked → exec .unpark s = .next s) ∧
    (s.has n = true → a.st = .parked → a.name = n → (s.hostDuty 3 = true → exec .unpark s = .next (s.askMove a)) ∧
      (s.hostDuty 3 = false → s.placeMove a = none → exec .unpark s = .next (s.post 64 .unpark s.arg)) ∧
      (∀ l, s.hostDuty 3 = false → s.placeMove a = some l → a.roaming = false → (s.cell l.cell).gated = false → Memory.wf s.mem = true → Happens s .unpark fun t =>
        let b := t.actor n
        b.cell = l.cell ∧ b.seat = l.seat ∧ b.base = l.base ∧ (b.st = .idle ∨ b.st = .ready) ∧
          t.bytes (spKey l.cell l.base) (regionSize a) = s.bytes (parkKey n) (regionSize a))) ∧
    (Happens s .swapInstant fun t => t.regs = { s.regs with inst := (s.regs.inst + 1) % 2 ^ 32 } ∧ t.mem = s.mem ∧ t.actors = s.actors ∧ t.lastInst = s.cycle ∧
      Awaits s t 64 .swapEvalEnd {} ∧ Awaits s t (2 ^ s.regs.ivl) .swapInstant {} ∧ (s.regs.azEn = false → t.pairs = s.pairs) ∧
      (∀ c, (s.cell c).boot = true ∨ (s.cell c).gated = true → t.cell c = s.cell c) ∧
      ∀ c, c < 512 → (s.cell c).boot = false → (s.cell c).gated = false → s.seated c = [] → s.roamers c = [] → (∀ y ∈ s.all, y.roaming = true → y.cell ≠ c) →
        (s.cell c).side = [] → (s.cell c).xfers = [] →
        t.cell c = { s.cell c with idle := (s.cell c).idle + 1, gated := s.regs.gate != 0 && decide (s.regs.gate ≤ (s.cell c).idle + 1) }) ∧
    (Happens s .swapEvalEnd fun t => t.cells = (s.cells.map fun e => (e.1, { e.2 with seats := e.2.seats.map Seat.halve })) ∧ t.mem = s.mem ∧ t.actors = s.actors ∧
      ((s.pairs.map (·.1)).Nodup → ∀ j y, (j, y) ∈ s.pairs → let best := s.bestExchange (pairCells j).1 (pairCells j).2 y.inst
        let z := kvGet ({} : PairSt) t.pairs j
        (∀ u v g, y.phase = .eval → best = some (u, v, g) → (s.regs.thr * 2 ^ y.h : Int) < g →
          z = { y with phase := .freeze, a := u, b := v, whoA := s.whoIn (pairCells j).1 u, whoB := s.whoIn (pairCells j).2 v } ∧ Awaits s t 1 .freeze { n := j }) ∧
        (y.phase = .eval → (∀ u v g, best = some (u, v, g) → g ≤ (s.regs.thr * 2 ^ y.h : Int)) → z = ({ y with phase := .idle } : PairSt).rest) ∧
        (y.phase = .idle → z = y.rest) ∧ (y.phase = .freeze ∨ y.phase = .mark ∨ y.phase = .copy → z = y))) ∧
    (let ok := fun (o : Option Actor) => ∀ z, o = some z → s.movable z = true
     (s.baseIn A q B = none ∨ s.baseIn B p A = none ∨ s.whoIn p x.a ≠ x.whoA ∨ s.whoIn q x.b ≠ x.whoB ∨ ¬ ok A ∨ ¬ ok B →
       exec .freeze s = .next (s.modPair k fun y => ({ y with phase := .idle } : PairSt).rest)) ∧
     (∀ u v, s.baseIn A q B = some u → s.baseIn B p A = some v → s.whoIn p x.a = x.whoA → s.whoIn q x.b = x.whoB → ok A → ok B → Happens s .freeze fun t =>
       kvGet ({} : PairSt) t.pairs k = { x with phase := .mark } ∧ Awaits s t 1 .mark { n := k, nats := [u, v] } ∧ t.mem = s.mem ∧
       ∀ z, A = some z ∨ B = some z → (t.actor z.name).st = .transit)) ∧
    (Happens s .mark fun t => kvGet ({} : PairSt) t.pairs k = { x with phase := .copy } ∧ t.mem = s.mem ∧ t.actors = s.actors ∧
      Awaits s t (max (A.elim 0 regionSize) (B.elim 0 regionSize) / 256) .exchangeCommit s.arg ∧
      ∀ z c, A = some z ∨ B = some z → z.name ∉ (t.cell c).ncache) ∧
    (let na := A.elim 0 Actor.name
     let nb := B.elim 0 Actor.name
     ∀ back : Bool, (back = true ↔ na = x.prevB ∧ nb = x.prevA ∧ ∃ i, x.prevI = some i ∧ (x.inst + 2 ^ 32 - i) % 2 ^ 32 ≤ 16) → Happens s .exchangeCommit fun t =>
      kvGet ({} : PairSt) t.pairs k = { x with phase := .idle, quiet := 0, h := if back then min (x.h + 1) 4 else x.h, prevA := na, prevB := nb, prevI := some x.inst } ∧
      t.regs = { s.regs with xchg := min (s.regs.xchg + 1) 0xFFFF, rev := if back = true ∧ x.h < 4 then min (s.regs.rev + 1) 0xFFFF else s.regs.rev } ∧
      ∀ y, A = some y → B = none → y.roaming = false → y.st = .transit → Memory.wf s.mem = true → let u := s.arg.nats.getD 0 0
        let b := t.actor y.name
        b.cell = q ∧ b.seat = x.b ∧ b.base = u ∧ (b.st = .idle ∨ b.st = .ready) ∧ t.bytes (spKey q u) (regionSize y) = s.bytes (regionKey y) (regionSize y))

/-- Creation, death, restarts, links and shadow runs (11 R276, R278, R279; 14 R327; 16 R344, R345, R352 to R354; 21 R396, R397): what
Astrolabe and Sextant do for an actor. -/
def Obligations.LifeAndAuditEvents : Prop :=
  ∀ s : State, let g := s.arg
    let q := g.req
    let n := g.actor
    let a : Actor := s.actor n
    (∀ i ∈ [Instr.spawnAnswer, .linkAnswer, .reclaim, .restart, .restartRetry, .shadowRun, .shadowComplete, .shadowAbandon], ∃ t, exec i s = .next t) ∧
    (∀ (q : SpawnReq) sup gen fresh, s.job q.job = none → s.create q sup gen fresh = .code 1) ∧
    (∀ c, q.kind = .root → s.create q (s.service 1) 0 false = .code c → Happens s .spawnAnswer fun t => t.jobs = s.jobs.filter (fun j => j.jobn != q.job) ∧
      Told s t q.chan 2 (0x10 + c) (q.job * 2 ^ 16 + q.seq) 0 0 ∧ t.mem = s.mem ∧ t.actors = s.actors) ∧
    (q.kind ≠ .root → (s.alive q.by_ = false → exec .spawnAnswer s = .next s) ∧
      (∀ c, s.alive q.by_ = true → s.create q q.by_ 0 true = .code c → Happens s .spawnAnswer fun t => t.mem = s.mem ∧ t.jobs = s.jobs ∧ t.actor q.by_ =
        { (((s.actor q.by_).fill q.tok (BitVec.ofNat 64 c) false).dropOut q.tok).born q.tok [] with name := q.by_ }) ∧
      (∀ t, s.alive q.by_ = true → s.create q q.by_ 0 true = .ask t → exec .spawnAnswer s = .next t) ∧
      (∀ t names words, s.alive q.by_ = true → s.create q q.by_ 0 true = .ok t names words → t.alive q.by_ = true → q.kind ≠ .supStart → q.lnk = false → q.mon = false →
        let b := { (((t.actor q.by_).fill q.tok (names.headD 0) false).dropOut q.tok).born q.tok ((names.zip words).map fun e => startMsg q.by_ e.1 e.2) with name := q.by_ }
        ovfFits b = true → Happens s .spawnAnswer fun u => u.mem = t.mem ∧ u.jobs = t.jobs ∧ u.actor q.by_ = b ∧ ∀ m, m ≠ q.by_ → u.actor m = t.actor m)) ∧
    (pkgOf n = s.regs.aid → (g.flag = false ∨ g.k = 0 → s.has n = true → Happens s .linkAnswer fun t => t.mem = s.mem ∧
        t.actor n = { ({ a with asks := a.asks.filter fun x => x.1 != g.m } : Actor).fill g.m (BitVec.ofNat 64 g.k) false with name := n } ∧ ∀ m, m ≠ n → t.actor m = s.actor m) ∧
      (g.flag = true → g.k ≠ 0 → exec .linkAnswer s = .next (((s.untie n g.other (decide (g.n = 1))).modActor n fun x => { x with asks := x.asks.filter fun y => y.1 != g.m }).answer n g.m (BitVec.ofNat 64 g.k) false))) ∧
    (pkgOf n ≠ s.regs.aid → (g.flag2 = true → exec .linkAnswer s = .next (s.untie n g.other (decide (g.n = 1)))) ∧
      (g.flag2 = false → s.has n = false → let y := s.actor g.other
        let full := if g.n = 1 then 64 ≤ y.watch.length else 16 ≤ y.links.length
        (s.has g.other = false → a.links = [] → a.mons = [] → exec .linkAnswer s = .next (s.tieMsg g.other n (decide (g.n = 1)) 1 g.m 3)) ∧
        (s.has g.other = true → a.links = [] → a.mons = [] → full → exec .linkAnswer s = .next (s.tieMsg g.other n (decide (g.n = 1)) 1 g.m 2)))) ∧
    (s.has n = false ∨ a.st ≠ .dying → exec .reclaim s = .next s) ∧
    (s.has n = true → a.st = .dying → (a.flying ≠ [] ∨ s.unitsBusy a = true → exec .reclaim s = .next (s.post 1 .reclaim g)) ∧
      (a.flying = [] → s.unitsBusy a = false → a.name = n → let r := a.debt.getD 0
        (isBoot n = true → exec .reclaim s = .next ((s.release a).bootStatus a.cell (0xFF00000000000000 + r.setWidth 64) false)) ∧
        (isBoot n = false → ∃ u : State, u.has n = false ∧ (∀ x ∈ u.held, x.actor ≠ n) ∧ (∀ x ∈ u.ballocs, x.mir = false → x.actor ≠ n) ∧
          (∀ c, n ∉ (u.cell c).ncache ∧ ∀ x ∈ (u.cell c).accs, ∀ i, x.bind ≠ some (n, i)) ∧
          exec .reclaim s = .next ((((u.dropUnborn n).supDeath n).decide a r).sweepFiles)))) ∧
    (g.nats = [] → exec .restart s = .next s) ∧
    (∀ k, g.nats = [k] → (s.ent n k = none → exec .restart s = .next s) ∧
      (∀ e, s.ent n k = some e → (s.alive n = false ∨ e.st ≠ .restarting → exec .restart s = .next s) ∧
        (s.alive n = true → e.st = .restarting →
          (e.event = true → e.lead = false → bit e.rmask 2 = false → exec .restart s = .next (s.stopEnt n e)) ∧
          (e.event = false ∨ e.lead = true ∨ bit e.rmask 2 = true → let q : SpawnReq := { kind := .restart, by_ := n, job := jobOf e.name, file := a.file, crec := k, cell := a.cell, serial := serialOf e.name, refs := e.refs a.cell, cells := g.req.cells, runs := g.req.runs }
            (∀ c, s.create q n (genOf e.name + 1) false = .code c → exec .restart s =
              .next (((s.modEnt n k fun x => { x with event := false, lead := false }).report n e 5 0).post 4096 .restartRetry { actor := n, n := k })) ∧
            (∀ t m w, s.create q n (genOf e.name + 1) false = .ok t [m] [w] → exec .restart s =
              .next (((t.modEnt n k fun x => { x with st := .running, name := m, event := false, lead := false, cells := [] }).partMessage (startMsg n m w)).report n e 3 m)))))) ∧
    (s.supTab n = none ∨ s.ent n g.n = none → exec .restartRetry s = .next s) ∧
    (∀ t e, s.supTab n = some t → s.ent n g.n = some e → (e.st ≠ .restarting ∨ s.alive n = false → exec .restartRetry s = .next s) ∧
      (e.st = .restarting → s.alive n = true → (t.window s.cycle).rcnt = t.rmax → exec .restartRetry s = .next ((s.modTab n fun x => x.window s.cycle).escalate n e)) ∧
      (e.st = .restarting → s.alive n = true → (t.window s.cycle).rcnt ≠ t.rmax →
        exec .restartRetry s = .next ((s.modTab n fun _ => { t.window s.cycle with rcnt := (t.window s.cycle).rcnt + 1 }).restartEnt n g.n {}))) ∧
    (let b := g.n
     let x := s.audit b
     let h := s.actor (shadowName b)
     let spots := (List.range 512).filterMap (s.shadowSpot x)
     (kvHas s.audits b = false → exec .shadowRun s = .next s ∧ exec .shadowComplete s = .next s ∧ exec .shadowAbandon s = .next s) ∧
     (kvHas s.audits b = true →
       (minBy (fun (p : Spot) => dist p.cell x.cell) spots = none → Happens s .shadowRun fun t => t.audits = kvDel s.audits b ∧
         t.regs = { s.regs with aban := min (s.regs.aban + 1) 0xFFFF } ∧ t.mem = s.mem ∧ (s.has x.actor = true → (s.actor x.actor).audit = some b → (t.actor x.actor).audit = none)) ∧
       (∀ p, minBy (fun (p : Spot) => dist p.cell x.cell) spots = some p → Happens s .shadowRun fun t => t.actor (shadowName b) = shadowActor b x p s.cycle ∧
         Awaits s t (4 * x.snap.budget) .shadowAbandon { n := b, flag := true, actor := x.actor, m := x.snap.invNo, k := x.sigs.length } ∧
         ∀ m, m ≠ shadowName b → t.actor m = s.actor m) ∧
       (s.has (shadowName b) = false → exec .shadowComplete s = .next s) ∧
       (s.has (shadowName b) = true → s.unitsBusy h = true → exec .shadowComplete s = .next (s.post 1 .shadowComplete g)) ∧
       (∀ o, s.has (shadowName b) = true → s.unitsBusy h = false → h.name = shadowName b → x.sigs = [o] → let y := signature (match h.debt with | some r => [r] | none => x.out)
         (o = y → Happens s .shadowComplete fun t => kvHas t.audits b = false ∧ t.has (shadowName b) = false ∧ t.regs = s.regs) ∧
         (o ≠ y → s.hostDuty 2 = false → Happens s .shadowComplete fun t => t.regs = { s.regs with mis := min (s.regs.mis + 1) 0xFFFF } ∧ Awaits s t 0 .shadowRun { n := b })) ∧
       (∀ o z, s.has (shadowName b) = true → s.unitsBusy h = false → h.name = shadowName b → x.sigs = [o, z] → let y := signature (match h.debt with | some r => [r] | none => x.out)
         (y = o → Happens s .shadowComplete fun t => (t.cell (x.cells.getD 1 0)).health = 2 ∧ (t.cell (x.cells.getD 1 0)).gated = true ∧ kvHas t.audits b = false) ∧
         (y ≠ o → y = z → Happens s .shadowComplete fun t => (t.cell x.cell).health = 2 ∧ (t.cell x.cell).gated = true ∧ kvHas t.audits b = false) ∧
         (y ≠ o → y ≠ z → Happens s .shadowComplete fun t => t.regs = { s.regs with unr := min (s.regs.unr + 1) 0xFFFF } ∧
           Told s t 0 4 1 0 0 (BitVec.ofNat 64 x.cell) ∧ kvHas t.audits b = false)) ∧
       (x.actor ≠ g.actor ∨ x.snap.invNo ≠ g.m ∨ (g.flag = true ∧ (h.st ≠ .active ∨ x.sigs.length ≠ g.k)) → exec .shadowAbandon s = .next s) ∧
       (x.actor = g.actor → x.snap.invNo = g.m → (g.flag = false ∨ (h.st = .active ∧ x.sigs.length = g.k)) →
         (s.has (shadowName b) = false ∨ (s.unitsBusy h = false ∧ h.name = shadowName b) → Happens s .shadowAbandon fun t => kvHas t.audits b = false ∧ t.has (shadowName b) = false ∧
           t.regs = { s.regs with aban := min (s.regs.aban + 1) 0xFFFF }) ∧
         (s.has (shadowName b) = true → s.unitsBusy h = true → exec .shadowAbandon s = .next ((s.setActor { h with st := .dying }).post 1 .shadowAbandon { g with flag := false })))))

/-- Taking a kill (16 R343, and steps 1 and 2 of R344): the actor enters DYING with its reason, its outbox and its walks go, no
other actor changes, and the part's step that reclaims it (the audit's end, for a shadow run) is to come. A dead or absent actor
takes no kill, so that the first reason stands; one in TRANSIT takes it later, as event `dying`. -/
def Obligations.KillTakesEntry : Prop :=
  (∀ (s : State) (n : ActorName) (r : Reason), killable (s.actor n) →
    let t := killActor s n r
    (∃ k, t.actor n = { s.actor n with name := n, st := .dying, debt := some r, outbox := [], walks := [], flying := k }) ∧
    (∀ m, m ≠ n → t.actor m = s.actor m) ∧ t.cycle = s.cycle ∧ (∀ d ∈ s.agenda, d ∈ t.agenda) ∧
    ((s.actor n).shadow = none → Awaits s t 0 .reclaim { actor := n }) ∧
    (∀ b, (s.actor n).shadow = some b → Awaits s t 0 .shadowComplete { n := b }) ∧
    (s.regs.silEn = false → ∀ a, t.bytes a 1 = s.bytes a 1) ∧ ∀ r', killActor t n r' = t) ∧
  (∀ (s : State) (n : ActorName) (r : Reason), (s.actor n).st = .free ∨ (s.actor n).st = .dying → killActor s n r = s) ∧
  (∀ (s : State) (n : ActorName) (r : Reason), (s.actor n).st = .transit →
    killActor s n r = { s with held := s.held ++ [⟨n, ⟨.dying, { actor := n, n := r.toNat }⟩⟩] }) ∧
  (∀ s : State, s.arg.lv = none → s.has s.arg.actor = true → killable (s.actor s.arg.actor) → Happens s .dying fun t =>
    (t.actor s.arg.actor).st = .dying ∧ (t.actor s.arg.actor).debt = some (BitVec.ofNat 8 s.arg.n) ∧
    (BitVec.ofNat 8 s.arg.n = rKilled → s.arg.flag = true → (t.actor s.arg.actor).nokick = true) ∧
    ∀ m, m ≠ s.arg.actor → t.actor m = s.actor m) ∧
  ∀ (s : State) (lv : KillLevel), s.arg.lv = some lv → exec .dying s =
    .next (if BitVec.ofNat 8 s.arg.n = rKilled then s.killLevel s.arg.other s.arg.actor lv else killActor s s.arg.actor (BitVec.ofNat 8 s.arg.n))

/-- The state after a power-on reset (23 R413, R414; 08 R192; 14 R319; 15 R340; 18 R370, R377, R383): memory lists nothing and is
in its canonical form, no actor, job or file exists, every cell is in boot mode and its boot program is to come, and registers have
the values of their maps. That an unwritten byte outside the boot store reads as 0 is the model's choice (log 7). -/
def Obligations.ResetState : Prop :=
  let s := State.reset
  Memory.wf s.mem = true ∧ (∀ a, s.bytes a 1 = [Memory.default a]) ∧
  (∀ n, (s.actor n).st = .free) ∧ s.jobs = [] ∧ s.files = [] ∧ s.cycle = 0 ∧
  (∀ c, (s.cell c).boot = true ∧ (s.cell c).gated = false ∧ (s.cell c).last = 15 ∧ ∀ e ∈ (s.cell c).repair, e = 0) ∧
  (∀ c < 512, Awaits s s 0 .bootProgramStart { n := c }) ∧
  (s.regs.bootOpen, s.regs.done, s.regs.fwerr, s.regs.sigreq) = (false, false, 0, true) ∧
  (s.regs.migEn, s.regs.epoch, s.regs.hot) = (true, 30, 0x0400) ∧
  (s.regs.azEn, s.regs.wake, s.regs.gate, s.regs.ivl, s.regs.thr) = (true, 32, 16, 20, 256) ∧
  (s.regs.hwrt, s.regs.ethr, s.regs.ewin, s.regs.ftmo, s.regs.fretry) = (true, 8, 24, 17, 3) ∧
  (s.regs.audEn, s.regs.audK, s.regs.ageEn, s.regs.mmin, s.regs.silEn) = (true, 10, true, 40, false)

/-- The frame of the register-only instructions (08 R174 to R186): one that leaves its actor ACTIVE changes of the whole part only
that actor, and of it only the program counter, the count of retired instructions, the result queue, the named registers, the
predicates, the loop counter, the link stack and (under `.sr`, 06 R151) the generator. -/
def Obligations.RegisterFrame : Prop :=
  ∀ (i : Instr) (s t : State), registerOnly i = true → s.cur.st = .active → exec i s = .next t → t.cur.st = .active →
    (∀ a, t.bytes a 1 = s.bytes a 1) ∧ (∀ n, n ≠ s.focus → t.actor n = s.actor n) ∧
    { t with actors := s.actors, stalled := s.stalled } = s ∧
    { t.cur with name := s.cur.name, pc := s.cur.pc, retired := s.cur.retired, h := s.cur.h, s := s.cur.s, p := s.cur.p, lc := s.cur.lc, ls := s.cur.ls, ldep := s.cur.ldep, gen := s.cur.gen } = s.cur ∧
    ((∀ a b c d r x g, i ≠ .ffma a b c d r x g) → (∀ k w a d r x g, i ≠ .fcvt k w a d r x g) → t.cur.gen = s.cur.gen)

/-- Memory is one byte to an address: a write is read back, changes no other byte, and keeps the canonical form; and equal
memories are equal data (03 R68). -/
def Obligations.MemoryWrites : Prop :=
  (∀ (s : State) (a : Nat) (bs : List Byte), Memory.wf s.mem = true →
    Memory.wf (s.put a bs).mem = true ∧ (s.put a bs).bytes a bs.length = bs ∧
    ∀ k n, k + n ≤ a ∨ a + bs.length ≤ k → (s.put a bs).bytes k n = s.bytes k n) ∧
  ∀ m n : List Host.Cell, Memory.wf m = true → Memory.wf n = true → (∀ a, Memory.read m a 1 = Memory.read n a 1) → m = n

/-- Every step of the part, whatever it is, keeps memory in its canonical form. -/
def Obligations.KeptCanonical : Prop := Kept fun s => Memory.wf s.mem = true

/-- Decoding and encoding agree, for every well-formed instruction with every operand: the bytes of its encoding, whatever follows
them, decode to it and to its length; and bytes that decode to an instruction are its encoding (01 R16, R34). -/
def Obligations.DecodeEncode : Prop :=
  (∀ (i : Instr) (rest : List Byte), i.wf = true → decode (encode i ++ rest) = .ok (i, (encode i).length)) ∧
  ∀ (bs : List Byte) (i : Instr) (n : Nat), decode bs = .ok (i, n) → i.wf = true ∧ n ≤ bs.length ∧ encode i = bs.take n

/-- Words that the manual works out decode to the instructions that it gives for them: those of 08 R194, and of 13's listing a
literal, a fetch, two barrier instructions, a multiplication, an accumulator store and `exit`. -/
def Obligations.DecodeWords : Prop :=
  let g : Guard := ⟨0, false⟩
  decodeWords [0x14021003] = .ok (.ld .w64 (.s 1) g, 1) ∧ decodeWords [0x01001083] = .ok (.add .w64 (.h 0) (.h 1) g, 1) ∧
  decodeWords [0x04021008] = .ok (.addi (.s 1) 8, 1) ∧ decodeWords [0x06021040] = .ok (.keep 1 (.h 0), 1) ∧
  decodeWords [0x06042000] = .ok (.dup (.h 1) g, 1) ∧ decodeWords [0x1083FFFB] = .ok (.loop 0 (-5), 1) ∧
  decodeWords [0x3A042040] = .ok (.syswr (.h 1) (.h 0) g, 1) ∧
  decodeWords [0x85040000, 0x01000000, 0] = .ok (.lit 0x01000000, 3) ∧
  decodeWords [0xDA045000, 0xF0000024, 0xF0000024, 0x200, 0] =
    .ok (.tfetch { tile := .t 5, gf := .g2, lu := false, p0 := .subst (.s 4), p1 := .subst (.s 4), p2 := .const 512, sem := .relaxed, sc := .a, wbar := 0 }, 5) ∧
  decodeWords [0x1C040880] = .ok (.bexp 0 (.s 2), 1) ∧ decodeWords [0x1C0808C0] = .ok (.bwait 0 (.s 3) false, 1) ∧
  decodeWords [0x61032001, 0, 0] = .ok (.mma 0 (.tile (.t 0)) (.tile (.t 1)) .pt false false, 3) ∧
  decodeWords [0xE2032100, 0, 0, 0, 0] = .ok (.mst 0 (.t 4) 0 0 false false .rne, 5) ∧
  decodeWords [0x37115000] = .ok (.exit .self .zero g, 1)

/-- A step runs what it fetches (00 R15; 01 R17, R34; 14 R319; 21 R405): a turn of a cell's issue core tries its first context; when
the bytes at that context's program counter decode to an instruction that issues, the step is the instruction's effect with the
debugger's count, the slot last chosen and the time that passes; when it stalls the next context is tried; bytes that do not
decode kill with ILLEGAL. A step of the part's own is the effect of its event. A part that has stopped still writes the records that it
owes the host (18 R385). Which of several steps comes first is free (log 1). -/
def Obligations.StepRunsDecoded : Prop :=
  (∀ (s : State) (c : Nat) (a : Actor) (r : List Actor) (i : Instr) (k : Nat) (t : State),
    s.powerOn = false → s.tripped = false → s.halted = false → s.chosen = some (.core c) → s.away c = [] → s.tryOrder c = a :: r →
    (s.actor a.name).stopsNow = false → (s.actor a.name).st = .active → (s.actor a.name).pc % 4 = 0 →
    decode (s.code (s.actor a.name)) = .ok (i, k) → exec i { s with focus := a.name } = .next t →
    (t.stalled = false → step s = .next ((t.afterIssue (s.actor a.name)).modCell c fun e => { e with last := ctxSlot a }).pass) ∧
    (t.stalled = true → (s.actor a.name).roaming = false → step s = thenPass (issueFirst t c r))) ∧
  (∀ (s : State) (c : Nat) (a : Actor) (r : List Actor) (i : Instr) (k : Nat) (b t : State),
    s.powerOn = false → s.tripped = false → s.halted = false → s.chosen = some (.core c) → s.away c = [] → s.tryOrder c = a :: r →
    (s.actor a.name).stopsNow = false → (s.actor a.name).st = .ready → (s.actor a.name).dbg.dbgn = 0 → s.mayStart (s.actor a.name) = true →
    exec .handlerStart { s with arg := { actor := a.name } } = .next b → b.alive a.name = true → (b.actor a.name).dbg.dbgn = 0 → (b.actor a.name).pc % 4 = 0 →
    decode (b.code (b.actor a.name)) = .ok (i, k) → exec i { b with focus := a.name } = .next t → t.stalled = false →
    step s = .next ((t.afterIssue (b.actor a.name)).modCell c fun e => { e with last := ctxSlot a }).pass) ∧
  (∀ (s : State) (n : ActorName) (e : DecodeError), (s.actor n).pc % 4 = 0 → decode (s.code (s.actor n)) = .error e →
    issue s n = .next { killActor { s with focus := n } n rIllegal with stalled := false }) ∧
  (∀ (s t : State) (k : Nat) (d : Due), s.powerOn = false → s.tripped = false → s.halted = false → s.chosen = some (.due k) →
    s.agenda[k]? = some d →
    exec d.ev.ev { s with agenda := s.agenda.eraseIdx k, focus := 0, stalled := false, arg := d.ev.arg } = .next t →
    step s = .next t.pass) ∧
  (∀ s : State, s.powerOn = false → s.tripped = false → s.halted = true → (s.lastWords = none → step s = .fault .partStopped) ∧
    ∀ k, s.lastWords = some k → step s = thenPass (carryOut s (.due k))) ∧
  ∀ (s t : State) (e : Event) (r : List Event), (s.powerOn = true ∨ (s.tripped = false ∧ s.halted = false ∧ s.chosen = some .input)) →
    s.inputs = e :: r → exec e.ev { s with inputs := r, focus := 0, stalled := false, arg := e.arg } = .next t → step s = .next t.pass
end

