-- ==== Sys2Proof/Laws/Encoding.lean ====
section
/-! SUPPORT. Words and bytes, and the fields of a word 0: each field of an encoded word reads as it was put in, and each code of an
operand decodes to the operand. -/

namespace Sys2Proof

-- Bytes and words --------------------------------------------------------------------------------------------------

theorem bytesOf_length (n v : Nat) : (bytesOf n v).length = n := by
  induction n generalizing v with
  | zero => rfl
  | succ n ih => simp [bytesOf, ih]
theorem bytesOf_getElem? (n v i : Nat) (h : i < n) : (bytesOf n v)[i]? = some (BitVec.ofNat 8 (v / 2 ^ (8 * i))) := by
  induction n generalizing v i with
  | zero => omega
  | succ n ih =>
    cases i with
    | zero => simp [bytesOf]
    | succ i =>
      simp only [bytesOf, List.getElem?_cons_succ]
      rw [ih _ _ (by omega), Nat.div_div_eq_div_mul, show 8 * (i + 1) = 8 + 8 * i by omega, pow_add]
      norm_num
theorem ofBytes_lt (l : List Byte) : ofBytes l < 2 ^ (8 * l.length) := by
  induction l with
  | nil => simp [ofBytes]
  | cons b l ih =>
    simp only [ofBytes, List.length_cons]; have := b.isLt
    rw [show 8 * (l.length + 1) = 8 * l.length + 8 by omega, pow_add]; omega
theorem ofBytes_byte (l : List Byte) (i : Nat) (b : Byte) (h : l[i]? = some b) : ofBytes l / 2 ^ (8 * i) % 256 = b.toNat := by
  induction l generalizing i with
  | nil => simp at h
  | cons c l ih =>
    have := c.isLt
    cases i with
    | zero => simp at h; subst h; simp [ofBytes]; omega
    | succ i =>
      simp at h
      rw [← ih i h, ofBytes, show 8 * (i + 1) = 8 + 8 * i by omega, pow_add, ← Nat.div_div_eq_div_mul]
      congr 2; omega
theorem wordsOfBytes_bytesOfWords (ws : List Nat) (h : ∀ w ∈ ws, w < 2 ^ 32) : wordsOfBytes (bytesOfWords ws) = ws := by
  induction ws with
  | nil => rfl
  | cons w ws ih =>
    have hw := h w List.mem_cons_self
    have e : bytesOfWords (w :: ws) = BitVec.ofNat 8 w :: BitVec.ofNat 8 (w / 256) :: BitVec.ofNat 8 (w / 256 / 256) :: BitVec.ofNat 8 (w / 256 / 256 / 256) :: bytesOfWords ws := rfl
    rw [e, wordsOfBytes, ih fun v hv => h v (List.mem_cons_of_mem _ hv)]
    congr 1
    simp only [ofBytes, BitVec.toNat_ofNat]
    omega
/-- Decoding what an instruction's words encode to. -/
theorem decode_of_words (i : Instr) (n : Nat) (h : ∀ w ∈ i.words, w < 2 ^ 32) (d : decodeWords i.words = .ok (i, n)) :
    decode (encode i) = .ok (i, 4 * n) := by
  unfold decode encode
  rw [wordsOfBytes_bytesOfWords _ h, d]
theorem decodeWords_one (w : Nat) (i : Instr) (hl : lenFor (majField w) (fnField w) = some 0) (hn : lenField w = 0)
    (hb : decBody w 0 0 0 0 = .ok i) (hw : i.wf = true) : decodeWords [w] = .ok (i, 1) := by
  simp [decodeWords, hl, hn, hb, hw, wordsOfLen]
theorem decodeWords_three (w x y l : Nat) (i : Instr) (hl : lenFor (majField w) (fnField w) = some l) (hn : lenField w = l)
    (h12 : l = 1 ∨ l = 2) (hb : decBody w x y 0 0 = .ok i) (hw : i.wf = true) : decodeWords [w, x, y] = .ok (i, 3) := by
  rcases h12 with rfl | rfl <;> simp [decodeWords, hl, hn, hb, hw, wordsOfLen]
theorem decodeWords_five (w x y z v : Nat) (i : Instr) (hl : lenFor (majField w) (fnField w) = some 3) (hn : lenField w = 3)
    (hb : decBody w x y z v = .ok i) (hw : i.wf = true) : decodeWords [w, x, y, z, v] = .ok (i, 5) := by
  simp [decodeWords, hl, hn, hb, hw, wordsOfLen]

-- Codes of operands ------------------------------------------------------------------------------------------------

theorem Scalar.code_lt (a : Scalar) : a.code < 64 := by cases a <;> simp only [Scalar.code] <;> omega
theorem TileSel.code_lt (a : TileSel) : a.code < 64 := by cases a <;> simp only [TileSel.code] <;> omega
theorem OpA.code_lt (a : OpA) : a.code < 64 := by cases a <;> simp only [OpA.code, TileSel.code_lt] <;> omega
theorem OpB.code_lt (a : OpB) : a.code < 64 := by cases a <;> simp only [OpB.code, TileSel.code_lt] <;> omega
theorem OpC.code_lt (a : OpC) : a.code < 64 := by cases a <;> simp only [OpC.code, TileSel.code_lt] <;> omega
theorem Width.code_lt (w : Width) : w.code < 4 := by cases w <;> decide
theorem Guard.code_lt (g : Guard) : g.code < 64 := by
  have := g.p.isLt; unfold Guard.code; cases g.pn <;> simp [ofBool] <;> omega
theorem dstCode_lt (d : Option (Fin 16)) : dstCode d < 64 := by cases d <;> simp only [dstCode] <;> omega
theorem Rnd.code_lt (r : Rnd) : r.code < 8 := by cases r <;> decide
theorem Cond.code_lt (r : Cond) : r.code < 16 := by cases r <;> decide
theorem CvtKind.code_lt (r : CvtKind) : r.code < 16 := by cases r <;> decide
theorem SemiRing.code_lt (r : SemiRing) : r.code < 8 := by cases r <;> decide
theorem Sem.code_lt (r : Sem) : r.code < 4 := by cases r <;> decide
theorem Scope.code_lt (r : Scope) : r.code < 4 := by cases r <;> decide
theorem KillLevel.code_lt (r : KillLevel) : r.code < 4 := by cases r <;> decide
theorem PWord.code_lt (p : PWord) : p.code < 2 ^ 32 := by
  cases p with
  | const v => exact v.isLt
  | subst s => have := s.code_lt; simp only [PWord.code]; omega
theorem ofBool_lt (b : Bool) : ofBool b < 2 := by cases b <;> decide
theorem GForm.gm_lt (g : GForm) : g.gm < 3 := by cases g <;> simp [GForm.gm]
theorem GForm.code_lt (g : GForm) : g.code < 64 := by cases g <;> simp only [GForm.code, TileSel.code_lt] <;> omega

theorem scalarOf_code (a : Scalar) : scalarOf a.code = .ok a := by
  cases a with
  | zero => rfl
  | h k => revert k; decide
  | m k => revert k; decide
  | self => rfl
  | sender => rfl
  | chan => rfl
  | s k => revert k; decide
theorem tileOf_code (a : TileSel) : tileOf a.code = .ok a := by
  cases a with
  | t k => revert k; decide
  | q n k => revert n k; decide
theorem dstOf_code (d : Option (Fin 16)) : dstOf (dstCode d) = .ok d := by
  cases d with
  | none => rfl
  | some k => revert k; decide
theorem widthOf_code (w : Width) : widthOf w.code = w := by cases w <;> rfl
theorem rndOf_code (r : Rnd) : rndOf r.code = .ok r := by cases r <;> rfl
theorem condOf_code (r : Cond) : condOf r.code = .ok r := by cases r <;> rfl
theorem kindOf_code (r : CvtKind) : kindOf r.code = .ok r := by cases r <;> rfl
theorem srOf_code (r : SemiRing) : srOf r.code = .ok r := by cases r <;> rfl
theorem semOf_code (r : Sem) : semOf r.code = r := by cases r <;> rfl
theorem scopeOf_code (r : Scope) : scopeOf r.code = r := by cases r <;> rfl
theorem pwordOf_code (p : PWord) (h : p.wf = true) : pwordOf p.code = .ok p := by
  cases p with
  | const v =>
    simp only [PWord.wf, bne_iff_ne] at h
    have := v.isLt
    have e : ¬ bits v.toNat 31 28 = 15 := by simp only [bits]; omega
    simp only [PWord.code, pwordOf, e, if_false]; simp
  | subst s =>
    have := s.code_lt
    have e1 : bits (15 * 2 ^ 28 + s.code) 31 28 = 15 := by simp only [bits]; omega
    have e2 : bits (15 * 2 ^ 28 + s.code) 27 6 = 0 := by simp only [bits]; omega
    have e3 : bits (15 * 2 ^ 28 + s.code) 5 0 = s.code := by simp only [bits]; omega
    simp only [PWord.code, pwordOf, e1, e2, e3, if_true, scalarOf_code]; rfl

-- Fields of a word 0 -----------------------------------------------------------------------------------------------

theorem word0_fields (len maj fn f lo : Nat) (h1 : len < 4) (h2 : maj < 64) (h3 : fn < 64) (h4 : f < 64) (h5 : lo < 4096) :
    lenField (word0 len maj fn f lo) = len ∧ majField (word0 len maj fn f lo) = maj ∧ fnField (word0 len maj fn f lo) = fn ∧
    f17 (word0 len maj fn f lo) = f ∧ word0 len maj fn f lo % 4096 = lo ∧ word0 len maj fn f lo < 2 ^ 32 := by
  simp only [lenField, majField, fnField, f17, bits, word0]
  refine ⟨?_, ?_, ?_, ?_, ?_, ?_⟩ <;> omega
/-- The fields of format Q (R20). -/
theorem wordQ_fields (len maj fn a b w : Nat) (g : Guard) (h1 : len < 4) (h2 : maj < 64) (h3 : fn < 64) (h4 : a < 64) (h5 : b < 64) (h6 : w < 4) :
    lenField (wordQ len maj fn a b g w) = len ∧ majField (wordQ len maj fn a b g w) = maj ∧ fnField (wordQ len maj fn a b g w) = fn ∧
    f17 (wordQ len maj fn a b g w) = a ∧ f11 (wordQ len maj fn a b g w) = b ∧ guardOf (wordQ len maj fn a b g w) = g ∧
    bits (wordQ len maj fn a b g w) 1 0 = w ∧ wordQ len maj fn a b g w < 2 ^ 32 := by
  obtain ⟨p, pn⟩ := g
  have hp := p.isLt
  have hb : ofBool pn < 2 := ofBool_lt pn
  have e : guardOf (wordQ len maj fn a b ⟨p, pn⟩ w) = ⟨p, pn⟩ := by
    unfold guardOf
    congr 1
    · ext; simp only [bits, wordQ, word0, Guard.code, Fin.ofNat]; omega
    · have : wordQ len maj fn a b ⟨p, pn⟩ w / 2 ^ 2 % 2 = ofBool pn := by simp only [wordQ, word0, Guard.code]; omega
      rw [bit, this]; cases pn <;> rfl
  refine ⟨?_, ?_, ?_, ?_, ?_, e, ?_, ?_⟩ <;> simp only [lenField, majField, fnField, f17, f11, bits, wordQ, word0, Guard.code] <;> omega
/-- The fields of format T (R20). -/
theorem wordT_fields (len maj fn d a b : Nat) (h1 : len < 4) (h2 : maj < 64) (h3 : fn < 64) (h4 : d < 64) (h5 : a < 64) (h6 : b < 64) :
    lenField (wordT len maj fn d a b) = len ∧ majField (wordT len maj fn d a b) = maj ∧ fnField (wordT len maj fn d a b) = fn ∧
    f17 (wordT len maj fn d a b) = d ∧ f11 (wordT len maj fn d a b) = a ∧ f5 (wordT len maj fn d a b) = b ∧ wordT len maj fn d a b < 2 ^ 32 := by
  refine ⟨?_, ?_, ?_, ?_, ?_, ?_, ?_⟩ <;> simp only [lenField, majField, fnField, f17, f11, f5, bits, wordT, word0] <;> omega

end Sys2Proof
end

