-- ==== Sys2Proof/Laws/State.lean ====
section
/-! SUPPORT. One lemma per field per named update of the state and of an actor, true by `rfl`: no proof unfolds a record
update. -/

namespace Sys2Proof.Machine
-- State.put
@[simp] theorem State.put_cycle (s : State) (a : Nat) (bs : List Byte) : (s.put a bs).cycle = s.cycle := rfl
@[simp] theorem State.put_tick (s : State) (a : Nat) (bs : List Byte) : (s.put a bs).tick = s.tick := rfl
@[simp] theorem State.put_free (s : State) (a : Nat) (bs : List Byte) : (s.put a bs).free = s.free := rfl
@[simp] theorem State.put_focus (s : State) (a : Nat) (bs : List Byte) : (s.put a bs).focus = s.focus := rfl
@[simp] theorem State.put_stalled (s : State) (a : Nat) (bs : List Byte) : (s.put a bs).stalled = s.stalled := rfl
@[simp] theorem State.put_nextId (s : State) (a : Nat) (bs : List Byte) : (s.put a bs).nextId = s.nextId := rfl
@[simp] theorem State.put_agenda (s : State) (a : Nat) (bs : List Byte) : (s.put a bs).agenda = s.agenda := rfl
@[simp] theorem State.put_inputs (s : State) (a : Nat) (bs : List Byte) : (s.put a bs).inputs = s.inputs := rfl
@[simp] theorem State.put_strikes (s : State) (a : Nat) (bs : List Byte) : (s.put a bs).strikes = s.strikes := rfl
@[simp] theorem State.put_arg (s : State) (a : Nat) (bs : List Byte) : (s.put a bs).arg = s.arg := rfl
@[simp] theorem State.put_mem (s : State) (a : Nat) (bs : List Byte) : (s.put a bs).mem = Memory.write s.mem a bs := rfl
@[simp] theorem State.put_gpois (s : State) (a : Nat) (bs : List Byte) : (s.put a bs).gpois = s.gpois := rfl
@[simp] theorem State.put_corrected (s : State) (a : Nat) (bs : List Byte) : (s.put a bs).corrected = s.corrected := rfl
@[simp] theorem State.put_decoders (s : State) (a : Nat) (bs : List Byte) : (s.put a bs).decoders = s.decoders := rfl
@[simp] theorem State.put_spois (s : State) (a : Nat) (bs : List Byte) : (s.put a bs).spois = s.spois := rfl
@[simp] theorem State.put_actors (s : State) (a : Nat) (bs : List Byte) : (s.put a bs).actors = s.actors := rfl
@[simp] theorem State.put_cells (s : State) (a : Nat) (bs : List Byte) : (s.put a bs).cells = s.cells := rfl
@[simp] theorem State.put_files (s : State) (a : Nat) (bs : List Byte) : (s.put a bs).files = s.files := rfl
@[simp] theorem State.put_nextFile (s : State) (a : Nat) (bs : List Byte) : (s.put a bs).nextFile = s.nextFile := rfl
@[simp] theorem State.put_jobs (s : State) (a : Nat) (bs : List Byte) : (s.put a bs).jobs = s.jobs := rfl
@[simp] theorem State.put_serials (s : State) (a : Nat) (bs : List Byte) : (s.put a bs).serials = s.serials := rfl
@[simp] theorem State.put_cohorts (s : State) (a : Nat) (bs : List Byte) : (s.put a bs).cohorts = s.cohorts := rfl
@[simp] theorem State.put_trees (s : State) (a : Nat) (bs : List Byte) : (s.put a bs).trees = s.trees := rfl
@[simp] theorem State.put_sups (s : State) (a : Nat) (bs : List Byte) : (s.put a bs).sups = s.sups := rfl
@[simp] theorem State.put_backs (s : State) (a : Nat) (bs : List Byte) : (s.put a bs).backs = s.backs := rfl
@[simp] theorem State.put_ballocs (s : State) (a : Nat) (bs : List Byte) : (s.put a bs).ballocs = s.ballocs := rfl
@[simp] theorem State.put_lone (s : State) (a : Nat) (bs : List Byte) : (s.put a bs).lone = s.lone := rfl
@[simp] theorem State.put_ports (s : State) (a : Nat) (bs : List Byte) : (s.put a bs).ports = s.ports := rfl
@[simp] theorem State.put_filters (s : State) (a : Nat) (bs : List Byte) : (s.put a bs).filters = s.filters := rfl
@[simp] theorem State.put_reds (s : State) (a : Nat) (bs : List Byte) : (s.put a bs).reds = s.reds := rfl
@[simp] theorem State.put_fwds (s : State) (a : Nat) (bs : List Byte) : (s.put a bs).fwds = s.fwds := rfl
@[simp] theorem State.put_counts (s : State) (a : Nat) (bs : List Byte) : (s.put a bs).counts = s.counts := rfl
@[simp] theorem State.put_queued (s : State) (a : Nat) (bs : List Byte) : (s.put a bs).queued = s.queued := rfl
@[simp] theorem State.put_notes (s : State) (a : Nat) (bs : List Byte) : (s.put a bs).notes = s.notes := rfl
@[simp] theorem State.put_seenLost (s : State) (a : Nat) (bs : List Byte) : (s.put a bs).seenLost = s.seenLost := rfl
@[simp] theorem State.put_ucie (s : State) (a : Nat) (bs : List Byte) : (s.put a bs).ucie = s.ucie := rfl
@[simp] theorem State.put_wires (s : State) (a : Nat) (bs : List Byte) : (s.put a bs).wires = s.wires := rfl
@[simp] theorem State.put_stations (s : State) (a : Nat) (bs : List Byte) : (s.put a bs).stations = s.stations := rfl
@[simp] theorem State.put_chans (s : State) (a : Nat) (bs : List Byte) : (s.put a bs).chans = s.chans := rfl
@[simp] theorem State.put_queues (s : State) (a : Nat) (bs : List Byte) : (s.put a bs).queues = s.queues := rfl
@[simp] theorem State.put_pairs (s : State) (a : Nat) (bs : List Byte) : (s.put a bs).pairs = s.pairs := rfl
@[simp] theorem State.put_lastInst (s : State) (a : Nat) (bs : List Byte) : (s.put a bs).lastInst = s.lastInst := rfl
@[simp] theorem State.put_evalSeats (s : State) (a : Nat) (bs : List Byte) : (s.put a bs).evalSeats = s.evalSeats := rfl
@[simp] theorem State.put_held (s : State) (a : Nat) (bs : List Byte) : (s.put a bs).held = s.held := rfl
@[simp] theorem State.put_seqs (s : State) (a : Nat) (bs : List Byte) : (s.put a bs).seqs = s.seqs := rfl
@[simp] theorem State.put_buses (s : State) (a : Nat) (bs : List Byte) : (s.put a bs).buses = s.buses := rfl
@[simp] theorem State.put_audits (s : State) (a : Nat) (bs : List Byte) : (s.put a bs).audits = s.audits := rfl
@[simp] theorem State.put_duties (s : State) (a : Nat) (bs : List Byte) : (s.put a bs).duties = s.duties := rfl
@[simp] theorem State.put_dutyNum (s : State) (a : Nat) (bs : List Byte) : (s.put a bs).dutyNum = s.dutyNum := rfl
@[simp] theorem State.put_regs (s : State) (a : Nat) (bs : List Byte) : (s.put a bs).regs = s.regs := rfl
@[simp] theorem State.put_throttled (s : State) (a : Nat) (bs : List Byte) : (s.put a bs).throttled = s.throttled := rfl
@[simp] theorem State.put_tripped (s : State) (a : Nat) (bs : List Byte) : (s.put a bs).tripped = s.tripped := rfl
@[simp] theorem State.put_halted (s : State) (a : Nat) (bs : List Byte) : (s.put a bs).halted = s.halted := rfl
-- State.spoisClear
@[simp] theorem State.spoisClear_cycle (s : State) (a n : Nat) : (s.spoisClear a n).cycle = s.cycle := rfl
@[simp] theorem State.spoisClear_tick (s : State) (a n : Nat) : (s.spoisClear a n).tick = s.tick := rfl
@[simp] theorem State.spoisClear_free (s : State) (a n : Nat) : (s.spoisClear a n).free = s.free := rfl
@[simp] theorem State.spoisClear_focus (s : State) (a n : Nat) : (s.spoisClear a n).focus = s.focus := rfl
@[simp] theorem State.spoisClear_stalled (s : State) (a n : Nat) : (s.spoisClear a n).stalled = s.stalled := rfl
@[simp] theorem State.spoisClear_nextId (s : State) (a n : Nat) : (s.spoisClear a n).nextId = s.nextId := rfl
@[simp] theorem State.spoisClear_agenda (s : State) (a n : Nat) : (s.spoisClear a n).agenda = s.agenda := rfl
@[simp] theorem State.spoisClear_inputs (s : State) (a n : Nat) : (s.spoisClear a n).inputs = s.inputs := rfl
@[simp] theorem State.spoisClear_strikes (s : State) (a n : Nat) : (s.spoisClear a n).strikes = s.strikes := rfl
@[simp] theorem State.spoisClear_arg (s : State) (a n : Nat) : (s.spoisClear a n).arg = s.arg := rfl
@[simp] theorem State.spoisClear_mem (s : State) (a n : Nat) : (s.spoisClear a n).mem = s.mem := rfl
@[simp] theorem State.spoisClear_gpois (s : State) (a n : Nat) : (s.spoisClear a n).gpois = s.gpois := rfl
@[simp] theorem State.spoisClear_corrected (s : State) (a n : Nat) : (s.spoisClear a n).corrected = s.corrected := rfl
@[simp] theorem State.spoisClear_decoders (s : State) (a n : Nat) : (s.spoisClear a n).decoders = s.decoders := rfl
@[simp] theorem State.spoisClear_spois (s : State) (a n : Nat) : (s.spoisClear a n).spois = delRange s.spois (sectorsOf a n).1 (sectorsOf a n).2 := rfl
@[simp] theorem State.spoisClear_actors (s : State) (a n : Nat) : (s.spoisClear a n).actors = s.actors := rfl
@[simp] theorem State.spoisClear_cells (s : State) (a n : Nat) : (s.spoisClear a n).cells = s.cells := rfl
@[simp] theorem State.spoisClear_files (s : State) (a n : Nat) : (s.spoisClear a n).files = s.files := rfl
@[simp] theorem State.spoisClear_nextFile (s : State) (a n : Nat) : (s.spoisClear a n).nextFile = s.nextFile := rfl
@[simp] theorem State.spoisClear_jobs (s : State) (a n : Nat) : (s.spoisClear a n).jobs = s.jobs := rfl
@[simp] theorem State.spoisClear_serials (s : State) (a n : Nat) : (s.spoisClear a n).serials = s.serials := rfl
@[simp] theorem State.spoisClear_cohorts (s : State) (a n : Nat) : (s.spoisClear a n).cohorts = s.cohorts := rfl
@[simp] theorem State.spoisClear_trees (s : State) (a n : Nat) : (s.spoisClear a n).trees = s.trees := rfl
@[simp] theorem State.spoisClear_sups (s : State) (a n : Nat) : (s.spoisClear a n).sups = s.sups := rfl
@[simp] theorem State.spoisClear_backs (s : State) (a n : Nat) : (s.spoisClear a n).backs = s.backs := rfl
@[simp] theorem State.spoisClear_ballocs (s : State) (a n : Nat) : (s.spoisClear a n).ballocs = s.ballocs := rfl
@[simp] theorem State.spoisClear_lone (s : State) (a n : Nat) : (s.spoisClear a n).lone = s.lone := rfl
@[simp] theorem State.spoisClear_ports (s : State) (a n : Nat) : (s.spoisClear a n).ports = s.ports := rfl
@[simp] theorem State.spoisClear_filters (s : State) (a n : Nat) : (s.spoisClear a n).filters = s.filters := rfl
@[simp] theorem State.spoisClear_reds (s : State) (a n : Nat) : (s.spoisClear a n).reds = s.reds := rfl
@[simp] theorem State.spoisClear_fwds (s : State) (a n : Nat) : (s.spoisClear a n).fwds = s.fwds := rfl
@[simp] theorem State.spoisClear_counts (s : State) (a n : Nat) : (s.spoisClear a n).counts = s.counts := rfl
@[simp] theorem State.spoisClear_queued (s : State) (a n : Nat) : (s.spoisClear a n).queued = s.queued := rfl
@[simp] theorem State.spoisClear_notes (s : State) (a n : Nat) : (s.spoisClear a n).notes = s.notes := rfl
@[simp] theorem State.spoisClear_seenLost (s : State) (a n : Nat) : (s.spoisClear a n).seenLost = s.seenLost := rfl
@[simp] theorem State.spoisClear_ucie (s : State) (a n : Nat) : (s.spoisClear a n).ucie = s.ucie := rfl
@[simp] theorem State.spoisClear_wires (s : State) (a n : Nat) : (s.spoisClear a n).wires = s.wires := rfl
@[simp] theorem State.spoisClear_stations (s : State) (a n : Nat) : (s.spoisClear a n).stations = s.stations := rfl
@[simp] theorem State.spoisClear_chans (s : State) (a n : Nat) : (s.spoisClear a n).chans = s.chans := rfl
@[simp] theorem State.spoisClear_queues (s : State) (a n : Nat) : (s.spoisClear a n).queues = s.queues := rfl
@[simp] theorem State.spoisClear_pairs (s : State) (a n : Nat) : (s.spoisClear a n).pairs = s.pairs := rfl
@[simp] theorem State.spoisClear_lastInst (s : State) (a n : Nat) : (s.spoisClear a n).lastInst = s.lastInst := rfl
@[simp] theorem State.spoisClear_evalSeats (s : State) (a n : Nat) : (s.spoisClear a n).evalSeats = s.evalSeats := rfl
@[simp] theorem State.spoisClear_held (s : State) (a n : Nat) : (s.spoisClear a n).held = s.held := rfl
@[simp] theorem State.spoisClear_seqs (s : State) (a n : Nat) : (s.spoisClear a n).seqs = s.seqs := rfl
@[simp] theorem State.spoisClear_buses (s : State) (a n : Nat) : (s.spoisClear a n).buses = s.buses := rfl
@[simp] theorem State.spoisClear_audits (s : State) (a n : Nat) : (s.spoisClear a n).audits = s.audits := rfl
@[simp] theorem State.spoisClear_duties (s : State) (a n : Nat) : (s.spoisClear a n).duties = s.duties := rfl
@[simp] theorem State.spoisClear_dutyNum (s : State) (a n : Nat) : (s.spoisClear a n).dutyNum = s.dutyNum := rfl
@[simp] theorem State.spoisClear_regs (s : State) (a n : Nat) : (s.spoisClear a n).regs = s.regs := rfl
@[simp] theorem State.spoisClear_throttled (s : State) (a n : Nat) : (s.spoisClear a n).throttled = s.throttled := rfl
@[simp] theorem State.spoisClear_tripped (s : State) (a n : Nat) : (s.spoisClear a n).tripped = s.tripped := rfl
@[simp] theorem State.spoisClear_halted (s : State) (a n : Nat) : (s.spoisClear a n).halted = s.halted := rfl
-- State.setActor
@[simp] theorem State.setActor_cycle (s : State) (a : Actor) : (s.setActor a).cycle = s.cycle := rfl
@[simp] theorem State.setActor_tick (s : State) (a : Actor) : (s.setActor a).tick = s.tick := rfl
@[simp] theorem State.setActor_free (s : State) (a : Actor) : (s.setActor a).free = s.free := rfl
@[simp] theorem State.setActor_focus (s : State) (a : Actor) : (s.setActor a).focus = s.focus := rfl
@[simp] theorem State.setActor_stalled (s : State) (a : Actor) : (s.setActor a).stalled = s.stalled := rfl
@[simp] theorem State.setActor_nextId (s : State) (a : Actor) : (s.setActor a).nextId = s.nextId := rfl
@[simp] theorem State.setActor_agenda (s : State) (a : Actor) : (s.setActor a).agenda = s.agenda := rfl
@[simp] theorem State.setActor_inputs (s : State) (a : Actor) : (s.setActor a).inputs = s.inputs := rfl
@[simp] theorem State.setActor_strikes (s : State) (a : Actor) : (s.setActor a).strikes = s.strikes := rfl
@[simp] theorem State.setActor_arg (s : State) (a : Actor) : (s.setActor a).arg = s.arg := rfl
@[simp] theorem State.setActor_mem (s : State) (a : Actor) : (s.setActor a).mem = s.mem := rfl
@[simp] theorem State.setActor_gpois (s : State) (a : Actor) : (s.setActor a).gpois = s.gpois := rfl
@[simp] theorem State.setActor_corrected (s : State) (a : Actor) : (s.setActor a).corrected = s.corrected := rfl
@[simp] theorem State.setActor_decoders (s : State) (a : Actor) : (s.setActor a).decoders = s.decoders := rfl
@[simp] theorem State.setActor_spois (s : State) (a : Actor) : (s.setActor a).spois = s.spois := rfl
@[simp] theorem State.setActor_actors (s : State) (a : Actor) : (s.setActor a).actors = kvSet s.actors a.name.toNat a := rfl
@[simp] theorem State.setActor_cells (s : State) (a : Actor) : (s.setActor a).cells = s.cells := rfl
@[simp] theorem State.setActor_files (s : State) (a : Actor) : (s.setActor a).files = s.files := rfl
@[simp] theorem State.setActor_nextFile (s : State) (a : Actor) : (s.setActor a).nextFile = s.nextFile := rfl
@[simp] theorem State.setActor_jobs (s : State) (a : Actor) : (s.setActor a).jobs = s.jobs := rfl
@[simp] theorem State.setActor_serials (s : State) (a : Actor) : (s.setActor a).serials = s.serials := rfl
@[simp] theorem State.setActor_cohorts (s : State) (a : Actor) : (s.setActor a).cohorts = s.cohorts := rfl
@[simp] theorem State.setActor_trees (s : State) (a : Actor) : (s.setActor a).trees = s.trees := rfl
@[simp] theorem State.setActor_sups (s : State) (a : Actor) : (s.setActor a).sups = s.sups := rfl
@[simp] theorem State.setActor_backs (s : State) (a : Actor) : (s.setActor a).backs = s.backs := rfl
@[simp] theorem State.setActor_ballocs (s : State) (a : Actor) : (s.setActor a).ballocs = s.ballocs := rfl
@[simp] theorem State.setActor_lone (s : State) (a : Actor) : (s.setActor a).lone = s.lone := rfl
@[simp] theorem State.setActor_ports (s : State) (a : Actor) : (s.setActor a).ports = s.ports := rfl
@[simp] theorem State.setActor_filters (s : State) (a : Actor) : (s.setActor a).filters = s.filters := rfl
@[simp] theorem State.setActor_reds (s : State) (a : Actor) : (s.setActor a).reds = s.reds := rfl
@[simp] theorem State.setActor_fwds (s : State) (a : Actor) : (s.setActor a).fwds = s.fwds := rfl
@[simp] theorem State.setActor_counts (s : State) (a : Actor) : (s.setActor a).counts = s.counts := rfl
@[simp] theorem State.setActor_queued (s : State) (a : Actor) : (s.setActor a).queued = s.queued := rfl
@[simp] theorem State.setActor_notes (s : State) (a : Actor) : (s.setActor a).notes = s.notes := rfl
@[simp] theorem State.setActor_seenLost (s : State) (a : Actor) : (s.setActor a).seenLost = s.seenLost := rfl
@[simp] theorem State.setActor_ucie (s : State) (a : Actor) : (s.setActor a).ucie = s.ucie := rfl
@[simp] theorem State.setActor_wires (s : State) (a : Actor) : (s.setActor a).wires = s.wires := rfl
@[simp] theorem State.setActor_stations (s : State) (a : Actor) : (s.setActor a).stations = s.stations := rfl
@[simp] theorem State.setActor_chans (s : State) (a : Actor) : (s.setActor a).chans = s.chans := rfl
@[simp] theorem State.setActor_queues (s : State) (a : Actor) : (s.setActor a).queues = s.queues := rfl
@[simp] theorem State.setActor_pairs (s : State) (a : Actor) : (s.setActor a).pairs = s.pairs := rfl
@[simp] theorem State.setActor_lastInst (s : State) (a : Actor) : (s.setActor a).lastInst = s.lastInst := rfl
@[simp] theorem State.setActor_evalSeats (s : State) (a : Actor) : (s.setActor a).evalSeats = s.evalSeats := rfl
@[simp] theorem State.setActor_held (s : State) (a : Actor) : (s.setActor a).held = s.held := rfl
@[simp] theorem State.setActor_seqs (s : State) (a : Actor) : (s.setActor a).seqs = s.seqs := rfl
@[simp] theorem State.setActor_buses (s : State) (a : Actor) : (s.setActor a).buses = s.buses := rfl
@[simp] theorem State.setActor_audits (s : State) (a : Actor) : (s.setActor a).audits = s.audits := rfl
@[simp] theorem State.setActor_duties (s : State) (a : Actor) : (s.setActor a).duties = s.duties := rfl
@[simp] theorem State.setActor_dutyNum (s : State) (a : Actor) : (s.setActor a).dutyNum = s.dutyNum := rfl
@[simp] theorem State.setActor_regs (s : State) (a : Actor) : (s.setActor a).regs = s.regs := rfl
@[simp] theorem State.setActor_throttled (s : State) (a : Actor) : (s.setActor a).throttled = s.throttled := rfl
@[simp] theorem State.setActor_tripped (s : State) (a : Actor) : (s.setActor a).tripped = s.tripped := rfl
@[simp] theorem State.setActor_halted (s : State) (a : Actor) : (s.setActor a).halted = s.halted := rfl
-- State.setCur
@[simp] theorem State.setCur_cycle (s : State) (a : Actor) : (s.setCur a).cycle = s.cycle := rfl
@[simp] theorem State.setCur_tick (s : State) (a : Actor) : (s.setCur a).tick = s.tick := rfl
@[simp] theorem State.setCur_free (s : State) (a : Actor) : (s.setCur a).free = s.free := rfl
@[simp] theorem State.setCur_focus (s : State) (a : Actor) : (s.setCur a).focus = s.focus := rfl
@[simp] theorem State.setCur_stalled (s : State) (a : Actor) : (s.setCur a).stalled = s.stalled := rfl
@[simp] theorem State.setCur_nextId (s : State) (a : Actor) : (s.setCur a).nextId = s.nextId := rfl
@[simp] theorem State.setCur_agenda (s : State) (a : Actor) : (s.setCur a).agenda = s.agenda := rfl
@[simp] theorem State.setCur_inputs (s : State) (a : Actor) : (s.setCur a).inputs = s.inputs := rfl
@[simp] theorem State.setCur_strikes (s : State) (a : Actor) : (s.setCur a).strikes = s.strikes := rfl
@[simp] theorem State.setCur_arg (s : State) (a : Actor) : (s.setCur a).arg = s.arg := rfl
@[simp] theorem State.setCur_mem (s : State) (a : Actor) : (s.setCur a).mem = s.mem := rfl
@[simp] theorem State.setCur_gpois (s : State) (a : Actor) : (s.setCur a).gpois = s.gpois := rfl
@[simp] theorem State.setCur_corrected (s : State) (a : Actor) : (s.setCur a).corrected = s.corrected := rfl
@[simp] theorem State.setCur_decoders (s : State) (a : Actor) : (s.setCur a).decoders = s.decoders := rfl
@[simp] theorem State.setCur_spois (s : State) (a : Actor) : (s.setCur a).spois = s.spois := rfl
@[simp] theorem State.setCur_actors (s : State) (a : Actor) : (s.setCur a).actors = kvSet s.actors s.focus.toNat { a with name := s.focus } := rfl
@[simp] theorem State.setCur_cells (s : State) (a : Actor) : (s.setCur a).cells = s.cells := rfl
@[simp] theorem State.setCur_files (s : State) (a : Actor) : (s.setCur a).files = s.files := rfl
@[simp] theorem State.setCur_nextFile (s : State) (a : Actor) : (s.setCur a).nextFile = s.nextFile := rfl
@[simp] theorem State.setCur_jobs (s : State) (a : Actor) : (s.setCur a).jobs = s.jobs := rfl
@[simp] theorem State.setCur_serials (s : State) (a : Actor) : (s.setCur a).serials = s.serials := rfl
@[simp] theorem State.setCur_cohorts (s : State) (a : Actor) : (s.setCur a).cohorts = s.cohorts := rfl
@[simp] theorem State.setCur_trees (s : State) (a : Actor) : (s.setCur a).trees = s.trees := rfl
@[simp] theorem State.setCur_sups (s : State) (a : Actor) : (s.setCur a).sups = s.sups := rfl
@[simp] theorem State.setCur_backs (s : State) (a : Actor) : (s.setCur a).backs = s.backs := rfl
@[simp] theorem State.setCur_ballocs (s : State) (a : Actor) : (s.setCur a).ballocs = s.ballocs := rfl
@[simp] theorem State.setCur_lone (s : State) (a : Actor) : (s.setCur a).lone = s.lone := rfl
@[simp] theorem State.setCur_ports (s : State) (a : Actor) : (s.setCur a).ports = s.ports := rfl
@[simp] theorem State.setCur_filters (s : State) (a : Actor) : (s.setCur a).filters = s.filters := rfl
@[simp] theorem State.setCur_reds (s : State) (a : Actor) : (s.setCur a).reds = s.reds := rfl
@[simp] theorem State.setCur_fwds (s : State) (a : Actor) : (s.setCur a).fwds = s.fwds := rfl
@[simp] theorem State.setCur_counts (s : State) (a : Actor) : (s.setCur a).counts = s.counts := rfl
@[simp] theorem State.setCur_queued (s : State) (a : Actor) : (s.setCur a).queued = s.queued := rfl
@[simp] theorem State.setCur_notes (s : State) (a : Actor) : (s.setCur a).notes = s.notes := rfl
@[simp] theorem State.setCur_seenLost (s : State) (a : Actor) : (s.setCur a).seenLost = s.seenLost := rfl
@[simp] theorem State.setCur_ucie (s : State) (a : Actor) : (s.setCur a).ucie = s.ucie := rfl
@[simp] theorem State.setCur_wires (s : State) (a : Actor) : (s.setCur a).wires = s.wires := rfl
@[simp] theorem State.setCur_stations (s : State) (a : Actor) : (s.setCur a).stations = s.stations := rfl
@[simp] theorem State.setCur_chans (s : State) (a : Actor) : (s.setCur a).chans = s.chans := rfl
@[simp] theorem State.setCur_queues (s : State) (a : Actor) : (s.setCur a).queues = s.queues := rfl
@[simp] theorem State.setCur_pairs (s : State) (a : Actor) : (s.setCur a).pairs = s.pairs := rfl
@[simp] theorem State.setCur_lastInst (s : State) (a : Actor) : (s.setCur a).lastInst = s.lastInst := rfl
@[simp] theorem State.setCur_evalSeats (s : State) (a : Actor) : (s.setCur a).evalSeats = s.evalSeats := rfl
@[simp] theorem State.setCur_held (s : State) (a : Actor) : (s.setCur a).held = s.held := rfl
@[simp] theorem State.setCur_seqs (s : State) (a : Actor) : (s.setCur a).seqs = s.seqs := rfl
@[simp] theorem State.setCur_buses (s : State) (a : Actor) : (s.setCur a).buses = s.buses := rfl
@[simp] theorem State.setCur_audits (s : State) (a : Actor) : (s.setCur a).audits = s.audits := rfl
@[simp] theorem State.setCur_duties (s : State) (a : Actor) : (s.setCur a).duties = s.duties := rfl
@[simp] theorem State.setCur_dutyNum (s : State) (a : Actor) : (s.setCur a).dutyNum = s.dutyNum := rfl
@[simp] theorem State.setCur_regs (s : State) (a : Actor) : (s.setCur a).regs = s.regs := rfl
@[simp] theorem State.setCur_throttled (s : State) (a : Actor) : (s.setCur a).throttled = s.throttled := rfl
@[simp] theorem State.setCur_tripped (s : State) (a : Actor) : (s.setCur a).tripped = s.tripped := rfl
@[simp] theorem State.setCur_halted (s : State) (a : Actor) : (s.setCur a).halted = s.halted := rfl
-- State.dropActor
@[simp] theorem State.dropActor_cycle (s : State) (n : ActorName) : (s.dropActor n).cycle = s.cycle := rfl
@[simp] theorem State.dropActor_tick (s : State) (n : ActorName) : (s.dropActor n).tick = s.tick := rfl
@[simp] theorem State.dropActor_free (s : State) (n : ActorName) : (s.dropActor n).free = s.free := rfl
@[simp] theorem State.dropActor_focus (s : State) (n : ActorName) : (s.dropActor n).focus = s.focus := rfl
@[simp] theorem State.dropActor_stalled (s : State) (n : ActorName) : (s.dropActor n).stalled = s.stalled := rfl
@[simp] theorem State.dropActor_nextId (s : State) (n : ActorName) : (s.dropActor n).nextId = s.nextId := rfl
@[simp] theorem State.dropActor_agenda (s : State) (n : ActorName) : (s.dropActor n).agenda = s.agenda := rfl
@[simp] theorem State.dropActor_inputs (s : State) (n : ActorName) : (s.dropActor n).inputs = s.inputs := rfl
@[simp] theorem State.dropActor_strikes (s : State) (n : ActorName) : (s.dropActor n).strikes = s.strikes := rfl
@[simp] theorem State.dropActor_arg (s : State) (n : ActorName) : (s.dropActor n).arg = s.arg := rfl
@[simp] theorem State.dropActor_mem (s : State) (n : ActorName) : (s.dropActor n).mem = s.mem := rfl
@[simp] theorem State.dropActor_gpois (s : State) (n : ActorName) : (s.dropActor n).gpois = s.gpois := rfl
@[simp] theorem State.dropActor_corrected (s : State) (n : ActorName) : (s.dropActor n).corrected = s.corrected := rfl
@[simp] theorem State.dropActor_decoders (s : State) (n : ActorName) : (s.dropActor n).decoders = s.decoders := rfl
@[simp] theorem State.dropActor_spois (s : State) (n : ActorName) : (s.dropActor n).spois = s.spois := rfl
@[simp] theorem State.dropActor_actors (s : State) (n : ActorName) : (s.dropActor n).actors = kvDel s.actors n.toNat := rfl
@[simp] theorem State.dropActor_cells (s : State) (n : ActorName) : (s.dropActor n).cells = s.cells := rfl
@[simp] theorem State.dropActor_files (s : State) (n : ActorName) : (s.dropActor n).files = s.files := rfl
@[simp] theorem State.dropActor_nextFile (s : State) (n : ActorName) : (s.dropActor n).nextFile = s.nextFile := rfl
@[simp] theorem State.dropActor_jobs (s : State) (n : ActorName) : (s.dropActor n).jobs = s.jobs := rfl
@[simp] theorem State.dropActor_serials (s : State) (n : ActorName) : (s.dropActor n).serials = s.serials := rfl
@[simp] theorem State.dropActor_cohorts (s : State) (n : ActorName) : (s.dropActor n).cohorts = s.cohorts := rfl
@[simp] theorem State.dropActor_trees (s : State) (n : ActorName) : (s.dropActor n).trees = s.trees := rfl
@[simp] theorem State.dropActor_sups (s : State) (n : ActorName) : (s.dropActor n).sups = s.sups := rfl
@[simp] theorem State.dropActor_backs (s : State) (n : ActorName) : (s.dropActor n).backs = s.backs := rfl
@[simp] theorem State.dropActor_ballocs (s : State) (n : ActorName) : (s.dropActor n).ballocs = s.ballocs := rfl
@[simp] theorem State.dropActor_lone (s : State) (n : ActorName) : (s.dropActor n).lone = s.lone := rfl
@[simp] theorem State.dropActor_ports (s : State) (n : ActorName) : (s.dropActor n).ports = s.ports := rfl
@[simp] theorem State.dropActor_filters (s : State) (n : ActorName) : (s.dropActor n).filters = s.filters := rfl
@[simp] theorem State.dropActor_reds (s : State) (n : ActorName) : (s.dropActor n).reds = s.reds := rfl
@[simp] theorem State.dropActor_fwds (s : State) (n : ActorName) : (s.dropActor n).fwds = s.fwds := rfl
@[simp] theorem State.dropActor_counts (s : State) (n : ActorName) : (s.dropActor n).counts = s.counts := rfl
@[simp] theorem State.dropActor_queued (s : State) (n : ActorName) : (s.dropActor n).queued = s.queued := rfl
@[simp] theorem State.dropActor_notes (s : State) (n : ActorName) : (s.dropActor n).notes = s.notes := rfl
@[simp] theorem State.dropActor_seenLost (s : State) (n : ActorName) : (s.dropActor n).seenLost = s.seenLost := rfl
@[simp] theorem State.dropActor_ucie (s : State) (n : ActorName) : (s.dropActor n).ucie = s.ucie := rfl
@[simp] theorem State.dropActor_wires (s : State) (n : ActorName) : (s.dropActor n).wires = s.wires := rfl
@[simp] theorem State.dropActor_stations (s : State) (n : ActorName) : (s.dropActor n).stations = s.stations := rfl
@[simp] theorem State.dropActor_chans (s : State) (n : ActorName) : (s.dropActor n).chans = s.chans := rfl
@[simp] theorem State.dropActor_queues (s : State) (n : ActorName) : (s.dropActor n).queues = s.queues := rfl
@[simp] theorem State.dropActor_pairs (s : State) (n : ActorName) : (s.dropActor n).pairs = s.pairs := rfl
@[simp] theorem State.dropActor_lastInst (s : State) (n : ActorName) : (s.dropActor n).lastInst = s.lastInst := rfl
@[simp] theorem State.dropActor_evalSeats (s : State) (n : ActorName) : (s.dropActor n).evalSeats = s.evalSeats := rfl
@[simp] theorem State.dropActor_held (s : State) (n : ActorName) : (s.dropActor n).held = s.held := rfl
@[simp] theorem State.dropActor_seqs (s : State) (n : ActorName) : (s.dropActor n).seqs = s.seqs := rfl
@[simp] theorem State.dropActor_buses (s : State) (n : ActorName) : (s.dropActor n).buses = s.buses := rfl
@[simp] theorem State.dropActor_audits (s : State) (n : ActorName) : (s.dropActor n).audits = s.audits := rfl
@[simp] theorem State.dropActor_duties (s : State) (n : ActorName) : (s.dropActor n).duties = s.duties := rfl
@[simp] theorem State.dropActor_dutyNum (s : State) (n : ActorName) : (s.dropActor n).dutyNum = s.dutyNum := rfl
@[simp] theorem State.dropActor_regs (s : State) (n : ActorName) : (s.dropActor n).regs = s.regs := rfl
@[simp] theorem State.dropActor_throttled (s : State) (n : ActorName) : (s.dropActor n).throttled = s.throttled := rfl
@[simp] theorem State.dropActor_tripped (s : State) (n : ActorName) : (s.dropActor n).tripped = s.tripped := rfl
@[simp] theorem State.dropActor_halted (s : State) (n : ActorName) : (s.dropActor n).halted = s.halted := rfl
-- State.setCell
@[simp] theorem State.setCell_cycle (s : State) (c : Nat) (v : Cell) : (s.setCell c v).cycle = s.cycle := rfl
@[simp] theorem State.setCell_tick (s : State) (c : Nat) (v : Cell) : (s.setCell c v).tick = s.tick := rfl
@[simp] theorem State.setCell_free (s : State) (c : Nat) (v : Cell) : (s.setCell c v).free = s.free := rfl
@[simp] theorem State.setCell_focus (s : State) (c : Nat) (v : Cell) : (s.setCell c v).focus = s.focus := rfl
@[simp] theorem State.setCell_stalled (s : State) (c : Nat) (v : Cell) : (s.setCell c v).stalled = s.stalled := rfl
@[simp] theorem State.setCell_nextId (s : State) (c : Nat) (v : Cell) : (s.setCell c v).nextId = s.nextId := rfl
@[simp] theorem State.setCell_agenda (s : State) (c : Nat) (v : Cell) : (s.setCell c v).agenda = s.agenda := rfl
@[simp] theorem State.setCell_inputs (s : State) (c : Nat) (v : Cell) : (s.setCell c v).inputs = s.inputs := rfl
@[simp] theorem State.setCell_strikes (s : State) (c : Nat) (v : Cell) : (s.setCell c v).strikes = s.strikes := rfl
@[simp] theorem State.setCell_arg (s : State) (c : Nat) (v : Cell) : (s.setCell c v).arg = s.arg := rfl
@[simp] theorem State.setCell_mem (s : State) (c : Nat) (v : Cell) : (s.setCell c v).mem = s.mem := rfl
@[simp] theorem State.setCell_gpois (s : State) (c : Nat) (v : Cell) : (s.setCell c v).gpois = s.gpois := rfl
@[simp] theorem State.setCell_corrected (s : State) (c : Nat) (v : Cell) : (s.setCell c v).corrected = s.corrected := rfl
@[simp] theorem State.setCell_decoders (s : State) (c : Nat) (v : Cell) : (s.setCell c v).decoders = s.decoders := rfl
@[simp] theorem State.setCell_spois (s : State) (c : Nat) (v : Cell) : (s.setCell c v).spois = s.spois := rfl
@[simp] theorem State.setCell_actors (s : State) (c : Nat) (v : Cell) : (s.setCell c v).actors = s.actors := rfl
@[simp] theorem State.setCell_cells (s : State) (c : Nat) (v : Cell) : (s.setCell c v).cells = kvSet s.cells c v := rfl
@[simp] theorem State.setCell_files (s : State) (c : Nat) (v : Cell) : (s.setCell c v).files = s.files := rfl
@[simp] theorem State.setCell_nextFile (s : State) (c : Nat) (v : Cell) : (s.setCell c v).nextFile = s.nextFile := rfl
@[simp] theorem State.setCell_jobs (s : State) (c : Nat) (v : Cell) : (s.setCell c v).jobs = s.jobs := rfl
@[simp] theorem State.setCell_serials (s : State) (c : Nat) (v : Cell) : (s.setCell c v).serials = s.serials := rfl
@[simp] theorem State.setCell_cohorts (s : State) (c : Nat) (v : Cell) : (s.setCell c v).cohorts = s.cohorts := rfl
@[simp] theorem State.setCell_trees (s : State) (c : Nat) (v : Cell) : (s.setCell c v).trees = s.trees := rfl
@[simp] theorem State.setCell_sups (s : State) (c : Nat) (v : Cell) : (s.setCell c v).sups = s.sups := rfl
@[simp] theorem State.setCell_backs (s : State) (c : Nat) (v : Cell) : (s.setCell c v).backs = s.backs := rfl
@[simp] theorem State.setCell_ballocs (s : State) (c : Nat) (v : Cell) : (s.setCell c v).ballocs = s.ballocs := rfl
@[simp] theorem State.setCell_lone (s : State) (c : Nat) (v : Cell) : (s.setCell c v).lone = s.lone := rfl
@[simp] theorem State.setCell_ports (s : State) (c : Nat) (v : Cell) : (s.setCell c v).ports = s.ports := rfl
@[simp] theorem State.setCell_filters (s : State) (c : Nat) (v : Cell) : (s.setCell c v).filters = s.filters := rfl
@[simp] theorem State.setCell_reds (s : State) (c : Nat) (v : Cell) : (s.setCell c v).reds = s.reds := rfl
@[simp] theorem State.setCell_fwds (s : State) (c : Nat) (v : Cell) : (s.setCell c v).fwds = s.fwds := rfl
@[simp] theorem State.setCell_counts (s : State) (c : Nat) (v : Cell) : (s.setCell c v).counts = s.counts := rfl
@[simp] theorem State.setCell_queued (s : State) (c : Nat) (v : Cell) : (s.setCell c v).queued = s.queued := rfl
@[simp] theorem State.setCell_notes (s : State) (c : Nat) (v : Cell) : (s.setCell c v).notes = s.notes := rfl
@[simp] theorem State.setCell_seenLost (s : State) (c : Nat) (v : Cell) : (s.setCell c v).seenLost = s.seenLost := rfl
@[simp] theorem State.setCell_ucie (s : State) (c : Nat) (v : Cell) : (s.setCell c v).ucie = s.ucie := rfl
@[simp] theorem State.setCell_wires (s : State) (c : Nat) (v : Cell) : (s.setCell c v).wires = s.wires := rfl
@[simp] theorem State.setCell_stations (s : State) (c : Nat) (v : Cell) : (s.setCell c v).stations = s.stations := rfl
@[simp] theorem State.setCell_chans (s : State) (c : Nat) (v : Cell) : (s.setCell c v).chans = s.chans := rfl
@[simp] theorem State.setCell_queues (s : State) (c : Nat) (v : Cell) : (s.setCell c v).queues = s.queues := rfl
@[simp] theorem State.setCell_pairs (s : State) (c : Nat) (v : Cell) : (s.setCell c v).pairs = s.pairs := rfl
@[simp] theorem State.setCell_lastInst (s : State) (c : Nat) (v : Cell) : (s.setCell c v).lastInst = s.lastInst := rfl
@[simp] theorem State.setCell_evalSeats (s : State) (c : Nat) (v : Cell) : (s.setCell c v).evalSeats = s.evalSeats := rfl
@[simp] theorem State.setCell_held (s : State) (c : Nat) (v : Cell) : (s.setCell c v).held = s.held := rfl
@[simp] theorem State.setCell_seqs (s : State) (c : Nat) (v : Cell) : (s.setCell c v).seqs = s.seqs := rfl
@[simp] theorem State.setCell_buses (s : State) (c : Nat) (v : Cell) : (s.setCell c v).buses = s.buses := rfl
@[simp] theorem State.setCell_audits (s : State) (c : Nat) (v : Cell) : (s.setCell c v).audits = s.audits := rfl
@[simp] theorem State.setCell_duties (s : State) (c : Nat) (v : Cell) : (s.setCell c v).duties = s.duties := rfl
@[simp] theorem State.setCell_dutyNum (s : State) (c : Nat) (v : Cell) : (s.setCell c v).dutyNum = s.dutyNum := rfl
@[simp] theorem State.setCell_regs (s : State) (c : Nat) (v : Cell) : (s.setCell c v).regs = s.regs := rfl
@[simp] theorem State.setCell_throttled (s : State) (c : Nat) (v : Cell) : (s.setCell c v).throttled = s.throttled := rfl
@[simp] theorem State.setCell_tripped (s : State) (c : Nat) (v : Cell) : (s.setCell c v).tripped = s.tripped := rfl
@[simp] theorem State.setCell_halted (s : State) (c : Nat) (v : Cell) : (s.setCell c v).halted = s.halted := rfl
-- State.modCell
@[simp] theorem State.modCell_cycle (s : State) (c : Nat) (f : Cell → Cell) : (s.modCell c f).cycle = s.cycle := rfl
@[simp] theorem State.modCell_tick (s : State) (c : Nat) (f : Cell → Cell) : (s.modCell c f).tick = s.tick := rfl
@[simp] theorem State.modCell_free (s : State) (c : Nat) (f : Cell → Cell) : (s.modCell c f).free = s.free := rfl
@[simp] theorem State.modCell_focus (s : State) (c : Nat) (f : Cell → Cell) : (s.modCell c f).focus = s.focus := rfl
@[simp] theorem State.modCell_stalled (s : State) (c : Nat) (f : Cell → Cell) : (s.modCell c f).stalled = s.stalled := rfl
@[simp] theorem State.modCell_nextId (s : State) (c : Nat) (f : Cell → Cell) : (s.modCell c f).nextId = s.nextId := rfl
@[simp] theorem State.modCell_agenda (s : State) (c : Nat) (f : Cell → Cell) : (s.modCell c f).agenda = s.agenda := rfl
@[simp] theorem State.modCell_inputs (s : State) (c : Nat) (f : Cell → Cell) : (s.modCell c f).inputs = s.inputs := rfl
@[simp] theorem State.modCell_strikes (s : State) (c : Nat) (f : Cell → Cell) : (s.modCell c f).strikes = s.strikes := rfl
@[simp] theorem State.modCell_arg (s : State) (c : Nat) (f : Cell → Cell) : (s.modCell c f).arg = s.arg := rfl
@[simp] theorem State.modCell_mem (s : State) (c : Nat) (f : Cell → Cell) : (s.modCell c f).mem = s.mem := rfl
@[simp] theorem State.modCell_gpois (s : State) (c : Nat) (f : Cell → Cell) : (s.modCell c f).gpois = s.gpois := rfl
@[simp] theorem State.modCell_corrected (s : State) (c : Nat) (f : Cell → Cell) : (s.modCell c f).corrected = s.corrected := rfl
@[simp] theorem State.modCell_decoders (s : State) (c : Nat) (f : Cell → Cell) : (s.modCell c f).decoders = s.decoders := rfl
@[simp] theorem State.modCell_spois (s : State) (c : Nat) (f : Cell → Cell) : (s.modCell c f).spois = s.spois := rfl
@[simp] theorem State.modCell_actors (s : State) (c : Nat) (f : Cell → Cell) : (s.modCell c f).actors = s.actors := rfl
@[simp] theorem State.modCell_cells (s : State) (c : Nat) (f : Cell → Cell) : (s.modCell c f).cells = kvSet s.cells c (f (s.cell c)) := rfl
@[simp] theorem State.modCell_files (s : State) (c : Nat) (f : Cell → Cell) : (s.modCell c f).files = s.files := rfl
@[simp] theorem State.modCell_nextFile (s : State) (c : Nat) (f : Cell → Cell) : (s.modCell c f).nextFile = s.nextFile := rfl
@[simp] theorem State.modCell_jobs (s : State) (c : Nat) (f : Cell → Cell) : (s.modCell c f).jobs = s.jobs := rfl
@[simp] theorem State.modCell_serials (s : State) (c : Nat) (f : Cell → Cell) : (s.modCell c f).serials = s.serials := rfl
@[simp] theorem State.modCell_cohorts (s : State) (c : Nat) (f : Cell → Cell) : (s.modCell c f).cohorts = s.cohorts := rfl
@[simp] theorem State.modCell_trees (s : State) (c : Nat) (f : Cell → Cell) : (s.modCell c f).trees = s.trees := rfl
@[simp] theorem State.modCell_sups (s : State) (c : Nat) (f : Cell → Cell) : (s.modCell c f).sups = s.sups := rfl
@[simp] theorem State.modCell_backs (s : State) (c : Nat) (f : Cell → Cell) : (s.modCell c f).backs = s.backs := rfl
@[simp] theorem State.modCell_ballocs (s : State) (c : Nat) (f : Cell → Cell) : (s.modCell c f).ballocs = s.ballocs := rfl
@[simp] theorem State.modCell_lone (s : State) (c : Nat) (f : Cell → Cell) : (s.modCell c f).lone = s.lone := rfl
@[simp] theorem State.modCell_ports (s : State) (c : Nat) (f : Cell → Cell) : (s.modCell c f).ports = s.ports := rfl
@[simp] theorem State.modCell_filters (s : State) (c : Nat) (f : Cell → Cell) : (s.modCell c f).filters = s.filters := rfl
@[simp] theorem State.modCell_reds (s : State) (c : Nat) (f : Cell → Cell) : (s.modCell c f).reds = s.reds := rfl
@[simp] theorem State.modCell_fwds (s : State) (c : Nat) (f : Cell → Cell) : (s.modCell c f).fwds = s.fwds := rfl
@[simp] theorem State.modCell_counts (s : State) (c : Nat) (f : Cell → Cell) : (s.modCell c f).counts = s.counts := rfl
@[simp] theorem State.modCell_queued (s : State) (c : Nat) (f : Cell → Cell) : (s.modCell c f).queued = s.queued := rfl
@[simp] theorem State.modCell_notes (s : State) (c : Nat) (f : Cell → Cell) : (s.modCell c f).notes = s.notes := rfl
@[simp] theorem State.modCell_seenLost (s : State) (c : Nat) (f : Cell → Cell) : (s.modCell c f).seenLost = s.seenLost := rfl
@[simp] theorem State.modCell_ucie (s : State) (c : Nat) (f : Cell → Cell) : (s.modCell c f).ucie = s.ucie := rfl
@[simp] theorem State.modCell_wires (s : State) (c : Nat) (f : Cell → Cell) : (s.modCell c f).wires = s.wires := rfl
@[simp] theorem State.modCell_stations (s : State) (c : Nat) (f : Cell → Cell) : (s.modCell c f).stations = s.stations := rfl
@[simp] theorem State.modCell_chans (s : State) (c : Nat) (f : Cell → Cell) : (s.modCell c f).chans = s.chans := rfl
@[simp] theorem State.modCell_queues (s : State) (c : Nat) (f : Cell → Cell) : (s.modCell c f).queues = s.queues := rfl
@[simp] theorem State.modCell_pairs (s : State) (c : Nat) (f : Cell → Cell) : (s.modCell c f).pairs = s.pairs := rfl
@[simp] theorem State.modCell_lastInst (s : State) (c : Nat) (f : Cell → Cell) : (s.modCell c f).lastInst = s.lastInst := rfl
@[simp] theorem State.modCell_evalSeats (s : State) (c : Nat) (f : Cell → Cell) : (s.modCell c f).evalSeats = s.evalSeats := rfl
@[simp] theorem State.modCell_held (s : State) (c : Nat) (f : Cell → Cell) : (s.modCell c f).held = s.held := rfl
@[simp] theorem State.modCell_seqs (s : State) (c : Nat) (f : Cell → Cell) : (s.modCell c f).seqs = s.seqs := rfl
@[simp] theorem State.modCell_buses (s : State) (c : Nat) (f : Cell → Cell) : (s.modCell c f).buses = s.buses := rfl
@[simp] theorem State.modCell_audits (s : State) (c : Nat) (f : Cell → Cell) : (s.modCell c f).audits = s.audits := rfl
@[simp] theorem State.modCell_duties (s : State) (c : Nat) (f : Cell → Cell) : (s.modCell c f).duties = s.duties := rfl
@[simp] theorem State.modCell_dutyNum (s : State) (c : Nat) (f : Cell → Cell) : (s.modCell c f).dutyNum = s.dutyNum := rfl
@[simp] theorem State.modCell_regs (s : State) (c : Nat) (f : Cell → Cell) : (s.modCell c f).regs = s.regs := rfl
@[simp] theorem State.modCell_throttled (s : State) (c : Nat) (f : Cell → Cell) : (s.modCell c f).throttled = s.throttled := rfl
@[simp] theorem State.modCell_tripped (s : State) (c : Nat) (f : Cell → Cell) : (s.modCell c f).tripped = s.tripped := rfl
@[simp] theorem State.modCell_halted (s : State) (c : Nat) (f : Cell → Cell) : (s.modCell c f).halted = s.halted := rfl
-- State.modJob
@[simp] theorem State.modJob_cycle (s : State) (j : Nat) (f : Job → Job) : (s.modJob j f).cycle = s.cycle := rfl
@[simp] theorem State.modJob_tick (s : State) (j : Nat) (f : Job → Job) : (s.modJob j f).tick = s.tick := rfl
@[simp] theorem State.modJob_free (s : State) (j : Nat) (f : Job → Job) : (s.modJob j f).free = s.free := rfl
@[simp] theorem State.modJob_focus (s : State) (j : Nat) (f : Job → Job) : (s.modJob j f).focus = s.focus := rfl
@[simp] theorem State.modJob_stalled (s : State) (j : Nat) (f : Job → Job) : (s.modJob j f).stalled = s.stalled := rfl
@[simp] theorem State.modJob_nextId (s : State) (j : Nat) (f : Job → Job) : (s.modJob j f).nextId = s.nextId := rfl
@[simp] theorem State.modJob_agenda (s : State) (j : Nat) (f : Job → Job) : (s.modJob j f).agenda = s.agenda := rfl
@[simp] theorem State.modJob_inputs (s : State) (j : Nat) (f : Job → Job) : (s.modJob j f).inputs = s.inputs := rfl
@[simp] theorem State.modJob_strikes (s : State) (j : Nat) (f : Job → Job) : (s.modJob j f).strikes = s.strikes := rfl
@[simp] theorem State.modJob_arg (s : State) (j : Nat) (f : Job → Job) : (s.modJob j f).arg = s.arg := rfl
@[simp] theorem State.modJob_mem (s : State) (j : Nat) (f : Job → Job) : (s.modJob j f).mem = s.mem := rfl
@[simp] theorem State.modJob_gpois (s : State) (j : Nat) (f : Job → Job) : (s.modJob j f).gpois = s.gpois := rfl
@[simp] theorem State.modJob_corrected (s : State) (j : Nat) (f : Job → Job) : (s.modJob j f).corrected = s.corrected := rfl
@[simp] theorem State.modJob_decoders (s : State) (j : Nat) (f : Job → Job) : (s.modJob j f).decoders = s.decoders := rfl
@[simp] theorem State.modJob_spois (s : State) (j : Nat) (f : Job → Job) : (s.modJob j f).spois = s.spois := rfl
@[simp] theorem State.modJob_actors (s : State) (j : Nat) (f : Job → Job) : (s.modJob j f).actors = s.actors := rfl
@[simp] theorem State.modJob_cells (s : State) (j : Nat) (f : Job → Job) : (s.modJob j f).cells = s.cells := rfl
@[simp] theorem State.modJob_files (s : State) (j : Nat) (f : Job → Job) : (s.modJob j f).files = s.files := rfl
@[simp] theorem State.modJob_nextFile (s : State) (j : Nat) (f : Job → Job) : (s.modJob j f).nextFile = s.nextFile := rfl
@[simp] theorem State.modJob_jobs (s : State) (j : Nat) (f : Job → Job) : (s.modJob j f).jobs = s.jobs.map fun x => if x.jobn == j then f x else x := rfl
@[simp] theorem State.modJob_serials (s : State) (j : Nat) (f : Job → Job) : (s.modJob j f).serials = s.serials := rfl
@[simp] theorem State.modJob_cohorts (s : State) (j : Nat) (f : Job → Job) : (s.modJob j f).cohorts = s.cohorts := rfl
@[simp] theorem State.modJob_trees (s : State) (j : Nat) (f : Job → Job) : (s.modJob j f).trees = s.trees := rfl
@[simp] theorem State.modJob_sups (s : State) (j : Nat) (f : Job → Job) : (s.modJob j f).sups = s.sups := rfl
@[simp] theorem State.modJob_backs (s : State) (j : Nat) (f : Job → Job) : (s.modJob j f).backs = s.backs := rfl
@[simp] theorem State.modJob_ballocs (s : State) (j : Nat) (f : Job → Job) : (s.modJob j f).ballocs = s.ballocs := rfl
@[simp] theorem State.modJob_lone (s : State) (j : Nat) (f : Job → Job) : (s.modJob j f).lone = s.lone := rfl
@[simp] theorem State.modJob_ports (s : State) (j : Nat) (f : Job → Job) : (s.modJob j f).ports = s.ports := rfl
@[simp] theorem State.modJob_filters (s : State) (j : Nat) (f : Job → Job) : (s.modJob j f).filters = s.filters := rfl
@[simp] theorem State.modJob_reds (s : State) (j : Nat) (f : Job → Job) : (s.modJob j f).reds = s.reds := rfl
@[simp] theorem State.modJob_fwds (s : State) (j : Nat) (f : Job → Job) : (s.modJob j f).fwds = s.fwds := rfl
@[simp] theorem State.modJob_counts (s : State) (j : Nat) (f : Job → Job) : (s.modJob j f).counts = s.counts := rfl
@[simp] theorem State.modJob_queued (s : State) (j : Nat) (f : Job → Job) : (s.modJob j f).queued = s.queued := rfl
@[simp] theorem State.modJob_notes (s : State) (j : Nat) (f : Job → Job) : (s.modJob j f).notes = s.notes := rfl
@[simp] theorem State.modJob_seenLost (s : State) (j : Nat) (f : Job → Job) : (s.modJob j f).seenLost = s.seenLost := rfl
@[simp] theorem State.modJob_ucie (s : State) (j : Nat) (f : Job → Job) : (s.modJob j f).ucie = s.ucie := rfl
@[simp] theorem State.modJob_wires (s : State) (j : Nat) (f : Job → Job) : (s.modJob j f).wires = s.wires := rfl
@[simp] theorem State.modJob_stations (s : State) (j : Nat) (f : Job → Job) : (s.modJob j f).stations = s.stations := rfl
@[simp] theorem State.modJob_chans (s : State) (j : Nat) (f : Job → Job) : (s.modJob j f).chans = s.chans := rfl
@[simp] theorem State.modJob_queues (s : State) (j : Nat) (f : Job → Job) : (s.modJob j f).queues = s.queues := rfl
@[simp] theorem State.modJob_pairs (s : State) (j : Nat) (f : Job → Job) : (s.modJob j f).pairs = s.pairs := rfl
@[simp] theorem State.modJob_lastInst (s : State) (j : Nat) (f : Job → Job) : (s.modJob j f).lastInst = s.lastInst := rfl
@[simp] theorem State.modJob_evalSeats (s : State) (j : Nat) (f : Job → Job) : (s.modJob j f).evalSeats = s.evalSeats := rfl
@[simp] theorem State.modJob_held (s : State) (j : Nat) (f : Job → Job) : (s.modJob j f).held = s.held := rfl
@[simp] theorem State.modJob_seqs (s : State) (j : Nat) (f : Job → Job) : (s.modJob j f).seqs = s.seqs := rfl
@[simp] theorem State.modJob_buses (s : State) (j : Nat) (f : Job → Job) : (s.modJob j f).buses = s.buses := rfl
@[simp] theorem State.modJob_audits (s : State) (j : Nat) (f : Job → Job) : (s.modJob j f).audits = s.audits := rfl
@[simp] theorem State.modJob_duties (s : State) (j : Nat) (f : Job → Job) : (s.modJob j f).duties = s.duties := rfl
@[simp] theorem State.modJob_dutyNum (s : State) (j : Nat) (f : Job → Job) : (s.modJob j f).dutyNum = s.dutyNum := rfl
@[simp] theorem State.modJob_regs (s : State) (j : Nat) (f : Job → Job) : (s.modJob j f).regs = s.regs := rfl
@[simp] theorem State.modJob_throttled (s : State) (j : Nat) (f : Job → Job) : (s.modJob j f).throttled = s.throttled := rfl
@[simp] theorem State.modJob_tripped (s : State) (j : Nat) (f : Job → Job) : (s.modJob j f).tripped = s.tripped := rfl
@[simp] theorem State.modJob_halted (s : State) (j : Nat) (f : Job → Job) : (s.modJob j f).halted = s.halted := rfl
-- State.modAudit
@[simp] theorem State.modAudit_cycle (s : State) (b : Nat) (f : AuditBuf → AuditBuf) : (s.modAudit b f).cycle = s.cycle := rfl
@[simp] theorem State.modAudit_tick (s : State) (b : Nat) (f : AuditBuf → AuditBuf) : (s.modAudit b f).tick = s.tick := rfl
@[simp] theorem State.modAudit_free (s : State) (b : Nat) (f : AuditBuf → AuditBuf) : (s.modAudit b f).free = s.free := rfl
@[simp] theorem State.modAudit_focus (s : State) (b : Nat) (f : AuditBuf → AuditBuf) : (s.modAudit b f).focus = s.focus := rfl
@[simp] theorem State.modAudit_stalled (s : State) (b : Nat) (f : AuditBuf → AuditBuf) : (s.modAudit b f).stalled = s.stalled := rfl
@[simp] theorem State.modAudit_nextId (s : State) (b : Nat) (f : AuditBuf → AuditBuf) : (s.modAudit b f).nextId = s.nextId := rfl
@[simp] theorem State.modAudit_agenda (s : State) (b : Nat) (f : AuditBuf → AuditBuf) : (s.modAudit b f).agenda = s.agenda := rfl
@[simp] theorem State.modAudit_inputs (s : State) (b : Nat) (f : AuditBuf → AuditBuf) : (s.modAudit b f).inputs = s.inputs := rfl
@[simp] theorem State.modAudit_strikes (s : State) (b : Nat) (f : AuditBuf → AuditBuf) : (s.modAudit b f).strikes = s.strikes := rfl
@[simp] theorem State.modAudit_arg (s : State) (b : Nat) (f : AuditBuf → AuditBuf) : (s.modAudit b f).arg = s.arg := rfl
@[simp] theorem State.modAudit_mem (s : State) (b : Nat) (f : AuditBuf → AuditBuf) : (s.modAudit b f).mem = s.mem := rfl
@[simp] theorem State.modAudit_gpois (s : State) (b : Nat) (f : AuditBuf → AuditBuf) : (s.modAudit b f).gpois = s.gpois := rfl
@[simp] theorem State.modAudit_corrected (s : State) (b : Nat) (f : AuditBuf → AuditBuf) : (s.modAudit b f).corrected = s.corrected := rfl
@[simp] theorem State.modAudit_decoders (s : State) (b : Nat) (f : AuditBuf → AuditBuf) : (s.modAudit b f).decoders = s.decoders := rfl
@[simp] theorem State.modAudit_spois (s : State) (b : Nat) (f : AuditBuf → AuditBuf) : (s.modAudit b f).spois = s.spois := rfl
@[simp] theorem State.modAudit_actors (s : State) (b : Nat) (f : AuditBuf → AuditBuf) : (s.modAudit b f).actors = s.actors := rfl
@[simp] theorem State.modAudit_cells (s : State) (b : Nat) (f : AuditBuf → AuditBuf) : (s.modAudit b f).cells = s.cells := rfl
@[simp] theorem State.modAudit_files (s : State) (b : Nat) (f : AuditBuf → AuditBuf) : (s.modAudit b f).files = s.files := rfl
@[simp] theorem State.modAudit_nextFile (s : State) (b : Nat) (f : AuditBuf → AuditBuf) : (s.modAudit b f).nextFile = s.nextFile := rfl
@[simp] theorem State.modAudit_jobs (s : State) (b : Nat) (f : AuditBuf → AuditBuf) : (s.modAudit b f).jobs = s.jobs := rfl
@[simp] theorem State.modAudit_serials (s : State) (b : Nat) (f : AuditBuf → AuditBuf) : (s.modAudit b f).serials = s.serials := rfl
@[simp] theorem State.modAudit_cohorts (s : State) (b : Nat) (f : AuditBuf → AuditBuf) : (s.modAudit b f).cohorts = s.cohorts := rfl
@[simp] theorem State.modAudit_trees (s : State) (b : Nat) (f : AuditBuf → AuditBuf) : (s.modAudit b f).trees = s.trees := rfl
@[simp] theorem State.modAudit_sups (s : State) (b : Nat) (f : AuditBuf → AuditBuf) : (s.modAudit b f).sups = s.sups := rfl
@[simp] theorem State.modAudit_backs (s : State) (b : Nat) (f : AuditBuf → AuditBuf) : (s.modAudit b f).backs = s.backs := rfl
@[simp] theorem State.modAudit_ballocs (s : State) (b : Nat) (f : AuditBuf → AuditBuf) : (s.modAudit b f).ballocs = s.ballocs := rfl
@[simp] theorem State.modAudit_lone (s : State) (b : Nat) (f : AuditBuf → AuditBuf) : (s.modAudit b f).lone = s.lone := rfl
@[simp] theorem State.modAudit_ports (s : State) (b : Nat) (f : AuditBuf → AuditBuf) : (s.modAudit b f).ports = s.ports := rfl
@[simp] theorem State.modAudit_filters (s : State) (b : Nat) (f : AuditBuf → AuditBuf) : (s.modAudit b f).filters = s.filters := rfl
@[simp] theorem State.modAudit_reds (s : State) (b : Nat) (f : AuditBuf → AuditBuf) : (s.modAudit b f).reds = s.reds := rfl
@[simp] theorem State.modAudit_fwds (s : State) (b : Nat) (f : AuditBuf → AuditBuf) : (s.modAudit b f).fwds = s.fwds := rfl
@[simp] theorem State.modAudit_counts (s : State) (b : Nat) (f : AuditBuf → AuditBuf) : (s.modAudit b f).counts = s.counts := rfl
@[simp] theorem State.modAudit_queued (s : State) (b : Nat) (f : AuditBuf → AuditBuf) : (s.modAudit b f).queued = s.queued := rfl
@[simp] theorem State.modAudit_notes (s : State) (b : Nat) (f : AuditBuf → AuditBuf) : (s.modAudit b f).notes = s.notes := rfl
@[simp] theorem State.modAudit_seenLost (s : State) (b : Nat) (f : AuditBuf → AuditBuf) : (s.modAudit b f).seenLost = s.seenLost := rfl
@[simp] theorem State.modAudit_ucie (s : State) (b : Nat) (f : AuditBuf → AuditBuf) : (s.modAudit b f).ucie = s.ucie := rfl
@[simp] theorem State.modAudit_wires (s : State) (b : Nat) (f : AuditBuf → AuditBuf) : (s.modAudit b f).wires = s.wires := rfl
@[simp] theorem State.modAudit_stations (s : State) (b : Nat) (f : AuditBuf → AuditBuf) : (s.modAudit b f).stations = s.stations := rfl
@[simp] theorem State.modAudit_chans (s : State) (b : Nat) (f : AuditBuf → AuditBuf) : (s.modAudit b f).chans = s.chans := rfl
@[simp] theorem State.modAudit_queues (s : State) (b : Nat) (f : AuditBuf → AuditBuf) : (s.modAudit b f).queues = s.queues := rfl
@[simp] theorem State.modAudit_pairs (s : State) (b : Nat) (f : AuditBuf → AuditBuf) : (s.modAudit b f).pairs = s.pairs := rfl
@[simp] theorem State.modAudit_lastInst (s : State) (b : Nat) (f : AuditBuf → AuditBuf) : (s.modAudit b f).lastInst = s.lastInst := rfl
@[simp] theorem State.modAudit_evalSeats (s : State) (b : Nat) (f : AuditBuf → AuditBuf) : (s.modAudit b f).evalSeats = s.evalSeats := rfl
@[simp] theorem State.modAudit_held (s : State) (b : Nat) (f : AuditBuf → AuditBuf) : (s.modAudit b f).held = s.held := rfl
@[simp] theorem State.modAudit_seqs (s : State) (b : Nat) (f : AuditBuf → AuditBuf) : (s.modAudit b f).seqs = s.seqs := rfl
@[simp] theorem State.modAudit_buses (s : State) (b : Nat) (f : AuditBuf → AuditBuf) : (s.modAudit b f).buses = s.buses := rfl
@[simp] theorem State.modAudit_audits (s : State) (b : Nat) (f : AuditBuf → AuditBuf) : (s.modAudit b f).audits = s.audits.map fun e => if e.1 == b then (e.1, f e.2) else e := rfl
@[simp] theorem State.modAudit_duties (s : State) (b : Nat) (f : AuditBuf → AuditBuf) : (s.modAudit b f).duties = s.duties := rfl
@[simp] theorem State.modAudit_dutyNum (s : State) (b : Nat) (f : AuditBuf → AuditBuf) : (s.modAudit b f).dutyNum = s.dutyNum := rfl
@[simp] theorem State.modAudit_regs (s : State) (b : Nat) (f : AuditBuf → AuditBuf) : (s.modAudit b f).regs = s.regs := rfl
@[simp] theorem State.modAudit_throttled (s : State) (b : Nat) (f : AuditBuf → AuditBuf) : (s.modAudit b f).throttled = s.throttled := rfl
@[simp] theorem State.modAudit_tripped (s : State) (b : Nat) (f : AuditBuf → AuditBuf) : (s.modAudit b f).tripped = s.tripped := rfl
@[simp] theorem State.modAudit_halted (s : State) (b : Nat) (f : AuditBuf → AuditBuf) : (s.modAudit b f).halted = s.halted := rfl
-- State.post
@[simp] theorem State.post_cycle (s : State) (d : Nat) (ev : Instr) (arg : EvArg) : (s.post d ev arg).cycle = s.cycle := rfl
@[simp] theorem State.post_tick (s : State) (d : Nat) (ev : Instr) (arg : EvArg) : (s.post d ev arg).tick = s.tick := rfl
@[simp] theorem State.post_free (s : State) (d : Nat) (ev : Instr) (arg : EvArg) : (s.post d ev arg).free = s.free := rfl
@[simp] theorem State.post_focus (s : State) (d : Nat) (ev : Instr) (arg : EvArg) : (s.post d ev arg).focus = s.focus := rfl
@[simp] theorem State.post_stalled (s : State) (d : Nat) (ev : Instr) (arg : EvArg) : (s.post d ev arg).stalled = s.stalled := rfl
@[simp] theorem State.post_nextId (s : State) (d : Nat) (ev : Instr) (arg : EvArg) : (s.post d ev arg).nextId = s.nextId := rfl
@[simp] theorem State.post_agenda (s : State) (d : Nat) (ev : Instr) (arg : EvArg) : (s.post d ev arg).agenda = s.agenda ++ [⟨s.cycle + d, ⟨ev, arg⟩⟩] := rfl
@[simp] theorem State.post_inputs (s : State) (d : Nat) (ev : Instr) (arg : EvArg) : (s.post d ev arg).inputs = s.inputs := rfl
@[simp] theorem State.post_strikes (s : State) (d : Nat) (ev : Instr) (arg : EvArg) : (s.post d ev arg).strikes = s.strikes := rfl
@[simp] theorem State.post_arg (s : State) (d : Nat) (ev : Instr) (arg : EvArg) : (s.post d ev arg).arg = s.arg := rfl
@[simp] theorem State.post_mem (s : State) (d : Nat) (ev : Instr) (arg : EvArg) : (s.post d ev arg).mem = s.mem := rfl
@[simp] theorem State.post_gpois (s : State) (d : Nat) (ev : Instr) (arg : EvArg) : (s.post d ev arg).gpois = s.gpois := rfl
@[simp] theorem State.post_corrected (s : State) (d : Nat) (ev : Instr) (arg : EvArg) : (s.post d ev arg).corrected = s.corrected := rfl
@[simp] theorem State.post_decoders (s : State) (d : Nat) (ev : Instr) (arg : EvArg) : (s.post d ev arg).decoders = s.decoders := rfl
@[simp] theorem State.post_spois (s : State) (d : Nat) (ev : Instr) (arg : EvArg) : (s.post d ev arg).spois = s.spois := rfl
@[simp] theorem State.post_actors (s : State) (d : Nat) (ev : Instr) (arg : EvArg) : (s.post d ev arg).actors = s.actors := rfl
@[simp] theorem State.post_cells (s : State) (d : Nat) (ev : Instr) (arg : EvArg) : (s.post d ev arg).cells = s.cells := rfl
@[simp] theorem State.post_files (s : State) (d : Nat) (ev : Instr) (arg : EvArg) : (s.post d ev arg).files = s.files := rfl
@[simp] theorem State.post_nextFile (s : State) (d : Nat) (ev : Instr) (arg : EvArg) : (s.post d ev arg).nextFile = s.nextFile := rfl
@[simp] theorem State.post_jobs (s : State) (d : Nat) (ev : Instr) (arg : EvArg) : (s.post d ev arg).jobs = s.jobs := rfl
@[simp] theorem State.post_serials (s : State) (d : Nat) (ev : Instr) (arg : EvArg) : (s.post d ev arg).serials = s.serials := rfl
@[simp] theorem State.post_cohorts (s : State) (d : Nat) (ev : Instr) (arg : EvArg) : (s.post d ev arg).cohorts = s.cohorts := rfl
@[simp] theorem State.post_trees (s : State) (d : Nat) (ev : Instr) (arg : EvArg) : (s.post d ev arg).trees = s.trees := rfl
@[simp] theorem State.post_sups (s : State) (d : Nat) (ev : Instr) (arg : EvArg) : (s.post d ev arg).sups = s.sups := rfl
@[simp] theorem State.post_backs (s : State) (d : Nat) (ev : Instr) (arg : EvArg) : (s.post d ev arg).backs = s.backs := rfl
@[simp] theorem State.post_ballocs (s : State) (d : Nat) (ev : Instr) (arg : EvArg) : (s.post d ev arg).ballocs = s.ballocs := rfl
@[simp] theorem State.post_lone (s : State) (d : Nat) (ev : Instr) (arg : EvArg) : (s.post d ev arg).lone = s.lone := rfl
@[simp] theorem State.post_ports (s : State) (d : Nat) (ev : Instr) (arg : EvArg) : (s.post d ev arg).ports = s.ports := rfl
@[simp] theorem State.post_filters (s : State) (d : Nat) (ev : Instr) (arg : EvArg) : (s.post d ev arg).filters = s.filters := rfl
@[simp] theorem State.post_reds (s : State) (d : Nat) (ev : Instr) (arg : EvArg) : (s.post d ev arg).reds = s.reds := rfl
@[simp] theorem State.post_fwds (s : State) (d : Nat) (ev : Instr) (arg : EvArg) : (s.post d ev arg).fwds = s.fwds := rfl
@[simp] theorem State.post_counts (s : State) (d : Nat) (ev : Instr) (arg : EvArg) : (s.post d ev arg).counts = s.counts := rfl
@[simp] theorem State.post_queued (s : State) (d : Nat) (ev : Instr) (arg : EvArg) : (s.post d ev arg).queued = s.queued := rfl
@[simp] theorem State.post_notes (s : State) (d : Nat) (ev : Instr) (arg : EvArg) : (s.post d ev arg).notes = s.notes := rfl
@[simp] theorem State.post_seenLost (s : State) (d : Nat) (ev : Instr) (arg : EvArg) : (s.post d ev arg).seenLost = s.seenLost := rfl
@[simp] theorem State.post_ucie (s : State) (d : Nat) (ev : Instr) (arg : EvArg) : (s.post d ev arg).ucie = s.ucie := rfl
@[simp] theorem State.post_wires (s : State) (d : Nat) (ev : Instr) (arg : EvArg) : (s.post d ev arg).wires = s.wires := rfl
@[simp] theorem State.post_stations (s : State) (d : Nat) (ev : Instr) (arg : EvArg) : (s.post d ev arg).stations = s.stations := rfl
@[simp] theorem State.post_chans (s : State) (d : Nat) (ev : Instr) (arg : EvArg) : (s.post d ev arg).chans = s.chans := rfl
@[simp] theorem State.post_queues (s : State) (d : Nat) (ev : Instr) (arg : EvArg) : (s.post d ev arg).queues = s.queues := rfl
@[simp] theorem State.post_pairs (s : State) (d : Nat) (ev : Instr) (arg : EvArg) : (s.post d ev arg).pairs = s.pairs := rfl
@[simp] theorem State.post_lastInst (s : State) (d : Nat) (ev : Instr) (arg : EvArg) : (s.post d ev arg).lastInst = s.lastInst := rfl
@[simp] theorem State.post_evalSeats (s : State) (d : Nat) (ev : Instr) (arg : EvArg) : (s.post d ev arg).evalSeats = s.evalSeats := rfl
@[simp] theorem State.post_held (s : State) (d : Nat) (ev : Instr) (arg : EvArg) : (s.post d ev arg).held = s.held := rfl
@[simp] theorem State.post_seqs (s : State) (d : Nat) (ev : Instr) (arg : EvArg) : (s.post d ev arg).seqs = s.seqs := rfl
@[simp] theorem State.post_buses (s : State) (d : Nat) (ev : Instr) (arg : EvArg) : (s.post d ev arg).buses = s.buses := rfl
@[simp] theorem State.post_audits (s : State) (d : Nat) (ev : Instr) (arg : EvArg) : (s.post d ev arg).audits = s.audits := rfl
@[simp] theorem State.post_duties (s : State) (d : Nat) (ev : Instr) (arg : EvArg) : (s.post d ev arg).duties = s.duties := rfl
@[simp] theorem State.post_dutyNum (s : State) (d : Nat) (ev : Instr) (arg : EvArg) : (s.post d ev arg).dutyNum = s.dutyNum := rfl
@[simp] theorem State.post_regs (s : State) (d : Nat) (ev : Instr) (arg : EvArg) : (s.post d ev arg).regs = s.regs := rfl
@[simp] theorem State.post_throttled (s : State) (d : Nat) (ev : Instr) (arg : EvArg) : (s.post d ev arg).throttled = s.throttled := rfl
@[simp] theorem State.post_tripped (s : State) (d : Nat) (ev : Instr) (arg : EvArg) : (s.post d ev arg).tripped = s.tripped := rfl
@[simp] theorem State.post_halted (s : State) (d : Nat) (ev : Instr) (arg : EvArg) : (s.post d ev arg).halted = s.halted := rfl
-- State.freshId
@[simp] theorem State.freshId_cycle (s : State) : (s.freshId).cycle = s.cycle := rfl
@[simp] theorem State.freshId_tick (s : State) : (s.freshId).tick = s.tick := rfl
@[simp] theorem State.freshId_free (s : State) : (s.freshId).free = s.free := rfl
@[simp] theorem State.freshId_focus (s : State) : (s.freshId).focus = s.focus := rfl
@[simp] theorem State.freshId_stalled (s : State) : (s.freshId).stalled = s.stalled := rfl
@[simp] theorem State.freshId_nextId (s : State) : (s.freshId).nextId = s.nextId + 1 := rfl
@[simp] theorem State.freshId_agenda (s : State) : (s.freshId).agenda = s.agenda := rfl
@[simp] theorem State.freshId_inputs (s : State) : (s.freshId).inputs = s.inputs := rfl
@[simp] theorem State.freshId_strikes (s : State) : (s.freshId).strikes = s.strikes := rfl
@[simp] theorem State.freshId_arg (s : State) : (s.freshId).arg = s.arg := rfl
@[simp] theorem State.freshId_mem (s : State) : (s.freshId).mem = s.mem := rfl
@[simp] theorem State.freshId_gpois (s : State) : (s.freshId).gpois = s.gpois := rfl
@[simp] theorem State.freshId_corrected (s : State) : (s.freshId).corrected = s.corrected := rfl
@[simp] theorem State.freshId_decoders (s : State) : (s.freshId).decoders = s.decoders := rfl
@[simp] theorem State.freshId_spois (s : State) : (s.freshId).spois = s.spois := rfl
@[simp] theorem State.freshId_actors (s : State) : (s.freshId).actors = s.actors := rfl
@[simp] theorem State.freshId_cells (s : State) : (s.freshId).cells = s.cells := rfl
@[simp] theorem State.freshId_files (s : State) : (s.freshId).files = s.files := rfl
@[simp] theorem State.freshId_nextFile (s : State) : (s.freshId).nextFile = s.nextFile := rfl
@[simp] theorem State.freshId_jobs (s : State) : (s.freshId).jobs = s.jobs := rfl
@[simp] theorem State.freshId_serials (s : State) : (s.freshId).serials = s.serials := rfl
@[simp] theorem State.freshId_cohorts (s : State) : (s.freshId).cohorts = s.cohorts := rfl
@[simp] theorem State.freshId_trees (s : State) : (s.freshId).trees = s.trees := rfl
@[simp] theorem State.freshId_sups (s : State) : (s.freshId).sups = s.sups := rfl
@[simp] theorem State.freshId_backs (s : State) : (s.freshId).backs = s.backs := rfl
@[simp] theorem State.freshId_ballocs (s : State) : (s.freshId).ballocs = s.ballocs := rfl
@[simp] theorem State.freshId_lone (s : State) : (s.freshId).lone = s.lone := rfl
@[simp] theorem State.freshId_ports (s : State) : (s.freshId).ports = s.ports := rfl
@[simp] theorem State.freshId_filters (s : State) : (s.freshId).filters = s.filters := rfl
@[simp] theorem State.freshId_reds (s : State) : (s.freshId).reds = s.reds := rfl
@[simp] theorem State.freshId_fwds (s : State) : (s.freshId).fwds = s.fwds := rfl
@[simp] theorem State.freshId_counts (s : State) : (s.freshId).counts = s.counts := rfl
@[simp] theorem State.freshId_queued (s : State) : (s.freshId).queued = s.queued := rfl
@[simp] theorem State.freshId_notes (s : State) : (s.freshId).notes = s.notes := rfl
@[simp] theorem State.freshId_seenLost (s : State) : (s.freshId).seenLost = s.seenLost := rfl
@[simp] theorem State.freshId_ucie (s : State) : (s.freshId).ucie = s.ucie := rfl
@[simp] theorem State.freshId_wires (s : State) : (s.freshId).wires = s.wires := rfl
@[simp] theorem State.freshId_stations (s : State) : (s.freshId).stations = s.stations := rfl
@[simp] theorem State.freshId_chans (s : State) : (s.freshId).chans = s.chans := rfl
@[simp] theorem State.freshId_queues (s : State) : (s.freshId).queues = s.queues := rfl
@[simp] theorem State.freshId_pairs (s : State) : (s.freshId).pairs = s.pairs := rfl
@[simp] theorem State.freshId_lastInst (s : State) : (s.freshId).lastInst = s.lastInst := rfl
@[simp] theorem State.freshId_evalSeats (s : State) : (s.freshId).evalSeats = s.evalSeats := rfl
@[simp] theorem State.freshId_held (s : State) : (s.freshId).held = s.held := rfl
@[simp] theorem State.freshId_seqs (s : State) : (s.freshId).seqs = s.seqs := rfl
@[simp] theorem State.freshId_buses (s : State) : (s.freshId).buses = s.buses := rfl
@[simp] theorem State.freshId_audits (s : State) : (s.freshId).audits = s.audits := rfl
@[simp] theorem State.freshId_duties (s : State) : (s.freshId).duties = s.duties := rfl
@[simp] theorem State.freshId_dutyNum (s : State) : (s.freshId).dutyNum = s.dutyNum := rfl
@[simp] theorem State.freshId_regs (s : State) : (s.freshId).regs = s.regs := rfl
@[simp] theorem State.freshId_throttled (s : State) : (s.freshId).throttled = s.throttled := rfl
@[simp] theorem State.freshId_tripped (s : State) : (s.freshId).tripped = s.tripped := rfl
@[simp] theorem State.freshId_halted (s : State) : (s.freshId).halted = s.halted := rfl
-- State.freshVal
@[simp] theorem State.freshVal_cycle (s : State) : (s.freshVal).cycle = s.cycle := rfl
@[simp] theorem State.freshVal_tick (s : State) : (s.freshVal).tick = s.tick := rfl
@[simp] theorem State.freshVal_free (s : State) : (s.freshVal).free = s.free + 1 := rfl
@[simp] theorem State.freshVal_focus (s : State) : (s.freshVal).focus = s.focus := rfl
@[simp] theorem State.freshVal_stalled (s : State) : (s.freshVal).stalled = s.stalled := rfl
@[simp] theorem State.freshVal_nextId (s : State) : (s.freshVal).nextId = s.nextId := rfl
@[simp] theorem State.freshVal_agenda (s : State) : (s.freshVal).agenda = s.agenda := rfl
@[simp] theorem State.freshVal_inputs (s : State) : (s.freshVal).inputs = s.inputs := rfl
@[simp] theorem State.freshVal_strikes (s : State) : (s.freshVal).strikes = s.strikes := rfl
@[simp] theorem State.freshVal_arg (s : State) : (s.freshVal).arg = s.arg := rfl
@[simp] theorem State.freshVal_mem (s : State) : (s.freshVal).mem = s.mem := rfl
@[simp] theorem State.freshVal_gpois (s : State) : (s.freshVal).gpois = s.gpois := rfl
@[simp] theorem State.freshVal_corrected (s : State) : (s.freshVal).corrected = s.corrected := rfl
@[simp] theorem State.freshVal_decoders (s : State) : (s.freshVal).decoders = s.decoders := rfl
@[simp] theorem State.freshVal_spois (s : State) : (s.freshVal).spois = s.spois := rfl
@[simp] theorem State.freshVal_actors (s : State) : (s.freshVal).actors = s.actors := rfl
@[simp] theorem State.freshVal_cells (s : State) : (s.freshVal).cells = s.cells := rfl
@[simp] theorem State.freshVal_files (s : State) : (s.freshVal).files = s.files := rfl
@[simp] theorem State.freshVal_nextFile (s : State) : (s.freshVal).nextFile = s.nextFile := rfl
@[simp] theorem State.freshVal_jobs (s : State) : (s.freshVal).jobs = s.jobs := rfl
@[simp] theorem State.freshVal_serials (s : State) : (s.freshVal).serials = s.serials := rfl
@[simp] theorem State.freshVal_cohorts (s : State) : (s.freshVal).cohorts = s.cohorts := rfl
@[simp] theorem State.freshVal_trees (s : State) : (s.freshVal).trees = s.trees := rfl
@[simp] theorem State.freshVal_sups (s : State) : (s.freshVal).sups = s.sups := rfl
@[simp] theorem State.freshVal_backs (s : State) : (s.freshVal).backs = s.backs := rfl
@[simp] theorem State.freshVal_ballocs (s : State) : (s.freshVal).ballocs = s.ballocs := rfl
@[simp] theorem State.freshVal_lone (s : State) : (s.freshVal).lone = s.lone := rfl
@[simp] theorem State.freshVal_ports (s : State) : (s.freshVal).ports = s.ports := rfl
@[simp] theorem State.freshVal_filters (s : State) : (s.freshVal).filters = s.filters := rfl
@[simp] theorem State.freshVal_reds (s : State) : (s.freshVal).reds = s.reds := rfl
@[simp] theorem State.freshVal_fwds (s : State) : (s.freshVal).fwds = s.fwds := rfl
@[simp] theorem State.freshVal_counts (s : State) : (s.freshVal).counts = s.counts := rfl
@[simp] theorem State.freshVal_queued (s : State) : (s.freshVal).queued = s.queued := rfl
@[simp] theorem State.freshVal_notes (s : State) : (s.freshVal).notes = s.notes := rfl
@[simp] theorem State.freshVal_seenLost (s : State) : (s.freshVal).seenLost = s.seenLost := rfl
@[simp] theorem State.freshVal_ucie (s : State) : (s.freshVal).ucie = s.ucie := rfl
@[simp] theorem State.freshVal_wires (s : State) : (s.freshVal).wires = s.wires := rfl
@[simp] theorem State.freshVal_stations (s : State) : (s.freshVal).stations = s.stations := rfl
@[simp] theorem State.freshVal_chans (s : State) : (s.freshVal).chans = s.chans := rfl
@[simp] theorem State.freshVal_queues (s : State) : (s.freshVal).queues = s.queues := rfl
@[simp] theorem State.freshVal_pairs (s : State) : (s.freshVal).pairs = s.pairs := rfl
@[simp] theorem State.freshVal_lastInst (s : State) : (s.freshVal).lastInst = s.lastInst := rfl
@[simp] theorem State.freshVal_evalSeats (s : State) : (s.freshVal).evalSeats = s.evalSeats := rfl
@[simp] theorem State.freshVal_held (s : State) : (s.freshVal).held = s.held := rfl
@[simp] theorem State.freshVal_seqs (s : State) : (s.freshVal).seqs = s.seqs := rfl
@[simp] theorem State.freshVal_buses (s : State) : (s.freshVal).buses = s.buses := rfl
@[simp] theorem State.freshVal_audits (s : State) : (s.freshVal).audits = s.audits := rfl
@[simp] theorem State.freshVal_duties (s : State) : (s.freshVal).duties = s.duties := rfl
@[simp] theorem State.freshVal_dutyNum (s : State) : (s.freshVal).dutyNum = s.dutyNum := rfl
@[simp] theorem State.freshVal_regs (s : State) : (s.freshVal).regs = s.regs := rfl
@[simp] theorem State.freshVal_throttled (s : State) : (s.freshVal).throttled = s.throttled := rfl
@[simp] theorem State.freshVal_tripped (s : State) : (s.freshVal).tripped = s.tripped := rfl
@[simp] theorem State.freshVal_halted (s : State) : (s.freshVal).halted = s.halted := rfl
-- State.retire
@[simp] theorem State.retire_cycle (s : State) (n : Nat) : (s.retire n).cycle = s.cycle := rfl
@[simp] theorem State.retire_tick (s : State) (n : Nat) : (s.retire n).tick = s.tick := rfl
@[simp] theorem State.retire_free (s : State) (n : Nat) : (s.retire n).free = s.free := rfl
@[simp] theorem State.retire_focus (s : State) (n : Nat) : (s.retire n).focus = s.focus := rfl
@[simp] theorem State.retire_stalled (s : State) (n : Nat) : (s.retire n).stalled = s.stalled := rfl
@[simp] theorem State.retire_nextId (s : State) (n : Nat) : (s.retire n).nextId = s.nextId := rfl
@[simp] theorem State.retire_agenda (s : State) (n : Nat) : (s.retire n).agenda = s.agenda := rfl
@[simp] theorem State.retire_inputs (s : State) (n : Nat) : (s.retire n).inputs = s.inputs := rfl
@[simp] theorem State.retire_strikes (s : State) (n : Nat) : (s.retire n).strikes = s.strikes := rfl
@[simp] theorem State.retire_arg (s : State) (n : Nat) : (s.retire n).arg = s.arg := rfl
@[simp] theorem State.retire_mem (s : State) (n : Nat) : (s.retire n).mem = s.mem := rfl
@[simp] theorem State.retire_gpois (s : State) (n : Nat) : (s.retire n).gpois = s.gpois := rfl
@[simp] theorem State.retire_corrected (s : State) (n : Nat) : (s.retire n).corrected = s.corrected := rfl
@[simp] theorem State.retire_decoders (s : State) (n : Nat) : (s.retire n).decoders = s.decoders := rfl
@[simp] theorem State.retire_spois (s : State) (n : Nat) : (s.retire n).spois = s.spois := rfl
@[simp] theorem State.retire_actors (s : State) (n : Nat) : (s.retire n).actors = kvSet s.actors s.focus.toNat { s.cur.retire n with name := s.focus } := rfl
@[simp] theorem State.retire_cells (s : State) (n : Nat) : (s.retire n).cells = s.cells := rfl
@[simp] theorem State.retire_files (s : State) (n : Nat) : (s.retire n).files = s.files := rfl
@[simp] theorem State.retire_nextFile (s : State) (n : Nat) : (s.retire n).nextFile = s.nextFile := rfl
@[simp] theorem State.retire_jobs (s : State) (n : Nat) : (s.retire n).jobs = s.jobs := rfl
@[simp] theorem State.retire_serials (s : State) (n : Nat) : (s.retire n).serials = s.serials := rfl
@[simp] theorem State.retire_cohorts (s : State) (n : Nat) : (s.retire n).cohorts = s.cohorts := rfl
@[simp] theorem State.retire_trees (s : State) (n : Nat) : (s.retire n).trees = s.trees := rfl
@[simp] theorem State.retire_sups (s : State) (n : Nat) : (s.retire n).sups = s.sups := rfl
@[simp] theorem State.retire_backs (s : State) (n : Nat) : (s.retire n).backs = s.backs := rfl
@[simp] theorem State.retire_ballocs (s : State) (n : Nat) : (s.retire n).ballocs = s.ballocs := rfl
@[simp] theorem State.retire_lone (s : State) (n : Nat) : (s.retire n).lone = s.lone := rfl
@[simp] theorem State.retire_ports (s : State) (n : Nat) : (s.retire n).ports = s.ports := rfl
@[simp] theorem State.retire_filters (s : State) (n : Nat) : (s.retire n).filters = s.filters := rfl
@[simp] theorem State.retire_reds (s : State) (n : Nat) : (s.retire n).reds = s.reds := rfl
@[simp] theorem State.retire_fwds (s : State) (n : Nat) : (s.retire n).fwds = s.fwds := rfl
@[simp] theorem State.retire_counts (s : State) (n : Nat) : (s.retire n).counts = s.counts := rfl
@[simp] theorem State.retire_queued (s : State) (n : Nat) : (s.retire n).queued = s.queued := rfl
@[simp] theorem State.retire_notes (s : State) (n : Nat) : (s.retire n).notes = s.notes := rfl
@[simp] theorem State.retire_seenLost (s : State) (n : Nat) : (s.retire n).seenLost = s.seenLost := rfl
@[simp] theorem State.retire_ucie (s : State) (n : Nat) : (s.retire n).ucie = s.ucie := rfl
@[simp] theorem State.retire_wires (s : State) (n : Nat) : (s.retire n).wires = s.wires := rfl
@[simp] theorem State.retire_stations (s : State) (n : Nat) : (s.retire n).stations = s.stations := rfl
@[simp] theorem State.retire_chans (s : State) (n : Nat) : (s.retire n).chans = s.chans := rfl
@[simp] theorem State.retire_queues (s : State) (n : Nat) : (s.retire n).queues = s.queues := rfl
@[simp] theorem State.retire_pairs (s : State) (n : Nat) : (s.retire n).pairs = s.pairs := rfl
@[simp] theorem State.retire_lastInst (s : State) (n : Nat) : (s.retire n).lastInst = s.lastInst := rfl
@[simp] theorem State.retire_evalSeats (s : State) (n : Nat) : (s.retire n).evalSeats = s.evalSeats := rfl
@[simp] theorem State.retire_held (s : State) (n : Nat) : (s.retire n).held = s.held := rfl
@[simp] theorem State.retire_seqs (s : State) (n : Nat) : (s.retire n).seqs = s.seqs := rfl
@[simp] theorem State.retire_buses (s : State) (n : Nat) : (s.retire n).buses = s.buses := rfl
@[simp] theorem State.retire_audits (s : State) (n : Nat) : (s.retire n).audits = s.audits := rfl
@[simp] theorem State.retire_duties (s : State) (n : Nat) : (s.retire n).duties = s.duties := rfl
@[simp] theorem State.retire_dutyNum (s : State) (n : Nat) : (s.retire n).dutyNum = s.dutyNum := rfl
@[simp] theorem State.retire_regs (s : State) (n : Nat) : (s.retire n).regs = s.regs := rfl
@[simp] theorem State.retire_throttled (s : State) (n : Nat) : (s.retire n).throttled = s.throttled := rfl
@[simp] theorem State.retire_tripped (s : State) (n : Nat) : (s.retire n).tripped = s.tripped := rfl
@[simp] theorem State.retire_halted (s : State) (n : Nat) : (s.retire n).halted = s.halted := rfl
-- State.push
@[simp] theorem State.push_cycle (s : State) (v : W64) (p : Bool) : (s.push v p).cycle = s.cycle := rfl
@[simp] theorem State.push_tick (s : State) (v : W64) (p : Bool) : (s.push v p).tick = s.tick := rfl
@[simp] theorem State.push_free (s : State) (v : W64) (p : Bool) : (s.push v p).free = s.free := rfl
@[simp] theorem State.push_focus (s : State) (v : W64) (p : Bool) : (s.push v p).focus = s.focus := rfl
@[simp] theorem State.push_stalled (s : State) (v : W64) (p : Bool) : (s.push v p).stalled = s.stalled := rfl
@[simp] theorem State.push_nextId (s : State) (v : W64) (p : Bool) : (s.push v p).nextId = s.nextId := rfl
@[simp] theorem State.push_agenda (s : State) (v : W64) (p : Bool) : (s.push v p).agenda = s.agenda := rfl
@[simp] theorem State.push_inputs (s : State) (v : W64) (p : Bool) : (s.push v p).inputs = s.inputs := rfl
@[simp] theorem State.push_strikes (s : State) (v : W64) (p : Bool) : (s.push v p).strikes = s.strikes := rfl
@[simp] theorem State.push_arg (s : State) (v : W64) (p : Bool) : (s.push v p).arg = s.arg := rfl
@[simp] theorem State.push_mem (s : State) (v : W64) (p : Bool) : (s.push v p).mem = s.mem := rfl
@[simp] theorem State.push_gpois (s : State) (v : W64) (p : Bool) : (s.push v p).gpois = s.gpois := rfl
@[simp] theorem State.push_corrected (s : State) (v : W64) (p : Bool) : (s.push v p).corrected = s.corrected := rfl
@[simp] theorem State.push_decoders (s : State) (v : W64) (p : Bool) : (s.push v p).decoders = s.decoders := rfl
@[simp] theorem State.push_spois (s : State) (v : W64) (p : Bool) : (s.push v p).spois = s.spois := rfl
@[simp] theorem State.push_actors (s : State) (v : W64) (p : Bool) : (s.push v p).actors = kvSet s.actors s.focus.toNat { s.cur.pushVal v p with name := s.focus } := rfl
@[simp] theorem State.push_cells (s : State) (v : W64) (p : Bool) : (s.push v p).cells = s.cells := rfl
@[simp] theorem State.push_files (s : State) (v : W64) (p : Bool) : (s.push v p).files = s.files := rfl
@[simp] theorem State.push_nextFile (s : State) (v : W64) (p : Bool) : (s.push v p).nextFile = s.nextFile := rfl
@[simp] theorem State.push_jobs (s : State) (v : W64) (p : Bool) : (s.push v p).jobs = s.jobs := rfl
@[simp] theorem State.push_serials (s : State) (v : W64) (p : Bool) : (s.push v p).serials = s.serials := rfl
@[simp] theorem State.push_cohorts (s : State) (v : W64) (p : Bool) : (s.push v p).cohorts = s.cohorts := rfl
@[simp] theorem State.push_trees (s : State) (v : W64) (p : Bool) : (s.push v p).trees = s.trees := rfl
@[simp] theorem State.push_sups (s : State) (v : W64) (p : Bool) : (s.push v p).sups = s.sups := rfl
@[simp] theorem State.push_backs (s : State) (v : W64) (p : Bool) : (s.push v p).backs = s.backs := rfl
@[simp] theorem State.push_ballocs (s : State) (v : W64) (p : Bool) : (s.push v p).ballocs = s.ballocs := rfl
@[simp] theorem State.push_lone (s : State) (v : W64) (p : Bool) : (s.push v p).lone = s.lone := rfl
@[simp] theorem State.push_ports (s : State) (v : W64) (p : Bool) : (s.push v p).ports = s.ports := rfl
@[simp] theorem State.push_filters (s : State) (v : W64) (p : Bool) : (s.push v p).filters = s.filters := rfl
@[simp] theorem State.push_reds (s : State) (v : W64) (p : Bool) : (s.push v p).reds = s.reds := rfl
@[simp] theorem State.push_fwds (s : State) (v : W64) (p : Bool) : (s.push v p).fwds = s.fwds := rfl
@[simp] theorem State.push_counts (s : State) (v : W64) (p : Bool) : (s.push v p).counts = s.counts := rfl
@[simp] theorem State.push_queued (s : State) (v : W64) (p : Bool) : (s.push v p).queued = s.queued := rfl
@[simp] theorem State.push_notes (s : State) (v : W64) (p : Bool) : (s.push v p).notes = s.notes := rfl
@[simp] theorem State.push_seenLost (s : State) (v : W64) (p : Bool) : (s.push v p).seenLost = s.seenLost := rfl
@[simp] theorem State.push_ucie (s : State) (v : W64) (p : Bool) : (s.push v p).ucie = s.ucie := rfl
@[simp] theorem State.push_wires (s : State) (v : W64) (p : Bool) : (s.push v p).wires = s.wires := rfl
@[simp] theorem State.push_stations (s : State) (v : W64) (p : Bool) : (s.push v p).stations = s.stations := rfl
@[simp] theorem State.push_chans (s : State) (v : W64) (p : Bool) : (s.push v p).chans = s.chans := rfl
@[simp] theorem State.push_queues (s : State) (v : W64) (p : Bool) : (s.push v p).queues = s.queues := rfl
@[simp] theorem State.push_pairs (s : State) (v : W64) (p : Bool) : (s.push v p).pairs = s.pairs := rfl
@[simp] theorem State.push_lastInst (s : State) (v : W64) (p : Bool) : (s.push v p).lastInst = s.lastInst := rfl
@[simp] theorem State.push_evalSeats (s : State) (v : W64) (p : Bool) : (s.push v p).evalSeats = s.evalSeats := rfl
@[simp] theorem State.push_held (s : State) (v : W64) (p : Bool) : (s.push v p).held = s.held := rfl
@[simp] theorem State.push_seqs (s : State) (v : W64) (p : Bool) : (s.push v p).seqs = s.seqs := rfl
@[simp] theorem State.push_buses (s : State) (v : W64) (p : Bool) : (s.push v p).buses = s.buses := rfl
@[simp] theorem State.push_audits (s : State) (v : W64) (p : Bool) : (s.push v p).audits = s.audits := rfl
@[simp] theorem State.push_duties (s : State) (v : W64) (p : Bool) : (s.push v p).duties = s.duties := rfl
@[simp] theorem State.push_dutyNum (s : State) (v : W64) (p : Bool) : (s.push v p).dutyNum = s.dutyNum := rfl
@[simp] theorem State.push_regs (s : State) (v : W64) (p : Bool) : (s.push v p).regs = s.regs := rfl
@[simp] theorem State.push_throttled (s : State) (v : W64) (p : Bool) : (s.push v p).throttled = s.throttled := rfl
@[simp] theorem State.push_tripped (s : State) (v : W64) (p : Bool) : (s.push v p).tripped = s.tripped := rfl
@[simp] theorem State.push_halted (s : State) (v : W64) (p : Bool) : (s.push v p).halted = s.halted := rfl
-- State.result
@[simp] theorem State.result_cycle (s : State) (n : Nat) (v : W64) (p : Bool) : (s.result n v p).cycle = s.cycle := rfl
@[simp] theorem State.result_tick (s : State) (n : Nat) (v : W64) (p : Bool) : (s.result n v p).tick = s.tick := rfl
@[simp] theorem State.result_free (s : State) (n : Nat) (v : W64) (p : Bool) : (s.result n v p).free = s.free := rfl
@[simp] theorem State.result_focus (s : State) (n : Nat) (v : W64) (p : Bool) : (s.result n v p).focus = s.focus := rfl
@[simp] theorem State.result_stalled (s : State) (n : Nat) (v : W64) (p : Bool) : (s.result n v p).stalled = s.stalled := rfl
@[simp] theorem State.result_nextId (s : State) (n : Nat) (v : W64) (p : Bool) : (s.result n v p).nextId = s.nextId := rfl
@[simp] theorem State.result_agenda (s : State) (n : Nat) (v : W64) (p : Bool) : (s.result n v p).agenda = s.agenda := rfl
@[simp] theorem State.result_inputs (s : State) (n : Nat) (v : W64) (p : Bool) : (s.result n v p).inputs = s.inputs := rfl
@[simp] theorem State.result_strikes (s : State) (n : Nat) (v : W64) (p : Bool) : (s.result n v p).strikes = s.strikes := rfl
@[simp] theorem State.result_arg (s : State) (n : Nat) (v : W64) (p : Bool) : (s.result n v p).arg = s.arg := rfl
@[simp] theorem State.result_mem (s : State) (n : Nat) (v : W64) (p : Bool) : (s.result n v p).mem = s.mem := rfl
@[simp] theorem State.result_gpois (s : State) (n : Nat) (v : W64) (p : Bool) : (s.result n v p).gpois = s.gpois := rfl
@[simp] theorem State.result_corrected (s : State) (n : Nat) (v : W64) (p : Bool) : (s.result n v p).corrected = s.corrected := rfl
@[simp] theorem State.result_decoders (s : State) (n : Nat) (v : W64) (p : Bool) : (s.result n v p).decoders = s.decoders := rfl
@[simp] theorem State.result_spois (s : State) (n : Nat) (v : W64) (p : Bool) : (s.result n v p).spois = s.spois := rfl
@[simp] theorem State.result_actors (s : State) (n : Nat) (v : W64) (p : Bool) : (s.result n v p).actors = kvSet s.actors s.focus.toNat { (s.cur.pushVal v p).retire n with name := s.focus } := rfl
@[simp] theorem State.result_cells (s : State) (n : Nat) (v : W64) (p : Bool) : (s.result n v p).cells = s.cells := rfl
@[simp] theorem State.result_files (s : State) (n : Nat) (v : W64) (p : Bool) : (s.result n v p).files = s.files := rfl
@[simp] theorem State.result_nextFile (s : State) (n : Nat) (v : W64) (p : Bool) : (s.result n v p).nextFile = s.nextFile := rfl
@[simp] theorem State.result_jobs (s : State) (n : Nat) (v : W64) (p : Bool) : (s.result n v p).jobs = s.jobs := rfl
@[simp] theorem State.result_serials (s : State) (n : Nat) (v : W64) (p : Bool) : (s.result n v p).serials = s.serials := rfl
@[simp] theorem State.result_cohorts (s : State) (n : Nat) (v : W64) (p : Bool) : (s.result n v p).cohorts = s.cohorts := rfl
@[simp] theorem State.result_trees (s : State) (n : Nat) (v : W64) (p : Bool) : (s.result n v p).trees = s.trees := rfl
@[simp] theorem State.result_sups (s : State) (n : Nat) (v : W64) (p : Bool) : (s.result n v p).sups = s.sups := rfl
@[simp] theorem State.result_backs (s : State) (n : Nat) (v : W64) (p : Bool) : (s.result n v p).backs = s.backs := rfl
@[simp] theorem State.result_ballocs (s : State) (n : Nat) (v : W64) (p : Bool) : (s.result n v p).ballocs = s.ballocs := rfl
@[simp] theorem State.result_lone (s : State) (n : Nat) (v : W64) (p : Bool) : (s.result n v p).lone = s.lone := rfl
@[simp] theorem State.result_ports (s : State) (n : Nat) (v : W64) (p : Bool) : (s.result n v p).ports = s.ports := rfl
@[simp] theorem State.result_filters (s : State) (n : Nat) (v : W64) (p : Bool) : (s.result n v p).filters = s.filters := rfl
@[simp] theorem State.result_reds (s : State) (n : Nat) (v : W64) (p : Bool) : (s.result n v p).reds = s.reds := rfl
@[simp] theorem State.result_fwds (s : State) (n : Nat) (v : W64) (p : Bool) : (s.result n v p).fwds = s.fwds := rfl
@[simp] theorem State.result_counts (s : State) (n : Nat) (v : W64) (p : Bool) : (s.result n v p).counts = s.counts := rfl
@[simp] theorem State.result_queued (s : State) (n : Nat) (v : W64) (p : Bool) : (s.result n v p).queued = s.queued := rfl
@[simp] theorem State.result_notes (s : State) (n : Nat) (v : W64) (p : Bool) : (s.result n v p).notes = s.notes := rfl
@[simp] theorem State.result_seenLost (s : State) (n : Nat) (v : W64) (p : Bool) : (s.result n v p).seenLost = s.seenLost := rfl
@[simp] theorem State.result_ucie (s : State) (n : Nat) (v : W64) (p : Bool) : (s.result n v p).ucie = s.ucie := rfl
@[simp] theorem State.result_wires (s : State) (n : Nat) (v : W64) (p : Bool) : (s.result n v p).wires = s.wires := rfl
@[simp] theorem State.result_stations (s : State) (n : Nat) (v : W64) (p : Bool) : (s.result n v p).stations = s.stations := rfl
@[simp] theorem State.result_chans (s : State) (n : Nat) (v : W64) (p : Bool) : (s.result n v p).chans = s.chans := rfl
@[simp] theorem State.result_queues (s : State) (n : Nat) (v : W64) (p : Bool) : (s.result n v p).queues = s.queues := rfl
@[simp] theorem State.result_pairs (s : State) (n : Nat) (v : W64) (p : Bool) : (s.result n v p).pairs = s.pairs := rfl
@[simp] theorem State.result_lastInst (s : State) (n : Nat) (v : W64) (p : Bool) : (s.result n v p).lastInst = s.lastInst := rfl
@[simp] theorem State.result_evalSeats (s : State) (n : Nat) (v : W64) (p : Bool) : (s.result n v p).evalSeats = s.evalSeats := rfl
@[simp] theorem State.result_held (s : State) (n : Nat) (v : W64) (p : Bool) : (s.result n v p).held = s.held := rfl
@[simp] theorem State.result_seqs (s : State) (n : Nat) (v : W64) (p : Bool) : (s.result n v p).seqs = s.seqs := rfl
@[simp] theorem State.result_buses (s : State) (n : Nat) (v : W64) (p : Bool) : (s.result n v p).buses = s.buses := rfl
@[simp] theorem State.result_audits (s : State) (n : Nat) (v : W64) (p : Bool) : (s.result n v p).audits = s.audits := rfl
@[simp] theorem State.result_duties (s : State) (n : Nat) (v : W64) (p : Bool) : (s.result n v p).duties = s.duties := rfl
@[simp] theorem State.result_dutyNum (s : State) (n : Nat) (v : W64) (p : Bool) : (s.result n v p).dutyNum = s.dutyNum := rfl
@[simp] theorem State.result_regs (s : State) (n : Nat) (v : W64) (p : Bool) : (s.result n v p).regs = s.regs := rfl
@[simp] theorem State.result_throttled (s : State) (n : Nat) (v : W64) (p : Bool) : (s.result n v p).throttled = s.throttled := rfl
@[simp] theorem State.result_tripped (s : State) (n : Nat) (v : W64) (p : Bool) : (s.result n v p).tripped = s.tripped := rfl
@[simp] theorem State.result_halted (s : State) (n : Nat) (v : W64) (p : Bool) : (s.result n v p).halted = s.halted := rfl
-- State.clearRelay
@[simp] theorem State.clearRelay_cycle (s : State) (id : Nat) : (s.clearRelay id).cycle = s.cycle := rfl
@[simp] theorem State.clearRelay_tick (s : State) (id : Nat) : (s.clearRelay id).tick = s.tick := rfl
@[simp] theorem State.clearRelay_free (s : State) (id : Nat) : (s.clearRelay id).free = s.free := rfl
@[simp] theorem State.clearRelay_focus (s : State) (id : Nat) : (s.clearRelay id).focus = s.focus := rfl
@[simp] theorem State.clearRelay_stalled (s : State) (id : Nat) : (s.clearRelay id).stalled = s.stalled := rfl
@[simp] theorem State.clearRelay_nextId (s : State) (id : Nat) : (s.clearRelay id).nextId = s.nextId := rfl
@[simp] theorem State.clearRelay_agenda (s : State) (id : Nat) : (s.clearRelay id).agenda = s.agenda := rfl
@[simp] theorem State.clearRelay_inputs (s : State) (id : Nat) : (s.clearRelay id).inputs = s.inputs := rfl
@[simp] theorem State.clearRelay_strikes (s : State) (id : Nat) : (s.clearRelay id).strikes = s.strikes := rfl
@[simp] theorem State.clearRelay_arg (s : State) (id : Nat) : (s.clearRelay id).arg = s.arg := rfl
@[simp] theorem State.clearRelay_mem (s : State) (id : Nat) : (s.clearRelay id).mem = s.mem := rfl
@[simp] theorem State.clearRelay_gpois (s : State) (id : Nat) : (s.clearRelay id).gpois = s.gpois := rfl
@[simp] theorem State.clearRelay_corrected (s : State) (id : Nat) : (s.clearRelay id).corrected = s.corrected := rfl
@[simp] theorem State.clearRelay_decoders (s : State) (id : Nat) : (s.clearRelay id).decoders = s.decoders := rfl
@[simp] theorem State.clearRelay_spois (s : State) (id : Nat) : (s.clearRelay id).spois = s.spois := rfl
@[simp] theorem State.clearRelay_actors (s : State) (id : Nat) : (s.clearRelay id).actors = s.actors := rfl
@[simp] theorem State.clearRelay_cells (s : State) (id : Nat) : (s.clearRelay id).cells = s.cells.map fun e => (e.1, e.2.clearRelay id) := rfl
@[simp] theorem State.clearRelay_files (s : State) (id : Nat) : (s.clearRelay id).files = s.files := rfl
@[simp] theorem State.clearRelay_nextFile (s : State) (id : Nat) : (s.clearRelay id).nextFile = s.nextFile := rfl
@[simp] theorem State.clearRelay_jobs (s : State) (id : Nat) : (s.clearRelay id).jobs = s.jobs := rfl
@[simp] theorem State.clearRelay_serials (s : State) (id : Nat) : (s.clearRelay id).serials = s.serials := rfl
@[simp] theorem State.clearRelay_cohorts (s : State) (id : Nat) : (s.clearRelay id).cohorts = s.cohorts := rfl
@[simp] theorem State.clearRelay_trees (s : State) (id : Nat) : (s.clearRelay id).trees = s.trees := rfl
@[simp] theorem State.clearRelay_sups (s : State) (id : Nat) : (s.clearRelay id).sups = s.sups := rfl
@[simp] theorem State.clearRelay_backs (s : State) (id : Nat) : (s.clearRelay id).backs = s.backs := rfl
@[simp] theorem State.clearRelay_ballocs (s : State) (id : Nat) : (s.clearRelay id).ballocs = s.ballocs := rfl
@[simp] theorem State.clearRelay_lone (s : State) (id : Nat) : (s.clearRelay id).lone = s.lone := rfl
@[simp] theorem State.clearRelay_ports (s : State) (id : Nat) : (s.clearRelay id).ports = s.ports := rfl
@[simp] theorem State.clearRelay_filters (s : State) (id : Nat) : (s.clearRelay id).filters = s.filters := rfl
@[simp] theorem State.clearRelay_reds (s : State) (id : Nat) : (s.clearRelay id).reds = s.reds := rfl
@[simp] theorem State.clearRelay_fwds (s : State) (id : Nat) : (s.clearRelay id).fwds = s.fwds := rfl
@[simp] theorem State.clearRelay_counts (s : State) (id : Nat) : (s.clearRelay id).counts = s.counts := rfl
@[simp] theorem State.clearRelay_queued (s : State) (id : Nat) : (s.clearRelay id).queued = s.queued := rfl
@[simp] theorem State.clearRelay_notes (s : State) (id : Nat) : (s.clearRelay id).notes = s.notes := rfl
@[simp] theorem State.clearRelay_seenLost (s : State) (id : Nat) : (s.clearRelay id).seenLost = s.seenLost := rfl
@[simp] theorem State.clearRelay_ucie (s : State) (id : Nat) : (s.clearRelay id).ucie = s.ucie := rfl
@[simp] theorem State.clearRelay_wires (s : State) (id : Nat) : (s.clearRelay id).wires = s.wires := rfl
@[simp] theorem State.clearRelay_stations (s : State) (id : Nat) : (s.clearRelay id).stations = s.stations := rfl
@[simp] theorem State.clearRelay_chans (s : State) (id : Nat) : (s.clearRelay id).chans = s.chans := rfl
@[simp] theorem State.clearRelay_queues (s : State) (id : Nat) : (s.clearRelay id).queues = s.queues := rfl
@[simp] theorem State.clearRelay_pairs (s : State) (id : Nat) : (s.clearRelay id).pairs = s.pairs := rfl
@[simp] theorem State.clearRelay_lastInst (s : State) (id : Nat) : (s.clearRelay id).lastInst = s.lastInst := rfl
@[simp] theorem State.clearRelay_evalSeats (s : State) (id : Nat) : (s.clearRelay id).evalSeats = s.evalSeats := rfl
@[simp] theorem State.clearRelay_held (s : State) (id : Nat) : (s.clearRelay id).held = s.held := rfl
@[simp] theorem State.clearRelay_seqs (s : State) (id : Nat) : (s.clearRelay id).seqs = s.seqs := rfl
@[simp] theorem State.clearRelay_buses (s : State) (id : Nat) : (s.clearRelay id).buses = s.buses := rfl
@[simp] theorem State.clearRelay_audits (s : State) (id : Nat) : (s.clearRelay id).audits = s.audits := rfl
@[simp] theorem State.clearRelay_duties (s : State) (id : Nat) : (s.clearRelay id).duties = s.duties := rfl
@[simp] theorem State.clearRelay_dutyNum (s : State) (id : Nat) : (s.clearRelay id).dutyNum = s.dutyNum := rfl
@[simp] theorem State.clearRelay_regs (s : State) (id : Nat) : (s.clearRelay id).regs = s.regs := rfl
@[simp] theorem State.clearRelay_throttled (s : State) (id : Nat) : (s.clearRelay id).throttled = s.throttled := rfl
@[simp] theorem State.clearRelay_tripped (s : State) (id : Nat) : (s.clearRelay id).tripped = s.tripped := rfl
@[simp] theorem State.clearRelay_halted (s : State) (id : Nat) : (s.clearRelay id).halted = s.halted := rfl
-- State.setStation
@[simp] theorem State.setStation_cycle (s : State) (k : Nat) (v : Station) : (s.setStation k v).cycle = s.cycle := rfl
@[simp] theorem State.setStation_tick (s : State) (k : Nat) (v : Station) : (s.setStation k v).tick = s.tick := rfl
@[simp] theorem State.setStation_free (s : State) (k : Nat) (v : Station) : (s.setStation k v).free = s.free := rfl
@[simp] theorem State.setStation_focus (s : State) (k : Nat) (v : Station) : (s.setStation k v).focus = s.focus := rfl
@[simp] theorem State.setStation_stalled (s : State) (k : Nat) (v : Station) : (s.setStation k v).stalled = s.stalled := rfl
@[simp] theorem State.setStation_nextId (s : State) (k : Nat) (v : Station) : (s.setStation k v).nextId = s.nextId := rfl
@[simp] theorem State.setStation_agenda (s : State) (k : Nat) (v : Station) : (s.setStation k v).agenda = s.agenda := rfl
@[simp] theorem State.setStation_inputs (s : State) (k : Nat) (v : Station) : (s.setStation k v).inputs = s.inputs := rfl
@[simp] theorem State.setStation_strikes (s : State) (k : Nat) (v : Station) : (s.setStation k v).strikes = s.strikes := rfl
@[simp] theorem State.setStation_arg (s : State) (k : Nat) (v : Station) : (s.setStation k v).arg = s.arg := rfl
@[simp] theorem State.setStation_mem (s : State) (k : Nat) (v : Station) : (s.setStation k v).mem = s.mem := rfl
@[simp] theorem State.setStation_gpois (s : State) (k : Nat) (v : Station) : (s.setStation k v).gpois = s.gpois := rfl
@[simp] theorem State.setStation_corrected (s : State) (k : Nat) (v : Station) : (s.setStation k v).corrected = s.corrected := rfl
@[simp] theorem State.setStation_decoders (s : State) (k : Nat) (v : Station) : (s.setStation k v).decoders = s.decoders := rfl
@[simp] theorem State.setStation_spois (s : State) (k : Nat) (v : Station) : (s.setStation k v).spois = s.spois := rfl
@[simp] theorem State.setStation_actors (s : State) (k : Nat) (v : Station) : (s.setStation k v).actors = s.actors := rfl
@[simp] theorem State.setStation_cells (s : State) (k : Nat) (v : Station) : (s.setStation k v).cells = s.cells := rfl
@[simp] theorem State.setStation_files (s : State) (k : Nat) (v : Station) : (s.setStation k v).files = s.files := rfl
@[simp] theorem State.setStation_nextFile (s : State) (k : Nat) (v : Station) : (s.setStation k v).nextFile = s.nextFile := rfl
@[simp] theorem State.setStation_jobs (s : State) (k : Nat) (v : Station) : (s.setStation k v).jobs = s.jobs := rfl
@[simp] theorem State.setStation_serials (s : State) (k : Nat) (v : Station) : (s.setStation k v).serials = s.serials := rfl
@[simp] theorem State.setStation_cohorts (s : State) (k : Nat) (v : Station) : (s.setStation k v).cohorts = s.cohorts := rfl
@[simp] theorem State.setStation_trees (s : State) (k : Nat) (v : Station) : (s.setStation k v).trees = s.trees := rfl
@[simp] theorem State.setStation_sups (s : State) (k : Nat) (v : Station) : (s.setStation k v).sups = s.sups := rfl
@[simp] theorem State.setStation_backs (s : State) (k : Nat) (v : Station) : (s.setStation k v).backs = s.backs := rfl
@[simp] theorem State.setStation_ballocs (s : State) (k : Nat) (v : Station) : (s.setStation k v).ballocs = s.ballocs := rfl
@[simp] theorem State.setStation_lone (s : State) (k : Nat) (v : Station) : (s.setStation k v).lone = s.lone := rfl
@[simp] theorem State.setStation_ports (s : State) (k : Nat) (v : Station) : (s.setStation k v).ports = s.ports := rfl
@[simp] theorem State.setStation_filters (s : State) (k : Nat) (v : Station) : (s.setStation k v).filters = s.filters := rfl
@[simp] theorem State.setStation_reds (s : State) (k : Nat) (v : Station) : (s.setStation k v).reds = s.reds := rfl
@[simp] theorem State.setStation_fwds (s : State) (k : Nat) (v : Station) : (s.setStation k v).fwds = s.fwds := rfl
@[simp] theorem State.setStation_counts (s : State) (k : Nat) (v : Station) : (s.setStation k v).counts = s.counts := rfl
@[simp] theorem State.setStation_queued (s : State) (k : Nat) (v : Station) : (s.setStation k v).queued = s.queued := rfl
@[simp] theorem State.setStation_notes (s : State) (k : Nat) (v : Station) : (s.setStation k v).notes = s.notes := rfl
@[simp] theorem State.setStation_seenLost (s : State) (k : Nat) (v : Station) : (s.setStation k v).seenLost = s.seenLost := rfl
@[simp] theorem State.setStation_ucie (s : State) (k : Nat) (v : Station) : (s.setStation k v).ucie = s.ucie := rfl
@[simp] theorem State.setStation_wires (s : State) (k : Nat) (v : Station) : (s.setStation k v).wires = s.wires := rfl
@[simp] theorem State.setStation_stations (s : State) (k : Nat) (v : Station) : (s.setStation k v).stations = kvSet s.stations k v := rfl
@[simp] theorem State.setStation_chans (s : State) (k : Nat) (v : Station) : (s.setStation k v).chans = s.chans := rfl
@[simp] theorem State.setStation_queues (s : State) (k : Nat) (v : Station) : (s.setStation k v).queues = s.queues := rfl
@[simp] theorem State.setStation_pairs (s : State) (k : Nat) (v : Station) : (s.setStation k v).pairs = s.pairs := rfl
@[simp] theorem State.setStation_lastInst (s : State) (k : Nat) (v : Station) : (s.setStation k v).lastInst = s.lastInst := rfl
@[simp] theorem State.setStation_evalSeats (s : State) (k : Nat) (v : Station) : (s.setStation k v).evalSeats = s.evalSeats := rfl
@[simp] theorem State.setStation_held (s : State) (k : Nat) (v : Station) : (s.setStation k v).held = s.held := rfl
@[simp] theorem State.setStation_seqs (s : State) (k : Nat) (v : Station) : (s.setStation k v).seqs = s.seqs := rfl
@[simp] theorem State.setStation_buses (s : State) (k : Nat) (v : Station) : (s.setStation k v).buses = s.buses := rfl
@[simp] theorem State.setStation_audits (s : State) (k : Nat) (v : Station) : (s.setStation k v).audits = s.audits := rfl
@[simp] theorem State.setStation_duties (s : State) (k : Nat) (v : Station) : (s.setStation k v).duties = s.duties := rfl
@[simp] theorem State.setStation_dutyNum (s : State) (k : Nat) (v : Station) : (s.setStation k v).dutyNum = s.dutyNum := rfl
@[simp] theorem State.setStation_regs (s : State) (k : Nat) (v : Station) : (s.setStation k v).regs = s.regs := rfl
@[simp] theorem State.setStation_throttled (s : State) (k : Nat) (v : Station) : (s.setStation k v).throttled = s.throttled := rfl
@[simp] theorem State.setStation_tripped (s : State) (k : Nat) (v : Station) : (s.setStation k v).tripped = s.tripped := rfl
@[simp] theorem State.setStation_halted (s : State) (k : Nat) (v : Station) : (s.setStation k v).halted = s.halted := rfl
-- State.setPort
@[simp] theorem State.setPort_cycle (s : State) (rq : Nat) (h : Home) (p : Port) : (s.setPort rq h p).cycle = s.cycle := rfl
@[simp] theorem State.setPort_tick (s : State) (rq : Nat) (h : Home) (p : Port) : (s.setPort rq h p).tick = s.tick := rfl
@[simp] theorem State.setPort_free (s : State) (rq : Nat) (h : Home) (p : Port) : (s.setPort rq h p).free = s.free := rfl
@[simp] theorem State.setPort_focus (s : State) (rq : Nat) (h : Home) (p : Port) : (s.setPort rq h p).focus = s.focus := rfl
@[simp] theorem State.setPort_stalled (s : State) (rq : Nat) (h : Home) (p : Port) : (s.setPort rq h p).stalled = s.stalled := rfl
@[simp] theorem State.setPort_nextId (s : State) (rq : Nat) (h : Home) (p : Port) : (s.setPort rq h p).nextId = s.nextId := rfl
@[simp] theorem State.setPort_agenda (s : State) (rq : Nat) (h : Home) (p : Port) : (s.setPort rq h p).agenda = s.agenda := rfl
@[simp] theorem State.setPort_inputs (s : State) (rq : Nat) (h : Home) (p : Port) : (s.setPort rq h p).inputs = s.inputs := rfl
@[simp] theorem State.setPort_strikes (s : State) (rq : Nat) (h : Home) (p : Port) : (s.setPort rq h p).strikes = s.strikes := rfl
@[simp] theorem State.setPort_arg (s : State) (rq : Nat) (h : Home) (p : Port) : (s.setPort rq h p).arg = s.arg := rfl
@[simp] theorem State.setPort_mem (s : State) (rq : Nat) (h : Home) (p : Port) : (s.setPort rq h p).mem = s.mem := rfl
@[simp] theorem State.setPort_gpois (s : State) (rq : Nat) (h : Home) (p : Port) : (s.setPort rq h p).gpois = s.gpois := rfl
@[simp] theorem State.setPort_corrected (s : State) (rq : Nat) (h : Home) (p : Port) : (s.setPort rq h p).corrected = s.corrected := rfl
@[simp] theorem State.setPort_decoders (s : State) (rq : Nat) (h : Home) (p : Port) : (s.setPort rq h p).decoders = s.decoders := rfl
@[simp] theorem State.setPort_spois (s : State) (rq : Nat) (h : Home) (p : Port) : (s.setPort rq h p).spois = s.spois := rfl
@[simp] theorem State.setPort_actors (s : State) (rq : Nat) (h : Home) (p : Port) : (s.setPort rq h p).actors = s.actors := rfl
@[simp] theorem State.setPort_cells (s : State) (rq : Nat) (h : Home) (p : Port) : (s.setPort rq h p).cells = s.cells := rfl
@[simp] theorem State.setPort_files (s : State) (rq : Nat) (h : Home) (p : Port) : (s.setPort rq h p).files = s.files := rfl
@[simp] theorem State.setPort_nextFile (s : State) (rq : Nat) (h : Home) (p : Port) : (s.setPort rq h p).nextFile = s.nextFile := rfl
@[simp] theorem State.setPort_jobs (s : State) (rq : Nat) (h : Home) (p : Port) : (s.setPort rq h p).jobs = s.jobs := rfl
@[simp] theorem State.setPort_serials (s : State) (rq : Nat) (h : Home) (p : Port) : (s.setPort rq h p).serials = s.serials := rfl
@[simp] theorem State.setPort_cohorts (s : State) (rq : Nat) (h : Home) (p : Port) : (s.setPort rq h p).cohorts = s.cohorts := rfl
@[simp] theorem State.setPort_trees (s : State) (rq : Nat) (h : Home) (p : Port) : (s.setPort rq h p).trees = s.trees := rfl
@[simp] theorem State.setPort_sups (s : State) (rq : Nat) (h : Home) (p : Port) : (s.setPort rq h p).sups = s.sups := rfl
@[simp] theorem State.setPort_backs (s : State) (rq : Nat) (h : Home) (p : Port) : (s.setPort rq h p).backs = s.backs := rfl
@[simp] theorem State.setPort_ballocs (s : State) (rq : Nat) (h : Home) (p : Port) : (s.setPort rq h p).ballocs = s.ballocs := rfl
@[simp] theorem State.setPort_lone (s : State) (rq : Nat) (h : Home) (p : Port) : (s.setPort rq h p).lone = s.lone := rfl
@[simp] theorem State.setPort_ports (s : State) (rq : Nat) (h : Home) (p : Port) : (s.setPort rq h p).ports = kvSet s.ports (portKey rq h) p := rfl
@[simp] theorem State.setPort_filters (s : State) (rq : Nat) (h : Home) (p : Port) : (s.setPort rq h p).filters = s.filters := rfl
@[simp] theorem State.setPort_reds (s : State) (rq : Nat) (h : Home) (p : Port) : (s.setPort rq h p).reds = s.reds := rfl
@[simp] theorem State.setPort_fwds (s : State) (rq : Nat) (h : Home) (p : Port) : (s.setPort rq h p).fwds = s.fwds := rfl
@[simp] theorem State.setPort_counts (s : State) (rq : Nat) (h : Home) (p : Port) : (s.setPort rq h p).counts = s.counts := rfl
@[simp] theorem State.setPort_queued (s : State) (rq : Nat) (h : Home) (p : Port) : (s.setPort rq h p).queued = s.queued := rfl
@[simp] theorem State.setPort_notes (s : State) (rq : Nat) (h : Home) (p : Port) : (s.setPort rq h p).notes = s.notes := rfl
@[simp] theorem State.setPort_seenLost (s : State) (rq : Nat) (h : Home) (p : Port) : (s.setPort rq h p).seenLost = s.seenLost := rfl
@[simp] theorem State.setPort_ucie (s : State) (rq : Nat) (h : Home) (p : Port) : (s.setPort rq h p).ucie = s.ucie := rfl
@[simp] theorem State.setPort_wires (s : State) (rq : Nat) (h : Home) (p : Port) : (s.setPort rq h p).wires = s.wires := rfl
@[simp] theorem State.setPort_stations (s : State) (rq : Nat) (h : Home) (p : Port) : (s.setPort rq h p).stations = s.stations := rfl
@[simp] theorem State.setPort_chans (s : State) (rq : Nat) (h : Home) (p : Port) : (s.setPort rq h p).chans = s.chans := rfl
@[simp] theorem State.setPort_queues (s : State) (rq : Nat) (h : Home) (p : Port) : (s.setPort rq h p).queues = s.queues := rfl
@[simp] theorem State.setPort_pairs (s : State) (rq : Nat) (h : Home) (p : Port) : (s.setPort rq h p).pairs = s.pairs := rfl
@[simp] theorem State.setPort_lastInst (s : State) (rq : Nat) (h : Home) (p : Port) : (s.setPort rq h p).lastInst = s.lastInst := rfl
@[simp] theorem State.setPort_evalSeats (s : State) (rq : Nat) (h : Home) (p : Port) : (s.setPort rq h p).evalSeats = s.evalSeats := rfl
@[simp] theorem State.setPort_held (s : State) (rq : Nat) (h : Home) (p : Port) : (s.setPort rq h p).held = s.held := rfl
@[simp] theorem State.setPort_seqs (s : State) (rq : Nat) (h : Home) (p : Port) : (s.setPort rq h p).seqs = s.seqs := rfl
@[simp] theorem State.setPort_buses (s : State) (rq : Nat) (h : Home) (p : Port) : (s.setPort rq h p).buses = s.buses := rfl
@[simp] theorem State.setPort_audits (s : State) (rq : Nat) (h : Home) (p : Port) : (s.setPort rq h p).audits = s.audits := rfl
@[simp] theorem State.setPort_duties (s : State) (rq : Nat) (h : Home) (p : Port) : (s.setPort rq h p).duties = s.duties := rfl
@[simp] theorem State.setPort_dutyNum (s : State) (rq : Nat) (h : Home) (p : Port) : (s.setPort rq h p).dutyNum = s.dutyNum := rfl
@[simp] theorem State.setPort_regs (s : State) (rq : Nat) (h : Home) (p : Port) : (s.setPort rq h p).regs = s.regs := rfl
@[simp] theorem State.setPort_throttled (s : State) (rq : Nat) (h : Home) (p : Port) : (s.setPort rq h p).throttled = s.throttled := rfl
@[simp] theorem State.setPort_tripped (s : State) (rq : Nat) (h : Home) (p : Port) : (s.setPort rq h p).tripped = s.tripped := rfl
@[simp] theorem State.setPort_halted (s : State) (rq : Nat) (h : Home) (p : Port) : (s.setPort rq h p).halted = s.halted := rfl
-- State.setModule
@[simp] theorem State.setModule_cycle (s : State) (m : Nat) (u : Ucie) : (s.setModule m u).cycle = s.cycle := rfl
@[simp] theorem State.setModule_tick (s : State) (m : Nat) (u : Ucie) : (s.setModule m u).tick = s.tick := rfl
@[simp] theorem State.setModule_free (s : State) (m : Nat) (u : Ucie) : (s.setModule m u).free = s.free := rfl
@[simp] theorem State.setModule_focus (s : State) (m : Nat) (u : Ucie) : (s.setModule m u).focus = s.focus := rfl
@[simp] theorem State.setModule_stalled (s : State) (m : Nat) (u : Ucie) : (s.setModule m u).stalled = s.stalled := rfl
@[simp] theorem State.setModule_nextId (s : State) (m : Nat) (u : Ucie) : (s.setModule m u).nextId = s.nextId := rfl
@[simp] theorem State.setModule_agenda (s : State) (m : Nat) (u : Ucie) : (s.setModule m u).agenda = s.agenda := rfl
@[simp] theorem State.setModule_inputs (s : State) (m : Nat) (u : Ucie) : (s.setModule m u).inputs = s.inputs := rfl
@[simp] theorem State.setModule_strikes (s : State) (m : Nat) (u : Ucie) : (s.setModule m u).strikes = s.strikes := rfl
@[simp] theorem State.setModule_arg (s : State) (m : Nat) (u : Ucie) : (s.setModule m u).arg = s.arg := rfl
@[simp] theorem State.setModule_mem (s : State) (m : Nat) (u : Ucie) : (s.setModule m u).mem = s.mem := rfl
@[simp] theorem State.setModule_gpois (s : State) (m : Nat) (u : Ucie) : (s.setModule m u).gpois = s.gpois := rfl
@[simp] theorem State.setModule_corrected (s : State) (m : Nat) (u : Ucie) : (s.setModule m u).corrected = s.corrected := rfl
@[simp] theorem State.setModule_decoders (s : State) (m : Nat) (u : Ucie) : (s.setModule m u).decoders = s.decoders := rfl
@[simp] theorem State.setModule_spois (s : State) (m : Nat) (u : Ucie) : (s.setModule m u).spois = s.spois := rfl
@[simp] theorem State.setModule_actors (s : State) (m : Nat) (u : Ucie) : (s.setModule m u).actors = s.actors := rfl
@[simp] theorem State.setModule_cells (s : State) (m : Nat) (u : Ucie) : (s.setModule m u).cells = s.cells := rfl
@[simp] theorem State.setModule_files (s : State) (m : Nat) (u : Ucie) : (s.setModule m u).files = s.files := rfl
@[simp] theorem State.setModule_nextFile (s : State) (m : Nat) (u : Ucie) : (s.setModule m u).nextFile = s.nextFile := rfl
@[simp] theorem State.setModule_jobs (s : State) (m : Nat) (u : Ucie) : (s.setModule m u).jobs = s.jobs := rfl
@[simp] theorem State.setModule_serials (s : State) (m : Nat) (u : Ucie) : (s.setModule m u).serials = s.serials := rfl
@[simp] theorem State.setModule_cohorts (s : State) (m : Nat) (u : Ucie) : (s.setModule m u).cohorts = s.cohorts := rfl
@[simp] theorem State.setModule_trees (s : State) (m : Nat) (u : Ucie) : (s.setModule m u).trees = s.trees := rfl
@[simp] theorem State.setModule_sups (s : State) (m : Nat) (u : Ucie) : (s.setModule m u).sups = s.sups := rfl
@[simp] theorem State.setModule_backs (s : State) (m : Nat) (u : Ucie) : (s.setModule m u).backs = s.backs := rfl
@[simp] theorem State.setModule_ballocs (s : State) (m : Nat) (u : Ucie) : (s.setModule m u).ballocs = s.ballocs := rfl
@[simp] theorem State.setModule_lone (s : State) (m : Nat) (u : Ucie) : (s.setModule m u).lone = s.lone := rfl
@[simp] theorem State.setModule_ports (s : State) (m : Nat) (u : Ucie) : (s.setModule m u).ports = s.ports := rfl
@[simp] theorem State.setModule_filters (s : State) (m : Nat) (u : Ucie) : (s.setModule m u).filters = s.filters := rfl
@[simp] theorem State.setModule_reds (s : State) (m : Nat) (u : Ucie) : (s.setModule m u).reds = s.reds := rfl
@[simp] theorem State.setModule_fwds (s : State) (m : Nat) (u : Ucie) : (s.setModule m u).fwds = s.fwds := rfl
@[simp] theorem State.setModule_counts (s : State) (m : Nat) (u : Ucie) : (s.setModule m u).counts = s.counts := rfl
@[simp] theorem State.setModule_queued (s : State) (m : Nat) (u : Ucie) : (s.setModule m u).queued = s.queued := rfl
@[simp] theorem State.setModule_notes (s : State) (m : Nat) (u : Ucie) : (s.setModule m u).notes = s.notes := rfl
@[simp] theorem State.setModule_seenLost (s : State) (m : Nat) (u : Ucie) : (s.setModule m u).seenLost = s.seenLost := rfl
@[simp] theorem State.setModule_ucie (s : State) (m : Nat) (u : Ucie) : (s.setModule m u).ucie = kvSet s.ucie m u := rfl
@[simp] theorem State.setModule_wires (s : State) (m : Nat) (u : Ucie) : (s.setModule m u).wires = s.wires := rfl
@[simp] theorem State.setModule_stations (s : State) (m : Nat) (u : Ucie) : (s.setModule m u).stations = s.stations := rfl
@[simp] theorem State.setModule_chans (s : State) (m : Nat) (u : Ucie) : (s.setModule m u).chans = s.chans := rfl
@[simp] theorem State.setModule_queues (s : State) (m : Nat) (u : Ucie) : (s.setModule m u).queues = s.queues := rfl
@[simp] theorem State.setModule_pairs (s : State) (m : Nat) (u : Ucie) : (s.setModule m u).pairs = s.pairs := rfl
@[simp] theorem State.setModule_lastInst (s : State) (m : Nat) (u : Ucie) : (s.setModule m u).lastInst = s.lastInst := rfl
@[simp] theorem State.setModule_evalSeats (s : State) (m : Nat) (u : Ucie) : (s.setModule m u).evalSeats = s.evalSeats := rfl
@[simp] theorem State.setModule_held (s : State) (m : Nat) (u : Ucie) : (s.setModule m u).held = s.held := rfl
@[simp] theorem State.setModule_seqs (s : State) (m : Nat) (u : Ucie) : (s.setModule m u).seqs = s.seqs := rfl
@[simp] theorem State.setModule_buses (s : State) (m : Nat) (u : Ucie) : (s.setModule m u).buses = s.buses := rfl
@[simp] theorem State.setModule_audits (s : State) (m : Nat) (u : Ucie) : (s.setModule m u).audits = s.audits := rfl
@[simp] theorem State.setModule_duties (s : State) (m : Nat) (u : Ucie) : (s.setModule m u).duties = s.duties := rfl
@[simp] theorem State.setModule_dutyNum (s : State) (m : Nat) (u : Ucie) : (s.setModule m u).dutyNum = s.dutyNum := rfl
@[simp] theorem State.setModule_regs (s : State) (m : Nat) (u : Ucie) : (s.setModule m u).regs = s.regs := rfl
@[simp] theorem State.setModule_throttled (s : State) (m : Nat) (u : Ucie) : (s.setModule m u).throttled = s.throttled := rfl
@[simp] theorem State.setModule_tripped (s : State) (m : Nat) (u : Ucie) : (s.setModule m u).tripped = s.tripped := rfl
@[simp] theorem State.setModule_halted (s : State) (m : Nat) (u : Ucie) : (s.setModule m u).halted = s.halted := rfl
-- State.tock
@[simp] theorem State.tock_cycle (s : State) : (s.tock).cycle = s.cycle + Config.elapse s.tick := rfl
@[simp] theorem State.tock_tick (s : State) : (s.tock).tick = s.tick + 1 := rfl
@[simp] theorem State.tock_free (s : State) : (s.tock).free = s.free := rfl
@[simp] theorem State.tock_focus (s : State) : (s.tock).focus = s.focus := rfl
@[simp] theorem State.tock_stalled (s : State) : (s.tock).stalled = s.stalled := rfl
@[simp] theorem State.tock_nextId (s : State) : (s.tock).nextId = s.nextId := rfl
@[simp] theorem State.tock_agenda (s : State) : (s.tock).agenda = s.agenda := rfl
@[simp] theorem State.tock_inputs (s : State) : (s.tock).inputs = s.inputs := rfl
@[simp] theorem State.tock_strikes (s : State) : (s.tock).strikes = s.strikes := rfl
@[simp] theorem State.tock_arg (s : State) : (s.tock).arg = s.arg := rfl
@[simp] theorem State.tock_mem (s : State) : (s.tock).mem = s.mem := rfl
@[simp] theorem State.tock_gpois (s : State) : (s.tock).gpois = s.gpois := rfl
@[simp] theorem State.tock_corrected (s : State) : (s.tock).corrected = s.corrected := rfl
@[simp] theorem State.tock_decoders (s : State) : (s.tock).decoders = s.decoders := rfl
@[simp] theorem State.tock_spois (s : State) : (s.tock).spois = s.spois := rfl
@[simp] theorem State.tock_actors (s : State) : (s.tock).actors = s.actors := rfl
@[simp] theorem State.tock_cells (s : State) : (s.tock).cells = s.cells := rfl
@[simp] theorem State.tock_files (s : State) : (s.tock).files = s.files := rfl
@[simp] theorem State.tock_nextFile (s : State) : (s.tock).nextFile = s.nextFile := rfl
@[simp] theorem State.tock_jobs (s : State) : (s.tock).jobs = s.jobs := rfl
@[simp] theorem State.tock_serials (s : State) : (s.tock).serials = s.serials := rfl
@[simp] theorem State.tock_cohorts (s : State) : (s.tock).cohorts = s.cohorts := rfl
@[simp] theorem State.tock_trees (s : State) : (s.tock).trees = s.trees := rfl
@[simp] theorem State.tock_sups (s : State) : (s.tock).sups = s.sups := rfl
@[simp] theorem State.tock_backs (s : State) : (s.tock).backs = s.backs := rfl
@[simp] theorem State.tock_ballocs (s : State) : (s.tock).ballocs = s.ballocs := rfl
@[simp] theorem State.tock_lone (s : State) : (s.tock).lone = s.lone := rfl
@[simp] theorem State.tock_ports (s : State) : (s.tock).ports = s.ports := rfl
@[simp] theorem State.tock_filters (s : State) : (s.tock).filters = s.filters := rfl
@[simp] theorem State.tock_reds (s : State) : (s.tock).reds = s.reds := rfl
@[simp] theorem State.tock_fwds (s : State) : (s.tock).fwds = s.fwds := rfl
@[simp] theorem State.tock_counts (s : State) : (s.tock).counts = s.counts := rfl
@[simp] theorem State.tock_queued (s : State) : (s.tock).queued = s.queued := rfl
@[simp] theorem State.tock_notes (s : State) : (s.tock).notes = s.notes := rfl
@[simp] theorem State.tock_seenLost (s : State) : (s.tock).seenLost = s.seenLost := rfl
@[simp] theorem State.tock_ucie (s : State) : (s.tock).ucie = s.ucie := rfl
@[simp] theorem State.tock_wires (s : State) : (s.tock).wires = s.wires := rfl
@[simp] theorem State.tock_stations (s : State) : (s.tock).stations = s.stations := rfl
@[simp] theorem State.tock_chans (s : State) : (s.tock).chans = s.chans := rfl
@[simp] theorem State.tock_queues (s : State) : (s.tock).queues = s.queues := rfl
@[simp] theorem State.tock_pairs (s : State) : (s.tock).pairs = s.pairs := rfl
@[simp] theorem State.tock_lastInst (s : State) : (s.tock).lastInst = s.lastInst := rfl
@[simp] theorem State.tock_evalSeats (s : State) : (s.tock).evalSeats = s.evalSeats := rfl
@[simp] theorem State.tock_held (s : State) : (s.tock).held = s.held := rfl
@[simp] theorem State.tock_seqs (s : State) : (s.tock).seqs = s.seqs := rfl
@[simp] theorem State.tock_buses (s : State) : (s.tock).buses = s.buses := rfl
@[simp] theorem State.tock_audits (s : State) : (s.tock).audits = s.audits := rfl
@[simp] theorem State.tock_duties (s : State) : (s.tock).duties = s.duties := rfl
@[simp] theorem State.tock_dutyNum (s : State) : (s.tock).dutyNum = s.dutyNum := rfl
@[simp] theorem State.tock_regs (s : State) : (s.tock).regs = s.regs := rfl
@[simp] theorem State.tock_throttled (s : State) : (s.tock).throttled = s.throttled := rfl
@[simp] theorem State.tock_tripped (s : State) : (s.tock).tripped = s.tripped := rfl
@[simp] theorem State.tock_halted (s : State) : (s.tock).halted = s.halted := rfl
-- Actor.push
@[simp] theorem Actor.push_name (a : Actor) (e : Ent) : (a.push e).name = a.name := rfl
@[simp] theorem Actor.push_supn (a : Actor) (e : Ent) : (a.push e).supn = a.supn := rfl
@[simp] theorem Actor.push_file (a : Actor) (e : Ent) : (a.push e).file = a.file := rfl
@[simp] theorem Actor.push_img (a : Actor) (e : Ent) : (a.push e).img = a.img := rfl
@[simp] theorem Actor.push_roaming (a : Actor) (e : Ent) : (a.push e).roaming = a.roaming := rfl
@[simp] theorem Actor.push_st (a : Actor) (e : Ent) : (a.push e).st = a.st := rfl
@[simp] theorem Actor.push_cell (a : Actor) (e : Ent) : (a.push e).cell = a.cell := rfl
@[simp] theorem Actor.push_seat (a : Actor) (e : Ent) : (a.push e).seat = a.seat := rfl
@[simp] theorem Actor.push_rc (a : Actor) (e : Ent) : (a.push e).rc = a.rc := rfl
@[simp] theorem Actor.push_rcell (a : Actor) (e : Ent) : (a.push e).rcell = a.rcell := rfl
@[simp] theorem Actor.push_rslot (a : Actor) (e : Ent) : (a.push e).rslot = a.rslot := rfl
@[simp] theorem Actor.push_ranAt (a : Actor) (e : Ent) : (a.push e).ranAt = a.ranAt := rfl
@[simp] theorem Actor.push_base (a : Actor) (e : Ent) : (a.push e).base = a.base := rfl
@[simp] theorem Actor.push_size (a : Actor) (e : Ent) : (a.push e).size = a.size := rfl
@[simp] theorem Actor.push_bprio (a : Actor) (e : Ent) : (a.push e).bprio = a.bprio := rfl
@[simp] theorem Actor.push_xmask (a : Actor) (e : Ent) : (a.push e).xmask = a.xmask := rfl
@[simp] theorem Actor.push_ovf (a : Actor) (e : Ent) : (a.push e).ovf = a.ovf := rfl
@[simp] theorem Actor.push_chmask (a : Actor) (e : Ent) : (a.push e).chmask = a.chmask := rfl
@[simp] theorem Actor.push_gen (a : Actor) (e : Ent) : (a.push e).gen = a.gen := rfl
@[simp] theorem Actor.push_tiles (a : Actor) (e : Ent) : (a.push e).tiles = a.tiles := rfl
@[simp] theorem Actor.push_bars (a : Actor) (e : Ent) : (a.push e).bars = a.bars := rfl
@[simp] theorem Actor.push_rings (a : Actor) (e : Ent) : (a.push e).rings = a.rings := rfl
@[simp] theorem Actor.push_ys (a : Actor) (e : Ent) : (a.push e).ys = a.ys := rfl
@[simp] theorem Actor.push_fmts (a : Actor) (e : Ent) : (a.push e).fmts = a.fmts := rfl
@[simp] theorem Actor.push_exts (a : Actor) (e : Ent) : (a.push e).exts = a.exts := rfl
@[simp] theorem Actor.push_walks (a : Actor) (e : Ent) : (a.push e).walks = a.walks := rfl
@[simp] theorem Actor.push_zones (a : Actor) (e : Ent) : (a.push e).zones = a.zones := rfl
@[simp] theorem Actor.push_links (a : Actor) (e : Ent) : (a.push e).links = a.links := rfl
@[simp] theorem Actor.push_mons (a : Actor) (e : Ent) : (a.push e).mons = a.mons := rfl
@[simp] theorem Actor.push_watch (a : Actor) (e : Ent) : (a.push e).watch = a.watch := rfl
@[simp] theorem Actor.push_saved (a : Actor) (e : Ent) : (a.push e).saved = a.saved := rfl
@[simp] theorem Actor.push_mbox (a : Actor) (e : Ent) : (a.push e).mbox = a.mbox := rfl
@[simp] theorem Actor.push_nmail (a : Actor) (e : Ent) : (a.push e).nmail = a.nmail := rfl
@[simp] theorem Actor.push_pairs (a : Actor) (e : Ent) : (a.push e).pairs = a.pairs := rfl
@[simp] theorem Actor.push_drops (a : Actor) (e : Ent) : (a.push e).drops = a.drops := rfl
@[simp] theorem Actor.push_cbp (a : Actor) (e : Ent) : (a.push e).cbp = a.cbp := rfl
@[simp] theorem Actor.push_ovfv (a : Actor) (e : Ent) : (a.push e).ovfv = a.ovfv := rfl
@[simp] theorem Actor.push_asks (a : Actor) (e : Ent) : (a.push e).asks = a.asks := rfl
@[simp] theorem Actor.push_debt (a : Actor) (e : Ent) : (a.push e).debt = a.debt := rfl
@[simp] theorem Actor.push_invNo (a : Actor) (e : Ent) : (a.push e).invNo = a.invNo := rfl
@[simp] theorem Actor.push_msg (a : Actor) (e : Ent) : (a.push e).msg = a.msg := rfl
@[simp] theorem Actor.push_eprio (a : Actor) (e : Ent) : (a.push e).eprio = a.eprio := rfl
@[simp] theorem Actor.push_budget (a : Actor) (e : Ent) : (a.push e).budget = a.budget := rfl
@[simp] theorem Actor.push_start (a : Actor) (e : Ent) : (a.push e).start = a.start := rfl
@[simp] theorem Actor.push_paused (a : Actor) (e : Ent) : (a.push e).paused = a.paused := rfl
@[simp] theorem Actor.push_retired (a : Actor) (e : Ent) : (a.push e).retired = a.retired := rfl
@[simp] theorem Actor.push_liveout (a : Actor) (e : Ent) : (a.push e).liveout = a.liveout := rfl
@[simp] theorem Actor.push_pc (a : Actor) (e : Ent) : (a.push e).pc = a.pc := rfl
@[simp] theorem Actor.push_lc (a : Actor) (e : Ent) : (a.push e).lc = a.lc := rfl
@[simp] theorem Actor.push_ls (a : Actor) (e : Ent) : (a.push e).ls = a.ls := rfl
@[simp] theorem Actor.push_ldep (a : Actor) (e : Ent) : (a.push e).ldep = a.ldep := rfl
@[simp] theorem Actor.push_h (a : Actor) (e : Ent) : (a.push e).h = e :: a.h.take 15 := rfl
@[simp] theorem Actor.push_s (a : Actor) (e : Ent) : (a.push e).s = a.s := rfl
@[simp] theorem Actor.push_p (a : Actor) (e : Ent) : (a.push e).p = a.p := rfl
@[simp] theorem Actor.push_outbox (a : Actor) (e : Ent) : (a.push e).outbox = a.outbox := rfl
@[simp] theorem Actor.push_outs (a : Actor) (e : Ent) : (a.push e).outs = a.outs := rfl
@[simp] theorem Actor.push_flying (a : Actor) (e : Ent) : (a.push e).flying = a.flying := rfl
@[simp] theorem Actor.push_xwalk (a : Actor) (e : Ent) : (a.push e).xwalk = a.xwalk := rfl
@[simp] theorem Actor.push_drains (a : Actor) (e : Ent) : (a.push e).drains = a.drains := rfl
@[simp] theorem Actor.push_await (a : Actor) (e : Ent) : (a.push e).await = a.await := rfl
@[simp] theorem Actor.push_pend (a : Actor) (e : Ent) : (a.push e).pend = a.pend := rfl
@[simp] theorem Actor.push_dbg (a : Actor) (e : Ent) : (a.push e).dbg = a.dbg := rfl
@[simp] theorem Actor.push_target (a : Actor) (e : Ent) : (a.push e).target = a.target := rfl
@[simp] theorem Actor.push_audit (a : Actor) (e : Ent) : (a.push e).audit = a.audit := rfl
@[simp] theorem Actor.push_shadow (a : Actor) (e : Ent) : (a.push e).shadow = a.shadow := rfl
@[simp] theorem Actor.push_nokick (a : Actor) (e : Ent) : (a.push e).nokick = a.nokick := rfl
@[simp] theorem Actor.push_fresh (a : Actor) (e : Ent) : (a.push e).fresh = a.fresh := rfl
@[simp] theorem Actor.push_pLatch (a : Actor) (e : Ent) : (a.push e).pLatch = a.pLatch := rfl
@[simp] theorem Actor.push_fetching (a : Actor) (e : Ent) : (a.push e).fetching = a.fetching := rfl
@[simp] theorem Actor.push_offer (a : Actor) (e : Ent) : (a.push e).offer = a.offer := rfl
@[simp] theorem Actor.push_waits (a : Actor) (e : Ent) : (a.push e).waits = a.waits := rfl
-- Actor.pushVal
@[simp] theorem Actor.pushVal_name (a : Actor) (v : W64) (p : Bool) : (a.pushVal v p).name = a.name := rfl
@[simp] theorem Actor.pushVal_supn (a : Actor) (v : W64) (p : Bool) : (a.pushVal v p).supn = a.supn := rfl
@[simp] theorem Actor.pushVal_file (a : Actor) (v : W64) (p : Bool) : (a.pushVal v p).file = a.file := rfl
@[simp] theorem Actor.pushVal_img (a : Actor) (v : W64) (p : Bool) : (a.pushVal v p).img = a.img := rfl
@[simp] theorem Actor.pushVal_roaming (a : Actor) (v : W64) (p : Bool) : (a.pushVal v p).roaming = a.roaming := rfl
@[simp] theorem Actor.pushVal_st (a : Actor) (v : W64) (p : Bool) : (a.pushVal v p).st = a.st := rfl
@[simp] theorem Actor.pushVal_cell (a : Actor) (v : W64) (p : Bool) : (a.pushVal v p).cell = a.cell := rfl
@[simp] theorem Actor.pushVal_seat (a : Actor) (v : W64) (p : Bool) : (a.pushVal v p).seat = a.seat := rfl
@[simp] theorem Actor.pushVal_rc (a : Actor) (v : W64) (p : Bool) : (a.pushVal v p).rc = a.rc := rfl
@[simp] theorem Actor.pushVal_rcell (a : Actor) (v : W64) (p : Bool) : (a.pushVal v p).rcell = a.rcell := rfl
@[simp] theorem Actor.pushVal_rslot (a : Actor) (v : W64) (p : Bool) : (a.pushVal v p).rslot = a.rslot := rfl
@[simp] theorem Actor.pushVal_ranAt (a : Actor) (v : W64) (p : Bool) : (a.pushVal v p).ranAt = a.ranAt := rfl
@[simp] theorem Actor.pushVal_base (a : Actor) (v : W64) (p : Bool) : (a.pushVal v p).base = a.base := rfl
@[simp] theorem Actor.pushVal_size (a : Actor) (v : W64) (p : Bool) : (a.pushVal v p).size = a.size := rfl
@[simp] theorem Actor.pushVal_bprio (a : Actor) (v : W64) (p : Bool) : (a.pushVal v p).bprio = a.bprio := rfl
@[simp] theorem Actor.pushVal_xmask (a : Actor) (v : W64) (p : Bool) : (a.pushVal v p).xmask = a.xmask := rfl
@[simp] theorem Actor.pushVal_ovf (a : Actor) (v : W64) (p : Bool) : (a.pushVal v p).ovf = a.ovf := rfl
@[simp] theorem Actor.pushVal_chmask (a : Actor) (v : W64) (p : Bool) : (a.pushVal v p).chmask = a.chmask := rfl
@[simp] theorem Actor.pushVal_gen (a : Actor) (v : W64) (p : Bool) : (a.pushVal v p).gen = a.gen := rfl
@[simp] theorem Actor.pushVal_tiles (a : Actor) (v : W64) (p : Bool) : (a.pushVal v p).tiles = a.tiles := rfl
@[simp] theorem Actor.pushVal_bars (a : Actor) (v : W64) (p : Bool) : (a.pushVal v p).bars = a.bars := rfl
@[simp] theorem Actor.pushVal_rings (a : Actor) (v : W64) (p : Bool) : (a.pushVal v p).rings = a.rings := rfl
@[simp] theorem Actor.pushVal_ys (a : Actor) (v : W64) (p : Bool) : (a.pushVal v p).ys = a.ys := rfl
@[simp] theorem Actor.pushVal_fmts (a : Actor) (v : W64) (p : Bool) : (a.pushVal v p).fmts = a.fmts := rfl
@[simp] theorem Actor.pushVal_exts (a : Actor) (v : W64) (p : Bool) : (a.pushVal v p).exts = a.exts := rfl
@[simp] theorem Actor.pushVal_walks (a : Actor) (v : W64) (p : Bool) : (a.pushVal v p).walks = a.walks := rfl
@[simp] theorem Actor.pushVal_zones (a : Actor) (v : W64) (p : Bool) : (a.pushVal v p).zones = a.zones := rfl
@[simp] theorem Actor.pushVal_links (a : Actor) (v : W64) (p : Bool) : (a.pushVal v p).links = a.links := rfl
@[simp] theorem Actor.pushVal_mons (a : Actor) (v : W64) (p : Bool) : (a.pushVal v p).mons = a.mons := rfl
@[simp] theorem Actor.pushVal_watch (a : Actor) (v : W64) (p : Bool) : (a.pushVal v p).watch = a.watch := rfl
@[simp] theorem Actor.pushVal_saved (a : Actor) (v : W64) (p : Bool) : (a.pushVal v p).saved = a.saved := rfl
@[simp] theorem Actor.pushVal_mbox (a : Actor) (v : W64) (p : Bool) : (a.pushVal v p).mbox = a.mbox := rfl
@[simp] theorem Actor.pushVal_nmail (a : Actor) (v : W64) (p : Bool) : (a.pushVal v p).nmail = a.nmail := rfl
@[simp] theorem Actor.pushVal_pairs (a : Actor) (v : W64) (p : Bool) : (a.pushVal v p).pairs = a.pairs := rfl
@[simp] theorem Actor.pushVal_drops (a : Actor) (v : W64) (p : Bool) : (a.pushVal v p).drops = a.drops := rfl
@[simp] theorem Actor.pushVal_cbp (a : Actor) (v : W64) (p : Bool) : (a.pushVal v p).cbp = a.cbp := rfl
@[simp] theorem Actor.pushVal_ovfv (a : Actor) (v : W64) (p : Bool) : (a.pushVal v p).ovfv = a.ovfv := rfl
@[simp] theorem Actor.pushVal_asks (a : Actor) (v : W64) (p : Bool) : (a.pushVal v p).asks = a.asks := rfl
@[simp] theorem Actor.pushVal_debt (a : Actor) (v : W64) (p : Bool) : (a.pushVal v p).debt = a.debt := rfl
@[simp] theorem Actor.pushVal_invNo (a : Actor) (v : W64) (p : Bool) : (a.pushVal v p).invNo = a.invNo := rfl
@[simp] theorem Actor.pushVal_msg (a : Actor) (v : W64) (p : Bool) : (a.pushVal v p).msg = a.msg := rfl
@[simp] theorem Actor.pushVal_eprio (a : Actor) (v : W64) (p : Bool) : (a.pushVal v p).eprio = a.eprio := rfl
@[simp] theorem Actor.pushVal_budget (a : Actor) (v : W64) (p : Bool) : (a.pushVal v p).budget = a.budget := rfl
@[simp] theorem Actor.pushVal_start (a : Actor) (v : W64) (p : Bool) : (a.pushVal v p).start = a.start := rfl
@[simp] theorem Actor.pushVal_paused (a : Actor) (v : W64) (p : Bool) : (a.pushVal v p).paused = a.paused := rfl
@[simp] theorem Actor.pushVal_retired (a : Actor) (v : W64) (p : Bool) : (a.pushVal v p).retired = a.retired := rfl
@[simp] theorem Actor.pushVal_liveout (a : Actor) (v : W64) (p : Bool) : (a.pushVal v p).liveout = a.liveout := rfl
@[simp] theorem Actor.pushVal_pc (a : Actor) (v : W64) (p : Bool) : (a.pushVal v p).pc = a.pc := rfl
@[simp] theorem Actor.pushVal_lc (a : Actor) (v : W64) (p : Bool) : (a.pushVal v p).lc = a.lc := rfl
@[simp] theorem Actor.pushVal_ls (a : Actor) (v : W64) (p : Bool) : (a.pushVal v p).ls = a.ls := rfl
@[simp] theorem Actor.pushVal_ldep (a : Actor) (v : W64) (p : Bool) : (a.pushVal v p).ldep = a.ldep := rfl
@[simp] theorem Actor.pushVal_h (a : Actor) (v : W64) (p : Bool) : (a.pushVal v p).h = .val v p :: a.h.take 15 := rfl
@[simp] theorem Actor.pushVal_s (a : Actor) (v : W64) (p : Bool) : (a.pushVal v p).s = a.s := rfl
@[simp] theorem Actor.pushVal_p (a : Actor) (v : W64) (p : Bool) : (a.pushVal v p).p = a.p := rfl
@[simp] theorem Actor.pushVal_outbox (a : Actor) (v : W64) (p : Bool) : (a.pushVal v p).outbox = a.outbox := rfl
@[simp] theorem Actor.pushVal_outs (a : Actor) (v : W64) (p : Bool) : (a.pushVal v p).outs = a.outs := rfl
@[simp] theorem Actor.pushVal_flying (a : Actor) (v : W64) (p : Bool) : (a.pushVal v p).flying = a.flying := rfl
@[simp] theorem Actor.pushVal_xwalk (a : Actor) (v : W64) (p : Bool) : (a.pushVal v p).xwalk = a.xwalk := rfl
@[simp] theorem Actor.pushVal_drains (a : Actor) (v : W64) (p : Bool) : (a.pushVal v p).drains = a.drains := rfl
@[simp] theorem Actor.pushVal_await (a : Actor) (v : W64) (p : Bool) : (a.pushVal v p).await = a.await := rfl
@[simp] theorem Actor.pushVal_pend (a : Actor) (v : W64) (p : Bool) : (a.pushVal v p).pend = a.pend := rfl
@[simp] theorem Actor.pushVal_dbg (a : Actor) (v : W64) (p : Bool) : (a.pushVal v p).dbg = a.dbg := rfl
@[simp] theorem Actor.pushVal_target (a : Actor) (v : W64) (p : Bool) : (a.pushVal v p).target = a.target := rfl
@[simp] theorem Actor.pushVal_audit (a : Actor) (v : W64) (p : Bool) : (a.pushVal v p).audit = a.audit := rfl
@[simp] theorem Actor.pushVal_shadow (a : Actor) (v : W64) (p : Bool) : (a.pushVal v p).shadow = a.shadow := rfl
@[simp] theorem Actor.pushVal_nokick (a : Actor) (v : W64) (p : Bool) : (a.pushVal v p).nokick = a.nokick := rfl
@[simp] theorem Actor.pushVal_fresh (a : Actor) (v : W64) (p : Bool) : (a.pushVal v p).fresh = a.fresh := rfl
@[simp] theorem Actor.pushVal_pLatch (a : Actor) (v : W64) (p : Bool) : (a.pushVal v p).pLatch = a.pLatch := rfl
@[simp] theorem Actor.pushVal_fetching (a : Actor) (v : W64) (p : Bool) : (a.pushVal v p).fetching = a.fetching := rfl
@[simp] theorem Actor.pushVal_offer (a : Actor) (v : W64) (p : Bool) : (a.pushVal v p).offer = a.offer := rfl
@[simp] theorem Actor.pushVal_waits (a : Actor) (v : W64) (p : Bool) : (a.pushVal v p).waits = a.waits := rfl
-- Actor.retire
@[simp] theorem Actor.retire_name (a : Actor) (n : Nat) : (a.retire n).name = a.name := rfl
@[simp] theorem Actor.retire_supn (a : Actor) (n : Nat) : (a.retire n).supn = a.supn := rfl
@[simp] theorem Actor.retire_file (a : Actor) (n : Nat) : (a.retire n).file = a.file := rfl
@[simp] theorem Actor.retire_img (a : Actor) (n : Nat) : (a.retire n).img = a.img := rfl
@[simp] theorem Actor.retire_roaming (a : Actor) (n : Nat) : (a.retire n).roaming = a.roaming := rfl
@[simp] theorem Actor.retire_st (a : Actor) (n : Nat) : (a.retire n).st = a.st := rfl
@[simp] theorem Actor.retire_cell (a : Actor) (n : Nat) : (a.retire n).cell = a.cell := rfl
@[simp] theorem Actor.retire_seat (a : Actor) (n : Nat) : (a.retire n).seat = a.seat := rfl
@[simp] theorem Actor.retire_rc (a : Actor) (n : Nat) : (a.retire n).rc = a.rc := rfl
@[simp] theorem Actor.retire_rcell (a : Actor) (n : Nat) : (a.retire n).rcell = a.rcell := rfl
@[simp] theorem Actor.retire_rslot (a : Actor) (n : Nat) : (a.retire n).rslot = a.rslot := rfl
@[simp] theorem Actor.retire_ranAt (a : Actor) (n : Nat) : (a.retire n).ranAt = a.ranAt := rfl
@[simp] theorem Actor.retire_base (a : Actor) (n : Nat) : (a.retire n).base = a.base := rfl
@[simp] theorem Actor.retire_size (a : Actor) (n : Nat) : (a.retire n).size = a.size := rfl
@[simp] theorem Actor.retire_bprio (a : Actor) (n : Nat) : (a.retire n).bprio = a.bprio := rfl
@[simp] theorem Actor.retire_xmask (a : Actor) (n : Nat) : (a.retire n).xmask = a.xmask := rfl
@[simp] theorem Actor.retire_ovf (a : Actor) (n : Nat) : (a.retire n).ovf = a.ovf := rfl
@[simp] theorem Actor.retire_chmask (a : Actor) (n : Nat) : (a.retire n).chmask = a.chmask := rfl
@[simp] theorem Actor.retire_gen (a : Actor) (n : Nat) : (a.retire n).gen = a.gen := rfl
@[simp] theorem Actor.retire_tiles (a : Actor) (n : Nat) : (a.retire n).tiles = a.tiles := rfl
@[simp] theorem Actor.retire_bars (a : Actor) (n : Nat) : (a.retire n).bars = a.bars := rfl
@[simp] theorem Actor.retire_rings (a : Actor) (n : Nat) : (a.retire n).rings = a.rings := rfl
@[simp] theorem Actor.retire_ys (a : Actor) (n : Nat) : (a.retire n).ys = a.ys := rfl
@[simp] theorem Actor.retire_fmts (a : Actor) (n : Nat) : (a.retire n).fmts = a.fmts := rfl
@[simp] theorem Actor.retire_exts (a : Actor) (n : Nat) : (a.retire n).exts = a.exts := rfl
@[simp] theorem Actor.retire_walks (a : Actor) (n : Nat) : (a.retire n).walks = a.walks := rfl
@[simp] theorem Actor.retire_zones (a : Actor) (n : Nat) : (a.retire n).zones = a.zones := rfl
@[simp] theorem Actor.retire_links (a : Actor) (n : Nat) : (a.retire n).links = a.links := rfl
@[simp] theorem Actor.retire_mons (a : Actor) (n : Nat) : (a.retire n).mons = a.mons := rfl
@[simp] theorem Actor.retire_watch (a : Actor) (n : Nat) : (a.retire n).watch = a.watch := rfl
@[simp] theorem Actor.retire_saved (a : Actor) (n : Nat) : (a.retire n).saved = a.saved := rfl
@[simp] theorem Actor.retire_mbox (a : Actor) (n : Nat) : (a.retire n).mbox = a.mbox := rfl
@[simp] theorem Actor.retire_nmail (a : Actor) (n : Nat) : (a.retire n).nmail = a.nmail := rfl
@[simp] theorem Actor.retire_pairs (a : Actor) (n : Nat) : (a.retire n).pairs = a.pairs := rfl
@[simp] theorem Actor.retire_drops (a : Actor) (n : Nat) : (a.retire n).drops = a.drops := rfl
@[simp] theorem Actor.retire_cbp (a : Actor) (n : Nat) : (a.retire n).cbp = a.cbp := rfl
@[simp] theorem Actor.retire_ovfv (a : Actor) (n : Nat) : (a.retire n).ovfv = a.ovfv := rfl
@[simp] theorem Actor.retire_asks (a : Actor) (n : Nat) : (a.retire n).asks = a.asks := rfl
@[simp] theorem Actor.retire_debt (a : Actor) (n : Nat) : (a.retire n).debt = a.debt := rfl
@[simp] theorem Actor.retire_invNo (a : Actor) (n : Nat) : (a.retire n).invNo = a.invNo := rfl
@[simp] theorem Actor.retire_msg (a : Actor) (n : Nat) : (a.retire n).msg = a.msg := rfl
@[simp] theorem Actor.retire_eprio (a : Actor) (n : Nat) : (a.retire n).eprio = a.eprio := rfl
@[simp] theorem Actor.retire_budget (a : Actor) (n : Nat) : (a.retire n).budget = a.budget := rfl
@[simp] theorem Actor.retire_start (a : Actor) (n : Nat) : (a.retire n).start = a.start := rfl
@[simp] theorem Actor.retire_paused (a : Actor) (n : Nat) : (a.retire n).paused = a.paused := rfl
@[simp] theorem Actor.retire_retired (a : Actor) (n : Nat) : (a.retire n).retired = a.retired + 1 := rfl
@[simp] theorem Actor.retire_liveout (a : Actor) (n : Nat) : (a.retire n).liveout = a.liveout := rfl
@[simp] theorem Actor.retire_pc (a : Actor) (n : Nat) : (a.retire n).pc = a.pc + 4 * n := rfl
@[simp] theorem Actor.retire_lc (a : Actor) (n : Nat) : (a.retire n).lc = a.lc := rfl
@[simp] theorem Actor.retire_ls (a : Actor) (n : Nat) : (a.retire n).ls = a.ls := rfl
@[simp] theorem Actor.retire_ldep (a : Actor) (n : Nat) : (a.retire n).ldep = a.ldep := rfl
@[simp] theorem Actor.retire_h (a : Actor) (n : Nat) : (a.retire n).h = a.h := rfl
@[simp] theorem Actor.retire_s (a : Actor) (n : Nat) : (a.retire n).s = a.s := rfl
@[simp] theorem Actor.retire_p (a : Actor) (n : Nat) : (a.retire n).p = a.p := rfl
@[simp] theorem Actor.retire_outbox (a : Actor) (n : Nat) : (a.retire n).outbox = a.outbox := rfl
@[simp] theorem Actor.retire_outs (a : Actor) (n : Nat) : (a.retire n).outs = a.outs := rfl
@[simp] theorem Actor.retire_flying (a : Actor) (n : Nat) : (a.retire n).flying = a.flying := rfl
@[simp] theorem Actor.retire_xwalk (a : Actor) (n : Nat) : (a.retire n).xwalk = a.xwalk := rfl
@[simp] theorem Actor.retire_drains (a : Actor) (n : Nat) : (a.retire n).drains = a.drains := rfl
@[simp] theorem Actor.retire_await (a : Actor) (n : Nat) : (a.retire n).await = a.await := rfl
@[simp] theorem Actor.retire_pend (a : Actor) (n : Nat) : (a.retire n).pend = a.pend := rfl
@[simp] theorem Actor.retire_dbg (a : Actor) (n : Nat) : (a.retire n).dbg = a.dbg := rfl
@[simp] theorem Actor.retire_target (a : Actor) (n : Nat) : (a.retire n).target = a.target := rfl
@[simp] theorem Actor.retire_audit (a : Actor) (n : Nat) : (a.retire n).audit = a.audit := rfl
@[simp] theorem Actor.retire_shadow (a : Actor) (n : Nat) : (a.retire n).shadow = a.shadow := rfl
@[simp] theorem Actor.retire_nokick (a : Actor) (n : Nat) : (a.retire n).nokick = a.nokick := rfl
@[simp] theorem Actor.retire_fresh (a : Actor) (n : Nat) : (a.retire n).fresh = a.fresh := rfl
@[simp] theorem Actor.retire_pLatch (a : Actor) (n : Nat) : (a.retire n).pLatch = a.pLatch := rfl
@[simp] theorem Actor.retire_fetching (a : Actor) (n : Nat) : (a.retire n).fetching = a.fetching := rfl
@[simp] theorem Actor.retire_offer (a : Actor) (n : Nat) : (a.retire n).offer = a.offer := rfl
@[simp] theorem Actor.retire_waits (a : Actor) (n : Nat) : (a.retire n).waits = a.waits := rfl
-- Actor.jump
@[simp] theorem Actor.jump_name (a : Actor) (t : Nat) : (a.jump t).name = a.name := rfl
@[simp] theorem Actor.jump_supn (a : Actor) (t : Nat) : (a.jump t).supn = a.supn := rfl
@[simp] theorem Actor.jump_file (a : Actor) (t : Nat) : (a.jump t).file = a.file := rfl
@[simp] theorem Actor.jump_img (a : Actor) (t : Nat) : (a.jump t).img = a.img := rfl
@[simp] theorem Actor.jump_roaming (a : Actor) (t : Nat) : (a.jump t).roaming = a.roaming := rfl
@[simp] theorem Actor.jump_st (a : Actor) (t : Nat) : (a.jump t).st = a.st := rfl
@[simp] theorem Actor.jump_cell (a : Actor) (t : Nat) : (a.jump t).cell = a.cell := rfl
@[simp] theorem Actor.jump_seat (a : Actor) (t : Nat) : (a.jump t).seat = a.seat := rfl
@[simp] theorem Actor.jump_rc (a : Actor) (t : Nat) : (a.jump t).rc = a.rc := rfl
@[simp] theorem Actor.jump_rcell (a : Actor) (t : Nat) : (a.jump t).rcell = a.rcell := rfl
@[simp] theorem Actor.jump_rslot (a : Actor) (t : Nat) : (a.jump t).rslot = a.rslot := rfl
@[simp] theorem Actor.jump_ranAt (a : Actor) (t : Nat) : (a.jump t).ranAt = a.ranAt := rfl
@[simp] theorem Actor.jump_base (a : Actor) (t : Nat) : (a.jump t).base = a.base := rfl
@[simp] theorem Actor.jump_size (a : Actor) (t : Nat) : (a.jump t).size = a.size := rfl
@[simp] theorem Actor.jump_bprio (a : Actor) (t : Nat) : (a.jump t).bprio = a.bprio := rfl
@[simp] theorem Actor.jump_xmask (a : Actor) (t : Nat) : (a.jump t).xmask = a.xmask := rfl
@[simp] theorem Actor.jump_ovf (a : Actor) (t : Nat) : (a.jump t).ovf = a.ovf := rfl
@[simp] theorem Actor.jump_chmask (a : Actor) (t : Nat) : (a.jump t).chmask = a.chmask := rfl
@[simp] theorem Actor.jump_gen (a : Actor) (t : Nat) : (a.jump t).gen = a.gen := rfl
@[simp] theorem Actor.jump_tiles (a : Actor) (t : Nat) : (a.jump t).tiles = a.tiles := rfl
@[simp] theorem Actor.jump_bars (a : Actor) (t : Nat) : (a.jump t).bars = a.bars := rfl
@[simp] theorem Actor.jump_rings (a : Actor) (t : Nat) : (a.jump t).rings = a.rings := rfl
@[simp] theorem Actor.jump_ys (a : Actor) (t : Nat) : (a.jump t).ys = a.ys := rfl
@[simp] theorem Actor.jump_fmts (a : Actor) (t : Nat) : (a.jump t).fmts = a.fmts := rfl
@[simp] theorem Actor.jump_exts (a : Actor) (t : Nat) : (a.jump t).exts = a.exts := rfl
@[simp] theorem Actor.jump_walks (a : Actor) (t : Nat) : (a.jump t).walks = a.walks := rfl
@[simp] theorem Actor.jump_zones (a : Actor) (t : Nat) : (a.jump t).zones = a.zones := rfl
@[simp] theorem Actor.jump_links (a : Actor) (t : Nat) : (a.jump t).links = a.links := rfl
@[simp] theorem Actor.jump_mons (a : Actor) (t : Nat) : (a.jump t).mons = a.mons := rfl
@[simp] theorem Actor.jump_watch (a : Actor) (t : Nat) : (a.jump t).watch = a.watch := rfl
@[simp] theorem Actor.jump_saved (a : Actor) (t : Nat) : (a.jump t).saved = a.saved := rfl
@[simp] theorem Actor.jump_mbox (a : Actor) (t : Nat) : (a.jump t).mbox = a.mbox := rfl
@[simp] theorem Actor.jump_nmail (a : Actor) (t : Nat) : (a.jump t).nmail = a.nmail := rfl
@[simp] theorem Actor.jump_pairs (a : Actor) (t : Nat) : (a.jump t).pairs = a.pairs := rfl
@[simp] theorem Actor.jump_drops (a : Actor) (t : Nat) : (a.jump t).drops = a.drops := rfl
@[simp] theorem Actor.jump_cbp (a : Actor) (t : Nat) : (a.jump t).cbp = a.cbp := rfl
@[simp] theorem Actor.jump_ovfv (a : Actor) (t : Nat) : (a.jump t).ovfv = a.ovfv := rfl
@[simp] theorem Actor.jump_asks (a : Actor) (t : Nat) : (a.jump t).asks = a.asks := rfl
@[simp] theorem Actor.jump_debt (a : Actor) (t : Nat) : (a.jump t).debt = a.debt := rfl
@[simp] theorem Actor.jump_invNo (a : Actor) (t : Nat) : (a.jump t).invNo = a.invNo := rfl
@[simp] theorem Actor.jump_msg (a : Actor) (t : Nat) : (a.jump t).msg = a.msg := rfl
@[simp] theorem Actor.jump_eprio (a : Actor) (t : Nat) : (a.jump t).eprio = a.eprio := rfl
@[simp] theorem Actor.jump_budget (a : Actor) (t : Nat) : (a.jump t).budget = a.budget := rfl
@[simp] theorem Actor.jump_start (a : Actor) (t : Nat) : (a.jump t).start = a.start := rfl
@[simp] theorem Actor.jump_paused (a : Actor) (t : Nat) : (a.jump t).paused = a.paused := rfl
@[simp] theorem Actor.jump_retired (a : Actor) (t : Nat) : (a.jump t).retired = a.retired + 1 := rfl
@[simp] theorem Actor.jump_liveout (a : Actor) (t : Nat) : (a.jump t).liveout = a.liveout := rfl
@[simp] theorem Actor.jump_pc (a : Actor) (t : Nat) : (a.jump t).pc = t := rfl
@[simp] theorem Actor.jump_lc (a : Actor) (t : Nat) : (a.jump t).lc = a.lc := rfl
@[simp] theorem Actor.jump_ls (a : Actor) (t : Nat) : (a.jump t).ls = a.ls := rfl
@[simp] theorem Actor.jump_ldep (a : Actor) (t : Nat) : (a.jump t).ldep = a.ldep := rfl
@[simp] theorem Actor.jump_h (a : Actor) (t : Nat) : (a.jump t).h = a.h := rfl
@[simp] theorem Actor.jump_s (a : Actor) (t : Nat) : (a.jump t).s = a.s := rfl
@[simp] theorem Actor.jump_p (a : Actor) (t : Nat) : (a.jump t).p = a.p := rfl
@[simp] theorem Actor.jump_outbox (a : Actor) (t : Nat) : (a.jump t).outbox = a.outbox := rfl
@[simp] theorem Actor.jump_outs (a : Actor) (t : Nat) : (a.jump t).outs = a.outs := rfl
@[simp] theorem Actor.jump_flying (a : Actor) (t : Nat) : (a.jump t).flying = a.flying := rfl
@[simp] theorem Actor.jump_xwalk (a : Actor) (t : Nat) : (a.jump t).xwalk = a.xwalk := rfl
@[simp] theorem Actor.jump_drains (a : Actor) (t : Nat) : (a.jump t).drains = a.drains := rfl
@[simp] theorem Actor.jump_await (a : Actor) (t : Nat) : (a.jump t).await = a.await := rfl
@[simp] theorem Actor.jump_pend (a : Actor) (t : Nat) : (a.jump t).pend = a.pend := rfl
@[simp] theorem Actor.jump_dbg (a : Actor) (t : Nat) : (a.jump t).dbg = a.dbg := rfl
@[simp] theorem Actor.jump_target (a : Actor) (t : Nat) : (a.jump t).target = a.target := rfl
@[simp] theorem Actor.jump_audit (a : Actor) (t : Nat) : (a.jump t).audit = a.audit := rfl
@[simp] theorem Actor.jump_shadow (a : Actor) (t : Nat) : (a.jump t).shadow = a.shadow := rfl
@[simp] theorem Actor.jump_nokick (a : Actor) (t : Nat) : (a.jump t).nokick = a.nokick := rfl
@[simp] theorem Actor.jump_fresh (a : Actor) (t : Nat) : (a.jump t).fresh = a.fresh := rfl
@[simp] theorem Actor.jump_pLatch (a : Actor) (t : Nat) : (a.jump t).pLatch = a.pLatch := rfl
@[simp] theorem Actor.jump_fetching (a : Actor) (t : Nat) : (a.jump t).fetching = a.fetching := rfl
@[simp] theorem Actor.jump_offer (a : Actor) (t : Nat) : (a.jump t).offer = a.offer := rfl
@[simp] theorem Actor.jump_waits (a : Actor) (t : Nat) : (a.jump t).waits = a.waits := rfl
-- Actor.setS
@[simp] theorem Actor.setS_name (a : Actor) (k : Nat) (e : Ent) : (a.setS k e).name = a.name := rfl
@[simp] theorem Actor.setS_supn (a : Actor) (k : Nat) (e : Ent) : (a.setS k e).supn = a.supn := rfl
@[simp] theorem Actor.setS_file (a : Actor) (k : Nat) (e : Ent) : (a.setS k e).file = a.file := rfl
@[simp] theorem Actor.setS_img (a : Actor) (k : Nat) (e : Ent) : (a.setS k e).img = a.img := rfl
@[simp] theorem Actor.setS_roaming (a : Actor) (k : Nat) (e : Ent) : (a.setS k e).roaming = a.roaming := rfl
@[simp] theorem Actor.setS_st (a : Actor) (k : Nat) (e : Ent) : (a.setS k e).st = a.st := rfl
@[simp] theorem Actor.setS_cell (a : Actor) (k : Nat) (e : Ent) : (a.setS k e).cell = a.cell := rfl
@[simp] theorem Actor.setS_seat (a : Actor) (k : Nat) (e : Ent) : (a.setS k e).seat = a.seat := rfl
@[simp] theorem Actor.setS_rc (a : Actor) (k : Nat) (e : Ent) : (a.setS k e).rc = a.rc := rfl
@[simp] theorem Actor.setS_rcell (a : Actor) (k : Nat) (e : Ent) : (a.setS k e).rcell = a.rcell := rfl
@[simp] theorem Actor.setS_rslot (a : Actor) (k : Nat) (e : Ent) : (a.setS k e).rslot = a.rslot := rfl
@[simp] theorem Actor.setS_ranAt (a : Actor) (k : Nat) (e : Ent) : (a.setS k e).ranAt = a.ranAt := rfl
@[simp] theorem Actor.setS_base (a : Actor) (k : Nat) (e : Ent) : (a.setS k e).base = a.base := rfl
@[simp] theorem Actor.setS_size (a : Actor) (k : Nat) (e : Ent) : (a.setS k e).size = a.size := rfl
@[simp] theorem Actor.setS_bprio (a : Actor) (k : Nat) (e : Ent) : (a.setS k e).bprio = a.bprio := rfl
@[simp] theorem Actor.setS_xmask (a : Actor) (k : Nat) (e : Ent) : (a.setS k e).xmask = a.xmask := rfl
@[simp] theorem Actor.setS_ovf (a : Actor) (k : Nat) (e : Ent) : (a.setS k e).ovf = a.ovf := rfl
@[simp] theorem Actor.setS_chmask (a : Actor) (k : Nat) (e : Ent) : (a.setS k e).chmask = a.chmask := rfl
@[simp] theorem Actor.setS_gen (a : Actor) (k : Nat) (e : Ent) : (a.setS k e).gen = a.gen := rfl
@[simp] theorem Actor.setS_tiles (a : Actor) (k : Nat) (e : Ent) : (a.setS k e).tiles = a.tiles := rfl
@[simp] theorem Actor.setS_bars (a : Actor) (k : Nat) (e : Ent) : (a.setS k e).bars = a.bars := rfl
@[simp] theorem Actor.setS_rings (a : Actor) (k : Nat) (e : Ent) : (a.setS k e).rings = a.rings := rfl
@[simp] theorem Actor.setS_ys (a : Actor) (k : Nat) (e : Ent) : (a.setS k e).ys = a.ys := rfl
@[simp] theorem Actor.setS_fmts (a : Actor) (k : Nat) (e : Ent) : (a.setS k e).fmts = a.fmts := rfl
@[simp] theorem Actor.setS_exts (a : Actor) (k : Nat) (e : Ent) : (a.setS k e).exts = a.exts := rfl
@[simp] theorem Actor.setS_walks (a : Actor) (k : Nat) (e : Ent) : (a.setS k e).walks = a.walks := rfl
@[simp] theorem Actor.setS_zones (a : Actor) (k : Nat) (e : Ent) : (a.setS k e).zones = a.zones := rfl
@[simp] theorem Actor.setS_links (a : Actor) (k : Nat) (e : Ent) : (a.setS k e).links = a.links := rfl
@[simp] theorem Actor.setS_mons (a : Actor) (k : Nat) (e : Ent) : (a.setS k e).mons = a.mons := rfl
@[simp] theorem Actor.setS_watch (a : Actor) (k : Nat) (e : Ent) : (a.setS k e).watch = a.watch := rfl
@[simp] theorem Actor.setS_saved (a : Actor) (k : Nat) (e : Ent) : (a.setS k e).saved = a.saved := rfl
@[simp] theorem Actor.setS_mbox (a : Actor) (k : Nat) (e : Ent) : (a.setS k e).mbox = a.mbox := rfl
@[simp] theorem Actor.setS_nmail (a : Actor) (k : Nat) (e : Ent) : (a.setS k e).nmail = a.nmail := rfl
@[simp] theorem Actor.setS_pairs (a : Actor) (k : Nat) (e : Ent) : (a.setS k e).pairs = a.pairs := rfl
@[simp] theorem Actor.setS_drops (a : Actor) (k : Nat) (e : Ent) : (a.setS k e).drops = a.drops := rfl
@[simp] theorem Actor.setS_cbp (a : Actor) (k : Nat) (e : Ent) : (a.setS k e).cbp = a.cbp := rfl
@[simp] theorem Actor.setS_ovfv (a : Actor) (k : Nat) (e : Ent) : (a.setS k e).ovfv = a.ovfv := rfl
@[simp] theorem Actor.setS_asks (a : Actor) (k : Nat) (e : Ent) : (a.setS k e).asks = a.asks := rfl
@[simp] theorem Actor.setS_debt (a : Actor) (k : Nat) (e : Ent) : (a.setS k e).debt = a.debt := rfl
@[simp] theorem Actor.setS_invNo (a : Actor) (k : Nat) (e : Ent) : (a.setS k e).invNo = a.invNo := rfl
@[simp] theorem Actor.setS_msg (a : Actor) (k : Nat) (e : Ent) : (a.setS k e).msg = a.msg := rfl
@[simp] theorem Actor.setS_eprio (a : Actor) (k : Nat) (e : Ent) : (a.setS k e).eprio = a.eprio := rfl
@[simp] theorem Actor.setS_budget (a : Actor) (k : Nat) (e : Ent) : (a.setS k e).budget = a.budget := rfl
@[simp] theorem Actor.setS_start (a : Actor) (k : Nat) (e : Ent) : (a.setS k e).start = a.start := rfl
@[simp] theorem Actor.setS_paused (a : Actor) (k : Nat) (e : Ent) : (a.setS k e).paused = a.paused := rfl
@[simp] theorem Actor.setS_retired (a : Actor) (k : Nat) (e : Ent) : (a.setS k e).retired = a.retired := rfl
@[simp] theorem Actor.setS_liveout (a : Actor) (k : Nat) (e : Ent) : (a.setS k e).liveout = a.liveout := rfl
@[simp] theorem Actor.setS_pc (a : Actor) (k : Nat) (e : Ent) : (a.setS k e).pc = a.pc := rfl
@[simp] theorem Actor.setS_lc (a : Actor) (k : Nat) (e : Ent) : (a.setS k e).lc = a.lc := rfl
@[simp] theorem Actor.setS_ls (a : Actor) (k : Nat) (e : Ent) : (a.setS k e).ls = a.ls := rfl
@[simp] theorem Actor.setS_ldep (a : Actor) (k : Nat) (e : Ent) : (a.setS k e).ldep = a.ldep := rfl
@[simp] theorem Actor.setS_h (a : Actor) (k : Nat) (e : Ent) : (a.setS k e).h = a.h := rfl
@[simp] theorem Actor.setS_s (a : Actor) (k : Nat) (e : Ent) : (a.setS k e).s = a.s.set k e := rfl
@[simp] theorem Actor.setS_p (a : Actor) (k : Nat) (e : Ent) : (a.setS k e).p = a.p := rfl
@[simp] theorem Actor.setS_outbox (a : Actor) (k : Nat) (e : Ent) : (a.setS k e).outbox = a.outbox := rfl
@[simp] theorem Actor.setS_outs (a : Actor) (k : Nat) (e : Ent) : (a.setS k e).outs = a.outs := rfl
@[simp] theorem Actor.setS_flying (a : Actor) (k : Nat) (e : Ent) : (a.setS k e).flying = a.flying := rfl
@[simp] theorem Actor.setS_xwalk (a : Actor) (k : Nat) (e : Ent) : (a.setS k e).xwalk = a.xwalk := rfl
@[simp] theorem Actor.setS_drains (a : Actor) (k : Nat) (e : Ent) : (a.setS k e).drains = a.drains := rfl
@[simp] theorem Actor.setS_await (a : Actor) (k : Nat) (e : Ent) : (a.setS k e).await = a.await := rfl
@[simp] theorem Actor.setS_pend (a : Actor) (k : Nat) (e : Ent) : (a.setS k e).pend = a.pend := rfl
@[simp] theorem Actor.setS_dbg (a : Actor) (k : Nat) (e : Ent) : (a.setS k e).dbg = a.dbg := rfl
@[simp] theorem Actor.setS_target (a : Actor) (k : Nat) (e : Ent) : (a.setS k e).target = a.target := rfl
@[simp] theorem Actor.setS_audit (a : Actor) (k : Nat) (e : Ent) : (a.setS k e).audit = a.audit := rfl
@[simp] theorem Actor.setS_shadow (a : Actor) (k : Nat) (e : Ent) : (a.setS k e).shadow = a.shadow := rfl
@[simp] theorem Actor.setS_nokick (a : Actor) (k : Nat) (e : Ent) : (a.setS k e).nokick = a.nokick := rfl
@[simp] theorem Actor.setS_fresh (a : Actor) (k : Nat) (e : Ent) : (a.setS k e).fresh = a.fresh := rfl
@[simp] theorem Actor.setS_pLatch (a : Actor) (k : Nat) (e : Ent) : (a.setS k e).pLatch = a.pLatch := rfl
@[simp] theorem Actor.setS_fetching (a : Actor) (k : Nat) (e : Ent) : (a.setS k e).fetching = a.fetching := rfl
@[simp] theorem Actor.setS_offer (a : Actor) (k : Nat) (e : Ent) : (a.setS k e).offer = a.offer := rfl
@[simp] theorem Actor.setS_waits (a : Actor) (k : Nat) (e : Ent) : (a.setS k e).waits = a.waits := rfl
-- Actor.setPred
@[simp] theorem Actor.setPred_name (a : Actor) (k : Fin 8) (v p : Bool) : (a.setPred k v p).name = a.name := rfl
@[simp] theorem Actor.setPred_supn (a : Actor) (k : Fin 8) (v p : Bool) : (a.setPred k v p).supn = a.supn := rfl
@[simp] theorem Actor.setPred_file (a : Actor) (k : Fin 8) (v p : Bool) : (a.setPred k v p).file = a.file := rfl
@[simp] theorem Actor.setPred_img (a : Actor) (k : Fin 8) (v p : Bool) : (a.setPred k v p).img = a.img := rfl
@[simp] theorem Actor.setPred_roaming (a : Actor) (k : Fin 8) (v p : Bool) : (a.setPred k v p).roaming = a.roaming := rfl
@[simp] theorem Actor.setPred_st (a : Actor) (k : Fin 8) (v p : Bool) : (a.setPred k v p).st = a.st := rfl
@[simp] theorem Actor.setPred_cell (a : Actor) (k : Fin 8) (v p : Bool) : (a.setPred k v p).cell = a.cell := rfl
@[simp] theorem Actor.setPred_seat (a : Actor) (k : Fin 8) (v p : Bool) : (a.setPred k v p).seat = a.seat := rfl
@[simp] theorem Actor.setPred_rc (a : Actor) (k : Fin 8) (v p : Bool) : (a.setPred k v p).rc = a.rc := rfl
@[simp] theorem Actor.setPred_rcell (a : Actor) (k : Fin 8) (v p : Bool) : (a.setPred k v p).rcell = a.rcell := rfl
@[simp] theorem Actor.setPred_rslot (a : Actor) (k : Fin 8) (v p : Bool) : (a.setPred k v p).rslot = a.rslot := rfl
@[simp] theorem Actor.setPred_ranAt (a : Actor) (k : Fin 8) (v p : Bool) : (a.setPred k v p).ranAt = a.ranAt := rfl
@[simp] theorem Actor.setPred_base (a : Actor) (k : Fin 8) (v p : Bool) : (a.setPred k v p).base = a.base := rfl
@[simp] theorem Actor.setPred_size (a : Actor) (k : Fin 8) (v p : Bool) : (a.setPred k v p).size = a.size := rfl
@[simp] theorem Actor.setPred_bprio (a : Actor) (k : Fin 8) (v p : Bool) : (a.setPred k v p).bprio = a.bprio := rfl
@[simp] theorem Actor.setPred_xmask (a : Actor) (k : Fin 8) (v p : Bool) : (a.setPred k v p).xmask = a.xmask := rfl
@[simp] theorem Actor.setPred_ovf (a : Actor) (k : Fin 8) (v p : Bool) : (a.setPred k v p).ovf = a.ovf := rfl
@[simp] theorem Actor.setPred_chmask (a : Actor) (k : Fin 8) (v p : Bool) : (a.setPred k v p).chmask = a.chmask := rfl
@[simp] theorem Actor.setPred_gen (a : Actor) (k : Fin 8) (v p : Bool) : (a.setPred k v p).gen = a.gen := rfl
@[simp] theorem Actor.setPred_tiles (a : Actor) (k : Fin 8) (v p : Bool) : (a.setPred k v p).tiles = a.tiles := rfl
@[simp] theorem Actor.setPred_bars (a : Actor) (k : Fin 8) (v p : Bool) : (a.setPred k v p).bars = a.bars := rfl
@[simp] theorem Actor.setPred_rings (a : Actor) (k : Fin 8) (v p : Bool) : (a.setPred k v p).rings = a.rings := rfl
@[simp] theorem Actor.setPred_ys (a : Actor) (k : Fin 8) (v p : Bool) : (a.setPred k v p).ys = a.ys := rfl
@[simp] theorem Actor.setPred_fmts (a : Actor) (k : Fin 8) (v p : Bool) : (a.setPred k v p).fmts = a.fmts := rfl
@[simp] theorem Actor.setPred_exts (a : Actor) (k : Fin 8) (v p : Bool) : (a.setPred k v p).exts = a.exts := rfl
@[simp] theorem Actor.setPred_walks (a : Actor) (k : Fin 8) (v p : Bool) : (a.setPred k v p).walks = a.walks := rfl
@[simp] theorem Actor.setPred_zones (a : Actor) (k : Fin 8) (v p : Bool) : (a.setPred k v p).zones = a.zones := rfl
@[simp] theorem Actor.setPred_links (a : Actor) (k : Fin 8) (v p : Bool) : (a.setPred k v p).links = a.links := rfl
@[simp] theorem Actor.setPred_mons (a : Actor) (k : Fin 8) (v p : Bool) : (a.setPred k v p).mons = a.mons := rfl
@[simp] theorem Actor.setPred_watch (a : Actor) (k : Fin 8) (v p : Bool) : (a.setPred k v p).watch = a.watch := rfl
@[simp] theorem Actor.setPred_saved (a : Actor) (k : Fin 8) (v p : Bool) : (a.setPred k v p).saved = a.saved := rfl
@[simp] theorem Actor.setPred_mbox (a : Actor) (k : Fin 8) (v p : Bool) : (a.setPred k v p).mbox = a.mbox := rfl
@[simp] theorem Actor.setPred_nmail (a : Actor) (k : Fin 8) (v p : Bool) : (a.setPred k v p).nmail = a.nmail := rfl
@[simp] theorem Actor.setPred_pairs (a : Actor) (k : Fin 8) (v p : Bool) : (a.setPred k v p).pairs = a.pairs := rfl
@[simp] theorem Actor.setPred_drops (a : Actor) (k : Fin 8) (v p : Bool) : (a.setPred k v p).drops = a.drops := rfl
@[simp] theorem Actor.setPred_cbp (a : Actor) (k : Fin 8) (v p : Bool) : (a.setPred k v p).cbp = a.cbp := rfl
@[simp] theorem Actor.setPred_ovfv (a : Actor) (k : Fin 8) (v p : Bool) : (a.setPred k v p).ovfv = a.ovfv := rfl
@[simp] theorem Actor.setPred_asks (a : Actor) (k : Fin 8) (v p : Bool) : (a.setPred k v p).asks = a.asks := rfl
@[simp] theorem Actor.setPred_debt (a : Actor) (k : Fin 8) (v p : Bool) : (a.setPred k v p).debt = a.debt := rfl
@[simp] theorem Actor.setPred_invNo (a : Actor) (k : Fin 8) (v p : Bool) : (a.setPred k v p).invNo = a.invNo := rfl
@[simp] theorem Actor.setPred_msg (a : Actor) (k : Fin 8) (v p : Bool) : (a.setPred k v p).msg = a.msg := rfl
@[simp] theorem Actor.setPred_eprio (a : Actor) (k : Fin 8) (v p : Bool) : (a.setPred k v p).eprio = a.eprio := rfl
@[simp] theorem Actor.setPred_budget (a : Actor) (k : Fin 8) (v p : Bool) : (a.setPred k v p).budget = a.budget := rfl
@[simp] theorem Actor.setPred_start (a : Actor) (k : Fin 8) (v p : Bool) : (a.setPred k v p).start = a.start := rfl
@[simp] theorem Actor.setPred_paused (a : Actor) (k : Fin 8) (v p : Bool) : (a.setPred k v p).paused = a.paused := rfl
@[simp] theorem Actor.setPred_retired (a : Actor) (k : Fin 8) (v p : Bool) : (a.setPred k v p).retired = a.retired := rfl
@[simp] theorem Actor.setPred_liveout (a : Actor) (k : Fin 8) (v p : Bool) : (a.setPred k v p).liveout = a.liveout := rfl
@[simp] theorem Actor.setPred_pc (a : Actor) (k : Fin 8) (v p : Bool) : (a.setPred k v p).pc = a.pc := rfl
@[simp] theorem Actor.setPred_lc (a : Actor) (k : Fin 8) (v p : Bool) : (a.setPred k v p).lc = a.lc := rfl
@[simp] theorem Actor.setPred_ls (a : Actor) (k : Fin 8) (v p : Bool) : (a.setPred k v p).ls = a.ls := rfl
@[simp] theorem Actor.setPred_ldep (a : Actor) (k : Fin 8) (v p : Bool) : (a.setPred k v p).ldep = a.ldep := rfl
@[simp] theorem Actor.setPred_h (a : Actor) (k : Fin 8) (v p : Bool) : (a.setPred k v p).h = a.h := rfl
@[simp] theorem Actor.setPred_s (a : Actor) (k : Fin 8) (v p : Bool) : (a.setPred k v p).s = a.s := rfl
@[simp] theorem Actor.setPred_p (a : Actor) (k : Fin 8) (v p : Bool) : (a.setPred k v p).p = a.p.set k.val (v, p) := rfl
@[simp] theorem Actor.setPred_outbox (a : Actor) (k : Fin 8) (v p : Bool) : (a.setPred k v p).outbox = a.outbox := rfl
@[simp] theorem Actor.setPred_outs (a : Actor) (k : Fin 8) (v p : Bool) : (a.setPred k v p).outs = a.outs := rfl
@[simp] theorem Actor.setPred_flying (a : Actor) (k : Fin 8) (v p : Bool) : (a.setPred k v p).flying = a.flying := rfl
@[simp] theorem Actor.setPred_xwalk (a : Actor) (k : Fin 8) (v p : Bool) : (a.setPred k v p).xwalk = a.xwalk := rfl
@[simp] theorem Actor.setPred_drains (a : Actor) (k : Fin 8) (v p : Bool) : (a.setPred k v p).drains = a.drains := rfl
@[simp] theorem Actor.setPred_await (a : Actor) (k : Fin 8) (v p : Bool) : (a.setPred k v p).await = a.await := rfl
@[simp] theorem Actor.setPred_pend (a : Actor) (k : Fin 8) (v p : Bool) : (a.setPred k v p).pend = a.pend := rfl
@[simp] theorem Actor.setPred_dbg (a : Actor) (k : Fin 8) (v p : Bool) : (a.setPred k v p).dbg = a.dbg := rfl
@[simp] theorem Actor.setPred_target (a : Actor) (k : Fin 8) (v p : Bool) : (a.setPred k v p).target = a.target := rfl
@[simp] theorem Actor.setPred_audit (a : Actor) (k : Fin 8) (v p : Bool) : (a.setPred k v p).audit = a.audit := rfl
@[simp] theorem Actor.setPred_shadow (a : Actor) (k : Fin 8) (v p : Bool) : (a.setPred k v p).shadow = a.shadow := rfl
@[simp] theorem Actor.setPred_nokick (a : Actor) (k : Fin 8) (v p : Bool) : (a.setPred k v p).nokick = a.nokick := rfl
@[simp] theorem Actor.setPred_fresh (a : Actor) (k : Fin 8) (v p : Bool) : (a.setPred k v p).fresh = a.fresh := rfl
@[simp] theorem Actor.setPred_pLatch (a : Actor) (k : Fin 8) (v p : Bool) : (a.setPred k v p).pLatch = a.pLatch := rfl
@[simp] theorem Actor.setPred_fetching (a : Actor) (k : Fin 8) (v p : Bool) : (a.setPred k v p).fetching = a.fetching := rfl
@[simp] theorem Actor.setPred_offer (a : Actor) (k : Fin 8) (v p : Bool) : (a.setPred k v p).offer = a.offer := rfl
@[simp] theorem Actor.setPred_waits (a : Actor) (k : Fin 8) (v p : Bool) : (a.setPred k v p).waits = a.waits := rfl
-- Actor.addOut
@[simp] theorem Actor.addOut_name (a : Actor) (o : OutOp) : (a.addOut o).name = a.name := rfl
@[simp] theorem Actor.addOut_supn (a : Actor) (o : OutOp) : (a.addOut o).supn = a.supn := rfl
@[simp] theorem Actor.addOut_file (a : Actor) (o : OutOp) : (a.addOut o).file = a.file := rfl
@[simp] theorem Actor.addOut_img (a : Actor) (o : OutOp) : (a.addOut o).img = a.img := rfl
@[simp] theorem Actor.addOut_roaming (a : Actor) (o : OutOp) : (a.addOut o).roaming = a.roaming := rfl
@[simp] theorem Actor.addOut_st (a : Actor) (o : OutOp) : (a.addOut o).st = a.st := rfl
@[simp] theorem Actor.addOut_cell (a : Actor) (o : OutOp) : (a.addOut o).cell = a.cell := rfl
@[simp] theorem Actor.addOut_seat (a : Actor) (o : OutOp) : (a.addOut o).seat = a.seat := rfl
@[simp] theorem Actor.addOut_rc (a : Actor) (o : OutOp) : (a.addOut o).rc = a.rc := rfl
@[simp] theorem Actor.addOut_rcell (a : Actor) (o : OutOp) : (a.addOut o).rcell = a.rcell := rfl
@[simp] theorem Actor.addOut_rslot (a : Actor) (o : OutOp) : (a.addOut o).rslot = a.rslot := rfl
@[simp] theorem Actor.addOut_ranAt (a : Actor) (o : OutOp) : (a.addOut o).ranAt = a.ranAt := rfl
@[simp] theorem Actor.addOut_base (a : Actor) (o : OutOp) : (a.addOut o).base = a.base := rfl
@[simp] theorem Actor.addOut_size (a : Actor) (o : OutOp) : (a.addOut o).size = a.size := rfl
@[simp] theorem Actor.addOut_bprio (a : Actor) (o : OutOp) : (a.addOut o).bprio = a.bprio := rfl
@[simp] theorem Actor.addOut_xmask (a : Actor) (o : OutOp) : (a.addOut o).xmask = a.xmask := rfl
@[simp] theorem Actor.addOut_ovf (a : Actor) (o : OutOp) : (a.addOut o).ovf = a.ovf := rfl
@[simp] theorem Actor.addOut_chmask (a : Actor) (o : OutOp) : (a.addOut o).chmask = a.chmask := rfl
@[simp] theorem Actor.addOut_gen (a : Actor) (o : OutOp) : (a.addOut o).gen = a.gen := rfl
@[simp] theorem Actor.addOut_tiles (a : Actor) (o : OutOp) : (a.addOut o).tiles = a.tiles := rfl
@[simp] theorem Actor.addOut_bars (a : Actor) (o : OutOp) : (a.addOut o).bars = a.bars := rfl
@[simp] theorem Actor.addOut_rings (a : Actor) (o : OutOp) : (a.addOut o).rings = a.rings := rfl
@[simp] theorem Actor.addOut_ys (a : Actor) (o : OutOp) : (a.addOut o).ys = a.ys := rfl
@[simp] theorem Actor.addOut_fmts (a : Actor) (o : OutOp) : (a.addOut o).fmts = a.fmts := rfl
@[simp] theorem Actor.addOut_exts (a : Actor) (o : OutOp) : (a.addOut o).exts = a.exts := rfl
@[simp] theorem Actor.addOut_walks (a : Actor) (o : OutOp) : (a.addOut o).walks = a.walks := rfl
@[simp] theorem Actor.addOut_zones (a : Actor) (o : OutOp) : (a.addOut o).zones = a.zones := rfl
@[simp] theorem Actor.addOut_links (a : Actor) (o : OutOp) : (a.addOut o).links = a.links := rfl
@[simp] theorem Actor.addOut_mons (a : Actor) (o : OutOp) : (a.addOut o).mons = a.mons := rfl
@[simp] theorem Actor.addOut_watch (a : Actor) (o : OutOp) : (a.addOut o).watch = a.watch := rfl
@[simp] theorem Actor.addOut_saved (a : Actor) (o : OutOp) : (a.addOut o).saved = a.saved := rfl
@[simp] theorem Actor.addOut_mbox (a : Actor) (o : OutOp) : (a.addOut o).mbox = a.mbox := rfl
@[simp] theorem Actor.addOut_nmail (a : Actor) (o : OutOp) : (a.addOut o).nmail = a.nmail := rfl
@[simp] theorem Actor.addOut_pairs (a : Actor) (o : OutOp) : (a.addOut o).pairs = a.pairs := rfl
@[simp] theorem Actor.addOut_drops (a : Actor) (o : OutOp) : (a.addOut o).drops = a.drops := rfl
@[simp] theorem Actor.addOut_cbp (a : Actor) (o : OutOp) : (a.addOut o).cbp = a.cbp := rfl
@[simp] theorem Actor.addOut_ovfv (a : Actor) (o : OutOp) : (a.addOut o).ovfv = a.ovfv := rfl
@[simp] theorem Actor.addOut_asks (a : Actor) (o : OutOp) : (a.addOut o).asks = a.asks := rfl
@[simp] theorem Actor.addOut_debt (a : Actor) (o : OutOp) : (a.addOut o).debt = a.debt := rfl
@[simp] theorem Actor.addOut_invNo (a : Actor) (o : OutOp) : (a.addOut o).invNo = a.invNo := rfl
@[simp] theorem Actor.addOut_msg (a : Actor) (o : OutOp) : (a.addOut o).msg = a.msg := rfl
@[simp] theorem Actor.addOut_eprio (a : Actor) (o : OutOp) : (a.addOut o).eprio = a.eprio := rfl
@[simp] theorem Actor.addOut_budget (a : Actor) (o : OutOp) : (a.addOut o).budget = a.budget := rfl
@[simp] theorem Actor.addOut_start (a : Actor) (o : OutOp) : (a.addOut o).start = a.start := rfl
@[simp] theorem Actor.addOut_paused (a : Actor) (o : OutOp) : (a.addOut o).paused = a.paused := rfl
@[simp] theorem Actor.addOut_retired (a : Actor) (o : OutOp) : (a.addOut o).retired = a.retired := rfl
@[simp] theorem Actor.addOut_liveout (a : Actor) (o : OutOp) : (a.addOut o).liveout = a.liveout := rfl
@[simp] theorem Actor.addOut_pc (a : Actor) (o : OutOp) : (a.addOut o).pc = a.pc := rfl
@[simp] theorem Actor.addOut_lc (a : Actor) (o : OutOp) : (a.addOut o).lc = a.lc := rfl
@[simp] theorem Actor.addOut_ls (a : Actor) (o : OutOp) : (a.addOut o).ls = a.ls := rfl
@[simp] theorem Actor.addOut_ldep (a : Actor) (o : OutOp) : (a.addOut o).ldep = a.ldep := rfl
@[simp] theorem Actor.addOut_h (a : Actor) (o : OutOp) : (a.addOut o).h = a.h := rfl
@[simp] theorem Actor.addOut_s (a : Actor) (o : OutOp) : (a.addOut o).s = a.s := rfl
@[simp] theorem Actor.addOut_p (a : Actor) (o : OutOp) : (a.addOut o).p = a.p := rfl
@[simp] theorem Actor.addOut_outbox (a : Actor) (o : OutOp) : (a.addOut o).outbox = a.outbox := rfl
@[simp] theorem Actor.addOut_outs (a : Actor) (o : OutOp) : (a.addOut o).outs = a.outs ++ [{ o with inv := a.invNo }] := rfl
@[simp] theorem Actor.addOut_flying (a : Actor) (o : OutOp) : (a.addOut o).flying = a.flying := rfl
@[simp] theorem Actor.addOut_xwalk (a : Actor) (o : OutOp) : (a.addOut o).xwalk = a.xwalk := rfl
@[simp] theorem Actor.addOut_drains (a : Actor) (o : OutOp) : (a.addOut o).drains = a.drains := rfl
@[simp] theorem Actor.addOut_await (a : Actor) (o : OutOp) : (a.addOut o).await = a.await := rfl
@[simp] theorem Actor.addOut_pend (a : Actor) (o : OutOp) : (a.addOut o).pend = a.pend := rfl
@[simp] theorem Actor.addOut_dbg (a : Actor) (o : OutOp) : (a.addOut o).dbg = a.dbg := rfl
@[simp] theorem Actor.addOut_target (a : Actor) (o : OutOp) : (a.addOut o).target = a.target := rfl
@[simp] theorem Actor.addOut_audit (a : Actor) (o : OutOp) : (a.addOut o).audit = a.audit := rfl
@[simp] theorem Actor.addOut_shadow (a : Actor) (o : OutOp) : (a.addOut o).shadow = a.shadow := rfl
@[simp] theorem Actor.addOut_nokick (a : Actor) (o : OutOp) : (a.addOut o).nokick = a.nokick := rfl
@[simp] theorem Actor.addOut_fresh (a : Actor) (o : OutOp) : (a.addOut o).fresh = a.fresh := rfl
@[simp] theorem Actor.addOut_pLatch (a : Actor) (o : OutOp) : (a.addOut o).pLatch = a.pLatch := rfl
@[simp] theorem Actor.addOut_fetching (a : Actor) (o : OutOp) : (a.addOut o).fetching = a.fetching := rfl
@[simp] theorem Actor.addOut_offer (a : Actor) (o : OutOp) : (a.addOut o).offer = a.offer := rfl
@[simp] theorem Actor.addOut_waits (a : Actor) (o : OutOp) : (a.addOut o).waits = a.waits := rfl
-- Actor.dropOut
@[simp] theorem Actor.dropOut_name (a : Actor) (id : Nat) : (a.dropOut id).name = a.name := rfl
@[simp] theorem Actor.dropOut_supn (a : Actor) (id : Nat) : (a.dropOut id).supn = a.supn := rfl
@[simp] theorem Actor.dropOut_file (a : Actor) (id : Nat) : (a.dropOut id).file = a.file := rfl
@[simp] theorem Actor.dropOut_img (a : Actor) (id : Nat) : (a.dropOut id).img = a.img := rfl
@[simp] theorem Actor.dropOut_roaming (a : Actor) (id : Nat) : (a.dropOut id).roaming = a.roaming := rfl
@[simp] theorem Actor.dropOut_st (a : Actor) (id : Nat) : (a.dropOut id).st = a.st := rfl
@[simp] theorem Actor.dropOut_cell (a : Actor) (id : Nat) : (a.dropOut id).cell = a.cell := rfl
@[simp] theorem Actor.dropOut_seat (a : Actor) (id : Nat) : (a.dropOut id).seat = a.seat := rfl
@[simp] theorem Actor.dropOut_rc (a : Actor) (id : Nat) : (a.dropOut id).rc = a.rc := rfl
@[simp] theorem Actor.dropOut_rcell (a : Actor) (id : Nat) : (a.dropOut id).rcell = a.rcell := rfl
@[simp] theorem Actor.dropOut_rslot (a : Actor) (id : Nat) : (a.dropOut id).rslot = a.rslot := rfl
@[simp] theorem Actor.dropOut_ranAt (a : Actor) (id : Nat) : (a.dropOut id).ranAt = a.ranAt := rfl
@[simp] theorem Actor.dropOut_base (a : Actor) (id : Nat) : (a.dropOut id).base = a.base := rfl
@[simp] theorem Actor.dropOut_size (a : Actor) (id : Nat) : (a.dropOut id).size = a.size := rfl
@[simp] theorem Actor.dropOut_bprio (a : Actor) (id : Nat) : (a.dropOut id).bprio = a.bprio := rfl
@[simp] theorem Actor.dropOut_xmask (a : Actor) (id : Nat) : (a.dropOut id).xmask = a.xmask := rfl
@[simp] theorem Actor.dropOut_ovf (a : Actor) (id : Nat) : (a.dropOut id).ovf = a.ovf := rfl
@[simp] theorem Actor.dropOut_chmask (a : Actor) (id : Nat) : (a.dropOut id).chmask = a.chmask := rfl
@[simp] theorem Actor.dropOut_gen (a : Actor) (id : Nat) : (a.dropOut id).gen = a.gen := rfl
@[simp] theorem Actor.dropOut_tiles (a : Actor) (id : Nat) : (a.dropOut id).tiles = a.tiles := rfl
@[simp] theorem Actor.dropOut_bars (a : Actor) (id : Nat) : (a.dropOut id).bars = a.bars := rfl
@[simp] theorem Actor.dropOut_rings (a : Actor) (id : Nat) : (a.dropOut id).rings = a.rings := rfl
@[simp] theorem Actor.dropOut_ys (a : Actor) (id : Nat) : (a.dropOut id).ys = a.ys := rfl
@[simp] theorem Actor.dropOut_fmts (a : Actor) (id : Nat) : (a.dropOut id).fmts = a.fmts := rfl
@[simp] theorem Actor.dropOut_exts (a : Actor) (id : Nat) : (a.dropOut id).exts = a.exts := rfl
@[simp] theorem Actor.dropOut_walks (a : Actor) (id : Nat) : (a.dropOut id).walks = a.walks := rfl
@[simp] theorem Actor.dropOut_zones (a : Actor) (id : Nat) : (a.dropOut id).zones = a.zones := rfl
@[simp] theorem Actor.dropOut_links (a : Actor) (id : Nat) : (a.dropOut id).links = a.links := rfl
@[simp] theorem Actor.dropOut_mons (a : Actor) (id : Nat) : (a.dropOut id).mons = a.mons := rfl
@[simp] theorem Actor.dropOut_watch (a : Actor) (id : Nat) : (a.dropOut id).watch = a.watch := rfl
@[simp] theorem Actor.dropOut_saved (a : Actor) (id : Nat) : (a.dropOut id).saved = a.saved := rfl
@[simp] theorem Actor.dropOut_mbox (a : Actor) (id : Nat) : (a.dropOut id).mbox = a.mbox := rfl
@[simp] theorem Actor.dropOut_nmail (a : Actor) (id : Nat) : (a.dropOut id).nmail = a.nmail := rfl
@[simp] theorem Actor.dropOut_pairs (a : Actor) (id : Nat) : (a.dropOut id).pairs = a.pairs := rfl
@[simp] theorem Actor.dropOut_drops (a : Actor) (id : Nat) : (a.dropOut id).drops = a.drops := rfl
@[simp] theorem Actor.dropOut_cbp (a : Actor) (id : Nat) : (a.dropOut id).cbp = a.cbp := rfl
@[simp] theorem Actor.dropOut_ovfv (a : Actor) (id : Nat) : (a.dropOut id).ovfv = a.ovfv := rfl
@[simp] theorem Actor.dropOut_asks (a : Actor) (id : Nat) : (a.dropOut id).asks = a.asks := rfl
@[simp] theorem Actor.dropOut_debt (a : Actor) (id : Nat) : (a.dropOut id).debt = a.debt := rfl
@[simp] theorem Actor.dropOut_invNo (a : Actor) (id : Nat) : (a.dropOut id).invNo = a.invNo := rfl
@[simp] theorem Actor.dropOut_msg (a : Actor) (id : Nat) : (a.dropOut id).msg = a.msg := rfl
@[simp] theorem Actor.dropOut_eprio (a : Actor) (id : Nat) : (a.dropOut id).eprio = a.eprio := rfl
@[simp] theorem Actor.dropOut_budget (a : Actor) (id : Nat) : (a.dropOut id).budget = a.budget := rfl
@[simp] theorem Actor.dropOut_start (a : Actor) (id : Nat) : (a.dropOut id).start = a.start := rfl
@[simp] theorem Actor.dropOut_paused (a : Actor) (id : Nat) : (a.dropOut id).paused = a.paused := rfl
@[simp] theorem Actor.dropOut_retired (a : Actor) (id : Nat) : (a.dropOut id).retired = a.retired := rfl
@[simp] theorem Actor.dropOut_liveout (a : Actor) (id : Nat) : (a.dropOut id).liveout = a.liveout := rfl
@[simp] theorem Actor.dropOut_pc (a : Actor) (id : Nat) : (a.dropOut id).pc = a.pc := rfl
@[simp] theorem Actor.dropOut_lc (a : Actor) (id : Nat) : (a.dropOut id).lc = a.lc := rfl
@[simp] theorem Actor.dropOut_ls (a : Actor) (id : Nat) : (a.dropOut id).ls = a.ls := rfl
@[simp] theorem Actor.dropOut_ldep (a : Actor) (id : Nat) : (a.dropOut id).ldep = a.ldep := rfl
@[simp] theorem Actor.dropOut_h (a : Actor) (id : Nat) : (a.dropOut id).h = a.h := rfl
@[simp] theorem Actor.dropOut_s (a : Actor) (id : Nat) : (a.dropOut id).s = a.s := rfl
@[simp] theorem Actor.dropOut_p (a : Actor) (id : Nat) : (a.dropOut id).p = a.p := rfl
@[simp] theorem Actor.dropOut_outbox (a : Actor) (id : Nat) : (a.dropOut id).outbox = a.outbox := rfl
@[simp] theorem Actor.dropOut_outs (a : Actor) (id : Nat) : (a.dropOut id).outs = a.outs.filter fun o => o.id != id := rfl
@[simp] theorem Actor.dropOut_flying (a : Actor) (id : Nat) : (a.dropOut id).flying = a.flying := rfl
@[simp] theorem Actor.dropOut_xwalk (a : Actor) (id : Nat) : (a.dropOut id).xwalk = a.xwalk := rfl
@[simp] theorem Actor.dropOut_drains (a : Actor) (id : Nat) : (a.dropOut id).drains = a.drains := rfl
@[simp] theorem Actor.dropOut_await (a : Actor) (id : Nat) : (a.dropOut id).await = a.await := rfl
@[simp] theorem Actor.dropOut_pend (a : Actor) (id : Nat) : (a.dropOut id).pend = a.pend := rfl
@[simp] theorem Actor.dropOut_dbg (a : Actor) (id : Nat) : (a.dropOut id).dbg = a.dbg := rfl
@[simp] theorem Actor.dropOut_target (a : Actor) (id : Nat) : (a.dropOut id).target = a.target := rfl
@[simp] theorem Actor.dropOut_audit (a : Actor) (id : Nat) : (a.dropOut id).audit = a.audit := rfl
@[simp] theorem Actor.dropOut_shadow (a : Actor) (id : Nat) : (a.dropOut id).shadow = a.shadow := rfl
@[simp] theorem Actor.dropOut_nokick (a : Actor) (id : Nat) : (a.dropOut id).nokick = a.nokick := rfl
@[simp] theorem Actor.dropOut_fresh (a : Actor) (id : Nat) : (a.dropOut id).fresh = a.fresh := rfl
@[simp] theorem Actor.dropOut_pLatch (a : Actor) (id : Nat) : (a.dropOut id).pLatch = a.pLatch := rfl
@[simp] theorem Actor.dropOut_fetching (a : Actor) (id : Nat) : (a.dropOut id).fetching = a.fetching := rfl
@[simp] theorem Actor.dropOut_offer (a : Actor) (id : Nat) : (a.dropOut id).offer = a.offer := rfl
@[simp] theorem Actor.dropOut_waits (a : Actor) (id : Nat) : (a.dropOut id).waits = a.waits := rfl
-- Actor.fill
@[simp] theorem Actor.fill_name (a : Actor) (tok : Nat) (v : W64) (p : Bool) : (a.fill tok v p).name = a.name := rfl
@[simp] theorem Actor.fill_supn (a : Actor) (tok : Nat) (v : W64) (p : Bool) : (a.fill tok v p).supn = a.supn := rfl
@[simp] theorem Actor.fill_file (a : Actor) (tok : Nat) (v : W64) (p : Bool) : (a.fill tok v p).file = a.file := rfl
@[simp] theorem Actor.fill_img (a : Actor) (tok : Nat) (v : W64) (p : Bool) : (a.fill tok v p).img = a.img := rfl
@[simp] theorem Actor.fill_roaming (a : Actor) (tok : Nat) (v : W64) (p : Bool) : (a.fill tok v p).roaming = a.roaming := rfl
@[simp] theorem Actor.fill_st (a : Actor) (tok : Nat) (v : W64) (p : Bool) : (a.fill tok v p).st = a.st := rfl
@[simp] theorem Actor.fill_cell (a : Actor) (tok : Nat) (v : W64) (p : Bool) : (a.fill tok v p).cell = a.cell := rfl
@[simp] theorem Actor.fill_seat (a : Actor) (tok : Nat) (v : W64) (p : Bool) : (a.fill tok v p).seat = a.seat := rfl
@[simp] theorem Actor.fill_rc (a : Actor) (tok : Nat) (v : W64) (p : Bool) : (a.fill tok v p).rc = a.rc := rfl
@[simp] theorem Actor.fill_rcell (a : Actor) (tok : Nat) (v : W64) (p : Bool) : (a.fill tok v p).rcell = a.rcell := rfl
@[simp] theorem Actor.fill_rslot (a : Actor) (tok : Nat) (v : W64) (p : Bool) : (a.fill tok v p).rslot = a.rslot := rfl
@[simp] theorem Actor.fill_ranAt (a : Actor) (tok : Nat) (v : W64) (p : Bool) : (a.fill tok v p).ranAt = a.ranAt := rfl
@[simp] theorem Actor.fill_base (a : Actor) (tok : Nat) (v : W64) (p : Bool) : (a.fill tok v p).base = a.base := rfl
@[simp] theorem Actor.fill_size (a : Actor) (tok : Nat) (v : W64) (p : Bool) : (a.fill tok v p).size = a.size := rfl
@[simp] theorem Actor.fill_bprio (a : Actor) (tok : Nat) (v : W64) (p : Bool) : (a.fill tok v p).bprio = a.bprio := rfl
@[simp] theorem Actor.fill_xmask (a : Actor) (tok : Nat) (v : W64) (p : Bool) : (a.fill tok v p).xmask = a.xmask := rfl
@[simp] theorem Actor.fill_ovf (a : Actor) (tok : Nat) (v : W64) (p : Bool) : (a.fill tok v p).ovf = a.ovf := rfl
@[simp] theorem Actor.fill_chmask (a : Actor) (tok : Nat) (v : W64) (p : Bool) : (a.fill tok v p).chmask = a.chmask := rfl
@[simp] theorem Actor.fill_gen (a : Actor) (tok : Nat) (v : W64) (p : Bool) : (a.fill tok v p).gen = a.gen := rfl
@[simp] theorem Actor.fill_tiles (a : Actor) (tok : Nat) (v : W64) (p : Bool) : (a.fill tok v p).tiles = a.tiles := rfl
@[simp] theorem Actor.fill_bars (a : Actor) (tok : Nat) (v : W64) (p : Bool) : (a.fill tok v p).bars = a.bars := rfl
@[simp] theorem Actor.fill_rings (a : Actor) (tok : Nat) (v : W64) (p : Bool) : (a.fill tok v p).rings = a.rings := rfl
@[simp] theorem Actor.fill_ys (a : Actor) (tok : Nat) (v : W64) (p : Bool) : (a.fill tok v p).ys = a.ys := rfl
@[simp] theorem Actor.fill_fmts (a : Actor) (tok : Nat) (v : W64) (p : Bool) : (a.fill tok v p).fmts = a.fmts := rfl
@[simp] theorem Actor.fill_exts (a : Actor) (tok : Nat) (v : W64) (p : Bool) : (a.fill tok v p).exts = a.exts := rfl
@[simp] theorem Actor.fill_walks (a : Actor) (tok : Nat) (v : W64) (p : Bool) : (a.fill tok v p).walks = a.walks := rfl
@[simp] theorem Actor.fill_zones (a : Actor) (tok : Nat) (v : W64) (p : Bool) : (a.fill tok v p).zones = a.zones := rfl
@[simp] theorem Actor.fill_links (a : Actor) (tok : Nat) (v : W64) (p : Bool) : (a.fill tok v p).links = a.links := rfl
@[simp] theorem Actor.fill_mons (a : Actor) (tok : Nat) (v : W64) (p : Bool) : (a.fill tok v p).mons = a.mons := rfl
@[simp] theorem Actor.fill_watch (a : Actor) (tok : Nat) (v : W64) (p : Bool) : (a.fill tok v p).watch = a.watch := rfl
@[simp] theorem Actor.fill_saved (a : Actor) (tok : Nat) (v : W64) (p : Bool) : (a.fill tok v p).saved = a.saved := rfl
@[simp] theorem Actor.fill_mbox (a : Actor) (tok : Nat) (v : W64) (p : Bool) : (a.fill tok v p).mbox = a.mbox := rfl
@[simp] theorem Actor.fill_nmail (a : Actor) (tok : Nat) (v : W64) (p : Bool) : (a.fill tok v p).nmail = a.nmail := rfl
@[simp] theorem Actor.fill_pairs (a : Actor) (tok : Nat) (v : W64) (p : Bool) : (a.fill tok v p).pairs = a.pairs := rfl
@[simp] theorem Actor.fill_drops (a : Actor) (tok : Nat) (v : W64) (p : Bool) : (a.fill tok v p).drops = a.drops := rfl
@[simp] theorem Actor.fill_cbp (a : Actor) (tok : Nat) (v : W64) (p : Bool) : (a.fill tok v p).cbp = a.cbp := rfl
@[simp] theorem Actor.fill_ovfv (a : Actor) (tok : Nat) (v : W64) (p : Bool) : (a.fill tok v p).ovfv = a.ovfv := rfl
@[simp] theorem Actor.fill_asks (a : Actor) (tok : Nat) (v : W64) (p : Bool) : (a.fill tok v p).asks = a.asks := rfl
@[simp] theorem Actor.fill_debt (a : Actor) (tok : Nat) (v : W64) (p : Bool) : (a.fill tok v p).debt = a.debt := rfl
@[simp] theorem Actor.fill_invNo (a : Actor) (tok : Nat) (v : W64) (p : Bool) : (a.fill tok v p).invNo = a.invNo := rfl
@[simp] theorem Actor.fill_msg (a : Actor) (tok : Nat) (v : W64) (p : Bool) : (a.fill tok v p).msg = a.msg := rfl
@[simp] theorem Actor.fill_eprio (a : Actor) (tok : Nat) (v : W64) (p : Bool) : (a.fill tok v p).eprio = a.eprio := rfl
@[simp] theorem Actor.fill_budget (a : Actor) (tok : Nat) (v : W64) (p : Bool) : (a.fill tok v p).budget = a.budget := rfl
@[simp] theorem Actor.fill_start (a : Actor) (tok : Nat) (v : W64) (p : Bool) : (a.fill tok v p).start = a.start := rfl
@[simp] theorem Actor.fill_paused (a : Actor) (tok : Nat) (v : W64) (p : Bool) : (a.fill tok v p).paused = a.paused := rfl
@[simp] theorem Actor.fill_retired (a : Actor) (tok : Nat) (v : W64) (p : Bool) : (a.fill tok v p).retired = a.retired := rfl
@[simp] theorem Actor.fill_liveout (a : Actor) (tok : Nat) (v : W64) (p : Bool) : (a.fill tok v p).liveout = a.liveout := rfl
@[simp] theorem Actor.fill_pc (a : Actor) (tok : Nat) (v : W64) (p : Bool) : (a.fill tok v p).pc = a.pc := rfl
@[simp] theorem Actor.fill_lc (a : Actor) (tok : Nat) (v : W64) (p : Bool) : (a.fill tok v p).lc = a.lc := rfl
@[simp] theorem Actor.fill_ls (a : Actor) (tok : Nat) (v : W64) (p : Bool) : (a.fill tok v p).ls = a.ls := rfl
@[simp] theorem Actor.fill_ldep (a : Actor) (tok : Nat) (v : W64) (p : Bool) : (a.fill tok v p).ldep = a.ldep := rfl
@[simp] theorem Actor.fill_h (a : Actor) (tok : Nat) (v : W64) (p : Bool) : (a.fill tok v p).h = a.h.map (fillTok tok v p) := rfl
@[simp] theorem Actor.fill_s (a : Actor) (tok : Nat) (v : W64) (p : Bool) : (a.fill tok v p).s = a.s.map (fillTok tok v p) := rfl
@[simp] theorem Actor.fill_p (a : Actor) (tok : Nat) (v : W64) (p : Bool) : (a.fill tok v p).p = a.p := rfl
@[simp] theorem Actor.fill_outbox (a : Actor) (tok : Nat) (v : W64) (p : Bool) : (a.fill tok v p).outbox = a.outbox := rfl
@[simp] theorem Actor.fill_outs (a : Actor) (tok : Nat) (v : W64) (p : Bool) : (a.fill tok v p).outs = a.outs := rfl
@[simp] theorem Actor.fill_flying (a : Actor) (tok : Nat) (v : W64) (p : Bool) : (a.fill tok v p).flying = a.flying := rfl
@[simp] theorem Actor.fill_xwalk (a : Actor) (tok : Nat) (v : W64) (p : Bool) : (a.fill tok v p).xwalk = a.xwalk := rfl
@[simp] theorem Actor.fill_drains (a : Actor) (tok : Nat) (v : W64) (p : Bool) : (a.fill tok v p).drains = a.drains := rfl
@[simp] theorem Actor.fill_await (a : Actor) (tok : Nat) (v : W64) (p : Bool) : (a.fill tok v p).await = a.await := rfl
@[simp] theorem Actor.fill_pend (a : Actor) (tok : Nat) (v : W64) (p : Bool) : (a.fill tok v p).pend = a.pend := rfl
@[simp] theorem Actor.fill_dbg (a : Actor) (tok : Nat) (v : W64) (p : Bool) : (a.fill tok v p).dbg = a.dbg := rfl
@[simp] theorem Actor.fill_target (a : Actor) (tok : Nat) (v : W64) (p : Bool) : (a.fill tok v p).target = a.target := rfl
@[simp] theorem Actor.fill_audit (a : Actor) (tok : Nat) (v : W64) (p : Bool) : (a.fill tok v p).audit = a.audit := rfl
@[simp] theorem Actor.fill_shadow (a : Actor) (tok : Nat) (v : W64) (p : Bool) : (a.fill tok v p).shadow = a.shadow := rfl
@[simp] theorem Actor.fill_nokick (a : Actor) (tok : Nat) (v : W64) (p : Bool) : (a.fill tok v p).nokick = a.nokick := rfl
@[simp] theorem Actor.fill_fresh (a : Actor) (tok : Nat) (v : W64) (p : Bool) : (a.fill tok v p).fresh = a.fresh := rfl
@[simp] theorem Actor.fill_pLatch (a : Actor) (tok : Nat) (v : W64) (p : Bool) : (a.fill tok v p).pLatch = a.pLatch := rfl
@[simp] theorem Actor.fill_fetching (a : Actor) (tok : Nat) (v : W64) (p : Bool) : (a.fill tok v p).fetching = a.fetching := rfl
@[simp] theorem Actor.fill_offer (a : Actor) (tok : Nat) (v : W64) (p : Bool) : (a.fill tok v p).offer = a.offer := rfl
@[simp] theorem Actor.fill_waits (a : Actor) (tok : Nat) (v : W64) (p : Bool) : (a.fill tok v p).waits = a.waits := rfl

end Sys2Proof.Machine
end

