-- ==== Sys2Proof/Laws/Maps.lean ====
section
/-! SUPPORT. Keyed maps, and the actors and cells that the state keeps in them: what is read after a write. -/

namespace Sys2Proof.Machine

variable {α : Type}

theorem kvGet_kvSet_same (d : α) (l : List (Nat × α)) (n : Nat) (v : α) : kvGet d (kvSet l n v) n = v := by
  induction l with
  | nil => simp [kvSet, kvGet]
  | cons e r ih =>
    obtain ⟨k, w⟩ := e
    unfold kvSet
    split
    · simp [kvGet]
    · split
      · simp [kvGet]
      · rename_i h
        have : k ≠ n := fun e => h e.symm
        simp only [kvGet, this, if_false, ih]
theorem kvGet_kvSet_other (d : α) (l : List (Nat × α)) (n m : Nat) (v : α) (h : m ≠ n) : kvGet d (kvSet l n v) m = kvGet d l m := by
  induction l with
  | nil => simp [kvSet, kvGet, Ne.symm h]
  | cons e r ih =>
    obtain ⟨k, w⟩ := e
    unfold kvSet
    split
    · simp [kvGet, Ne.symm h]
    · split
      · rename_i h'
        subst h'
        simp [kvGet, Ne.symm h]
      · simp only [kvGet, ih]
theorem kvSet_kvSet (l : List (Nat × α)) (n : Nat) (v w : α) : kvSet (kvSet l n v) n w = kvSet l n w := by
  induction l with
  | nil => simp [kvSet]
  | cons e r ih =>
    obtain ⟨k, x⟩ := e
    simp only [kvSet]
    split
    · simp [kvSet]
    · split
      · simp [kvSet]
      · simp_all [kvSet]
theorem kvHas_kvSet (l : List (Nat × α)) (n : Nat) (v : α) : kvHas (kvSet l n v) n = true := by
  induction l with
  | nil => simp [kvHas, kvSet]
  | cons e r ih =>
    obtain ⟨k, x⟩ := e
    unfold kvSet
    split
    · simp [kvHas]
    · split
      · simp [kvHas]
      · simp only [kvHas, List.any_cons] at ih ⊢
        rw [ih]; simp
theorem kvHas_kvSet_other (l : List (Nat × α)) (n m : Nat) (v : α) (h : m ≠ n) : kvHas (kvSet l n v) m = kvHas l m := by
  induction l with
  | nil => simp [kvHas, kvSet, Ne.symm h]
  | cons e r ih =>
    obtain ⟨k, x⟩ := e
    unfold kvSet
    split
    · simp [kvHas, Ne.symm h]
    · split
      · rename_i h'
        subst h'
        simp [kvHas]
      · simp only [kvHas, List.any_cons] at ih ⊢
        rw [ih]

-- Actors -----------------------------------------------------------------------------------------------------------

/-- The record of the name it stands under. -/
theorem State.actor_setActor (s : State) (a : Actor) : (s.setActor a).actor a.name = a := kvGet_kvSet_same _ _ _ _
/-- Other records stay. -/
theorem State.actor_setActor_other (s : State) (a : Actor) (n : ActorName) (h : n ≠ a.name) : (s.setActor a).actor n = s.actor n := by
  refine kvGet_kvSet_other _ _ _ _ _ fun e => h (BitVec.eq_of_toNat_eq e)
theorem State.cur_setCur (s : State) (a : Actor) : (s.setCur a).cur = { a with name := s.focus } :=
  State.actor_setActor s { a with name := s.focus }
theorem State.actor_setCur_other (s : State) (a : Actor) (n : ActorName) (h : n ≠ s.focus) : (s.setCur a).actor n = s.actor n :=
  State.actor_setActor_other s { a with name := s.focus } n h
theorem State.setCur_setCur (s : State) (a b : Actor) : (s.setCur a).setCur b = s.setCur b := by
  unfold State.setCur State.setActor
  simp only [kvSet_kvSet]
@[simp] theorem State.focus_setCur' (s : State) (a : Actor) : (s.setCur a).focus = s.focus := rfl
theorem State.has_setActor (s : State) (a : Actor) : (s.setActor a).has a.name = true := kvHas_kvSet _ _ _

-- Cells ------------------------------------------------------------------------------------------------------------

theorem State.cell_setCell (s : State) (c : Nat) (v : Cell) : (s.setCell c v).cell c = v := kvGet_kvSet_same _ _ _ _
theorem State.cell_setCell_other (s : State) (c d : Nat) (v : Cell) (h : d ≠ c) : (s.setCell c v).cell d = s.cell d :=
  kvGet_kvSet_other _ _ _ _ _ h
theorem State.cell_modCell (s : State) (c : Nat) (f : Cell → Cell) : (s.modCell c f).cell c = f (s.cell c) := State.cell_setCell s c _
theorem State.cell_modCell_other (s : State) (c d : Nat) (f : Cell → Cell) (h : d ≠ c) : (s.modCell c f).cell d = s.cell d :=
  State.cell_setCell_other s c d _ h

end Sys2Proof.Machine
end

