-- ==== Sys2Proof/Laws/Issue.lean ====
section
/-! SUPPORT. The shared steps of an issue attempt, one lemma for each way that it can go: guards (01 R23, 08 R173), operands (08
R171, R172), checks, and the shapes of 08 R174 to R179. -/

namespace Sys2Proof.Machine

-- Evaluations ------------------------------------------------------------------------------------------------------

theorem ok_bind {α β : Type} (v : α) (f : α → Res β) : (Except.ok v : Res α) >>= f = f v := rfl
theorem error_bind {α β : Type} (e : Stop) (f : α → Res β) : (Except.error e : Res α) >>= f = .error e := rfl
theorem pure_eq {α : Type} (v : α) : (pure v : Res α) = .ok v := rfl
theorem check_ok {c : Bool} (r : Reason) (h : c = true) : check c r = .ok () := by simp [check, h]
theorem check_no {c : Bool} (r : Reason) (h : c = false) : check c r = .error (.kill r) := by simp [check, h, Kill]
theorem finish_ok (s t : State) : finish s (.ok t) = ran t := rfl
theorem finish_pure (s t : State) : finish s (pure t) = ran t := rfl
theorem finish_stall (s t : State) : finish s (.error (.stall t)) = waits t := rfl
theorem finish_kill (s : State) (r : Reason) : finish s (.error (.kill r)) = dies s r := rfl

-- Guards -----------------------------------------------------------------------------------------------------------

theorem guardVal_on {s : State} {g : Guard} (h : GuardOn s g) : guardVal s.cur g = .ok true := by
  unfold GuardOn at h
  simp [guardVal, h, check, bind, Except.bind, pure, Except.pure]
theorem guardVal_off {s : State} {g : Guard} (h : GuardOff s g) : guardVal s.cur g = .ok false := by
  unfold GuardOff at h
  simp [guardVal, h, check, bind, Except.bind, pure, Except.pure]
/-- A true guard: the body decides. -/
theorem guarded_on {s : State} {g : Guard} (h : GuardOn s g) (n : Nat) (l : List Scalar) (b : Res State) : guarded s g n l b = finish s b := by
  simp [guarded, guardVal_on h, bind, Except.bind]
/-- A false guard: only the pushes of R23. -/
theorem guarded_off {s : State} {g : Guard} (h : GuardOff s g) (n : Nat) (l : List Scalar) (b : Res State) :
    guarded s g n l b = ran (guardedOff s n l) := by
  simp only [guarded, guardVal_off h, bind, Except.bind, Bool.false_eq_true, if_false, pure, Except.pure, finish]; rfl
/-- A poisoned guard kills. -/
theorem guarded_poisoned {s : State} {g : Guard} (h : (s.cur.pred g.p).2 = true) (n : Nat) (l : List Scalar) (b : Res State) :
    guarded s g n l b = dies s rPoison := by
  simp only [guarded, guardVal, h, check, Bool.not_true, Bool.false_eq_true, if_false, Kill, bind, Except.bind, finish]; rfl
/-- Which of the three a guard is. -/
theorem guard_cases (s : State) (g : Guard) : GuardOn s g ∨ GuardOff s g ∨ (s.cur.pred g.p).2 = true := by
  unfold GuardOn GuardOff
  rcases h : s.cur.pred g.p with ⟨v, p⟩
  cases p <;> cases v <;> cases g.pn <;> simp
theorem bootOnly_on {s : State} (h : BootMode s) (o : Out) : bootOnly s o = o := by unfold BootMode at h; simp [bootOnly, h]
theorem bootOnly_off {s : State} (h : ¬ BootMode s) (o : Out) : bootOnly s o = dies s rIllegal := by
  unfold BootMode at h; simp [bootOnly, h]; rfl

-- Operands ---------------------------------------------------------------------------------------------------------

theorem operand_ok {s : State} {a : Scalar} {v : W64} {p : Bool} (h : Reads s a v p) : operand s a = .ok (v, p) := by
  unfold Reads at h; simp [operand, h]
theorem operand_wait {s : State} {a : Scalar} {t : Nat} (h : readEnt s.cur a = .wait t) : operand s a = .error (.stall s) := by
  simp [operand, h, Stall]
theorem clean_ok {s : State} {a : Scalar} {v : W64} (h : Reads s a v false) : cleanOperand s a = .ok v := by
  simp [cleanOperand, operand_ok h, check, bind, Except.bind, pure, Except.pure]
theorem clean_poisoned {s : State} {a : Scalar} {v : W64} (h : Reads s a v true) : cleanOperand s a = .error (.kill rPoison) := by
  simp [cleanOperand, operand_ok h, check, bind, Except.bind, Kill]
theorem clean_wait {s : State} {a : Scalar} {t : Nat} (h : readEnt s.cur a = .wait t) : cleanOperand s a = .error (.stall s) := by
  simp [cleanOperand, operand_wait h, bind, Except.bind]
theorem param_const (s : State) (hi : Bool) (v : W32) : param s hi (.const v) = .ok v.toNat := rfl

-- Shapes (08 R174 to R179) -----------------------------------------------------------------------------------------

theorem intOp2_on {w : Width} {a b : Scalar} {g : Guard} {s : State} {u v : W64} {pa pb : Bool} (f : Nat → Int → Nat → Int → Int)
    (ha : Reads s a u pa) (hb : Reads s b v pb) (hg : GuardOn s g) :
    intOp2 w a b g s f = pushed s 1 (narrow w (f (lowU w u) (lowS w u) (lowU w v) (lowS w v))) (pa || pb) := by
  simp only [intOp2, guarded_on hg, operand_ok ha, operand_ok hb, bind, Except.bind, pure, Except.pure, finish]
  rfl
theorem intOp1_on {w : Width} {a : Scalar} {g : Guard} {s : State} {u : W64} {p : Bool} (f : Nat → W64) (ha : Reads s a u p)
    (hg : GuardOn s g) : intOp1 w a g s f = pushed s 1 (f (lowU w u)) p := by
  simp only [intOp1, guarded_on hg, operand_ok ha, bind, Except.bind, pure, Except.pure, finish]
  rfl
theorem immOp_on {a : Scalar} {s : State} {u : W64} {p : Bool} (f : W64 → W64) (h : Reads s a u p) : immOp a s f = pushed s 1 (f u) p := by
  simp only [immOp, unguarded, operand_ok h, bind, Except.bind, pure, Except.pure, finish]; rfl
theorem fpOp2_on {a b : Scalar} {g : Guard} {s : State} {u v : W64} {pa pb : Bool} (f : Val → Val → Val) (ha : Reads s a u pa)
    (hb : Reads s b v pb) (hg : GuardOn s g) :
    fpOp2 a b g s f = pushed s 1 (BitVec.ofNat 64 (rne32 (f (dec32 u.toNat) (dec32 v.toNat)))) (pa || pb) := by
  simp only [fpOp2, guarded_on hg, operand_ok ha, operand_ok hb, bind, Except.bind, pure, Except.pure, finish]; rfl
theorem fpOp1_on {a : Scalar} {g : Guard} {s : State} {u : W64} {p : Bool} (f : Val → Val) (ha : Reads s a u p) (hg : GuardOn s g) :
    fpOp1 a g s f = pushed s 1 (BitVec.ofNat 64 (rne32 (f (dec32 u.toNat)))) p := by
  simp only [fpOp1, guarded_on hg, operand_ok ha, bind, Except.bind, pure, Except.pure, finish]; rfl

-- Widths -----------------------------------------------------------------------------------------------------------

/-- A narrow result is the integer's low bits, zero-extended. -/
theorem narrow_eq (w : Width) (i : Int) : narrow w i = wide (BitVec.ofInt (widthBits w) i) := by
  unfold narrow wide
  apply BitVec.eq_of_toNat_eq
  rw [BitVec.toNat_setWidth, BitVec.toNat_ofNat, BitVec.toNat_ofInt]
  norm_cast
theorem lowU_eq (w : Width) (u : W64) : lowU w u = (u.setWidth (widthBits w)).toNat := by
  simp [lowU]
theorem lowS_eq (w : Width) (u : W64) : lowS w u = (u.setWidth (widthBits w)).toInt := by
  unfold lowS signed
  rw [lowU_eq, BitVec.toInt_eq_toNat_cond]
  generalize hx : BitVec.setWidth (widthBits w) u = x
  clear hx
  have := x.isLt
  by_cases c : x.toNat < 2 ^ (widthBits w - 1)
  · have : 2 * x.toNat < 2 ^ widthBits w := by cases w <;> simp only [widthBits] at * <;> omega
    simp [c, this]
  · have : ¬ 2 * x.toNat < 2 ^ widthBits w := by cases w <;> simp only [widthBits] at * <;> omega
    simp [c, this]

end Sys2Proof.Machine
end

