-- ==== Sys2Proof/Laws/Memory.lean ====
section
/-! SUPPORT. Memory: the canonical form, kept by every operation; what one byte reads after a write; and that equal memories
are equal data. -/

namespace Sys2Proof.Machine

/-- The canonical form in other words: keys rise and no entry says what an unlisted byte says. -/
theorem Memory.wf_iff (m : List Host.Cell) :
    Memory.wf m = true ↔ m.Pairwise (fun x y => x.1 < y.1) ∧ ∀ e ∈ m, e.2 ≠ Memory.default e.1 := by
  induction m with
  | nil => simp [Memory.wf]
  | cons e r ih =>
    obtain ⟨k, b⟩ := e
    cases r with
    | nil => simp [Memory.wf]
    | cons e' r =>
      obtain ⟨k', b'⟩ := e'
      simp only [Memory.wf, Bool.and_eq_true, bne_iff_ne, decide_eq_true_eq, ih]
      constructor
      · rintro ⟨⟨hb, hk⟩, hp, hd⟩
        refine ⟨List.pairwise_cons.2 ⟨?_, hp⟩, ?_⟩
        · intro x hx
          rcases List.mem_cons.1 hx with rfl | hx
          · exact hk
          · exact lt_trans hk ((List.pairwise_cons.1 hp).1 x hx)
        · intro x hx
          rcases List.mem_cons.1 hx with rfl | hx
          · exact hb
          · exact hd x hx
      · rintro ⟨hp, hd⟩
        have h := List.pairwise_cons.1 hp
        exact ⟨⟨hd _ List.mem_cons_self, h.1 _ List.mem_cons_self⟩, h.2, fun x hx => hd x (List.mem_cons_of_mem _ hx)⟩

theorem Memory.wf_nil : Memory.wf [] = true := rfl

/-- Entries left out keep the form. -/
theorem Memory.wf_filter (m : List Host.Cell) (p : Host.Cell → Bool) (h : Memory.wf m = true) :
    Memory.wf (m.filter p) = true := by
  rw [Memory.wf_iff] at *
  exact ⟨h.1.filter p, fun e he => h.2 e (List.mem_filter.1 he).1⟩

/-- The entries that new bytes need lie among the bytes, rise, and differ from what an unlisted byte says. -/
theorem Memory.fresh_spec (bs : List Byte) : ∀ a : Nat,
    (Memory.fresh a bs).Pairwise (fun x y => x.1 < y.1) ∧
      ∀ e ∈ Memory.fresh a bs, e.2 ≠ Memory.default e.1 ∧ a ≤ e.1 ∧ e.1 < a + bs.length := by
  induction bs with
  | nil => intro a; simp [Memory.fresh]
  | cons b r ih =>
    intro a
    have h := ih (a + 1)
    unfold Memory.fresh
    split
    · refine ⟨h.1, fun e he => ?_⟩
      have := h.2 e he
      simp only [List.length_cons]
      exact ⟨this.1, by omega, by omega⟩
    · rename_i hb
      refine ⟨List.pairwise_cons.2 ⟨fun x hx => ?_, h.1⟩, fun e he => ?_⟩
      · have := h.2 x hx; simp only; omega
      · simp only [List.length_cons]
        rcases List.mem_cons.1 he with rfl | he
        · exact ⟨hb, le_refl _, by simp only; omega⟩
        · have := h.2 e he; exact ⟨this.1, by omega, by omega⟩

/-- A write keeps the form. -/
theorem Memory.wf_write (m : List Host.Cell) (a : Nat) (bs : List Byte) (h : Memory.wf m = true) :
    Memory.wf (Memory.write m a bs) = true := by
  have hf := Memory.fresh_spec bs a
  rw [Memory.wf_iff] at *
  unfold Memory.write
  refine ⟨?_, ?_⟩
  · rw [List.append_assoc, List.pairwise_append, List.pairwise_append]
    refine ⟨h.1.filter _, ⟨hf.1, h.1.filter _, ?_⟩, ?_⟩
    · intro x hx y hy
      have h1 := (hf.2 x hx).2.2
      have h2 := (List.mem_filter.1 hy).2
      simp only [decide_eq_true_eq] at h2
      omega
    · intro x hx y hy
      have h1 := (List.mem_filter.1 hx).2
      simp only [decide_eq_true_eq] at h1
      rcases List.mem_append.1 hy with hy | hy
      · have := (hf.2 y hy).2.1; omega
      · have h2 := (List.mem_filter.1 hy).2
        simp only [decide_eq_true_eq] at h2
        omega
  · intro e he
    rcases List.mem_append.1 he with he | he
    · rcases List.mem_append.1 he with he | he
      · exact h.2 e (List.mem_filter.1 he).1
      · exact (hf.2 e he).1
    · exact h.2 e (List.mem_filter.1 he).1

/-- One byte of a memory in canonical form: the listed one, or what an unlisted one says. -/
theorem Memory.get_eq (m : List Host.Cell) (h : m.Pairwise (fun x y => x.1 < y.1)) (k : Nat) :
    (∀ b, (k, b) ∈ m → Memory.get m k = b) ∧ ((∀ b, (k, b) ∉ m) → Memory.get m k = Memory.default k) := by
  induction m with
  | nil => simp [Memory.get]
  | cons e r ih =>
    obtain ⟨j, c⟩ := e
    have hp := List.pairwise_cons.1 h
    have ih := ih hp.2
    unfold Memory.get
    by_cases hjk : j = k
    · subst hjk
      simp only [↓reduceIte]
      refine ⟨fun b hb => ?_, fun hn => absurd List.mem_cons_self (hn c)⟩
      rcases List.mem_cons.1 hb with hb | hb
      · exact (Prod.ext_iff.1 hb).2.symm
      · exact absurd (hp.1 _ hb) (lt_irrefl _)
    · simp only [hjk, ↓reduceIte]
      by_cases hlt : k < j
      · simp only [hlt, ↓reduceIte]
        refine ⟨fun b hb => ?_, fun _ => trivial⟩
        rcases List.mem_cons.1 hb with hb | hb
        · exact absurd (Prod.ext_iff.1 hb).1.symm hjk
        · have := hp.1 _ hb; simp only at this; omega
      · simp only [hlt, ↓reduceIte]
        refine ⟨fun b hb => ?_, fun hn => ih.2 fun b hb => hn b (List.mem_cons_of_mem _ hb)⟩
        rcases List.mem_cons.1 hb with hb | hb
        · exact absurd (Prod.ext_iff.1 hb).1.symm hjk
        · exact ih.1 b hb

/-- The bytes that new entries stand for. -/
theorem Memory.mem_fresh (bs : List Byte) : ∀ (a k : Nat) (b : Byte),
    (k, b) ∈ Memory.fresh a bs ↔ ∃ i, bs[i]? = some b ∧ k = a + i ∧ b ≠ Memory.default k := by
  induction bs with
  | nil => intro a k b; simp [Memory.fresh]
  | cons c r ih =>
    intro a k b
    have key : (∃ i, (c :: r)[i]? = some b ∧ k = a + i ∧ b ≠ Memory.default k) ↔
        ((c = b ∧ k = a ∧ b ≠ Memory.default k) ∨ ∃ i, r[i]? = some b ∧ k = a + 1 + i ∧ b ≠ Memory.default k) := by
      constructor
      · rintro ⟨i, hi, hk, hd⟩
        cases i with
        | zero => left; simpa using ⟨by simpa using hi, hk, hd⟩
        | succ i => right; exact ⟨i, by simpa using hi, by omega, hd⟩
      · rintro (⟨rfl, rfl, hd⟩ | ⟨i, hi, hk, hd⟩)
        · exact ⟨0, by simp, by simp, hd⟩
        · exact ⟨i + 1, by simpa using hi, by omega, hd⟩
    rw [key]
    unfold Memory.fresh
    split
    · rename_i hc
      rw [ih]
      constructor
      · exact Or.inr
      · rintro (⟨rfl, rfl, hd⟩ | h)
        · exact absurd hc hd
        · exact h
    · rename_i hc
      rw [List.mem_cons, ih, Prod.mk.injEq]
      constructor
      · rintro (⟨rfl, rfl⟩ | h)
        · exact Or.inl ⟨rfl, rfl, hc⟩
        · exact Or.inr h
      · rintro (⟨rfl, rfl, _⟩ | h)
        · exact Or.inl ⟨rfl, rfl⟩
        · exact Or.inr h

/-- A byte outside a write is unchanged. -/
theorem Memory.get_write_outside (m : List Host.Cell) (a k : Nat) (bs : List Byte) (h : Memory.wf m = true)
    (hk : k < a ∨ a + bs.length ≤ k) : Memory.get (Memory.write m a bs) k = Memory.get m k := by
  have hw := ((Memory.wf_iff _).1 (Memory.wf_write m a bs h)).1
  have hm := ((Memory.wf_iff _).1 h).1
  have iff_ : ∀ b, (k, b) ∈ Memory.write m a bs ↔ (k, b) ∈ m := by
    intro b
    unfold Memory.write
    simp only [List.mem_append, List.mem_filter, decide_eq_true_eq]
    constructor
    · rintro ((h | h) | h)
      · exact h.1
      · have := ((Memory.fresh_spec bs a).2 _ h).2; simp only at this; omega
      · exact h.1
    · intro hb
      rcases hk with hk | hk
      · exact Or.inl (Or.inl ⟨hb, hk⟩)
      · exact Or.inr ⟨hb, hk⟩
  by_cases hex : ∃ b, (k, b) ∈ m
  · obtain ⟨b, hb⟩ := hex
    rw [(Memory.get_eq _ hm k).1 b hb, (Memory.get_eq _ hw k).1 b ((iff_ b).2 hb)]
  · have hn : ∀ b, (k, b) ∉ m := fun b hb => hex ⟨b, hb⟩
    rw [(Memory.get_eq _ hm k).2 hn, (Memory.get_eq _ hw k).2 fun b hb => hn b ((iff_ b).1 hb)]

/-- A byte inside a write is what was written. -/
theorem Memory.get_write_inside (m : List Host.Cell) (a i : Nat) (bs : List Byte) (b : Byte) (h : Memory.wf m = true)
    (hi : bs[i]? = some b) : Memory.get (Memory.write m a bs) (a + i) = b := by
  have hw := ((Memory.wf_iff _).1 (Memory.wf_write m a bs h)).1
  have hl : i < bs.length := (List.getElem?_eq_some_iff.1 hi).1
  have iff_ : ∀ c, (a + i, c) ∈ Memory.write m a bs ↔ c = b ∧ b ≠ Memory.default (a + i) := by
    intro c
    unfold Memory.write
    simp only [List.mem_append, List.mem_filter, decide_eq_true_eq, Memory.mem_fresh]
    constructor
    · rintro ((h | ⟨j, hj, hk, hd⟩) | h)
      · omega
      · have : j = i := by omega
        subst this
        rw [hi] at hj
        cases hj
        exact ⟨rfl, hd⟩
      · omega
    · rintro ⟨rfl, hd⟩
      exact Or.inl (Or.inr ⟨i, hi, rfl, hd⟩)
  by_cases hd : b = Memory.default (a + i)
  · rw [(Memory.get_eq _ hw _).2 fun c hc => ((iff_ c).1 hc).2 hd]; exact hd.symm
  · exact (Memory.get_eq _ hw _).1 b ((iff_ b).2 ⟨rfl, hd⟩)

/-- Equal memories are equal data. -/
theorem Memory.ext (m n : List Host.Cell) (hm : Memory.wf m = true) (hn : Memory.wf n = true)
    (h : ∀ k, Memory.get m k = Memory.get n k) : m = n := by
  rw [Memory.wf_iff] at hm hn
  have sub : ∀ (x y : List Host.Cell), (x.Pairwise (fun p q => p.1 < q.1) ∧ ∀ e ∈ x, e.2 ≠ Memory.default e.1) →
      (y.Pairwise (fun p q => p.1 < q.1)) → (∀ k, Memory.get x k = Memory.get y k) → ∀ e ∈ x, e ∈ y := by
    rintro x y hx hy hxy ⟨k, b⟩ he
    by_contra hne
    have h1 := (Memory.get_eq x hx.1 k).1 b he
    have h2 := hx.2 _ he
    by_cases hex : ∃ c, (k, c) ∈ y
    · obtain ⟨c, hc⟩ := hex
      have h3 := (Memory.get_eq y hy k).1 c hc
      rw [← hxy, h1] at h3
      subst h3
      exact hne hc
    · have h3 := (Memory.get_eq y hy k).2 fun c hc => hex ⟨c, hc⟩
      rw [← hxy, h1] at h3
      exact h2 h3
  have nd : ∀ x : List Host.Cell, x.Pairwise (fun p q => p.1 < q.1) → x.Nodup := fun x hx =>
    hx.imp fun hlt he => by rw [he] at hlt; exact lt_irrefl _ hlt
  have perm : m.Perm n := (List.perm_ext_iff_of_nodup (nd m hm.1) (nd n hn.1)).2 fun e =>
    ⟨sub m n hm hn.1 h e, sub n m hn hm.1 (fun k => (h k).symm) e⟩
  exact perm.eq_of_pairwise (fun a b _ _ h1 h2 => absurd (lt_trans h1 h2) (lt_irrefl _)) hm.1 hn.1

/-- A walk along a rising list whose keys start at `a` or later reads its bytes one by one. -/
theorem Memory.walk_eq (n : Nat) : ∀ (l : List Host.Cell) (a : Nat), l.Pairwise (fun x y => x.1 < y.1) → (∀ e ∈ l, a ≤ e.1) →
    Memory.walk l a n = (List.range n).map fun i => Memory.get l (a + i) := by
  induction n with
  | zero => intro l a _ _; cases l <;> simp [Memory.walk]
  | succ n ih =>
    intro l a hp ha
    rw [List.range_succ_eq_map, List.map_cons, List.map_map]
    cases l with
    | nil =>
      simp only [Memory.walk, ih [] (a + 1) List.Pairwise.nil (by simp), Memory.get, Nat.add_zero]
      congr 1
      apply List.map_congr_left
      intro i _
      simp only [Function.comp_apply, Nat.succ_eq_add_one]
      congr 1
      omega
    | cons e r =>
      obtain ⟨k, b⟩ := e
      have hr := List.pairwise_cons.1 hp
      by_cases hk : k = a
      · subst hk
        have hge : ∀ e ∈ r, k + 1 ≤ e.1 := fun e he => by have := hr.1 e he; simp only at this; omega
        simp only [Memory.walk, ↓reduceIte, ih r (k + 1) hr.2 hge, Nat.add_zero]
        congr 1
        · simp [Memory.get]
        · apply List.map_congr_left
          intro i _
          have h1 : ¬ k = k + (i + 1) := by omega
          have h2 : ¬ k + (i + 1) < k := by omega
          simp only [Function.comp_apply, Nat.succ_eq_add_one, Memory.get, h1, h2, ↓reduceIte]
          congr 1
          omega
      · have hlt : a < k := lt_of_le_of_ne (ha _ List.mem_cons_self) (Ne.symm hk)
        have hge : ∀ e ∈ (k, b) :: r, a + 1 ≤ e.1 := by
          intro e he
          rcases List.mem_cons.1 he with rfl | he
          · simp only; omega
          · have := hr.1 e he; simp only at this; omega
        simp only [Memory.walk, hk, ↓reduceIte, ih _ (a + 1) hp hge, Nat.add_zero]
        congr 1
        · simp [Memory.get, hk, hlt]
        · apply List.map_congr_left
          intro i _
          simp only [Function.comp_apply, Nat.succ_eq_add_one]
          congr 1
          omega

/-- `n` bytes from `a` are the bytes one by one. -/
theorem Memory.read_eq (m : List Host.Cell) (a n : Nat) (h : Memory.wf m = true) :
    Memory.read m a n = (List.range n).map fun i => Memory.get m (a + i) := by
  have hm := ((Memory.wf_iff _).1 h).1
  unfold Memory.read
  rw [Memory.walk_eq n _ a (hm.filter _)]
  · apply List.map_congr_left
    intro i hi
    have hi := List.mem_range.1 hi
    have hin : ∀ b, (a + i, b) ∈ m.filter (fun e => a ≤ e.1 && e.1 < a + n) ↔ (a + i, b) ∈ m := by
      intro b
      simp only [List.mem_filter, Bool.and_eq_true, decide_eq_true_eq]
      exact ⟨And.left, fun hb => ⟨hb, by omega, by omega⟩⟩
    by_cases hex : ∃ b, (a + i, b) ∈ m
    · obtain ⟨b, hb⟩ := hex
      rw [(Memory.get_eq _ hm _).1 b hb, (Memory.get_eq _ (hm.filter _) _).1 b ((hin b).2 hb)]
    · have hn : ∀ b, (a + i, b) ∉ m := fun b hb => hex ⟨b, hb⟩
      rw [(Memory.get_eq _ hm _).2 hn, (Memory.get_eq _ (hm.filter _) _).2 fun b hb => hn b ((hin b).1 hb)]
  · intro e he
    have := (List.mem_filter.1 he).2
    simp only [Bool.and_eq_true, decide_eq_true_eq] at this
    exact this.1

/-- What is read where it was written. -/
theorem Memory.read_write_same (m : List Host.Cell) (a : Nat) (bs : List Byte) (h : Memory.wf m = true) :
    Memory.read (Memory.write m a bs) a bs.length = bs := by
  rw [Memory.read_eq _ _ _ (Memory.wf_write m a bs h)]
  apply List.ext_getElem?
  intro i
  by_cases hi : i < bs.length
  · simp only [List.getElem?_map, List.getElem?_range hi, Option.map_some]
    rw [Memory.get_write_inside m a i bs bs[i] h (List.getElem?_eq_getElem hi), List.getElem?_eq_getElem hi]
  · simp [List.getElem?_eq_none (Nat.le_of_not_lt hi), hi]

/-- What is read elsewhere is unchanged. -/
theorem Memory.read_write_outside (m : List Host.Cell) (a k n : Nat) (bs : List Byte) (h : Memory.wf m = true)
    (hk : k + n ≤ a ∨ a + bs.length ≤ k) : Memory.read (Memory.write m a bs) k n = Memory.read m k n := by
  rw [Memory.read_eq _ _ _ (Memory.wf_write m a bs h), Memory.read_eq _ _ _ h]
  apply List.map_congr_left
  intro i hi
  have hi := List.mem_range.1 hi
  exact Memory.get_write_outside m a (k + i) bs h (by omega)

/-- `put` keeps the form. -/
theorem State.wf_put (s : State) (a : Nat) (bs : List Byte) (h : Memory.wf s.mem = true) :
    Memory.wf (s.put a bs).mem = true := Memory.wf_write s.mem a bs h
/-- `zero` keeps the form. -/
theorem State.wf_zero (s : State) (a n : Nat) (h : Memory.wf s.mem = true) : Memory.wf (s.zero a n).mem = true := by
  unfold State.zero
  split
  · exact Memory.wf_filter s.mem _ h
  · exact Memory.wf_write s.mem a _ h

end Sys2Proof.Machine
end

