-- ==== Sys2Proof/Laws/Kept.lean ====
section
/-! SUPPORT. Memory in canonical form, said of a state and of every kind of answer that holds states, with the rules that carry it
through binds, branches and folds. -/

namespace Sys2Proof.Machine
/-- Memory is in canonical form. -/
abbrev Canon (s : State) : Prop := Memory.wf s.mem = true
def CanonOut : Host.Outcome State Fault Refusal → Prop
  | .next t => Canon t
  | _ => True
def CanonRes {α : Type} (Q : α → Prop) : Res α → Prop
  | .ok v => Q v
  | .error (.stall t) => Canon t
  | .error (.kill _) => True
def CanonOpt {α : Type} (Q : α → Prop) : Option α → Prop
  | some v => Q v
  | none => True
def CanonExc {ε α : Type} (Q : α → Prop) : Except ε α → Prop
  | .ok v => Q v
  | .error _ => True
def CanonTried : Tried → Prop
  | .issued s => Canon s
  | .not_ s => Canon s
  | .stopped o => CanonOut o
def CanonMade : Made → Prop
  | .code _ => True
  | .ask s => Canon s
  | .ok s _ _ => Canon s
theorem CanonOut.next {t : State} (h : Canon t) : CanonOut (.next t) := h
theorem CanonOut.fault {t : Fault} : CanonOut (.fault t) := trivial
theorem CanonOut.refused {t : Refusal} : CanonOut (.refused t) := trivial
theorem CanonTried.issued {t : State} (h : Canon t) : CanonTried (.issued t) := h
theorem CanonTried.not_ {t : State} (h : Canon t) : CanonTried (.not_ t) := h
theorem CanonTried.stopped {t : Out} (h : CanonOut t) : CanonTried (.stopped t) := h
theorem CanonMade.ask {t : State} (h : Canon t) : CanonMade (.ask t) := h
theorem CanonMade.ok {t : State} {a b} (h : Canon t) : CanonMade (.ok t a b) := h
theorem CanonMade.code {c} : CanonMade (.code c) := trivial
theorem CanonRes.ok {α : Type} {Q : α → Prop} {v : α} (h : Q v) : CanonRes Q (.ok v) := h
theorem CanonRes.pure {α : Type} {Q : α → Prop} {v : α} (h : Q v) : CanonRes Q (pure v) := h
theorem CanonRes.err {α : Type} {Q : α → Prop} {r} : CanonRes Q (.error (.kill r)) := trivial
theorem CanonRes.stl {α : Type} {Q : α → Prop} {s} (h : Canon s) : CanonRes Q (.error (.stall s)) := h
theorem CanonRes.kill {α : Type} {Q : α → Prop} {r} : CanonRes Q (Kill r) := trivial
theorem CanonRes.stall {α : Type} {Q : α → Prop} {s} (h : Canon s) : CanonRes Q (Stall s) := h
theorem CanonRes.check {c r} : CanonRes (fun _ => True) (check c r) := by unfold Machine.check; split <;> trivial
theorem CanonOpt.some {α : Type} {Q : α → Prop} {v : α} (h : Q v) : CanonOpt Q (some v) := h
theorem CanonOpt.none {α : Type} {Q : α → Prop} : CanonOpt Q none := trivial
theorem CanonExc.ok {ε α : Type} {Q : α → Prop} {v : α} (h : Q v) : CanonExc (ε := ε) Q (.ok v) := h
theorem CanonExc.err {ε α : Type} {Q : α → Prop} {v : ε} : CanonExc (α := α) Q (.error v) := trivial
theorem CanonRes.bind {α β : Type} {P : α → Prop} {Q : β → Prop} {x : Res α} {f : α → Res β} (h : CanonRes P x) (k : ∀ v, P v → CanonRes Q (f v)) :
    CanonRes Q (x >>= f) := by
  cases x with
  | ok v => exact k v h
  | error e => cases e with
    | stall t => exact h
    | kill r => trivial
theorem CanonRes.bindS {β : Type} {Q : β → Prop} {x : Res State} {f : State → Res β} (h : CanonRes (fun s => Canon s) x) (k : ∀ v, Canon v → CanonRes Q (f v)) :
    CanonRes Q (x >>= f) := h.bind k
theorem CanonRes.bind1 {α β : Type} {Q : β → Prop} {x : Res (State × α)} {f : State × α → Res β} (h : CanonRes (fun s => Canon s.1) x) (k : ∀ v, Canon v.1 → CanonRes Q (f v)) :
    CanonRes Q (x >>= f) := h.bind k
theorem CanonRes.bind2 {α β : Type} {Q : β → Prop} {x : Res (α × State)} {f : α × State → Res β} (h : CanonRes (fun s => Canon s.2) x) (k : ∀ v, Canon v.2 → CanonRes Q (f v)) :
    CanonRes Q (x >>= f) := h.bind k
theorem CanonRes.bind0 {α β : Type} {Q : β → Prop} {x : Res α} {f : α → Res β} (h : CanonRes (fun _ => True) x) (k : ∀ v, CanonRes Q (f v)) :
    CanonRes Q (x >>= f) := h.bind fun v _ => k v
theorem Canon.fst {β : Type} {e : State × β} {x : State} {y : β} (h : e = (x, y)) (k : Canon e.1) : Canon x := by subst h; exact k
theorem Canon.snd {β : Type} {e : β × State} {x : State} {y : β} (h : e = (y, x)) (k : Canon e.2) : Canon x := by subst h; exact k
theorem Canon.mid {β γ : Type} {e : β × State × γ} {x : State} {y : β} {z : γ} (h : e = (y, x, z)) (k : Canon e.2.1) : Canon x := by subst h; exact k
theorem Canon.trd {β γ : Type} {e : β × γ × State} {x : State} {y : β} {z : γ} (h : e = (y, z, x)) (k : Canon e.2.2) : Canon x := by subst h; exact k
theorem Canon.osome {e : Option State} {x : State} (h : e = some x) (k : CanonOpt (fun x => Canon x) e) : Canon x := by subst h; exact k
theorem Canon.osome1 {β : Type} {e : Option (State × β)} {x : State} {y : β} (h : e = some (x, y)) (k : CanonOpt (fun x => Canon x.1) e) : Canon x := by subst h; exact k
theorem Canon.osome2 {β : Type} {e : Option (β × State)} {x : State} {y : β} (h : e = some (y, x)) (k : CanonOpt (fun x => Canon x.2) e) : Canon x := by subst h; exact k
theorem Canon.ofnext {e : Out} {x : State} (h : e = .next x) (k : CanonOut e) : Canon x := by subst h; exact k
theorem Canon.ofissued {e : Tried} {x : State} (h : e = .issued x) (k : CanonTried e) : Canon x := by subst h; exact k
theorem Canon.ofnot {e : Tried} {x : State} (h : e = .not_ x) (k : CanonTried e) : Canon x := by subst h; exact k
theorem Canon.ofstopped {e : Tried} {x : Out} (h : e = .stopped x) (k : CanonTried e) : CanonOut x := by subst h; exact k
theorem Canon.ofmade {e : Made} {x : State} {a b} (h : e = .ok x a b) (k : CanonMade e) : Canon x := by subst h; exact k
theorem Canon.ofask {e : Made} {x : State} (h : e = .ask x) (k : CanonMade e) : Canon x := by subst h; exact k
theorem Canon.rok {e : Res State} {x : State} (h : e = .ok x) (k : CanonRes (fun x => Canon x) e) : Canon x := by subst h; exact k
theorem Canon.rok1 {β : Type} {e : Res (State × β)} {x : State} {y : β} (h : e = .ok (x, y)) (k : CanonRes (fun x => Canon x.1) e) : Canon x := by subst h; exact k
theorem Canon.rok2 {β : Type} {e : Res (β × State)} {x : State} {y : β} (h : e = .ok (y, x)) (k : CanonRes (fun x => Canon x.2) e) : Canon x := by subst h; exact k
theorem Canon.rstallS {e : Res State} {x : State} (h : e = .error (.stall x)) (k : CanonRes (fun x => Canon x) e) : Canon x := by subst h; exact k
theorem Canon.rstall0 {α : Type} {e : Res α} {x : State} (h : e = .error (.stall x)) (k : CanonRes (fun _ => True) e) : Canon x := by subst h; exact k
theorem Canon.eok {ε : Type} {e : Except ε State} {x : State} (h : e = .ok x) (k : CanonExc (fun x => Canon x) e) : Canon x := by subst h; exact k
theorem Canon.foldl {β : Type} {f : State → β → State} {l : List β} {s : State} (h : Canon s) (k : ∀ s b, Canon s → Canon (f s b)) : Canon (l.foldl f s) := by
  induction l generalizing s with
  | nil => exact h
  | cons b l ih => exact ih (k s b h)
theorem Canon.foldl1 {β γ : Type} {f : State × γ → β → State × γ} {l : List β} {s : State × γ} (h : Canon s.1) (k : ∀ s b, Canon s.1 → Canon (f s b).1) : Canon (l.foldl f s).1 := by
  induction l generalizing s with
  | nil => exact h
  | cons b l ih => exact ih (k s b h)
theorem Canon.foldl2 {β γ : Type} {f : γ × State → β → γ × State} {l : List β} {s : γ × State} (h : Canon s.2) (k : ∀ s b, Canon s.2 → Canon (f s b).2) : Canon (l.foldl f s).2 := by
  induction l generalizing s with
  | nil => exact h
  | cons b l ih => exact ih (k s b h)
theorem CanonOut.ite {c : Prop} [Decidable c] {a b : Out} (h : c → CanonOut a) (k : ¬c → CanonOut b) : CanonOut (if c then a else b) := by
  split
  · exact h ‹_›
  · exact k ‹_›
theorem CanonMade.ite {c : Prop} [Decidable c] {a b : Made} (h : c → CanonMade a) (k : ¬c → CanonMade b) : CanonMade (if c then a else b) := by
  split
  · exact h ‹_›
  · exact k ‹_›
theorem CanonRes.ite {α : Type} {Q : α → Prop} {c : Prop} [Decidable c] {a b : Res α} (h : c → CanonRes Q a) (k : ¬c → CanonRes Q b) : CanonRes Q (if c then a else b) := by
  split
  · exact h ‹_›
  · exact k ‹_›
theorem CanonOpt.ite {α : Type} {Q : α → Prop} {c : Prop} [Decidable c] {a b : Option α} (h : c → CanonOpt Q a) (k : ¬c → CanonOpt Q b) : CanonOpt Q (if c then a else b) := by
  split
  · exact h ‹_›
  · exact k ‹_›
theorem Canon.ite {c : Prop} [Decidable c] {a b : State} (h : c → Canon a) (k : ¬c → Canon b) : Canon (if c then a else b) := by
  split
  · exact h ‹_›
  · exact k ‹_›
theorem CanonOpt.map {α β : Type} {Q : β → Prop} {o : Option α} {f : α → β} (h : ∀ x, o = .some x → Q (f x)) : CanonOpt Q (o.map f) := by
  cases o with
  | none => trivial
  | some x => exact h x rfl
theorem CanonRes.map {α β : Type} {x : Res α} {f : α → β} (h : CanonRes (fun _ => True) x) : CanonRes (fun _ => True) (Except.map f x) := by
  cases x with
  | ok v => trivial
  | error e => cases e <;> exact h
theorem CanonOpt.orElse {α : Type} {Q : α → Prop} {o : Option α} {f : Unit → Option α} (h : CanonOpt Q o) (k : ∀ u, CanonOpt Q (f u)) : CanonOpt Q (o.orElse f) := by
  cases o with
  | none => exact k ()
  | some x => exact h
theorem CanonExc.pure {ε α : Type} {Q : α → Prop} {v : α} (h : Q v) : CanonExc (ε := ε) Q (pure v) := h
theorem CanonExc.bind {ε α β : Type} {Q : β → Prop} {x : Except ε α} {f : α → Except ε β} (h : ∀ v, x = .ok v → CanonExc Q (f v)) : CanonExc Q (x >>= f) := by
  cases x with
  | ok v => exact h v rfl
  | error e => trivial
theorem Canon.eok2 {ε β : Type} {e : Except ε (β × State)} {x : State} {y : β} (h : e = .ok (y, x)) (k : CanonExc (fun x => Canon x.2) e) : Canon x := by subst h; exact k
end Sys2Proof.Machine
end

