-- ==== Sys2Proof/Laws/KeptMemory.lean ====
section
/-! SUPPORT. Memory keeps its canonical form through every operation of memory, translation, transfers, tiles and atomics. -/

set_option maxRecDepth 4000

namespace Sys2Proof.Machine

-- Ops

theorem canon_State_put (s : State) (a : Nat) (bs : List Byte) (h0 : Canon s) : Canon (s.put a bs) := by
  unfold State.put
  repeat' first | with_reducible assumption | with_reducible apply Memory.wf_write
theorem canon_State_zero (s : State) (a : Nat) (n : Nat) (h0 : Canon s) : Canon (s.zero a n) := by
  unfold State.zero
  repeat' first
      | with_reducible assumption | with_reducible apply Canon.ite | with_reducible apply Memory.wf_filter | with_reducible apply canon_State_put | intro _
theorem canon_State_spoisWrite (s : State) (a : Nat) (n : Nat) (p : Bool) (h0 : Canon s) : Canon (s.spoisWrite a n p) := by
  unfold State.spoisWrite
  repeat' first | with_reducible assumption | with_reducible apply Canon.ite | intro _
theorem canon_State_spoisClear (s : State) (a : Nat) (n : Nat) (h0 : Canon s) : Canon (s.spoisClear a n) := by
  unfold State.spoisClear
  assumption
theorem canon_State_setActor (s : State) (a : Actor) (h0 : Canon s) : Canon (s.setActor a) := by
  unfold State.setActor
  assumption
theorem canon_State_dropActor (s : State) (n : ActorName) (h0 : Canon s) : Canon (s.dropActor n) := by
  unfold State.dropActor
  assumption
theorem canon_State_modActor (s : State) (n : ActorName) (f : Actor → Actor) (h0 : Canon s) : Canon (s.modActor n f) := by
  unfold State.modActor
  repeat' first | with_reducible assumption | with_reducible apply Canon.ite | with_reducible apply canon_State_setActor | intro _
theorem canon_State_setCur (s : State) (a : Actor) (h0 : Canon s) : Canon (s.setCur a) := by
  unfold State.setCur
  repeat' first | with_reducible assumption | with_reducible apply canon_State_setActor
theorem canon_State_setCell (s : State) (c : Nat) (v : Cell) (h0 : Canon s) : Canon (s.setCell c v) := by
  unfold State.setCell
  assumption
theorem canon_State_modCell (s : State) (c : Nat) (f : Cell → Cell) (h0 : Canon s) : Canon (s.modCell c f) := by
  unfold State.modCell
  repeat' first | with_reducible assumption | with_reducible apply canon_State_setCell
theorem canon_State_modJob (s : State) (j : Nat) (f : Job → Job) (h0 : Canon s) : Canon (s.modJob j f) := by
  unfold State.modJob
  assumption
theorem canon_State_post (s : State) (d : Nat) (ev : Instr) (arg : EvArg) (h0 : Canon s) : Canon (s.post d ev arg) := by
  unfold State.post
  assumption
theorem canon_State_freshId (s : State) (h0 : Canon s) : Canon (s.freshId) := by
  unfold State.freshId
  assumption
theorem canon_State_freshVal (s : State) (h0 : Canon s) : Canon (s.freshVal) := by
  unfold State.freshVal
  assumption
theorem canon_State_trace (s : State) (kind : Nat) (a : Actor) (oth : ActorName) (seq : Nat) (chan : Nat) (rsn : Nat) (h0 : Canon s) : Canon (s.trace kind a oth seq chan rsn) := by
  unfold State.trace
  repeat' first | with_reducible assumption | with_reducible apply Canon.ite | with_reducible apply canon_State_put | intro _
theorem canon_State_clearRelay (s : State) (id : Nat) (h0 : Canon s) : Canon (s.clearRelay id) := by
  unfold State.clearRelay
  assumption
theorem canon_State_dropWork (s : State) (n : ActorName) (h0 : Canon s) : Canon (s.dropWork n) := by
  unfold State.dropWork
  assumption
theorem canon_killActor (s : State) (n : ActorName) (r : Reason) (h0 : Canon s) : Canon (killActor s n r) := by
  unfold killActor
  repeat' first
      | with_reducible assumption | with_reducible apply Canon.foldl | with_reducible apply canon_State_post | with_reducible apply canon_State_dropWork
      | with_reducible apply canon_State_setActor | with_reducible apply canon_State_clearRelay | with_reducible apply canon_State_trace | dsimp only | split
theorem canon_finish (s : State) (x1 : Res State) (h0 : Canon s) (h1 : CanonRes (fun x => Canon x) x1) : CanonOut (finish s x1) := by
  cases x1 with
  | ok t => exact h1
  | error e => cases e with
    | stall t => exact h1
    | kill r => exact canon_killActor s s.focus r h0
theorem canon_State_retire (s : State) (n : Nat) (h0 : Canon s) : Canon (s.retire n) := by
  unfold State.retire
  repeat' first | with_reducible assumption | with_reducible apply canon_State_setCur
theorem canon_State_push (s : State) (v : W64) (p : Bool) (h0 : Canon s) : Canon (s.push v p) := by
  unfold State.push
  repeat' first | with_reducible assumption | with_reducible apply canon_State_setCur
theorem canon_State_result (s : State) (n : Nat) (v : W64) (p : Bool) (h0 : Canon s) : Canon (s.result n v p) := by
  unfold State.result
  repeat' first | with_reducible assumption | with_reducible apply canon_State_setCur
theorem canon_State_modAudit (s : State) (b : Nat) (f : AuditBuf → AuditBuf) (h0 : Canon s) : Canon (s.modAudit b f) := by
  unfold State.modAudit
  assumption
theorem canon_State_logIn (s : State) (a : Actor) (e : LogEnt) (h0 : Canon s) : Canon (s.logIn a e) := by
  unfold State.logIn
  repeat' first
      | with_reducible assumption | with_reducible apply Canon.ite | with_reducible apply canon_State_post | with_reducible apply canon_State_modAudit | intro _
      | dsimp only | split
theorem canon_State_logOut (s : State) (a : Actor) (bs : List Byte) (h0 : Canon s) : Canon (s.logOut a bs) := by
  unfold State.logOut
  repeat' first | with_reducible assumption | with_reducible apply canon_State_modAudit | split
theorem canon_State_nextLog (s : State) (b : Nat) (h0 : Canon s) : Canon (s.nextLog b).2 := by
  unfold State.nextLog
  repeat' first | with_reducible assumption | with_reducible apply canon_State_modAudit | split
theorem canon_State_outside (s : State) (v : W64) (p : Bool) (h0 : Canon s) : Canon (s.outside v p).2.2 := by
  unfold State.outside
  repeat' first
      | with_reducible assumption | with_reducible apply canon_State_logIn | with_reducible apply canon_State_nextLog | dsimp only | split
      | with_reducible refine Canon.snd ‹_› ?_
theorem canon_State_pushOutside (s : State) (v : W64) (p : Bool) (h0 : Canon s) : Canon (s.pushOutside v p) := by
  unfold State.pushOutside
  repeat' first | with_reducible assumption | with_reducible apply canon_State_push | with_reducible apply canon_State_outside
theorem canon_State_pushAsked (s : State) (ask : Nat → State → State) (h0 : Canon s) (h1 : ∀ (y0 : Nat) (y1 : State) (_ : Canon y1), Canon (ask y0 y1)) : Canon (s.pushAsked ask) := by
  unfold State.pushAsked
  repeat' first
      | with_reducible assumption | with_reducible apply canon_State_pushOutside | with_reducible apply h1 | with_reducible apply canon_State_setCur
      | with_reducible apply canon_State_logIn | with_reducible apply canon_State_freshId | dsimp only | split
theorem canon_State_answer (s : State) (n : ActorName) (tok : Nat) (v : W64) (p : Bool) (h0 : Canon s) : Canon (s.answer n tok v p) := by
  unfold State.answer
  repeat' first | with_reducible assumption | with_reducible apply canon_State_modActor

-- Links

theorem canon_State_setModule (s : State) (m : Nat) (u : Ucie) (h0 : Canon s) : Canon (s.setModule m u) := by
  unfold State.setModule
  assumption
theorem canon_State_modDir (s : State) (m : Nat) (d : Bool) (f : UcieDir → UcieDir) (h0 : Canon s) : Canon (s.modDir m d f) := by
  unfold State.modDir
  repeat' first | with_reducible assumption | with_reducible apply canon_State_setModule
theorem canon_State_forwardWire (s : State) (w : Wire) (h0 : Canon s) : Canon (s.forwardWire w) := by
  unfold State.forwardWire
  repeat' first | with_reducible assumption | with_reducible apply canon_State_post | with_reducible apply canon_State_modDir | dsimp only | split
theorem canon_State_travel (s : State) (src : Nat) (dst : Nat) (n : Nat) (parts : List (List Byte)) (ev : Event) (h0 : Canon s) : Canon (s.travel src dst n parts ev) := by
  unfold State.travel
  repeat' first | with_reducible assumption | with_reducible apply canon_State_forwardWire | with_reducible apply canon_State_freshId
theorem canon_State_setStation (s : State) (k : Nat) (v : Station) (h0 : Canon s) : Canon (s.setStation k v) := by
  unfold State.setStation
  assumption
theorem canon_State_fabricSend (s : State) (k : Nat) (i : Nat) (e : StationEnt) (h0 : Canon s) : Canon (s.fabricSend k i e) := by
  unfold State.fabricSend
  repeat' first | with_reducible assumption | with_reducible apply canon_State_post | with_reducible apply canon_State_setStation | dsimp only | split
theorem canon_State_enterStation (s : State) (k : Nat) (e : StationEnt) (h0 : Canon s) : Canon (s.enterStation k e) := by
  unfold State.enterStation
  repeat' first
      | with_reducible assumption | with_reducible apply canon_State_fabricSend | with_reducible apply canon_State_setStation | dsimp only | split
theorem canon_State_freeEntry (s : State) (k : Nat) (i : Nat) (h0 : Canon s) : Canon (s.freeEntry k i) := by
  unfold State.freeEntry
  repeat' first
      | with_reducible assumption | with_reducible apply canon_State_setStation | with_reducible apply canon_State_fabricSend | dsimp only | split
theorem canon_State_fabricMessage (s : State) (rq : Nat) (m : Nat) (bytes : List Byte) (g : EvArg) (h0 : Canon s) : Canon (s.fabricMessage rq m bytes g) := by
  unfold State.fabricMessage
  repeat' first | with_reducible assumption | with_reducible apply canon_State_travel | split
theorem canon_State_setPort (s : State) (rq : Nat) (h : Home) (p : Port) (h0 : Canon s) : Canon (s.setPort rq h p) := by
  unfold State.setPort
  assumption
theorem canon_State_launchPkt (s : State) (p : Packet) (h0 : Canon s) : Canon (s.launchPkt p) := by
  unfold State.launchPkt
  repeat' first | with_reducible assumption | with_reducible apply canon_State_travel
theorem canon_State_resendPkt (s : State) (p : Packet) (h0 : Canon s) : Canon (s.resendPkt p) := by
  unfold State.resendPkt
  repeat' first
      | with_reducible assumption | with_reducible apply Canon.ite | with_reducible apply canon_State_setPort | with_reducible apply canon_State_launchPkt
      | intro _ | split
theorem canon_State_sendPkt (s : State) (p : Packet) (h0 : Canon s) : Canon (s.sendPkt p) := by
  unfold State.sendPkt
  repeat' first
      | with_reducible assumption | with_reducible apply Canon.ite | with_reducible apply canon_State_resendPkt | with_reducible apply canon_State_setPort
      | with_reducible apply canon_State_modActor | intro _
theorem canon_State_sendAgain (s : State) (p : Packet) (h0 : Canon s) : Canon (s.sendAgain p) := by
  unfold State.sendAgain
  repeat' first | with_reducible assumption | with_reducible apply canon_State_resendPkt | with_reducible apply canon_State_modActor
theorem canon_State_freeTag (s : State) (r : Reply) (h0 : Canon s) : Canon (s.freeTag r) := by
  unfold State.freeTag
  repeat' first
      | with_reducible assumption | with_reducible apply Canon.ite | with_reducible apply Canon.foldl | with_reducible apply canon_State_modActor
      | with_reducible apply canon_State_setPort | with_reducible apply canon_State_launchPkt | intro _ | dsimp only | split
theorem canon_State_sendReply (s : State) (r : Reply) (h0 : Canon s) : Canon (s.sendReply r) := by
  unfold State.sendReply
  repeat' first
      | with_reducible assumption | with_reducible apply Canon.ite | with_reducible apply canon_State_post | with_reducible apply canon_State_travel | intro _
      | split
theorem canon_State_sendFlit (s : State) (m : Nat) (d : Bool) (f : Flit) (h0 : Canon s) : Canon (s.sendFlit m d f) := by
  unfold State.sendFlit
  repeat' first | with_reducible assumption | with_reducible apply canon_State_post | with_reducible apply canon_State_freshVal
theorem canon_State_takeAck (s : State) (m : Nat) (d : Bool) (k : Nat) (h0 : Canon s) : Canon (s.takeAck m d k) := by
  unfold State.takeAck
  repeat' first
      | with_reducible assumption | with_reducible apply Canon.ite | with_reducible apply canon_State_modDir | with_reducible apply canon_State_post | intro _
theorem canon_execFlitTransmit (s : State) (h0 : Canon s) : CanonOut (execFlitTransmit s) := by
  unfold execFlitTransmit
  repeat' first
      | with_reducible assumption | with_reducible apply Canon.ite | with_reducible apply CanonOut.ite | with_reducible apply CanonOut.next
      | with_reducible apply canon_State_sendFlit | with_reducible apply canon_State_modDir | with_reducible apply canon_State_post | intro _
theorem canon_State_record (s : State) (q : Nat) (kind : Nat) (stat : Nat) (low : Nat) (m1 : W64) (m2 : W64) (h0 : Canon s) : Canon (s.record q kind stat low m1 m2) := by
  unfold State.record
  repeat' first | with_reducible assumption | with_reducible apply canon_State_post
theorem canon_State_linkEvent (s : State) (m : Nat) (stat : Nat) (h0 : Canon s) : Canon (s.linkEvent m stat) := by
  unfold State.linkEvent
  repeat' first | with_reducible assumption | with_reducible apply canon_State_record
theorem canon_State_loseFlits (s : State) (m : Nat) (h0 : Canon s) : Canon (s.loseFlits m) := by
  unfold State.loseFlits
  assumption
theorem canon_State_startRetrain (s : State) (m : Nat) (wide : Bool) (h0 : Canon s) : Canon (s.startRetrain m wide) := by
  unfold State.startRetrain
  repeat' first
      | with_reducible assumption | with_reducible apply canon_State_post | with_reducible apply canon_State_loseFlits
      | with_reducible apply canon_State_setModule
theorem canon_State_linkFallback (s : State) (m : Nat) (d : Bool) (h0 : Canon s) : Canon (s.linkFallback m d) := by
  unfold State.linkFallback
  repeat' first
      | with_reducible assumption | with_reducible apply Canon.ite | with_reducible apply canon_State_startRetrain | with_reducible apply canon_State_linkEvent
      | intro _
theorem canon_State_acceptChunks (s : State) (pay : List Chunk) (h0 : Canon s) : Canon (s.acceptChunks pay) := by
  unfold State.acceptChunks
  repeat' first
      | with_reducible assumption | with_reducible apply Canon.ite | with_reducible apply Canon.foldl | with_reducible apply canon_State_forwardWire | intro _
      | split
theorem canon_execFlitReceive (s : State) (h0 : Canon s) : CanonOut (execFlitReceive s) := by
  unfold execFlitReceive
  repeat' first
      | with_reducible assumption | with_reducible apply Canon.ite | with_reducible apply CanonOut.ite | with_reducible apply CanonOut.next
      | with_reducible apply canon_State_linkFallback | with_reducible apply canon_State_post | with_reducible apply canon_State_modDir
      | with_reducible apply canon_State_sendFlit | with_reducible apply canon_State_takeAck | with_reducible apply canon_State_acceptChunks | intro _
      | dsimp only | split
theorem canon_execNakResend (s : State) (h0 : Canon s) : CanonOut (execNakResend s) := by
  unfold execNakResend
  repeat' first
      | with_reducible assumption | with_reducible apply CanonOut.ite | with_reducible apply CanonOut.next | with_reducible apply Canon.foldl
      | with_reducible apply canon_State_post | with_reducible apply canon_State_modDir | with_reducible apply canon_State_sendFlit | intro _
theorem canon_execIdleFlit (s : State) (h0 : Canon s) : CanonOut (execIdleFlit s) := by
  unfold execIdleFlit
  repeat' first
      | with_reducible assumption | with_reducible apply Canon.ite | with_reducible apply CanonOut.next | with_reducible apply canon_State_sendFlit | intro _
theorem canon_execErrorWindowEnd (s : State) (h0 : Canon s) : CanonOut (execErrorWindowEnd s) := by
  unfold execErrorWindowEnd
  repeat' first | with_reducible assumption | with_reducible apply CanonOut.next | with_reducible apply canon_State_modDir
theorem canon_State_disableModule (s : State) (m : Nat) (h0 : Canon s) : Canon (s.disableModule m) := by
  unfold State.disableModule
  repeat' first
      | with_reducible assumption | with_reducible apply Canon.ite | with_reducible apply canon_State_linkEvent | with_reducible apply canon_State_modDir
      | with_reducible apply canon_State_setModule | with_reducible apply canon_State_loseFlits | with_reducible apply canon_State_post | intro _ | dsimp only
      | split
theorem canon_execRetrainComplete (s : State) (h0 : Canon s) : CanonOut (execRetrainComplete s) := by
  unfold execRetrainComplete
  repeat' first
      | with_reducible assumption | with_reducible apply CanonOut.ite | with_reducible apply CanonOut.next | with_reducible apply Canon.foldl
      | with_reducible apply canon_State_post | with_reducible apply canon_State_setModule | with_reducible apply canon_State_freshVal
      | with_reducible apply canon_State_sendFlit | with_reducible apply canon_State_startRetrain | with_reducible apply canon_State_disableModule | intro _
theorem canon_execD2dRetrain (s : State) (h0 : Canon s) : CanonOut (execD2dRetrain s) := by
  unfold execD2dRetrain
  repeat' first
      | with_reducible assumption | with_reducible apply Canon.ite | with_reducible apply CanonOut.next | with_reducible apply canon_State_startRetrain | intro _

-- Operands

theorem canon_operand (s : State) (sel : Scalar) (h0 : Canon s) : CanonRes (fun _ => True) (operand s sel) := by
  unfold operand
  repeat' first | with_reducible assumption | exact trivial | with_reducible apply CanonRes.stall | split
theorem canon_cleanOperand (s : State) (sel : Scalar) (h0 : Canon s) : CanonRes (fun _ => True) (cleanOperand s sel) := by
  unfold cleanOperand
  repeat' first
      | with_reducible assumption | exact trivial | with_reducible apply CanonRes.check | with_reducible apply CanonRes.bind0 | with_reducible apply canon_operand
      | intro _
theorem canon_param (s : State) (hi : Bool) (x2 : PWord) (h0 : Canon s) : CanonRes (fun _ => True) (param s hi x2) := by
  unfold param
  repeat' first
      | with_reducible assumption | exact trivial | with_reducible apply CanonRes.bind0 | with_reducible apply canon_cleanOperand | intro _ | split
theorem canon_param64 (s : State) (lo : PWord) (hi : PWord) (h0 : Canon s) : CanonRes (fun _ => True) (param64 s lo hi) := by
  unfold param64
  repeat' first | with_reducible assumption | exact trivial | with_reducible apply CanonRes.bind0 | with_reducible apply canon_param | intro _
theorem canon_resolve (a : Actor) (dst : Bool) (x2 : TileSel) : CanonRes (fun _ => True) (resolve a dst x2) := by
  unfold resolve
  repeat' first | exact trivial | with_reducible apply CanonRes.ite | intro _ | dsimp only | split
theorem canon_needRead (s : State) (h : Nat) (h0 : Canon s) : CanonRes (fun _ => True) (needRead s h) := by
  unfold needRead
  repeat' first | with_reducible assumption | exact trivial | with_reducible apply CanonRes.stall | dsimp only | split
theorem canon_needWrite (s : State) (h : Nat) (h0 : Canon s) : CanonRes (fun _ => True) (needWrite s h) := by
  unfold needWrite
  repeat' first | with_reducible assumption | exact trivial | with_reducible apply CanonRes.stall | dsimp only | split
theorem canon_needSend (s : State) (h : Nat) (h0 : Canon s) : CanonRes (fun _ => True) (needSend s h) := by
  unfold needSend
  repeat' first | with_reducible assumption | with_reducible apply canon_needRead
theorem canon_needDef (s : State) (h : Nat) (isFree : Bool) (h0 : Canon s) : CanonRes (fun _ => True) (needDef s h isFree) := by
  unfold needDef
  repeat' first
      | with_reducible assumption | exact trivial | with_reducible apply CanonRes.ite | with_reducible apply CanonRes.stall | intro _ | dsimp only | split
theorem canon_needDesc (a : Actor) (e : TileEnt) : CanonRes (fun _ => True) (needDesc a e) := by
  unfold needDesc
  repeat' first | exact trivial | with_reducible apply CanonRes.check | with_reducible apply CanonRes.bind0 | intro _
theorem canon_needSize (a : Actor) (e : TileEnt) (d : Desc) : CanonRes (fun _ => True) (needSize a e d) := by
  unfold needSize
  repeat' first | exact trivial | with_reducible apply CanonRes.check | with_reducible apply CanonRes.bind0 | intro _
theorem canon_State_retireWith (s : State) (n : Nat) (marks : List (Bool × Nat)) (h0 : Canon s) : Canon (s.retireWith n marks) := by
  unfold State.retireWith
  repeat' first | with_reducible assumption | with_reducible apply canon_State_setCur

-- Translate

theorem canon_buoyCheck (s : State) (e : Ext) (pa : Nat) (h0 : Canon s) : CanonRes (fun _ => True) (buoyCheck s e pa) := by
  unfold buoyCheck
  repeat' first | exact trivial | with_reducible apply CanonRes.ite | with_reducible apply CanonRes.check | with_reducible apply CanonRes.bind0 | intro _
theorem canon_look (s : State) (a : Actor) (acc : Access) (va : Nat) (h0 : Canon s) : CanonRes (fun _ => True) (look s a acc va) := by
  unfold look
  repeat' first
      | with_reducible assumption | exact trivial | with_reducible apply CanonRes.check | with_reducible apply CanonRes.bind0
      | with_reducible apply canon_buoyCheck | intro _ | dsimp only | split
theorem canon_lookAll (s : State) (a : Actor) (acc : Access) (x3 : List Nat) (h0 : Canon s) : CanonRes (fun _ => True) (lookAll s a acc x3) := by
  induction x3 generalizing s with
  | nil => unfold lookAll; repeat' first | exact trivial
  | cons b l ih =>
    unfold lookAll
    repeat' first
        | with_reducible assumption | exact trivial | with_reducible apply CanonRes.bind0 | with_reducible apply canon_look | with_reducible apply ih | intro _
theorem canon_State_askWalk (s : State) (n : ActorName) (va : Nat) (h0 : Canon s) : Canon (s.askWalk n va) := by
  unfold State.askWalk
  repeat' first
      | with_reducible assumption | with_reducible apply Canon.ite | with_reducible apply canon_State_post | with_reducible apply canon_State_modActor | intro _
theorem canon_resolveVas (s : State) (acc : Access) (vas : List Nat) (h0 : Canon s) : CanonRes (fun x => Canon x.1) (resolveVas s acc vas) := by
  unfold resolveVas
  repeat' first
      | with_reducible assumption | with_reducible apply CanonRes.ite | with_reducible apply CanonRes.stall | with_reducible apply CanonRes.bind0
      | with_reducible apply CanonRes.ok | with_reducible apply CanonRes.pure | with_reducible apply Canon.foldl | with_reducible apply canon_lookAll
      | with_reducible apply canon_State_askWalk | with_reducible apply canon_State_setCur | intro _
theorem canon_State_charge (s : State) (j : Nat) (f : Nat → Nat) (h0 : Canon s) : Canon (s.charge j f) := by
  unfold State.charge
  repeat' first | with_reducible assumption | with_reducible apply canon_State_modJob
theorem canon_State_backRun (s : State) (a : Actor) (r : RegionRec) (vp : Nat) (n : Nat) (p : Nat) (h0 : Canon s) : Canon (s.backRun a r vp n p) := by
  unfold State.backRun
  repeat' first
      | with_reducible assumption | with_reducible apply Canon.ite | with_reducible apply canon_State_charge | with_reducible apply canon_State_zero | intro _
theorem canon_State_backAs (s : State) (a : Actor) (r : RegionRec) (x3 : Nat) (vp : Nat) (n : Nat) (h0 : Canon s) : CanonOpt (fun x => Canon x) (s.backAs a r x3 vp n) := by
  unfold State.backAs
  repeat' first
      | with_reducible assumption | exact trivial | with_reducible apply CanonOpt.ite | with_reducible apply CanonOpt.some
      | with_reducible apply canon_State_backRun | intro _ | dsimp only | split
theorem canon_State_back (s : State) (a : Actor) (r : RegionRec) (vp : Nat) (h0 : Canon s) : CanonOpt (fun x => Canon x) (s.back a r vp) := by
  unfold State.back
  repeat' first | with_reducible assumption | with_reducible apply canon_State_backAs
theorem canon_State_unback (s : State) (p : Backing → Bool) (h0 : Canon s) : Canon (s.unback p) := by
  unfold State.unback
  repeat' first
      | with_reducible assumption | with_reducible apply Canon.ite | with_reducible apply Canon.foldl | with_reducible apply canon_State_charge | intro _

-- Flags

theorem canon_guardVal (a : Actor) (g : Guard) : CanonRes (fun _ => True) (guardVal a g) := by
  unfold guardVal
  repeat' first | exact trivial | with_reducible apply CanonRes.check | with_reducible apply CanonRes.bind0 | intro _
theorem canon_guardedOff (s : State) (n : Nat) (pushes : List Scalar) (h0 : Canon s) : Canon (guardedOff s n pushes) := by
  unfold guardedOff
  repeat' first | with_reducible assumption | with_reducible apply canon_State_setCur
theorem canon_guarded (s : State) (g : Guard) (n : Nat) (pushes : List Scalar) (body : Res State) (h0 : Canon s) (h1 : CanonRes (fun x => Canon x) body) : CanonOut (guarded s g n pushes body) := by
  unfold guarded
  repeat' first
      | with_reducible assumption | with_reducible apply CanonRes.ite | with_reducible apply CanonRes.bind0 | with_reducible apply CanonRes.pure
      | with_reducible apply canon_finish | with_reducible apply canon_guardVal | with_reducible apply canon_guardedOff | intro _
theorem canon_bootOnly (s : State) (o : Out) (h0 : Canon s) (h1 : CanonOut o) : CanonOut (bootOnly s o) := by
  unfold bootOnly
  repeat' first | with_reducible assumption | exact trivial | with_reducible apply CanonOut.ite | with_reducible apply canon_finish | intro _
theorem canon_unguarded (s : State) (body : Res State) (h0 : Canon s) (h1 : CanonRes (fun x => Canon x) body) : CanonOut (unguarded s body) := by
  unfold unguarded
  repeat' first | with_reducible assumption | with_reducible apply canon_finish

-- Transfer

theorem canon_State_addXfer (s : State) (c : Nat) (x : Xfer) (h0 : Canon s) : Canon (s.addXfer c x) := by
  unfold State.addXfer
  repeat' first | with_reducible assumption | with_reducible apply canon_State_modCell
theorem canon_State_modXfer (s : State) (c : Nat) (id : Nat) (f : Xfer → Xfer) (h0 : Canon s) : Canon (s.modXfer c id f) := by
  unfold State.modXfer
  repeat' first | with_reducible assumption | with_reducible apply canon_State_modCell
theorem canon_State_delXfer (s : State) (c : Nat) (id : Nat) (h0 : Canon s) : Canon (s.delXfer c id) := by
  unfold State.delXfer
  repeat' first | with_reducible assumption | with_reducible apply canon_State_modCell
theorem canon_needXfer (s : State) (h0 : Canon s) : CanonRes (fun _ => True) (needXfer s) := by
  unfold needXfer
  repeat' first | with_reducible assumption | exact trivial | with_reducible apply CanonRes.ite | with_reducible apply CanonRes.stall | intro _
theorem canon_needGlobal (s : State) (h0 : Canon s) : CanonRes (fun _ => True) (needGlobal s) := by
  unfold needGlobal
  repeat' first | with_reducible assumption | exact trivial | with_reducible apply CanonRes.ite | with_reducible apply CanonRes.stall | intro _
theorem canon_State_lookFor (s : State) (n : ActorName) (acc : Access) (va : Nat) (h0 : Canon s) : Canon (s.lookFor n acc va).2 := by
  unfold State.lookFor
  repeat' first
      | with_reducible assumption | with_reducible apply canon_State_modActor | with_reducible apply canon_State_askWalk | with_reducible apply canon_look
      | dsimp only | split | with_reducible refine Canon.rstall0 ‹_› ?_
theorem canon_State_logFetched (s : State) (x : Xfer) (h0 : Canon s) : Canon (s.logFetched x) := by
  unfold State.logFetched
  repeat' first | with_reducible assumption | with_reducible apply Canon.ite | intro _
theorem canon_State_landed (s : State) (x : Xfer) (h0 : Canon s) : Canon (s.landed x) := by
  unfold State.landed
  repeat' first | with_reducible assumption | with_reducible apply canon_State_modActor | with_reducible apply canon_State_logFetched
theorem canon_State_maybeDone (s : State) (c : Nat) (id : Nat) (h0 : Canon s) : Canon (s.maybeDone c id) := by
  unfold State.maybeDone
  repeat' first | with_reducible assumption | with_reducible apply Canon.ite | with_reducible apply canon_State_post | intro _ | split
theorem canon_State_sourceRead (s : State) (n : ActorName) (h : Option Nat) (h0 : Canon s) : Canon (s.sourceRead n h) := by
  unfold State.sourceRead
  repeat' first | with_reducible assumption | with_reducible apply canon_State_modActor | split
theorem canon_State_fetchPiece (s : State) (c : Nat) (x : Xfer) (p : Piece) (pa : Nat) (h0 : Canon s) : Canon (s.fetchPiece c x p pa) := by
  unfold State.fetchPiece
  repeat' first | with_reducible assumption | with_reducible apply canon_State_sendPkt | with_reducible apply canon_State_modXfer
theorem canon_State_goOn (s : State) (c : Nat) (id : Nat) (h0 : Canon s) : Canon (s.goOn c id) := by
  unfold State.goOn
  repeat' first | with_reducible assumption | with_reducible apply canon_State_post
theorem canon_State_addPieces (s : State) (c : Nat) (x : Xfer) (ps : List Piece) (h0 : Canon s) : Canon (s.addPieces c x ps) := by
  unfold State.addPieces
  repeat' first
      | with_reducible assumption | with_reducible apply Canon.ite | with_reducible apply canon_State_goOn | with_reducible apply canon_State_modXfer | intro _
theorem canon_State_addFetches (s : State) (c : Nat) (x : Xfer) (ps : List Piece) (h0 : Canon s) : Canon (s.addFetches c x ps) := by
  unfold State.addFetches
  repeat' first
      | with_reducible assumption | with_reducible apply Canon.ite | with_reducible apply canon_State_goOn | with_reducible apply canon_State_modXfer | intro _
theorem canon_State_sideAdd (s : State) (c : Nat) (e : SideEnt) (h0 : Canon s) : Canon (s.sideAdd c e) := by
  unfold State.sideAdd
  repeat' first | with_reducible assumption | with_reducible apply canon_State_modCell
theorem canon_needSide (s : State) (need : Bool) (h0 : Canon s) : CanonRes (fun _ => True) (needSide s need) := by
  unfold needSide
  repeat' first | with_reducible assumption | exact trivial | with_reducible apply CanonRes.ite | with_reducible apply CanonRes.stall | intro _
theorem canon_State_contribPiece (s : State) (c : Nat) (x : Xfer) (p : Piece) (pa : Nat) (h0 : Canon s) : Canon (s.contribPiece c x p pa) := by
  unfold State.contribPiece
  repeat' first
      | with_reducible assumption | with_reducible apply Canon.ite | with_reducible apply canon_killActor | with_reducible apply canon_State_sendPkt
      | with_reducible apply canon_State_modXfer | intro _
theorem canon_State_replayPiece (s : State) (c : Nat) (e : SideEnt) (p : Piece) (pa : Nat) (h0 : Canon s) : Canon (s.replayPiece c e p pa) := by
  unfold State.replayPiece
  repeat' first
      | with_reducible assumption | with_reducible apply canon_State_sendPkt | with_reducible apply canon_State_contribPiece
      | with_reducible apply canon_State_addPieces | split
theorem canon_State_replayEntry (s : State) (c : Nat) (e : SideEnt) (x3 : List Piece) (h0 : Canon s) : Canon (s.replayEntry c e x3).1 := by
  induction x3 generalizing s with
  | nil => unfold State.replayEntry; assumption
  | cons b l ih =>
    unfold State.replayEntry
    repeat' first
        | with_reducible assumption | with_reducible apply ih | with_reducible apply canon_State_replayPiece | with_reducible apply canon_State_lookFor
        | with_reducible apply canon_killActor | dsimp only | split | with_reducible refine Canon.snd ‹_› ?_
theorem canon_State_settle (s : State) (c : Nat) (e : SideEnt) (left : List Piece) (h0 : Canon s) : Canon (s.settle c e left) := by
  unfold State.settle
  repeat' first
      | with_reducible assumption | with_reducible apply Canon.ite | with_reducible apply canon_State_maybeDone | with_reducible apply canon_State_sourceRead
      | with_reducible apply canon_State_modXfer | with_reducible apply canon_State_modCell | intro _ | dsimp only | split
theorem canon_State_replay (s : State) (c : Nat) (n : ActorName) (x3 : List SideEnt) (x4 : List Nat) (h0 : Canon s) : Canon (s.replay c n x3 x4) := by
  induction x3 generalizing s x4 with
  | nil => unfold State.replay; assumption
  | cons b l ih =>
    unfold State.replay
    repeat' first
        | with_reducible assumption | with_reducible apply Canon.ite | with_reducible apply ih | with_reducible apply canon_State_settle
        | with_reducible apply canon_State_replayEntry | intro _ | split
theorem canon_execSideLogReplay (s : State) (h0 : Canon s) : CanonOut (execSideLogReplay s) := by
  unfold execSideLogReplay
  repeat' first | with_reducible assumption | with_reducible apply CanonOut.next | with_reducible apply canon_State_replay
theorem canon_State_sideFree (s : State) (c : Nat) (id : Nat) (h0 : Canon s) : Canon (s.sideFree c id) := by
  unfold State.sideFree
  repeat' first | with_reducible assumption | with_reducible apply canon_State_modCell
theorem canon_State_sideNext (s : State) (c : Nat) (n : ActorName) (h0 : Canon s) : Canon (s.sideNext c n) := by
  unfold State.sideNext
  repeat' first | with_reducible assumption | with_reducible apply Canon.ite | with_reducible apply canon_State_post | intro _
theorem canon_State_retryPieces (s : State) (x : Xfer) (x2 : List Piece) (h0 : Canon s) : Canon (s.retryPieces x x2).1 := by
  induction x2 generalizing s with
  | nil => unfold State.retryPieces; assumption
  | cons b l ih =>
    unfold State.retryPieces
    repeat' first
        | with_reducible assumption | with_reducible apply ih | with_reducible apply canon_State_lookFor | with_reducible apply canon_killActor | dsimp only
        | split | with_reducible refine Canon.snd ‹_› ?_
theorem canon_State_resume (s : State) (n : ActorName) (h0 : Canon s) : Canon (s.resume n) := by
  unfold State.resume
  repeat' first
      | with_reducible assumption | with_reducible apply Canon.ite | with_reducible apply Canon.foldl | with_reducible apply canon_State_sideNext
      | with_reducible apply canon_State_addFetches | with_reducible apply canon_State_modXfer | with_reducible apply canon_State_retryPieces | intro _
theorem canon_State_indexPieces (s : State) (x : Xfer) (acc : Access) (x3 : List Piece) (h0 : Canon s) : Canon (s.indexPieces x acc x3).1 := by
  induction x3 generalizing s with
  | nil => unfold State.indexPieces; assumption
  | cons b l ih =>
    unfold State.indexPieces
    repeat' first
        | with_reducible assumption | with_reducible apply ih | with_reducible apply canon_State_lookFor | with_reducible apply canon_killActor | dsimp only
        | split | with_reducible refine Canon.snd ‹_› ?_
theorem canon_State_readIndex (s : State) (c : Nat) (x : Xfer) (h0 : Canon s) : Canon (s.readIndex c x) := by
  unfold State.readIndex
  repeat' first
      | with_reducible assumption | with_reducible apply Canon.ite | with_reducible apply canon_killActor | with_reducible apply canon_State_modXfer
      | with_reducible apply canon_State_modActor | with_reducible apply canon_State_indexPieces | with_reducible apply canon_State_addPieces
      | with_reducible apply canon_State_sourceRead | with_reducible apply canon_State_post | with_reducible apply canon_State_sideAdd
      | with_reducible apply canon_State_addFetches | intro _ | split
theorem canon_State_copyUnit (s : State) (src : Nat) (dst : Nat) (n : Nat) (h0 : Canon s) : Canon (s.copyUnit src dst n) := by
  unfold State.copyUnit
  repeat' first
      | with_reducible assumption | with_reducible apply Canon.foldl | with_reducible apply canon_State_put | with_reducible apply canon_State_spoisWrite
      | intro _
theorem canon_State_writeSent (s : State) (c : Nat) (x : Xfer) (h0 : Canon s) : Canon (s.writeSent c x) := by
  unfold State.writeSent
  repeat' first
      | with_reducible assumption | with_reducible apply Canon.ite | with_reducible apply canon_State_sideNext | with_reducible apply canon_State_maybeDone
      | with_reducible apply canon_State_sourceRead | intro _
theorem canon_State_writeSlot (s : State) (c : Nat) (x : Xfer) (h0 : Canon s) : Canon (s.writeSlot c x) := by
  unfold State.writeSlot
  repeat' first
      | with_reducible assumption | with_reducible apply Canon.ite | with_reducible apply Canon.foldl | with_reducible apply canon_killActor
      | with_reducible apply canon_State_goOn | with_reducible apply canon_State_modXfer | with_reducible apply canon_State_writeSent
      | with_reducible apply canon_State_sendPkt | intro _ | dsimp only | split
theorem canon_State_fetchSlot (s : State) (c : Nat) (x : Xfer) (h0 : Canon s) : Canon (s.fetchSlot c x) := by
  unfold State.fetchSlot
  repeat' first
      | with_reducible assumption | with_reducible apply Canon.ite | with_reducible apply canon_State_fetchPiece | with_reducible apply canon_State_modXfer
      | with_reducible apply canon_State_goOn | intro _ | dsimp only | split
theorem canon_execOutboundReadDone (s : State) (h0 : Canon s) : CanonOut (execOutboundReadDone s) := by
  unfold execOutboundReadDone
  repeat' first
      | with_reducible assumption | with_reducible apply Canon.ite | with_reducible apply CanonOut.ite | with_reducible apply CanonOut.next
      | with_reducible apply canon_State_writeSlot | with_reducible apply canon_State_fetchSlot | with_reducible apply canon_State_readIndex
      | with_reducible apply canon_State_goOn | with_reducible apply canon_State_modXfer | with_reducible apply canon_State_copyUnit
      | with_reducible apply canon_State_post | with_reducible apply canon_State_sourceRead | with_reducible apply canon_killActor
      | with_reducible apply canon_State_modActor | with_reducible apply canon_State_maybeDone | intro _ | dsimp only | split
theorem canon_execTransferComplete (s : State) (h0 : Canon s) : CanonOut (execTransferComplete s) := by
  unfold execTransferComplete
  repeat' first
      | with_reducible assumption | with_reducible apply Canon.ite | with_reducible apply CanonOut.next | with_reducible apply canon_State_sourceRead
      | with_reducible apply canon_State_landed | with_reducible apply canon_State_sideFree | with_reducible apply canon_State_delXfer | intro _ | dsimp only
      | split
theorem canon_State_landRow (s : State) (x : Xfer) (p : Piece) (r : Reply) (x4 : Nat) (h0 : Canon s) : Canon (s.landRow x p r x4) := by
  unfold State.landRow
  repeat' first
      | with_reducible assumption | with_reducible apply Canon.foldl | with_reducible apply canon_State_put | with_reducible apply canon_State_spoisWrite
      | intro _
theorem canon_execRdr (s : State) (h0 : Canon s) : CanonOut (execRdr s) := by
  unfold execRdr
  repeat' first
      | with_reducible assumption | with_reducible apply Canon.ite | with_reducible apply CanonOut.ite | with_reducible apply CanonOut.next
      | with_reducible apply canon_State_freeTag | with_reducible apply canon_State_post | with_reducible apply canon_State_landRow
      | with_reducible apply canon_State_maybeDone | with_reducible apply canon_State_modXfer | intro _ | dsimp only | split
theorem canon_State_portalAck (s : State) (pa : Nat) (mask : Nat) (n : Nat) (h0 : Canon s) : Canon (s.portalAck pa mask n) := by
  unfold State.portalAck
  repeat' first
      | with_reducible assumption | with_reducible apply Canon.ite | with_reducible apply Canon.foldl | with_reducible apply canon_State_post | intro _
theorem canon_execWack (s : State) (h0 : Canon s) : CanonOut (execWack s) := by
  unfold execWack
  repeat' first
      | with_reducible assumption | with_reducible apply CanonOut.ite | with_reducible apply CanonOut.next | with_reducible apply canon_State_portalAck
      | with_reducible apply canon_State_freeTag | with_reducible apply canon_State_maybeDone | with_reducible apply canon_State_modXfer | intro _

-- Units

theorem canon_needNoHold (s : State) (off : Nat) (n : Nat) (h0 : Canon s) : CanonRes (fun _ => True) (needNoHold s off n) := by
  unfold needNoHold
  repeat' first | with_reducible assumption | exact trivial | with_reducible apply CanonRes.ite | with_reducible apply CanonRes.stall | intro _
theorem canon_needM (s : State) (h0 : Canon s) : CanonRes (fun _ => True) (needM s) := by
  unfold needM
  repeat' first | with_reducible assumption | exact trivial | with_reducible apply CanonRes.ite | with_reducible apply CanonRes.stall | intro _
theorem canon_needV (s : State) (h0 : Canon s) : CanonRes (fun _ => True) (needV s) := by
  unfold needV
  repeat' first | with_reducible assumption | exact trivial | with_reducible apply CanonRes.ite | with_reducible apply CanonRes.stall | intro _
theorem canon_State_unbindIfOver (s : State) (c : Nat) (b : ActorName × Nat) (h0 : Canon s) : Canon (s.unbindIfOver c b) := by
  unfold State.unbindIfOver
  repeat' first | with_reducible assumption | with_reducible apply Canon.ite | with_reducible apply canon_State_modCell | intro _
theorem canon_State_startM (s : State) (d : Nat) (j : UnitJob) (h0 : Canon s) : Canon (s.startM d j) := by
  unfold State.startM
  repeat' first | with_reducible assumption | with_reducible apply canon_State_post | with_reducible apply canon_State_modCell
theorem canon_State_startV (s : State) (d : Nat) (j : UnitJob) (h0 : Canon s) : Canon (s.startV d j) := by
  unfold State.startV
  repeat' first | with_reducible assumption | with_reducible apply canon_State_post | with_reducible apply canon_State_modCell
theorem canon_State_unitWrites (s : State) (j : UnitJob) (h0 : Canon s) : Canon (s.unitWrites j) := by
  unfold State.unitWrites
  repeat' first
      | with_reducible assumption | with_reducible apply Canon.ite | with_reducible apply Canon.foldl | with_reducible apply canon_State_modActor
      | with_reducible apply canon_State_put | intro _
theorem canon_execMatrixComplete (s : State) (h0 : Canon s) : CanonOut (execMatrixComplete s) := by
  unfold execMatrixComplete
  repeat' first
      | with_reducible assumption | with_reducible apply Canon.ite | with_reducible apply CanonOut.next | with_reducible apply Canon.foldl
      | with_reducible apply canon_State_unbindIfOver | with_reducible apply canon_State_modCell | with_reducible apply canon_State_unitWrites
      | with_reducible apply canon_State_post | intro _ | dsimp only | split
theorem canon_execVectorComplete (s : State) (h0 : Canon s) : CanonOut (execVectorComplete s) := by
  unfold execVectorComplete
  repeat' first
      | with_reducible assumption | with_reducible apply CanonOut.next | with_reducible apply canon_State_modCell | with_reducible apply canon_State_unitWrites
      | dsimp only | split

-- TileMem

theorem canon_defChecks (a : Actor) (e : TileEnt) (loc : Nat) (pitch : Nat) : CanonRes (fun _ => True) (defChecks a e loc pitch) := by
  unfold defChecks
  repeat' first
      | with_reducible apply CanonRes.ite | with_reducible apply CanonRes.check | with_reducible apply CanonRes.bind0 | with_reducible apply canon_needDesc | intro _
theorem canon_execTdef (d : TileSel) (loc0 : PWord) (loc1 : PWord) (pitch : PWord) (rows : BitVec 8) (cols : BitVec 11) (fmt : Fin 16) (bar : Fin 9) (glob : Bool) (s : State) (h0 : Canon s) : CanonOut (execTdef d loc0 loc1 pitch rows cols fmt bar glob s) := by
  unfold execTdef
  repeat' first
      | with_reducible assumption | with_reducible apply CanonRes.bind0 | with_reducible apply CanonRes.pure | with_reducible apply canon_unguarded
      | with_reducible apply canon_param64 | with_reducible apply canon_param | with_reducible apply canon_resolve | with_reducible apply canon_needDef
      | with_reducible apply canon_defChecks | with_reducible apply canon_State_setCur | intro _
theorem canon_execTview (d : TileSel) (a : TileSel) (row0 : BitVec 7) (col0 : BitVec 10) (rows : BitVec 8) (cols : BitVec 11) (s : State) (h0 : Canon s) : CanonOut (execTview d a row0 col0 rows cols s) := by
  unfold execTview
  repeat' first
      | with_reducible assumption | with_reducible apply CanonRes.check | with_reducible apply CanonRes.bind0 | with_reducible apply CanonRes.pure
      | with_reducible apply canon_unguarded | with_reducible apply canon_resolve | with_reducible apply canon_needDef | with_reducible apply canon_needRead
      | with_reducible apply canon_needDesc | with_reducible apply canon_needSize | with_reducible apply canon_State_setCur | intro _
theorem canon_execTfree (d : TileSel) (s : State) (h0 : Canon s) : CanonOut (execTfree d s) := by
  unfold execTfree
  repeat' first
      | with_reducible assumption | with_reducible apply Canon.ite | with_reducible apply CanonRes.bind0 | with_reducible apply CanonRes.pure
      | with_reducible apply canon_unguarded | with_reducible apply canon_resolve | with_reducible apply canon_needDef | with_reducible apply canon_State_setCur
      | with_reducible apply canon_State_modCell | intro _
theorem canon_execTstat (a : TileSel) (hi : Bool) (s : State) (h0 : Canon s) : CanonOut (execTstat a hi s) := by
  unfold execTstat
  repeat' first
      | with_reducible assumption | with_reducible apply CanonRes.bind0 | with_reducible apply CanonRes.pure | with_reducible apply canon_unguarded
      | with_reducible apply canon_resolve | with_reducible apply canon_State_retire | with_reducible apply canon_State_pushOutside | intro _
theorem canon_execTzero (d : TileSel) (s : State) (h0 : Canon s) : CanonOut (execTzero d s) := by
  unfold execTzero
  repeat' first
      | with_reducible assumption | with_reducible apply CanonRes.check | with_reducible apply CanonRes.bind0 | with_reducible apply CanonRes.pure
      | with_reducible apply canon_unguarded | with_reducible apply canon_resolve | with_reducible apply canon_needWrite | with_reducible apply canon_needDesc
      | with_reducible apply canon_needSize | with_reducible apply canon_needNoHold | with_reducible apply canon_needV | with_reducible apply canon_State_startV
      | with_reducible apply canon_State_setCur | intro _
theorem canon_patternRecord (s : State) (g : Nat) (o : Nat) (h0 : Canon s) : CanonRes (fun _ => True) (patternRecord s g o) := by
  unfold patternRecord
  repeat' first | exact trivial | with_reducible apply CanonRes.check | with_reducible apply CanonRes.bind0 | intro _
theorem canon_globalTile (s : State) (dst : Bool) (x2 : GForm) (h0 : Canon s) : CanonRes (fun _ => True) (globalTile s dst x2) := by
  unfold globalTile
  repeat' first | exact trivial | with_reducible apply CanonRes.bind0 | with_reducible apply canon_resolve | intro _ | split
theorem canon_globalSide (s : State) (c : CopyArgs) (e : TileEnt) (wd : Nat) (g : Nat) (p2 : Nat) (h : Option Nat) (h0 : Canon s) : CanonRes (fun _ => True) (globalSide s c e wd g p2 h) := by
  unfold globalSide
  repeat' first
      | with_reducible assumption | exact trivial | with_reducible apply CanonRes.bind0 | with_reducible apply canon_patternRecord
      | with_reducible apply canon_needDesc | intro _ | dsimp only | split
theorem canon_State_begin (s : State) (x : Xfer) (drains : List Nat) (lu : Bool) (ops : List (Bool × Nat)) (h0 : Canon s) : Canon (s.begin x drains lu ops) := by
  unfold State.begin
  repeat' first | with_reducible assumption | with_reducible apply canon_State_setCur
theorem canon_State_shadowEnd (s : State) (b : Nat) (x : Xfer) (drains : List Nat) (h0 : Canon s) : Canon (s.shadowEnd b x drains) := by
  unfold State.shadowEnd
  repeat' first
      | with_reducible assumption | with_reducible apply Canon.ite | with_reducible apply Canon.foldl | with_reducible apply canon_State_landed
      | with_reducible apply canon_State_put | with_reducible apply canon_State_nextLog | with_reducible apply canon_State_sourceRead | intro _ | split
      | with_reducible refine Canon.snd ‹_› ?_
theorem canon_needOpt (h : Option Nat) (f : Nat → Res TileEnt) (h0 : ∀ (y0 : Nat), CanonRes (fun _ => True) (f y0)) : CanonRes (fun _ => True) (needOpt h f) := by
  unfold needOpt
  repeat' first | exact trivial | with_reducible apply CanonRes.map | with_reducible apply h0 | split
theorem canon_execTfetch (c : CopyArgs) (s : State) (h0 : Canon s) : CanonOut (execTfetch c s) := by
  unfold execTfetch
  repeat' first
      | with_reducible assumption | with_reducible apply CanonRes.check | with_reducible apply CanonRes.bind1 | with_reducible apply CanonRes.bind0
      | with_reducible apply CanonRes.pure | with_reducible apply canon_unguarded | with_reducible apply canon_param64 | with_reducible apply canon_param
      | with_reducible apply canon_resolve | with_reducible apply canon_globalTile | with_reducible apply canon_needWrite | with_reducible apply canon_needOpt
      | with_reducible apply canon_needRead | with_reducible apply canon_needDesc | with_reducible apply canon_globalSide | with_reducible apply canon_needSize
      | with_reducible apply canon_needNoHold | with_reducible apply canon_needXfer | with_reducible apply canon_needGlobal | with_reducible apply canon_resolveVas
      | with_reducible apply canon_State_shadowEnd | with_reducible apply canon_State_begin | with_reducible apply canon_State_freshId
      | with_reducible apply canon_State_addFetches | with_reducible apply canon_State_addXfer | with_reducible apply canon_State_logIn
      | with_reducible apply canon_State_setCur | intro _ | dsimp only | split
theorem canon_execTwrite (c : CopyArgs) (s : State) (h0 : Canon s) : CanonOut (execTwrite c s) := by
  unfold execTwrite
  repeat' first
      | with_reducible assumption | with_reducible apply Canon.ite | with_reducible apply CanonRes.ite | with_reducible apply CanonRes.stall
      | with_reducible apply CanonRes.check | with_reducible apply CanonRes.bind1 | with_reducible apply CanonRes.bind0 | with_reducible apply CanonRes.pure
      | with_reducible apply canon_unguarded | with_reducible apply canon_param64 | with_reducible apply canon_param | with_reducible apply canon_globalTile
      | with_reducible apply canon_resolve | with_reducible apply canon_needOpt | with_reducible apply canon_needWrite | with_reducible apply canon_needRead
      | with_reducible apply canon_needDesc | with_reducible apply canon_globalSide | with_reducible apply canon_needSize | with_reducible apply canon_needXfer
      | with_reducible apply canon_needGlobal | with_reducible apply canon_resolveVas | with_reducible apply canon_needSide
      | with_reducible apply canon_State_shadowEnd | with_reducible apply canon_State_logOut | with_reducible apply canon_State_begin
      | with_reducible apply canon_State_freshId | with_reducible apply canon_State_addXfer | with_reducible apply canon_State_setCur
      | with_reducible apply canon_State_post | with_reducible apply canon_State_sideAdd | intro _ | dsimp only | split
theorem canon_execTcopy (x0 : TileSel) (x1 : TileSel) (lu : Bool) (s : State) (h0 : Canon s) : CanonOut (execTcopy x0 x1 lu s) := by
  unfold execTcopy
  repeat' first
      | with_reducible assumption | with_reducible apply CanonRes.check | with_reducible apply CanonRes.bind0 | with_reducible apply CanonRes.pure
      | with_reducible apply canon_unguarded | with_reducible apply canon_resolve | with_reducible apply canon_needWrite | with_reducible apply canon_needRead
      | with_reducible apply canon_needDesc | with_reducible apply canon_needSize | with_reducible apply canon_needNoHold | with_reducible apply canon_needXfer
      | with_reducible apply canon_State_post | with_reducible apply canon_State_addXfer | with_reducible apply canon_State_begin
      | with_reducible apply canon_State_freshId | intro _
theorem canon_needIndex (s : State) (ix : Nat) (rows : Nat) (h0 : Canon s) : CanonRes (fun _ => True) (needIndex s ix rows) := by
  unfold needIndex
  repeat' first
      | exact trivial | with_reducible apply CanonRes.check | with_reducible apply CanonRes.bind0 | with_reducible apply canon_needDesc
      | with_reducible apply canon_needSize | intro _
theorem canon_execTgath (c : CopyArgs) (ix : TileSel) (s : State) (h0 : Canon s) : CanonOut (execTgath c ix s) := by
  unfold execTgath
  repeat' first
      | with_reducible assumption | with_reducible apply CanonRes.check | with_reducible apply CanonRes.bind0 | with_reducible apply CanonRes.pure
      | with_reducible apply canon_unguarded | with_reducible apply canon_param64 | with_reducible apply canon_param | with_reducible apply canon_resolve
      | with_reducible apply canon_needWrite | with_reducible apply canon_needRead | with_reducible apply canon_needDesc | with_reducible apply canon_needSize
      | with_reducible apply canon_needIndex | with_reducible apply canon_needNoHold | with_reducible apply canon_needXfer | with_reducible apply canon_needGlobal
      | with_reducible apply canon_State_shadowEnd | with_reducible apply canon_State_begin | with_reducible apply canon_State_freshId
      | with_reducible apply canon_State_post | with_reducible apply canon_State_addXfer | with_reducible apply canon_State_logIn
      | with_reducible apply canon_State_setCur | intro _ | dsimp only | split
theorem canon_execTscat (c : CopyArgs) (ix : TileSel) (s : State) (h0 : Canon s) : CanonOut (execTscat c ix s) := by
  unfold execTscat
  repeat' first
      | with_reducible assumption | with_reducible apply CanonRes.ite | with_reducible apply CanonRes.stall | with_reducible apply CanonRes.check
      | with_reducible apply CanonRes.bind0 | with_reducible apply CanonRes.pure | with_reducible apply canon_unguarded | with_reducible apply canon_param64
      | with_reducible apply canon_param | with_reducible apply canon_resolve | with_reducible apply canon_needRead | with_reducible apply canon_needDesc
      | with_reducible apply canon_needSize | with_reducible apply canon_needIndex | with_reducible apply canon_needXfer | with_reducible apply canon_needGlobal
      | with_reducible apply canon_needSide | with_reducible apply canon_State_shadowEnd | with_reducible apply canon_State_logOut
      | with_reducible apply canon_State_begin | with_reducible apply canon_State_freshId | with_reducible apply canon_State_post
      | with_reducible apply canon_State_addXfer | with_reducible apply canon_State_setCur | intro _ | dsimp only | split
theorem canon_execRdef (d : Fin 4) (first : Fin 28) (count : Fin 9) (s : State) (h0 : Canon s) : CanonOut (execRdef d first count s) := by
  unfold execRdef
  repeat' first
      | with_reducible assumption | with_reducible apply CanonRes.pure | with_reducible apply canon_unguarded | with_reducible apply canon_State_setCur
theorem canon_needRing (s : State) (d : Fin 4) (h0 : Canon s) : CanonRes (fun _ => True) (needRing s d) := by
  unfold needRing
  repeat' first | exact trivial | with_reducible apply CanonRes.ite | intro _
theorem canon_execRadv (d : Fin 4) (cons : Bool) (step : Fin 64) (s : State) (h0 : Canon s) : CanonOut (execRadv d cons step s) := by
  unfold execRadv
  repeat' first
      | with_reducible assumption | with_reducible apply CanonRes.bind0 | with_reducible apply CanonRes.pure | with_reducible apply canon_unguarded
      | with_reducible apply canon_needRing | with_reducible apply canon_State_setCur | intro _
theorem canon_execRwait (d : Fin 4) (cons : Bool) (k : Fin 8) (s : State) (h0 : Canon s) : CanonOut (execRwait d cons k s) := by
  unfold execRwait
  repeat' first
      | with_reducible assumption | exact trivial | with_reducible apply CanonRes.ite | with_reducible apply CanonRes.stall | with_reducible apply CanonRes.bind0
      | with_reducible apply CanonRes.pure | with_reducible apply canon_unguarded | with_reducible apply canon_needRing | with_reducible apply canon_State_retire
      | intro _ | dsimp only | split
theorem canon_setBarrier (s : State) (d : Fin 8) (b : Barrier) (h0 : Canon s) : Canon (setBarrier s d b) := by
  unfold setBarrier
  repeat' first | with_reducible assumption | with_reducible apply canon_State_setCur
theorem canon_execBinit (d : Fin 8) (a : Scalar) (s : State) (h0 : Canon s) : CanonOut (execBinit d a s) := by
  unfold execBinit
  repeat' first
      | with_reducible assumption | with_reducible apply CanonRes.check | with_reducible apply CanonRes.bind0 | with_reducible apply CanonRes.pure
      | with_reducible apply canon_unguarded | with_reducible apply canon_cleanOperand | with_reducible apply canon_setBarrier | intro _
theorem canon_execBexp (d : Fin 8) (a : Scalar) (s : State) (h0 : Canon s) : CanonOut (execBexp d a s) := by
  unfold execBexp
  repeat' first
      | with_reducible assumption | with_reducible apply CanonRes.bind0 | with_reducible apply CanonRes.pure | with_reducible apply canon_unguarded
      | with_reducible apply canon_cleanOperand | with_reducible apply canon_setBarrier | intro _
theorem canon_execBwait (d : Fin 8) (a : Scalar) (b : Bool) (s : State) (h0 : Canon s) : CanonOut (execBwait d a b s) := by
  unfold execBwait
  repeat' first
      | with_reducible assumption | with_reducible apply CanonRes.ite | with_reducible apply CanonRes.stall | with_reducible apply CanonRes.bind0
      | with_reducible apply CanonRes.pure | with_reducible apply canon_unguarded | with_reducible apply canon_cleanOperand | with_reducible apply canon_State_retire
      | intro _
theorem canon_execBstat (d : Fin 8) (hi : Bool) (s : State) (h0 : Canon s) : CanonOut (execBstat d hi s) := by
  unfold execBstat
  repeat' first
      | with_reducible assumption | with_reducible apply CanonRes.pure | with_reducible apply canon_unguarded | with_reducible apply canon_State_retire
      | with_reducible apply canon_State_pushOutside

-- Atomics

theorem canon_execFence (acq : Bool) (rel : Bool) (sc : Scope) (s : State) (h0 : Canon s) : CanonOut (execFence acq rel sc s) := by
  unfold execFence
  repeat' first
      | with_reducible assumption | with_reducible apply CanonRes.ite | with_reducible apply CanonRes.stall | with_reducible apply CanonRes.pure
      | with_reducible apply canon_unguarded | with_reducible apply canon_State_retire | intro _
theorem canon_State_pushedTo (s : State) (dst : Option (Fin 16)) (h0 : Canon s) : Canon (s.pushedTo dst) := by
  unfold State.pushedTo
  repeat' first | with_reducible assumption | with_reducible apply canon_State_setCur
theorem canon_needPort (s : State) (pa : Nat) (h0 : Canon s) : CanonRes (fun _ => True) (needPort s pa) := by
  unfold needPort
  repeat' first | with_reducible assumption | exact trivial | with_reducible apply CanonRes.ite | with_reducible apply CanonRes.stall | intro _ | split
theorem canon_State_sendAtomic (s : State) (aop : Nat) (v : W64) (c : W64) (va : Nat) (pa : Nat) (acq : Bool) (kind : OutKind) (tok : Nat) (h0 : Canon s) : Canon (s.sendAtomic aop v c va pa acq kind tok) := by
  unfold State.sendAtomic
  repeat' first | with_reducible assumption | with_reducible apply canon_State_sendPkt | with_reducible apply canon_State_setCur
theorem canon_atomicAt (s : State) (aop : Nat) (v : W64) (c : W64) (va : Nat) (dst : Option (Fin 16)) (sem : Sem) (sc : Scope) (nr : Bool) (h0 : Canon s) : CanonRes (fun x => Canon x) (atomicAt s aop v c va dst sem sc nr) := by
  unfold atomicAt
  repeat' first
      | with_reducible assumption | with_reducible apply Canon.ite | with_reducible apply CanonRes.ite | with_reducible apply CanonRes.stall
      | with_reducible apply CanonRes.check | with_reducible apply CanonRes.bind1 | with_reducible apply CanonRes.bind0 | with_reducible apply CanonRes.pure
      | with_reducible apply canon_needGlobal | with_reducible apply canon_resolveVas | with_reducible apply canon_State_retire
      | with_reducible apply canon_State_logOut | with_reducible apply canon_State_pushedTo | with_reducible apply canon_State_pushOutside
      | with_reducible apply canon_needPort | with_reducible apply canon_State_sendAtomic | with_reducible apply canon_State_freshId
      | with_reducible apply canon_State_pushAsked | with_reducible apply canon_needSide | with_reducible apply canon_State_post
      | with_reducible apply canon_State_sideAdd | with_reducible apply canon_State_setCur | intro _ | dsimp only | split
theorem canon_atomicOp (aop : Nat) (a : Scalar) (b : Scalar) (c : Scalar) (dst : Option (Fin 16)) (sem : Sem) (sc : Scope) (nr : Bool) (disp : W32) (g : Guard) (s : State) (h0 : Canon s) : CanonOut (atomicOp aop a b c dst sem sc nr disp g s) := by
  unfold atomicOp
  repeat' first
      | with_reducible assumption | with_reducible apply CanonRes.check | with_reducible apply CanonRes.bind0 | with_reducible apply canon_guarded
      | with_reducible apply canon_operand | with_reducible apply canon_atomicAt | intro _
theorem canon_execAadd (a : Scalar) (b : Scalar) (dst : Option (Fin 16)) (sem : Sem) (sc : Scope) (nr : Bool) (disp : W32) (g : Guard) (s : State) (h0 : Canon s) : CanonOut (execAadd a b dst sem sc nr disp g s) := by
  unfold execAadd
  repeat' first | with_reducible assumption | with_reducible apply canon_atomicOp
theorem canon_execAand (a : Scalar) (b : Scalar) (dst : Option (Fin 16)) (sem : Sem) (sc : Scope) (nr : Bool) (disp : W32) (g : Guard) (s : State) (h0 : Canon s) : CanonOut (execAand a b dst sem sc nr disp g s) := by
  unfold execAand
  repeat' first | with_reducible assumption | with_reducible apply canon_atomicOp
theorem canon_execAor (a : Scalar) (b : Scalar) (dst : Option (Fin 16)) (sem : Sem) (sc : Scope) (nr : Bool) (disp : W32) (g : Guard) (s : State) (h0 : Canon s) : CanonOut (execAor a b dst sem sc nr disp g s) := by
  unfold execAor
  repeat' first | with_reducible assumption | with_reducible apply canon_atomicOp
theorem canon_execAxor (a : Scalar) (b : Scalar) (dst : Option (Fin 16)) (sem : Sem) (sc : Scope) (nr : Bool) (disp : W32) (g : Guard) (s : State) (h0 : Canon s) : CanonOut (execAxor a b dst sem sc nr disp g s) := by
  unfold execAxor
  repeat' first | with_reducible assumption | with_reducible apply canon_atomicOp
theorem canon_execAmin (a : Scalar) (b : Scalar) (dst : Option (Fin 16)) (sem : Sem) (sc : Scope) (nr : Bool) (disp : W32) (g : Guard) (s : State) (h0 : Canon s) : CanonOut (execAmin a b dst sem sc nr disp g s) := by
  unfold execAmin
  repeat' first | with_reducible assumption | with_reducible apply canon_atomicOp
theorem canon_execAmax (a : Scalar) (b : Scalar) (dst : Option (Fin 16)) (sem : Sem) (sc : Scope) (nr : Bool) (disp : W32) (g : Guard) (s : State) (h0 : Canon s) : CanonOut (execAmax a b dst sem sc nr disp g s) := by
  unfold execAmax
  repeat' first | with_reducible assumption | with_reducible apply canon_atomicOp
theorem canon_execAminu (a : Scalar) (b : Scalar) (dst : Option (Fin 16)) (sem : Sem) (sc : Scope) (nr : Bool) (disp : W32) (g : Guard) (s : State) (h0 : Canon s) : CanonOut (execAminu a b dst sem sc nr disp g s) := by
  unfold execAminu
  repeat' first | with_reducible assumption | with_reducible apply canon_atomicOp
theorem canon_execAmaxu (a : Scalar) (b : Scalar) (dst : Option (Fin 16)) (sem : Sem) (sc : Scope) (nr : Bool) (disp : W32) (g : Guard) (s : State) (h0 : Canon s) : CanonOut (execAmaxu a b dst sem sc nr disp g s) := by
  unfold execAmaxu
  repeat' first | with_reducible assumption | with_reducible apply canon_atomicOp
theorem canon_execAxchg (a : Scalar) (b : Scalar) (dst : Option (Fin 16)) (sem : Sem) (sc : Scope) (nr : Bool) (disp : W32) (g : Guard) (s : State) (h0 : Canon s) : CanonOut (execAxchg a b dst sem sc nr disp g s) := by
  unfold execAxchg
  repeat' first | with_reducible assumption | with_reducible apply canon_atomicOp
theorem canon_execAcas (a : Scalar) (b : Scalar) (c : Scalar) (dst : Option (Fin 16)) (sem : Sem) (sc : Scope) (nr : Bool) (disp : W32) (g : Guard) (s : State) (h0 : Canon s) : CanonOut (execAcas a b c dst sem sc nr disp g s) := by
  unfold execAcas
  repeat' first | with_reducible assumption | with_reducible apply canon_atomicOp
theorem canon_execRobj (a : Scalar) (b : Fin 14) (p0 : PWord) (p1 : PWord) (p2 : PWord) (rows : BitVec 8) (cols : BitVec 11) (fmt : Fin 16) (op : RedOp) (s : State) (h0 : Canon s) : CanonOut (execRobj a b p0 p1 p2 rows cols fmt op s) := by
  unfold execRobj
  repeat' first
      | with_reducible assumption | with_reducible apply CanonRes.ite | with_reducible apply CanonRes.stall | with_reducible apply CanonRes.check
      | with_reducible apply CanonRes.bind1 | with_reducible apply CanonRes.bind0 | with_reducible apply CanonRes.pure | with_reducible apply Canon.foldl
      | with_reducible apply canon_unguarded | with_reducible apply canon_param64 | with_reducible apply canon_param | with_reducible apply canon_cleanOperand
      | with_reducible apply canon_needGlobal | with_reducible apply canon_resolveVas | with_reducible apply canon_State_retire
      | with_reducible apply canon_State_pushOutside | with_reducible apply canon_State_logOut | with_reducible apply canon_State_pushAsked
      | with_reducible apply canon_State_addXfer | with_reducible apply canon_State_setCur | with_reducible apply canon_State_sendPkt | intro _
theorem canon_State_contribAll (s : State) (c : Nat) (x : Xfer) (x3 : List Piece) (h0 : Canon s) : Canon (s.contribAll c x x3) := by
  induction x3 generalizing s with
  | nil => unfold State.contribAll; assumption
  | cons b l ih =>
    unfold State.contribAll
    repeat' first
        | with_reducible assumption | with_reducible apply Canon.ite | with_reducible apply ih | with_reducible apply canon_State_contribPiece | intro _
        | split
theorem canon_execAred (a : TileSel) (p0 : PWord) (p1 : PWord) (p2 : PWord) (lu : Bool) (s : State) (h0 : Canon s) : CanonOut (execAred a p0 p1 p2 lu s) := by
  unfold execAred
  repeat' first
      | with_reducible assumption | with_reducible apply Canon.ite | with_reducible apply CanonRes.check | with_reducible apply CanonRes.bind1
      | with_reducible apply CanonRes.bind0 | with_reducible apply CanonRes.pure | with_reducible apply canon_unguarded | with_reducible apply canon_param64
      | with_reducible apply canon_param | with_reducible apply canon_resolve | with_reducible apply canon_needRead | with_reducible apply canon_needDesc
      | with_reducible apply canon_needSize | with_reducible apply canon_needGlobal | with_reducible apply canon_resolveVas | with_reducible apply canon_needSide
      | with_reducible apply canon_State_shadowEnd | with_reducible apply canon_State_logOut | with_reducible apply canon_State_begin
      | with_reducible apply canon_State_freshId | with_reducible apply canon_State_post | with_reducible apply canon_State_contribAll
      | with_reducible apply canon_State_addXfer | with_reducible apply canon_State_setCur | with_reducible apply canon_State_sideAdd | intro _ | dsimp only
      | split

-- Walks

theorem canon_State_askHost (s : State) (d : Nat) (what : DutyWhat) (m1 : W64) (m2 : W64) (m3 : W64) (h0 : Canon s) : Canon (s.askHost d what m1 m2 m3) := by
  unfold State.askHost
  repeat' first | with_reducible assumption | with_reducible apply canon_State_post
theorem canon_State_notify (s : State) (pp : Nat) (h0 : Canon s) : Canon (s.notify pp) := by
  unfold State.notify
  repeat' first | with_reducible assumption | with_reducible apply Canon.ite | with_reducible apply canon_State_post | intro _
theorem canon_State_countAccess (s : State) (pa : Nat) (granules : Nat) (h0 : Canon s) : Canon (s.countAccess pa granules) := by
  unfold State.countAccess
  repeat' first | with_reducible assumption | with_reducible apply Canon.ite | with_reducible apply canon_State_notify | intro _ | dsimp only | split
theorem canon_execEpochEnd (s : State) (h0 : Canon s) : CanonOut (execEpochEnd s) := by
  unfold execEpochEnd
  repeat' first | with_reducible assumption | with_reducible apply CanonOut.next | with_reducible apply canon_State_post
theorem canon_execLostScan (s : State) (h0 : Canon s) : CanonOut (execLostScan s) := by
  unfold execLostScan
  repeat' first
      | with_reducible assumption | with_reducible apply Canon.ite | with_reducible apply CanonOut.ite | with_reducible apply CanonOut.next
      | with_reducible apply Canon.foldl | with_reducible apply canon_State_notify | intro _ | split
theorem canon_State_answerWalk (s : State) (n : ActorName) (va : Nat) (c : WalkClass) (h0 : Canon s) : Canon (s.answerWalk n va c) := by
  unfold State.answerWalk
  repeat' first | with_reducible assumption | with_reducible apply canon_State_post
theorem canon_State_lookAgain (s : State) (dram : Bool) (g : EvArg) (h0 : Canon s) : Canon (s.lookAgain dram g) := by
  unfold State.lookAgain
  repeat' first | with_reducible assumption | with_reducible apply canon_State_post | dsimp only | split
theorem canon_State_walkArea (s : State) (a : Actor) (g : EvArg) (h0 : Canon s) : Canon (s.walkArea a g) := by
  unfold State.walkArea
  repeat' first
      | with_reducible assumption | with_reducible apply Canon.ite | with_reducible apply canon_State_lookAgain | with_reducible apply canon_State_post
      | with_reducible apply canon_State_back | intro _ | dsimp only | split | with_reducible refine Canon.osome ‹_› ?_
theorem canon_execWalkRequest (s : State) (h0 : Canon s) : CanonOut (execWalkRequest s) := by
  unfold execWalkRequest
  repeat' first
      | with_reducible assumption | with_reducible apply CanonOut.ite | with_reducible apply CanonOut.next | with_reducible apply canon_State_walkArea
      | with_reducible apply canon_State_answerWalk | with_reducible apply canon_State_askHost | with_reducible apply canon_State_back
      | with_reducible apply canon_State_lookAgain | intro _ | dsimp only | split | with_reducible refine Canon.osome ‹_› ?_
theorem canon_State_unhold (s : State) (n : ActorName) (h0 : Canon s) : Canon (s.unhold n) := by
  unfold State.unhold
  repeat' first | with_reducible assumption | with_reducible apply Canon.ite | with_reducible apply Canon.foldl | intro _
theorem canon_execWalkAnswer (s : State) (h0 : Canon s) : CanonOut (execWalkAnswer s) := by
  unfold execWalkAnswer
  repeat' first
      | with_reducible assumption | with_reducible apply CanonOut.ite | with_reducible apply CanonOut.next | with_reducible apply canon_State_unhold
      | with_reducible apply canon_State_setActor | with_reducible apply canon_State_resume | with_reducible apply canon_killActor | intro _ | dsimp only | split
theorem canon_State_modBack (s : State) (pp : Nat) (f : Backing → Backing) (h0 : Canon s) : Canon (s.modBack pp f) := by
  unfold State.modBack
  assumption
theorem canon_State_dequeue (s : State) (pp : Nat) (h0 : Canon s) : Canon (s.dequeue pp) := by
  unfold State.dequeue
  assumption
theorem canon_State_startMove (s : State) (b : Backing) (pp : Nat) (x3 : RegKind) (h0 : Canon s) : Canon (s.startMove b pp x3) := by
  unfold State.startMove
  repeat' first
      | with_reducible assumption | with_reducible apply Canon.ite | with_reducible apply Canon.foldl | with_reducible apply canon_State_dequeue
      | with_reducible apply canon_State_post | with_reducible apply canon_State_modBack | intro _ | dsimp only | split
theorem canon_State_rewalk (s : State) (b : Backing) (h0 : Canon s) : Canon (s.rewalk b) := by
  unfold State.rewalk
  repeat' first
      | with_reducible assumption | with_reducible apply Canon.ite | with_reducible apply Canon.foldl | with_reducible apply canon_State_post | intro _
theorem canon_State_finishMove (s : State) (b : Backing) (h0 : Canon s) : Canon (s.finishMove b) := by
  unfold State.finishMove
  repeat' first
      | with_reducible assumption | with_reducible apply canon_State_rewalk | with_reducible apply canon_State_dequeue | with_reducible apply canon_State_modBack
      | with_reducible apply canon_State_put
theorem canon_execMigration (s : State) (h0 : Canon s) : CanonOut (execMigration s) := by
  unfold execMigration
  repeat' first
      | with_reducible assumption | with_reducible apply Canon.ite | with_reducible apply CanonOut.ite | with_reducible apply CanonOut.next
      | with_reducible apply canon_State_finishMove | with_reducible apply canon_State_dequeue | with_reducible apply canon_State_startMove | intro _ | dsimp only
      | split
theorem canon_execInvalidation (s : State) (h0 : Canon s) : CanonOut (execInvalidation s) := by
  unfold execInvalidation
  repeat' first
      | with_reducible assumption | with_reducible apply CanonOut.next | with_reducible apply canon_State_post | with_reducible apply canon_State_modActor
theorem canon_State_unmove (s : State) (pp : Nat) (h0 : Canon s) : Canon (s.unmove pp) := by
  unfold State.unmove
  repeat' first | with_reducible assumption | with_reducible apply canon_State_rewalk | split
theorem canon_execInvalidationAck (s : State) (h0 : Canon s) : CanonOut (execInvalidationAck s) := by
  unfold execInvalidationAck
  repeat' first
      | with_reducible assumption | with_reducible apply Canon.ite | with_reducible apply CanonOut.ite | with_reducible apply CanonOut.next
      | with_reducible apply canon_State_post | with_reducible apply canon_State_modActor | with_reducible apply canon_State_unmove
      | with_reducible apply canon_State_modBack | intro _ | dsimp only | split

-- Home

theorem canon_State_remember (s : State) (h : Home) (r : Reply) (h0 : Canon s) : Canon (s.remember h r) := by
  unfold State.remember
  assumption
theorem canon_State_setRed (s : State) (r : RedPiece) (h0 : Canon s) : Canon (s.setRed r) := by
  unfold State.setRed
  repeat' first | with_reducible assumption | with_reducible apply Canon.ite | intro _
theorem canon_State_apply (s : State) (h : Home) (e : Effect) (h0 : Canon s) : Canon (s.apply h e) := by
  unfold State.apply
  repeat' first
      | with_reducible assumption | with_reducible apply Canon.ite | with_reducible apply Canon.foldl | with_reducible apply canon_State_setRed
      | with_reducible apply canon_State_remember | with_reducible apply canon_State_put | intro _ | dsimp only | split
theorem canon_State_execute (s : State) (p : Packet) (e : Effect) (h0 : Canon s) : Canon (s.execute p e) := by
  unfold State.execute
  repeat' first
      | with_reducible assumption | with_reducible apply canon_State_sendReply | with_reducible apply canon_State_apply | with_reducible apply canon_State_post
      | with_reducible apply canon_State_freshId | dsimp only | split
theorem canon_execMirrorAck (s : State) (h0 : Canon s) : CanonOut (execMirrorAck s) := by
  unfold execMirrorAck
  repeat' first
      | with_reducible assumption | with_reducible apply CanonOut.ite | with_reducible apply CanonOut.next | with_reducible apply canon_State_sendReply
      | with_reducible apply canon_State_apply | intro _ | dsimp only | split
theorem canon_execMirrorForwardTimeout (s : State) (h0 : Canon s) : CanonOut (execMirrorForwardTimeout s) := by
  unfold execMirrorForwardTimeout
  repeat' first | with_reducible assumption | with_reducible apply CanonOut.next | with_reducible apply canon_State_sendReply | dsimp only | split
theorem canon_State_abandon (s : State) (p : Packet) (h0 : Canon s) : Canon (s.abandon p) := by
  unfold State.abandon
  repeat' first | with_reducible assumption | with_reducible apply canon_State_freeTag
theorem canon_State_rehome (s : State) (p : Packet) (h0 : Canon s) : Canon (s.rehome p) := by
  unfold State.rehome
  repeat' first
      | with_reducible assumption | with_reducible apply Canon.ite | with_reducible apply canon_State_sendAgain | with_reducible apply canon_killActor | intro _
      | dsimp only | split
theorem canon_State_loseRequest (s : State) (p : Packet) (h0 : Canon s) : Canon (s.loseRequest p) := by
  unfold State.loseRequest
  repeat' first | with_reducible assumption | with_reducible apply canon_State_rehome | with_reducible apply canon_State_abandon
theorem canon_atHome (s : State) (f : State → Packet → State) (h0 : Canon s) (h1 : ∀ (y0 : State) (_ : Canon y0) (y1 : Packet), Canon (f y0 y1)) : CanonOut (atHome s f) := by
  unfold atHome
  repeat' first
      | with_reducible assumption | exact trivial | with_reducible apply Canon.ite | with_reducible apply CanonOut.ite | with_reducible apply CanonOut.next
      | with_reducible apply canon_State_loseRequest | with_reducible apply canon_State_enterStation | with_reducible apply h1
      | with_reducible apply canon_State_countAccess | intro _ | dsimp only | split
theorem canon_execRd (s : State) (h0 : Canon s) : CanonOut (execRd s) := by
  unfold execRd
  repeat' first | with_reducible assumption | with_reducible apply canon_atHome | with_reducible apply canon_State_sendReply | intro _
theorem canon_execWr (s : State) (h0 : Canon s) : CanonOut (execWr s) := by
  unfold execWr
  repeat' first | with_reducible assumption | with_reducible apply canon_atHome | with_reducible apply canon_State_execute | intro _
theorem canon_execWrm (s : State) (h0 : Canon s) : CanonOut (execWrm s) := by
  unfold execWrm
  repeat' first | with_reducible assumption | with_reducible apply canon_atHome | with_reducible apply canon_State_execute | intro _
theorem canon_execAt (s : State) (h0 : Canon s) : CanonOut (execAt s) := by
  unfold execAt
  repeat' first
      | with_reducible assumption | with_reducible apply Canon.ite | with_reducible apply canon_atHome | with_reducible apply canon_State_sendReply
      | with_reducible apply canon_State_execute | intro _ | dsimp only | split
theorem canon_execRcDeclaration (s : State) (h0 : Canon s) : CanonOut (execRcDeclaration s) := by
  unfold execRcDeclaration
  repeat' first
      | with_reducible assumption | with_reducible apply Canon.ite | with_reducible apply canon_atHome | with_reducible apply canon_State_sendReply
      | with_reducible apply canon_State_execute | intro _ | dsimp only | split
theorem canon_State_mergeAll (s : State) (x1 : Nat) (x2 : RedPiece) (x3 : Nat) (x4 : List Byte) (x5 : W64) (x6 : List Nat) (h0 : Canon s) : Canon (s.mergeAll x1 x2 x3 x4 x5 x6).1 := by
  induction x1 generalizing s x2 x3 x4 x5 x6 with
  | zero => unfold State.mergeAll; assumption
  | succ f ih =>
    unfold State.mergeAll
    repeat' first | with_reducible assumption | with_reducible apply ih | with_reducible apply canon_State_apply | dsimp only | split
theorem canon_execRcContribution (s : State) (h0 : Canon s) : CanonOut (execRcContribution s) := by
  unfold execRcContribution
  repeat' first
      | with_reducible assumption | with_reducible apply Canon.ite | with_reducible apply canon_atHome | with_reducible apply canon_State_sendReply
      | with_reducible apply canon_State_execute | with_reducible apply canon_State_post | with_reducible apply canon_State_mergeAll | intro _ | dsimp only
      | split
theorem canon_execAtr (s : State) (h0 : Canon s) : CanonOut (execAtr s) := by
  unfold execAtr
  repeat' first
      | with_reducible assumption | with_reducible apply CanonOut.next | with_reducible apply canon_State_sideFree | with_reducible apply canon_State_modActor
      | with_reducible apply canon_State_answer | with_reducible apply canon_State_freeTag
theorem canon_execRca (s : State) (h0 : Canon s) : CanonOut (execRca s) := by
  unfold execRca
  repeat' first
      | with_reducible assumption | with_reducible apply Canon.ite | with_reducible apply CanonOut.ite | with_reducible apply CanonOut.next
      | with_reducible apply canon_State_freeTag | with_reducible apply canon_State_modXfer | with_reducible apply canon_State_modActor
      | with_reducible apply canon_State_answer | with_reducible apply canon_State_delXfer | with_reducible apply canon_State_post
      | with_reducible apply canon_killActor | with_reducible apply canon_State_maybeDone | intro _ | dsimp only | split
theorem canon_execRcRetry (s : State) (h0 : Canon s) : CanonOut (execRcRetry s) := by
  unfold execRcRetry
  repeat' first
      | with_reducible assumption | with_reducible apply Canon.ite | with_reducible apply CanonOut.next | with_reducible apply canon_State_rehome
      | with_reducible apply canon_State_sendAgain | intro _ | dsimp only | split
theorem canon_execScrub (s : State) (h0 : Canon s) : CanonOut (execScrub s) := by
  unfold execScrub
  repeat' first
      | with_reducible assumption | with_reducible apply CanonOut.next | with_reducible apply canon_State_post | with_reducible apply canon_State_freshVal

end Sys2Proof.Machine
end

