-- ==== Sys2Proof/Laws/KeptActors.lean ====
section
/-! SUPPORT. Memory keeps its canonical form through every operation of messages, placement, lives, azimuth, buoy and sextant. -/

set_option maxRecDepth 4000

namespace Sys2Proof.Machine

-- Messages

theorem canon_State_askArea (s : State) (n : ActorName) (h0 : Canon s) : Canon (s.askArea n) := by
  unfold State.askArea
  repeat' first | with_reducible assumption | with_reducible apply canon_State_post | split
theorem canon_State_keep (s : State) (a : Actor) (h0 : Canon s) : Canon (s.keep a) := by
  unfold State.keep
  repeat' first
      | with_reducible assumption | with_reducible apply Canon.ite | with_reducible apply canon_State_askArea | with_reducible apply canon_State_setActor
      | with_reducible apply canon_killActor | intro _
theorem canon_State_holdFor (s : State) (n : ActorName) (vp : Nat) (ev : Event) (h0 : Canon s) : Canon (s.holdFor n vp ev) := by
  unfold State.holdFor
  repeat' first | with_reducible assumption | with_reducible apply canon_State_post
theorem canon_State_takeSeq (s : State) (x1 : ActorName) (x2 : ActorName) (h0 : Canon s) : Canon (s.takeSeq x1 x2) := by
  unfold State.takeSeq
  assumption
theorem canon_State_sendOut (s : State) (g : EvArg) (h0 : Canon s) : Canon (s.sendOut g) := by
  unfold State.sendOut
  repeat' first | with_reducible assumption | with_reducible apply canon_State_travel | with_reducible apply canon_State_freshVal
theorem canon_State_endXfers (s : State) (ids : List Nat) (h0 : Canon s) : Canon (s.endXfers ids) := by
  unfold State.endXfers
  repeat' first | with_reducible assumption | with_reducible apply Canon.ite | with_reducible apply Canon.foldl | intro _
theorem canon_State_dropped (s : State) (g : EvArg) (h0 : Canon s) : Canon (s.dropped g) := by
  unfold State.dropped
  repeat' first
      | with_reducible assumption | with_reducible apply Canon.ite | with_reducible apply canon_State_trace | with_reducible apply canon_State_modActor
      | with_reducible apply canon_State_endXfers | with_reducible apply canon_State_clearRelay | intro _
theorem canon_State_toModule (s : State) (x1 : ActorName) (g : EvArg) (h0 : Canon s) : Canon (s.toModule x1 g) := by
  unfold State.toModule
  repeat' first | with_reducible assumption | with_reducible apply canon_State_fabricMessage
theorem canon_State_routeMsg (s : State) (g : EvArg) (h0 : Canon s) : Canon (s.routeMsg g).1 := by
  unfold State.routeMsg
  repeat' first
      | with_reducible assumption | with_reducible apply canon_State_dropped | with_reducible apply canon_State_toModule | with_reducible apply canon_State_post
      | with_reducible apply canon_State_sendOut | dsimp only | split
theorem canon_State_partMessage (s : State) (m : Msg) (h0 : Canon s) : Canon (s.partMessage m) := by
  unfold State.partMessage
  repeat' first | with_reducible assumption | with_reducible apply canon_State_routeMsg | with_reducible apply canon_State_takeSeq
theorem canon_State_bounce (s : State) (m : Msg) (h0 : Canon s) : Canon (s.bounce m) := by
  unfold State.bounce
  repeat' first | with_reducible assumption | with_reducible apply canon_State_partMessage
theorem canon_State_stale (s : State) (g : EvArg) (h0 : Canon s) : Canon (s.stale g) := by
  unfold State.stale
  repeat' first
      | with_reducible assumption | with_reducible apply Canon.ite | with_reducible apply canon_State_bounce | with_reducible apply canon_State_dropped | intro _
theorem canon_State_countMessage (s : State) (m : Msg) (h0 : Canon s) : Canon (s.countMessage m) := by
  unfold State.countMessage
  repeat' first | with_reducible assumption | with_reducible apply canon_State_routeMsg | with_reducible apply canon_State_takeSeq
theorem canon_State_killBy (s : State) (final : Bool) (n : ActorName) (h0 : Canon s) : Canon (s.killBy final n) := by
  unfold State.killBy
  repeat' first
      | with_reducible assumption | with_reducible apply Canon.ite | with_reducible apply canon_killActor | with_reducible apply canon_State_modActor | intro _
theorem canon_State_killOrder (s : State) (x1 : ActorName) (target : ActorName) (r : Reason) (lv : KillLevel) (h0 : Canon s) : Canon (s.killOrder x1 target r lv) := by
  unfold State.killOrder
  repeat' first | with_reducible assumption | with_reducible apply Canon.ite | with_reducible apply canon_State_toModule | intro _
theorem canon_State_killLevel (s : State) (x1 : ActorName) (target : ActorName) (lv : KillLevel) (h0 : Canon s) : Canon (s.killLevel x1 target lv) := by
  unfold State.killLevel
  repeat' first
      | with_reducible assumption | with_reducible apply Canon.ite | with_reducible apply Canon.foldl | with_reducible apply canon_State_killOrder
      | with_reducible apply canon_State_killBy | intro _ | split
theorem canon_State_refresh (s : State) (n : ActorName) (h0 : Canon s) : Canon (s.refresh n) := by
  unfold State.refresh
  repeat' first | with_reducible assumption | with_reducible apply Canon.ite | with_reducible apply canon_State_setActor | intro _
theorem canon_State_cacheName (s : State) (c : Nat) (n : ActorName) (h0 : Canon s) : Canon (s.cacheName c n) := by
  unfold State.cacheName
  repeat' first | with_reducible assumption | with_reducible apply canon_State_modCell
theorem canon_State_forgetName (s : State) (n : ActorName) (h0 : Canon s) : Canon (s.forgetName n) := by
  unfold State.forgetName
  assumption
theorem canon_State_countTraffic (s : State) (a : Actor) (g : EvArg) (multi : Bool) (h0 : Canon s) : Canon (s.countTraffic a g multi) := by
  unfold State.countTraffic
  repeat' first | with_reducible assumption | with_reducible apply Canon.ite | with_reducible apply canon_State_modCell | intro _
theorem canon_State_discard (s : State) (o : OutItem) (h0 : Canon s) : Canon (s.discard o) := by
  unfold State.discard
  repeat' first
      | with_reducible assumption | with_reducible apply Canon.foldl | with_reducible apply canon_State_endXfers | with_reducible apply canon_State_clearRelay
theorem canon_State_releaseMsg (s : State) (a : Actor) (m : Msg) (xids : List Nat) (relay : Nat) (h0 : Canon s) : Canon (s.releaseMsg a m xids relay) := by
  unfold State.releaseMsg
  repeat' first
      | with_reducible assumption | with_reducible apply Canon.ite | with_reducible apply canon_State_discard | with_reducible apply canon_State_keep
      | with_reducible apply canon_State_bounce | with_reducible apply canon_State_refresh | with_reducible apply canon_State_modActor
      | with_reducible apply canon_State_routeMsg | with_reducible apply canon_State_cacheName | with_reducible apply canon_State_trace
      | with_reducible apply canon_State_takeSeq | with_reducible apply canon_State_countTraffic | intro _
theorem canon_State_releaseItem (s : State) (a : Actor) (o : OutItem) (h0 : Canon s) : Canon (s.releaseItem a o) := by
  unfold State.releaseItem
  repeat' first
      | with_reducible assumption | with_reducible apply canon_State_releaseMsg | with_reducible apply canon_State_routeMsg
      | with_reducible apply canon_State_takeSeq | with_reducible apply canon_State_killLevel | dsimp only | split
theorem canon_commit (s : State) (h0 : Canon s) : CanonRes (fun x => Canon x) (commit s) := by
  unfold commit
  repeat' first
      | with_reducible assumption | with_reducible apply Canon.ite | with_reducible apply CanonRes.ite | with_reducible apply CanonRes.stall
      | with_reducible apply CanonRes.ok | with_reducible apply Canon.foldl | with_reducible apply canon_State_setCur | with_reducible apply canon_State_logOut
      | with_reducible apply canon_State_discard | with_reducible apply canon_State_releaseItem | intro _
theorem canon_State_mail (s : State) (t : Actor) (g : EvArg) (h0 : Canon s) : Canon (s.mail t g) := by
  unfold State.mail
  repeat' first
      | with_reducible assumption | with_reducible apply Canon.ite | with_reducible apply Canon.foldl | with_reducible apply canon_State_bounce
      | with_reducible apply canon_State_endXfers | with_reducible apply canon_State_refresh | with_reducible apply canon_State_trace
      | with_reducible apply canon_State_setActor | with_reducible apply canon_State_post | intro _
theorem canon_State_signal (s : State) (t : Actor) (g : EvArg) (h0 : Canon s) : Canon (s.signal t g) := by
  unfold State.signal
  repeat' first
      | with_reducible assumption | with_reducible apply Canon.ite | with_reducible apply canon_State_mail | with_reducible apply canon_killActor | intro _
theorem canon_State_deliver (s : State) (g : EvArg) (h0 : Canon s) : Canon (s.deliver g) := by
  unfold State.deliver
  repeat' first
      | with_reducible assumption | with_reducible apply Canon.ite | with_reducible apply canon_State_modActor | with_reducible apply canon_State_post
      | with_reducible apply canon_State_signal | with_reducible apply canon_State_mail | intro _
theorem canon_State_accept (s : State) (t : Actor) (g : EvArg) (h0 : Canon s) : Canon (s.accept t g).1 := by
  unfold State.accept
  repeat' first
      | with_reducible assumption | with_reducible apply canon_State_endXfers | with_reducible apply canon_killActor | with_reducible apply canon_State_holdFor
      | with_reducible apply canon_State_deliver | with_reducible apply canon_State_setActor | split
theorem canon_State_follow (s : State) (x1 : ActorName) (x2 : ActorName) (x3 : Nat) (h0 : Canon s) : Canon (s.follow x1 x2 x3) := by
  induction x3 generalizing s with
  | zero => unfold State.follow; assumption
  | succ f ih =>
    unfold State.follow
    repeat' first
        | with_reducible assumption | with_reducible apply Canon.ite | with_reducible apply ih | with_reducible apply canon_State_accept
        | with_reducible apply canon_State_setActor | intro _ | dsimp only | split
theorem canon_State_arrive (s : State) (g : EvArg) (h0 : Canon s) : Canon (s.arrive g) := by
  unfold State.arrive
  repeat' first
      | with_reducible assumption | with_reducible apply Canon.ite | with_reducible apply canon_State_post | with_reducible apply canon_State_stale
      | with_reducible apply canon_State_follow | with_reducible apply canon_State_accept | with_reducible apply canon_State_endXfers
      | with_reducible apply canon_killActor | with_reducible apply canon_State_holdFor | with_reducible apply canon_State_setActor
      | with_reducible apply canon_State_trace | intro _ | split
theorem canon_State_peerDrops (s : State) (g : EvArg) (h0 : Canon s) : Canon (s.peerDrops g) := by
  unfold State.peerDrops
  repeat' first
      | with_reducible assumption | with_reducible apply Canon.ite | with_reducible apply canon_killActor | with_reducible apply canon_State_dropped | intro _
theorem canon_State_atStation (s : State) (g : EvArg) (h0 : Canon s) : Canon (s.atStation g) := by
  unfold State.atStation
  repeat' first
      | with_reducible assumption | with_reducible apply Canon.ite | with_reducible apply canon_State_peerDrops | with_reducible apply canon_State_enterStation
      | intro _ | split
theorem canon_State_checked (s : State) (g : EvArg) (h0 : Canon s) : Canon (s.checked g) := by
  unfold State.checked
  repeat' first
      | with_reducible assumption | with_reducible apply Canon.ite | with_reducible apply canon_State_arrive | with_reducible apply canon_State_post | intro _
theorem canon_execMessageArrival (s : State) (h0 : Canon s) : CanonOut (execMessageArrival s) := by
  unfold execMessageArrival
  repeat' first
      | with_reducible assumption | with_reducible apply Canon.ite | with_reducible apply CanonOut.next | with_reducible apply canon_State_atStation
      | with_reducible apply canon_State_checked | intro _
theorem canon_execMessageResend (s : State) (h0 : Canon s) : CanonOut (execMessageResend s) := by
  unfold execMessageResend
  repeat' first | with_reducible assumption | with_reducible apply CanonOut.next | with_reducible apply canon_State_sendOut
theorem canon_execExitSignal (s : State) (h0 : Canon s) : CanonOut (execExitSignal s) := by
  unfold execExitSignal
  repeat' first | with_reducible assumption | with_reducible apply CanonOut.next | with_reducible apply canon_State_checked
theorem canon_execTileLanded (s : State) (h0 : Canon s) : CanonOut (execTileLanded s) := by
  unfold execTileLanded
  repeat' first
      | with_reducible assumption | with_reducible apply Canon.ite | with_reducible apply CanonOut.ite | with_reducible apply CanonOut.next
      | with_reducible apply canon_State_endXfers | with_reducible apply canon_State_refresh | with_reducible apply canon_State_setActor
      | with_reducible apply canon_State_spoisWrite | with_reducible apply canon_State_put | intro _ | dsimp only | split
theorem canon_State_refuse (s : State) (m : Msg) (h0 : Canon s) : Canon (s.refuse m) := by
  unfold State.refuse
  repeat' first
      | with_reducible assumption | with_reducible apply Canon.ite | with_reducible apply canon_killActor | with_reducible apply canon_State_killOrder | intro _
theorem canon_execReplyArrival (s : State) (h0 : Canon s) : CanonOut (execReplyArrival s) := by
  unfold execReplyArrival
  repeat' first
      | with_reducible assumption | with_reducible apply CanonOut.ite | with_reducible apply CanonOut.next | with_reducible apply canon_State_setActor
      | with_reducible apply canon_State_refuse | intro _ | dsimp only | split
theorem canon_execAwaitTimeout (s : State) (h0 : Canon s) : CanonOut (execAwaitTimeout s) := by
  unfold execAwaitTimeout
  repeat' first
      | with_reducible assumption | with_reducible apply CanonOut.ite | with_reducible apply CanonOut.next | with_reducible apply canon_State_modActor | intro _
theorem canon_execMcastBusServe (s : State) (h0 : Canon s) : CanonOut (execMcastBusServe s) := by
  unfold execMcastBusServe
  repeat' first
      | with_reducible assumption | with_reducible apply Canon.ite | with_reducible apply CanonOut.ite | with_reducible apply CanonOut.next
      | with_reducible apply canon_killActor | with_reducible apply canon_State_modActor | with_reducible apply canon_State_sourceRead
      | with_reducible apply canon_State_delXfer | with_reducible apply canon_State_modXfer | intro _ | dsimp only | split
theorem canon_execRelaySend (s : State) (h0 : Canon s) : CanonOut (execRelaySend s) := by
  unfold execRelaySend
  repeat' first
      | with_reducible assumption | with_reducible apply CanonOut.ite | with_reducible apply CanonOut.next | with_reducible apply canon_State_delXfer
      | with_reducible apply canon_State_modActor | with_reducible apply canon_State_modCell | with_reducible apply canon_State_modXfer
      | with_reducible apply canon_State_post | with_reducible apply canon_State_travel | intro _ | dsimp only | split
theorem canon_execRelayArrival (s : State) (h0 : Canon s) : CanonOut (execRelayArrival s) := by
  unfold execRelayArrival
  repeat' first
      | with_reducible assumption | with_reducible apply Canon.ite | with_reducible apply CanonOut.next | with_reducible apply canon_State_refresh
      | with_reducible apply canon_State_clearRelay | with_reducible apply canon_State_delXfer | intro _ | dsimp only | split
theorem canon_execReductionNotice (s : State) (h0 : Canon s) : CanonOut (execReductionNotice s) := by
  unfold execReductionNotice
  repeat' first
      | with_reducible assumption | with_reducible apply CanonOut.ite | with_reducible apply CanonOut.next | with_reducible apply canon_State_partMessage
      | intro _ | dsimp only | split

-- Place

theorem canon_State_initRegion (s : State) (a : Actor) (im : Image) (f : File) (h0 : Canon s) : Canon (s.initRegion a im f) := by
  unfold State.initRegion
  repeat' first
      | with_reducible assumption | with_reducible apply Canon.ite | with_reducible apply Canon.foldl | with_reducible apply canon_State_put
      | with_reducible apply canon_State_zero | intro _ | split
theorem canon_State_backHost (s : State) (q : SpawnReq) (a : Actor) (ri : Nat) (r : RegionRec) (vp : Nat) (n : Nat) (h0 : Canon s) : CanonOpt (fun x => Canon x) (s.backHost q a ri r vp n) := by
  unfold State.backHost
  repeat' first
      | with_reducible assumption | exact trivial | with_reducible apply CanonOpt.some | with_reducible apply canon_State_zero | dsimp only | split
theorem canon_State_lockOne (s : State) (q : SpawnReq) (a : Actor) (ri : Nat) (r : RegionRec) (h0 : Canon s) : CanonOpt (fun x => Canon x.1) (s.lockOne q a ri r) := by
  unfold State.lockOne
  repeat' first
      | with_reducible assumption | exact trivial | with_reducible apply CanonOpt.ite | with_reducible apply CanonOpt.map | with_reducible apply CanonOpt.some
      | with_reducible apply canon_State_backHost | with_reducible apply canon_State_backAs | intro _ | dsimp only | split
      | with_reducible refine Canon.osome ‹_› ?_
theorem canon_State_lockAll (s : State) (q : SpawnReq) (a : Actor) (x3 : List (Nat × RegionRec)) (h0 : Canon s) : CanonOpt (fun x => Canon x.1) (s.lockAll q a x3) := by
  induction x3 generalizing s with
  | nil => unfold State.lockAll; repeat' first | with_reducible assumption | with_reducible apply CanonOpt.some
  | cons b l ih =>
    unfold State.lockAll
    repeat' first
        | with_reducible assumption | exact trivial | with_reducible apply CanonOpt.map | with_reducible apply ih | with_reducible apply canon_State_lockOne
        | intro _ | dsimp only | split | with_reducible refine Canon.osome1 ‹_› ?_
theorem canon_State_ownRegions (s : State) (a : Actor) (im : Image) (h0 : Canon s) : Canon (s.ownRegions a im) := by
  unfold State.ownRegions
  repeat' first | with_reducible assumption | with_reducible apply Canon.foldl | with_reducible apply canon_State_modJob | intro _
theorem canon_State_make (s : State) (q : SpawnReq) (f : File) (n : ActorName) (supn : ActorName) (img : Nat) (p : Spot) (fresh : Bool) (h0 : Canon s) : CanonOpt (fun x => Canon x) (s.make q f n supn img p fresh) := by
  unfold State.make
  generalize s.freeBlock = fb
  repeat' first
      | with_reducible assumption | exact trivial | with_reducible apply Canon.ite | with_reducible apply CanonOpt.some | with_reducible apply canon_State_post
      | with_reducible apply canon_State_modCell | with_reducible apply canon_State_initRegion | with_reducible apply canon_State_setActor
      | with_reducible apply canon_State_lockAll | with_reducible apply canon_State_zero | with_reducible apply canon_State_ownRegions | intro _ | dsimp only
      | split | with_reducible refine Canon.osome1 ‹_› ?_
theorem canon_State_makeAll (s : State) (q : SpawnReq) (f : File) (supn : ActorName) (fresh : Bool) (x5 : List ((ActorName × Nat) × Spot)) (h0 : Canon s) : CanonOpt (fun x => Canon x) (s.makeAll q f supn fresh x5) := by
  induction x5 generalizing s with
  | nil => unfold State.makeAll; repeat' first | with_reducible assumption | with_reducible apply CanonOpt.some
  | cons b l ih =>
    unfold State.makeAll
    repeat' first
        | with_reducible assumption | exact trivial | with_reducible apply ih | with_reducible apply canon_State_make | split
        | with_reducible refine Canon.osome ‹_› ?_
theorem canon_State_countIn (s : State) (n : ActorName) (supn : ActorName) (h0 : Canon s) : Canon (s.countIn n supn) := by
  unfold State.countIn
  repeat' first | with_reducible assumption | with_reducible apply canon_State_modJob
theorem canon_State_askPlace (s : State) (q : SpawnReq) (n : ActorName) (r : Nat) (roaming : Bool) (h0 : Canon s) : Canon (s.askPlace q n r roaming) := by
  unfold State.askPlace
  repeat' first | with_reducible assumption | with_reducible apply canon_State_askHost
theorem canon_State_askRun (s : State) (q : SpawnReq) (n : ActorName) (ri : Nat) (r : RegionRec) (h0 : Canon s) : Canon (s.askRun q n ri r) := by
  unfold State.askRun
  repeat' first | with_reducible assumption | with_reducible apply canon_State_askHost
theorem canon_State_create (s : State) (q : SpawnReq) (supn : ActorName) (gen : Nat) (fresh : Bool) (h0 : Canon s) : CanonMade (s.create q supn gen fresh) := by
  unfold State.create
  repeat' first
      | with_reducible assumption | exact trivial | with_reducible apply Canon.ite | with_reducible apply CanonMade.ite | with_reducible apply CanonMade.ask
      | with_reducible apply CanonMade.ok | with_reducible apply Canon.foldl | with_reducible apply canon_State_askPlace | with_reducible apply canon_State_modJob
      | with_reducible apply canon_State_askRun | with_reducible apply canon_State_makeAll | with_reducible apply canon_State_countIn | intro _ | dsimp only
      | split | with_reducible refine Canon.osome ‹_› ?_
theorem canon_State_addLink (s : State) (x : ActorName) (y : ActorName) (h0 : Canon s) : Canon (s.addLink x y) := by
  unfold State.addLink
  repeat' first | with_reducible assumption | with_reducible apply Canon.ite | with_reducible apply canon_State_modActor | intro _
theorem canon_State_addMon (s : State) (x : ActorName) (y : ActorName) (h0 : Canon s) : Canon (s.addMon x y) := by
  unfold State.addMon
  repeat' first | with_reducible assumption | with_reducible apply Canon.ite | with_reducible apply canon_State_modActor | intro _
theorem canon_State_installChild (s : State) (a : Actor) (q : SpawnReq) (name : ActorName) (h0 : Canon s) : Canon (s.installChild a q name) := by
  unfold State.installChild
  assumption
theorem canon_State_launchRecord (s : State) (q : SpawnReq) (stat : Nat) (n : ActorName) (h0 : Canon s) : Canon (s.launchRecord q stat n) := by
  unfold State.launchRecord
  repeat' first | with_reducible assumption | with_reducible apply canon_State_record
theorem canon_State_rootMade (s : State) (q : SpawnReq) (n : ActorName) (w : List W64) (h0 : Canon s) : Canon (s.rootMade q n w) := by
  unfold State.rootMade
  repeat' first
      | with_reducible assumption | with_reducible apply canon_State_launchRecord | with_reducible apply canon_State_partMessage
      | with_reducible apply canon_State_modJob
theorem canon_State_sweepFiles (s : State) (h0 : Canon s) : Canon (s.sweepFiles) := by
  unfold State.sweepFiles
  assumption
theorem canon_execSpawnAnswer (s : State) (h0 : Canon s) : CanonOut (execSpawnAnswer s) := by
  unfold execSpawnAnswer
  repeat' first
      | with_reducible assumption | with_reducible apply Canon.ite | with_reducible apply CanonOut.ite | with_reducible apply CanonOut.next
      | with_reducible apply canon_State_launchRecord | with_reducible apply canon_State_sweepFiles | with_reducible apply canon_State_create
      | with_reducible apply canon_State_rootMade | with_reducible apply canon_State_modActor | with_reducible apply canon_State_answer
      | with_reducible apply canon_State_keep | with_reducible apply canon_State_addMon | with_reducible apply canon_State_addLink
      | with_reducible apply canon_State_installChild | intro _ | dsimp only | split | with_reducible refine Canon.ofmade ‹_› ?_
      | with_reducible refine Canon.ofask ‹_› ?_

-- Boot

theorem canon_State_bootStatus (s : State) (c : Nat) (v : W64) (p : Bool) (h0 : Canon s) : Canon (s.bootStatus c v p) := by
  unfold State.bootStatus
  repeat' first
      | with_reducible assumption | with_reducible apply Canon.ite | with_reducible apply canon_State_modCell | with_reducible apply canon_State_dropActor
      | with_reducible apply canon_State_post | intro _
theorem canon_State_selfTest (s : State) (c : Nat) (h0 : Canon s) : Canon (s.selfTest c) :=
  canon_State_modCell _ _ _ (canon_State_freshVal _ h0)
theorem canon_execBootProgramStart (s : State) (h0 : Canon s) : CanonOut (execBootProgramStart s) := by
  unfold execBootProgramStart
  repeat' first
      | with_reducible assumption | with_reducible apply CanonOut.ite | with_reducible apply CanonOut.next | with_reducible apply canon_State_post
      | with_reducible apply canon_State_initRegion | with_reducible apply canon_State_setActor | with_reducible apply Canon.ite
      | with_reducible apply canon_State_selfTest | intro _
theorem canon_execHalt (a : Scalar) (g : Guard) (s : State) (h0 : Canon s) : CanonOut (execHalt a g s) := by
  unfold execHalt
  repeat' first
      | with_reducible assumption | with_reducible apply CanonRes.bind0 | with_reducible apply CanonRes.pure | with_reducible apply canon_bootOnly
      | with_reducible apply canon_guarded | with_reducible apply canon_operand | with_reducible apply canon_State_bootStatus | intro _

-- Life

theorem canon_State_countNotice (s : State) (x1 : ActorName) (what : ActorName) (x3 : ActorName) (m1 : W64) (m2 : W64) (h0 : Canon s) : Canon (s.countNotice x1 what x3 m1 m2) := by
  unfold State.countNotice
  repeat' first | with_reducible assumption | with_reducible apply Canon.ite | with_reducible apply canon_State_countMessage | intro _
theorem canon_State_endJob (s : State) (j : Job) (h0 : Canon s) : Canon (s.endJob j) := by
  unfold State.endJob
  repeat' first
      | with_reducible assumption | with_reducible apply canon_State_sweepFiles | with_reducible apply canon_State_unback
      | with_reducible apply canon_State_record
theorem canon_State_ended (s : State) (n : ActorName) (r : Reason) (h0 : Canon s) : Canon (s.ended n r) := by
  unfold State.ended
  repeat' first
      | with_reducible assumption | with_reducible apply Canon.ite | with_reducible apply Canon.foldl | with_reducible apply canon_State_endJob
      | with_reducible apply canon_State_modJob | with_reducible apply canon_State_countNotice | intro _ | dsimp only | split
theorem canon_State_deathNotices (s : State) (a : Actor) (r : Reason) (h0 : Canon s) : Canon (s.deathNotices a r) := by
  unfold State.deathNotices
  repeat' first | with_reducible assumption | with_reducible apply Canon.foldl | with_reducible apply canon_State_partMessage | intro _
theorem canon_State_debugDeath (s : State) (a : Actor) (r : Reason) (h0 : Canon s) : Canon (s.debugDeath a r) := by
  unfold State.debugDeath
  repeat' first
      | with_reducible assumption | with_reducible apply Canon.ite | with_reducible apply canon_State_modActor | with_reducible apply canon_State_partMessage
      | with_reducible apply canon_State_answer | intro _
theorem canon_State_release (s : State) (a : Actor) (h0 : Canon s) : Canon (s.release a) := by
  unfold State.release
  repeat' first
      | with_reducible assumption | with_reducible apply Canon.ite | with_reducible apply Canon.foldl | with_reducible apply canon_State_forgetName
      | with_reducible apply canon_State_unback | with_reducible apply canon_State_endXfers | with_reducible apply canon_State_clearRelay | intro _
theorem canon_State_dropUnborn (s : State) (n : ActorName) (h0 : Canon s) : Canon (s.dropUnborn n) := by
  unfold State.dropUnborn
  repeat' first
      | with_reducible assumption | with_reducible apply Canon.foldl | with_reducible apply canon_State_ended | with_reducible apply canon_State_dropActor
      | with_reducible apply canon_State_release | intro _
theorem canon_State_modTab (s : State) (sup : ActorName) (f : SupTab → SupTab) (h0 : Canon s) : Canon (s.modTab sup f) := by
  unfold State.modTab
  assumption
theorem canon_State_modEnt (s : State) (sup : ActorName) (rcd : Nat) (f : ChildEnt → ChildEnt) (h0 : Canon s) : Canon (s.modEnt sup rcd f) := by
  unfold State.modEnt
  repeat' first | with_reducible assumption | with_reducible apply canon_State_modTab
theorem canon_State_report (s : State) (sup : ActorName) (e : ChildEnt) (code : W64) (new : ActorName) (h0 : Canon s) : Canon (s.report sup e code new) := by
  unfold State.report
  repeat' first | with_reducible assumption | with_reducible apply canon_State_partMessage
theorem canon_State_giveUp (s : State) (e : ChildEnt) (h0 : Canon s) : Canon (s.giveUp e) := by
  unfold State.giveUp
  repeat' first
      | with_reducible assumption | with_reducible apply Canon.ite | with_reducible apply Canon.foldl | with_reducible apply canon_State_ended | intro _
theorem canon_State_escalate (s : State) (sup : ActorName) (e : ChildEnt) (h0 : Canon s) : Canon (s.escalate sup e) := by
  unfold State.escalate
  repeat' first
      | with_reducible assumption | with_reducible apply canon_State_giveUp | with_reducible apply canon_killActor | with_reducible apply canon_State_modEnt
theorem canon_State_stopEnt (s : State) (sup : ActorName) (e : ChildEnt) (h0 : Canon s) : Canon (s.stopEnt sup e) := by
  unfold State.stopEnt
  repeat' first
      | with_reducible assumption | with_reducible apply canon_State_report | with_reducible apply canon_State_giveUp | with_reducible apply canon_State_modEnt
theorem canon_State_fire (s : State) (sup : ActorName) (rcd : Nat) (h0 : Canon s) : Canon (s.fire sup rcd) := by
  unfold State.fire
  repeat' first | with_reducible assumption | with_reducible apply Canon.ite | with_reducible apply canon_State_post | intro _ | dsimp only | split
theorem canon_State_beginEvent (s : State) (sup : ActorName) (rcd : Nat) (h0 : Canon s) : Canon (s.beginEvent sup rcd) := by
  unfold State.beginEvent
  repeat' first
      | with_reducible assumption | with_reducible apply Canon.foldl | with_reducible apply canon_State_fire | with_reducible apply canon_State_modTab
      | with_reducible apply canon_State_killBy | intro _ | dsimp only | split
theorem canon_State_perform (s : State) (sup : ActorName) (e : ChildEnt) (h0 : Canon s) : Canon (s.perform sup e) := by
  unfold State.perform
  repeat' first
      | with_reducible assumption | with_reducible apply Canon.ite | with_reducible apply canon_State_escalate | with_reducible apply canon_State_beginEvent
      | intro _ | dsimp only | split
theorem canon_State_restartEvent (s : State) (sup : ActorName) (e : ChildEnt) (h0 : Canon s) : Canon (s.restartEvent sup e) := by
  unfold State.restartEvent
  repeat' first
      | with_reducible assumption | with_reducible apply canon_State_escalate | with_reducible apply canon_State_modTab | with_reducible apply canon_State_perform
      | split
theorem canon_State_decide (s : State) (a : Actor) (r : Reason) (h0 : Canon s) : Canon (s.decide a r) := by
  unfold State.decide
  repeat' first
      | with_reducible assumption | with_reducible apply Canon.ite | with_reducible apply canon_State_ended | with_reducible apply canon_State_fire
      | with_reducible apply canon_State_modEnt | with_reducible apply canon_State_askHost | with_reducible apply canon_State_report
      | with_reducible apply canon_State_restartEvent | intro _ | dsimp only | split
theorem canon_State_supDeath (s : State) (n : ActorName) (h0 : Canon s) : Canon (s.supDeath n) := by
  unfold State.supDeath
  repeat' first
      | with_reducible assumption | with_reducible apply Canon.ite | with_reducible apply Canon.foldl | with_reducible apply canon_State_giveUp
      | with_reducible apply canon_State_killBy | intro _ | dsimp only | split
theorem canon_execDying (s : State) (h0 : Canon s) : CanonOut (execDying s) := by
  unfold execDying
  repeat' first
      | with_reducible assumption | with_reducible apply Canon.ite | with_reducible apply CanonOut.next | with_reducible apply canon_State_killLevel
      | with_reducible apply canon_killActor | with_reducible apply canon_State_killBy | intro _ | dsimp only | split
theorem canon_execReclaim (s : State) (h0 : Canon s) : CanonOut (execReclaim s) := by
  unfold execReclaim
  repeat' first
      | with_reducible assumption | with_reducible apply CanonOut.ite | with_reducible apply CanonOut.next | with_reducible apply canon_State_post
      | with_reducible apply canon_State_bootStatus | with_reducible apply canon_State_release | with_reducible apply canon_State_sweepFiles
      | with_reducible apply canon_State_decide | with_reducible apply canon_State_supDeath | with_reducible apply canon_State_dropUnborn
      | with_reducible apply canon_State_dropActor | with_reducible apply canon_State_debugDeath | with_reducible apply canon_State_deathNotices | intro _ | split
theorem canon_State_restartEnt (s : State) (sup : ActorName) (rcd : Nat) (r : SpawnReq) (h0 : Canon s) : Canon (s.restartEnt sup rcd r) := by
  unfold State.restartEnt
  repeat' first
      | with_reducible assumption | with_reducible apply Canon.ite | with_reducible apply Canon.foldl | with_reducible apply canon_State_stopEnt
      | with_reducible apply canon_State_create | with_reducible apply canon_State_post | with_reducible apply canon_State_report
      | with_reducible apply canon_State_modEnt | with_reducible apply canon_State_partMessage | intro _ | dsimp only | split
      | with_reducible refine Canon.ofmade ‹_› ?_ | with_reducible refine Canon.ofask ‹_› ?_
theorem canon_execRestart (s : State) (h0 : Canon s) : CanonOut (execRestart s) := by
  unfold execRestart
  repeat' first
      | with_reducible assumption | with_reducible apply CanonOut.next | with_reducible apply Canon.foldl | with_reducible apply canon_State_restartEnt | intro _
theorem canon_execRestartRetry (s : State) (h0 : Canon s) : CanonOut (execRestartRetry s) := by
  unfold execRestartRetry
  repeat' first
      | with_reducible assumption | with_reducible apply CanonOut.ite | with_reducible apply CanonOut.next | with_reducible apply canon_State_escalate
      | with_reducible apply canon_State_modTab | with_reducible apply canon_State_restartEnt | intro _ | dsimp only | split
theorem canon_State_tie (s : State) (x : ActorName) (y : ActorName) (mon : Bool) (h0 : Canon s) : Canon (s.tie x y mon).2 := by
  unfold State.tie
  repeat' first | with_reducible assumption | with_reducible apply canon_State_addMon | with_reducible apply canon_State_addLink | dsimp only | split
theorem canon_State_untie (s : State) (x : ActorName) (y : ActorName) (mon : Bool) (h0 : Canon s) : Canon (s.untie x y mon) := by
  unfold State.untie
  repeat' first | with_reducible assumption | with_reducible apply canon_State_modActor
theorem canon_State_tieMsg (s : State) (x1 : ActorName) (x2 : ActorName) (mon : Bool) (what : Nat) (tok : Nat) (st : Nat) (h0 : Canon s) : Canon (s.tieMsg x1 x2 mon what tok st) := by
  unfold State.tieMsg
  repeat' first | with_reducible assumption | with_reducible apply canon_State_toModule
theorem canon_execLinkAnswer (s : State) (h0 : Canon s) : CanonOut (execLinkAnswer s) := by
  unfold execLinkAnswer
  repeat' first
      | with_reducible assumption | with_reducible apply Canon.ite | with_reducible apply CanonOut.ite | with_reducible apply CanonOut.next
      | with_reducible apply canon_State_answer | with_reducible apply canon_State_modActor | with_reducible apply canon_State_untie
      | with_reducible apply canon_State_tieMsg | with_reducible apply canon_State_tie | intro _

-- Azimuth

theorem canon_State_vacate (s : State) (a : Actor) (h0 : Canon s) : Canon (s.vacate a) := by
  unfold State.vacate
  repeat' first | with_reducible assumption | with_reducible apply canon_State_modCell
theorem canon_State_putDown (s : State) (a : Actor) (p : Spot) (l : Lifted) (cool : Option Nat) (h0 : Canon s) : Canon (s.putDown a p l cool) := by
  unfold State.putDown
  repeat' first
      | with_reducible assumption | with_reducible apply canon_State_refresh | with_reducible apply canon_State_modCell | with_reducible apply canon_State_put
      | with_reducible apply canon_State_setActor
theorem canon_State_gateCell (s : State) (c : Nat) (h0 : Canon s) : Canon (s.gateCell c) := by
  unfold State.gateCell
  repeat' first | with_reducible assumption | with_reducible apply Canon.ite | with_reducible apply canon_State_setCell | intro _
theorem canon_execSwapInstant (s : State) (h0 : Canon s) : CanonOut (execSwapInstant s) := by
  unfold execSwapInstant
  repeat' first
      | with_reducible assumption | with_reducible apply CanonOut.next | with_reducible apply Canon.foldl | with_reducible apply canon_State_post
      | with_reducible apply canon_State_gateCell | intro _
theorem canon_execSwapEvalEnd (s : State) (h0 : Canon s) : CanonOut (execSwapEvalEnd s) := by
  unfold execSwapEvalEnd
  repeat' first
      | with_reducible assumption | with_reducible apply CanonOut.next | with_reducible apply Canon.foldl | with_reducible apply canon_State_post | intro _
      | dsimp only | split
theorem canon_State_modPair (s : State) (k : Nat) (f : PairSt → PairSt) (h0 : Canon s) : Canon (s.modPair k f) := by
  unfold State.modPair
  assumption
theorem canon_execFreeze (s : State) (h0 : Canon s) : CanonOut (execFreeze s) := by
  unfold execFreeze
  repeat' first
      | with_reducible assumption | with_reducible apply CanonOut.ite | with_reducible apply CanonOut.next | with_reducible apply Canon.foldl
      | with_reducible apply canon_State_post | with_reducible apply canon_State_modPair | with_reducible apply canon_State_setActor | intro _ | dsimp only
      | split
theorem canon_execMark (s : State) (h0 : Canon s) : CanonOut (execMark s) := by
  unfold execMark
  repeat' first
      | with_reducible assumption | with_reducible apply CanonOut.next | with_reducible apply Canon.foldl | with_reducible apply canon_State_post
      | with_reducible apply canon_State_modPair | with_reducible apply canon_State_forgetName | intro _
theorem canon_State_leaveTransit (s : State) (n : ActorName) (h0 : Canon s) : Canon (s.leaveTransit n) := by
  unfold State.leaveTransit
  repeat' first
      | with_reducible assumption | with_reducible apply Canon.ite | with_reducible apply canon_State_unhold | with_reducible apply canon_State_modActor
      | with_reducible apply canon_State_answer | intro _
theorem canon_execExchangeCommit (s : State) (h0 : Canon s) : CanonOut (execExchangeCommit s) := by
  unfold execExchangeCommit
  repeat' first
      | with_reducible assumption | with_reducible apply CanonOut.next | with_reducible apply Canon.foldl | with_reducible apply canon_State_modPair
      | with_reducible apply canon_State_putDown | with_reducible apply canon_State_modCell | with_reducible apply canon_State_vacate
      | with_reducible apply canon_State_leaveTransit | split
theorem canon_execCellWake (s : State) (h0 : Canon s) : CanonOut (execCellWake s) := by
  unfold execCellWake
  repeat' first | with_reducible assumption | with_reducible apply CanonOut.next | with_reducible apply canon_State_modCell
theorem canon_State_wakeCell (s : State) (c : Nat) (h0 : Canon s) : Canon (s.wakeCell c) := by
  unfold State.wakeCell
  repeat' first
      | with_reducible assumption | with_reducible apply Canon.ite | with_reducible apply canon_State_post | with_reducible apply canon_State_modCell
      | with_reducible apply canon_State_zero | intro _
theorem canon_State_park (s : State) (a : Actor) (h0 : Canon s) : Canon (s.park a) := by
  unfold State.park
  repeat' first
      | with_reducible assumption | with_reducible apply canon_State_post | with_reducible apply canon_State_put | with_reducible apply canon_State_setActor
      | with_reducible apply canon_State_vacate
theorem canon_State_relocate (s : State) (a : Actor) (p : Spot) (h0 : Canon s) : Canon (s.relocate a p) := by
  unfold State.relocate
  repeat' first
      | with_reducible assumption | with_reducible apply Canon.ite | with_reducible apply canon_State_refresh | with_reducible apply canon_State_setActor
      | with_reducible apply canon_State_forgetName | with_reducible apply canon_State_wakeCell | with_reducible apply canon_State_putDown
      | with_reducible apply canon_State_vacate | intro _
theorem canon_State_askMove (s : State) (a : Actor) (h0 : Canon s) : Canon (s.askMove a) := by
  unfold State.askMove
  repeat' first | with_reducible assumption | with_reducible apply Canon.ite | with_reducible apply canon_State_askPlace | intro _
theorem canon_State_leave (s : State) (a : Actor) (h0 : Canon s) : Canon (s.leave a) := by
  unfold State.leave
  repeat' first
      | with_reducible assumption | with_reducible apply Canon.ite | with_reducible apply canon_State_askMove | with_reducible apply canon_State_relocate
      | with_reducible apply canon_State_park | intro _ | split
theorem canon_execPreempt (s : State) (h0 : Canon s) : CanonOut (execPreempt s) := by
  unfold execPreempt
  repeat' first
      | with_reducible assumption | with_reducible apply Canon.ite | with_reducible apply CanonOut.next | with_reducible apply Canon.foldl
      | with_reducible apply canon_State_modCell | with_reducible apply canon_State_leave | with_reducible apply canon_State_setActor
      | with_reducible apply canon_State_post | intro _
theorem canon_execUnpark (s : State) (h0 : Canon s) : CanonOut (execUnpark s) := by
  unfold execUnpark
  repeat' first
      | with_reducible assumption | with_reducible apply CanonOut.ite | with_reducible apply CanonOut.next | with_reducible apply canon_State_askMove
      | with_reducible apply canon_State_relocate | with_reducible apply canon_State_post | intro _ | split
theorem canon_State_takeSlot (s : State) (a : Actor) (c : Nat) (k : Nat) (out : Option ActorName) (h0 : Canon s) : Canon (s.takeSlot a c k out) := by
  unfold State.takeSlot
  repeat' first | with_reducible assumption | with_reducible apply canon_State_setActor | with_reducible apply canon_State_modActor | split
theorem canon_execContextFetch (s : State) (h0 : Canon s) : CanonOut (execContextFetch s) := by
  unfold execContextFetch
  repeat' first
      | with_reducible assumption | with_reducible apply CanonOut.ite | with_reducible apply CanonOut.next | with_reducible apply canon_State_modActor
      | with_reducible apply canon_State_takeSlot | with_reducible apply canon_State_post | with_reducible apply canon_State_setActor
      | with_reducible apply canon_State_freshId | intro _ | dsimp only | split
theorem canon_State_endOffers (s : State) (h0 : Canon s) : Canon (s.endOffers) := by
  unfold State.endOffers
  repeat' first | with_reducible assumption | with_reducible apply Canon.foldl | with_reducible apply canon_State_setActor | intro _
theorem canon_execRoamingOffer (s : State) (h0 : Canon s) : CanonOut (execRoamingOffer s) := by
  unfold execRoamingOffer
  repeat' first
      | with_reducible assumption | with_reducible apply CanonOut.ite | with_reducible apply CanonOut.next | with_reducible apply canon_State_takeSlot
      | with_reducible apply canon_State_post | intro _ | dsimp only | split

-- Buoy

theorem canon_buoyRange (s : State) (al : Nat) (p0 : PWord) (p1 : PWord) (p2 : PWord) (h0 : Canon s) : CanonRes (fun _ => True) (buoyRange s al p0 p1 p2) := by
  unfold buoyRange
  repeat' first
      | with_reducible assumption | exact trivial | with_reducible apply CanonRes.check | with_reducible apply CanonRes.bind0 | with_reducible apply canon_param64
      | with_reducible apply canon_param | intro _
theorem canon_State_status (s : State) (v : Nat) (h0 : Canon s) : Canon (s.status v) := by
  unfold State.status
  repeat' first
      | with_reducible assumption | with_reducible apply canon_State_retire | with_reducible apply canon_State_pushOutside
      | with_reducible apply canon_State_setCur
theorem canon_State_phase (s : State) (k : Nat) (h0 : Canon s) : Canon (s.phase k) := by
  unfold State.phase
  repeat' first | with_reducible assumption | with_reducible apply canon_State_setCur
theorem canon_State_backEach (s : State) (a : Actor) (r : RegionRec) (x3 : List Nat) (h0 : Canon s) : CanonOpt (fun x => Canon x) (s.backEach a r x3) := by
  induction x3 generalizing s with
  | nil => unfold State.backEach; repeat' first | with_reducible assumption | with_reducible apply CanonOpt.some
  | cons b l ih =>
    unfold State.backEach
    repeat' first
        | with_reducible assumption | exact trivial | with_reducible apply ih | with_reducible apply canon_State_backAs | split
        | with_reducible refine Canon.osome ‹_› ?_
theorem canon_State_placeRun (s : State) (a : Actor) (r : RegionRec) (vp : Nat) (mib : Nat) (first : Option Nat) (h0 : Canon s) : CanonOpt (fun x => Canon x) (s.placeRun a r vp mib first) := by
  unfold State.placeRun
  split
  · repeat' first
      | with_reducible assumption | exact trivial | with_reducible apply CanonOpt.ite | with_reducible apply CanonOpt.some
      | with_reducible apply canon_State_backRun | intro _
  · exact CanonOpt.orElse (canon_State_backAs s a r _ _ _ h0) fun _ => canon_State_backEach s a r _ h0
theorem canon_State_alloc (s : State) (a : Actor) (r : RegionRec) (va : Nat) (mib : Nat) (first : Option Nat) (h0 : Canon s) : Canon (s.alloc a r va mib first).2 := by
  unfold State.alloc
  repeat' first
      | with_reducible assumption | with_reducible apply canon_State_placeRun | dsimp only | split | (unfold Canon; dsimp only)
      | with_reducible refine Canon.osome ‹_› ?_
theorem canon_execBalloc (p0 : PWord) (p1 : PWord) (p2 : PWord) (mir : Bool) (com : Bool) (s : State) (h0 : Canon s) : CanonOut (execBalloc p0 p1 p2 mir com s) := by
  unfold execBalloc
  repeat' first
      | with_reducible assumption | exact trivial | with_reducible apply CanonRes.ite | with_reducible apply CanonRes.stall | with_reducible apply CanonRes.check
      | with_reducible apply CanonRes.bind0 | with_reducible apply CanonRes.pure | with_reducible apply canon_unguarded | with_reducible apply canon_buoyRange
      | with_reducible apply canon_needGlobal | with_reducible apply canon_State_status | with_reducible apply canon_State_askHost
      | with_reducible apply canon_State_phase | with_reducible apply canon_State_alloc | intro _ | dsimp only | split
theorem canon_execBfree (p0 : PWord) (p1 : PWord) (p2 : PWord) (s : State) (h0 : Canon s) : CanonOut (execBfree p0 p1 p2 s) := by
  unfold execBfree
  repeat' first
      | with_reducible assumption | with_reducible apply CanonRes.ite | with_reducible apply CanonRes.stall | with_reducible apply CanonRes.bind0
      | with_reducible apply CanonRes.pure | with_reducible apply Canon.foldl | with_reducible apply canon_unguarded | with_reducible apply canon_buoyRange
      | with_reducible apply canon_needGlobal | with_reducible apply canon_State_status | with_reducible apply canon_State_phase
      | with_reducible apply canon_State_post | with_reducible apply canon_State_unback | with_reducible apply canon_State_rewalk | intro _ | dsimp only | split
theorem canon_execXmap (p0 : PWord) (p1 : PWord) (p2 : PWord) (s : State) (h0 : Canon s) : CanonOut (execXmap p0 p1 p2 s) := by
  unfold execXmap
  repeat' first
      | with_reducible assumption | with_reducible apply CanonRes.ite | with_reducible apply CanonRes.stall | with_reducible apply CanonRes.bind0
      | with_reducible apply CanonRes.pure | with_reducible apply canon_unguarded | with_reducible apply canon_buoyRange | with_reducible apply canon_needGlobal
      | with_reducible apply canon_State_status | with_reducible apply canon_State_post | with_reducible apply canon_State_setCur | intro _ | dsimp only | split
theorem canon_execXunmap (p0 : PWord) (p1 : PWord) (p2 : PWord) (s : State) (h0 : Canon s) : CanonOut (execXunmap p0 p1 p2 s) := by
  unfold execXunmap
  repeat' first
      | with_reducible assumption | with_reducible apply Canon.ite | with_reducible apply CanonRes.ite | with_reducible apply CanonRes.stall
      | with_reducible apply CanonRes.bind0 | with_reducible apply CanonRes.pure | with_reducible apply canon_unguarded | with_reducible apply canon_buoyRange
      | with_reducible apply canon_needGlobal | with_reducible apply canon_State_status | with_reducible apply canon_State_phase
      | with_reducible apply canon_State_setCur | with_reducible apply canon_State_unback | intro _ | dsimp only | split

-- Sextant

theorem canon_State_quarantine (s : State) (c : Nat) (h0 : Canon s) : Canon (s.quarantine c) := by
  unfold State.quarantine
  repeat' first
      | with_reducible assumption | with_reducible apply Canon.foldl | with_reducible apply canon_State_record | with_reducible apply canon_State_modCell
      | with_reducible apply canon_killActor | intro _
theorem canon_State_sample (s : State) (n : ActorName) (h0 : Canon s) : Canon (s.sample n) := by
  unfold State.sample
  repeat' first
      | with_reducible assumption | with_reducible apply Canon.ite | with_reducible apply canon_State_modCell | with_reducible apply canon_State_modActor
      | intro _ | dsimp only | split
theorem canon_State_sampleDone (s : State) (n : ActorName) (h0 : Canon s) : Canon (s.sampleDone n) := by
  unfold State.sampleDone
  repeat' first
      | with_reducible assumption | with_reducible apply canon_State_post | with_reducible apply canon_State_modActor | with_reducible apply canon_State_modAudit
      | with_reducible apply canon_State_logOut | dsimp only | split
theorem canon_State_abandonSample (s : State) (b : Nat) (h0 : Canon s) : Canon (s.abandonSample b) := by
  unfold State.abandonSample
  repeat' first | with_reducible assumption | with_reducible apply canon_State_sweepFiles | with_reducible apply canon_State_modActor
theorem canon_execShadowRun (s : State) (h0 : Canon s) : CanonOut (execShadowRun s) := by
  unfold execShadowRun
  repeat' first
      | with_reducible assumption | with_reducible apply CanonOut.ite | with_reducible apply CanonOut.next | with_reducible apply Canon.foldl
      | with_reducible apply canon_State_abandonSample | with_reducible apply canon_State_post | with_reducible apply canon_State_modCell
      | with_reducible apply canon_State_initRegion | with_reducible apply canon_State_setActor | with_reducible apply canon_State_modAudit
      | with_reducible apply canon_State_put | intro _ | dsimp only | split
theorem canon_State_freeAudit (s : State) (b : Nat) (h0 : Canon s) : Canon (s.freeAudit b) := by
  unfold State.freeAudit
  repeat' first | with_reducible assumption | with_reducible apply canon_State_sweepFiles
theorem canon_State_unresolved (s : State) (b : Nat) (h0 : Canon s) : Canon (s.unresolved b) := by
  unfold State.unresolved
  repeat' first | with_reducible assumption | with_reducible apply canon_State_freeAudit | with_reducible apply canon_State_record
theorem canon_State_verdict (s : State) (b : Nat) (h0 : Canon s) : Canon (s.verdict b) := by
  unfold State.verdict
  repeat' first
      | with_reducible assumption | with_reducible apply Canon.ite | with_reducible apply canon_State_freeAudit | with_reducible apply canon_State_askHost
      | with_reducible apply canon_State_record | with_reducible apply canon_State_post | with_reducible apply canon_State_quarantine
      | with_reducible apply canon_State_unresolved | intro _ | dsimp only | split
theorem canon_State_dropShadow (s : State) (b : Nat) (h0 : Canon s) : Canon (s.dropShadow b) := by
  unfold State.dropShadow
  repeat' first | with_reducible assumption | with_reducible apply canon_State_dropActor | with_reducible apply canon_State_release
theorem canon_execShadowComplete (s : State) (h0 : Canon s) : CanonOut (execShadowComplete s) := by
  unfold execShadowComplete
  repeat' first
      | with_reducible assumption | with_reducible apply CanonOut.ite | with_reducible apply CanonOut.next | with_reducible apply canon_State_post
      | with_reducible apply canon_State_verdict | with_reducible apply canon_State_modAudit | with_reducible apply canon_State_dropShadow | intro _
theorem canon_execShadowAbandon (s : State) (h0 : Canon s) : CanonOut (execShadowAbandon s) := by
  unfold execShadowAbandon
  repeat' first
      | with_reducible assumption | with_reducible apply CanonOut.ite | with_reducible apply CanonOut.next | with_reducible apply canon_State_abandonSample
      | with_reducible apply canon_State_post | with_reducible apply canon_State_setActor | with_reducible apply canon_State_dropShadow | intro _
theorem canon_State_shadowDone (s : State) (b : Nat) (h0 : Canon s) : Canon (s.shadowDone b) := by
  unfold State.shadowDone
  repeat' first
      | with_reducible assumption | with_reducible apply canon_State_post | with_reducible apply canon_State_setCur | with_reducible apply canon_State_logOut
theorem canon_execQuarantineWrite (s : State) (h0 : Canon s) : CanonOut (execQuarantineWrite s) := by
  unfold execQuarantineWrite
  repeat' first | with_reducible assumption | with_reducible apply CanonOut.next | with_reducible apply canon_State_quarantine

-- MsgInstr

theorem canon_needOutbox (a : Actor) (l : List OutItem) : CanonRes (fun _ => True) (needOutbox a l) := by
  unfold needOutbox
  repeat' first | exact trivial | with_reducible apply CanonRes.check | with_reducible apply CanonRes.bind0 | intro _
theorem canon_State_spillOut (s : State) (a : Actor) (h0 : Canon s) : Canon (s.spillOut a) := by
  unfold State.spillOut
  repeat' first
      | with_reducible assumption | with_reducible apply Canon.ite | with_reducible apply canon_State_setCur | with_reducible apply canon_State_askArea | intro _
theorem canon_operands (s : State) (x1 : List Scalar) (h0 : Canon s) : CanonRes (fun _ => True) (operands s x1) := by
  induction x1 generalizing s with
  | nil => unfold operands; repeat' first | exact trivial
  | cons b l ih =>
    unfold operands
    repeat' first
        | with_reducible assumption | exact trivial | with_reducible apply CanonRes.bind0 | with_reducible apply canon_operand | with_reducible apply ih
        | intro _
theorem canon_cleanOperands (s : State) (l : List Scalar) (h0 : Canon s) : CanonRes (fun _ => True) (cleanOperands s l) := by
  unfold cleanOperands
  repeat' first
      | with_reducible assumption | exact trivial | with_reducible apply CanonRes.check | with_reducible apply CanonRes.bind0
      | with_reducible apply canon_operands | intro _
theorem canon_needJob (s : State) (n : ActorName) (h0 : Canon s) : CanonRes (fun _ => True) (needJob s n) := by
  unfold needJob
  repeat' first | with_reducible apply CanonRes.check
theorem canon_needDest (s : State) (n : ActorName) (h0 : Canon s) : CanonRes (fun _ => True) (needDest s n) := by
  unfold needDest
  repeat' first | with_reducible apply CanonRes.check | with_reducible apply CanonRes.bind0 | intro _
theorem canon_resolveAll (a : Actor) (x1 : List TileSel) : CanonRes (fun _ => True) (resolveAll a x1) := by
  induction x1 with
  | nil => unfold resolveAll; repeat' first | exact trivial
  | cons b l ih =>
    unfold resolveAll
    repeat' first | with_reducible assumption | exact trivial | with_reducible apply CanonRes.bind0 | with_reducible apply canon_resolve | intro _
theorem canon_needSends (s : State) (x1 : List Nat) (h0 : Canon s) : CanonRes (fun _ => True) (needSends s x1) := by
  induction x1 with
  | nil => unfold needSends; repeat' first | exact trivial
  | cons b l ih =>
    unfold needSends
    repeat' first
        | with_reducible assumption | with_reducible apply CanonRes.ite | with_reducible apply CanonRes.bind0 | with_reducible apply canon_needSend
        | with_reducible apply canon_needDesc | with_reducible apply canon_needSize | intro _
theorem canon_sendTiles (s : State) (l : List TileSel) (h0 : Canon s) : CanonRes (fun _ => True) (sendTiles s l) := by
  unfold sendTiles
  repeat' first
      | with_reducible assumption | exact trivial | with_reducible apply CanonRes.bind0 | with_reducible apply canon_resolveAll
      | with_reducible apply canon_needSends | intro _
theorem canon_needXfers (s : State) (n : Nat) (h0 : Canon s) : CanonRes (fun _ => True) (needXfers s n) := by
  unfold needXfers
  repeat' first | with_reducible assumption | exact trivial | with_reducible apply CanonRes.ite | with_reducible apply CanonRes.stall | intro _
theorem canon_State_giveTile (s : State) (k : Nat) (h : Nat) (h0 : Canon s) : Canon (s.giveTile k h).1 := by
  unfold State.giveTile
  repeat' first
      | with_reducible assumption | with_reducible apply canon_State_setCur | with_reducible apply canon_State_post | with_reducible apply canon_State_addXfer
      | with_reducible apply canon_State_freshId | dsimp only | split
theorem canon_State_giveTiles (s : State) (x1 : Nat) (x2 : List Nat) (h0 : Canon s) : Canon (s.giveTiles x1 x2).1 := by
  induction x2 generalizing s x1 with
  | nil => unfold State.giveTiles; assumption
  | cons b l ih =>
    unfold State.giveTiles
    repeat' first | with_reducible assumption | with_reducible apply ih | with_reducible apply canon_State_giveTile
theorem canon_sendMsg (s : State) (m : Msg) (tl : List TileSel) (h0 : Canon s) : CanonRes (fun x => Canon x) (sendMsg s m tl) := by
  unfold sendMsg
  repeat' first
      | with_reducible assumption | with_reducible apply CanonRes.check | with_reducible apply CanonRes.bind0 | with_reducible apply CanonRes.pure
      | with_reducible apply canon_sendTiles | with_reducible apply canon_needOutbox | with_reducible apply canon_needXfers | with_reducible apply canon_State_retire
      | with_reducible apply canon_State_spillOut | with_reducible apply canon_State_giveTiles | intro _
theorem canon_execSend (a : Scalar) (x : SendArgs) (g : Guard) (s : State) (h0 : Canon s) : CanonOut (execSend a x g s) := by
  unfold execSend
  repeat' first
      | with_reducible assumption | with_reducible apply CanonRes.bind0 | with_reducible apply canon_guarded | with_reducible apply canon_cleanOperands
      | with_reducible apply canon_needDest | with_reducible apply canon_sendMsg | intro _
theorem canon_execSendt (a : Scalar) (x : SendArgs) (g : Guard) (s : State) (h0 : Canon s) : CanonOut (execSendt a x g s) := by
  unfold execSendt
  repeat' first
      | with_reducible assumption | with_reducible apply CanonRes.bind0 | with_reducible apply canon_guarded | with_reducible apply canon_cleanOperands
      | with_reducible apply canon_needDest | with_reducible apply canon_sendMsg | intro _
theorem canon_execCallRequest (a : Scalar) (x : SendArgs) (g : Guard) (s : State) (h0 : Canon s) : CanonOut (execCallRequest a x g s) := by
  unfold execCallRequest
  repeat' first
      | with_reducible assumption | with_reducible apply CanonRes.bindS | with_reducible apply CanonRes.bind0 | with_reducible apply CanonRes.pure
      | with_reducible apply canon_guarded | with_reducible apply canon_cleanOperands | with_reducible apply canon_needDest | with_reducible apply canon_sendMsg
      | with_reducible apply canon_State_setCur | intro _
theorem canon_execReply (a : Scalar) (b : Scalar) (pl : Scalar) (g : Guard) (s : State) (h0 : Canon s) : CanonOut (execReply a b pl g s) := by
  unfold execReply
  repeat' first
      | with_reducible assumption | with_reducible apply CanonRes.check | with_reducible apply CanonRes.bind0 | with_reducible apply canon_guarded
      | with_reducible apply canon_cleanOperands | with_reducible apply canon_needDest | with_reducible apply canon_sendMsg | intro _
theorem canon_execMcast (x : SendArgs) (g : Guard) (s : State) (h0 : Canon s) : CanonOut (execMcast x g s) := by
  unfold execMcast
  repeat' first
      | with_reducible assumption | exact trivial | with_reducible apply CanonRes.ite | with_reducible apply CanonRes.check | with_reducible apply CanonRes.bind0
      | with_reducible apply CanonRes.pure | with_reducible apply canon_guarded | with_reducible apply canon_cleanOperands | with_reducible apply canon_sendTiles
      | with_reducible apply canon_needOutbox | with_reducible apply canon_needXfers | with_reducible apply canon_State_retire
      | with_reducible apply canon_State_setCur | with_reducible apply canon_State_post | with_reducible apply canon_State_addXfer
      | with_reducible apply canon_State_spillOut | with_reducible apply canon_State_freshId | intro _ | dsimp only | split
theorem canon_State_awaited (s : State) (b : Fin 8) (v : W64) (p : Bool) (st : Nat) (h0 : Canon s) : Canon (s.awaited b v p st) := by
  unfold State.awaited
  repeat' first
      | with_reducible assumption | with_reducible apply canon_State_retire | with_reducible apply canon_State_setCur
      | with_reducible apply canon_State_pushOutside
theorem canon_execAwait (a : Scalar) (b : Fin 8) (g : Guard) (s : State) (h0 : Canon s) : CanonOut (execAwait a b g s) := by
  unfold execAwait
  repeat' first
      | with_reducible assumption | with_reducible apply Canon.ite | with_reducible apply CanonRes.ite | with_reducible apply CanonRes.stall
      | with_reducible apply CanonRes.bindS | with_reducible apply CanonRes.bind0 | with_reducible apply CanonRes.pure | with_reducible apply canon_guarded
      | with_reducible apply canon_cleanOperand | with_reducible apply canon_commit | with_reducible apply canon_State_awaited
      | with_reducible apply canon_State_setCur | with_reducible apply canon_State_freshId | with_reducible apply canon_State_post | intro _ | dsimp only | split
theorem canon_saveLive (s : State) (h0 : Canon s) : CanonRes (fun _ => True) (saveLive s) := by
  unfold saveLive
  repeat' first | with_reducible assumption | exact trivial | with_reducible apply CanonRes.ite | with_reducible apply CanonRes.stall | intro _
theorem canon_State_invocationOver (s : State) (saved : List (W64 × Bool)) (h0 : Canon s) : Canon (s.invocationOver saved) := by
  unfold State.invocationOver
  repeat' first
      | with_reducible assumption | with_reducible apply canon_State_refresh | with_reducible apply canon_State_unbindIfOver
      | with_reducible apply canon_State_setCur | with_reducible apply canon_State_trace
theorem canon_committing (s : State) (h0 : Canon s) : CanonRes (fun x => Canon x) (committing s) := by
  unfold committing
  repeat' first
      | with_reducible assumption | with_reducible apply CanonRes.stall | with_reducible apply canon_State_setCur | with_reducible apply canon_commit | dsimp only
      | split | with_reducible refine Canon.rstallS ‹_› ?_
theorem canon_execEnd (g : Guard) (s : State) (h0 : Canon s) : CanonOut (execEnd g s) := by
  unfold execEnd
  repeat' first
      | with_reducible assumption | with_reducible apply CanonRes.ite | with_reducible apply CanonRes.bindS | with_reducible apply CanonRes.bind0
      | with_reducible apply CanonRes.pure | with_reducible apply canon_guarded | with_reducible apply canon_saveLive | with_reducible apply canon_committing
      | with_reducible apply canon_State_shadowDone | with_reducible apply canon_State_invocationOver | with_reducible apply canon_State_sampleDone | intro _
      | split
theorem canon_State_askSpawn (s : State) (q : SpawnReq) (h0 : Canon s) : Canon (s.askSpawn q) := by
  unfold State.askSpawn
  repeat' first
      | with_reducible assumption | with_reducible apply canon_State_retire | with_reducible apply canon_State_setCur
      | with_reducible apply canon_State_pushOutside | with_reducible apply canon_State_pushAsked | with_reducible apply canon_State_post | intro _ | dsimp only
      | split
theorem canon_execSpawn (img : PWord) (arg0 : PWord) (arg1 : PWord) (lnk : Bool) (mon : Bool) (s : State) (h0 : Canon s) : CanonOut (execSpawn img arg0 arg1 lnk mon s) := by
  unfold execSpawn
  repeat' first
      | with_reducible assumption | with_reducible apply CanonRes.bind0 | with_reducible apply CanonRes.pure | with_reducible apply canon_unguarded
      | with_reducible apply canon_param | with_reducible apply canon_param64 | with_reducible apply canon_State_askSpawn | intro _
theorem canon_execSpawnc (crec : PWord) (arg0 : PWord) (arg1 : PWord) (s : State) (h0 : Canon s) : CanonOut (execSpawnc crec arg0 arg1 s) := by
  unfold execSpawnc
  repeat' first
      | with_reducible assumption | with_reducible apply CanonRes.check | with_reducible apply CanonRes.bind0 | with_reducible apply CanonRes.pure
      | with_reducible apply canon_unguarded | with_reducible apply canon_param | with_reducible apply canon_param64 | with_reducible apply canon_State_askSpawn
      | intro _
theorem canon_supRecord (s : State) (crec : PWord) (h0 : Canon s) : CanonRes (fun _ => True) (supRecord s crec) := by
  unfold supRecord
  repeat' first
      | with_reducible assumption | exact trivial | with_reducible apply CanonRes.check | with_reducible apply CanonRes.bind0 | with_reducible apply canon_param
      | intro _
theorem canon_execSupStart (crec : PWord) (s : State) (h0 : Canon s) : CanonOut (execSupStart crec s) := by
  unfold execSupStart
  repeat' first
      | with_reducible assumption | with_reducible apply CanonRes.bind0 | with_reducible apply CanonRes.pure | with_reducible apply canon_unguarded
      | with_reducible apply canon_supRecord | with_reducible apply canon_State_askSpawn | intro _
theorem canon_State_supRemove (s : State) (sup : ActorName) (e : ChildEnt) (h0 : Canon s) : Canon (s.supRemove sup e) := by
  unfold State.supRemove
  repeat' first
      | with_reducible assumption | with_reducible apply Canon.ite | with_reducible apply Canon.foldl | with_reducible apply canon_State_fire
      | with_reducible apply canon_State_giveUp | with_reducible apply canon_State_modTab | with_reducible apply canon_State_killBy | intro _ | dsimp only | split
theorem canon_execSupStop (crec : PWord) (s : State) (h0 : Canon s) : CanonOut (execSupStop crec s) := by
  unfold execSupStop
  repeat' first
      | with_reducible assumption | with_reducible apply CanonRes.bind0 | with_reducible apply CanonRes.pure | with_reducible apply canon_unguarded
      | with_reducible apply canon_supRecord | with_reducible apply canon_State_retire | with_reducible apply canon_State_pushOutside
      | with_reducible apply canon_State_supRemove | intro _ | split
theorem canon_execSupqName (crec : PWord) (s : State) (h0 : Canon s) : CanonOut (execSupqName crec s) := by
  unfold execSupqName
  repeat' first
      | with_reducible assumption | with_reducible apply CanonRes.bind0 | with_reducible apply CanonRes.pure | with_reducible apply canon_unguarded
      | with_reducible apply canon_supRecord | with_reducible apply canon_State_retire | with_reducible apply canon_State_pushOutside | intro _
theorem canon_execSupqCount (crec : PWord) (s : State) (h0 : Canon s) : CanonOut (execSupqCount crec s) := by
  unfold execSupqCount
  repeat' first
      | with_reducible assumption | with_reducible apply CanonRes.bind0 | with_reducible apply CanonRes.pure | with_reducible apply canon_unguarded
      | with_reducible apply canon_supRecord | with_reducible apply canon_State_retire | with_reducible apply canon_State_pushOutside | intro _
theorem canon_execSupqState (crec : PWord) (s : State) (h0 : Canon s) : CanonOut (execSupqState crec s) := by
  unfold execSupqState
  repeat' first
      | with_reducible assumption | with_reducible apply CanonRes.bind0 | with_reducible apply CanonRes.pure | with_reducible apply canon_unguarded
      | with_reducible apply canon_supRecord | with_reducible apply canon_State_retire | with_reducible apply canon_State_pushOutside | intro _
theorem canon_tieOp (mon : Bool) (a : Scalar) (g : Guard) (s : State) (h0 : Canon s) : CanonOut (tieOp mon a g s) := by
  unfold tieOp
  repeat' first
      | with_reducible assumption | with_reducible apply Canon.ite | with_reducible apply CanonRes.ite | with_reducible apply CanonRes.bind0
      | with_reducible apply CanonRes.pure | with_reducible apply canon_guarded | with_reducible apply canon_cleanOperand | with_reducible apply canon_needJob
      | with_reducible apply canon_State_retire | with_reducible apply canon_State_pushOutside | with_reducible apply canon_State_pushAsked
      | with_reducible apply canon_State_post | with_reducible apply canon_State_tie | with_reducible apply canon_State_tieMsg
      | with_reducible apply canon_State_setCur | intro _
theorem canon_execLink (a : Scalar) (g : Guard) (s : State) (h0 : Canon s) : CanonOut (execLink a g s) := by
  unfold execLink
  repeat' first | with_reducible assumption | with_reducible apply canon_tieOp
theorem canon_execMonitor (a : Scalar) (g : Guard) (s : State) (h0 : Canon s) : CanonOut (execMonitor a g s) := by
  unfold execMonitor
  repeat' first | with_reducible assumption | with_reducible apply canon_tieOp
theorem canon_untieOp (mon : Bool) (a : Scalar) (g : Guard) (s : State) (h0 : Canon s) : CanonOut (untieOp mon a g s) := by
  unfold untieOp
  repeat' first
      | with_reducible assumption | with_reducible apply Canon.ite | with_reducible apply CanonRes.bind0 | with_reducible apply CanonRes.pure
      | with_reducible apply canon_guarded | with_reducible apply canon_cleanOperand | with_reducible apply canon_needJob | with_reducible apply canon_State_retire
      | with_reducible apply canon_State_pushOutside | with_reducible apply canon_State_untie | with_reducible apply canon_State_tieMsg | intro _
theorem canon_execUnlink (a : Scalar) (g : Guard) (s : State) (h0 : Canon s) : CanonOut (execUnlink a g s) := by
  unfold execUnlink
  repeat' first | with_reducible assumption | with_reducible apply canon_untieOp
theorem canon_execDemon (a : Scalar) (g : Guard) (s : State) (h0 : Canon s) : CanonOut (execDemon a g s) := by
  unfold execDemon
  repeat' first | with_reducible assumption | with_reducible apply canon_untieOp
theorem canon_execExit (a : Scalar) (b : Scalar) (g : Guard) (s : State) (h0 : Canon s) : CanonOut (execExit a b g s) := by
  unfold execExit
  repeat' first
      | with_reducible assumption | exact trivial | with_reducible apply CanonRes.ite | with_reducible apply CanonRes.bindS | with_reducible apply CanonRes.bind0
      | with_reducible apply CanonRes.pure | with_reducible apply canon_guarded | with_reducible apply canon_cleanOperands | with_reducible apply canon_needJob
      | with_reducible apply canon_needOutbox | with_reducible apply canon_State_retire | with_reducible apply canon_State_spillOut
      | with_reducible apply canon_commit | with_reducible apply canon_State_shadowDone | with_reducible apply canon_killActor
      | with_reducible apply canon_State_sampleDone | intro _ | dsimp only | split
theorem canon_execKill (a : Scalar) (lv : KillLevel) (g : Guard) (s : State) (h0 : Canon s) : CanonOut (execKill a lv g s) := by
  unfold execKill
  repeat' first
      | with_reducible assumption | exact trivial | with_reducible apply CanonRes.ite | with_reducible apply CanonRes.bind0 | with_reducible apply CanonRes.pure
      | with_reducible apply canon_guarded | with_reducible apply canon_cleanOperand | with_reducible apply canon_needJob | with_reducible apply canon_needOutbox
      | with_reducible apply canon_State_retire | with_reducible apply canon_State_spillOut | intro _
theorem canon_execTrapx (a : Scalar) (g : Guard) (s : State) (h0 : Canon s) : CanonOut (execTrapx a g s) := by
  unfold execTrapx
  repeat' first
      | with_reducible assumption | with_reducible apply CanonRes.bind0 | with_reducible apply CanonRes.pure | with_reducible apply canon_guarded
      | with_reducible apply canon_cleanOperand | with_reducible apply canon_State_result | with_reducible apply canon_State_setCur | intro _
theorem canon_execChmask (a : Scalar) (g : Guard) (s : State) (h0 : Canon s) : CanonOut (execChmask a g s) := by
  unfold execChmask
  repeat' first
      | with_reducible assumption | with_reducible apply CanonRes.bind0 | with_reducible apply CanonRes.pure | with_reducible apply canon_guarded
      | with_reducible apply canon_cleanOperand | with_reducible apply canon_State_result | with_reducible apply canon_State_setCur | intro _
theorem canon_execPrio (a : Scalar) (g : Guard) (s : State) (h0 : Canon s) : CanonOut (execPrio a g s) := by
  unfold execPrio
  repeat' first
      | with_reducible assumption | with_reducible apply CanonRes.check | with_reducible apply CanonRes.bind0 | with_reducible apply CanonRes.pure
      | with_reducible apply canon_guarded | with_reducible apply canon_cleanOperand | with_reducible apply canon_State_result
      | with_reducible apply canon_State_setCur | intro _
theorem canon_execLookup (a : Scalar) (g : Guard) (s : State) (h0 : Canon s) : CanonOut (execLookup a g s) := by
  unfold execLookup
  repeat' first
      | with_reducible assumption | with_reducible apply CanonRes.bind0 | with_reducible apply CanonRes.pure | with_reducible apply canon_guarded
      | with_reducible apply canon_cleanOperand | with_reducible apply canon_State_retire | with_reducible apply canon_State_pushOutside | intro _
theorem canon_execReg (a : Scalar) (b : Scalar) (g : Guard) (s : State) (h0 : Canon s) : CanonOut (execReg a b g s) := by
  unfold execReg
  repeat' first
      | with_reducible assumption | with_reducible apply Canon.ite | with_reducible apply CanonRes.bind0 | with_reducible apply CanonRes.pure
      | with_reducible apply canon_guarded | with_reducible apply canon_cleanOperands | with_reducible apply canon_State_retire
      | with_reducible apply canon_State_pushOutside | with_reducible apply canon_State_modJob | intro _

-- Debug

theorem canon_State_stopTarget (s : State) (n : ActorName) (h0 : Canon s) : Canon (s.stopTarget n) := by
  unfold State.stopTarget
  repeat' first
      | with_reducible assumption | with_reducible apply Canon.ite | with_reducible apply canon_State_trace | with_reducible apply canon_State_modActor
      | with_reducible apply canon_State_answer | with_reducible apply canon_State_partMessage | intro _ | dsimp only | split
theorem canon_State_stopBefore (s : State) (n : ActorName) (h0 : Canon s) : Canon (s.stopBefore n) := by
  unfold State.stopBefore
  repeat' first
      | with_reducible assumption | with_reducible apply Canon.ite | with_reducible apply canon_State_stopTarget | with_reducible apply canon_State_modActor
      | intro _ | split
theorem canon_State_afterIssue (s : State) (before : Actor) (h0 : Canon s) : Canon (s.afterIssue before) := by
  unfold State.afterIssue
  repeat' first
      | with_reducible assumption | with_reducible apply Canon.ite | with_reducible apply canon_State_stopTarget | with_reducible apply canon_State_setActor
      | intro _
theorem canon_execDhalt (a : Scalar) (b : Fin 14) (g : Guard) (s : State) (h0 : Canon s) : CanonOut (execDhalt a b g s) := by
  unfold execDhalt
  repeat' first
      | with_reducible assumption | with_reducible apply Canon.ite | with_reducible apply CanonRes.ite | with_reducible apply CanonRes.bind0
      | with_reducible apply CanonRes.pure | with_reducible apply canon_guarded | with_reducible apply canon_cleanOperand | with_reducible apply canon_State_retire
      | with_reducible apply canon_State_pushOutside | with_reducible apply canon_State_pushAsked | with_reducible apply canon_State_modActor
      | with_reducible apply canon_State_setCur | with_reducible apply canon_State_stopTarget | intro _
theorem canon_execDstep (a : Scalar) (b : Fin 1) (g : Guard) (s : State) (h0 : Canon s) : CanonOut (execDstep a b g s) := by
  unfold execDstep
  repeat' first
      | with_reducible assumption | with_reducible apply CanonRes.ite | with_reducible apply CanonRes.bind0 | with_reducible apply CanonRes.pure
      | with_reducible apply canon_guarded | with_reducible apply canon_cleanOperand | with_reducible apply canon_State_retire
      | with_reducible apply canon_State_pushOutside | with_reducible apply canon_State_pushAsked | with_reducible apply canon_State_freshVal
      | with_reducible apply canon_State_modActor | intro _ | dsimp only | split
theorem canon_execDres (a : Scalar) (g : Guard) (s : State) (h0 : Canon s) : CanonOut (execDres a g s) := by
  unfold execDres
  repeat' first
      | with_reducible assumption | with_reducible apply Canon.ite | with_reducible apply CanonRes.ite | with_reducible apply CanonRes.bind0
      | with_reducible apply CanonRes.pure | with_reducible apply canon_guarded | with_reducible apply canon_cleanOperand | with_reducible apply canon_State_retire
      | with_reducible apply canon_State_pushOutside | with_reducible apply canon_State_setCur | with_reducible apply canon_State_modActor
      | with_reducible apply canon_State_freshVal | with_reducible apply canon_State_answer | intro _ | dsimp only | split
theorem canon_execDrd (a : Scalar) (g : Guard) (s : State) (h0 : Canon s) : CanonOut (execDrd a g s) := by
  unfold execDrd
  repeat' first
      | with_reducible assumption | with_reducible apply CanonRes.ite | with_reducible apply CanonRes.bind0 | with_reducible apply CanonRes.pure
      | with_reducible apply canon_guarded | with_reducible apply canon_cleanOperand | with_reducible apply canon_State_retire
      | with_reducible apply canon_State_pushOutside | with_reducible apply canon_State_freshVal | intro _ | dsimp only | split
theorem canon_execDwr (a : Scalar) (b : Scalar) (g : Guard) (s : State) (h0 : Canon s) : CanonOut (execDwr a b g s) := by
  unfold execDwr
  repeat' first
      | with_reducible assumption | with_reducible apply CanonRes.ite | with_reducible apply CanonRes.bind0 | with_reducible apply CanonRes.pure
      | with_reducible apply canon_guarded | with_reducible apply canon_cleanOperands | with_reducible apply canon_State_retire
      | with_reducible apply canon_State_pushOutside | with_reducible apply canon_State_spoisWrite | with_reducible apply canon_State_put
      | with_reducible apply canon_State_post | with_reducible apply canon_State_refresh | with_reducible apply canon_State_setActor | intro _ | dsimp only
      | split
theorem canon_debugSet (s : State) (f : Debug → Debug) (h0 : Canon s) : Canon (debugSet s f) := by
  unfold debugSet
  repeat' first
      | with_reducible assumption | with_reducible apply canon_State_retire | with_reducible apply canon_State_pushOutside
      | with_reducible apply canon_State_modActor | split
theorem canon_execDbp (a : Scalar) (ix : Fin 4) (en : Bool) (g : Guard) (s : State) (h0 : Canon s) : CanonOut (execDbp a ix en g s) := by
  unfold execDbp
  repeat' first
      | with_reducible assumption | with_reducible apply CanonRes.bind0 | with_reducible apply CanonRes.pure | with_reducible apply canon_guarded
      | with_reducible apply canon_cleanOperand | with_reducible apply canon_debugSet | intro _
theorem canon_execDwp (a : Scalar) (ix : Fin 4) (en : Bool) (wk : Fin 4) (len : W32) (g : Guard) (s : State) (h0 : Canon s) : CanonOut (execDwp a ix en wk len g s) := by
  unfold execDwp
  repeat' first
      | with_reducible assumption | with_reducible apply CanonRes.bind0 | with_reducible apply CanonRes.pure | with_reducible apply canon_guarded
      | with_reducible apply canon_cleanOperand | with_reducible apply canon_debugSet | intro _
theorem canon_execDtrc (a : Scalar) (g : Guard) (s : State) (h0 : Canon s) : CanonOut (execDtrc a g s) := by
  unfold execDtrc
  repeat' first
      | with_reducible assumption | with_reducible apply CanonRes.check | with_reducible apply CanonRes.bind0 | with_reducible apply CanonRes.pure
      | with_reducible apply canon_guarded | with_reducible apply canon_cleanOperand | with_reducible apply canon_debugSet | intro _

end Sys2Proof.Machine
end

