-- ==== Sys2Proof/Laws/KeptPart.lean ====
section
/-! SUPPORT. Memory keeps its canonical form through every operation of the fabric, management, the loader and the portal. -/

set_option maxRecDepth 4000

namespace Sys2Proof.Machine

-- Fabric

theorem canon_State_peerNotices (s : State) (a : Actor) (m : Nat) (h0 : Canon s) : Canon (s.peerNotices a m) := by
  unfold State.peerNotices
  repeat' first
      | with_reducible assumption | with_reducible apply Canon.foldl | with_reducible apply canon_State_modActor | with_reducible apply canon_State_partMessage
      | intro _
theorem canon_State_dropRequests (s : State) (p : StationEnt → Bool) (h0 : Canon s) : Canon (s.dropRequests p) := by
  unfold State.dropRequests
  repeat' first
      | with_reducible assumption | with_reducible apply Canon.foldl | with_reducible apply canon_State_setStation | with_reducible apply canon_State_freeEntry
      | intro _
theorem canon_State_askLost (s : State) (a : Actor) (m : Nat) (h0 : Canon s) : Canon (s.askLost a m) := by
  unfold State.askLost
  repeat' first
      | with_reducible assumption | with_reducible apply Canon.foldl | with_reducible apply canon_State_answer | with_reducible apply canon_State_modActor
      | with_reducible apply canon_State_untie | intro _
theorem canon_State_losePeer (s : State) (m : Nat) (h0 : Canon s) : Canon (s.losePeer m) := by
  unfold State.losePeer
  repeat' first
      | with_reducible assumption | with_reducible apply Canon.ite | with_reducible apply Canon.foldl | with_reducible apply canon_State_dropRequests
      | with_reducible apply canon_State_record | with_reducible apply canon_State_peerDrops | with_reducible apply canon_State_askLost
      | with_reducible apply canon_State_peerNotices | intro _
theorem canon_State_loseHeld (s : State) (p : Nat) (h0 : Canon s) : Canon (s.loseHeld p) := by
  unfold State.loseHeld
  repeat' first
      | with_reducible assumption | with_reducible apply Canon.foldl | with_reducible apply canon_State_rehome | with_reducible apply canon_State_modActor
      | intro _
theorem canon_State_loseReds (s : State) (p : Nat) (h0 : Canon s) : Canon (s.loseReds p) := by
  unfold State.loseReds
  repeat' first | with_reducible assumption | with_reducible apply Canon.foldl | with_reducible apply canon_killActor | intro _
theorem canon_State_losePlane (s : State) (p : Nat) (h0 : Canon s) : Canon (s.losePlane p) := by
  unfold State.losePlane
  repeat' first
      | with_reducible assumption | with_reducible apply Canon.ite | with_reducible apply Canon.foldl | with_reducible apply canon_State_loseHeld
      | with_reducible apply canon_State_loseReds | with_reducible apply canon_State_setStation | with_reducible apply canon_State_record
      | with_reducible apply canon_State_loseRequest | with_reducible apply canon_State_enterStation | with_reducible apply canon_State_losePeer | intro _ | split
theorem canon_execFabricTimeout (s : State) (h0 : Canon s) : CanonOut (execFabricTimeout s) := by
  unfold execFabricTimeout
  repeat' first
      | with_reducible assumption | with_reducible apply CanonOut.ite | with_reducible apply CanonOut.next | with_reducible apply canon_State_losePlane
      | with_reducible apply canon_State_losePeer | with_reducible apply canon_State_fabricSend | with_reducible apply canon_State_enterStation
      | with_reducible apply canon_State_freeEntry | intro _ | dsimp only | split
theorem canon_execFabricReply (s : State) (h0 : Canon s) : CanonOut (execFabricReply s) := by
  unfold execFabricReply
  repeat' first
      | with_reducible assumption | with_reducible apply Canon.ite | with_reducible apply CanonOut.ite | with_reducible apply CanonOut.next
      | with_reducible apply canon_State_freeEntry | with_reducible apply canon_State_dropped | with_reducible apply canon_State_endXfers
      | with_reducible apply canon_State_travel | intro _ | dsimp only | split
theorem canon_execStationLinkDown (s : State) (h0 : Canon s) : CanonOut (execStationLinkDown s) := by
  unfold execStationLinkDown
  repeat' first | with_reducible assumption | with_reducible apply CanonOut.next | with_reducible apply canon_State_losePlane

-- Manage

theorem canon_State_boot (s : State) (h0 : Canon s) : Canon (s.boot) := by
  unfold State.boot
  repeat' first | with_reducible assumption | with_reducible apply Memory.wf_filter
theorem canon_execPowerOnReset (s : State) (h0 : Canon s) : CanonOut (execPowerOnReset s) := by
  unfold execPowerOnReset
  repeat' first
      | with_reducible assumption | with_reducible apply CanonOut.next | with_reducible apply Canon.ite | with_reducible apply Canon.foldl | with_reducible apply canon_State_boot
      | with_reducible apply canon_State_disableModule | intro _
theorem canon_execWarmReset (s : State) (h0 : Canon s) : CanonOut (execWarmReset s) := by
  unfold execWarmReset
  repeat' first
      | with_reducible assumption | with_reducible apply CanonOut.next | with_reducible apply Canon.ite | with_reducible apply Canon.foldl | with_reducible apply canon_State_boot
      | with_reducible apply canon_State_disableModule | intro _
theorem canon_execThermalTrip (s : State) (h0 : Canon s) : CanonOut (execThermalTrip s) := by
  unfold execThermalTrip
  repeat' first | with_reducible assumption | with_reducible apply CanonOut.next
theorem canon_State_sensors (s : State) (h0 : Canon s) : Canon (s.sensors) := by
  unfold State.sensors
  assumption
theorem canon_execThrottle (s : State) (h0 : Canon s) : CanonOut (execThrottle s) := by
  unfold execThrottle
  repeat' first
      | with_reducible assumption | with_reducible apply Canon.ite | with_reducible apply CanonOut.next | with_reducible apply canon_State_sensors | intro _
theorem canon_execThrottleEnd (s : State) (h0 : Canon s) : CanonOut (execThrottleEnd s) := by
  unfold execThrottleEnd
  repeat' first | with_reducible assumption | with_reducible apply CanonOut.next | with_reducible apply canon_State_sensors
theorem canon_State_age (s : State) (c : Nat) (h0 : Canon s) : Canon (s.age c) := by
  unfold State.age
  repeat' first
      | with_reducible assumption | with_reducible apply Canon.ite | with_reducible apply canon_State_setCell | with_reducible apply canon_State_post
      | with_reducible apply canon_State_record | intro _
theorem canon_execAgeingCheck (s : State) (h0 : Canon s) : CanonOut (execAgeingCheck s) := by
  unfold execAgeingCheck
  repeat' first
      | with_reducible assumption | with_reducible apply Canon.ite | with_reducible apply CanonOut.next | with_reducible apply Canon.foldl
      | with_reducible apply canon_State_post | with_reducible apply canon_State_freshVal | with_reducible apply canon_State_age | intro _

-- Loader

theorem canon_State_load (s : State) (bus : Nat) (len : Nat) (h0 : Canon s) : CanonExc (fun x => Canon x.2) (s.load bus len) := by
  unfold State.load
  repeat' first
      | with_reducible assumption | exact trivial | with_reducible apply CanonExc.pure | with_reducible apply CanonExc.bind | with_reducible apply canon_State_put
      | intro _ | dsimp only | split

-- Portal

theorem canon_State_drainQueue (s : State) (q : Nat) (x2 : Nat) (h0 : Canon s) : Canon (s.drainQueue q x2) := by
  induction x2 generalizing s with
  | zero => unfold State.drainQueue; assumption
  | succ f ih =>
    unfold State.drainQueue
    repeat' first
        | with_reducible assumption | with_reducible apply Canon.ite | with_reducible apply ih | with_reducible apply canon_State_put | intro _ | dsimp only
        | split
theorem canon_execHostQueueWrite (s : State) (h0 : Canon s) : CanonOut (execHostQueueWrite s) := by
  unfold execHostQueueWrite
  repeat' first
      | with_reducible assumption | with_reducible apply Canon.ite | with_reducible apply CanonOut.next | with_reducible apply canon_State_drainQueue | intro _
theorem canon_execHqackWrite (s : State) (h0 : Canon s) : CanonOut (execHqackWrite s) := by
  unfold execHqackWrite
  repeat' first | with_reducible assumption | with_reducible apply CanonOut.next | with_reducible apply canon_State_post
theorem canon_State_portalError (s : State) (c : Nat) (stat : Nat) (rseq : Nat) (h0 : Canon s) : Canon (s.portalError c stat rseq) := by
  unfold State.portalError
  repeat' first | with_reducible assumption | with_reducible apply canon_State_record
theorem canon_State_portalDeliver (s : State) (c : Nat) (m : Msg) (h0 : Canon s) : Canon (s.portalDeliver c m) := by
  unfold State.portalDeliver
  repeat' first
      | with_reducible assumption | with_reducible apply Canon.ite | with_reducible apply canon_State_partMessage | with_reducible apply canon_State_post
      | with_reducible apply canon_State_portalError | intro _
theorem canon_State_portalFollow (s : State) (c : Nat) (x2 : Nat) (h0 : Canon s) : Canon (s.portalFollow c x2) := by
  induction x2 generalizing s with
  | zero => unfold State.portalFollow; assumption
  | succ f ih =>
    unfold State.portalFollow
    repeat' first | with_reducible assumption | with_reducible apply ih | with_reducible apply canon_State_portalDeliver | dsimp only | split
theorem canon_State_portalSlot (s : State) (c : Nat) (slot : Nat) (h0 : Canon s) : Canon (s.portalSlot c slot) := by
  unfold State.portalSlot
  repeat' first
      | with_reducible assumption | with_reducible apply Canon.ite | with_reducible apply canon_State_portalError | with_reducible apply canon_State_portalFollow
      | intro _
theorem canon_execPortalSlotComplete (s : State) (h0 : Canon s) : CanonOut (execPortalSlotComplete s) := by
  unfold execPortalSlotComplete
  repeat' first
      | with_reducible assumption | with_reducible apply CanonOut.ite | with_reducible apply CanonOut.next | with_reducible apply canon_State_portalSlot | intro _
theorem canon_State_writeSigreq (s : State) (v : Nat) (h0 : Canon s) : Canon (s.writeSigreq v) := by
  unfold State.writeSigreq
  repeat' first | with_reducible assumption | with_reducible apply Canon.ite | intro _
theorem canon_execPortalOpen (s : State) (h0 : Canon s) : CanonOut (execPortalOpen s) := by
  unfold execPortalOpen
  repeat' first
      | with_reducible assumption | with_reducible apply CanonOut.ite | with_reducible apply CanonOut.next | with_reducible apply Canon.foldl
      | with_reducible apply canon_State_writeSigreq | with_reducible apply canon_State_post | intro _
theorem canon_execLaunch (s : State) (h0 : Canon s) : CanonOut (execLaunch s) := by
  unfold execLaunch
  repeat' first
      | with_reducible assumption | with_reducible apply CanonOut.ite | with_reducible apply CanonOut.next | with_reducible apply canon_State_launchRecord
      | with_reducible apply canon_State_post | intro _
theorem canon_execLoad (s : State) (h0 : Canon s) : CanonOut (execLoad s) := by
  unfold execLoad
  repeat' first
      | with_reducible assumption | with_reducible apply CanonOut.next | with_reducible apply canon_State_record | with_reducible apply canon_State_load
      | dsimp only | split | with_reducible refine Canon.eok2 ‹_› ?_
theorem canon_execUnload (s : State) (h0 : Canon s) : CanonOut (execUnload s) := by
  unfold execUnload
  repeat' first
      | with_reducible assumption | with_reducible apply CanonOut.ite | with_reducible apply CanonOut.next | with_reducible apply canon_State_record
      | with_reducible apply canon_State_sweepFiles | intro _
theorem canon_execAttestationRequest (s : State) (h0 : Canon s) : CanonOut (execAttestationRequest s) := by
  unfold execAttestationRequest
  repeat' first
      | with_reducible assumption | with_reducible apply Canon.ite | with_reducible apply CanonOut.ite | with_reducible apply CanonOut.next
      | with_reducible apply canon_State_record | with_reducible apply canon_State_put | intro _
theorem canon_State_hostBack (s : State) (a : Actor) (va : Nat) (pp : Nat) (n : Nat) (h0 : Canon s) : Canon (s.hostBack a va pp n) := by
  unfold State.hostBack
  repeat' first | with_reducible assumption | with_reducible apply Canon.ite | with_reducible apply canon_State_backRun | intro _ | dsimp only | split
theorem canon_State_hostRestart (s : State) (dead : ActorName) (sup : ActorName) (v : Nat) (h0 : Canon s) : Canon (s.hostRestart dead sup v) := by
  unfold State.hostRestart
  repeat' first
      | with_reducible assumption | with_reducible apply Canon.ite | with_reducible apply canon_State_modEnt | with_reducible apply canon_State_perform
      | with_reducible apply canon_State_stopEnt | with_reducible apply canon_State_escalate | intro _ | dsimp only | split
theorem canon_State_hostPlace (s : State) (q : SpawnReq) (h0 : Canon s) : Canon (s.hostPlace q) := by
  unfold State.hostPlace
  repeat' first
      | with_reducible assumption | with_reducible apply Canon.ite | with_reducible apply canon_State_relocate | with_reducible apply canon_State_post | intro _
      | dsimp only | split
theorem canon_execDutyAnswer (s : State) (h0 : Canon s) : CanonOut (execDutyAnswer s) := by
  unfold execDutyAnswer
  repeat' first
      | with_reducible assumption | with_reducible apply CanonOut.ite | with_reducible apply CanonOut.next | with_reducible apply canon_State_answerWalk
      | with_reducible apply canon_State_hostBack | with_reducible apply canon_State_hostRestart | with_reducible apply canon_State_freeAudit
      | with_reducible apply canon_State_quarantine | with_reducible apply canon_State_post | with_reducible apply canon_State_hostPlace
      | with_reducible apply canon_State_modActor | with_reducible apply canon_State_alloc | intro _ | dsimp only | split
theorem canon_State_takeBack (s : State) (d : DutyReq) (h0 : Canon s) : Canon (s.takeBack d) := by
  unfold State.takeBack
  repeat' first
      | with_reducible assumption | with_reducible apply Canon.ite | with_reducible apply canon_State_post | with_reducible apply canon_State_restartEvent
      | with_reducible apply canon_State_modEnt | with_reducible apply canon_State_stopEnt | with_reducible apply canon_State_hostPlace
      | with_reducible apply canon_State_modActor | intro _ | dsimp only | split
theorem canon_execDutymodeWrite (s : State) (h0 : Canon s) : CanonOut (execDutymodeWrite s) := by
  unfold execDutymodeWrite
  repeat' first
      | with_reducible assumption | with_reducible apply CanonOut.next | with_reducible apply Canon.foldl | with_reducible apply canon_State_takeBack
theorem canon_State_reschedule (s : State) (h0 : Canon s) : Canon (s.reschedule) := by
  unfold State.reschedule
  assumption
theorem canon_execRegisterWrite (s : State) (h0 : Canon s) : CanonOut (execRegisterWrite s) := by
  unfold execRegisterWrite
  repeat' first
      | with_reducible assumption | with_reducible apply Canon.ite | with_reducible apply CanonOut.ite | with_reducible apply CanonOut.next
      | with_reducible apply canon_State_writeSigreq | with_reducible apply canon_State_post | with_reducible apply canon_State_reschedule
      | with_reducible apply canon_State_freshVal | with_reducible apply canon_State_modCell | intro _

end Sys2Proof.Machine
end

