-- ==== Sys2Proof/Laws/KeptInstr.lean ====
section
/-! SUPPORT. Memory keeps its canonical form through every operation of the matrix, scalar and vector instructions, and every instruction. -/

set_option maxRecDepth 4000

namespace Sys2Proof.Machine

-- Matrix

theorem canon_needLocal (s : State) (hs : List Nat) (h0 : Canon s) : CanonRes (fun _ => True) (needLocal s hs) := by
  unfold needLocal
  repeat' first | with_reducible apply CanonRes.check
theorem canon_needAcc (s : State) (k : Fin 4) (h0 : Canon s) : CanonRes (fun _ => True) (needAcc s k) := by
  unfold needAcc
  repeat' first | with_reducible assumption | exact trivial | with_reducible apply CanonRes.ite | with_reducible apply CanonRes.stall | intro _
theorem canon_needLa (s : State) (h0 : Canon s) : CanonRes (fun _ => True) (needLa s) := by
  unfold needLa
  repeat' first | with_reducible assumption | exact trivial | with_reducible apply CanonRes.ite | with_reducible apply CanonRes.stall | intro _
theorem canon_needLb (s : State) (h0 : Canon s) : CanonRes (fun _ => True) (needLb s) := by
  unfold needLb
  repeat' first | with_reducible assumption | exact trivial | with_reducible apply CanonRes.ite | with_reducible apply CanonRes.stall | intro _
theorem canon_laOperand (s : State) (h0 : Canon s) : CanonRes (fun _ => True) (laOperand s) := by
  unfold laOperand
  repeat' first | exact trivial | with_reducible apply CanonRes.ite | intro _
theorem canon_lbOperand (s : State) (h0 : Canon s) : CanonRes (fun _ => True) (lbOperand s) := by
  unfold lbOperand
  repeat' first | exact trivial | with_reducible apply CanonRes.ite | intro _
theorem canon_needOpSize (s : State) (h : Option Nat) (h0 : Canon s) : CanonRes (fun _ => True) (needOpSize s h) := by
  unfold needOpSize
  repeat' first | exact trivial | with_reducible apply CanonRes.bind0 | with_reducible apply canon_needSize | intro _ | split
theorem canon_State_setAcc (s : State) (k : Fin 4) (a : Acc) (h0 : Canon s) : Canon (s.setAcc k a) := by
  unfold State.setAcc
  repeat' first | with_reducible assumption | with_reducible apply canon_State_modCell
theorem canon_execMclr (acc : Fin 4) (sr : SemiRing) (s : State) (h0 : Canon s) : CanonOut (execMclr acc sr s) := by
  unfold execMclr
  repeat' first
      | with_reducible assumption | with_reducible apply CanonRes.bind0 | with_reducible apply CanonRes.pure | with_reducible apply canon_unguarded
      | with_reducible apply canon_needLocal | with_reducible apply canon_needAcc | with_reducible apply canon_needM | with_reducible apply canon_State_startM
      | with_reducible apply canon_State_retire | with_reducible apply canon_State_setAcc | intro _
theorem canon_loadLatch (s : State) (t : TileSel) (form : LatchForm) (tr : Bool) (lu : Bool) (h0 : Canon s) : CanonRes (fun x => Canon x) (loadLatch s t form tr lu) := by
  unfold loadLatch
  repeat' first
      | with_reducible assumption | with_reducible apply CanonRes.ite | with_reducible apply CanonRes.stall | with_reducible apply CanonRes.check
      | with_reducible apply CanonRes.bind0 | with_reducible apply CanonRes.pure | with_reducible apply canon_resolve | with_reducible apply canon_needLocal
      | with_reducible apply canon_needLa | with_reducible apply canon_needRead | with_reducible apply canon_needDesc | with_reducible apply canon_needSize
      | with_reducible apply canon_needM | with_reducible apply canon_State_startM | with_reducible apply canon_State_setCur
      | with_reducible apply canon_State_modCell | with_reducible apply canon_needLb | intro _
theorem canon_execMlda (a : TileSel) (lu : Bool) (s : State) (h0 : Canon s) : CanonOut (execMlda a lu s) := by
  unfold execMlda
  repeat' first | with_reducible assumption | with_reducible apply canon_unguarded | with_reducible apply canon_loadLatch
theorem canon_execMldb (a : TileSel) (rl : Bool) (lu : Bool) (s : State) (h0 : Canon s) : CanonOut (execMldb a rl lu s) := by
  unfold execMldb
  repeat' first | with_reducible assumption | with_reducible apply canon_unguarded | with_reducible apply canon_loadLatch
theorem canon_execMtr (a : TileSel) (lat : Bool) (lu : Bool) (s : State) (h0 : Canon s) : CanonOut (execMtr a lat lu s) := by
  unfold execMtr
  repeat' first | with_reducible assumption | with_reducible apply canon_unguarded | with_reducible apply canon_loadLatch
theorem canon_execMrelay (a : Scalar) (b : Scalar) (s : State) (h0 : Canon s) : CanonOut (execMrelay a b s) := by
  unfold execMrelay
  repeat' first
      | with_reducible assumption | exact trivial | with_reducible apply CanonRes.ite | with_reducible apply CanonRes.check | with_reducible apply CanonRes.bind0
      | with_reducible apply CanonRes.pure | with_reducible apply canon_unguarded | with_reducible apply canon_operand | with_reducible apply canon_needLocal
      | with_reducible apply canon_needXfers | with_reducible apply canon_needOutbox | with_reducible apply canon_State_retire
      | with_reducible apply canon_State_modCell | with_reducible apply canon_State_setCur | with_reducible apply canon_State_post
      | with_reducible apply canon_State_addXfer | with_reducible apply canon_State_freshId | intro _ | dsimp only | split
theorem canon_resolveOpt (a : Actor) (x1 : Option TileSel) : CanonRes (fun _ => True) (resolveOpt a x1) := by
  unfold resolveOpt
  repeat' first | exact trivial | with_reducible apply CanonRes.map | with_reducible apply canon_resolve | split
theorem canon_needScales (s : State) (h : Option Nat) (n : Nat) (h0 : Canon s) : CanonRes (fun _ => True) (needScales s h n) := by
  unfold needScales
  repeat' first | exact trivial | with_reducible apply CanonRes.check | with_reducible apply CanonRes.bind0 | intro _ | dsimp only | split
theorem canon_mulAcc (s : State) (acc : Fin 4) (a : OpA) (b : OpB) (sa : Option TileSel) (sb : Option TileSel) (scaled : Bool) (sr : SemiRing) (la : Bool) (lb : Bool) (h0 : Canon s) : CanonRes (fun x => Canon x) (mulAcc s acc a b sa sb scaled sr la lb) := by
  unfold mulAcc
  repeat' first
      | with_reducible assumption | exact trivial | with_reducible apply CanonRes.ite | with_reducible apply CanonRes.map | with_reducible apply CanonRes.check
      | with_reducible apply CanonRes.bind0 | with_reducible apply CanonRes.pure | with_reducible apply canon_resolveOpt | with_reducible apply canon_needLocal
      | with_reducible apply canon_needAcc | with_reducible apply canon_needLa | with_reducible apply canon_needLb | with_reducible apply canon_needRead
      | with_reducible apply canon_needOpt | with_reducible apply canon_needOpSize | with_reducible apply canon_needScales | with_reducible apply canon_needM
      | with_reducible apply canon_State_startM | with_reducible apply canon_State_setCur | with_reducible apply canon_State_setAcc
      | with_reducible apply canon_lbOperand | with_reducible apply canon_laOperand | intro _ | dsimp only | split
theorem canon_execMma (acc : Fin 4) (a : OpA) (b : OpB) (sr : SemiRing) (lasta : Bool) (lastb : Bool) (s : State) (h0 : Canon s) : CanonOut (execMma acc a b sr lasta lastb s) := by
  unfold execMma
  repeat' first | with_reducible assumption | with_reducible apply canon_unguarded | with_reducible apply canon_mulAcc
theorem canon_execMmas (acc : Fin 4) (a : OpA) (b : OpB) (sa : Option TileSel) (sb : Option TileSel) (sr : SemiRing) (lasta : Bool) (lastb : Bool) (s : State) (h0 : Canon s) : CanonOut (execMmas acc a b sa sb sr lasta lastb s) := by
  unfold execMmas
  repeat' first | with_reducible assumption | with_reducible apply canon_unguarded | with_reducible apply canon_mulAcc
theorem canon_execMacc (acc : Fin 4) (a : OpC) (sr : SemiRing) (lasta : Bool) (s : State) (h0 : Canon s) : CanonOut (execMacc acc a sr lasta s) := by
  unfold execMacc
  repeat' first
      | with_reducible assumption | with_reducible apply Canon.ite | with_reducible apply CanonRes.check | with_reducible apply CanonRes.bind0
      | with_reducible apply CanonRes.pure | with_reducible apply canon_unguarded | with_reducible apply canon_resolveOpt | with_reducible apply canon_needLocal
      | with_reducible apply canon_needAcc | with_reducible apply canon_needM | with_reducible apply canon_State_startM | with_reducible apply canon_State_retire
      | with_reducible apply canon_State_setAcc | with_reducible apply canon_needRead | with_reducible apply canon_needDesc | with_reducible apply canon_needSize
      | with_reducible apply canon_State_setCur | intro _ | dsimp only | split
theorem canon_execMst (acc : Fin 4) (x1 : TileSel) (row0 : BitVec 7) (col0 : BitVec 7) (clr : Bool) (sat : Bool) (rnd : Rnd) (s : State) (h0 : Canon s) : CanonOut (execMst acc x1 row0 col0 clr sat rnd s) := by
  unfold execMst
  repeat' first
      | with_reducible assumption | with_reducible apply CanonRes.check | with_reducible apply CanonRes.bind0 | with_reducible apply CanonRes.pure
      | with_reducible apply canon_unguarded | with_reducible apply canon_resolve | with_reducible apply canon_needLocal | with_reducible apply canon_needAcc
      | with_reducible apply canon_needWrite | with_reducible apply canon_needDesc | with_reducible apply canon_needSize | with_reducible apply canon_needNoHold
      | with_reducible apply canon_needM | with_reducible apply canon_State_startM | with_reducible apply canon_State_setCur
      | with_reducible apply canon_State_setAcc | intro _

-- Scalar

theorem canon_intOp2 (w : Width) (a : Scalar) (b : Scalar) (g : Guard) (s : State) (f : Nat → Int → Nat → Int → Int) (h0 : Canon s) : CanonOut (intOp2 w a b g s f) := by
  unfold intOp2
  repeat' first
      | with_reducible assumption | with_reducible apply CanonRes.bind0 | with_reducible apply CanonRes.pure | with_reducible apply canon_guarded
      | with_reducible apply canon_operand | with_reducible apply canon_State_result | intro _
theorem canon_intOp1 (w : Width) (a : Scalar) (g : Guard) (s : State) (f : Nat → W64) (h0 : Canon s) : CanonOut (intOp1 w a g s f) := by
  unfold intOp1
  repeat' first
      | with_reducible assumption | with_reducible apply CanonRes.bind0 | with_reducible apply CanonRes.pure | with_reducible apply canon_guarded
      | with_reducible apply canon_operand | with_reducible apply canon_State_result | intro _
theorem canon_immOp (a : Scalar) (s : State) (f : W64 → W64) (h0 : Canon s) : CanonOut (immOp a s f) := by
  unfold immOp
  repeat' first
      | with_reducible assumption | with_reducible apply CanonRes.bind0 | with_reducible apply CanonRes.pure | with_reducible apply canon_unguarded
      | with_reducible apply canon_operand | with_reducible apply canon_State_result | intro _
theorem canon_fpOp2 (a : Scalar) (b : Scalar) (g : Guard) (s : State) (f : Val → Val → Val) (h0 : Canon s) : CanonOut (fpOp2 a b g s f) := by
  unfold fpOp2
  repeat' first
      | with_reducible assumption | with_reducible apply CanonRes.bind0 | with_reducible apply CanonRes.pure | with_reducible apply canon_guarded
      | with_reducible apply canon_operand | with_reducible apply canon_State_result | intro _
theorem canon_fpOp1 (a : Scalar) (g : Guard) (s : State) (f : Val → Val) (h0 : Canon s) : CanonOut (fpOp1 a g s f) := by
  unfold fpOp1
  repeat' first
      | with_reducible assumption | with_reducible apply CanonRes.bind0 | with_reducible apply CanonRes.pure | with_reducible apply canon_guarded
      | with_reducible apply canon_operand | with_reducible apply canon_State_result | intro _
theorem canon_State_resultTo (s : State) (n : Nat) (dst : Option (Fin 16)) (v : W64) (p : Bool) (h0 : Canon s) : Canon (s.resultTo n dst v p) := by
  unfold State.resultTo
  repeat' first | with_reducible assumption | with_reducible apply canon_State_setCur
theorem canon_State_oneDraw (s : State) (rnd : Rnd) (h0 : Canon s) : Canon (s.oneDraw rnd).2 := by
  unfold State.oneDraw
  repeat' first | with_reducible assumption | with_reducible apply canon_State_setCur | dsimp only | split
theorem canon_execAdd (w : Width) (a : Scalar) (b : Scalar) (g : Guard) (s : State) (h0 : Canon s) : CanonOut (execAdd w a b g s) := by
  unfold execAdd
  repeat' first | with_reducible assumption | with_reducible apply canon_intOp2
theorem canon_execSub (w : Width) (a : Scalar) (b : Scalar) (g : Guard) (s : State) (h0 : Canon s) : CanonOut (execSub w a b g s) := by
  unfold execSub
  repeat' first | with_reducible assumption | with_reducible apply canon_intOp2
theorem canon_execMul (w : Width) (a : Scalar) (b : Scalar) (g : Guard) (s : State) (h0 : Canon s) : CanonOut (execMul w a b g s) := by
  unfold execMul
  repeat' first | with_reducible assumption | with_reducible apply canon_intOp2
theorem canon_execMulh (w : Width) (a : Scalar) (b : Scalar) (g : Guard) (s : State) (h0 : Canon s) : CanonOut (execMulh w a b g s) := by
  unfold execMulh
  repeat' first | with_reducible assumption | with_reducible apply canon_intOp2
theorem canon_execMulhu (w : Width) (a : Scalar) (b : Scalar) (g : Guard) (s : State) (h0 : Canon s) : CanonOut (execMulhu w a b g s) := by
  unfold execMulhu
  repeat' first | with_reducible assumption | with_reducible apply canon_intOp2
theorem canon_execDiv (w : Width) (a : Scalar) (b : Scalar) (g : Guard) (s : State) (h0 : Canon s) : CanonOut (execDiv w a b g s) := by
  unfold execDiv
  repeat' first | with_reducible assumption | with_reducible apply canon_intOp2
theorem canon_execDivu (w : Width) (a : Scalar) (b : Scalar) (g : Guard) (s : State) (h0 : Canon s) : CanonOut (execDivu w a b g s) := by
  unfold execDivu
  repeat' first | with_reducible assumption | with_reducible apply canon_intOp2
theorem canon_execRem (w : Width) (a : Scalar) (b : Scalar) (g : Guard) (s : State) (h0 : Canon s) : CanonOut (execRem w a b g s) := by
  unfold execRem
  repeat' first | with_reducible assumption | with_reducible apply canon_intOp2
theorem canon_execRemu (w : Width) (a : Scalar) (b : Scalar) (g : Guard) (s : State) (h0 : Canon s) : CanonOut (execRemu w a b g s) := by
  unfold execRemu
  repeat' first | with_reducible assumption | with_reducible apply canon_intOp2
theorem canon_execAnd (w : Width) (a : Scalar) (b : Scalar) (g : Guard) (s : State) (h0 : Canon s) : CanonOut (execAnd w a b g s) := by
  unfold execAnd
  repeat' first | with_reducible assumption | with_reducible apply canon_intOp2
theorem canon_execOr (w : Width) (a : Scalar) (b : Scalar) (g : Guard) (s : State) (h0 : Canon s) : CanonOut (execOr w a b g s) := by
  unfold execOr
  repeat' first | with_reducible assumption | with_reducible apply canon_intOp2
theorem canon_execXor (w : Width) (a : Scalar) (b : Scalar) (g : Guard) (s : State) (h0 : Canon s) : CanonOut (execXor w a b g s) := by
  unfold execXor
  repeat' first | with_reducible assumption | with_reducible apply canon_intOp2
theorem canon_execAndn (w : Width) (a : Scalar) (b : Scalar) (g : Guard) (s : State) (h0 : Canon s) : CanonOut (execAndn w a b g s) := by
  unfold execAndn
  repeat' first | with_reducible assumption | with_reducible apply canon_intOp2
theorem canon_execOrn (w : Width) (a : Scalar) (b : Scalar) (g : Guard) (s : State) (h0 : Canon s) : CanonOut (execOrn w a b g s) := by
  unfold execOrn
  repeat' first | with_reducible assumption | with_reducible apply canon_intOp2
theorem canon_execShl (w : Width) (a : Scalar) (b : Scalar) (g : Guard) (s : State) (h0 : Canon s) : CanonOut (execShl w a b g s) := by
  unfold execShl
  repeat' first | with_reducible assumption | with_reducible apply canon_intOp2
theorem canon_execShr (w : Width) (a : Scalar) (b : Scalar) (g : Guard) (s : State) (h0 : Canon s) : CanonOut (execShr w a b g s) := by
  unfold execShr
  repeat' first | with_reducible assumption | with_reducible apply canon_intOp2
theorem canon_execSar (w : Width) (a : Scalar) (b : Scalar) (g : Guard) (s : State) (h0 : Canon s) : CanonOut (execSar w a b g s) := by
  unfold execSar
  repeat' first | with_reducible assumption | with_reducible apply canon_intOp2
theorem canon_execRol (w : Width) (a : Scalar) (b : Scalar) (g : Guard) (s : State) (h0 : Canon s) : CanonOut (execRol w a b g s) := by
  unfold execRol
  repeat' first | with_reducible assumption | with_reducible apply canon_intOp2
theorem canon_execMin (w : Width) (a : Scalar) (b : Scalar) (g : Guard) (s : State) (h0 : Canon s) : CanonOut (execMin w a b g s) := by
  unfold execMin
  repeat' first | with_reducible assumption | with_reducible apply canon_intOp2
theorem canon_execMax (w : Width) (a : Scalar) (b : Scalar) (g : Guard) (s : State) (h0 : Canon s) : CanonOut (execMax w a b g s) := by
  unfold execMax
  repeat' first | with_reducible assumption | with_reducible apply canon_intOp2
theorem canon_execMinu (w : Width) (a : Scalar) (b : Scalar) (g : Guard) (s : State) (h0 : Canon s) : CanonOut (execMinu w a b g s) := by
  unfold execMinu
  repeat' first | with_reducible assumption | with_reducible apply canon_intOp2
theorem canon_execMaxu (w : Width) (a : Scalar) (b : Scalar) (g : Guard) (s : State) (h0 : Canon s) : CanonOut (execMaxu w a b g s) := by
  unfold execMaxu
  repeat' first | with_reducible assumption | with_reducible apply canon_intOp2
theorem canon_execClz (w : Width) (a : Scalar) (g : Guard) (s : State) (h0 : Canon s) : CanonOut (execClz w a g s) := by
  unfold execClz
  repeat' first | with_reducible assumption | with_reducible apply canon_intOp1
theorem canon_execCtz (w : Width) (a : Scalar) (g : Guard) (s : State) (h0 : Canon s) : CanonOut (execCtz w a g s) := by
  unfold execCtz
  repeat' first | with_reducible assumption | with_reducible apply canon_intOp1
theorem canon_execPopc (w : Width) (a : Scalar) (g : Guard) (s : State) (h0 : Canon s) : CanonOut (execPopc w a g s) := by
  unfold execPopc
  repeat' first | with_reducible assumption | with_reducible apply canon_intOp1
theorem canon_execSext (w : Width) (a : Scalar) (g : Guard) (s : State) (h0 : Canon s) : CanonOut (execSext w a g s) := by
  unfold execSext
  repeat' first | with_reducible assumption | with_reducible apply canon_intOp1
theorem canon_execZext (w : Width) (a : Scalar) (g : Guard) (s : State) (h0 : Canon s) : CanonOut (execZext w a g s) := by
  unfold execZext
  repeat' first | with_reducible assumption | with_reducible apply canon_intOp1
theorem canon_execBswap (w : Width) (a : Scalar) (g : Guard) (s : State) (h0 : Canon s) : CanonOut (execBswap w a g s) := by
  unfold execBswap
  repeat' first | with_reducible assumption | with_reducible apply canon_intOp1
theorem canon_execAddi (a : Scalar) (imm : BitVec 12) (s : State) (h0 : Canon s) : CanonOut (execAddi a imm s) := by
  unfold execAddi
  repeat' first | with_reducible assumption | with_reducible apply canon_immOp
theorem canon_execAndi (a : Scalar) (imm : BitVec 12) (s : State) (h0 : Canon s) : CanonOut (execAndi a imm s) := by
  unfold execAndi
  repeat' first | with_reducible assumption | with_reducible apply canon_immOp
theorem canon_execOri (a : Scalar) (imm : BitVec 12) (s : State) (h0 : Canon s) : CanonOut (execOri a imm s) := by
  unfold execOri
  repeat' first | with_reducible assumption | with_reducible apply canon_immOp
theorem canon_execXori (a : Scalar) (imm : BitVec 12) (s : State) (h0 : Canon s) : CanonOut (execXori a imm s) := by
  unfold execXori
  repeat' first | with_reducible assumption | with_reducible apply canon_immOp
theorem canon_execShli (a : Scalar) (imm : BitVec 6) (s : State) (h0 : Canon s) : CanonOut (execShli a imm s) := by
  unfold execShli
  repeat' first | with_reducible assumption | with_reducible apply canon_immOp
theorem canon_execShri (a : Scalar) (imm : BitVec 6) (s : State) (h0 : Canon s) : CanonOut (execShri a imm s) := by
  unfold execShri
  repeat' first | with_reducible assumption | with_reducible apply canon_immOp
theorem canon_execSari (a : Scalar) (imm : BitVec 6) (s : State) (h0 : Canon s) : CanonOut (execSari a imm s) := by
  unfold execSari
  repeat' first | with_reducible assumption | with_reducible apply canon_immOp
theorem canon_execLi (imm : BitVec 12) (s : State) (h0 : Canon s) : CanonOut (execLi imm s) := by
  unfold execLi
  repeat' first
      | with_reducible assumption | with_reducible apply CanonRes.pure | with_reducible apply canon_unguarded | with_reducible apply canon_State_result
theorem canon_execLit (v : W64) (s : State) (h0 : Canon s) : CanonOut (execLit v s) := by
  unfold execLit
  repeat' first
      | with_reducible assumption | with_reducible apply CanonRes.pure | with_reducible apply canon_unguarded | with_reducible apply canon_State_result
theorem canon_execKeep (d : Fin 16) (a : Scalar) (s : State) (h0 : Canon s) : CanonOut (execKeep d a s) := by
  unfold execKeep
  repeat' first
      | with_reducible assumption | with_reducible apply CanonRes.bind0 | with_reducible apply CanonRes.pure | with_reducible apply canon_unguarded
      | with_reducible apply canon_operand | with_reducible apply canon_State_setCur | intro _
theorem canon_execDup (a : Scalar) (g : Guard) (s : State) (h0 : Canon s) : CanonOut (execDup a g s) := by
  unfold execDup
  repeat' first
      | with_reducible assumption | with_reducible apply CanonRes.bind0 | with_reducible apply CanonRes.pure | with_reducible apply canon_guarded
      | with_reducible apply canon_operand | with_reducible apply canon_State_result | intro _
theorem canon_execLea (w : Width) (a : Scalar) (b : Scalar) (g : Guard) (s : State) (h0 : Canon s) : CanonOut (execLea w a b g s) := by
  unfold execLea
  repeat' first
      | with_reducible assumption | with_reducible apply CanonRes.bind0 | with_reducible apply CanonRes.pure | with_reducible apply canon_guarded
      | with_reducible apply canon_operand | with_reducible apply canon_State_result | intro _
theorem canon_execFadd (a : Scalar) (b : Scalar) (g : Guard) (s : State) (h0 : Canon s) : CanonOut (execFadd a b g s) := by
  unfold execFadd
  repeat' first | with_reducible assumption | with_reducible apply canon_fpOp2
theorem canon_execFsub (a : Scalar) (b : Scalar) (g : Guard) (s : State) (h0 : Canon s) : CanonOut (execFsub a b g s) := by
  unfold execFsub
  repeat' first | with_reducible assumption | with_reducible apply canon_fpOp2
theorem canon_execFmul (a : Scalar) (b : Scalar) (g : Guard) (s : State) (h0 : Canon s) : CanonOut (execFmul a b g s) := by
  unfold execFmul
  repeat' first | with_reducible assumption | with_reducible apply canon_fpOp2
theorem canon_execFdiv (a : Scalar) (b : Scalar) (g : Guard) (s : State) (h0 : Canon s) : CanonOut (execFdiv a b g s) := by
  unfold execFdiv
  repeat' first | with_reducible assumption | with_reducible apply canon_fpOp2
theorem canon_execFmin (a : Scalar) (b : Scalar) (g : Guard) (s : State) (h0 : Canon s) : CanonOut (execFmin a b g s) := by
  unfold execFmin
  repeat' first | with_reducible assumption | with_reducible apply canon_fpOp2
theorem canon_execFmax (a : Scalar) (b : Scalar) (g : Guard) (s : State) (h0 : Canon s) : CanonOut (execFmax a b g s) := by
  unfold execFmax
  repeat' first | with_reducible assumption | with_reducible apply canon_fpOp2
theorem canon_execFabs (a : Scalar) (g : Guard) (s : State) (h0 : Canon s) : CanonOut (execFabs a g s) := by
  unfold execFabs
  repeat' first | with_reducible assumption | with_reducible apply canon_fpOp1
theorem canon_execFsqrt (a : Scalar) (g : Guard) (s : State) (h0 : Canon s) : CanonOut (execFsqrt a g s) := by
  unfold execFsqrt
  repeat' first | with_reducible assumption | with_reducible apply canon_fpOp1
theorem canon_execFfma (a : Scalar) (b : Scalar) (c : Scalar) (dst : Option (Fin 16)) (rnd : Rnd) (sat : Bool) (g : Guard) (s : State) (h0 : Canon s) : CanonOut (execFfma a b c dst rnd sat g s) := by
  unfold execFfma
  repeat' first
      | with_reducible assumption | with_reducible apply CanonRes.bind0 | with_reducible apply CanonRes.pure | with_reducible apply canon_guarded
      | with_reducible apply canon_operand | with_reducible apply canon_State_resultTo | with_reducible apply canon_State_oneDraw | intro _
theorem canon_execFcvt (kind : CvtKind) (w : Width) (a : Scalar) (dst : Option (Fin 16)) (rnd : Rnd) (sat : Bool) (g : Guard) (s : State) (h0 : Canon s) : CanonOut (execFcvt kind w a dst rnd sat g s) := by
  unfold execFcvt
  repeat' first
      | with_reducible assumption | with_reducible apply CanonRes.bind0 | with_reducible apply CanonRes.pure | with_reducible apply canon_guarded
      | with_reducible apply canon_operand | with_reducible apply canon_State_resultTo | with_reducible apply canon_State_oneDraw | intro _
theorem canon_execPset (cond : Cond) (w : Width) (a : Scalar) (b : Scalar) (dp : Fin 8) (g : Guard) (s : State) (h0 : Canon s) : CanonOut (execPset cond w a b dp g s) := by
  unfold execPset
  repeat' first
      | with_reducible assumption | with_reducible apply CanonRes.bind0 | with_reducible apply CanonRes.pure | with_reducible apply canon_guarded
      | with_reducible apply canon_operand | with_reducible apply canon_State_setCur | intro _
theorem canon_execPsetf (cond : Cond) (a : Scalar) (b : Scalar) (dp : Fin 8) (g : Guard) (s : State) (h0 : Canon s) : CanonOut (execPsetf cond a b dp g s) := by
  unfold execPsetf
  repeat' first
      | with_reducible assumption | with_reducible apply CanonRes.bind0 | with_reducible apply CanonRes.pure | with_reducible apply canon_guarded
      | with_reducible apply canon_operand | with_reducible apply canon_State_setCur | intro _
theorem canon_predOp (d : Fin 8) (a : Fin 8) (b : Fin 8) (s : State) (f : Bool → Bool → Bool) (h0 : Canon s) : CanonOut (predOp d a b s f) := by
  unfold predOp
  repeat' first
      | with_reducible assumption | with_reducible apply CanonRes.pure | with_reducible apply canon_unguarded | with_reducible apply canon_State_setCur
theorem canon_execPand (d : Fin 8) (a : Fin 8) (b : Fin 8) (s : State) (h0 : Canon s) : CanonOut (execPand d a b s) := by
  unfold execPand
  repeat' first | with_reducible assumption | with_reducible apply canon_predOp
theorem canon_execPor (d : Fin 8) (a : Fin 8) (b : Fin 8) (s : State) (h0 : Canon s) : CanonOut (execPor d a b s) := by
  unfold execPor
  repeat' first | with_reducible assumption | with_reducible apply canon_predOp
theorem canon_execPxor (d : Fin 8) (a : Fin 8) (b : Fin 8) (s : State) (h0 : Canon s) : CanonOut (execPxor d a b s) := by
  unfold execPxor
  repeat' first | with_reducible assumption | with_reducible apply canon_predOp
theorem canon_execPnot (d : Fin 8) (a : Fin 8) (s : State) (h0 : Canon s) : CanonOut (execPnot d a s) := by
  unfold execPnot
  repeat' first | with_reducible assumption | with_reducible apply canon_predOp
theorem canon_execSel (a : Scalar) (b : Scalar) (g : Guard) (s : State) (h0 : Canon s) : CanonOut (execSel a b g s) := by
  unfold execSel
  repeat' first
      | with_reducible assumption | with_reducible apply CanonRes.bind0 | with_reducible apply CanonRes.pure | with_reducible apply canon_guarded
      | with_reducible apply canon_operand | with_reducible apply canon_State_result | intro _
theorem canon_execBr (p : Fin 8) (off : BitVec 18) (s : State) (h0 : Canon s) : CanonOut (execBr p off s) := by
  unfold execBr
  repeat' first
      | with_reducible assumption | with_reducible apply CanonRes.pure | with_reducible apply canon_guarded | with_reducible apply canon_State_setCur
theorem canon_execBp (p : Fin 8) (off : BitVec 18) (s : State) (h0 : Canon s) : CanonOut (execBp p off s) := by
  unfold execBp
  repeat' first
      | with_reducible assumption | with_reducible apply CanonRes.pure | with_reducible apply canon_guarded | with_reducible apply canon_State_setCur
theorem canon_execCall (p : Fin 8) (off : BitVec 18) (s : State) (h0 : Canon s) : CanonOut (execCall p off s) := by
  unfold execCall
  repeat' first
      | with_reducible assumption | with_reducible apply CanonRes.check | with_reducible apply CanonRes.bind0 | with_reducible apply CanonRes.pure
      | with_reducible apply canon_guarded | with_reducible apply canon_State_setCur | intro _
theorem canon_execRet (p : Fin 8) (s : State) (h0 : Canon s) : CanonOut (execRet p s) := by
  unfold execRet
  repeat' first
      | with_reducible assumption | with_reducible apply CanonRes.check | with_reducible apply CanonRes.bind0 | with_reducible apply CanonRes.pure
      | with_reducible apply canon_guarded | with_reducible apply canon_State_setCur | intro _
theorem canon_execLoop (p : Fin 8) (off : BitVec 18) (s : State) (h0 : Canon s) : CanonOut (execLoop p off s) := by
  unfold execLoop
  repeat' first
      | with_reducible assumption | with_reducible apply CanonRes.ite | with_reducible apply CanonRes.pure | with_reducible apply canon_guarded
      | with_reducible apply canon_State_setCur | intro _
theorem canon_execJmpx (a : Scalar) (g : Guard) (s : State) (h0 : Canon s) : CanonOut (execJmpx a g s) := by
  unfold execJmpx
  repeat' first
      | with_reducible assumption | with_reducible apply CanonRes.check | with_reducible apply CanonRes.bind0 | with_reducible apply CanonRes.pure
      | with_reducible apply canon_guarded | with_reducible apply canon_cleanOperand | with_reducible apply canon_State_setCur | intro _
theorem canon_spOffset (s : State) (w : Width) (o : W64) (p : Bool) (h0 : Canon s) : CanonRes (fun _ => True) (spOffset s w o p) := by
  unfold spOffset
  repeat' first | exact trivial | with_reducible apply CanonRes.check | with_reducible apply CanonRes.bind0 | intro _
theorem canon_loadFrom (s : State) (w : Width) (n : Nat) (o : Nat) (sx : Bool) (dst : Option (Fin 16)) (h0 : Canon s) : Canon (loadFrom s w n o sx dst) := by
  unfold loadFrom
  repeat' first | with_reducible assumption | with_reducible apply canon_State_setCur | with_reducible apply canon_State_resultTo
theorem canon_storeTo (s : State) (w : Width) (n : Nat) (o : Nat) (v : W64) (p : Bool) (h0 : Canon s) : Canon (storeTo s w n o v p) := by
  unfold storeTo
  repeat' first
      | with_reducible assumption | with_reducible apply Canon.ite | with_reducible apply canon_State_setCur | with_reducible apply canon_State_spoisWrite
      | with_reducible apply canon_State_put | intro _
theorem canon_execLd (w : Width) (a : Scalar) (g : Guard) (s : State) (h0 : Canon s) : CanonOut (execLd w a g s) := by
  unfold execLd
  repeat' first
      | with_reducible assumption | with_reducible apply CanonRes.bind0 | with_reducible apply CanonRes.pure | with_reducible apply canon_guarded
      | with_reducible apply canon_operand | with_reducible apply canon_spOffset | with_reducible apply canon_loadFrom | intro _
theorem canon_execSt (w : Width) (a : Scalar) (b : Scalar) (g : Guard) (s : State) (h0 : Canon s) : CanonOut (execSt w a b g s) := by
  unfold execSt
  repeat' first
      | with_reducible assumption | with_reducible apply CanonRes.bind0 | with_reducible apply CanonRes.pure | with_reducible apply canon_guarded
      | with_reducible apply canon_operand | with_reducible apply canon_spOffset | with_reducible apply canon_storeTo | intro _
theorem canon_execLdx (w : Width) (a : Scalar) (b : Scalar) (disp : W32) (sx : Bool) (dst : Option (Fin 16)) (g : Guard) (s : State) (h0 : Canon s) : CanonOut (execLdx w a b disp sx dst g s) := by
  unfold execLdx
  repeat' first
      | with_reducible assumption | with_reducible apply CanonRes.bind0 | with_reducible apply CanonRes.pure | with_reducible apply canon_guarded
      | with_reducible apply canon_operand | with_reducible apply canon_spOffset | with_reducible apply canon_loadFrom | intro _
theorem canon_execStx (w : Width) (a : Scalar) (b : Scalar) (c : Scalar) (disp : W32) (g : Guard) (s : State) (h0 : Canon s) : CanonOut (execStx w a b c disp g s) := by
  unfold execStx
  repeat' first
      | with_reducible assumption | with_reducible apply CanonRes.bind0 | with_reducible apply CanonRes.pure | with_reducible apply canon_guarded
      | with_reducible apply canon_operand | with_reducible apply canon_spOffset | with_reducible apply canon_storeTo | intro _
theorem canon_pushRead (s : State) (v : Option W64) (h0 : Canon s) : CanonRes (fun x => Canon x) (pushRead s v) := by
  unfold pushRead
  repeat' first
      | with_reducible assumption | exact trivial | with_reducible apply CanonRes.pure | with_reducible apply canon_State_retire
      | with_reducible apply canon_State_pushOutside | split
theorem canon_execSysrd (a : Scalar) (g : Guard) (s : State) (h0 : Canon s) : CanonOut (execSysrd a g s) := by
  unfold execSysrd
  repeat' first
      | with_reducible assumption | with_reducible apply CanonRes.bind0 | with_reducible apply canon_guarded | with_reducible apply canon_cleanOperand
      | with_reducible apply canon_pushRead | intro _
theorem canon_execSyswr (a : Scalar) (b : Scalar) (g : Guard) (s : State) (h0 : Canon s) : CanonOut (execSyswr a b g s) := by
  unfold execSyswr
  repeat' first
      | with_reducible assumption | with_reducible apply CanonRes.check | with_reducible apply CanonRes.bind0 | with_reducible apply CanonRes.pure
      | with_reducible apply canon_guarded | with_reducible apply canon_cleanOperand | with_reducible apply canon_State_setCur | intro _
theorem canon_execCtrd (a : Scalar) (g : Guard) (s : State) (h0 : Canon s) : CanonOut (execCtrd a g s) := by
  unfold execCtrd
  repeat' first
      | with_reducible assumption | with_reducible apply CanonRes.bind0 | with_reducible apply canon_guarded | with_reducible apply canon_cleanOperand
      | with_reducible apply canon_pushRead | intro _
theorem canon_execNop (s : State) (h0 : Canon s) : CanonOut (execNop s) := by
  unfold execNop
  repeat' first
      | with_reducible assumption | with_reducible apply CanonRes.pure | with_reducible apply canon_unguarded | with_reducible apply canon_State_retire
theorem canon_execBrk (imm : BitVec 12) (s : State) (h0 : Canon s) : CanonOut (execBrk imm s) := by
  unfold execBrk
  repeat' first
      | with_reducible assumption | with_reducible apply CanonRes.pure | with_reducible apply canon_unguarded | with_reducible apply canon_State_setCur
theorem canon_execTrap (imm : BitVec 6) (s : State) (h0 : Canon s) : CanonOut (execTrap imm s) := by
  unfold execTrap
  repeat' first | with_reducible assumption | exact trivial | with_reducible apply canon_unguarded
theorem canon_State_moveRow (s : State) (src : Nat) (dst : Nat) (h0 : Canon s) : Canon (s.moveRow src dst) := by
  unfold State.moveRow
  repeat' first | with_reducible assumption | with_reducible apply canon_State_spoisClear | with_reducible apply canon_State_put
theorem canon_State_setRepair (s : State) (c : Nat) (i : Nat) (v : W32) (h0 : Canon s) : Canon (s.setRepair c i v) := by
  unfold State.setRepair
  repeat' first
      | with_reducible assumption | with_reducible apply Canon.foldl | with_reducible apply canon_State_modCell | with_reducible apply canon_State_moveRow
      | intro _
theorem canon_execRpwr (a : Scalar) (b : Scalar) (g : Guard) (s : State) (h0 : Canon s) : CanonOut (execRpwr a b g s) := by
  unfold execRpwr
  repeat' first
      | with_reducible assumption | with_reducible apply CanonRes.check | with_reducible apply CanonRes.bind0 | with_reducible apply CanonRes.pure
      | with_reducible apply canon_bootOnly | with_reducible apply canon_guarded | with_reducible apply canon_cleanOperand | with_reducible apply canon_State_retire
      | with_reducible apply canon_State_setRepair | intro _
theorem canon_execRprd (a : Scalar) (g : Guard) (s : State) (h0 : Canon s) : CanonOut (execRprd a g s) := by
  unfold execRprd
  repeat' first
      | with_reducible assumption | with_reducible apply CanonRes.check | with_reducible apply CanonRes.bind0 | with_reducible apply CanonRes.pure
      | with_reducible apply canon_bootOnly | with_reducible apply canon_guarded | with_reducible apply canon_cleanOperand | with_reducible apply canon_State_result
      | intro _

-- Vector

theorem canon_vecOp (s : State) (w : Bool) (h : Option Nat) (h0 : Canon s) : CanonRes (fun _ => True) (vecOp s w h) := by
  unfold vecOp
  repeat' first
      | with_reducible assumption | exact trivial | with_reducible apply CanonRes.ite | with_reducible apply CanonRes.bind0 | with_reducible apply canon_needWrite
      | with_reducible apply canon_needRead | intro _ | dsimp only | split
theorem canon_vecField (s : State) (has : Bool) (w : Bool) (t : TileSel) (h0 : Canon s) : CanonRes (fun _ => True) (vecField s has w t) := by
  unfold vecField
  repeat' first | exact trivial | with_reducible apply CanonRes.ite | with_reducible apply CanonRes.map | with_reducible apply canon_resolve | intro _
theorem canon_vector (f : VForm) (d : TileSel) (a : TileSel) (b : TileSel) (e : VExt) (s : State) (h0 : Canon s) : CanonRes (fun x => Canon x) (vector f d a b e s) := by
  unfold vector
  repeat' first
      | with_reducible assumption | exact trivial | with_reducible apply CanonRes.ite | with_reducible apply CanonRes.check | with_reducible apply CanonRes.bind0
      | with_reducible apply CanonRes.pure | with_reducible apply canon_vecField | with_reducible apply canon_needLocal | with_reducible apply canon_vecOp
      | with_reducible apply canon_needOpSize | with_reducible apply canon_needNoHold | with_reducible apply canon_needV | with_reducible apply canon_State_startV
      | with_reducible apply canon_State_setCur | with_reducible apply canon_operand | intro _
theorem canon_execVadd (d : TileSel) (a : TileSel) (b : TileSel) (e : VExt) (s : State) (h0 : Canon s) : CanonOut (execVadd d a b e s) := by
  unfold execVadd
  repeat' first | with_reducible assumption | with_reducible apply canon_unguarded | with_reducible apply canon_vector
theorem canon_execVsub (d : TileSel) (a : TileSel) (b : TileSel) (e : VExt) (s : State) (h0 : Canon s) : CanonOut (execVsub d a b e s) := by
  unfold execVsub
  repeat' first | with_reducible assumption | with_reducible apply canon_unguarded | with_reducible apply canon_vector
theorem canon_execVmul (d : TileSel) (a : TileSel) (b : TileSel) (e : VExt) (s : State) (h0 : Canon s) : CanonOut (execVmul d a b e s) := by
  unfold execVmul
  repeat' first | with_reducible assumption | with_reducible apply canon_unguarded | with_reducible apply canon_vector
theorem canon_execVdiv (d : TileSel) (a : TileSel) (b : TileSel) (e : VExt) (s : State) (h0 : Canon s) : CanonOut (execVdiv d a b e s) := by
  unfold execVdiv
  repeat' first | with_reducible assumption | with_reducible apply canon_unguarded | with_reducible apply canon_vector
theorem canon_execVmin (d : TileSel) (a : TileSel) (b : TileSel) (e : VExt) (s : State) (h0 : Canon s) : CanonOut (execVmin d a b e s) := by
  unfold execVmin
  repeat' first | with_reducible assumption | with_reducible apply canon_unguarded | with_reducible apply canon_vector
theorem canon_execVmax (d : TileSel) (a : TileSel) (b : TileSel) (e : VExt) (s : State) (h0 : Canon s) : CanonOut (execVmax d a b e s) := by
  unfold execVmax
  repeat' first | with_reducible assumption | with_reducible apply canon_unguarded | with_reducible apply canon_vector
theorem canon_execVfma (d : TileSel) (a : TileSel) (b : TileSel) (e : VExt) (s : State) (h0 : Canon s) : CanonOut (execVfma d a b e s) := by
  unfold execVfma
  repeat' first | with_reducible assumption | with_reducible apply canon_unguarded | with_reducible apply canon_vector
theorem canon_execVabs (d : TileSel) (a : TileSel) (e : VExt) (s : State) (h0 : Canon s) : CanonOut (execVabs d a e s) := by
  unfold execVabs
  repeat' first | with_reducible assumption | with_reducible apply canon_unguarded | with_reducible apply canon_vector
theorem canon_execVneg (d : TileSel) (a : TileSel) (e : VExt) (s : State) (h0 : Canon s) : CanonOut (execVneg d a e s) := by
  unfold execVneg
  repeat' first | with_reducible assumption | with_reducible apply canon_unguarded | with_reducible apply canon_vector
theorem canon_execVexp (d : TileSel) (a : TileSel) (e : VExt) (s : State) (h0 : Canon s) : CanonOut (execVexp d a e s) := by
  unfold execVexp
  repeat' first | with_reducible assumption | with_reducible apply canon_unguarded | with_reducible apply canon_vector
theorem canon_execVexp2 (d : TileSel) (a : TileSel) (e : VExt) (s : State) (h0 : Canon s) : CanonOut (execVexp2 d a e s) := by
  unfold execVexp2
  repeat' first | with_reducible assumption | with_reducible apply canon_unguarded | with_reducible apply canon_vector
theorem canon_execVlog (d : TileSel) (a : TileSel) (e : VExt) (s : State) (h0 : Canon s) : CanonOut (execVlog d a e s) := by
  unfold execVlog
  repeat' first | with_reducible assumption | with_reducible apply canon_unguarded | with_reducible apply canon_vector
theorem canon_execVrcp (d : TileSel) (a : TileSel) (e : VExt) (s : State) (h0 : Canon s) : CanonOut (execVrcp d a e s) := by
  unfold execVrcp
  repeat' first | with_reducible assumption | with_reducible apply canon_unguarded | with_reducible apply canon_vector
theorem canon_execVrsqrt (d : TileSel) (a : TileSel) (e : VExt) (s : State) (h0 : Canon s) : CanonOut (execVrsqrt d a e s) := by
  unfold execVrsqrt
  repeat' first | with_reducible assumption | with_reducible apply canon_unguarded | with_reducible apply canon_vector
theorem canon_execVsqrt (d : TileSel) (a : TileSel) (e : VExt) (s : State) (h0 : Canon s) : CanonOut (execVsqrt d a e s) := by
  unfold execVsqrt
  repeat' first | with_reducible assumption | with_reducible apply canon_unguarded | with_reducible apply canon_vector
theorem canon_execVtanh (d : TileSel) (a : TileSel) (e : VExt) (s : State) (h0 : Canon s) : CanonOut (execVtanh d a e s) := by
  unfold execVtanh
  repeat' first | with_reducible assumption | with_reducible apply canon_unguarded | with_reducible apply canon_vector
theorem canon_execVsigm (d : TileSel) (a : TileSel) (e : VExt) (s : State) (h0 : Canon s) : CanonOut (execVsigm d a e s) := by
  unfold execVsigm
  repeat' first | with_reducible assumption | with_reducible apply canon_unguarded | with_reducible apply canon_vector
theorem canon_execVerf (d : TileSel) (a : TileSel) (e : VExt) (s : State) (h0 : Canon s) : CanonOut (execVerf d a e s) := by
  unfold execVerf
  repeat' first | with_reducible assumption | with_reducible apply canon_unguarded | with_reducible apply canon_vector
theorem canon_execVcmp (d : TileSel) (a : TileSel) (b : TileSel) (e : VExt) (s : State) (h0 : Canon s) : CanonOut (execVcmp d a b e s) := by
  unfold execVcmp
  repeat' first | with_reducible assumption | with_reducible apply canon_unguarded | with_reducible apply canon_vector
theorem canon_execVsel (d : TileSel) (a : TileSel) (b : TileSel) (e : VExt) (s : State) (h0 : Canon s) : CanonOut (execVsel d a b e s) := by
  unfold execVsel
  repeat' first | with_reducible assumption | with_reducible apply canon_unguarded | with_reducible apply canon_vector
theorem canon_execVrsum (d : TileSel) (a : TileSel) (e : VExt) (s : State) (h0 : Canon s) : CanonOut (execVrsum d a e s) := by
  unfold execVrsum
  repeat' first | with_reducible assumption | with_reducible apply canon_unguarded | with_reducible apply canon_vector
theorem canon_execVrmax (d : TileSel) (a : TileSel) (e : VExt) (s : State) (h0 : Canon s) : CanonOut (execVrmax d a e s) := by
  unfold execVrmax
  repeat' first | with_reducible assumption | with_reducible apply canon_unguarded | with_reducible apply canon_vector
theorem canon_execVrmin (d : TileSel) (a : TileSel) (e : VExt) (s : State) (h0 : Canon s) : CanonOut (execVrmin d a e s) := by
  unfold execVrmin
  repeat' first | with_reducible assumption | with_reducible apply canon_unguarded | with_reducible apply canon_vector
theorem canon_execVcsum (d : TileSel) (a : TileSel) (e : VExt) (s : State) (h0 : Canon s) : CanonOut (execVcsum d a e s) := by
  unfold execVcsum
  repeat' first | with_reducible assumption | with_reducible apply canon_unguarded | with_reducible apply canon_vector
theorem canon_execVscan (d : TileSel) (a : TileSel) (e : VExt) (s : State) (h0 : Canon s) : CanonOut (execVscan d a e s) := by
  unfold execVscan
  repeat' first | with_reducible assumption | with_reducible apply canon_unguarded | with_reducible apply canon_vector
theorem canon_execVcvt (d : TileSel) (a : TileSel) (e : VExt) (s : State) (h0 : Canon s) : CanonOut (execVcvt d a e s) := by
  unfold execVcvt
  repeat' first | with_reducible assumption | with_reducible apply canon_unguarded | with_reducible apply canon_vector
theorem canon_execVdeq (d : TileSel) (a : TileSel) (e : VExt) (s : State) (h0 : Canon s) : CanonOut (execVdeq d a e s) := by
  unfold execVdeq
  repeat' first | with_reducible assumption | with_reducible apply canon_unguarded | with_reducible apply canon_vector
theorem canon_execVscale (d : TileSel) (a : TileSel) (e : VExt) (s : State) (h0 : Canon s) : CanonOut (execVscale d a e s) := by
  unfold execVscale
  repeat' first | with_reducible assumption | with_reducible apply canon_unguarded | with_reducible apply canon_vector
theorem canon_execVquant (d : TileSel) (a : TileSel) (e : VExt) (s : State) (h0 : Canon s) : CanonOut (execVquant d a e s) := by
  unfold execVquant
  repeat' first | with_reducible assumption | with_reducible apply canon_unguarded | with_reducible apply canon_vector
theorem canon_execVtrans (d : TileSel) (a : TileSel) (e : VExt) (s : State) (h0 : Canon s) : CanonOut (execVtrans d a e s) := by
  unfold execVtrans
  repeat' first | with_reducible assumption | with_reducible apply canon_unguarded | with_reducible apply canon_vector
theorem canon_execVperm (d : TileSel) (a : TileSel) (b : TileSel) (e : VExt) (s : State) (h0 : Canon s) : CanonOut (execVperm d a b e s) := by
  unfold execVperm
  repeat' first | with_reducible assumption | with_reducible apply canon_unguarded | with_reducible apply canon_vector
theorem canon_execVgath (d : TileSel) (a : TileSel) (b : TileSel) (e : VExt) (s : State) (h0 : Canon s) : CanonOut (execVgath d a b e s) := by
  unfold execVgath
  repeat' first | with_reducible assumption | with_reducible apply canon_unguarded | with_reducible apply canon_vector
theorem canon_execVbcast (d : TileSel) (a : TileSel) (e : VExt) (s : State) (h0 : Canon s) : CanonOut (execVbcast d a e s) := by
  unfold execVbcast
  repeat' first | with_reducible assumption | with_reducible apply canon_unguarded | with_reducible apply canon_vector
theorem canon_execVpack (d : TileSel) (a : TileSel) (b : TileSel) (e : VExt) (s : State) (h0 : Canon s) : CanonOut (execVpack d a b e s) := by
  unfold execVpack
  repeat' first | with_reducible assumption | with_reducible apply canon_unguarded | with_reducible apply canon_vector
theorem canon_execVunpk (d : TileSel) (a : TileSel) (e : VExt) (s : State) (h0 : Canon s) : CanonOut (execVunpk d a e s) := by
  unfold execVunpk
  repeat' first | with_reducible assumption | with_reducible apply canon_unguarded | with_reducible apply canon_vector
theorem canon_execViadd (d : TileSel) (a : TileSel) (b : TileSel) (e : VExt) (s : State) (h0 : Canon s) : CanonOut (execViadd d a b e s) := by
  unfold execViadd
  repeat' first | with_reducible assumption | with_reducible apply canon_unguarded | with_reducible apply canon_vector
theorem canon_execVisub (d : TileSel) (a : TileSel) (b : TileSel) (e : VExt) (s : State) (h0 : Canon s) : CanonOut (execVisub d a b e s) := by
  unfold execVisub
  repeat' first | with_reducible assumption | with_reducible apply canon_unguarded | with_reducible apply canon_vector
theorem canon_execVimul (d : TileSel) (a : TileSel) (b : TileSel) (e : VExt) (s : State) (h0 : Canon s) : CanonOut (execVimul d a b e s) := by
  unfold execVimul
  repeat' first | with_reducible assumption | with_reducible apply canon_unguarded | with_reducible apply canon_vector
theorem canon_execVand (d : TileSel) (a : TileSel) (b : TileSel) (e : VExt) (s : State) (h0 : Canon s) : CanonOut (execVand d a b e s) := by
  unfold execVand
  repeat' first | with_reducible assumption | with_reducible apply canon_unguarded | with_reducible apply canon_vector
theorem canon_execVor (d : TileSel) (a : TileSel) (b : TileSel) (e : VExt) (s : State) (h0 : Canon s) : CanonOut (execVor d a b e s) := by
  unfold execVor
  repeat' first | with_reducible assumption | with_reducible apply canon_unguarded | with_reducible apply canon_vector
theorem canon_execVxor (d : TileSel) (a : TileSel) (b : TileSel) (e : VExt) (s : State) (h0 : Canon s) : CanonOut (execVxor d a b e s) := by
  unfold execVxor
  repeat' first | with_reducible assumption | with_reducible apply canon_unguarded | with_reducible apply canon_vector
theorem canon_execVshl (d : TileSel) (a : TileSel) (b : TileSel) (e : VExt) (s : State) (h0 : Canon s) : CanonOut (execVshl d a b e s) := by
  unfold execVshl
  repeat' first | with_reducible assumption | with_reducible apply canon_unguarded | with_reducible apply canon_vector
theorem canon_execVshr (d : TileSel) (a : TileSel) (b : TileSel) (e : VExt) (s : State) (h0 : Canon s) : CanonOut (execVshr d a b e s) := by
  unfold execVshr
  repeat' first | with_reducible assumption | with_reducible apply canon_unguarded | with_reducible apply canon_vector
theorem canon_execVsmx (d : TileSel) (a : TileSel) (e : VExt) (s : State) (h0 : Canon s) : CanonOut (execVsmx d a e s) := by
  unfold execVsmx
  repeat' first | with_reducible assumption | with_reducible apply canon_unguarded | with_reducible apply canon_vector
theorem canon_execVlut (d : TileSel) (a : TileSel) (b : TileSel) (e : VExt) (s : State) (h0 : Canon s) : CanonOut (execVlut d a b e s) := by
  unfold execVlut
  repeat' first | with_reducible assumption | with_reducible apply canon_unguarded | with_reducible apply canon_vector
theorem canon_execVfill (d : TileSel) (e : VExt) (s : State) (h0 : Canon s) : CanonOut (execVfill d e s) := by
  unfold execVfill
  repeat' first | with_reducible assumption | with_reducible apply canon_unguarded | with_reducible apply canon_vector

-- Sched

theorem canon_State_fillZone (s : State) (n : ActorName) (m : Mail) (k : Nat) (h0 : Canon s) : Canon (s.fillZone n m k) := by
  unfold State.fillZone
  repeat' first
      | with_reducible assumption | with_reducible apply Canon.ite | with_reducible apply canon_State_keep | with_reducible apply canon_State_spoisWrite
      | with_reducible apply canon_State_put | intro _ | dsimp only | split
theorem canon_State_begin_ (s : State) (n : ActorName) (m : Mail) (h0 : Canon s) : Canon (s.begin_ n m) := by
  unfold State.begin_
  repeat' first
      | with_reducible assumption | with_reducible apply Canon.ite | with_reducible apply Canon.foldl | with_reducible apply canon_State_fillZone
      | with_reducible apply canon_State_sample | with_reducible apply canon_State_trace | with_reducible apply canon_State_post
      | with_reducible apply canon_State_modCell | with_reducible apply canon_State_setActor | intro _
theorem canon_execHandlerStart (s : State) (h0 : Canon s) : CanonOut (execHandlerStart s) := by
  unfold execHandlerStart
  repeat' first
      | with_reducible assumption | with_reducible apply Canon.ite | with_reducible apply CanonOut.next | with_reducible apply canon_State_begin_ | intro _
      | dsimp only | split
theorem canon_execBudgetExpiry (s : State) (h0 : Canon s) : CanonOut (execBudgetExpiry s) := by
  unfold execBudgetExpiry
  repeat' first
      | with_reducible assumption | with_reducible apply CanonOut.ite | with_reducible apply CanonOut.next | with_reducible apply canon_State_post
      | with_reducible apply canon_killActor | intro _
theorem canon_State_unstarted (s : State) (t : State) (n : ActorName) (h0 : Canon s) (h1 : Canon t) : Canon (s.unstarted t n) := by
  unfold State.unstarted
  repeat' first | with_reducible assumption | with_reducible apply canon_State_modActor
theorem canon_State_strike (s : State) (x1 : Strike) (h0 : Canon s) : Canon (s.strike x1) := by
  unfold State.strike
  repeat' first
      | with_reducible assumption | with_reducible apply canon_State_put | with_reducible apply Canon.ite | with_reducible apply canon_State_modCell | with_reducible apply canon_State_modActor
      | with_reducible apply canon_killActor | intro _ | dsimp only | split
theorem canon_State_struck (s : State) (h0 : Canon s) : Canon (s.struck) := by
  unfold State.struck
  repeat' first | with_reducible assumption | with_reducible apply canon_State_strike | split
theorem canon_State_settled (s : State) (h0 : Canon s) : Canon (s.settled) := by
  unfold State.settled
  repeat' first
      | with_reducible assumption | with_reducible apply Canon.foldl | with_reducible apply canon_State_endOffers | with_reducible apply canon_State_refresh
theorem canon_State_tock (s : State) (h0 : Canon s) : Canon (s.tock) := by
  unfold State.tock
  assumption
theorem canon_State_pass (s : State) (h0 : Canon s) : Canon (s.pass) := by
  unfold State.pass
  repeat' first
      | with_reducible assumption | with_reducible apply canon_State_tock | with_reducible apply canon_State_settled | with_reducible apply canon_State_struck
theorem canon_State_idle (s : State) (h0 : Canon s) : Canon (s.idle) := by
  unfold State.idle
  repeat' first | with_reducible assumption | split

-- Dispatch

theorem canon_exec (i : Instr) (s : State) (h0 : Canon s) : CanonOut (exec i s) := by
  cases i with
  | add w a b g => exact canon_execAdd w a b g s h0
  | sub w a b g => exact canon_execSub w a b g s h0
  | mul w a b g => exact canon_execMul w a b g s h0
  | mulh w a b g => exact canon_execMulh w a b g s h0
  | mulhu w a b g => exact canon_execMulhu w a b g s h0
  | div w a b g => exact canon_execDiv w a b g s h0
  | divu w a b g => exact canon_execDivu w a b g s h0
  | rem w a b g => exact canon_execRem w a b g s h0
  | remu w a b g => exact canon_execRemu w a b g s h0
  | and w a b g => exact canon_execAnd w a b g s h0
  | or w a b g => exact canon_execOr w a b g s h0
  | xor w a b g => exact canon_execXor w a b g s h0
  | andn w a b g => exact canon_execAndn w a b g s h0
  | orn w a b g => exact canon_execOrn w a b g s h0
  | shl w a b g => exact canon_execShl w a b g s h0
  | shr w a b g => exact canon_execShr w a b g s h0
  | sar w a b g => exact canon_execSar w a b g s h0
  | rol w a b g => exact canon_execRol w a b g s h0
  | min w a b g => exact canon_execMin w a b g s h0
  | max w a b g => exact canon_execMax w a b g s h0
  | minu w a b g => exact canon_execMinu w a b g s h0
  | maxu w a b g => exact canon_execMaxu w a b g s h0
  | clz w a g => exact canon_execClz w a g s h0
  | ctz w a g => exact canon_execCtz w a g s h0
  | popc w a g => exact canon_execPopc w a g s h0
  | sext w a g => exact canon_execSext w a g s h0
  | zext w a g => exact canon_execZext w a g s h0
  | bswap w a g => exact canon_execBswap w a g s h0
  | addi a imm => exact canon_execAddi a imm s h0
  | andi a imm => exact canon_execAndi a imm s h0
  | ori a imm => exact canon_execOri a imm s h0
  | xori a imm => exact canon_execXori a imm s h0
  | shli a imm => exact canon_execShli a imm s h0
  | shri a imm => exact canon_execShri a imm s h0
  | sari a imm => exact canon_execSari a imm s h0
  | li imm => exact canon_execLi imm s h0
  | lit v => exact canon_execLit v s h0
  | keep d a => exact canon_execKeep d a s h0
  | dup a g => exact canon_execDup a g s h0
  | lea w a b g => exact canon_execLea w a b g s h0
  | fadd a b g => exact canon_execFadd a b g s h0
  | fsub a b g => exact canon_execFsub a b g s h0
  | fmul a b g => exact canon_execFmul a b g s h0
  | fdiv a b g => exact canon_execFdiv a b g s h0
  | fmin a b g => exact canon_execFmin a b g s h0
  | fmax a b g => exact canon_execFmax a b g s h0
  | fabs a g => exact canon_execFabs a g s h0
  | fsqrt a g => exact canon_execFsqrt a g s h0
  | ffma a b c dst rnd sat g => exact canon_execFfma a b c dst rnd sat g s h0
  | fcvt kind w a dst rnd sat g => exact canon_execFcvt kind w a dst rnd sat g s h0
  | pset cond w a b dp g => exact canon_execPset cond w a b dp g s h0
  | psetf cond a b dp g => exact canon_execPsetf cond a b dp g s h0
  | pand d a b => exact canon_execPand d a b s h0
  | por d a b => exact canon_execPor d a b s h0
  | pxor d a b => exact canon_execPxor d a b s h0
  | pnot d a => exact canon_execPnot d a s h0
  | sel a b g => exact canon_execSel a b g s h0
  | br p off => exact canon_execBr p off s h0
  | bp p off => exact canon_execBp p off s h0
  | call p off => exact canon_execCall p off s h0
  | ret p => exact canon_execRet p s h0
  | loop p off => exact canon_execLoop p off s h0
  | jmpx a g => exact canon_execJmpx a g s h0
  | ld w a g => exact canon_execLd w a g s h0
  | st w a b g => exact canon_execSt w a b g s h0
  | ldx w a b disp sx dst g => exact canon_execLdx w a b disp sx dst g s h0
  | stx w a b c disp g => exact canon_execStx w a b c disp g s h0
  | tfree d => exact canon_execTfree d s h0
  | tstat a hi => exact canon_execTstat a hi s h0
  | tzero d => exact canon_execTzero d s h0
  | tdef d loc0 loc1 pitch rows cols fmt bar glob => exact canon_execTdef d loc0 loc1 pitch rows cols fmt bar glob s h0
  | tview d a row0 col0 rows cols => exact canon_execTview d a row0 col0 rows cols s h0
  | tcopy to_ from_ lu => exact canon_execTcopy to_ from_ lu s h0
  | tfetch c => exact canon_execTfetch c s h0
  | twrite c => exact canon_execTwrite c s h0
  | tgath c ix => exact canon_execTgath c ix s h0
  | tscat c ix => exact canon_execTscat c ix s h0
  | rdef d first count => exact canon_execRdef d first count s h0
  | radv d cons step => exact canon_execRadv d cons step s h0
  | rwait d cons k => exact canon_execRwait d cons k s h0
  | binit d a => exact canon_execBinit d a s h0
  | bexp d a => exact canon_execBexp d a s h0
  | bwait d a b => exact canon_execBwait d a b s h0
  | bstat d hi => exact canon_execBstat d hi s h0
  | mclr acc sr => exact canon_execMclr acc sr s h0
  | mlda a lu => exact canon_execMlda a lu s h0
  | mldb a rl lu => exact canon_execMldb a rl lu s h0
  | mtr a lat lu => exact canon_execMtr a lat lu s h0
  | mrelay a b => exact canon_execMrelay a b s h0
  | mma acc a b sr lasta lastb => exact canon_execMma acc a b sr lasta lastb s h0
  | mmas acc a b sa sb sr lasta lastb => exact canon_execMmas acc a b sa sb sr lasta lastb s h0
  | macc acc a sr lasta => exact canon_execMacc acc a sr lasta s h0
  | mst acc to_ row0 col0 clr sat rnd => exact canon_execMst acc to_ row0 col0 clr sat rnd s h0
  | vadd d a b e => exact canon_execVadd d a b e s h0
  | vsub d a b e => exact canon_execVsub d a b e s h0
  | vmul d a b e => exact canon_execVmul d a b e s h0
  | vdiv d a b e => exact canon_execVdiv d a b e s h0
  | vmin d a b e => exact canon_execVmin d a b e s h0
  | vmax d a b e => exact canon_execVmax d a b e s h0
  | vfma d a b e => exact canon_execVfma d a b e s h0
  | vabs d a e => exact canon_execVabs d a e s h0
  | vneg d a e => exact canon_execVneg d a e s h0
  | vexp d a e => exact canon_execVexp d a e s h0
  | vexp2 d a e => exact canon_execVexp2 d a e s h0
  | vlog d a e => exact canon_execVlog d a e s h0
  | vrcp d a e => exact canon_execVrcp d a e s h0
  | vrsqrt d a e => exact canon_execVrsqrt d a e s h0
  | vsqrt d a e => exact canon_execVsqrt d a e s h0
  | vtanh d a e => exact canon_execVtanh d a e s h0
  | vsigm d a e => exact canon_execVsigm d a e s h0
  | verf d a e => exact canon_execVerf d a e s h0
  | vcmp d a b e => exact canon_execVcmp d a b e s h0
  | vsel d a b e => exact canon_execVsel d a b e s h0
  | vrsum d a e => exact canon_execVrsum d a e s h0
  | vrmax d a e => exact canon_execVrmax d a e s h0
  | vrmin d a e => exact canon_execVrmin d a e s h0
  | vcsum d a e => exact canon_execVcsum d a e s h0
  | vscan d a e => exact canon_execVscan d a e s h0
  | vcvt d a e => exact canon_execVcvt d a e s h0
  | vquant d a e => exact canon_execVquant d a e s h0
  | vdeq d a e => exact canon_execVdeq d a e s h0
  | vscale d a e => exact canon_execVscale d a e s h0
  | vtrans d a e => exact canon_execVtrans d a e s h0
  | vperm d a b e => exact canon_execVperm d a b e s h0
  | vgath d a b e => exact canon_execVgath d a b e s h0
  | vbcast d a e => exact canon_execVbcast d a e s h0
  | vpack d a b e => exact canon_execVpack d a b e s h0
  | vunpk d a e => exact canon_execVunpk d a e s h0
  | viadd d a b e => exact canon_execViadd d a b e s h0
  | visub d a b e => exact canon_execVisub d a b e s h0
  | vimul d a b e => exact canon_execVimul d a b e s h0
  | vand d a b e => exact canon_execVand d a b e s h0
  | vor d a b e => exact canon_execVor d a b e s h0
  | vxor d a b e => exact canon_execVxor d a b e s h0
  | vshl d a b e => exact canon_execVshl d a b e s h0
  | vshr d a b e => exact canon_execVshr d a b e s h0
  | vsmx d a e => exact canon_execVsmx d a e s h0
  | vlut d a b e => exact canon_execVlut d a b e s h0
  | vfill d e => exact canon_execVfill d e s h0
  | aadd a b dst sem sc nr disp g => exact canon_execAadd a b dst sem sc nr disp g s h0
  | aand a b dst sem sc nr disp g => exact canon_execAand a b dst sem sc nr disp g s h0
  | aor a b dst sem sc nr disp g => exact canon_execAor a b dst sem sc nr disp g s h0
  | axor a b dst sem sc nr disp g => exact canon_execAxor a b dst sem sc nr disp g s h0
  | amin a b dst sem sc nr disp g => exact canon_execAmin a b dst sem sc nr disp g s h0
  | amax a b dst sem sc nr disp g => exact canon_execAmax a b dst sem sc nr disp g s h0
  | aminu a b dst sem sc nr disp g => exact canon_execAminu a b dst sem sc nr disp g s h0
  | amaxu a b dst sem sc nr disp g => exact canon_execAmaxu a b dst sem sc nr disp g s h0
  | axchg a b dst sem sc nr disp g => exact canon_execAxchg a b dst sem sc nr disp g s h0
  | acas a b c dst sem sc nr disp g => exact canon_execAcas a b c dst sem sc nr disp g s h0
  | robj a b p0 p1 p2 rows cols fmt op => exact canon_execRobj a b p0 p1 p2 rows cols fmt op s h0
  | ared a p0 p1 p2 lu => exact canon_execAred a p0 p1 p2 lu s h0
  | fence acq rel sc => exact canon_execFence acq rel sc s h0
  | balloc p0 p1 p2 mir com => exact canon_execBalloc p0 p1 p2 mir com s h0
  | bfree p0 p1 p2 => exact canon_execBfree p0 p1 p2 s h0
  | xmap p0 p1 p2 => exact canon_execXmap p0 p1 p2 s h0
  | xunmap p0 p1 p2 => exact canon_execXunmap p0 p1 p2 s h0
  | send a x g => exact canon_execSend a x g s h0
  | sendt a x g => exact canon_execSendt a x g s h0
  | mcast x g => exact canon_execMcast x g s h0
  | callRequest a x g => exact canon_execCallRequest a x g s h0
  | reply a b pl g => exact canon_execReply a b pl g s h0
  | await a b g => exact canon_execAwait a b g s h0
  | end_ g => exact canon_execEnd g s h0
  | spawn img arg0 arg1 lnk mon => exact canon_execSpawn img arg0 arg1 lnk mon s h0
  | spawnc crec arg0 arg1 => exact canon_execSpawnc crec arg0 arg1 s h0
  | link a g => exact canon_execLink a g s h0
  | unlink a g => exact canon_execUnlink a g s h0
  | monitor a g => exact canon_execMonitor a g s h0
  | demon a g => exact canon_execDemon a g s h0
  | exit a b g => exact canon_execExit a b g s h0
  | kill a lv g => exact canon_execKill a lv g s h0
  | trapx a g => exact canon_execTrapx a g s h0
  | chmask a g => exact canon_execChmask a g s h0
  | prio a g => exact canon_execPrio a g s h0
  | lookup a g => exact canon_execLookup a g s h0
  | reg a b g => exact canon_execReg a b g s h0
  | supStart crec => exact canon_execSupStart crec s h0
  | supStop crec => exact canon_execSupStop crec s h0
  | supqName crec => exact canon_execSupqName crec s h0
  | supqCount crec => exact canon_execSupqCount crec s h0
  | supqState crec => exact canon_execSupqState crec s h0
  | sysrd a g => exact canon_execSysrd a g s h0
  | syswr a b g => exact canon_execSyswr a b g s h0
  | ctrd a g => exact canon_execCtrd a g s h0
  | nop => exact canon_execNop s h0
  | brk imm => exact canon_execBrk imm s h0
  | trap imm => exact canon_execTrap imm s h0
  | dhalt a b g => exact canon_execDhalt a b g s h0
  | dstep a b g => exact canon_execDstep a b g s h0
  | dres a g => exact canon_execDres a g s h0
  | drd a g => exact canon_execDrd a g s h0
  | dwr a b g => exact canon_execDwr a b g s h0
  | dbp a ix en g => exact canon_execDbp a ix en g s h0
  | dwp a ix en wk len g => exact canon_execDwp a ix en wk len g s h0
  | dtrc a g => exact canon_execDtrc a g s h0
  | rpwr a b g => exact canon_execRpwr a b g s h0
  | rprd a g => exact canon_execRprd a g s h0
  | halt a g => exact canon_execHalt a g s h0
  | powerOnReset => exact canon_execPowerOnReset s h0
  | warmReset => exact canon_execWarmReset s h0
  | bootProgramStart => exact canon_execBootProgramStart s h0
  | portalOpen => exact canon_execPortalOpen s h0
  | thermalTrip => exact canon_execThermalTrip s h0
  | throttle => exact canon_execThrottle s h0
  | registerWrite => exact canon_execRegisterWrite s h0
  | quarantineWrite => exact canon_execQuarantineWrite s h0
  | dutymodeWrite => exact canon_execDutymodeWrite s h0
  | d2dRetrain => exact canon_execD2dRetrain s h0
  | hqackWrite => exact canon_execHqackWrite s h0
  | hostQueueWrite => exact canon_execHostQueueWrite s h0
  | portalSlotComplete => exact canon_execPortalSlotComplete s h0
  | launch => exact canon_execLaunch s h0
  | load => exact canon_execLoad s h0
  | unload => exact canon_execUnload s h0
  | attestationRequest => exact canon_execAttestationRequest s h0
  | dutyAnswer => exact canon_execDutyAnswer s h0
  | flitTransmit => exact canon_execFlitTransmit s h0
  | flitReceive => exact canon_execFlitReceive s h0
  | nakResend => exact canon_execNakResend s h0
  | errorWindowEnd => exact canon_execErrorWindowEnd s h0
  | retrainComplete => exact canon_execRetrainComplete s h0
  | fabricTimeout => exact canon_execFabricTimeout s h0
  | fabricReply => exact canon_execFabricReply s h0
  | stationLinkDown => exact canon_execStationLinkDown s h0
  | rd => exact canon_execRd s h0
  | wr => exact canon_execWr s h0
  | wrm => exact canon_execWrm s h0
  | at_ => exact canon_execAt s h0
  | rcContribution => exact canon_execRcContribution s h0
  | rcDeclaration => exact canon_execRcDeclaration s h0
  | rdr => exact canon_execRdr s h0
  | wack => exact canon_execWack s h0
  | atr => exact canon_execAtr s h0
  | rca => exact canon_execRca s h0
  | rcRetry => exact canon_execRcRetry s h0
  | reductionNotice => exact canon_execReductionNotice s h0
  | mirrorAck => exact canon_execMirrorAck s h0
  | mirrorForwardTimeout => exact canon_execMirrorForwardTimeout s h0
  | scrub => exact canon_execScrub s h0
  | epochEnd => exact canon_execEpochEnd s h0
  | lostScan => exact canon_execLostScan s h0
  | migration => exact canon_execMigration s h0
  | invalidation => exact canon_execInvalidation s h0
  | invalidationAck => exact canon_execInvalidationAck s h0
  | walkRequest => exact canon_execWalkRequest s h0
  | walkAnswer => exact canon_execWalkAnswer s h0
  | sideLogReplay => exact canon_execSideLogReplay s h0
  | transferComplete => exact canon_execTransferComplete s h0
  | outboundReadDone => exact canon_execOutboundReadDone s h0
  | tileLanded => exact canon_execTileLanded s h0
  | mcastBusServe => exact canon_execMcastBusServe s h0
  | relaySend => exact canon_execRelaySend s h0
  | relayArrival => exact canon_execRelayArrival s h0
  | matrixComplete => exact canon_execMatrixComplete s h0
  | vectorComplete => exact canon_execVectorComplete s h0
  | messageArrival => exact canon_execMessageArrival s h0
  | messageResend => exact canon_execMessageResend s h0
  | replyArrival => exact canon_execReplyArrival s h0
  | awaitTimeout => exact canon_execAwaitTimeout s h0
  | handlerStart => exact canon_execHandlerStart s h0
  | contextFetch => exact canon_execContextFetch s h0
  | roamingOffer => exact canon_execRoamingOffer s h0
  | budgetExpiry => exact canon_execBudgetExpiry s h0
  | spawnAnswer => exact canon_execSpawnAnswer s h0
  | linkAnswer => exact canon_execLinkAnswer s h0
  | dying => exact canon_execDying s h0
  | reclaim => exact canon_execReclaim s h0
  | exitSignal => exact canon_execExitSignal s h0
  | restart => exact canon_execRestart s h0
  | restartRetry => exact canon_execRestartRetry s h0
  | swapInstant => exact canon_execSwapInstant s h0
  | swapEvalEnd => exact canon_execSwapEvalEnd s h0
  | freeze => exact canon_execFreeze s h0
  | mark => exact canon_execMark s h0
  | exchangeCommit => exact canon_execExchangeCommit s h0
  | cellWake => exact canon_execCellWake s h0
  | preempt => exact canon_execPreempt s h0
  | unpark => exact canon_execUnpark s h0
  | shadowRun => exact canon_execShadowRun s h0
  | shadowComplete => exact canon_execShadowComplete s h0
  | shadowAbandon => exact canon_execShadowAbandon s h0
  | ageingCheck => exact canon_execAgeingCheck s h0
  | throttleEnd => exact canon_execThrottleEnd s h0
  | idleFlit => exact canon_execIdleFlit s h0

end Sys2Proof.Machine
end

