-- ==== Sys2Proof/Laws/Kill.lean ====
section
/-! SUPPORT. What taking a kill does (16 R343, R344): the killed actor, every other actor, what is then to come, and memory. -/

namespace Sys2Proof.Machine

/-- What a kill leaves of a cell: its service state. -/
def Cell.service (e : Cell) : Nat × Bool × Bool × Bool := (e.health, e.gated, e.waking, e.boot)
theorem kvGet_mapAll {α β : Type} (g : α → β) (f : α → α) (hf : ∀ a, g (f a) = g a) (d : α) (l : List (Nat × α)) (n : Nat) :
    g (kvGet d (l.map fun e => (e.1, f e.2)) n) = g (kvGet d l n) := by
  induction l with
  | nil => rfl
  | cons e r ih => simp only [List.map_cons, kvGet]; split; exact hf _; exact ih
theorem Cell.service_promote (e : Cell) : e.promote.service = e.service := by unfold Cell.promote; split <;> rfl
theorem Cell.service_clearRelay (e : Cell) (id : Nat) : (e.clearRelay id).service = e.service := by
  unfold Cell.clearRelay
  split <;> (dsimp only; split <;> first | rfl | (rw [Cell.service_promote]; rfl))
theorem State.service_clearRelay (s : State) (id c : Nat) : ((s.clearRelay id).cell c).service = (s.cell c).service :=
  kvGet_mapAll Cell.service (fun e : Cell => e.clearRelay id) (fun e => Cell.service_clearRelay e id) _ _ _
theorem foldl_clearRelay (l : List Nat) : ∀ s : State, ∃ c, l.foldl State.clearRelay s = { s with cells := c } ∧
    ∀ k, (kvGet {} c k : Cell).service = (s.cell k).service := by
  induction l with
  | nil => intro s; exact ⟨s.cells, rfl, fun _ => rfl⟩
  | cons x l ih =>
    intro s
    obtain ⟨c, h, hs⟩ := ih (s.clearRelay x)
    exact ⟨c, h, fun k => (hs k).trans (State.service_clearRelay s x k)⟩
/-- A trace record goes into the ring and nowhere else. -/
theorem State.trace_eq (s : State) (kind : Nat) (a : Actor) (oth : ActorName) (seq chan rsn : Nat) :
    ∃ m w, s.trace kind a oth seq chan rsn = { s with mem := m, regs := { s.regs with swr := w } } ∧ (s.regs.silEn = false → m = s.mem) := by
  unfold State.trace
  dsimp only
  generalize hq : (s.regs.silEn && (if kind = 1 ∨ kind = 2 then bit a.dbg.trc 0 else if kind = 3 then bit a.dbg.trc 1
    else if kind = 4 then bit a.dbg.trc 2 else true) && a.shadow.isNone) = q
  cases q with
  | true =>
    rw [if_pos rfl]
    exact ⟨_, _, rfl, fun h => by simp [h] at hq⟩
  | false =>
    rw [if_neg (by simp)]
    exact ⟨s.mem, s.regs.swr, rfl, fun _ => rfl⟩
theorem kvGet_mapOne {α : Type} (d : α) (n : Nat) (f : α → α) (l : List (Nat × α)) (m : Nat) (h : m ≠ n) :
    kvGet d (l.map fun e => if e.1 == n then (e.1, f e.2) else e) m = kvGet d l m := by
  induction l with
  | nil => rfl
  | cons e r ih =>
    obtain ⟨k, v⟩ := e
    by_cases hk : k = n
    · subst hk
      simp only [List.map_cons, beq_self_eq_true, if_true, kvGet, if_neg (fun e => h (Eq.symm e)), ih]
    · have : (k == n) = false := by simpa using hk
      simp only [List.map_cons, this, Bool.false_eq_true, if_false, kvGet, ih]
theorem kvGet_mapThis {α : Type} (d : α) (n : Nat) (f : α → α) (l : List (Nat × α)) (h : kvHas l n = true) :
    kvGet d (l.map fun e => if e.1 == n then (e.1, f e.2) else e) n = f (kvGet d l n) := by
  induction l with
  | nil => simp [kvHas] at h
  | cons e r ih =>
    obtain ⟨k, v⟩ := e
    by_cases hk : k = n
    · subst hk; simp [kvGet]
    · have hb : (k == n) = false := by simpa using hk
      have h' : kvHas r n = true := by simpa [kvHas, hk] using h
      simp only [List.map_cons, hb, Bool.false_eq_true, if_false, kvGet, if_neg hk, ih h']

/-- The state that a kill leaves but for the trace and the next step; `c` are the cells without the relays of the outbox. -/
def killLeft (s : State) (n : ActorName) (r : Reason) (c : List (Nat × Cell)) : State :=
  (({ s with cells := c } : State).setActor { s.actor n with name := n, st := .dying, debt := some r, outbox := [], walks := [] }).dropWork n
/-- A kill, said once: the killed actor's data, the work of it that goes, the ring of Sillage, and the step that follows. -/
theorem killActor_eq (s : State) (n : ActorName) (r : Reason) (h : killable (s.actor n)) :
    ∃ c m w, killActor s n r =
      ({ killLeft s n r c with mem := m, regs := { s.regs with swr := w } } : State).post 0
        (if (s.actor n).shadow.isSome then .shadowComplete else .reclaim)
        (match (s.actor n).shadow with | some b => { n := b } | none => { actor := n }) ∧
      (s.regs.silEn = false → m = s.mem) ∧ ∀ k, (kvGet {} c k : Cell).service = (s.cell k).service := by
  obtain ⟨c, hc, hs⟩ := foldl_clearRelay (outboxXids (s.actor n).outbox) s
  have hk : killActor s n r = match (s.actor n).shadow with
      | some b => (killLeft s n r c).post 0 .shadowComplete { n := b }
      | none => ((killLeft s n r c).trace 7 (s.actor n) 0 0 0 r.toNat).post 0 .reclaim { actor := n } := by
    unfold killActor; rcases h with h | h | h | h <;> simp only [h, hc] <;> rfl
  rw [hk]
  cases hsh : (s.actor n).shadow with
  | some b => exact ⟨c, s.mem, s.regs.swr, rfl, fun _ => rfl, hs⟩
  | none =>
    obtain ⟨m, w, ht, hm⟩ := State.trace_eq (killLeft s n r c) 7 (s.actor n) 0 0 0 r.toNat
    refine ⟨c, m, w, ?_, hm, hs⟩
    simp only [ht]; rfl
theorem killActor_skip (s : State) (n : ActorName) (r : Reason) (h : (s.actor n).st = .free ∨ (s.actor n).st = .dying) : killActor s n r = s := by
  unfold killActor; rcases h with h | h <;> simp [h]
theorem killActor_transit (s : State) (n : ActorName) (r : Reason) (h : (s.actor n).st = .transit) :
    killActor s n r = { s with held := s.held ++ [⟨n, ⟨.dying, { actor := n, n := r.toNat }⟩⟩] } := by
  unfold killActor; simp [h]
theorem killLeft_actors (s : State) (n : ActorName) (r : Reason) (c : List (Nat × Cell)) :
    ∃ k : List Nat, (killLeft s n r c).actors = (kvSet s.actors n.toNat ({ s.actor n with name := n, st := .dying, debt := some r, outbox := [], walks := [] } : Actor)).map
      fun e => if e.1 == n.toNat then (e.1, ({ e.2 with flying := k.foldl List.erase e.2.flying } : Actor)) else e := ⟨_, rfl⟩
theorem killActor_self (s : State) (n : ActorName) (r : Reason) (h : killable (s.actor n)) :
    ∃ k, (killActor s n r).actor n = { s.actor n with name := n, st := .dying, debt := some r, outbox := [], walks := [], flying := k } := by
  obtain ⟨c, m, w, he, -, -⟩ := killActor_eq s n r h
  obtain ⟨k, hk⟩ := killLeft_actors s n r c
  refine ⟨k.foldl List.erase (s.actor n).flying, ?_⟩
  rw [he]
  show kvGet _ (killLeft s n r c).actors _ = _
  rw [hk, kvGet_mapThis _ _ (fun a : Actor => ({ a with flying := k.foldl List.erase a.flying } : Actor)) _ (kvHas_kvSet _ _ _), kvGet_kvSet_same]
theorem killActor_other (s : State) (n m : ActorName) (r : Reason) (h : m ≠ n) : (killActor s n r).actor m = s.actor m := by
  have hn : m.toNat ≠ n.toNat := fun e => h (BitVec.eq_of_toNat_eq e)
  by_cases hk : killable (s.actor n)
  · obtain ⟨c, m', w, he, -, -⟩ := killActor_eq s n r hk
    obtain ⟨k, hk⟩ := killLeft_actors s n r c
    rw [he]
    show kvGet _ (killLeft s n r c).actors _ = _
    rw [hk, kvGet_mapOne _ _ (fun a : Actor => ({ a with flying := k.foldl List.erase a.flying } : Actor)) _ _ hn, kvGet_kvSet_other _ _ _ _ _ hn]
    rfl
  · unfold killable at hk
    cases hs : (s.actor n).st with
    | idle => simp [hs] at hk
    | ready => simp [hs] at hk
    | active => simp [hs] at hk
    | parked => simp [hs] at hk
    | free => rw [killActor_skip s n r (.inl hs)]
    | dying => rw [killActor_skip s n r (.inr hs)]
    | transit => rw [killActor_transit s n r hs]; rfl
/-- A kill keeps the clock and everything that is to come. -/
theorem killActor_agenda (s : State) (n : ActorName) (r : Reason) :
    (killActor s n r).cycle = s.cycle ∧ ∀ d ∈ s.agenda, d ∈ (killActor s n r).agenda := by
  by_cases hk : killable (s.actor n)
  · obtain ⟨c, m', w, he, -, -⟩ := killActor_eq s n r hk
    rw [he]
    exact ⟨rfl, fun d hd => List.mem_append.2 (.inl hd)⟩
  · unfold killable at hk
    cases hs : (s.actor n).st with
    | idle => simp [hs] at hk
    | ready => simp [hs] at hk
    | active => simp [hs] at hk
    | parked => simp [hs] at hk
    | free => rw [killActor_skip s n r (.inl hs)]; exact ⟨rfl, fun _ h => h⟩
    | dying => rw [killActor_skip s n r (.inr hs)]; exact ⟨rfl, fun _ h => h⟩
    | transit => rw [killActor_transit s n r hs]; exact ⟨rfl, fun _ h => h⟩
/-- A kill takes no cell out of service. -/
theorem killActor_cell (s : State) (n : ActorName) (r : Reason) (c : Nat) : ((killActor s n r).cell c).service = (s.cell c).service := by
  by_cases hk : killable (s.actor n)
  · obtain ⟨k, m', w, he, -, hs⟩ := killActor_eq s n r hk
    rw [he]
    refine (kvGet_mapAll Cell.service (fun e : Cell => { e with side := e.side.filter fun x => x.actor != n, xfers := (e.xfers.filter fun x => !(x.actor == n && (x.kind == .relay || x.kind == .mcast) && x.toRead != 0)).map fun x => x.dropHeld n }) (fun _ => rfl) _ _ _).trans (hs c)
  · unfold killable at hk
    cases hs : (s.actor n).st with
    | idle => simp [hs] at hk
    | ready => simp [hs] at hk
    | active => simp [hs] at hk
    | parked => simp [hs] at hk
    | free => rw [killActor_skip s n r (.inl hs)]
    | dying => rw [killActor_skip s n r (.inr hs)]
    | transit => rw [killActor_transit s n r hs]; rfl
/-- Kills of several actors: each that can die has died with the reason. -/
theorem foldl_killActor (l : List ActorName) (r : Reason) : ∀ s : State,
    (∀ n, (n ∉ l → (l.foldl (fun t m => killActor t m r) s).actor n = s.actor n) ∧
      (n ∈ l → killable (s.actor n) → ((l.foldl (fun t m => killActor t m r) s).actor n).st = .dying ∧
        ((l.foldl (fun t m => killActor t m r) s).actor n).debt = some r)) ∧
    (∀ c, ((l.foldl (fun t m => killActor t m r) s).cell c).service = (s.cell c).service) ∧
    (l.foldl (fun t m => killActor t m r) s).cycle = s.cycle ∧ ∀ d ∈ s.agenda, d ∈ (l.foldl (fun t m => killActor t m r) s).agenda := by
  have keep : ∀ (l : List ActorName) (s : State) (n : ActorName), (s.actor n).st = .dying →
      (l.foldl (fun t m => killActor t m r) s).actor n = s.actor n := by
    intro l
    induction l with
    | nil => intro s n _; rfl
    | cons x l ih =>
      intro s n h
      rw [List.foldl_cons]
      have : (killActor s x r).actor n = s.actor n := by
        by_cases hx : n = x
        · subst hx; rw [killActor_skip s n r (.inr h)]
        · exact killActor_other s x n r hx
      rw [ih _ _ (by rw [this]; exact h), this]
  induction l with
  | nil => intro s; exact ⟨fun n => ⟨fun _ => rfl, by simp⟩, fun _ => rfl, rfl, fun _ h => h⟩
  | cons x l ih =>
    intro s
    obtain ⟨i1, i4, i2, i3⟩ := ih (killActor s x r)
    obtain ⟨a1, a2⟩ := killActor_agenda s x r
    rw [List.foldl_cons]
    refine ⟨fun n => ⟨fun hn => ?_, fun hn hk => ?_⟩, fun c => (i4 c).trans (killActor_cell s x r c), by rw [i2, a1], fun d hd => i3 d (a2 d hd)⟩
    · rw [List.mem_cons, not_or] at hn
      rw [(i1 n).1 hn.2, killActor_other s x n r hn.1]
    · by_cases hx : n = x
      · subst hx
        obtain ⟨k, hs⟩ := killActor_self s n r hk
        rw [keep l _ n (by rw [hs]), hs]
        exact ⟨rfl, rfl⟩
      · have hn : n ∈ l := by rcases List.mem_cons.1 hn with h | h; exact absurd h hx; exact h
        refine (i1 n).2 hn ?_
        rw [killActor_other s x n r hx]; exact hk

end Sys2Proof.Machine
end

