-- ==== Sys2Proof/Laws/PerInstr.lean ====
section
/-! SUPPORT. The first word of every instruction (01 R16, R20, R32), one lemma for each constructor: it fits 32 bits, the opcode map
gives its major opcode and function the length that its `LEN` field holds, and the instruction has as many words as that length
says. An event has no words. -/

namespace Sys2Proof

/-- What the first word of a list of instruction words says of the list. -/
def Laws.FirstWord.First : List Nat → Prop
  | [] => True
  | w :: ws => w < 2 ^ 32 ∧ lenFor (majField w) (fnField w) = some (lenField w) ∧ ws.length + 1 = wordsOfLen (lenField w)
/-- The statement about an instruction. -/
def Laws.FirstWord.Statement (i : Instr) : Prop := Laws.FirstWord.First i.words

/-- Format Q. -/
theorem Laws.FirstWord.firstQ {len maj fn a b w : Nat} {g : Guard} {ws : List Nat} (hl : lenFor maj fn = some len)
    (hn : ws.length + 1 = wordsOfLen len) (h1 : len < 4) (h2 : maj < 64) (h3 : fn < 64) (h4 : a < 64) (h5 : b < 64) (h6 : w < 4) :
    Laws.FirstWord.First (wordQ len maj fn a b g w :: ws) := by
  obtain ⟨e1, e2, e3, -, -, -, -, e4⟩ := wordQ_fields len maj fn a b w g h1 h2 h3 h4 h5 h6
  exact ⟨e4, by rw [e1, e2, e3, hl], by rw [e1, hn]⟩
/-- Format T. -/
theorem Laws.FirstWord.firstT {len maj fn d a b : Nat} {ws : List Nat} (hl : lenFor maj fn = some len)
    (hn : ws.length + 1 = wordsOfLen len) (h1 : len < 4) (h2 : maj < 64) (h3 : fn < 64) (h4 : d < 64) (h5 : a < 64) (h6 : b < 64) :
    Laws.FirstWord.First (wordT len maj fn d a b :: ws) := by
  obtain ⟨e1, e2, e3, -, -, -, e4⟩ := wordT_fields len maj fn d a b h1 h2 h3 h4 h5 h6
  exact ⟨e4, by rw [e1, e2, e3, hl], by rw [e1, hn]⟩
/-- Format I. -/
theorem Laws.FirstWord.first0 {len maj fn f lo : Nat} {ws : List Nat} (hl : lenFor maj fn = some len)
    (hn : ws.length + 1 = wordsOfLen len) (h1 : len < 4) (h2 : maj < 64) (h3 : fn < 64) (h4 : f < 64) (h5 : lo < 4096) :
    Laws.FirstWord.First (word0 len maj fn f lo :: ws) := by
  obtain ⟨e1, e2, e3, -, -, e4⟩ := word0_fields len maj fn f lo h1 h2 h3 h4 h5
  exact ⟨e4, by rw [e1, e2, e3, hl], by rw [e1, hn]⟩
/-- Format B. -/
theorem Laws.FirstWord.firstB {fn off : Nat} {p : Fin 8} (h1 : fn < 8) (h2 : off < 2 ^ 18) : Laws.FirstWord.First [wordB fn p off] := by
  have hp := p.isLt
  have e1 : lenField (wordB fn p off) = 0 := by simp only [lenField, bits, wordB]; omega
  have e2 : majField (wordB fn p off) = 0x10 := by simp only [majField, bits, wordB]; omega
  refine ⟨by simp only [wordB]; omega, ?_, ?_⟩
  · rw [e1, e2]; rfl
  · rw [e1]; rfl
theorem Laws.FirstWord.add (w : Width) (a b : Scalar) (g : Guard) : Laws.FirstWord.Statement (.add w a b g) :=
  Laws.FirstWord.firstQ rfl rfl (by decide) (by decide) (by decide) (Scalar.code_lt a) (Scalar.code_lt b) (Width.code_lt w)
theorem Laws.FirstWord.sub (w : Width) (a b : Scalar) (g : Guard) : Laws.FirstWord.Statement (.sub w a b g) :=
  Laws.FirstWord.firstQ rfl rfl (by decide) (by decide) (by decide) (Scalar.code_lt a) (Scalar.code_lt b) (Width.code_lt w)
theorem Laws.FirstWord.mul (w : Width) (a b : Scalar) (g : Guard) : Laws.FirstWord.Statement (.mul w a b g) :=
  Laws.FirstWord.firstQ rfl rfl (by decide) (by decide) (by decide) (Scalar.code_lt a) (Scalar.code_lt b) (Width.code_lt w)
theorem Laws.FirstWord.mulh (w : Width) (a b : Scalar) (g : Guard) : Laws.FirstWord.Statement (.mulh w a b g) :=
  Laws.FirstWord.firstQ rfl rfl (by decide) (by decide) (by decide) (Scalar.code_lt a) (Scalar.code_lt b) (Width.code_lt w)
theorem Laws.FirstWord.mulhu (w : Width) (a b : Scalar) (g : Guard) : Laws.FirstWord.Statement (.mulhu w a b g) :=
  Laws.FirstWord.firstQ rfl rfl (by decide) (by decide) (by decide) (Scalar.code_lt a) (Scalar.code_lt b) (Width.code_lt w)
theorem Laws.FirstWord.div (w : Width) (a b : Scalar) (g : Guard) : Laws.FirstWord.Statement (.div w a b g) :=
  Laws.FirstWord.firstQ rfl rfl (by decide) (by decide) (by decide) (Scalar.code_lt a) (Scalar.code_lt b) (Width.code_lt w)
theorem Laws.FirstWord.divu (w : Width) (a b : Scalar) (g : Guard) : Laws.FirstWord.Statement (.divu w a b g) :=
  Laws.FirstWord.firstQ rfl rfl (by decide) (by decide) (by decide) (Scalar.code_lt a) (Scalar.code_lt b) (Width.code_lt w)
theorem Laws.FirstWord.rem (w : Width) (a b : Scalar) (g : Guard) : Laws.FirstWord.Statement (.rem w a b g) :=
  Laws.FirstWord.firstQ rfl rfl (by decide) (by decide) (by decide) (Scalar.code_lt a) (Scalar.code_lt b) (Width.code_lt w)
theorem Laws.FirstWord.remu (w : Width) (a b : Scalar) (g : Guard) : Laws.FirstWord.Statement (.remu w a b g) :=
  Laws.FirstWord.firstQ rfl rfl (by decide) (by decide) (by decide) (Scalar.code_lt a) (Scalar.code_lt b) (Width.code_lt w)
theorem Laws.FirstWord.and (w : Width) (a b : Scalar) (g : Guard) : Laws.FirstWord.Statement (.and w a b g) :=
  Laws.FirstWord.firstQ rfl rfl (by decide) (by decide) (by decide) (Scalar.code_lt a) (Scalar.code_lt b) (Width.code_lt w)
theorem Laws.FirstWord.or (w : Width) (a b : Scalar) (g : Guard) : Laws.FirstWord.Statement (.or w a b g) :=
  Laws.FirstWord.firstQ rfl rfl (by decide) (by decide) (by decide) (Scalar.code_lt a) (Scalar.code_lt b) (Width.code_lt w)
theorem Laws.FirstWord.xor (w : Width) (a b : Scalar) (g : Guard) : Laws.FirstWord.Statement (.xor w a b g) :=
  Laws.FirstWord.firstQ rfl rfl (by decide) (by decide) (by decide) (Scalar.code_lt a) (Scalar.code_lt b) (Width.code_lt w)
theorem Laws.FirstWord.andn (w : Width) (a b : Scalar) (g : Guard) : Laws.FirstWord.Statement (.andn w a b g) :=
  Laws.FirstWord.firstQ rfl rfl (by decide) (by decide) (by decide) (Scalar.code_lt a) (Scalar.code_lt b) (Width.code_lt w)
theorem Laws.FirstWord.orn (w : Width) (a b : Scalar) (g : Guard) : Laws.FirstWord.Statement (.orn w a b g) :=
  Laws.FirstWord.firstQ rfl rfl (by decide) (by decide) (by decide) (Scalar.code_lt a) (Scalar.code_lt b) (Width.code_lt w)
theorem Laws.FirstWord.shl (w : Width) (a b : Scalar) (g : Guard) : Laws.FirstWord.Statement (.shl w a b g) :=
  Laws.FirstWord.firstQ rfl rfl (by decide) (by decide) (by decide) (Scalar.code_lt a) (Scalar.code_lt b) (Width.code_lt w)
theorem Laws.FirstWord.shr (w : Width) (a b : Scalar) (g : Guard) : Laws.FirstWord.Statement (.shr w a b g) :=
  Laws.FirstWord.firstQ rfl rfl (by decide) (by decide) (by decide) (Scalar.code_lt a) (Scalar.code_lt b) (Width.code_lt w)
theorem Laws.FirstWord.sar (w : Width) (a b : Scalar) (g : Guard) : Laws.FirstWord.Statement (.sar w a b g) :=
  Laws.FirstWord.firstQ rfl rfl (by decide) (by decide) (by decide) (Scalar.code_lt a) (Scalar.code_lt b) (Width.code_lt w)
theorem Laws.FirstWord.rol (w : Width) (a b : Scalar) (g : Guard) : Laws.FirstWord.Statement (.rol w a b g) :=
  Laws.FirstWord.firstQ rfl rfl (by decide) (by decide) (by decide) (Scalar.code_lt a) (Scalar.code_lt b) (Width.code_lt w)
theorem Laws.FirstWord.min (w : Width) (a b : Scalar) (g : Guard) : Laws.FirstWord.Statement (.min w a b g) :=
  Laws.FirstWord.firstQ rfl rfl (by decide) (by decide) (by decide) (Scalar.code_lt a) (Scalar.code_lt b) (Width.code_lt w)
theorem Laws.FirstWord.max (w : Width) (a b : Scalar) (g : Guard) : Laws.FirstWord.Statement (.max w a b g) :=
  Laws.FirstWord.firstQ rfl rfl (by decide) (by decide) (by decide) (Scalar.code_lt a) (Scalar.code_lt b) (Width.code_lt w)
theorem Laws.FirstWord.minu (w : Width) (a b : Scalar) (g : Guard) : Laws.FirstWord.Statement (.minu w a b g) :=
  Laws.FirstWord.firstQ rfl rfl (by decide) (by decide) (by decide) (Scalar.code_lt a) (Scalar.code_lt b) (Width.code_lt w)
theorem Laws.FirstWord.maxu (w : Width) (a b : Scalar) (g : Guard) : Laws.FirstWord.Statement (.maxu w a b g) :=
  Laws.FirstWord.firstQ rfl rfl (by decide) (by decide) (by decide) (Scalar.code_lt a) (Scalar.code_lt b) (Width.code_lt w)
theorem Laws.FirstWord.clz (w : Width) (a : Scalar) (g : Guard) : Laws.FirstWord.Statement (.clz w a g) :=
  Laws.FirstWord.firstQ rfl rfl (by decide) (by decide) (by decide) (Scalar.code_lt a) (by decide) (Width.code_lt w)
theorem Laws.FirstWord.ctz (w : Width) (a : Scalar) (g : Guard) : Laws.FirstWord.Statement (.ctz w a g) :=
  Laws.FirstWord.firstQ rfl rfl (by decide) (by decide) (by decide) (Scalar.code_lt a) (by decide) (Width.code_lt w)
theorem Laws.FirstWord.popc (w : Width) (a : Scalar) (g : Guard) : Laws.FirstWord.Statement (.popc w a g) :=
  Laws.FirstWord.firstQ rfl rfl (by decide) (by decide) (by decide) (Scalar.code_lt a) (by decide) (Width.code_lt w)
theorem Laws.FirstWord.sext (w : Width) (a : Scalar) (g : Guard) : Laws.FirstWord.Statement (.sext w a g) :=
  Laws.FirstWord.firstQ rfl rfl (by decide) (by decide) (by decide) (Scalar.code_lt a) (by decide) (Width.code_lt w)
theorem Laws.FirstWord.zext (w : Width) (a : Scalar) (g : Guard) : Laws.FirstWord.Statement (.zext w a g) :=
  Laws.FirstWord.firstQ rfl rfl (by decide) (by decide) (by decide) (Scalar.code_lt a) (by decide) (Width.code_lt w)
theorem Laws.FirstWord.bswap (w : Width) (a : Scalar) (g : Guard) : Laws.FirstWord.Statement (.bswap w a g) :=
  Laws.FirstWord.firstQ rfl rfl (by decide) (by decide) (by decide) (Scalar.code_lt a) (by decide) (Width.code_lt w)
theorem Laws.FirstWord.addi (a : Scalar) (imm : BitVec 12) : Laws.FirstWord.Statement (.addi a imm) :=
  Laws.FirstWord.first0 rfl rfl (by decide) (by decide) (by decide) (Scalar.code_lt a) (Nat.lt_of_lt_of_le imm.isLt (by decide))
theorem Laws.FirstWord.andi (a : Scalar) (imm : BitVec 12) : Laws.FirstWord.Statement (.andi a imm) :=
  Laws.FirstWord.first0 rfl rfl (by decide) (by decide) (by decide) (Scalar.code_lt a) (Nat.lt_of_lt_of_le imm.isLt (by decide))
theorem Laws.FirstWord.ori (a : Scalar) (imm : BitVec 12) : Laws.FirstWord.Statement (.ori a imm) :=
  Laws.FirstWord.first0 rfl rfl (by decide) (by decide) (by decide) (Scalar.code_lt a) (Nat.lt_of_lt_of_le imm.isLt (by decide))
theorem Laws.FirstWord.xori (a : Scalar) (imm : BitVec 12) : Laws.FirstWord.Statement (.xori a imm) :=
  Laws.FirstWord.first0 rfl rfl (by decide) (by decide) (by decide) (Scalar.code_lt a) (Nat.lt_of_lt_of_le imm.isLt (by decide))
theorem Laws.FirstWord.shli (a : Scalar) (imm : BitVec 6) : Laws.FirstWord.Statement (.shli a imm) :=
  Laws.FirstWord.first0 rfl rfl (by decide) (by decide) (by decide) (Scalar.code_lt a) (Nat.lt_of_lt_of_le imm.isLt (by decide))
theorem Laws.FirstWord.shri (a : Scalar) (imm : BitVec 6) : Laws.FirstWord.Statement (.shri a imm) :=
  Laws.FirstWord.first0 rfl rfl (by decide) (by decide) (by decide) (Scalar.code_lt a) (Nat.lt_of_lt_of_le imm.isLt (by decide))
theorem Laws.FirstWord.sari (a : Scalar) (imm : BitVec 6) : Laws.FirstWord.Statement (.sari a imm) :=
  Laws.FirstWord.first0 rfl rfl (by decide) (by decide) (by decide) (Scalar.code_lt a) (Nat.lt_of_lt_of_le imm.isLt (by decide))
theorem Laws.FirstWord.li (imm : BitVec 12) : Laws.FirstWord.Statement (.li imm) :=
  Laws.FirstWord.first0 rfl rfl (by decide) (by decide) (by decide) (by decide) (Nat.lt_of_lt_of_le imm.isLt (by decide))
theorem Laws.FirstWord.lit (v : W64) : Laws.FirstWord.Statement (.lit v) :=
  Laws.FirstWord.first0 rfl rfl (by decide) (by decide) (by decide) (by decide) (by decide)
theorem Laws.FirstWord.keep (d : Fin 16) (a : Scalar) : Laws.FirstWord.Statement (.keep d a) :=
  Laws.FirstWord.firstT rfl rfl (by decide) (by decide) (by decide) (by have := d.isLt; omega) (Scalar.code_lt a) (by decide)
theorem Laws.FirstWord.dup (a : Scalar) (g : Guard) : Laws.FirstWord.Statement (.dup a g) :=
  Laws.FirstWord.firstQ rfl rfl (by decide) (by decide) (by decide) (Scalar.code_lt a) (by decide) (by decide)
theorem Laws.FirstWord.lea (w : Width) (a b : Scalar) (g : Guard) : Laws.FirstWord.Statement (.lea w a b g) :=
  Laws.FirstWord.firstQ rfl rfl (by decide) (by decide) (by decide) (Scalar.code_lt a) (Scalar.code_lt b) (Width.code_lt w)
theorem Laws.FirstWord.fadd (a b : Scalar) (g : Guard) : Laws.FirstWord.Statement (.fadd a b g) :=
  Laws.FirstWord.firstQ rfl rfl (by decide) (by decide) (by decide) (Scalar.code_lt a) (Scalar.code_lt b) (by decide)
theorem Laws.FirstWord.fsub (a b : Scalar) (g : Guard) : Laws.FirstWord.Statement (.fsub a b g) :=
  Laws.FirstWord.firstQ rfl rfl (by decide) (by decide) (by decide) (Scalar.code_lt a) (Scalar.code_lt b) (by decide)
theorem Laws.FirstWord.fmul (a b : Scalar) (g : Guard) : Laws.FirstWord.Statement (.fmul a b g) :=
  Laws.FirstWord.firstQ rfl rfl (by decide) (by decide) (by decide) (Scalar.code_lt a) (Scalar.code_lt b) (by decide)
theorem Laws.FirstWord.fdiv (a b : Scalar) (g : Guard) : Laws.FirstWord.Statement (.fdiv a b g) :=
  Laws.FirstWord.firstQ rfl rfl (by decide) (by decide) (by decide) (Scalar.code_lt a) (Scalar.code_lt b) (by decide)
theorem Laws.FirstWord.fmin (a b : Scalar) (g : Guard) : Laws.FirstWord.Statement (.fmin a b g) :=
  Laws.FirstWord.firstQ rfl rfl (by decide) (by decide) (by decide) (Scalar.code_lt a) (Scalar.code_lt b) (by decide)
theorem Laws.FirstWord.fmax (a b : Scalar) (g : Guard) : Laws.FirstWord.Statement (.fmax a b g) :=
  Laws.FirstWord.firstQ rfl rfl (by decide) (by decide) (by decide) (Scalar.code_lt a) (Scalar.code_lt b) (by decide)
theorem Laws.FirstWord.fabs (a : Scalar) (g : Guard) : Laws.FirstWord.Statement (.fabs a g) :=
  Laws.FirstWord.firstQ rfl rfl (by decide) (by decide) (by decide) (Scalar.code_lt a) (by decide) (by decide)
theorem Laws.FirstWord.fsqrt (a : Scalar) (g : Guard) : Laws.FirstWord.Statement (.fsqrt a g) :=
  Laws.FirstWord.firstQ rfl rfl (by decide) (by decide) (by decide) (Scalar.code_lt a) (by decide) (by decide)
theorem Laws.FirstWord.ffma (a b c : Scalar) (dst : Option (Fin 16)) (rnd : Rnd) (sat : Bool) (g : Guard) : Laws.FirstWord.Statement (.ffma a b c dst rnd sat g) :=
  Laws.FirstWord.firstQ rfl rfl (by decide) (by decide) (by decide) (Scalar.code_lt a) (Scalar.code_lt b) (by decide)
theorem Laws.FirstWord.fcvt (kind : CvtKind) (w : Width) (a : Scalar) (dst : Option (Fin 16)) (rnd : Rnd) (sat : Bool) (g : Guard) : Laws.FirstWord.Statement (.fcvt kind w a dst rnd sat g) :=
  Laws.FirstWord.firstQ rfl rfl (by decide) (by decide) (by decide) (Scalar.code_lt a) (by decide) (Width.code_lt w)
theorem Laws.FirstWord.pset (cond : Cond) (w : Width) (a b : Scalar) (dp : Fin 8) (g : Guard) : Laws.FirstWord.Statement (.pset cond w a b dp g) :=
  Laws.FirstWord.firstQ rfl rfl (by decide) (by decide) (by decide) (Scalar.code_lt a) (Scalar.code_lt b) (Width.code_lt w)
theorem Laws.FirstWord.psetf (cond : Cond) (a b : Scalar) (dp : Fin 8) (g : Guard) : Laws.FirstWord.Statement (.psetf cond a b dp g) :=
  Laws.FirstWord.firstQ rfl rfl (by decide) (by decide) (by decide) (Scalar.code_lt a) (Scalar.code_lt b) (by decide)
theorem Laws.FirstWord.pand (d a b : Fin 8) : Laws.FirstWord.Statement (.pand d a b) :=
  Laws.FirstWord.firstT rfl rfl (by decide) (by decide) (by decide) (Nat.lt_of_lt_of_le d.isLt (by decide)) (Nat.lt_of_lt_of_le a.isLt (by decide)) (Nat.lt_of_lt_of_le b.isLt (by decide))
theorem Laws.FirstWord.por (d a b : Fin 8) : Laws.FirstWord.Statement (.por d a b) :=
  Laws.FirstWord.firstT rfl rfl (by decide) (by decide) (by decide) (Nat.lt_of_lt_of_le d.isLt (by decide)) (Nat.lt_of_lt_of_le a.isLt (by decide)) (Nat.lt_of_lt_of_le b.isLt (by decide))
theorem Laws.FirstWord.pxor (d a b : Fin 8) : Laws.FirstWord.Statement (.pxor d a b) :=
  Laws.FirstWord.firstT rfl rfl (by decide) (by decide) (by decide) (Nat.lt_of_lt_of_le d.isLt (by decide)) (Nat.lt_of_lt_of_le a.isLt (by decide)) (Nat.lt_of_lt_of_le b.isLt (by decide))
theorem Laws.FirstWord.pnot (d a : Fin 8) : Laws.FirstWord.Statement (.pnot d a) :=
  Laws.FirstWord.firstT rfl rfl (by decide) (by decide) (by decide) (Nat.lt_of_lt_of_le d.isLt (by decide)) (Nat.lt_of_lt_of_le a.isLt (by decide)) (by decide)
theorem Laws.FirstWord.sel (a b : Scalar) (g : Guard) : Laws.FirstWord.Statement (.sel a b g) :=
  Laws.FirstWord.firstQ rfl rfl (by decide) (by decide) (by decide) (Scalar.code_lt a) (Scalar.code_lt b) (by decide)
theorem Laws.FirstWord.br (p : Fin 8) (off : BitVec 18) : Laws.FirstWord.Statement (.br p off) :=
  Laws.FirstWord.firstB (by decide) (Nat.lt_of_lt_of_le off.isLt (by decide))
theorem Laws.FirstWord.bp (p : Fin 8) (off : BitVec 18) : Laws.FirstWord.Statement (.bp p off) :=
  Laws.FirstWord.firstB (by decide) (Nat.lt_of_lt_of_le off.isLt (by decide))
theorem Laws.FirstWord.call (p : Fin 8) (off : BitVec 18) : Laws.FirstWord.Statement (.call p off) :=
  Laws.FirstWord.firstB (by decide) (Nat.lt_of_lt_of_le off.isLt (by decide))
theorem Laws.FirstWord.ret (p : Fin 8) : Laws.FirstWord.Statement (.ret p) :=
  Laws.FirstWord.firstB (by decide) (by decide)
theorem Laws.FirstWord.loop (p : Fin 8) (off : BitVec 18) : Laws.FirstWord.Statement (.loop p off) :=
  Laws.FirstWord.firstB (by decide) (Nat.lt_of_lt_of_le off.isLt (by decide))
theorem Laws.FirstWord.jmpx (a : Scalar) (g : Guard) : Laws.FirstWord.Statement (.jmpx a g) :=
  Laws.FirstWord.firstQ rfl rfl (by decide) (by decide) (by decide) (Scalar.code_lt a) (by decide) (by decide)
theorem Laws.FirstWord.ld (w : Width) (a : Scalar) (g : Guard) : Laws.FirstWord.Statement (.ld w a g) :=
  Laws.FirstWord.firstQ rfl rfl (by decide) (by decide) (by decide) (Scalar.code_lt a) (by decide) (Width.code_lt w)
theorem Laws.FirstWord.st (w : Width) (a b : Scalar) (g : Guard) : Laws.FirstWord.Statement (.st w a b g) :=
  Laws.FirstWord.firstQ rfl rfl (by decide) (by decide) (by decide) (Scalar.code_lt a) (Scalar.code_lt b) (Width.code_lt w)
theorem Laws.FirstWord.ldx (w : Width) (a b : Scalar) (disp : W32) (sx : Bool) (dst : Option (Fin 16)) (g : Guard) : Laws.FirstWord.Statement (.ldx w a b disp sx dst g) :=
  Laws.FirstWord.firstQ rfl rfl (by decide) (by decide) (by decide) (Scalar.code_lt a) (Scalar.code_lt b) (Width.code_lt w)
theorem Laws.FirstWord.stx (w : Width) (a b c : Scalar) (disp : W32) (g : Guard) : Laws.FirstWord.Statement (.stx w a b c disp g) :=
  Laws.FirstWord.firstQ rfl rfl (by decide) (by decide) (by decide) (Scalar.code_lt a) (Scalar.code_lt b) (Width.code_lt w)
theorem Laws.FirstWord.tfree (d : TileSel) : Laws.FirstWord.Statement (.tfree d) :=
  Laws.FirstWord.firstT rfl rfl (by decide) (by decide) (by decide) (TileSel.code_lt d) (by decide) (by decide)
theorem Laws.FirstWord.tstat (a : TileSel) (hi : Bool) : Laws.FirstWord.Statement (.tstat a hi) :=
  Laws.FirstWord.firstT rfl rfl (by decide) (by decide) (by decide) (by decide) (TileSel.code_lt a) (by have := ofBool_lt hi; omega)
theorem Laws.FirstWord.tzero (d : TileSel) : Laws.FirstWord.Statement (.tzero d) :=
  Laws.FirstWord.firstT rfl rfl (by decide) (by decide) (by decide) (TileSel.code_lt d) (by decide) (by decide)
theorem Laws.FirstWord.tdef (d : TileSel) (loc0 loc1 pitch : PWord) (rows : BitVec 8) (cols : BitVec 11) (fmt : Fin 16) (bar : Fin 9) (glob : Bool) : Laws.FirstWord.Statement (.tdef d loc0 loc1 pitch rows cols fmt bar glob) :=
  Laws.FirstWord.firstT rfl rfl (by decide) (by decide) (by decide) (TileSel.code_lt d) (by decide) (by decide)
theorem Laws.FirstWord.tview (d a : TileSel) (row0 : BitVec 7) (col0 : BitVec 10) (rows : BitVec 8) (cols : BitVec 11) : Laws.FirstWord.Statement (.tview d a row0 col0 rows cols) :=
  Laws.FirstWord.firstT rfl rfl (by decide) (by decide) (by decide) (TileSel.code_lt d) (TileSel.code_lt a) (by decide)
theorem Laws.FirstWord.tcopy (to_ from_ : TileSel) (lu : Bool) : Laws.FirstWord.Statement (.tcopy to_ from_ lu) :=
  Laws.FirstWord.firstT rfl rfl (by decide) (by decide) (by decide) (TileSel.code_lt to_) (TileSel.code_lt from_) (by have := ofBool_lt lu; omega)
theorem Laws.FirstWord.tfetch (c : CopyArgs) : Laws.FirstWord.Statement (.tfetch c) :=
  Laws.FirstWord.firstT rfl rfl (by decide) (by decide) (by decide) (TileSel.code_lt c.tile) (GForm.code_lt c.gf) (by have := ofBool_lt c.lu; have := GForm.gm_lt c.gf; omega)
theorem Laws.FirstWord.twrite (c : CopyArgs) : Laws.FirstWord.Statement (.twrite c) :=
  Laws.FirstWord.firstT rfl rfl (by decide) (by decide) (by decide) (GForm.code_lt c.gf) (TileSel.code_lt c.tile) (by have := ofBool_lt c.lu; have := GForm.gm_lt c.gf; omega)
theorem Laws.FirstWord.tgath (c : CopyArgs) (ix : TileSel) : Laws.FirstWord.Statement (.tgath c ix) :=
  Laws.FirstWord.firstT rfl rfl (by decide) (by decide) (by decide) (TileSel.code_lt c.tile) (GForm.code_lt c.gf) (by have := ofBool_lt c.lu; have := GForm.gm_lt c.gf; omega)
theorem Laws.FirstWord.tscat (c : CopyArgs) (ix : TileSel) : Laws.FirstWord.Statement (.tscat c ix) :=
  Laws.FirstWord.firstT rfl rfl (by decide) (by decide) (by decide) (GForm.code_lt c.gf) (TileSel.code_lt c.tile) (by have := ofBool_lt c.lu; have := GForm.gm_lt c.gf; omega)
theorem Laws.FirstWord.rdef (d : Fin 4) (first : Fin 28) (count : Fin 9) : Laws.FirstWord.Statement (.rdef d first count) :=
  Laws.FirstWord.firstT rfl rfl (by decide) (by decide) (by decide) (Nat.lt_of_lt_of_le d.isLt (by decide)) (Nat.lt_of_lt_of_le first.isLt (by decide)) (Nat.lt_of_lt_of_le count.isLt (by decide))
theorem Laws.FirstWord.radv (d : Fin 4) (cons : Bool) (step : Fin 64) : Laws.FirstWord.Statement (.radv d cons step) :=
  Laws.FirstWord.firstT rfl rfl (by decide) (by decide) (by decide) (Nat.lt_of_lt_of_le d.isLt (by decide)) (by have := ofBool_lt cons; omega) (Nat.lt_of_lt_of_le step.isLt (by decide))
theorem Laws.FirstWord.rwait (d : Fin 4) (cons : Bool) (k : Fin 8) : Laws.FirstWord.Statement (.rwait d cons k) :=
  Laws.FirstWord.firstT rfl rfl (by decide) (by decide) (by decide) (Nat.lt_of_lt_of_le d.isLt (by decide)) (by have := ofBool_lt cons; omega) (Nat.lt_of_lt_of_le k.isLt (by decide))
theorem Laws.FirstWord.binit (d : Fin 8) (a : Scalar) : Laws.FirstWord.Statement (.binit d a) :=
  Laws.FirstWord.firstT rfl rfl (by decide) (by decide) (by decide) (Nat.lt_of_lt_of_le d.isLt (by decide)) (Scalar.code_lt a) (by decide)
theorem Laws.FirstWord.bexp (d : Fin 8) (a : Scalar) : Laws.FirstWord.Statement (.bexp d a) :=
  Laws.FirstWord.firstT rfl rfl (by decide) (by decide) (by decide) (Nat.lt_of_lt_of_le d.isLt (by decide)) (Scalar.code_lt a) (by decide)
theorem Laws.FirstWord.bwait (d : Fin 8) (a : Scalar) (b : Bool) : Laws.FirstWord.Statement (.bwait d a b) :=
  Laws.FirstWord.firstT rfl rfl (by decide) (by decide) (by decide) (Nat.lt_of_lt_of_le d.isLt (by decide)) (Scalar.code_lt a) (by have := ofBool_lt b; omega)
theorem Laws.FirstWord.bstat (d : Fin 8) (hi : Bool) : Laws.FirstWord.Statement (.bstat d hi) :=
  Laws.FirstWord.firstT rfl rfl (by decide) (by decide) (by decide) (Nat.lt_of_lt_of_le d.isLt (by decide)) (by decide) (by have := ofBool_lt hi; omega)
theorem Laws.FirstWord.mclr (acc : Fin 4) (sr : SemiRing) : Laws.FirstWord.Statement (.mclr acc sr) :=
  Laws.FirstWord.firstT rfl rfl (by decide) (by decide) (by decide) (by have := acc.isLt; omega) (by decide) (Nat.lt_trans (SemiRing.code_lt sr) (by decide))
theorem Laws.FirstWord.mlda (a : TileSel) (lu : Bool) : Laws.FirstWord.Statement (.mlda a lu) :=
  Laws.FirstWord.firstT rfl rfl (by decide) (by decide) (by decide) (by decide) (TileSel.code_lt a) (by have := ofBool_lt lu; omega)
theorem Laws.FirstWord.mldb (a : TileSel) (rl lu : Bool) : Laws.FirstWord.Statement (.mldb a rl lu) :=
  Laws.FirstWord.firstT rfl rfl (by decide) (by decide) (by decide) (by decide) (TileSel.code_lt a) (by have := ofBool_lt rl; have := ofBool_lt lu; omega)
theorem Laws.FirstWord.mtr (a : TileSel) (lat lu : Bool) : Laws.FirstWord.Statement (.mtr a lat lu) :=
  Laws.FirstWord.firstT rfl rfl (by decide) (by decide) (by decide) (by decide) (TileSel.code_lt a) (by have := ofBool_lt lat; have := ofBool_lt lu; omega)
theorem Laws.FirstWord.mrelay (a b : Scalar) : Laws.FirstWord.Statement (.mrelay a b) :=
  Laws.FirstWord.firstT rfl rfl (by decide) (by decide) (by decide) (by decide) (Scalar.code_lt a) (Scalar.code_lt b)
theorem Laws.FirstWord.mma (acc : Fin 4) (a : OpA) (b : OpB) (sr : SemiRing) (lasta lastb : Bool) : Laws.FirstWord.Statement (.mma acc a b sr lasta lastb) :=
  Laws.FirstWord.firstT rfl rfl (by decide) (by decide) (by decide) (by have := acc.isLt; omega) (OpA.code_lt a) (OpB.code_lt b)
theorem Laws.FirstWord.mmas (acc : Fin 4) (a : OpA) (b : OpB) (sa sb : Option TileSel) (sr : SemiRing) (lasta lastb : Bool) : Laws.FirstWord.Statement (.mmas acc a b sa sb sr lasta lastb) :=
  Laws.FirstWord.firstT rfl rfl (by decide) (by decide) (by decide) (by have := acc.isLt; omega) (OpA.code_lt a) (OpB.code_lt b)
theorem Laws.FirstWord.macc (acc : Fin 4) (a : OpC) (sr : SemiRing) (lasta : Bool) : Laws.FirstWord.Statement (.macc acc a sr lasta) :=
  Laws.FirstWord.firstT rfl rfl (by decide) (by decide) (by decide) (by have := acc.isLt; omega) (OpC.code_lt a) (by decide)
theorem Laws.FirstWord.mst (acc : Fin 4) (to_ : TileSel) (row0 col0 : BitVec 7) (clr sat : Bool) (rnd : Rnd) : Laws.FirstWord.Statement (.mst acc to_ row0 col0 clr sat rnd) :=
  Laws.FirstWord.firstT rfl rfl (by decide) (by decide) (by decide) (by have := acc.isLt; omega) (TileSel.code_lt to_) (by decide)
theorem Laws.FirstWord.vadd (d a b : TileSel) (e : VExt) : Laws.FirstWord.Statement (.vadd d a b e) :=
  Laws.FirstWord.firstT rfl rfl (by decide) (by decide) (by decide) (TileSel.code_lt d) (TileSel.code_lt a) (TileSel.code_lt b)
theorem Laws.FirstWord.vsub (d a b : TileSel) (e : VExt) : Laws.FirstWord.Statement (.vsub d a b e) :=
  Laws.FirstWord.firstT rfl rfl (by decide) (by decide) (by decide) (TileSel.code_lt d) (TileSel.code_lt a) (TileSel.code_lt b)
theorem Laws.FirstWord.vmul (d a b : TileSel) (e : VExt) : Laws.FirstWord.Statement (.vmul d a b e) :=
  Laws.FirstWord.firstT rfl rfl (by decide) (by decide) (by decide) (TileSel.code_lt d) (TileSel.code_lt a) (TileSel.code_lt b)
theorem Laws.FirstWord.vdiv (d a b : TileSel) (e : VExt) : Laws.FirstWord.Statement (.vdiv d a b e) :=
  Laws.FirstWord.firstT rfl rfl (by decide) (by decide) (by decide) (TileSel.code_lt d) (TileSel.code_lt a) (TileSel.code_lt b)
theorem Laws.FirstWord.vmin (d a b : TileSel) (e : VExt) : Laws.FirstWord.Statement (.vmin d a b e) :=
  Laws.FirstWord.firstT rfl rfl (by decide) (by decide) (by decide) (TileSel.code_lt d) (TileSel.code_lt a) (TileSel.code_lt b)
theorem Laws.FirstWord.vmax (d a b : TileSel) (e : VExt) : Laws.FirstWord.Statement (.vmax d a b e) :=
  Laws.FirstWord.firstT rfl rfl (by decide) (by decide) (by decide) (TileSel.code_lt d) (TileSel.code_lt a) (TileSel.code_lt b)
theorem Laws.FirstWord.vfma (d a b : TileSel) (e : VExt) : Laws.FirstWord.Statement (.vfma d a b e) :=
  Laws.FirstWord.firstT rfl rfl (by decide) (by decide) (by decide) (TileSel.code_lt d) (TileSel.code_lt a) (TileSel.code_lt b)
theorem Laws.FirstWord.vabs (d a : TileSel) (e : VExt) : Laws.FirstWord.Statement (.vabs d a e) :=
  Laws.FirstWord.firstT rfl rfl (by decide) (by decide) (by decide) (TileSel.code_lt d) (TileSel.code_lt a) (by decide)
theorem Laws.FirstWord.vneg (d a : TileSel) (e : VExt) : Laws.FirstWord.Statement (.vneg d a e) :=
  Laws.FirstWord.firstT rfl rfl (by decide) (by decide) (by decide) (TileSel.code_lt d) (TileSel.code_lt a) (by decide)
theorem Laws.FirstWord.vexp (d a : TileSel) (e : VExt) : Laws.FirstWord.Statement (.vexp d a e) :=
  Laws.FirstWord.firstT rfl rfl (by decide) (by decide) (by decide) (TileSel.code_lt d) (TileSel.code_lt a) (by decide)
theorem Laws.FirstWord.vexp2 (d a : TileSel) (e : VExt) : Laws.FirstWord.Statement (.vexp2 d a e) :=
  Laws.FirstWord.firstT rfl rfl (by decide) (by decide) (by decide) (TileSel.code_lt d) (TileSel.code_lt a) (by decide)
theorem Laws.FirstWord.vlog (d a : TileSel) (e : VExt) : Laws.FirstWord.Statement (.vlog d a e) :=
  Laws.FirstWord.firstT rfl rfl (by decide) (by decide) (by decide) (TileSel.code_lt d) (TileSel.code_lt a) (by decide)
theorem Laws.FirstWord.vrcp (d a : TileSel) (e : VExt) : Laws.FirstWord.Statement (.vrcp d a e) :=
  Laws.FirstWord.firstT rfl rfl (by decide) (by decide) (by decide) (TileSel.code_lt d) (TileSel.code_lt a) (by decide)
theorem Laws.FirstWord.vrsqrt (d a : TileSel) (e : VExt) : Laws.FirstWord.Statement (.vrsqrt d a e) :=
  Laws.FirstWord.firstT rfl rfl (by decide) (by decide) (by decide) (TileSel.code_lt d) (TileSel.code_lt a) (by decide)
theorem Laws.FirstWord.vsqrt (d a : TileSel) (e : VExt) : Laws.FirstWord.Statement (.vsqrt d a e) :=
  Laws.FirstWord.firstT rfl rfl (by decide) (by decide) (by decide) (TileSel.code_lt d) (TileSel.code_lt a) (by decide)
theorem Laws.FirstWord.vtanh (d a : TileSel) (e : VExt) : Laws.FirstWord.Statement (.vtanh d a e) :=
  Laws.FirstWord.firstT rfl rfl (by decide) (by decide) (by decide) (TileSel.code_lt d) (TileSel.code_lt a) (by decide)
theorem Laws.FirstWord.vsigm (d a : TileSel) (e : VExt) : Laws.FirstWord.Statement (.vsigm d a e) :=
  Laws.FirstWord.firstT rfl rfl (by decide) (by decide) (by decide) (TileSel.code_lt d) (TileSel.code_lt a) (by decide)
theorem Laws.FirstWord.verf (d a : TileSel) (e : VExt) : Laws.FirstWord.Statement (.verf d a e) :=
  Laws.FirstWord.firstT rfl rfl (by decide) (by decide) (by decide) (TileSel.code_lt d) (TileSel.code_lt a) (by decide)
theorem Laws.FirstWord.vcmp (d a b : TileSel) (e : VExt) : Laws.FirstWord.Statement (.vcmp d a b e) :=
  Laws.FirstWord.firstT rfl rfl (by decide) (by decide) (by decide) (TileSel.code_lt d) (TileSel.code_lt a) (TileSel.code_lt b)
theorem Laws.FirstWord.vsel (d a b : TileSel) (e : VExt) : Laws.FirstWord.Statement (.vsel d a b e) :=
  Laws.FirstWord.firstT rfl rfl (by decide) (by decide) (by decide) (TileSel.code_lt d) (TileSel.code_lt a) (TileSel.code_lt b)
theorem Laws.FirstWord.vrsum (d a : TileSel) (e : VExt) : Laws.FirstWord.Statement (.vrsum d a e) :=
  Laws.FirstWord.firstT rfl rfl (by decide) (by decide) (by decide) (TileSel.code_lt d) (TileSel.code_lt a) (by decide)
theorem Laws.FirstWord.vrmax (d a : TileSel) (e : VExt) : Laws.FirstWord.Statement (.vrmax d a e) :=
  Laws.FirstWord.firstT rfl rfl (by decide) (by decide) (by decide) (TileSel.code_lt d) (TileSel.code_lt a) (by decide)
theorem Laws.FirstWord.vrmin (d a : TileSel) (e : VExt) : Laws.FirstWord.Statement (.vrmin d a e) :=
  Laws.FirstWord.firstT rfl rfl (by decide) (by decide) (by decide) (TileSel.code_lt d) (TileSel.code_lt a) (by decide)
theorem Laws.FirstWord.vcsum (d a : TileSel) (e : VExt) : Laws.FirstWord.Statement (.vcsum d a e) :=
  Laws.FirstWord.firstT rfl rfl (by decide) (by decide) (by decide) (TileSel.code_lt d) (TileSel.code_lt a) (by decide)
theorem Laws.FirstWord.vscan (d a : TileSel) (e : VExt) : Laws.FirstWord.Statement (.vscan d a e) :=
  Laws.FirstWord.firstT rfl rfl (by decide) (by decide) (by decide) (TileSel.code_lt d) (TileSel.code_lt a) (by decide)
theorem Laws.FirstWord.vcvt (d a : TileSel) (e : VExt) : Laws.FirstWord.Statement (.vcvt d a e) :=
  Laws.FirstWord.firstT rfl rfl (by decide) (by decide) (by decide) (TileSel.code_lt d) (TileSel.code_lt a) (by decide)
theorem Laws.FirstWord.vquant (d a : TileSel) (e : VExt) : Laws.FirstWord.Statement (.vquant d a e) :=
  Laws.FirstWord.firstT rfl rfl (by decide) (by decide) (by decide) (TileSel.code_lt d) (TileSel.code_lt a) (by decide)
theorem Laws.FirstWord.vdeq (d a : TileSel) (e : VExt) : Laws.FirstWord.Statement (.vdeq d a e) :=
  Laws.FirstWord.firstT rfl rfl (by decide) (by decide) (by decide) (TileSel.code_lt d) (TileSel.code_lt a) (by decide)
theorem Laws.FirstWord.vscale (d a : TileSel) (e : VExt) : Laws.FirstWord.Statement (.vscale d a e) :=
  Laws.FirstWord.firstT rfl rfl (by decide) (by decide) (by decide) (TileSel.code_lt d) (TileSel.code_lt a) (by decide)
theorem Laws.FirstWord.vtrans (d a : TileSel) (e : VExt) : Laws.FirstWord.Statement (.vtrans d a e) :=
  Laws.FirstWord.firstT rfl rfl (by decide) (by decide) (by decide) (TileSel.code_lt d) (TileSel.code_lt a) (by decide)
theorem Laws.FirstWord.vperm (d a b : TileSel) (e : VExt) : Laws.FirstWord.Statement (.vperm d a b e) :=
  Laws.FirstWord.firstT rfl rfl (by decide) (by decide) (by decide) (TileSel.code_lt d) (TileSel.code_lt a) (TileSel.code_lt b)
theorem Laws.FirstWord.vgath (d a b : TileSel) (e : VExt) : Laws.FirstWord.Statement (.vgath d a b e) :=
  Laws.FirstWord.firstT rfl rfl (by decide) (by decide) (by decide) (TileSel.code_lt d) (TileSel.code_lt a) (TileSel.code_lt b)
theorem Laws.FirstWord.vbcast (d a : TileSel) (e : VExt) : Laws.FirstWord.Statement (.vbcast d a e) :=
  Laws.FirstWord.firstT rfl rfl (by decide) (by decide) (by decide) (TileSel.code_lt d) (TileSel.code_lt a) (by decide)
theorem Laws.FirstWord.vpack (d a b : TileSel) (e : VExt) : Laws.FirstWord.Statement (.vpack d a b e) :=
  Laws.FirstWord.firstT rfl rfl (by decide) (by decide) (by decide) (TileSel.code_lt d) (TileSel.code_lt a) (TileSel.code_lt b)
theorem Laws.FirstWord.vunpk (d a : TileSel) (e : VExt) : Laws.FirstWord.Statement (.vunpk d a e) :=
  Laws.FirstWord.firstT rfl rfl (by decide) (by decide) (by decide) (TileSel.code_lt d) (TileSel.code_lt a) (by decide)
theorem Laws.FirstWord.viadd (d a b : TileSel) (e : VExt) : Laws.FirstWord.Statement (.viadd d a b e) :=
  Laws.FirstWord.firstT rfl rfl (by decide) (by decide) (by decide) (TileSel.code_lt d) (TileSel.code_lt a) (TileSel.code_lt b)
theorem Laws.FirstWord.visub (d a b : TileSel) (e : VExt) : Laws.FirstWord.Statement (.visub d a b e) :=
  Laws.FirstWord.firstT rfl rfl (by decide) (by decide) (by decide) (TileSel.code_lt d) (TileSel.code_lt a) (TileSel.code_lt b)
theorem Laws.FirstWord.vimul (d a b : TileSel) (e : VExt) : Laws.FirstWord.Statement (.vimul d a b e) :=
  Laws.FirstWord.firstT rfl rfl (by decide) (by decide) (by decide) (TileSel.code_lt d) (TileSel.code_lt a) (TileSel.code_lt b)
theorem Laws.FirstWord.vand (d a b : TileSel) (e : VExt) : Laws.FirstWord.Statement (.vand d a b e) :=
  Laws.FirstWord.firstT rfl rfl (by decide) (by decide) (by decide) (TileSel.code_lt d) (TileSel.code_lt a) (TileSel.code_lt b)
theorem Laws.FirstWord.vor (d a b : TileSel) (e : VExt) : Laws.FirstWord.Statement (.vor d a b e) :=
  Laws.FirstWord.firstT rfl rfl (by decide) (by decide) (by decide) (TileSel.code_lt d) (TileSel.code_lt a) (TileSel.code_lt b)
theorem Laws.FirstWord.vxor (d a b : TileSel) (e : VExt) : Laws.FirstWord.Statement (.vxor d a b e) :=
  Laws.FirstWord.firstT rfl rfl (by decide) (by decide) (by decide) (TileSel.code_lt d) (TileSel.code_lt a) (TileSel.code_lt b)
theorem Laws.FirstWord.vshl (d a b : TileSel) (e : VExt) : Laws.FirstWord.Statement (.vshl d a b e) :=
  Laws.FirstWord.firstT rfl rfl (by decide) (by decide) (by decide) (TileSel.code_lt d) (TileSel.code_lt a) (TileSel.code_lt b)
theorem Laws.FirstWord.vshr (d a b : TileSel) (e : VExt) : Laws.FirstWord.Statement (.vshr d a b e) :=
  Laws.FirstWord.firstT rfl rfl (by decide) (by decide) (by decide) (TileSel.code_lt d) (TileSel.code_lt a) (TileSel.code_lt b)
theorem Laws.FirstWord.vsmx (d a : TileSel) (e : VExt) : Laws.FirstWord.Statement (.vsmx d a e) :=
  Laws.FirstWord.firstT rfl rfl (by decide) (by decide) (by decide) (TileSel.code_lt d) (TileSel.code_lt a) (by decide)
theorem Laws.FirstWord.vlut (d a b : TileSel) (e : VExt) : Laws.FirstWord.Statement (.vlut d a b e) :=
  Laws.FirstWord.firstT rfl rfl (by decide) (by decide) (by decide) (TileSel.code_lt d) (TileSel.code_lt a) (TileSel.code_lt b)
theorem Laws.FirstWord.vfill (d : TileSel) (e : VExt) : Laws.FirstWord.Statement (.vfill d e) :=
  Laws.FirstWord.firstT rfl rfl (by decide) (by decide) (by decide) (TileSel.code_lt d) (by decide) (by decide)
theorem Laws.FirstWord.aadd (a b : Scalar) (dst : Option (Fin 16)) (sem : Sem) (sc : Scope) (nr : Bool) (disp : W32) (g : Guard) : Laws.FirstWord.Statement (.aadd a b dst sem sc nr disp g) :=
  Laws.FirstWord.firstQ rfl rfl (by decide) (by decide) (by decide) (Scalar.code_lt a) (Scalar.code_lt b) (by decide)
theorem Laws.FirstWord.aand (a b : Scalar) (dst : Option (Fin 16)) (sem : Sem) (sc : Scope) (nr : Bool) (disp : W32) (g : Guard) : Laws.FirstWord.Statement (.aand a b dst sem sc nr disp g) :=
  Laws.FirstWord.firstQ rfl rfl (by decide) (by decide) (by decide) (Scalar.code_lt a) (Scalar.code_lt b) (by decide)
theorem Laws.FirstWord.aor (a b : Scalar) (dst : Option (Fin 16)) (sem : Sem) (sc : Scope) (nr : Bool) (disp : W32) (g : Guard) : Laws.FirstWord.Statement (.aor a b dst sem sc nr disp g) :=
  Laws.FirstWord.firstQ rfl rfl (by decide) (by decide) (by decide) (Scalar.code_lt a) (Scalar.code_lt b) (by decide)
theorem Laws.FirstWord.axor (a b : Scalar) (dst : Option (Fin 16)) (sem : Sem) (sc : Scope) (nr : Bool) (disp : W32) (g : Guard) : Laws.FirstWord.Statement (.axor a b dst sem sc nr disp g) :=
  Laws.FirstWord.firstQ rfl rfl (by decide) (by decide) (by decide) (Scalar.code_lt a) (Scalar.code_lt b) (by decide)
theorem Laws.FirstWord.amin (a b : Scalar) (dst : Option (Fin 16)) (sem : Sem) (sc : Scope) (nr : Bool) (disp : W32) (g : Guard) : Laws.FirstWord.Statement (.amin a b dst sem sc nr disp g) :=
  Laws.FirstWord.firstQ rfl rfl (by decide) (by decide) (by decide) (Scalar.code_lt a) (Scalar.code_lt b) (by decide)
theorem Laws.FirstWord.amax (a b : Scalar) (dst : Option (Fin 16)) (sem : Sem) (sc : Scope) (nr : Bool) (disp : W32) (g : Guard) : Laws.FirstWord.Statement (.amax a b dst sem sc nr disp g) :=
  Laws.FirstWord.firstQ rfl rfl (by decide) (by decide) (by decide) (Scalar.code_lt a) (Scalar.code_lt b) (by decide)
theorem Laws.FirstWord.aminu (a b : Scalar) (dst : Option (Fin 16)) (sem : Sem) (sc : Scope) (nr : Bool) (disp : W32) (g : Guard) : Laws.FirstWord.Statement (.aminu a b dst sem sc nr disp g) :=
  Laws.FirstWord.firstQ rfl rfl (by decide) (by decide) (by decide) (Scalar.code_lt a) (Scalar.code_lt b) (by decide)
theorem Laws.FirstWord.amaxu (a b : Scalar) (dst : Option (Fin 16)) (sem : Sem) (sc : Scope) (nr : Bool) (disp : W32) (g : Guard) : Laws.FirstWord.Statement (.amaxu a b dst sem sc nr disp g) :=
  Laws.FirstWord.firstQ rfl rfl (by decide) (by decide) (by decide) (Scalar.code_lt a) (Scalar.code_lt b) (by decide)
theorem Laws.FirstWord.axchg (a b : Scalar) (dst : Option (Fin 16)) (sem : Sem) (sc : Scope) (nr : Bool) (disp : W32) (g : Guard) : Laws.FirstWord.Statement (.axchg a b dst sem sc nr disp g) :=
  Laws.FirstWord.firstQ rfl rfl (by decide) (by decide) (by decide) (Scalar.code_lt a) (Scalar.code_lt b) (by decide)
theorem Laws.FirstWord.acas (a b c : Scalar) (dst : Option (Fin 16)) (sem : Sem) (sc : Scope) (nr : Bool) (disp : W32) (g : Guard) : Laws.FirstWord.Statement (.acas a b c dst sem sc nr disp g) :=
  Laws.FirstWord.firstQ rfl rfl (by decide) (by decide) (by decide) (Scalar.code_lt a) (Scalar.code_lt b) (by decide)
theorem Laws.FirstWord.robj (a : Scalar) (b : Fin 14) (p0 p1 p2 : PWord) (rows : BitVec 8) (cols : BitVec 11) (fmt : Fin 16) (op : RedOp) : Laws.FirstWord.Statement (.robj a b p0 p1 p2 rows cols fmt op) :=
  Laws.FirstWord.firstT rfl rfl (by decide) (by decide) (by decide) (by decide) (Scalar.code_lt a) (Nat.lt_of_lt_of_le b.isLt (by decide))
theorem Laws.FirstWord.ared (a : TileSel) (p0 p1 p2 : PWord) (lu : Bool) : Laws.FirstWord.Statement (.ared a p0 p1 p2 lu) :=
  Laws.FirstWord.firstT rfl rfl (by decide) (by decide) (by decide) (by decide) (TileSel.code_lt a) (by decide)
theorem Laws.FirstWord.fence (acq rel : Bool) (sc : Scope) : Laws.FirstWord.Statement (.fence acq rel sc) :=
  Laws.FirstWord.first0 rfl rfl (by decide) (by decide) (by decide) (by decide) (by have := ofBool_lt acq; have := ofBool_lt rel; have := Scope.code_lt sc; omega)
theorem Laws.FirstWord.balloc (p0 p1 p2 : PWord) (mir com : Bool) : Laws.FirstWord.Statement (.balloc p0 p1 p2 mir com) :=
  Laws.FirstWord.firstT rfl rfl (by decide) (by decide) (by decide) (by decide) (by decide) (by decide)
theorem Laws.FirstWord.bfree (p0 p1 p2 : PWord) : Laws.FirstWord.Statement (.bfree p0 p1 p2) :=
  Laws.FirstWord.firstT rfl rfl (by decide) (by decide) (by decide) (by decide) (by decide) (by decide)
theorem Laws.FirstWord.xmap (p0 p1 p2 : PWord) : Laws.FirstWord.Statement (.xmap p0 p1 p2) :=
  Laws.FirstWord.firstT rfl rfl (by decide) (by decide) (by decide) (by decide) (by decide) (by decide)
theorem Laws.FirstWord.xunmap (p0 p1 p2 : PWord) : Laws.FirstWord.Statement (.xunmap p0 p1 p2) :=
  Laws.FirstWord.firstT rfl rfl (by decide) (by decide) (by decide) (by decide) (by decide) (by decide)
theorem Laws.FirstWord.send (a : Scalar) (x : SendArgs) (g : Guard) : Laws.FirstWord.Statement (.send a x g) :=
  Laws.FirstWord.firstQ rfl rfl (by decide) (by decide) (by decide) (Scalar.code_lt a) (by decide) (by decide)
theorem Laws.FirstWord.sendt (a : Scalar) (x : SendArgs) (g : Guard) : Laws.FirstWord.Statement (.sendt a x g) :=
  Laws.FirstWord.firstQ rfl rfl (by decide) (by decide) (by decide) (Scalar.code_lt a) (by decide) (by decide)
theorem Laws.FirstWord.mcast (x : SendArgs) (g : Guard) : Laws.FirstWord.Statement (.mcast x g) :=
  Laws.FirstWord.firstQ rfl rfl (by decide) (by decide) (by decide) (by decide) (by decide) (by decide)
theorem Laws.FirstWord.callRequest (a : Scalar) (x : SendArgs) (g : Guard) : Laws.FirstWord.Statement (.callRequest a x g) :=
  Laws.FirstWord.firstQ rfl rfl (by decide) (by decide) (by decide) (Scalar.code_lt a) (by decide) (by decide)
theorem Laws.FirstWord.reply (a b : Scalar) (pl : Scalar) (g : Guard) : Laws.FirstWord.Statement (.reply a b pl g) :=
  Laws.FirstWord.firstQ rfl rfl (by decide) (by decide) (by decide) (Scalar.code_lt a) (Scalar.code_lt b) (by decide)
theorem Laws.FirstWord.await (a : Scalar) (b : Fin 8) (g : Guard) : Laws.FirstWord.Statement (.await a b g) :=
  Laws.FirstWord.firstQ rfl rfl (by decide) (by decide) (by decide) (Scalar.code_lt a) (Nat.lt_of_lt_of_le b.isLt (by decide)) (by decide)
theorem Laws.FirstWord.end_ (g : Guard) : Laws.FirstWord.Statement (.end_ g) :=
  Laws.FirstWord.firstQ rfl rfl (by decide) (by decide) (by decide) (by decide) (by decide) (by decide)
theorem Laws.FirstWord.spawn (img arg0 arg1 : PWord) (lnk mon : Bool) : Laws.FirstWord.Statement (.spawn img arg0 arg1 lnk mon) :=
  Laws.FirstWord.firstT rfl rfl (by decide) (by decide) (by decide) (by decide) (by decide) (by decide)
theorem Laws.FirstWord.spawnc (crec arg0 arg1 : PWord) : Laws.FirstWord.Statement (.spawnc crec arg0 arg1) :=
  Laws.FirstWord.firstT rfl rfl (by decide) (by decide) (by decide) (by decide) (by decide) (by decide)
theorem Laws.FirstWord.link (a : Scalar) (g : Guard) : Laws.FirstWord.Statement (.link a g) :=
  Laws.FirstWord.firstQ rfl rfl (by decide) (by decide) (by decide) (Scalar.code_lt a) (by decide) (by decide)
theorem Laws.FirstWord.unlink (a : Scalar) (g : Guard) : Laws.FirstWord.Statement (.unlink a g) :=
  Laws.FirstWord.firstQ rfl rfl (by decide) (by decide) (by decide) (Scalar.code_lt a) (by decide) (by decide)
theorem Laws.FirstWord.monitor (a : Scalar) (g : Guard) : Laws.FirstWord.Statement (.monitor a g) :=
  Laws.FirstWord.firstQ rfl rfl (by decide) (by decide) (by decide) (Scalar.code_lt a) (by decide) (by decide)
theorem Laws.FirstWord.demon (a : Scalar) (g : Guard) : Laws.FirstWord.Statement (.demon a g) :=
  Laws.FirstWord.firstQ rfl rfl (by decide) (by decide) (by decide) (Scalar.code_lt a) (by decide) (by decide)
theorem Laws.FirstWord.exit (a b : Scalar) (g : Guard) : Laws.FirstWord.Statement (.exit a b g) :=
  Laws.FirstWord.firstQ rfl rfl (by decide) (by decide) (by decide) (Scalar.code_lt a) (Scalar.code_lt b) (by decide)
theorem Laws.FirstWord.kill (a : Scalar) (lv : KillLevel) (g : Guard) : Laws.FirstWord.Statement (.kill a lv g) :=
  Laws.FirstWord.firstQ rfl rfl (by decide) (by decide) (by decide) (Scalar.code_lt a) (by decide) (KillLevel.code_lt lv)
theorem Laws.FirstWord.trapx (a : Scalar) (g : Guard) : Laws.FirstWord.Statement (.trapx a g) :=
  Laws.FirstWord.firstQ rfl rfl (by decide) (by decide) (by decide) (Scalar.code_lt a) (by decide) (by decide)
theorem Laws.FirstWord.chmask (a : Scalar) (g : Guard) : Laws.FirstWord.Statement (.chmask a g) :=
  Laws.FirstWord.firstQ rfl rfl (by decide) (by decide) (by decide) (Scalar.code_lt a) (by decide) (by decide)
theorem Laws.FirstWord.prio (a : Scalar) (g : Guard) : Laws.FirstWord.Statement (.prio a g) :=
  Laws.FirstWord.firstQ rfl rfl (by decide) (by decide) (by decide) (Scalar.code_lt a) (by decide) (by decide)
theorem Laws.FirstWord.lookup (a : Scalar) (g : Guard) : Laws.FirstWord.Statement (.lookup a g) :=
  Laws.FirstWord.firstQ rfl rfl (by decide) (by decide) (by decide) (Scalar.code_lt a) (by decide) (by decide)
theorem Laws.FirstWord.reg (a b : Scalar) (g : Guard) : Laws.FirstWord.Statement (.reg a b g) :=
  Laws.FirstWord.firstQ rfl rfl (by decide) (by decide) (by decide) (Scalar.code_lt a) (Scalar.code_lt b) (by decide)
theorem Laws.FirstWord.supStart (crec : PWord) : Laws.FirstWord.Statement (.supStart crec) :=
  Laws.FirstWord.firstT rfl rfl (by decide) (by decide) (by decide) (by decide) (by decide) (by decide)
theorem Laws.FirstWord.supStop (crec : PWord) : Laws.FirstWord.Statement (.supStop crec) :=
  Laws.FirstWord.firstT rfl rfl (by decide) (by decide) (by decide) (by decide) (by decide) (by decide)
theorem Laws.FirstWord.supqName (crec : PWord) : Laws.FirstWord.Statement (.supqName crec) :=
  Laws.FirstWord.firstT rfl rfl (by decide) (by decide) (by decide) (by decide) (by decide) (by decide)
theorem Laws.FirstWord.supqCount (crec : PWord) : Laws.FirstWord.Statement (.supqCount crec) :=
  Laws.FirstWord.firstT rfl rfl (by decide) (by decide) (by decide) (by decide) (by decide) (by decide)
theorem Laws.FirstWord.supqState (crec : PWord) : Laws.FirstWord.Statement (.supqState crec) :=
  Laws.FirstWord.firstT rfl rfl (by decide) (by decide) (by decide) (by decide) (by decide) (by decide)
theorem Laws.FirstWord.sysrd (a : Scalar) (g : Guard) : Laws.FirstWord.Statement (.sysrd a g) :=
  Laws.FirstWord.firstQ rfl rfl (by decide) (by decide) (by decide) (Scalar.code_lt a) (by decide) (by decide)
theorem Laws.FirstWord.syswr (a b : Scalar) (g : Guard) : Laws.FirstWord.Statement (.syswr a b g) :=
  Laws.FirstWord.firstQ rfl rfl (by decide) (by decide) (by decide) (Scalar.code_lt a) (Scalar.code_lt b) (by decide)
theorem Laws.FirstWord.ctrd (a : Scalar) (g : Guard) : Laws.FirstWord.Statement (.ctrd a g) :=
  Laws.FirstWord.firstQ rfl rfl (by decide) (by decide) (by decide) (Scalar.code_lt a) (by decide) (by decide)
theorem Laws.FirstWord.nop : Laws.FirstWord.Statement .nop :=
  Laws.FirstWord.first0 rfl rfl (by decide) (by decide) (by decide) (by decide) (by decide)
theorem Laws.FirstWord.brk (imm : BitVec 12) : Laws.FirstWord.Statement (.brk imm) :=
  Laws.FirstWord.first0 rfl rfl (by decide) (by decide) (by decide) (by decide) (Nat.lt_of_lt_of_le imm.isLt (by decide))
theorem Laws.FirstWord.trap (imm : BitVec 6) : Laws.FirstWord.Statement (.trap imm) :=
  Laws.FirstWord.first0 rfl rfl (by decide) (by decide) (by decide) (by decide) (Nat.lt_of_lt_of_le imm.isLt (by decide))
theorem Laws.FirstWord.dhalt (a : Scalar) (b : Fin 14) (g : Guard) : Laws.FirstWord.Statement (.dhalt a b g) :=
  Laws.FirstWord.firstQ rfl rfl (by decide) (by decide) (by decide) (Scalar.code_lt a) (Nat.lt_of_lt_of_le b.isLt (by decide)) (by decide)
theorem Laws.FirstWord.dstep (a : Scalar) (b : Fin 1) (g : Guard) : Laws.FirstWord.Statement (.dstep a b g) :=
  Laws.FirstWord.firstQ rfl rfl (by decide) (by decide) (by decide) (Scalar.code_lt a) (by decide) (by decide)
theorem Laws.FirstWord.dres (a : Scalar) (g : Guard) : Laws.FirstWord.Statement (.dres a g) :=
  Laws.FirstWord.firstQ rfl rfl (by decide) (by decide) (by decide) (Scalar.code_lt a) (by decide) (by decide)
theorem Laws.FirstWord.drd (a : Scalar) (g : Guard) : Laws.FirstWord.Statement (.drd a g) :=
  Laws.FirstWord.firstQ rfl rfl (by decide) (by decide) (by decide) (Scalar.code_lt a) (by decide) (by decide)
theorem Laws.FirstWord.dwr (a b : Scalar) (g : Guard) : Laws.FirstWord.Statement (.dwr a b g) :=
  Laws.FirstWord.firstQ rfl rfl (by decide) (by decide) (by decide) (Scalar.code_lt a) (Scalar.code_lt b) (by decide)
theorem Laws.FirstWord.dbp (a : Scalar) (ix : Fin 4) (en : Bool) (g : Guard) : Laws.FirstWord.Statement (.dbp a ix en g) :=
  Laws.FirstWord.firstQ rfl rfl (by decide) (by decide) (by decide) (Scalar.code_lt a) (by decide) (by decide)
theorem Laws.FirstWord.dwp (a : Scalar) (ix : Fin 4) (en : Bool) (wk : Fin 4) (len : W32) (g : Guard) : Laws.FirstWord.Statement (.dwp a ix en wk len g) :=
  Laws.FirstWord.firstQ rfl rfl (by decide) (by decide) (by decide) (Scalar.code_lt a) (by decide) (by decide)
theorem Laws.FirstWord.dtrc (a : Scalar) (g : Guard) : Laws.FirstWord.Statement (.dtrc a g) :=
  Laws.FirstWord.firstQ rfl rfl (by decide) (by decide) (by decide) (Scalar.code_lt a) (by decide) (by decide)
theorem Laws.FirstWord.rpwr (a b : Scalar) (g : Guard) : Laws.FirstWord.Statement (.rpwr a b g) :=
  Laws.FirstWord.firstQ rfl rfl (by decide) (by decide) (by decide) (Scalar.code_lt a) (Scalar.code_lt b) (by decide)
theorem Laws.FirstWord.rprd (a : Scalar) (g : Guard) : Laws.FirstWord.Statement (.rprd a g) :=
  Laws.FirstWord.firstQ rfl rfl (by decide) (by decide) (by decide) (Scalar.code_lt a) (by decide) (by decide)
theorem Laws.FirstWord.halt (a : Scalar) (g : Guard) : Laws.FirstWord.Statement (.halt a g) :=
  Laws.FirstWord.firstQ rfl rfl (by decide) (by decide) (by decide) (Scalar.code_lt a) (by decide) (by decide)
theorem Laws.FirstWord.powerOnReset : Laws.FirstWord.Statement .powerOnReset := trivial
theorem Laws.FirstWord.warmReset : Laws.FirstWord.Statement .warmReset := trivial
theorem Laws.FirstWord.bootProgramStart : Laws.FirstWord.Statement .bootProgramStart := trivial
theorem Laws.FirstWord.portalOpen : Laws.FirstWord.Statement .portalOpen := trivial
theorem Laws.FirstWord.thermalTrip : Laws.FirstWord.Statement .thermalTrip := trivial
theorem Laws.FirstWord.throttle : Laws.FirstWord.Statement .throttle := trivial
theorem Laws.FirstWord.registerWrite : Laws.FirstWord.Statement .registerWrite := trivial
theorem Laws.FirstWord.quarantineWrite : Laws.FirstWord.Statement .quarantineWrite := trivial
theorem Laws.FirstWord.dutymodeWrite : Laws.FirstWord.Statement .dutymodeWrite := trivial
theorem Laws.FirstWord.d2dRetrain : Laws.FirstWord.Statement .d2dRetrain := trivial
theorem Laws.FirstWord.hqackWrite : Laws.FirstWord.Statement .hqackWrite := trivial
theorem Laws.FirstWord.hostQueueWrite : Laws.FirstWord.Statement .hostQueueWrite := trivial
theorem Laws.FirstWord.portalSlotComplete : Laws.FirstWord.Statement .portalSlotComplete := trivial
theorem Laws.FirstWord.launch : Laws.FirstWord.Statement .launch := trivial
theorem Laws.FirstWord.load : Laws.FirstWord.Statement .load := trivial
theorem Laws.FirstWord.unload : Laws.FirstWord.Statement .unload := trivial
theorem Laws.FirstWord.attestationRequest : Laws.FirstWord.Statement .attestationRequest := trivial
theorem Laws.FirstWord.dutyAnswer : Laws.FirstWord.Statement .dutyAnswer := trivial
theorem Laws.FirstWord.flitTransmit : Laws.FirstWord.Statement .flitTransmit := trivial
theorem Laws.FirstWord.flitReceive : Laws.FirstWord.Statement .flitReceive := trivial
theorem Laws.FirstWord.nakResend : Laws.FirstWord.Statement .nakResend := trivial
theorem Laws.FirstWord.errorWindowEnd : Laws.FirstWord.Statement .errorWindowEnd := trivial
theorem Laws.FirstWord.retrainComplete : Laws.FirstWord.Statement .retrainComplete := trivial
theorem Laws.FirstWord.fabricTimeout : Laws.FirstWord.Statement .fabricTimeout := trivial
theorem Laws.FirstWord.fabricReply : Laws.FirstWord.Statement .fabricReply := trivial
theorem Laws.FirstWord.stationLinkDown : Laws.FirstWord.Statement .stationLinkDown := trivial
theorem Laws.FirstWord.rd : Laws.FirstWord.Statement .rd := trivial
theorem Laws.FirstWord.wr : Laws.FirstWord.Statement .wr := trivial
theorem Laws.FirstWord.wrm : Laws.FirstWord.Statement .wrm := trivial
theorem Laws.FirstWord.at_ : Laws.FirstWord.Statement .at_ := trivial
theorem Laws.FirstWord.rcContribution : Laws.FirstWord.Statement .rcContribution := trivial
theorem Laws.FirstWord.rcDeclaration : Laws.FirstWord.Statement .rcDeclaration := trivial
theorem Laws.FirstWord.rdr : Laws.FirstWord.Statement .rdr := trivial
theorem Laws.FirstWord.wack : Laws.FirstWord.Statement .wack := trivial
theorem Laws.FirstWord.atr : Laws.FirstWord.Statement .atr := trivial
theorem Laws.FirstWord.rca : Laws.FirstWord.Statement .rca := trivial
theorem Laws.FirstWord.rcRetry : Laws.FirstWord.Statement .rcRetry := trivial
theorem Laws.FirstWord.reductionNotice : Laws.FirstWord.Statement .reductionNotice := trivial
theorem Laws.FirstWord.mirrorAck : Laws.FirstWord.Statement .mirrorAck := trivial
theorem Laws.FirstWord.mirrorForwardTimeout : Laws.FirstWord.Statement .mirrorForwardTimeout := trivial
theorem Laws.FirstWord.scrub : Laws.FirstWord.Statement .scrub := trivial
theorem Laws.FirstWord.epochEnd : Laws.FirstWord.Statement .epochEnd := trivial
theorem Laws.FirstWord.lostScan : Laws.FirstWord.Statement .lostScan := trivial
theorem Laws.FirstWord.migration : Laws.FirstWord.Statement .migration := trivial
theorem Laws.FirstWord.invalidation : Laws.FirstWord.Statement .invalidation := trivial
theorem Laws.FirstWord.invalidationAck : Laws.FirstWord.Statement .invalidationAck := trivial
theorem Laws.FirstWord.walkRequest : Laws.FirstWord.Statement .walkRequest := trivial
theorem Laws.FirstWord.walkAnswer : Laws.FirstWord.Statement .walkAnswer := trivial
theorem Laws.FirstWord.sideLogReplay : Laws.FirstWord.Statement .sideLogReplay := trivial
theorem Laws.FirstWord.transferComplete : Laws.FirstWord.Statement .transferComplete := trivial
theorem Laws.FirstWord.outboundReadDone : Laws.FirstWord.Statement .outboundReadDone := trivial
theorem Laws.FirstWord.tileLanded : Laws.FirstWord.Statement .tileLanded := trivial
theorem Laws.FirstWord.mcastBusServe : Laws.FirstWord.Statement .mcastBusServe := trivial
theorem Laws.FirstWord.relaySend : Laws.FirstWord.Statement .relaySend := trivial
theorem Laws.FirstWord.relayArrival : Laws.FirstWord.Statement .relayArrival := trivial
theorem Laws.FirstWord.matrixComplete : Laws.FirstWord.Statement .matrixComplete := trivial
theorem Laws.FirstWord.vectorComplete : Laws.FirstWord.Statement .vectorComplete := trivial
theorem Laws.FirstWord.messageArrival : Laws.FirstWord.Statement .messageArrival := trivial
theorem Laws.FirstWord.messageResend : Laws.FirstWord.Statement .messageResend := trivial
theorem Laws.FirstWord.replyArrival : Laws.FirstWord.Statement .replyArrival := trivial
theorem Laws.FirstWord.awaitTimeout : Laws.FirstWord.Statement .awaitTimeout := trivial
theorem Laws.FirstWord.handlerStart : Laws.FirstWord.Statement .handlerStart := trivial
theorem Laws.FirstWord.contextFetch : Laws.FirstWord.Statement .contextFetch := trivial
theorem Laws.FirstWord.roamingOffer : Laws.FirstWord.Statement .roamingOffer := trivial
theorem Laws.FirstWord.budgetExpiry : Laws.FirstWord.Statement .budgetExpiry := trivial
theorem Laws.FirstWord.spawnAnswer : Laws.FirstWord.Statement .spawnAnswer := trivial
theorem Laws.FirstWord.linkAnswer : Laws.FirstWord.Statement .linkAnswer := trivial
theorem Laws.FirstWord.dying : Laws.FirstWord.Statement .dying := trivial
theorem Laws.FirstWord.reclaim : Laws.FirstWord.Statement .reclaim := trivial
theorem Laws.FirstWord.exitSignal : Laws.FirstWord.Statement .exitSignal := trivial
theorem Laws.FirstWord.restart : Laws.FirstWord.Statement .restart := trivial
theorem Laws.FirstWord.restartRetry : Laws.FirstWord.Statement .restartRetry := trivial
theorem Laws.FirstWord.swapInstant : Laws.FirstWord.Statement .swapInstant := trivial
theorem Laws.FirstWord.swapEvalEnd : Laws.FirstWord.Statement .swapEvalEnd := trivial
theorem Laws.FirstWord.freeze : Laws.FirstWord.Statement .freeze := trivial
theorem Laws.FirstWord.mark : Laws.FirstWord.Statement .mark := trivial
theorem Laws.FirstWord.exchangeCommit : Laws.FirstWord.Statement .exchangeCommit := trivial
theorem Laws.FirstWord.cellWake : Laws.FirstWord.Statement .cellWake := trivial
theorem Laws.FirstWord.preempt : Laws.FirstWord.Statement .preempt := trivial
theorem Laws.FirstWord.unpark : Laws.FirstWord.Statement .unpark := trivial
theorem Laws.FirstWord.shadowRun : Laws.FirstWord.Statement .shadowRun := trivial
theorem Laws.FirstWord.shadowComplete : Laws.FirstWord.Statement .shadowComplete := trivial
theorem Laws.FirstWord.shadowAbandon : Laws.FirstWord.Statement .shadowAbandon := trivial
theorem Laws.FirstWord.ageingCheck : Laws.FirstWord.Statement .ageingCheck := trivial
theorem Laws.FirstWord.throttleEnd : Laws.FirstWord.Statement .throttleEnd := trivial
theorem Laws.FirstWord.idleFlit : Laws.FirstWord.Statement .idleFlit := trivial

end Sys2Proof
end

