-- ==== Sys2Proof/Tests/Slice0.lean ====
section
/-! SUPPORT. Tests of the model on fixed values: terms that no encoding exists for, words written out from the manual's encodings,
one step of an instruction here and there, and for every obligation that has hypotheses a state and operands that meet them. -/

namespace Sys2Proof.Tests
set_option Elab.async false

open Machine

-- Terms that no encoding exists for --------------------------------------------------------------------------------

/-- The guard that always holds. -/
def on : Guard := ⟨0, false⟩
/-- The guard that never holds. -/
def off : Guard := ⟨0, true⟩
/-- Vector extension words with every field 0 (10 R245). -/
def ext : VExt := { c := .t 0, sx := .zero, rnd := .rne, sat := false, lua := false, lub := false, luc := false, xs := false, fx := 0, k := 0 }
/-- A copy with every field 0 (09 R200, R201). -/
def copy : CopyArgs := { tile := .t 1, gf := .g2, lu := false, p0 := .const 0, p1 := .const 0, p2 := .const 0, sem := .relaxed, sc := .a, wbar := 0 }
/-- A message without payload or tiles (11 R265). -/
def note : SendArgs := { pl := [], bnc := false, ch := 0, tl := [], ys := 0 }

/-- 01 R27: a constant word with 1111 in bits 31:28 would be a marker. -/
theorem test_wf_constant_word : (Instr.tdef (.t 0) (.const 0xF0000000) (.const 0) (.const 0) 1 1 0 0 false).wf = false ∧
    (Instr.bfree (.const 0) (.const 0xFFFFFFFF) (.const 1)).wf = false ∧ (Instr.bfree (.const 0) (.const 0xEFFFFFFF) (.const 1)).wf = true := by decide
/-- 01 R24, 08 R181, R182: no instruction writes p0. -/
theorem test_wf_destination_predicate : (Instr.pset .eq .w8 .zero .zero 0 on).wf = false ∧ (Instr.psetf .eq .zero .zero 0 on).wf = false ∧
    (Instr.pand 0 1 1).wf = false ∧ (Instr.por 0 1 1).wf = false ∧ (Instr.pxor 0 1 1).wf = false ∧ (Instr.pnot 0 1).wf = false ∧
    (Instr.pnot 7 0).wf = true := by decide
/-- 08 R181: the conditions that each comparison lacks. -/
theorem test_wf_conditions : (Instr.pset .un .w8 .zero .zero 1 on).wf = false ∧ (Instr.pset .ord .w8 .zero .zero 1 on).wf = false ∧
    (Instr.psetf .ltu .zero .zero 1 on).wf = false ∧ (Instr.psetf .geu .zero .zero 1 on).wf = false ∧
    (Instr.psetf .leu .zero .zero 1 on).wf = false ∧ (Instr.psetf .gtu .zero .zero 1 on).wf = false ∧
    (Instr.pset .gtu .w8 .zero .zero 1 on).wf = true ∧ (Instr.psetf .ord .zero .zero 1 on).wf = true := by decide
/-- 09 R196, R216: rows are 1 to 128 and columns 1 to 1,024. -/
theorem test_wf_shapes : (Instr.tview (.t 0) (.t 1) 0 0 0 1).wf = false ∧ (Instr.tview (.t 0) (.t 1) 0 0 129 1).wf = false ∧
    (Instr.tview (.t 0) (.t 1) 0 0 1 0).wf = false ∧ (Instr.tview (.t 0) (.t 1) 0 0 1 1025).wf = false ∧
    (Instr.tview (.t 0) (.t 1) 0 0 128 1024).wf = true ∧ (Instr.tdef (.t 0) (.const 0) (.const 0) (.const 0) 0 1 0 0 false).wf = false ∧
    (Instr.robj .zero 0 (.const 0) (.const 0) (.const 1) 1 0 0 .sum).wf = false ∧ (Instr.robj .zero 0 (.const 0) (.const 0) (.const 1) 1 1 0 .sum).wf = true := by decide
/-- 09 R200: the fields that `.gt` and the index forms reserve, and where a last-use mark may stand. -/
theorem test_wf_copy_forms : (Instr.tfetch { copy with gf := .gt (.t 2), p0 := .const 1 }).wf = false ∧
    (Instr.tfetch { copy with gf := .gt (.t 2), p1 := .const 1 }).wf = false ∧ (Instr.tfetch { copy with gf := .gt (.t 2), p2 := .const 1 }).wf = false ∧
    (Instr.tgath { copy with gf := .g4 } (.t 3)).wf = false ∧ (Instr.tscat { copy with gf := .gt (.t 2) } (.t 3)).wf = false ∧
    (Instr.tfetch { copy with lu := true }).wf = false ∧ (Instr.tfetch { copy with gf := .gt (.t 2), lu := true }).wf = true ∧
    (Instr.twrite { copy with lu := true }).wf = true ∧ (Instr.tgath { copy with lu := true } (.t 3)).wf = false ∧
    (Instr.tfetch { copy with p2 := .const 0xF0000000 }).wf = false := by decide
/-- 09 R201: which ordering, scope and barrier a copy may name. -/
theorem test_wf_copy_ordering : (Instr.twrite { copy with sem := .acq }).wf = false ∧ (Instr.tfetch { copy with sem := .rel }).wf = false ∧
    (Instr.twrite { copy with sem := .ar }).wf = false ∧ (Instr.tfetch { copy with sem := .ar }).wf = false ∧
    (Instr.twrite { copy with sc := .k }).wf = false ∧ (Instr.twrite { copy with sem := .rel, sc := .k }).wf = true ∧
    (Instr.tfetch { copy with wbar := 1 }).wf = false ∧ (Instr.twrite { copy with wbar := 8 }).wf = true := by decide
/-- 09 R209: a ring has 2 to 8 slots, all of them within t0 to t27. -/
theorem test_wf_ring : (Instr.rdef 0 0 1).wf = false ∧ (Instr.rdef 0 0 0).wf = false ∧ (Instr.rdef 0 27 2).wf = false ∧
    (Instr.rdef 0 21 8).wf = false ∧ (Instr.rdef 0 20 8).wf = true ∧ (Instr.rdef 3 26 2).wf = true := by decide
/-- 10 R234, R239: a mark on a latch or an accumulator, or with the relay form. -/
theorem test_wf_matrix_marks : (Instr.mldb (.t 0) true true).wf = false ∧ (Instr.mma 0 .la (.tile (.t 0)) .pt true false).wf = false ∧
    (Instr.mma 0 (.tile (.t 0)) .lb .pt false true).wf = false ∧ (Instr.mmas 0 .la .lb none none .pt true false).wf = false ∧
    (Instr.macc 0 (.acc 1) .pt true).wf = false ∧ (Instr.macc 0 (.tile (.t 1)) .pt true).wf = true := by decide
/-- 10 R245, R246: fields of the extension that an instruction does not use. -/
theorem test_wf_vector_fields : (Instr.vadd (.t 0) (.t 1) (.t 2) { ext with c := .t 1 }).wf = false ∧ (Instr.vadd (.t 0) (.t 1) (.t 2) { ext with luc := true }).wf = false ∧
    (Instr.vabs (.t 0) (.t 1) { ext with xs := true }).wf = false ∧ (Instr.vabs (.t 0) (.t 1) { ext with lub := true }).wf = false ∧
    (Instr.vadd (.t 0) (.t 1) (.t 2) { ext with xs := true }).wf = false ∧ (Instr.vadd (.t 0) (.t 1) (.t 0) { ext with xs := true, lub := true }).wf = false ∧
    (Instr.vadd (.t 0) (.t 1) (.t 2) { ext with sx := .s 0 }).wf = false ∧ (Instr.vadd (.t 0) (.t 1) (.t 2) { ext with k := 1 }).wf = false ∧
    (Instr.vadd (.t 0) (.t 1) (.t 0) { ext with xs := true, sx := .s 0, k := 1 }).wf = false ∧
    (Instr.vadd (.t 0) (.t 1) (.t 0) { ext with xs := true, k := 1 }).wf = true ∧ (Instr.vadd (.t 0) (.t 1) (.t 2) { ext with fx := 1 }).wf = false := by decide
/-- 10 R249 to R259: rounding, saturation and function details that an instruction does not take. -/
theorem test_wf_vector_details : (Instr.vcmp (.t 0) (.t 1) (.t 2) { ext with rnd := .rz }).wf = false ∧ (Instr.vcmp (.t 0) (.t 1) (.t 2) { ext with sat := true }).wf = false ∧
    (Instr.vcmp (.t 0) (.t 1) (.t 2) { ext with fx := 12 }).wf = false ∧ (Instr.vcmp (.t 0) (.t 1) (.t 2) { ext with fx := 11 }).wf = true ∧
    (Instr.vshr (.t 0) (.t 1) (.t 2) { ext with fx := 2 }).wf = false ∧ (Instr.viadd (.t 0) (.t 1) (.t 2) { ext with rnd := .sr }).wf = false ∧
    (Instr.vfill (.t 0) { ext with lua := true }).wf = false ∧ (Instr.vfill (.t 0) { ext with fx := 2 }).wf = false ∧
    (Instr.vfill (.t 0) { ext with fx := 1, rnd := .rz }).wf = false ∧ (Instr.vfill (.t 0) { ext with fx := 1, sat := true }).wf = false ∧
    (Instr.vfill (.t 0) { ext with fx := 1, k := 7 }).wf = true ∧ (Instr.vquant (.t 0) (.t 1) { ext with luc := true }).wf = false := by decide
/-- 09 R213, R214: an atomic without a result has no `dst`, no ordering has a scope of its own, and a fence has a kind. -/
theorem test_wf_atomics : (Instr.aadd .zero .zero (some 0) .relaxed .a true 0 on).wf = false ∧ (Instr.aadd .zero .zero none .relaxed .c false 0 on).wf = false ∧
    (Instr.acas .zero .zero .zero (some 15) .ar .p false 0 on).wf = true ∧ (Instr.fence false false .a).wf = false ∧ (Instr.fence true false .a).wf = true := by decide
/-- 11 R265, R266: payload words, tiles, slots and bounces of each message instruction. -/
theorem test_wf_messages : (Instr.send .zero { note with pl := [.zero, .zero, .zero, .zero, .zero] } on).wf = false ∧ (Instr.send .zero { note with tl := [.t 0] } on).wf = false ∧
    (Instr.send .zero { note with ys := 1 } on).wf = false ∧ (Instr.sendt .zero note on).wf = false ∧ (Instr.sendt .zero { note with tl := [.t 0, .t 1, .t 2, .t 3, .t 4] } on).wf = false ∧
    (Instr.mcast { note with tl := [.t 0, .t 1] } on).wf = false ∧ (Instr.mcast { note with tl := [.t 0], bnc := true } on).wf = false ∧
    (Instr.callRequest .zero { note with pl := [.zero, .zero, .zero, .zero] } on).wf = false ∧ (Instr.callRequest .zero { note with pl := [.zero, .zero, .zero], ys := 7 } on).wf = true := by decide
/-- 11 R290: what `dwp` admits for a scratchpad and for a tile watchpoint. -/
theorem test_wf_watchpoints : (Instr.dwp .zero 0 true 0 8 on).wf = false ∧ (Instr.dwp .zero 1 true 1 0 on).wf = false ∧ (Instr.dwp .zero 0 true 1 0x400001 on).wf = false ∧
    (Instr.dwp .zero 1 true 3 0x400000 on).wf = true ∧ (Instr.dwp .zero 2 true 1 0 on).wf = false ∧ (Instr.dwp .zero 3 true 0 8 on).wf = false ∧ (Instr.dwp .zero 3 true 0 0 on).wf = true := by decide
/-- An event of the part has no words. -/
theorem test_wf_events : Instr.scrub.wf = false ∧ Instr.rd.wf = false ∧ Instr.powerOnReset.wf = false ∧ Instr.idleFlit.wf = false := by decide

-- Words written out from the encodings -----------------------------------------------------------------------------
-- Fields of word 0 from the left: LEN, maj, fn, then a, b, p, pn and w (Q), a and imm (I), d, a and b (T), or p and off (B).

/-- 01 R21, R35; 08 R174: `add.w h1, s2` under p3 is the manual's worked word; maj 0x02 and 0x03 by their rows. -/
theorem test_word_integer : decodeWords [0b00_000001_000000_000001_100010_011_0_10] = .ok (.add .w32 (.h 0) (.s 2) ⟨3, false⟩, 1) ∧
    decodeWords [0x0100189A] = .ok (.add .w32 (.h 0) (.s 2) ⟨3, false⟩, 1) ∧
    decodeWords [0b00_000001_001000_010001_010101_111_1_00] = .ok (.remu .w8 (.m 0) .self ⟨7, true⟩, 1) ∧
    decodeWords [0b00_000010_000111_010000_101111_000_0_01] = .ok (.sar .w16 (.h 15) (.s 15) on, 1) ∧
    decodeWords [0b00_000011_001001_010110_000000_001_0_11] = .ok (.bswap .w64 .sender ⟨1, false⟩, 1) ∧
    decodeWords [0b00_000011_000010_010111_010100_000_0_11] = .ok (.minu .w64 .chan (.m 3) on, 1) := ⟨rfl, rfl, rfl, rfl, rfl, rfl⟩
/-- 08 R176 to R178: immediates are signed, shift counts have six bits, and `lit`'s low word comes first. -/
theorem test_word_immediate : decodeWords [0b00_000100_000000_100001_111111111111] = .ok (.addi (.s 1) (-1), 1) ∧
    decodeWords [0b00_000100_000110_000001_000000_111111] = .ok (.sari (.h 0) 63, 1) ∧
    decodeWords [0b00_000101_000000_000000_100000000000] = .ok (.li 0x800, 1) ∧
    decodeWords [0x85040000, 0x89ABCDEF, 0x01234567] = .ok (.lit 0x0123456789ABCDEF, 3) ∧
    decodeWords [0b00_000110_000000_101111_000010_000000] = .ok (.keep 15 (.h 1), 1) ∧
    decodeWords [0b00_000110_000010_000001_100000_000_0_10] = .ok (.lea .w32 (.h 0) (.s 0) on, 1) := ⟨rfl, rfl, rfl, rfl, rfl, rfl⟩
/-- 08 R179 to R183 and 01 R24: maj 0x08, 0x09, 0x0C, 0x0D and 0x0E. -/
theorem test_word_float_and_predicate : decodeWords [0b00_001000_000011_000001_000010_000_0_00] = .ok (.fdiv (.h 0) (.h 1) on, 1) ∧
    decodeWords [0b01_001001_000000_000001_000010_000_0_00, 0b000011_100101_000_0000_100_0000_1_00000, 0] = .ok (.ffma (.h 0) (.h 1) (.h 2) (some 5) .sr true on, 3) ∧
    decodeWords [0b01_001001_000001_000001_000000_000_0_10, 0b000000_000000_000_0000_001_0101_0_00000, 0] = .ok (.fcvt .b2f .w32 (.h 0) none .rz false on, 3) ∧
    decodeWords [0b01_001100_000000_000001_000010_000_0_11, 0b000000_000000_111_1001_000_0000_0_00000, 0] = .ok (.pset .gtu .w64 (.h 0) (.h 1) 7 on, 3) ∧
    decodeWords [0b01_001100_000001_000001_000010_000_0_00, 0b000000_000000_001_1010_000_0000_0_00000, 0] = .ok (.psetf .un (.h 0) (.h 1) 1 on, 3) ∧
    decodeWords [0b00_001101_000010_000111_000000_000110] = .ok (.pxor 7 0 6, 1) ∧
    decodeWords [0b00_001110_000000_000001_000010_010_1_00] = .ok (.sel (.h 0) (.h 1) ⟨2, true⟩, 1) := ⟨rfl, rfl, rfl, rfl, rfl, rfl, rfl⟩
/-- 08 R184, R186, R187: branches, `jmpx`, and the four scratchpad instructions. -/
theorem test_word_control_and_scratchpad : decodeWords [0x100BFFFD] = .ok (.br 2 (-3), 1) ∧
    decodeWords [0b00_010000_001_111_100000000000000000] = .ok (.bp 7 0x20000, 1) ∧ decodeWords [0b00_010000_011_001_000000000000000000] = .ok (.ret 1, 1) ∧
    decodeWords [0b00_010001_000000_000001_000000_000_0_00] = .ok (.jmpx (.h 0) on, 1) ∧
    decodeWords [0b00_010100_000001_000001_000010_000_0_01] = .ok (.st .w16 (.h 0) (.h 1) on, 1) ∧
    decodeWords [0b01_010101_000000_000001_000010_000_0_10, 0b000000_100000_000_0000_000_0001_0_00000, 0xFFFFFFF8] =
      .ok (.ldx .w32 (.h 0) (.h 1) (-8) true (some 0) on, 3) ∧
    decodeWords [0b01_010101_000001_000001_000010_000_0_11, 0b000011_000000_000_0000_000_0000_0_00000, 16] =
      .ok (.stx .w64 (.h 0) (.h 1) (.h 2) 16 on, 3) := ⟨rfl, rfl, rfl, rfl, rfl, rfl, rfl⟩
/-- 09 R195 to R199: handles. -/
theorem test_word_tiles : decodeWords [0b00_011000_000000_011111_000000_000000] = .ok (.tfree (.t 31), 1) ∧
    decodeWords [0b00_011000_000001_000000_100110_000001] = .ok (.tstat (.q 1 2) true, 1) ∧ decodeWords [0b00_011000_000010_101111_000000_000000] = .ok (.tzero (.q 3 3), 1) ∧
    decodeWords [0b11_011001_000000_000101_000000_000000, 0xF0000024, 0xF0000025, 0x100, 0b0000_1_1000_1111_10000000000_10000000] =
      .ok (.tdef (.t 5) (.subst (.s 4)) (.subst (.s 5)) (.const 256) 128 1024 15 8 true, 5) ∧
    decodeWords [0b11_011001_000001_000101_000110_000000, 0, 0, 0b0000000000000_1111111111_01111111, 0b0000000000000_00000000011_00000010] =
      .ok (.tview (.t 5) (.t 6) 127 1023 2 3, 5) := ⟨rfl, rfl, rfl, rfl, rfl⟩
/-- 09 R200, R201: the five copies. -/
theorem test_word_copies : decodeWords [0b11_011010_000000_000001_000010_1_00_000, 0, 0, 0, 0] = .ok (.tcopy (.t 1) (.t 2) true, 5) ∧
    decodeWords [0b11_011010_000001_000001_000010_1_10_000, 0, 0, 0, 0b11_01_0000] = .ok (.tfetch { copy with gf := .gt (.t 2), lu := true, sem := .acq, sc := .p }, 5) ∧
    decodeWords [0b11_011010_000010_000000_000001_1_01_000, 4, 5, 6, 0b000000_10_10_1000] =
      .ok (.twrite { copy with gf := .g4, lu := true, p0 := .const 4, p1 := .const 5, p2 := .const 6, sem := .rel, sc := .k, wbar := 8 }, 5) ∧
    decodeWords [0b11_011010_000011_000001_000000_0_00_000, 4, 5, 6, 0b000011_00_00_0000] = .ok (.tgath { copy with p0 := .const 4, p1 := .const 5, p2 := .const 6 } (.t 3), 5) ∧
    decodeWords [0b11_011010_000100_000000_000001_0_00_000, 4, 5, 6, 0b100011_01_10_0001] =
      .ok (.tscat { copy with p0 := .const 4, p1 := .const 5, p2 := .const 6, sem := .rel, sc := .c, wbar := 1 } (.q 0 3), 5) := ⟨rfl, rfl, rfl, rfl, rfl⟩
/-- 09 R209 to R212: rings and barriers. -/
theorem test_word_rings_and_barriers : decodeWords [0b00_011011_000000_000011_010100_001000] = .ok (.rdef 3 20 8, 1) ∧
    decodeWords [0b00_011011_000001_000010_000001_111111] = .ok (.radv 2 true 63, 1) ∧ decodeWords [0b00_011011_000010_000001_000000_000111] = .ok (.rwait 1 false 7, 1) ∧
    decodeWords [0b00_011100_000000_000111_100000_000000] = .ok (.binit 7 (.s 0), 1) ∧ decodeWords [0b00_011100_000010_000011_000001_000001] = .ok (.bwait 3 (.h 0) true, 1) ∧
    decodeWords [0b00_011100_000011_000011_000000_000001] = .ok (.bstat 3 true, 1) := ⟨rfl, rfl, rfl, rfl, rfl, rfl⟩
/-- 10 R234, R239, R243: matrix instructions. -/
theorem test_word_matrix : decodeWords [0b00_100000_000000_110101_000000_000100] = .ok (.mclr 3 .orand, 1) ∧ decodeWords [0b00_100000_000001_000000_000010_0000_1_0] = .ok (.mlda (.t 2) true, 1) ∧
    decodeWords [0b00_100000_000010_000000_000010_0000_0_1] = .ok (.mldb (.t 2) true false, 1) ∧ decodeWords [0b00_100000_000011_000000_000010_0000_1_1] = .ok (.mtr (.t 2) true true, 1) ∧
    decodeWords [0b00_100000_000100_000000_000001_100000] = .ok (.mrelay (.h 0) (.s 0), 1) ∧
    decodeWords [0b01_100001_000000_110010_110000_110001, 0b000000_000000_00_001_00_0000000000000, 0] = .ok (.mma 0 .la .lb .minp false false, 3) ∧
    decodeWords [0b01_100001_000001_110011_000001_000010, 0b000011_000100_11_000_11_0000000000000, 0] = .ok (.mmas 1 (.tile (.t 1)) (.tile (.t 2)) (some (.t 3)) (some (.t 4)) .pt true true, 3) ∧
    decodeWords [0b01_100001_000010_110100_110101_000000, 0b000000_000000_00_100_00_0000000000000, 0] = .ok (.macc 2 (.acc 3) .orand false, 3) ∧
    decodeWords [0b11_100010_000000_110101_000100_000000, 0b000000000_1111111_0_0000001_000_1_1_100, 0, 0, 0] = .ok (.mst 3 (.t 4) 1 127 true true .sr, 5) := ⟨rfl, rfl, rfl, rfl, rfl, rfl, rfl, rfl, rfl⟩
/-- 10 R245 to R259: one word of every vector major opcode, and every field of the extension. -/
theorem test_word_vector : decodeWords [0b01_100100_000110_000000_000001_000010, 0b000011_000000_001_1_1_1_1_0_0000_00000000, 0] =
      .ok (.vfma (.t 0) (.t 1) (.t 2) { ext with c := .t 3, rnd := .rz, sat := true, lua := true, lub := true, luc := true }, 3) ∧
    decodeWords [0b01_100100_000000_000000_000001_000000, 0b000000_000000_000_0_0_0_0_1_0000_00000000, 0x3F800000] = .ok (.vadd (.t 0) (.t 1) (.t 0) { ext with xs := true, k := 0x3F800000 }, 3) ∧
    decodeWords [0b01_100101_001010_000000_000001_000000, 0, 0] = .ok (.verf (.t 0) (.t 1) ext, 3) ∧
    decodeWords [0b01_100110_000000_000000_000001_000000, 0b000000_100010_000_0_0_0_0_1_0111_00000000, 0] = .ok (.vcmp (.t 0) (.t 1) (.t 0) { ext with sx := .s 2, xs := true, fx := 7 }, 3) ∧
    decodeWords [0b01_100111_000011_000000_000001_000000, 0, 0] = .ok (.vcsum (.t 0) (.t 1) ext, 3) ∧
    decodeWords [0b01_101000_000001_000000_000001_000000, 0b000011_000000_100_0_1_0_0_0_0000_00000000, 0] = .ok (.vquant (.t 0) (.t 1) { ext with c := .t 3, rnd := .sr, lua := true }, 3) ∧
    decodeWords [0b01_101001_000101_000000_000001_000000, 0, 5] = .ok (.vunpk (.t 0) (.t 1) { ext with k := 5 }, 3) ∧
    decodeWords [0b01_101010_000111_000000_000001_000010, 0b000000_000000_000_0_0_0_0_0_0001_00000000, 0] = .ok (.vshr (.t 0) (.t 1) (.t 2) { ext with fx := 1 }, 3) ∧
    decodeWords [0b01_101011_000010_000000_000000_000000, 0b000000_100000_000_0_0_0_0_0_0001_00000000, 0] = .ok (.vfill (.t 0) { ext with sx := .s 0, fx := 1 }, 3) := ⟨rfl, rfl, rfl, rfl, rfl, rfl, rfl, rfl, rfl⟩
/-- 09 R213 to R218, R224: atomics, fences, reductions, allocations and extents. -/
theorem test_word_memory : decodeWords [0b01_110000_001001_000001_000010_000_0_11, 0b000011_100000_11_10_0_000000000000000, 0xFFFFFFF8] =
      .ok (.acas (.h 0) (.h 1) (.h 2) (some 0) .ar .k false (-8) on, 3) ∧
    decodeWords [0b01_110000_000000_000001_000010_000_0_11, 0b000000_000000_00_00_1_000000000000000, 0] = .ok (.aadd (.h 0) (.h 1) none .relaxed .a true 0 on, 3) ∧
    decodeWords [0b00_110010_000000_000000_00000000_11_10] = .ok (.fence true true .k, 1) ∧ decodeWords [0b00_110010_000000_000000_00000000_10_11] = .ok (.fence false true .p, 1) ∧
    decodeWords [0b11_110001_000000_000000_000001_001101, 1, 2, 3, 0b0000000_10_0101_00000000011_00000010] = .ok (.robj (.h 0) 13 (.const 1) (.const 2) (.const 3) 2 3 5 .max, 5) ∧
    decodeWords [0b11_110001_000001_000000_000001_000000, 1, 2, 3, 1] = .ok (.ared (.t 1) (.const 1) (.const 2) (.const 3) true, 5) ∧
    decodeWords [0b11_110011_000000_000000_000000_000000, 0, 2, 3, 0b11] = .ok (.balloc (.const 0) (.const 2) (.const 3) true true, 5) ∧
    decodeWords [0b11_110011_000011_000000_000000_000000, 0, 2, 3, 0] = .ok (.xunmap (.const 0) (.const 2) (.const 3), 5) := ⟨rfl, rfl, rfl, rfl, rfl, rfl, rfl, rfl⟩
/-- 11 R265, R273 to R275, R279, R284, R286: messages, lifecycle and the registry. -/
theorem test_word_messages : decodeWords [0b01_110100_000000_100001_000000_000_0_00, 0b000001_000010_000000_000000_010_1_1101, 0] =
      .ok (.send (.s 1) { note with pl := [.h 0, .h 1], bnc := true, ch := 13 } on, 3) ∧
    decodeWords [0b01_110100_000011_100001_000000_000_0_00, 0b000001_000000_000000_000000_001_0_0010, 0b000101_000000_000000_000000_001_111_00] =
      .ok (.callRequest (.s 1) { note with pl := [.h 0], ch := 2, tl := [.t 5], ys := 7 } on, 3) ∧
    decodeWords [0b01_110100_000100_010110_100000_000_0_00, 0b000001_000000_000000_000000_001_0_0000, 0] = .ok (.reply .sender (.s 0) (.h 0) on, 3) ∧
    decodeWords [0b00_110101_000000_000001_000111_000_0_00] = .ok (.await (.h 0) 7 on, 1) ∧ decodeWords [0b00_110101_000001_000000_000000_011_1_00] = .ok (.end_ ⟨3, true⟩, 1) ∧
    decodeWords [0b11_110110_000000_000000_000000_000000, 2, 3, 4, 0b11] = .ok (.spawn (.const 2) (.const 3) (.const 4) true true, 5) ∧
    decodeWords [0b00_110111_000101_000001_000000_000_0_10] = .ok (.kill (.h 0) .tree on, 1) ∧ decodeWords [0b00_111000_000011_000001_000010_000_0_00] = .ok (.reg (.h 0) (.h 1) on, 1) ∧
    decodeWords [0b11_111001_000000_000000_000000_000000, 2, 0, 0, 1] = .ok (.supStop (.const 2), 5) ∧
    decodeWords [0b11_111001_000001_000000_000000_000000, 2, 0, 0, 2] = .ok (.supqState (.const 2), 5) := ⟨rfl, rfl, rfl, rfl, rfl, rfl, rfl, rfl, rfl, rfl⟩
/-- 08 R189, R191, R192; 11 R288, R290: system, debug and boot instructions. -/
theorem test_word_system : decodeWords [0b00_111010_000010_000001_000000_000_0_00] = .ok (.ctrd (.h 0) on, 1) ∧ decodeWords [0x3B000000] = .ok (.nop, 1) ∧
    decodeWords [0b00_111011_000010_000000_000000_111111] = .ok (.trap 63, 1) ∧ decodeWords [0b00_111100_000000_000001_001101_000_0_00] = .ok (.dhalt (.h 0) 13 on, 1) ∧
    decodeWords [0b01_111101_000001_000001_000000_000_0_00, 0b001_1_11_00000000000000000000000000, 0x400000] = .ok (.dwp (.h 0) 1 true 3 0x400000 on, 3) ∧
    decodeWords [0b01_111101_000000_000001_000000_000_0_00, 0b011_1_00_00000000000000000000000000, 0] = .ok (.dbp (.h 0) 3 true on, 3) ∧
    decodeWords [0b00_111110_000000_000001_000010_000_0_00] = .ok (.rpwr (.h 0) (.h 1) on, 1) ∧ decodeWords [0x3E080000] = .ok (.halt .zero on, 1) := ⟨rfl, rfl, rfl, rfl, rfl, rfl, rfl, rfl⟩
/-- 01 R34: the words that the manual lists as ILLEGAL, and words cut short (R19). -/
theorem test_word_refused : decodeWords [0] = .error .major ∧ decodeWords [0x01240000] = .error .fn ∧ decodeWords [0x4100189A, 0, 0] = .error .len ∧
    decodeWords [0x01001618] = .error .selector ∧ decodeWords [0x0D0C2081] = .error .reserved ∧ decodeWords [0x3F000000] = .error .major ∧
    decodeWords [0x85040000, 1] = .error .short ∧ decodeWords [0b11_110011_000001_000000_000000_000000, 0xF0000040, 0, 1, 0] = .error .marker ∧
    decodeWords [0b11_011001_000000_000101_000000_000000, 0, 0, 0, 0xF0000024] = .error .marker := ⟨rfl, rfl, rfl, rfl, rfl, rfl, rfl, rfl, rfl⟩
/-- The host's word and the next fetch (00 R12; 01 R17): the first word is the lowest, and the next step runs it. -/
theorem test_table_word : decodeTableWord 32 0x0100189A = some (.add .w32 (.h 0) (.s 2) ⟨3, false⟩) ∧
    decodeTableWord 96 0x01234567_89ABCDEF_85040000 = some (.lit 0x0123456789ABCDEF) ∧ decodeTableWord 32 0 = none := ⟨rfl, rfl, rfl⟩

-- A small state ------------------------------------------------------------------------------------------------------

/-- The actor whose instructions issue, one of its job on its module, and one of its job on module 1. -/
def me : ActorName := nameOf 0 1 5 0
def mate : ActorName := nameOf 0 1 6 0
def afar : ActorName := nameOf 1 1 7 0
/-- A descriptor of an 8-bit float with four exponent and three mantissa bits, as `e4m3` of 06 R141's fields (06 R138). -/
def narrow8 : W64 := BitVec.ofNat 64 (2 ^ 35 + 2 ^ 34 + 7 * 2 ^ 26 + 3 * 2 ^ 23 + 4 * 2 ^ 20 + 8 * 2 ^ 16)
/-- The same with one scale byte for every 32 elements of a row. -/
def scaled8 : W64 := narrow8 + BitVec.ofNat 64 (2 ^ 38)
/-- A scratchpad tile. -/
def pad (st : TileState) (loc : BitVec 56) (rows : BitVec 8) (cols : BitVec 11) (fmt : Fin 16) : TileEnt :=
  { loc := loc, rows := rows, cols := cols, fmt := fmt, state := st }
/-- A global tile. -/
def afarTile (st : TileState) (loc : BitVec 56) : TileEnt := { loc := loc, pitch := 16, rows := 2, cols := 4, glob := true, state := st }
/-- Tiles in every state and of every kind that the statements speak of; f0 is FP32, f1 INT32, f2 BIT, f3 scaled, f4 narrow, f5 invalid. -/
def sampleTiles : List TileEnt := [pad .ready 0 2 4 0, pad .empty 128 2 4 0, pad .ready 256 2 4 0, pad .ready 384 2 4 1, pad .empty 512 2 4 3,
  pad .ready 640 2 4 3, pad .ready 768 1 1 1, pad .empty 896 1 1 1, afarTile .ready 0x10000, afarTile .empty 0x20000, pad .filling 1024 2 4 0,
  pad .draining 1024 2 4 0, { pad .given 1024 2 4 0 with drn := 1 }, pad .latched 1024 2 4 0, {}, pad .given 1024 2 4 0, pad .empty 1152 4 2 0,
  pad .empty 1280 2 1 0, pad .empty 1408 1 4 0, pad .ready 1536 1 4 0, pad .empty 1664 2 8 0, pad .empty 1792 2 4 1, pad .ready 1920 2 4 1,
  pad .ready 2048 2 4 2, pad .empty 2176 2 1 1, pad .empty 2304 1 4 1, pad .empty 2432 2 4 2, pad .ready 2560 4 2 0, pad .ready 0x40000 1 1 0, pad .ready 0 2 4 5, pad .ready 2688 2 4 4, pad .ready 2816 4 2 4]
/-- An ACTIVE actor of 256 KiB in cell 0: h1 holds 64, h2 a poisoned 3, h3 8 and h4 a value that is not ready; p1 is true, p2 false, p3 poisoned. -/
def sample : Actor := { name := me, file := 2, st := .active, size := 64, invNo := 1, budget := 2 ^ 32, tiles := sampleTiles, fmts := [1, 4, 6, scaled8, narrow8, 0], h := [.val 64 false, .val 3 true, .val 8 false, .wait 9], p := [(true, false), (true, false), (false, false), (true, true)], exts := [{ vpage := 1, npg := 4, ppage := 0x100, valid := true }] }
/-- Its file: private and commons device memory, buoy and host regions, a handler, and a child, a cohort and its members. -/
def sampleFile : File := { handle := 2, base := 2 ^ 24, size := 64, text := 2 ^ 24, textLen := 64, images := [{ policy := 1, rmax := 2, nsup := 3, spsize := 64, handlers := [{ valid := true }], regions := [{ vbase := 0x10000, size := 0x40000 }, { kind := .buoy, vbase := 0x100000, size := 0x200000, mirror := true, share := .owner, sym := 1 }, { locked := true, vbase := 0x400000, size := 0x100000 }, { kind := .host, vbase := 0x600000, size := 0x100000 }] }], sups := [.child 7 0 0 0, .cohort 2 .row, .member 0 0, .member 0 0] }
/-- The state in which an actor of this name issues. -/
def unit (a : Actor) : State := { focus := me, files := [sampleFile], actors := [(me.toNat, { a with name := me })], cells := [(0, { boot := false })], jobs := [{ jobn := 1, file := 2, buoyQ := 8, actQ := 4, seatsQ := 4 }] }
/-- The state of the sample actor. -/
def st0 : State := unit sample
/-- The state with two given values in h1 and h2. -/
def two (u v : W64) : State := unit { sample with h := [.val u false, .val v false] }
/-- The newest entry of the result queue after a step. -/
def top : Out → Option Ent | .next t => t.cur.h.head? | _ => none
/-- The program counter after a step. -/
def pcOf : Out → Nat | .next t => t.cur.pc | _ => 1
/-- The reason with which a step kills. -/
def reasonOf : Out → Option Reason | .next t => t.cur.debt | _ => none
/-- Whether a step stalls. -/
def stalls : Out → Bool | .next t => t.stalled | _ => false
/-- A predicate after a step. -/
def predOf (k : Fin 8) : Out → Bool × Bool | .next t => t.cur.pred k | _ => (false, false)
/-- The state of a handle after a step. -/
def tileOf : Nat → Out → TileState | h, .next t => (tileAt t.cur h).state | _, _ => .free

-- One step at a time -------------------------------------------------------------------------------------------------

/-- 08 R174: sums wrap in their width, and dividing by zero gives all ones and the dividend. -/
theorem test_add_wraps : top (exec (.add .w8 (.h 0) (.h 1) on) (two 0x1FF 2)) = some (.val 1 false) := rfl
theorem test_div_by_zero : top (exec (.div .w16 (.h 0) (.h 1) on) (two 5 0)) = some (.val 0xFFFF false) ∧ top (exec (.rem .w16 (.h 0) (.h 1) on) (two 0x10005 0)) = some (.val 5 false) := ⟨rfl, rfl⟩
/-- 08 R174: the least dividend over −1, and the signed and unsigned upper halves of a product. -/
theorem test_div_overflow : top (exec (.div .w8 (.h 0) (.h 1) on) (two 0x80 0xFF)) = some (.val 0x80 false) ∧ top (exec (.rem .w8 (.h 0) (.h 1) on) (two 0x80 0xFF)) = some (.val 0 false) := ⟨rfl, rfl⟩
theorem test_mulh : top (exec (.mulh .w8 (.h 0) (.h 1) on) (two 0xFF 2)) = some (.val 0xFF false) ∧ top (exec (.mulhu .w8 (.h 0) (.h 1) on) (two 0xFF 2)) = some (.val 1 false) := ⟨rfl, rfl⟩
/-- 08 R174: a shift counts modulo the width, and `sar` copies the sign. -/
theorem test_shifts : top (exec (.shl .w8 (.h 0) (.h 1) on) (two 0x81 9)) = some (.val 2 false) ∧ top (exec (.sar .w8 (.h 0) (.h 1) on) (two 0x81 1)) = some (.val 0xC0 false) ∧
    top (exec (.rol .w8 (.h 0) (.h 1) on) (two 0x81 1)) = some (.val 3 false) := ⟨rfl, rfl, rfl⟩
/-- 08 R175: counts of zero bits of 0 are the width; bytes reversed. -/
theorem test_counts : top (exec (.clz .w16 (.h 0) on) (two 0x10000 0)) = some (.val 16 false) ∧ top (exec (.ctz .w16 (.h 0) on) (two 0x10 0)) = some (.val 4 false) ∧
    top (exec (.bswap .w32 (.h 0) on) (two 0x01020304 0)) = some (.val 0x04030201 false) := ⟨rfl, rfl, rfl⟩
/-- 08 R176, R177: immediates are sign-extended. -/
theorem test_immediates : top (exec (.addi (.h 0) 0xFFF) (two 0 0)) = some (.val 0xFFFFFFFFFFFFFFFF false) ∧ top (exec (.li 0x800) st0) = some (.val 0xFFFFFFFFFFFFF800 false) := ⟨rfl, rfl⟩
/-- 01 R23: a guarded-off instruction pushes its first operand, one that is not ready as well. -/
theorem test_guarded_off : top (exec (.add .w64 (.h 3) (.h 0) off) st0) = some (.wait 9) ∧ pcOf (exec (.add .w64 (.h 3) (.h 0) off) st0) = 4 := ⟨rfl, rfl⟩
/-- 08 R171, R173: an entry that is not ready stalls; a poisoned guard kills. -/
theorem test_stall_and_poisoned_guard : stalls (exec (.add .w64 (.h 3) (.h 0) on) st0) = true ∧ reasonOf (exec (.add .w64 (.h 0) (.h 0) ⟨3, true⟩) st0) = some rPoison := ⟨rfl, rfl⟩
/-- 08 R179: 1 + 2 is 3, 1 ÷ −0 is −∞, and the square root of −0 is −0. -/
theorem test_floats : top (exec (.fadd (.h 0) (.h 1) on) (two 0x3F800000 0x40000000)) = some (.val 0x40400000 false) ∧
    top (exec (.fdiv (.h 0) (.h 1) on) (two 0x3F800000 0x80000000)) = some (.val 0xFF800000 false) ∧ top (exec (.fsqrt (.h 0) on) (two 0x80000000 0)) = some (.val 0x80000000 false) := by decide +kernel
/-- 08 R180: 2.5 to an integer ties to even, and 300 to an unsigned byte is 255. -/
theorem test_conversions : top (exec (.fcvt .f2i .w32 (.h 0) none .rne false on) (two 0x40200000 0)) = some (.val 2 false) ∧
    top (exec (.fcvt .f2u .w8 (.h 0) none .rne false on) (two 0x43960000 0)) = some (.val 255 false) := by decide +kernel
/-- 08 R181: −1 is below 1 signed, above it unsigned; −0 equals +0. -/
theorem test_comparisons : predOf 1 (exec (.pset .lt .w8 (.h 0) (.h 1) 1 on) (two 0xFF 1)) = (true, false) ∧ predOf 1 (exec (.pset .ltu .w8 (.h 0) (.h 1) 1 on) (two 0xFF 1)) = (false, false) ∧
    predOf 2 (exec (.psetf .eq (.h 0) (.h 1) 2 on) (two 0x80000000 0)) = (true, false) := by decide +kernel
/-- 08 R184: the manual's `loop` runs a body of count 1 once and goes on; a taken branch goes back three words. -/
theorem test_loop_and_branch : pcOf (exec (.loop 0 (-5)) (unit { sample with pc := 40, lc := 2 })) = 20 ∧ pcOf (exec (.loop 0 (-5)) (unit { sample with pc := 40, lc := 1 })) = 44 ∧
    pcOf (exec (.br 1 (-3)) (unit { sample with pc := 40 })) = 28 := ⟨rfl, rfl, rfl⟩
/-- 08 R185: the ninth call kills. -/
theorem test_ninth_call : reasonOf (exec (.call 0 1) (unit { sample with ldep := 8 })) = some rIllegal := rfl
/-- 08 R187, R188: a load of a byte with its sign, and offsets that are misaligned or end the region. -/
theorem test_load_sign : top (exec (.ldx .w8 (.h 0) .zero 1 true none on) { two 2 0 with mem := [(2 ^ 48 + 3, 0x80)] }) = some (.val 0xFFFFFFFFFFFFFF80 false) := by decide +kernel
theorem test_scratchpad_kills : reasonOf (exec (.ld .w64 (.h 0) on) (two 4 0)) = some rExtent ∧ reasonOf (exec (.st .w8 (.h 0) (.h 1) on) (two 0x40000 0)) = some rExtent := ⟨rfl, rfl⟩
/-- 08 R187: a store is little-endian. -/
theorem test_store_bytes : (match exec (.st .w16 (.h 0) (.h 1) on) (two 8 0x1234) with | .next t => t.mem | _ => []) = [(2 ^ 48 + 8, 0x34), (2 ^ 48 + 9, 0x12)] := by decide +kernel
/-- 08 R189, R191: a number that no table lists kills, and `trap 5` has reason C5. -/
theorem test_system : reasonOf (exec (.sysrd (.h 0) on) (two 0x12 0)) = some rIllegal ∧ top (exec (.sysrd (.h 0) on) (two 0x22 0)) = some (.val 1 false) ∧ reasonOf (exec (.trap 5) st0) = some 0xC5 := by decide +kernel
/-- 09 R197 to R199: a tile at a misaligned `loc` kills; `tzero` makes its tile FILLING. -/
theorem test_tile_definition : reasonOf (exec (.tdef (.t 14) (.const 64) (.const 0) (.const 0) 2 4 0 0 false) st0) = some rTileBounds ∧
    tileOf 14 (exec (.tdef (.t 14) (.const 128) (.const 0) (.const 0) 2 4 0 0 false) st0) = .empty ∧ tileOf 1 (exec (.tzero (.t 1)) st0) = .filling := by decide +kernel
/-- 05 R118: a copy makes its destination FILLING and its source DRAINING. -/
theorem test_copy : tileOf 1 (exec (.tcopy (.t 1) (.t 0) false) st0) = .filling ∧ tileOf 0 (exec (.tcopy (.t 1) (.t 0) false) st0) = .draining := by decide +kernel
/-- 09 R203: a fetch of a mapped tile leaves, and one of a page without an entry waits for its walk (04 R100). -/
theorem test_fetch : tileOf 1 (exec (.tfetch { copy with p0 := .const 0x10000, p2 := .const 16 }) st0) = .filling ∧
    stalls (exec (.tfetch { copy with p0 := .const 0x90000, p2 := .const 16 }) st0) = true := by decide +kernel
/-- 09 R212: a `bexp` of 0 on a count of 0 flips the phase, and `binit` of a busy barrier kills. -/
theorem test_barriers : (match exec (.bexp 0 .zero) st0 with | .next t => (t.cur.bars.getD 0 {}).phase | _ => false) = true ∧
    reasonOf (exec (.binit 1 .zero) (unit { sample with bars := [{}, { count := 1 }] })) = some rBarrierBusy := ⟨rfl, rfl⟩
/-- 09 R210: a producer passes an EMPTY slot, and a READY one kills it. -/
theorem test_rwait : pcOf (exec (.rwait 0 false 0) (unit { sample with rings := [{ def_ := true, first := 1, count := 2 }] })) = 4 ∧
    reasonOf (exec (.rwait 0 false 0) (unit { sample with rings := [{ def_ := true, first := 2, count := 2 }] })) = some rTileState := ⟨rfl, rfl⟩
/-- 10 R249: 1 + 1 is 2 in every element, written when the unit completes. -/
theorem test_vector_sum : (match exec (.vadd (.t 1) (.t 2) (.t 2) ext) { st0 with mem := [(2 ^ 48 + 258, 0x80), (2 ^ 48 + 259, 0x3F)] } with
    | .next t => (t.cell 0).vunit.map fun j => (j.writes.map fun w => (w.1, w.2.take 8)) | _ => none) = some [(2 ^ 48 + 128, [0, 0, 0, 0x40, 0, 0, 0, 0])] := by decide +kernel
/-- 10 R235, R241: an accumulator of minimum is filled with +∞; 1 × 1 adds 1 to the first element. -/
theorem test_matrix : (match exec (.mclr 2 .minp) st0 with | .next t => ((t.cell 0).accs.getD 2 {}).fill | _ => 0) = 0x7F800000 := by decide +kernel
/-- 11 R262: a message waits in the outbox for a commit, and one to another job kills. -/
theorem test_send : (match exec (.send .self { note with ch := 3 } on) st0 with | .next t => t.cur.outbox.length | _ => 0) = 1 ∧
    reasonOf (exec (.send (.h 0) note on) (two (nameOf 0 2 5 0) 0)) = some rExtent := by decide +kernel
/-- 11 R284: a base priority above 7 kills. -/
theorem test_prio : reasonOf (exec (.prio (.h 0) on) (two 8 0)) = some rIllegal := rfl
/-- 08 R192, 01 R33: outside boot mode the repair instructions kill. -/
theorem test_boot_mode : reasonOf (exec (.rprd .zero on) st0) = some rIllegal ∧ top (exec (.rprd .zero on) { st0 with cells := [] }) = some (.val 0 false) := by decide +kernel
/-- The word that a fetch reads next runs in the next step (00 R15). -/
theorem test_first_step : (match step (State.reset.withFetchWord 32 0x05000007) with | .next t => ((t.actor (bootName 0)).pc, (t.actor (bootName 0)).h.head?) | _ => (1, none)) = (4, some (.val 7 false)) := by decide +kernel

-- Witnesses: what each obligation supposes, met -------------------------------------------------------------------------
-- Every theorem below is named after its obligation, and states the hypotheses of each of its clauses on concrete states and operands.

/-- Operands that are ready, clean and poisoned, with a guard that holds and one that holds by its negation. -/
theorem witness_IntegerBinaryResults : Reads st0 (.h 0) 64 false ∧ Reads st0 (.h 1) 3 true ∧ GuardOn st0 on ∧ GuardOn st0 ⟨2, true⟩ := ⟨rfl, rfl, rfl, rfl⟩
theorem witness_IntegerUnaryResults : Reads st0 (.h 1) 3 true ∧ GuardOn st0 ⟨1, false⟩ := ⟨rfl, rfl⟩
theorem witness_ImmediateAndMoveResults : Reads st0 (.h 0) 64 false ∧ Reads st0 .zero 0 false ∧ GuardOn st0 on := ⟨rfl, rfl, rfl⟩
/-- A finite value over 0, 0 over 0, ∞ over ∞, −0, a negative value, a NaN, and −0 beside +0. -/
theorem witness_FloatInstructionResults :
    (Reads (two 0x3F800000 0x80000000) (.h 0) 0x3F800000 false ∧ Reads (two 0x3F800000 0x80000000) (.h 1) 0x80000000 false ∧ GuardOn (two 0x3F800000 0x80000000) on) ∧
    ((∃ n m, dec32 0x3F800000 = .num n m ∧ m.isZero = false) ∧ (dec32 0x80000000).isZero = true) ∧ (dec32 0).isZero = true ∧
    ((∃ n, dec32 0x7F800000 = .inf n) ∧ ∃ n, dec32 0xFF800000 = .inf n) ∧ ((dec32 0x80000000).isZero = true ∧ (dec32 0x80000000).neg? = true) ∧
    ((dec32 0xBF800000).isZero = false ∧ (dec32 0xBF800000).neg? = true) ∧ (dec32 0x7FC00000).isNan = true ∧ ((dec32 0x80000000).isZero = true ∧ (dec32 0x80000000).neg? = true ∧ (dec32 0).isZero = true ∧ (dec32 0).neg? = false) := by
  refine ⟨⟨rfl, rfl, rfl⟩, ⟨⟨false, _, rfl, ?_⟩, ?_⟩, ?_, ⟨⟨false, ?_⟩, ⟨true, ?_⟩⟩, ?_, ?_, ?_, ?_⟩ <;> decide +kernel
theorem witness_FusedAndConvertResults : Reads st0 (.h 0) 64 false ∧ Reads st0 (.h 1) 3 true ∧ Reads st0 (.h 2) 8 false ∧ GuardOn st0 on := ⟨rfl, rfl, rfl, rfl⟩
theorem witness_PredicateResults : Reads st0 (.h 0) 64 false ∧ Reads st0 (.h 1) 3 true ∧ GuardOn st0 on := ⟨rfl, rfl, rfl⟩
/-- A guard that holds and one that does not, seven and eight entries of the link stack, `lc` 0, 1 and 2, and offsets of `jmpx`. -/
theorem witness_ControlResults : (GuardOn st0 ⟨1, false⟩ ∧ GuardOn st0 ⟨2, true⟩) ∧ (unit { sample with ldep := 7 }).cur.ldep < 8 ∧
    8 ≤ (unit { sample with ldep := 8 }).cur.ldep ∧ (unit { sample with ls := [24, 0, 0, 0, 0, 0, 0, 0], ldep := 1 }).cur.ldep = 0 + 1 ∧ st0.cur.ldep = 0 ∧
    st0.cur.lc = 0 ∧ (unit { sample with lc := 1 }).cur.lc = 1 ∧ ((unit { sample with lc := 2 }).cur.lc ≠ 0 ∧ (unit { sample with lc := 2 }).cur.lc ≠ 1) ∧
    (Reads st0 (.h 0) 64 false ∧ (64 : W64).toNat % 4 = 0) ∧ (Reads (two 2 0) (.h 0) 2 false ∧ (2 : W64).toNat % 4 ≠ 0) ∧ Reads st0 (.h 1) 3 true := by
  refine ⟨⟨rfl, rfl⟩, ?_, ?_, rfl, rfl, rfl, rfl, ⟨?_, ?_⟩, ⟨rfl, rfl⟩, ⟨rfl, ?_⟩, rfl⟩ <;> decide +kernel
/-- An instruction guarded off, an instruction of boot mode among them, and one under a poisoned guard. -/
theorem witness_GuardResults : (guardShape (.add .w8 (.h 0) (.h 1) off) = some (off, 1, [.h 0]) ∧ GuardOff st0 off ∧ (bootInstr (.add .w8 (.h 0) (.h 1) off) = true → BootMode st0)) ∧
    (guardShape (.rprd (.h 0) ⟨2, false⟩) = some (⟨2, false⟩, 1, [.h 0]) ∧ GuardOff { st0 with cells := [] } ⟨2, false⟩ ∧ BootMode { st0 with cells := [] }) ∧
    (guardShape (.await (.h 0) 0 ⟨3, true⟩) = some (⟨3, true⟩, 1, [.h 0, .h 0]) ∧ (st0.cur.pred 3).2 = true) := ⟨⟨rfl, rfl, nofun⟩, ⟨rfl, rfl, rfl⟩, rfl, rfl⟩
theorem witness_UnreadyOperandStalls : readEnt st0.cur (.h 3) = .wait 9 ∧ GuardOn st0 on := ⟨rfl, rfl⟩
/-- The last aligned doubleword of the region, and an offset that a displacement makes. -/
theorem witness_LoadResults : Reads (two 0x3FFF8 16) (.h 0) 0x3FFF8 false ∧ Reads (two 0x3FFF8 16) (.h 1) 16 false ∧ GuardOn (two 0x3FFF8 16) on ∧
    Memory.wf (two 0x3FFF8 16).mem = true ∧ ((0x3FFF8 : W64).toNat % 8 = 0 ∧ (0x3FFF8 : W64).toNat < regionSize (two 0x3FFF8 16).cur) ∧
    ((0x3FFF8 + 16 + (-16 : W32).signExtend 64 : W64).toNat % 8 = 0 ∧ (0x3FFF8 + 16 + (-16 : W32).signExtend 64 : W64).toNat < regionSize (two 0x3FFF8 16).cur) := by
  refine ⟨rfl, rfl, rfl, rfl, ⟨?_, ?_⟩, ?_, ?_⟩ <;> decide +kernel
theorem witness_StoreResults : Reads (two 0x3FFFF 1) (.h 0) 0x3FFFF false ∧ Reads (two 0x3FFFF 1) (.h 1) 1 false ∧ Reads st0 (.h 1) 3 true ∧ GuardOn (two 0x3FFFF 1) on ∧
    Memory.wf (two 0x3FFFF 1).mem = true ∧ ((0x3FFFF : W64).toNat % 1 = 0 ∧ (0x3FFFF : W64).toNat < regionSize (two 0x3FFFF 1).cur) ∧
    ((0x3FFFF + 1 + (-1 : W32).signExtend 64 : W64).toNat % 1 = 0 ∧ (0x3FFFF + 1 + (-1 : W32).signExtend 64 : W64).toNat < regionSize (two 0x3FFFF 1).cur) := by
  refine ⟨rfl, rfl, rfl, rfl, rfl, ⟨?_, ?_⟩, ?_, ?_⟩ <;> decide +kernel
/-- A poisoned offset, a misaligned one, and the first one past the region. -/
theorem witness_ScratchpadChecks : (Reads st0 (.h 1) 3 true ∧ Reads st0 (.h 0) 64 false ∧ Reads st0 (.h 2) 8 false ∧ GuardOn st0 on) ∧
    (Reads (two 0x40000 4) (.h 0) 0x40000 false ∧ regionSize (two 0x40000 4).cur ≤ (0x40000 : W64).toNat) ∧ (Reads (two 0x40000 4) (.h 1) 4 false ∧ (4 : W64).toNat % 8 ≠ 0) := by
  refine ⟨⟨rfl, rfl, rfl, rfl⟩, ⟨rfl, ?_⟩, rfl, ?_⟩ <;> decide +kernel
/-- The first and the last format descriptor, the generator after them, an unlisted number between, and a poisoned number. -/
theorem witness_SystemRegisterResults : (Reads (two 0x40 0x4F) (.h 0) 0x40 false ∧ Reads (two 0x40 0x4F) (.h 1) 0x4F false ∧ Reads (two 0x50 0x12) (.h 0) 0x50 false ∧
    Reads (two 0x50 0x12) (.h 1) 0x12 false ∧ Reads (two 3 4) (.h 0) 3 false ∧ Reads (two 3 4) (.h 1) 4 false ∧ GuardOn (two 0x40 0x4F) on) ∧ Reads st0 (.h 1) 3 true :=
  ⟨⟨rfl, rfl, rfl, rfl, rfl, rfl, rfl⟩, rfl⟩
theorem witness_NopBreakTrap : st0.cur.dbg.dbgn = 0 ∧ (unit { sample with dbg := { dbgn := mate } }).cur.dbg.dbgn ≠ 0 := ⟨rfl, by decide +kernel⟩
/-- The last entry of the repair table, and the first index past it. -/
theorem witness_BootInstructions : (BootMode { two 15 7 with cells := [] } ∧ Reads { two 15 7 with cells := [] } (.h 0) 15 false ∧ Reads { two 15 7 with cells := [] } (.h 1) 7 false ∧
    GuardOn { two 15 7 with cells := [] } on ∧ (15 : W64).toNat < 16 ∧ (({ two 15 7 with cells := [] } : State).cell 0).repair.length = 16) ∧
    (BootMode { two 16 7 with cells := [] } ∧ Reads { two 16 7 with cells := [] } (.h 0) 16 false ∧ 16 ≤ (16 : W64).toNat) ∧
    (BootMode { st0 with cells := [] } ∧ Reads { st0 with cells := [] } (.h 1) 3 true) := by
  refine ⟨⟨rfl, rfl, rfl, rfl, ?_, rfl⟩, ⟨rfl, rfl, ?_⟩, rfl, rfl⟩ <;> decide
theorem witness_BootInstructionsElsewhereKill : bootInstr (.halt .zero off) = true ∧ ¬ BootMode st0 := ⟨rfl, by unfold BootMode; decide +kernel⟩

/-- An invalid descriptor, a tile of 512 KiB, one of exactly 256 KiB, local and global, and a `loc` of bit 56. -/
theorem witness_TileDefinitions : (param64 st0 (.const 128) (.const 0) = .ok 128 ∧ param st0 false (.const 16) = .ok 16 ∧ resolve st0.cur true (.t 14) = .ok 14 ∧ Definable st0 14) ∧
    (Definable st0 15 ∧ param64 st0 (.const 0) (.const 0x1000000) = .ok (2 ^ 56)) ∧ validDesc (st0.cur.fmts.getD 5 0) = false ∧
    (validDesc (st0.cur.fmts.getD 0 0) = true ∧ 262144 < 128 * ceilDiv (1024 * (descOf (st0.cur.fmts.getD 0 0)).wd) 8 ∧ 64 * ceilDiv (1024 * (descOf (st0.cur.fmts.getD 0 0)).wd) 8 ≤ 262144) := by
  refine ⟨⟨rfl, rfl, rfl, .inl rfl⟩, ⟨.inr (.inr (.inr ⟨rfl, rfl⟩)), rfl⟩, ?_, ?_, ?_, ?_⟩ <;> decide +kernel
/-- The window that ends a source of two rows, and one that goes a row past it. -/
theorem witness_TileViews : (resolve st0.cur true (.t 14) = .ok 14 ∧ resolve st0.cur false (.t 0) = .ok 0 ∧ Definable st0 14 ∧ Readable st0 0 ∧ Sized st0 0 f32 32) ∧
    (Definable st0 2 ∧ Readable st0 11) ∧ (resolve st0.cur false (.t 8) = .ok 8 ∧ Readable st0 8 ∧ Sized st0 8 f32 32) ∧
    (0 + 2 ≤ (tileAt st0.cur 0).rows.toNat ∧ 0 + 4 ≤ (tileAt st0.cur 0).cols.toNat ∧ (tileAt st0.cur 0).loc.toNat % 128 = 0) ∧ ¬ 1 + 2 ≤ (tileAt st0.cur 0).rows.toNat := by
  refine ⟨⟨rfl, rfl, .inl rfl, .inl rfl, ?_⟩, ⟨.inr (.inr (.inl rfl)), .inr rfl⟩, ⟨rfl, .inl rfl, ?_⟩, ?_, ?_⟩ <;> (try unfold Sized) <;> decide +kernel
theorem witness_HandleResults : (resolve st0.cur true (.t 14) = .ok 14 ∧ Definable st0 14) ∧ (resolve st0.cur true (.t 13) = .ok 13 ∧ (tileAt st0.cur 13).state = .latched) ∧
    (resolve st0.cur true (.t 1) = .ok 1 ∧ Writable st0 1 ∧ Local st0 1 ∧ Sized st0 1 f32 32 ∧ Unread st0 (tileAt st0.cur 1).loc.toNat 32 ∧ (st0.cell st0.cur.cell).vunit = none) ∧
    (resolve st0.cur true (.t 9) = .ok 9 ∧ Writable st0 9 ∧ ¬ Local st0 9) := by
  refine ⟨⟨rfl, .inl rfl⟩, ⟨rfl, rfl⟩, ⟨rfl, .inl rfl, rfl, ?_, rfl, rfl⟩, rfl, .inl rfl, ?_⟩
  · unfold Sized; decide +kernel
  · unfold Local; decide +kernel
/-- Every state of a tile, as the operand written and as the operand read. -/
theorem witness_TileStateChecks : (resolve st0.cur true (.t 31) = .ok 31 ∧ resolve st0.cur false (.t 0) = .ok 0) ∧ (tileAt st0.cur 14).state = .free ∧ (tileAt st0.cur 13).state = .latched ∧
    (tileAt st0.cur 10).state = .filling ∧ (tileAt st0.cur 11).state = .draining ∧ ((tileAt st0.cur 12).state = .given ∧ (tileAt st0.cur 12).drn ≠ 0) ∧
    (Definable st0 2 ∧ (tileAt st0.cur 1).state = .empty) ∧ (tileAt st0.cur 15).state = .given := by
  refine ⟨⟨rfl, rfl⟩, rfl, rfl, rfl, rfl, ⟨rfl, ?_⟩, ⟨.inr (.inr (.inl rfl)), rfl⟩, rfl⟩; decide +kernel
theorem witness_TileSelectors : (({ sample with rings := [{ def_ := true, first := 20, count := 8, pidx := 7 }] } : Actor).rings.getD 0 {}).def_ = true ∧ (sample.rings.getD 3 {}).def_ = false ∧
    st0.cur = sample := ⟨rfl, rfl, rfl⟩
/-- A ring whose slots are in every state that `rwait` meets, and a cursor that is not defined. -/
theorem witness_RingResults : ((unit { sample with rings := [{ def_ := true, first := 10, count := 6 }] }).cur.rings.getD 0 {}).def_ = true ∧ (st0.cur.rings.getD 0 {}).def_ = false := ⟨rfl, rfl⟩
theorem witness_BarrierResults : Reads st0 (.h 1) 3 true ∧ Reads st0 (.h 0) 64 false := ⟨rfl, rfl⟩

/-- Two tiles of one size, one handle twice, and tiles of two sizes. -/
theorem witness_LocalCopyIssues : (resolve st0.cur true (.t 1) = .ok 1 ∧ resolve st0.cur false (.t 0) = .ok 0 ∧ Writable st0 1 ∧ Readable st0 0 ∧ Local st0 1 ∧ Local st0 0 ∧ st0.cur.roaming = false ∧
    Sized st0 1 f32 32 ∧ Sized st0 0 f32 32 ∧ Unread st0 (tileAt st0.cur 1).loc.toNat 32 ∧ (st0.cell (runCell st0.cur)).outstanding < 32) ∧
    (Writable st0 0 ∧ Readable st0 0) ∧ (Readable st0 6 ∧ Local st0 6 ∧ Sized st0 6 (intDesc 4 32 true) 4) := by
  refine ⟨⟨rfl, rfl, .inl rfl, .inl rfl, rfl, rfl, rfl, ?_, ?_, rfl, ?_⟩, ⟨.inr rfl, .inl rfl⟩, .inl rfl, rfl, ?_⟩ <;> (try unfold Sized) <;> decide +kernel
/-- A fetch of 32 mapped bytes, one from a global tile, and one of the wrong length; a `.g4` form's record stands below. -/
theorem witness_FetchIssues : (param64 st0 (.const 0x10000) (.const 0) = .ok 0x10000 ∧ param st0 false (.const 16) = .ok 16 ∧ resolve st0.cur true (.t 1) = .ok 1 ∧ globalTile st0 false .g2 = .ok none ∧
    Writable st0 1 ∧ Local st0 1 ∧ st0.cur.roaming = false ∧ Sized st0 1 f32 32 ∧ Unread st0 (tileAt st0.cur 1).loc.toNat 32 ∧ EngineFree st0 ∧ st0.cur.shadow = none) ∧
    (let p : Pattern := { g := 0x10000, n0 := 16, n1 := 2, s1 := 16 }
     p.total = 32 ∧ lookAll st0 st0.cur (.fetch false) (p.split.map (·.va)) = .ok [.hit 0x1000000 0, .hit 0x1000010 0]) ∧
    (globalTile st0 false (.gt (.t 8)) = .ok (some 8) ∧ ¬ Local st0 8 ∧ Readable st0 8 ∧ validDesc (descVal st0.cur (tileAt st0.cur 8)) = true) ∧
    ({ g := 0x10000, n0 := 16, n1 := 1 } : Pattern).total ≠ 32 := by
  refine ⟨⟨rfl, rfl, rfl, rfl, .inl rfl, rfl, rfl, ?_, rfl, ⟨?_, rfl⟩, rfl⟩, ⟨?_, rfl⟩, ⟨rfl, ?_, .inl rfl, ?_⟩, ?_⟩ <;> (try unfold Sized) <;> (try unfold Local) <;> decide +kernel
/-- The same for a write; one with `.rel` that a write in flight holds back, and one that nothing does. -/
theorem witness_WriteIssues : (param64 st0 (.const 0x10000) (.const 0) = .ok 0x10000 ∧ param st0 false (.const 16) = .ok 16 ∧ globalTile st0 true .g2 = .ok none ∧ resolve st0.cur false (.t 0) = .ok 0 ∧
    Readable st0 0 ∧ Local st0 0 ∧ st0.cur.roaming = false ∧ Sized st0 0 f32 32 ∧ EngineFree st0 ∧ (st0.cell (runCell st0.cur)).logged < 32 ∧ st0.cur.shadow = none) ∧
    (globalTile st0 true (.gt (.t 9)) = .ok (some 9) ∧ ¬ Local st0 9 ∧ Writable st0 9) ∧
    (let p : Pattern := { g := 0x10000, n0 := 16, n1 := 2, s1 := 16 }
     p.total = 32 ∧ lookAll st0 st0.cur .write (p.split.map (·.va)) = .ok [.hit 0x1000000 0, .hit 0x1000010 0]) ∧
    st0.cur.relReady .p = true ∧ (unit { sample with outs := [{ inv := 1, kind := .write, pkg := true }] }).cur.relReady .k = false := by
  refine ⟨⟨rfl, rfl, rfl, rfl, .inl rfl, rfl, rfl, ?_, ⟨?_, rfl⟩, ?_, rfl⟩, ⟨rfl, ?_, .inl rfl⟩, ⟨?_, rfl⟩, rfl, rfl⟩ <;> (try unfold Sized) <;> (try unfold Local) <;> decide +kernel
/-- A pattern record in the scratchpad that a `.g4` form reads. -/
theorem witness_FetchIssues_record : patternRecord { st0 with mem := [(spKey 0 0x8000, 32), (spKey 0 0x8004, 1), (spKey 0 0x8006, 1), (spKey 0 0x8008, 1)] } 0x10000 0x8000 = .ok { g := 0x10000, n0 := 32 } := by
  have h : (match patternRecord { st0 with mem := [(spKey 0 0x8000, 32), (spKey 0 0x8004, 1), (spKey 0 0x8006, 1), (spKey 0 0x8008, 1)] } 0x10000 0x8000 with | .ok p => some p | .error _ => none) =
    some { g := 0x10000, n0 := 32 } := by decide +kernel
  revert h; cases patternRecord _ _ _ <;> simp
/-- An index tile of INT32 with an element for each row, one of another format, and one of too few elements. -/
theorem witness_IndexedCopiesIssue : (param64 st0 (.const 0) (.const 0) = .ok 0 ∧ param st0 false (.const 64) = .ok 64 ∧ resolve st0.cur false (.t 3) = .ok 3 ∧ Readable st0 3 ∧ Local st0 1 ∧ Local st0 3 ∧ st0.cur.roaming = false ∧
    Sized st0 1 f32 32 ∧ Sized st0 3 (intDesc 4 32 true) 32 ∧ EngineFree st0 ∧ st0.cur.shadow = none ∧ resolve st0.cur true (.t 1) = .ok 1 ∧ Writable st0 1 ∧ Unread st0 (tileAt st0.cur 1).loc.toNat 32) ∧
    (resolve st0.cur false (.t 0) = .ok 0 ∧ Readable st0 0 ∧ Local st0 0 ∧ Sized st0 0 f32 32 ∧ (st0.cell (runCell st0.cur)).logged < 32 ∧ st0.cur.relReady .p = true) ∧
    (f32.cls ≠ 4 ∧ Readable st0 2 ∧ Sized st0 2 f32 32) ∧ (Sized st0 6 (intDesc 4 32 true) 4 ∧ (tileAt st0.cur 6).rows.toNat * (tileAt st0.cur 6).cols.toNat < (tileAt st0.cur 1).rows.toNat) := by
  refine ⟨⟨rfl, rfl, rfl, .inl rfl, rfl, rfl, rfl, ?_, ?_, ⟨?_, rfl⟩, rfl, rfl, .inl rfl, rfl⟩, ⟨rfl, .inl rfl, rfl, ?_, ?_, rfl⟩, ⟨?_, .inl rfl, ?_⟩, ?_, ?_⟩ <;> (try unfold Sized) <;> decide +kernel
/-- The issuing actor with no LATCHED tile, in a cohort of two that is a row, and its mate. -/
def paired (a : Actor) : State := let s := unit a
  { s with cohorts := [{ job := 1, serial := 5, n := 2, shape := .row }], actors := s.actors ++ [(mate.toNat, { name := mate, file := 2, size := 1 })] }
/-- Its tiles without the LATCHED one. -/
def bare : Actor := { sample with tiles := sampleTiles.set 13 {} }
/-- Free and bound accumulators and latches; a narrow tile of 2 × 4 for every load, and the relay form in a cohort. -/
theorem witness_LatchesLoad : ((paired bare).cur.roaming = false ∧ ((paired bare).cell (paired bare).cur.cell).munit = none) ∧
    ((((paired bare).cell 0).accs.getD 3 {}).bind = none ∧ (((paired bare).cell 0).accs.getD 3 {}).busy = false) ∧
    (resolve (paired bare).cur false (.t 30) = .ok 30 ∧ Local (paired bare) 30 ∧ Readable (paired bare) 30 ∧ Sized (paired bare) 30 (descOf narrow8) 8 ∧ (descOf narrow8).cls = 0 ∧
      (tileAt (paired bare).cur 30).rows.toNat ≤ 128 ∧ (tileAt (paired bare).cur 30).cols.toNat ≤ 128 ∧ (descOf narrow8).sgeo ≠ 1 ∧ (descOf narrow8).sgeo ≠ 2) ∧
    (((paired bare).cell 0).laBind = none ∧ ((paired bare).cell 0).lbBind = none ∧ ((paired bare).cell 0).lbOwner = 0 ∧ (paired bare).focus ≠ 0 ∧ latchedOf (paired bare).cur = none ∧
      ((paired bare).cohortOf (selfName (paired bare).cur)).any (fun c => c.shape != .any) = true) := by
  refine ⟨⟨rfl, rfl⟩, ⟨rfl, rfl⟩, ⟨rfl, rfl, .inl rfl, ?_, ?_⟩, ?_⟩ <;> (try unfold Sized) <;> decide +kernel
/-- No LATCHED tile; no cohort; a name outside the cohort; and a member of it. -/
theorem witness_RelayLeaves : (Reads (two mate 7) (.h 0) mate false ∧ Reads (two mate 7) (.h 1) 7 false ∧ (two mate 7).cur.roaming = false) ∧ latchedOf (unit bare).cur = none ∧
    (latchedOf st0.cur = some 13 ∧ st0.cohortOf (selfName st0.cur) = none) ∧ (latchedOf (paired sample).cur = some 13 ∧ (paired sample).cohortOf me = some { job := 1, serial := 5, n := 2, shape := .row } ∧
      pkgOf mate = pkgOf me ∧ jobOf mate = 1 ∧ 5 ≤ serialOf mate ∧ serialOf mate < 5 + 2 ∧ ((paired sample).actor mate).roaming = false ∧ ((paired sample).cell 0).outstanding < 32 ∧
      ovfFits { sample with outbox := [.relay { dest := mate, sender := me, chan := 1, plen := 1, m := [7, 0, 0, 0], caps := [{ capOf (tileAt sample 13) with loc := 0 }] } 1] } = true) := by
  refine ⟨⟨rfl, rfl, rfl⟩, ?_, ?_, ?_⟩ <;> decide +kernel
/-- Tiles, scaled tiles with scales, latches, an accumulator and a tile as sources; a window that ends the accumulator. -/
theorem witness_MatrixResults : (st0.cur.roaming = false ∧ (st0.cell st0.cur.cell).munit = none ∧ ((st0.cell 0).accs.getD 3 {}).bind = none ∧ ((st0.cell 0).accs.getD 3 {}).busy = false) ∧
    (resolveOpt st0.cur (tileSelOf (.tile (.t 30))) = .ok (some 30) ∧ resolveOpt st0.cur (tileSelOfB (.tile (.t 31))) = .ok (some 31) ∧ Local st0 30 ∧ Readable st0 30 ∧ Sized st0 30 (descOf narrow8) 8 ∧
      Local st0 31 ∧ Readable st0 31 ∧ Sized st0 31 (descOf narrow8) 8 ∧ validDesc (tileOp st0 30).desc = true ∧ validDesc (tileOp st0 31).desc = true ∧
      srAdmits .pt (descOf (tileOp st0 30).desc) = true ∧ (tileOp st0 31).rows = (tileOp st0 30).cols) ∧
    (resolveOpt st0.cur (some (.t 6)) = .ok (some 6) ∧ Local st0 6 ∧ Readable st0 6 ∧ Sized st0 6 (intDesc 4 32 true) 4 ∧ (descOf (tileOp st0 5).desc).sgeo ≠ 0 ∧ srAdmits .pt (descOf (tileOp st0 5).desc) = true ∧
      (descOf (tileOp st0 5).desc).scaleCount (tileOp st0 5).rows (tileOp st0 5).cols ≤ tileSize (tileAt st0.cur 6) (descOf (descVal st0.cur (tileAt st0.cur 6)))) ∧
    (resolve st0.cur false (.t 0) = .ok 0 ∧ Local st0 0 ∧ Readable st0 0 ∧ Sized st0 0 f32 32 ∧ 1 ≤ f32.cls ∧ f32.cls ≤ 3) ∧
    (resolve st0.cur true (.t 1) = .ok 1 ∧ Local st0 1 ∧ Writable st0 1 ∧ Sized st0 1 f32 32 ∧ Unread st0 (tileAt st0.cur 1).loc.toNat 32 ∧
      (126 : BitVec 7).toNat + (tileAt st0.cur 1).rows.toNat ≤ 128 ∧ (124 : BitVec 7).toNat + (tileAt st0.cur 1).cols.toNat ≤ 128) := by
  refine ⟨⟨rfl, rfl, rfl, rfl⟩, ⟨rfl, rfl, rfl, .inl rfl, ?_, rfl, .inl rfl, ?_, ?_⟩, ⟨rfl, rfl, .inl rfl, ?_, ?_⟩, ⟨rfl, rfl, .inl rfl, ?_, ?_⟩, ⟨rfl, rfl, .inl rfl, ?_, rfl, ?_⟩⟩ <;>
    (try unfold Sized) <;> decide +kernel
/-- Both operands in the latches, bound to the issuing invocation. -/
theorem witness_MatrixResults_latches : let l : Latch := { loaded := true, rows := 2, cols := 2, desc := narrow8, codes := [0, 0, 0, 0] }
    let s : State := { st0 with cells := [(0, { la := l, laBind := some (me, 1), lb := l, lbBind := some (me, 1) })] }
    resolveOpt s.cur (tileSelOf .la) = .ok none ∧ resolveOpt s.cur (tileSelOfB .lb) = .ok none ∧ (s.cell s.cur.cell).laBind = some (s.focus, s.cur.invNo) ∧ (s.cell 0).la.loaded = true ∧
      (s.cell s.cur.cell).lbBind = some (s.focus, s.cur.invNo) ∧ (s.cell 0).lb.loaded = true ∧ (s.cell 0).lbOwner = 0 ∧ (latchOp l).rows = (latchOp l).cols := ⟨rfl, rfl, rfl, rfl, rfl, rfl, rfl, rfl⟩

/-- Whether a tile is one that a vector instruction takes (10 R231, R248). -/
def usable (s : State) (h : Nat) : Bool :=
  let e := tileAt s.cur h
  !e.glob && validDesc (descVal s.cur e) && bytesAt s h ≤ 262144 && e.loc.toNat + bytesAt s h ≤ regionSize s.cur
/-- A tile that is usable is a local one of some size. -/
theorem usable_sized {s : State} {h : Nat} (u : usable s h = true) : Local s h ∧ ∃ f n, Sized s h f n := by
  simp only [usable, Bool.and_eq_true, Bool.not_eq_true', decide_eq_true_eq] at u
  obtain ⟨⟨⟨g, v⟩, b⟩, l⟩ := u
  exact ⟨g, fmtOf s h, bytesAt s h, v, rfl, rfl, b, fun _ => l⟩
/-- `VecOk` from checks that evaluate. -/
theorem vec_ok {s : State} {d : Nat} {rs : List Nat} (h : (!s.cur.roaming && (s.cell s.cur.cell).vunit.isNone && usable s d && ((tileAt s.cur d).state == .empty) &&
    rs.all fun r => usable s r && (tileAt s.cur r).state == .ready) = true) (u : Unread s (tileAt s.cur d).loc.toNat (bytesAt s d)) : VecOk s d rs := by
  simp only [Bool.and_eq_true, Bool.not_eq_true', Option.isNone_iff_eq_none, beq_iff_eq, List.all_eq_true] at h
  obtain ⟨⟨⟨⟨r, v⟩, ud⟩, e⟩, q⟩ := h
  exact ⟨r, v, ⟨(usable_sized ud).1, .inl e, (usable_sized ud).2, u⟩, fun k hk => ⟨(usable_sized (q k hk).1).1, .inl (q k hk).2, (usable_sized (q k hk).1).2⟩⟩
/-- FP32 tiles of one shape, with b a tile and with `xs`; x a constant and a poisoned register; an `vfma` with its third tile. -/
theorem witness_VectorArithmetic : (VecValue st0 ext 0 false ∧ VecValue st0 { ext with sx := .h 1 } 3 true) ∧
    (resolve st0.cur true (.t 1) = .ok 1 ∧ resolve st0.cur false (.t 0) = .ok 0 ∧ VecB st0 ext (.t 2) (some 2) ∧ VecB st0 { ext with xs := true } (.t 0) none ∧ resolve st0.cur false ext.c = .ok 0) ∧
    ((∀ h ∈ [1, 0, 2], FloatTile st0 h ∧ shapeOf st0 h = shapeOf st0 1) ∧ ¬ ScaledTile st0 1) ∧ VecOk st0 1 [0, 2] ∧ VecOk st0 1 [0, 2, 0] ∧ VecOk st0 1 [0] := by
  refine ⟨⟨⟨rfl, rfl⟩, (rfl : readEnt st0.cur (.h 1) = _)⟩, ⟨rfl, rfl, ⟨2, rfl, rfl⟩, rfl, rfl⟩, ⟨?_, ?_⟩, vec_ok ?_ rfl, vec_ok ?_ rfl, vec_ok ?_ rfl⟩ <;> (try unfold ScaledTile) <;> (try unfold FloatTile) <;> decide +kernel
/-- Float and integer compares, a select, and rows and columns reduced in both kinds. -/
theorem witness_VectorComparesAndReductions : (VecOk st0 1 [0, 2] ∧ FloatTile st0 0 ∧ FloatTile st0 2 ∧ condOfNum 11 ∉ [Cond.ltu, .geu, .leu, .gtu] ∧ ¬ ScaledTile st0 1) ∧
    (VecOk st0 21 [3, 22] ∧ IntTile st0 3 ∧ IntTile st0 22 ∧ shapeOf st0 3 = shapeOf st0 21 ∧ condOfNum 9 ∉ [Cond.un, .ord] ∧ ¬ ScaledTile st0 21) ∧
    (VecOk st0 1 [0, 2, 23] ∧ shapeOf st0 23 = shapeOf st0 1) ∧ (VecOk st0 17 [0] ∧ shapeOf st0 17 = ((shapeOf st0 0).1, 1) ∧ FloatTile st0 17) ∧
    (VecOk st0 24 [3] ∧ shapeOf st0 24 = ((shapeOf st0 3).1, 1) ∧ IntTile st0 24) ∧ (VecOk st0 18 [0] ∧ shapeOf st0 18 = (1, (shapeOf st0 0).2) ∧ FloatTile st0 18) ∧
    (VecOk st0 25 [3] ∧ shapeOf st0 25 = (1, (shapeOf st0 3).2) ∧ IntTile st0 25) := by
  refine ⟨⟨vec_ok ?_ rfl, ?_, ?_, ?_, ?_⟩, ⟨vec_ok ?_ rfl, ?_, ?_, ?_, ?_, ?_⟩, ⟨vec_ok ?_ rfl, ?_⟩, ⟨vec_ok ?_ rfl, ?_, ?_⟩, ⟨vec_ok ?_ rfl, ?_, ?_⟩, ⟨vec_ok ?_ rfl, ?_, ?_⟩, ⟨vec_ok ?_ rfl, ?_, ?_⟩⟩ <;>
    (try unfold ScaledTile) <;> (try unfold FloatTile) <;> (try unfold IntTile) <;> decide +kernel
/-- Conversions, movements, and a scaled tile dequantised and quantised with tiles of scale bytes. -/
theorem witness_VectorConversionsAndMoves : (VecOk st0 1 [0] ∧ ¬ ScaledTile st0 1 ∧ shapeOf st0 0 = shapeOf st0 1 ∧ FloatTile st0 0) ∧
    (VecOk st0 16 [0] ∧ shapeOf st0 16 = ((shapeOf st0 0).2, (shapeOf st0 0).1)) ∧ (VecOk st0 1 [19] ∧ (shapeOf st0 19).1 = 1 ∧ (shapeOf st0 19).2 = (shapeOf st0 1).2) ∧
    (VecOk st0 17 [0] ∧ (shapeOf st0 17).1 = (shapeOf st0 0).1 ∧ 3 + (shapeOf st0 17).2 ≤ (shapeOf st0 0).2) ∧ (VecOk st0 1 [0, 3] ∧ IntTile st0 3 ∧ shapeOf st0 3 = shapeOf st0 1 ∧ resolve st0.cur false (.t 3) = .ok 3) ∧
    (VecOk st0 20 [0, 2] ∧ (shapeOf st0 20).1 = (shapeOf st0 0).1 ∧ (shapeOf st0 20).2 = (shapeOf st0 0).2 + (shapeOf st0 2).2) ∧
    (VecOk st0 1 [5, 6] ∧ ScaledTile st0 5 ∧ shapeOf st0 5 = shapeOf st0 1 ∧ (fmtOf st0 5).scaleCount 2 4 ≤ bytesAt st0 6) ∧
    (VecOk st0 4 [0] ∧ Local st0 7 ∧ Writable st0 7 ∧ (∃ f n, Sized st0 7 f n) ∧ Unread st0 (tileAt st0.cur 7).loc.toNat (bytesAt st0 7) ∧ ScaledTile st0 4 ∧ shapeOf st0 0 = shapeOf st0 4 ∧
      (tileAt st0.cur 0).loc.toNat + bytesAt st0 0 ≤ (tileAt st0.cur 7).loc.toNat ∧ (tileAt st0.cur 4).loc.toNat + bytesAt st0 4 ≤ (tileAt st0.cur 7).loc.toNat ∧
      (fmtOf st0 4).scaleCount 2 4 ≤ bytesAt st0 7) := by
  refine ⟨⟨vec_ok ?_ rfl, ?_, ?_, ?_⟩, ⟨vec_ok ?_ rfl, ?_⟩, ⟨vec_ok ?_ rfl, ?_⟩, ⟨vec_ok ?_ rfl, ?_⟩, ⟨vec_ok ?_ rfl, ?_, ?_, rfl⟩, ⟨vec_ok ?_ rfl, ?_⟩, ⟨vec_ok ?_ rfl, ?_, ?_, ?_⟩,
    ⟨vec_ok ?_ rfl, rfl, .inl rfl, (usable_sized (s := st0) (h := 7) ?_).2, rfl, ?_, ?_⟩⟩ <;> (try unfold ScaledTile) <;> (try unfold FloatTile) <;> (try unfold IntTile) <;> decide +kernel
/-- Integers with a tile and with x, codes of one format, softmax, a table of two entries for BIT codes, and fills of every class. -/
theorem witness_VectorIntegersAndTables : (VecOk st0 21 [3, 22] ∧ VecOk st0 21 [3] ∧ (∀ h ∈ [21, 3, 22], IntTile st0 h ∧ shapeOf st0 h = shapeOf st0 21) ∧ ¬ ScaledTile st0 21) ∧
    (∀ h ∈ [3, 22], descVal st0.cur (tileAt st0.cur h) = descVal st0.cur (tileAt st0.cur 21)) ∧ (VecOk st0 1 [0] ∧ FloatTile st0 1 ∧ FloatTile st0 0) ∧
    (VecOk st0 1 [23, 0] ∧ (fmtOf st0 23).cls = 6 ∧ shapeOf st0 23 = shapeOf st0 1 ∧ 2 ^ (fmtOf st0 23).wd ≤ (shapeOf st0 0).1 * (shapeOf st0 0).2) ∧
    (VecOk st0 1 [] ∧ VecOk st0 21 [] ∧ IntTile st0 21 ∧ VecOk st0 26 [] ∧ (fmtOf st0 26).cls = 6 ∧ ({ ext with fx := 1 } : VExt).fx.val = 1 ∧ ext.fx.val ≠ 1) := by
  refine ⟨⟨vec_ok ?_ rfl, vec_ok ?_ rfl, ?_, ?_⟩, ?_, ⟨vec_ok ?_ rfl, ?_, ?_⟩, ⟨vec_ok ?_ rfl, ?_⟩, ⟨vec_ok ?_ rfl, vec_ok ?_ rfl, ?_, vec_ok ?_ rfl, ?_⟩⟩ <;>
    (try unfold ScaledTile) <;> (try unfold FloatTile) <;> (try unfold IntTile) <;> decide +kernel
/-- A fence with nothing outstanding and one with a write of its scope outstanding; an atomic at a mapped doubleword, one off its boundary, one that a write holds back, and one whose
page is ABSENT. -/
theorem witness_AtomicsAndFences : st0.cur.outs = [] ∧ (let s := unit { sample with outs := [{ inv := 1, kind := .write, pkg := true }] }
      (∃ o ∈ s.cur.outs, o.inv = s.cur.invNo ∧ o.inScope .k = true ∧ o.kind = .write) ∧ s.cur.relReady .k = false) ∧
    (GuardOn (two 0x10000 5) on ∧ Reads (two 0x10000 5) (.h 0) 0x10000 false ∧ Reads (two 0x10000 5) (.h 1) 5 false ∧ Reads (two 0x10000 5) .zero 0 false ∧ (0x10000 + sext32 0).toNat % 8 = 0 ∧
      (0x10000 + sext32 4).toNat % 8 ≠ 0 ∧ (two 0x10000 5).cur.relReady .p = true ∧ (two 0x10000 5).cur.acqHold = false ∧ (two 0x10000 5).cur.shadow = none ∧
      lookAll (two 0x10000 5) (two 0x10000 5).cur .atomic [0x10000] = .ok [.hit 0x1000000 0] ∧ behind (two 0x10000 5) [0x10000] = false ∧ homeOf 0x1000000 = some (.slice (dramSlice 0x1000000))) ∧
    (let s := unit { sample with walks := [(9, true)] }
     lookAll s s.cur .atomic [0x90000] = .ok [.absent] ∧ (s.cell (runCell s.cur)).logged < 32) := by
  refine ⟨rfl, ⟨⟨_, List.mem_singleton.mpr rfl, rfl, rfl, rfl⟩, rfl⟩, ⟨rfl, rfl, rfl, rfl, ?_, ?_, rfl, rfl, rfl, rfl, rfl, ?_⟩, rfl, ?_⟩ <;> decide +kernel
/-- The issuing actor with its commons pages owned, so that it may declare there. -/
def owner : State := unit { sample with exts := [{ vpage := 1, npg := 4, ppage := 0x100, valid := true, share := .owner }] }
/-- A declaration with the least and the most slices, and one of none; a contribution. -/
theorem witness_ReductionsAndExtents_objects : (param64 owner (.const 0x10000) (.const 0) = .ok 0x10000 ∧ param owner false (.const 1) = .ok 1 ∧ param owner false (.const 65535) = .ok 65535 ∧ owner.cur.acqHold = false ∧
      owner.cur.shadow = none ∧ Reads owner .self me false ∧ validDesc (owner.cur.fmts.getD 0 0) = true ∧ 1 ≤ (descOf (owner.cur.fmts.getD 0 0)).cls ∧ (descOf (owner.cur.fmts.getD 0 0)).cls ≤ 4 ∧
      0x10000 % 4096 = 0 ∧ 2 * rowBytes 4 (descOf (owner.cur.fmts.getD 0 0)).wd ≤ 262144 ∧ (redPieces 0x10000 32).map (·.va) = [0x10000] ∧
      lookAll owner owner.cur .declare [0x10000] = .ok [.hit 0x1000000 0]) ∧ param owner false (.const 0) = .ok 0 ∧
    (resolve owner.cur false (.t 0) = .ok 0 ∧ Readable owner 0 ∧ Local owner 0 ∧ Sized owner 0 f32 32 ∧ 1 ≤ f32.cls ∧ f32.cls ≤ 5 ∧ lookAll owner owner.cur .contrib [0x10000] = .ok [.hit 0x1000000 0] ∧
      behind owner [0x10000] = false) := by
  refine ⟨⟨rfl, rfl, rfl, rfl, rfl, rfl, ?_, ?_, ?_, rfl, ?_, ?_, rfl⟩, rfl, rfl, .inl rfl, rfl, ?_, ?_, ?_, rfl, rfl⟩ <;> (try unfold Sized) <;> decide +kernel
/-- Buoy allocations to make, made and to free. -/
theorem witness_ReductionsAndExtents_buoy : (param64 st0 (.const 0x100000) (.const 0) = .ok 0x100000 ∧ 0x100000 / 2 ^ 56 = 0 ∧ 0x100000 % 2 ^ 20 = 0 ∧
      (regionAt (st0.image st0.cur) 0x100000).map (fun x => (x.1, x.2.kind, x.2.locked, x.2.mirror, x.2.share, decide (0x100000 + 2 * 2 ^ 20 ≤ x.2.vbase + x.2.size))) = some (1, .buoy, false, true, .owner, true) ∧
      st0.cur.pend = none ∧ st0.hostDuty 4 = false) ∧ (unit { sample with pend := some 18 }).cur.pend = some (16 + 2) ∧
    (∀ p, ¬ (st0.ballocs.find? p).isSome) ∧ (let e : BuoyAlloc := { job := 1, actor := me, va := 0x100000, mib := 1 }
      let s : State := { unit { sample with pend := some 1 } with ballocs := [e] }
      (s.ballocs.find? fun e => e.va == 0x100000 && e.mib == 1 && e.job == jobOf s.focus && (e.actor == s.focus || e.mir)) = some e ∧ s.cur.pend = some 1) := by
  refine ⟨⟨rfl, rfl, rfl, ?_, rfl, ?_⟩, rfl, fun p => nofun, ?_⟩ <;> decide +kernel
/-- `xmap` where no region is, past a region's end, in a locked one, after a failed walk, and of a backed run; `xunmap` of nothing and of what no packet uses. -/
theorem witness_ReductionsAndExtents_extents : regionAt (st0.image st0.cur) 0x90000 = none ∧
    (regionAt (st0.image st0.cur) 0x10000).map (fun x => (x.1, x.2.locked, x.2.vbase + x.2.size)) = some (0, false, 0x10000 + 4 * 2 ^ 16) ∧
    (regionAt (st0.image st0.cur) 0x400000).map (fun x => (x.2.locked, decide (0x400000 + 2 ^ 16 ≤ x.2.vbase + x.2.size))) = some (true, true) ∧ (unit { sample with pend := some 4 }).cur.pend = some 4 ∧
    (let s : State := { st0 with backs := [{ job := 1, owner := me, vpage := 1, npg := 4, ppage := 0x100 }] }
     s.cur.pend ≠ some 4 ∧ 1 + 4 ≤ firstGap 1 (s.runsIn s.cur ((s.image s.cur).regions.getD 0 {}) 1 4) ∧ s.runsIn s.cur ((s.image s.cur).regions.getD 0 {}) 1 4 = [(1, 4, 0x100)] ∧
       wholePages ((s.image s.cur).regions.getD 0 {}).page 1 4 = (1, 4) ∧ s.cur.exts.filter (fun e => e.valid && e.pin) = [] ∧ (joinRuns [(1, 4, 0x100)]).length ≤ 12 ∧
       ((unit { sample with exts := [] }).cur.exts = [] ∧ s.cur.flies s.cur.drains = false)) ∧
    ((List.range 12).map fun i => ({ vpage := 0x100 + i, npg := 1, valid := true, pin := true } : Ext)).length = 12 ∧ (st0.cur.pend = none ∧ ∀ e ∈ st0.cur.exts, ¬ (e.valid = true ∧ e.npg ≠ 0 ∧ e.vpage < 90 + 1 ∧ 90 < e.vpage + e.npg)) ∧
    (∃ e ∈ st0.cur.exts, (e.valid = true ∧ e.npg ≠ 0 ∧ e.vpage < 1 + 1 ∧ 1 < e.vpage + e.npg) ∧ (if e.locked then ¬ (e.vpage = 1 ∧ e.npg = 1) else ¬ (1 ≤ e.vpage ∧ e.vpage + e.npg ≤ 1 + 1))) ∧
    ((unit { sample with pend := some 2 }).cur.pend ≠ none ∧ (unit { sample with pend := some 2 }).cur.flies (unit { sample with pend := some 2 }).cur.drains = false) := by decide +kernel
/-- A message to a mate, one to another job, one to a module that is lost, a tile given, a call, replies at both ends of the tags and beside them, and a multicast. -/
theorem witness_MessagesWait : (GuardOn (two mate 0x80) on ∧ Reads (two mate 0x80) (.h 0) mate false ∧ List.Forall₂ (fun a v => Reads (two mate 0x80) a v false) [.h 1] [0x80] ∧ jobOf mate = jobOf (selfName (two mate 0x80).cur) ∧
      (two mate 0x80).peerDead (pkgOf mate) = false ∧ ovfFits { (two mate 0x80).cur with outbox := [.msg { dest := mate, sender := me, plen := 1, m := [0x80, 0, 0, 0], caps := [capOf (tileAt sample 0)] } []] } = true) ∧
    (jobOf (nameOf 0 2 5 0) ≠ 0 ∧ jobOf (nameOf 0 2 5 0) ≠ jobOf me) ∧ (jobOf afar = jobOf me ∧ ({ st0 with regs := { dead := [1] } } : State).peerDead (pkgOf afar) = true) ∧
    (List.Forall₂ (fun t h => resolve st0.cur false t = .ok h ∧ Readable st0 h ∧ (Local st0 h → ∃ f n, Sized st0 h f n)) [.t 0, .t 8] [0, 8] ∧ [0, 8].Nodup ∧ (st0.cell (runCell st0.cur)).outstanding + 1 ≤ 32 ∧ pkgOf mate = pkgOf me) ∧
    ((128 ≤ (0x80 : W64).toNat ∧ (0x80 : W64).toNat < 256) ∧ (128 ≤ (0xFF : W64).toNat ∧ (0xFF : W64).toNat < 256) ∧ ¬ (128 ≤ (0x7F : W64).toNat ∧ (0x7F : W64).toNat < 256) ∧ ¬ (128 ≤ (0x100 : W64).toNat ∧ (0x100 : W64).toNat < 256)) ∧
    ((paired sample).cohortOf me = some { job := 1, serial := 5, n := 2, shape := .row } ∧ (paired sample).cur.roaming = false ∧ (paired sample).cur.shadow = none ∧ ((paired sample).cell (runCell (paired sample).cur)).outstanding < 32) := by
  refine ⟨⟨rfl, rfl, .cons rfl .nil, ?_, ?_, ?_⟩, ?_, ?_, ⟨.cons ⟨rfl, .inl rfl, fun _ => (usable_sized (s := st0) (h := 0) ?_).2⟩ (.cons ⟨rfl, .inl rfl, fun h => absurd h ?_⟩ .nil), ?_⟩, ?_, ?_⟩ <;> (try unfold Local) <;> decide +kernel
/-- A wait held back by an unacknowledged write, and after the commit a slot that is free, filled, pending or out of time; an `end` that saves s0, held back and not. -/
theorem witness_InvocationsCommit : (let s := unit { sample with outs := [{ inv := 1 }], liveout := 1 }
      GuardOn s on ∧ Reads s (.h 0) 64 false ∧ s.cur.await = none ∧ s.cur.commitReady = false) ∧
    (∃ u, commit st0 = .ok u ∧ u.alive u.focus = true ∧ u.cur.shadow = none ∧ u.cur.pend ≠ some 1 ∧ (u.cur.ys.getD 0 {}).st = .free) ∧
    (∃ u, commit (unit { sample with ys := [{ st := .pending }] }) = .ok u ∧ u.alive u.focus = true ∧ u.cur.shadow = none ∧ (u.cur.ys.getD 0 {}).st = .pending) ∧
    (let u := unit { sample with await := some 7, pend := some 1 }; u.cur.await ≠ none ∧ u.alive u.focus = true ∧ u.cur.shadow = none ∧ u.cur.pend = some 1) ∧
    (let u := unit { sample with await := some 7, ys := [{ st := .filled, val := 5 }] }; u.cur.await ≠ none ∧ u.alive u.focus = true ∧ u.cur.pend ≠ some 1 ∧ (u.cur.ys.getD 0 {}).st = .filled) ∧
    (let u := unit { sample with await := some 7, ys := [{ st := .pending }] }; u.cur.await ≠ none ∧ u.alive u.focus = true ∧ (u.cur.ys.getD 0 {}).st = .pending) ∧
    (let s := unit { sample with liveout := 1, s := [.val 9 true] }; (∀ k < 16, bit s.cur.liveout k = true → ∃ v p, s.cur.s.getD k (.val 0 false) = .val v p) ∧ s.cur.commitReady = true) := by
  refine ⟨⟨rfl, rfl, rfl, rfl⟩, ⟨_, rfl, rfl, rfl, nofun, rfl⟩, ⟨_, rfl, rfl, rfl, rfl⟩, ⟨nofun, rfl, rfl, rfl⟩, ⟨nofun, rfl, by decide +kernel, rfl⟩, ⟨nofun, rfl, rfl⟩, ?_, rfl⟩
  intro k hk h
  rcases Nat.eq_zero_or_pos k with rfl | hp
  · exact ⟨9, true, rfl⟩
  · exact ⟨0, false, by interval_cases k <;> rfl⟩
/-- Records of a child, a cohort and a member; ties to oneself, to a mate, and over a lost module; both ends of a priority. -/
theorem witness_LifeResults : (st0.cur.shadow = none ∧ param st0 false (.const 1) = .ok 1 ∧ param64 st0 (.const 5) (.const 6) = .ok (5 + 6 * 2 ^ 32) ∧ ownRecord st0 1 = some (.cohort 2 .row) ∧
      ownRecord st0 0 = some (.child 7 0 0 0) ∧ ownRecord st0 2 = some (.member 0 0) ∧ ownRecord st0 3 = none ∧ (st0.image st0.cur).policy ≠ 0) ∧
    (Reads (two me mate) (.h 0) me false ∧ Reads (two me mate) (.h 1) mate false ∧ GuardOn (two me mate) on ∧ jobOf mate = jobOf me ∧ mate ≠ me ∧ (two me mate).peerDead (pkgOf mate) = false) ∧
    (Reads (two afar 1) (.h 0) afar false ∧ jobOf afar = jobOf me ∧ afar ≠ me ∧ ({ two afar 1 with regs := { dead := [1] } } : State).peerDead (pkgOf afar) = true) ∧
    (mate ∉ st0.cur.links ∧ mate ∉ st0.cur.mons ∧ mate ∈ (unit { sample with links := [mate], mons := [mate] }).cur.links ∧ mate ∈ (unit { sample with links := [mate], mons := [mate] }).cur.mons) ∧
    (ovfFits { sample with outbox := [.sig mate 5] } = true ∧ ovfFits { sample with outbox := [.kill mate .tree] } = true ∧ ((5 : W64).setWidth 8 : Reason) ≠ rNormal ∧ ((0x100 : W64).setWidth 8 : Reason) = rNormal) ∧
    (∃ u, commit st0 = .ok u ∧ u.alive u.focus = true ∧ u.cur.shadow = none) ∧ ((7 : W64).toNat ≤ 7 ∧ 7 < (8 : W64).toNat) := by
  refine ⟨⟨rfl, rfl, rfl, ?_⟩, ⟨rfl, rfl, rfl, ?_⟩, ⟨rfl, ?_⟩, ?_, ?_, ⟨_, rfl, rfl, rfl⟩, ?_⟩ <;> decide +kernel
/-- The issuing actor as the debugger of its mate, which is stopped or not. -/
def debugging (v w : W64) (stopped : Bool) : State := let s := two v w
  { s with actors := [(me.toNat, { s.cur with target := mate }), (mate.toNat, { name := mate, file := 2, size := 1, dbg := { dbgn := me, stop := stopped } })] }
/-- Targets that are the issuer, alive, debugged or absent; no target, one that runs and one that is stopped; context addresses at the ends of their ranges. -/
theorem witness_DebugResults : (GuardOn (two me mate) on ∧ Reads (two me mate) (.h 0) me false ∧ Reads (two me mate) (.h 1) mate false ∧ (two me mate).cur.shadow = none ∧ (two me mate).cur.target = 0) ∧
    ((paired sample).alive mate = true ∧ ((paired sample).actor mate).dbg.dbgn = 0 ∧ mate ≠ selfName (paired sample).cur ∧ jobOf mate = jobOf (selfName (paired sample).cur)) ∧ st0.alive (nameOf 0 1 9 0) = false ∧
    ((debugging mate 1 true).alive mate = true ∧ ((debugging mate 1 true).actor mate).dbg.dbgn ≠ 0) ∧ ((debugging 7 1 false).cur.target ≠ 0 ∧ ((debugging 7 1 false).actor mate).dbg.stop = false ∧ (7 : W64).toNat < 8 ∧ 8 ≤ (8 : W64).toNat ∧
      (6 : W64).getLsbD 0 = false ∧ (7 : W64).getLsbD 0 = true ∧ ((debugging 7 1 false).actor mate).dbg.tok = 0) ∧
    (let s := debugging 0x4001FF 5 true
     let t := s.actor s.cur.target
     s.cur.target ≠ 0 ∧ t.dbg.stop = true ∧ t.dbg.tok = 0 ∧ (1 ≤ (65535 : W64).toNat ∧ (65535 : W64).toNat ≤ 65535) ∧ contextAt s t 0 0x30 = some 0 ∧ contextAt s t 0 0x24 = none ∧ (contextAt s t 0 0x4001FF).isSome = true ∧
       contextAt s t 0 0x400200 = none ∧ (writeContext s t 0x31 5).isSome = true ∧ writeContext s t 0x32 5 = none) := by
  refine ⟨⟨rfl, rfl, rfl, rfl, rfl⟩, ?_⟩; decide +kernel
/-- The sample state with an event in progress that acts on `g`. -/
def ev (g : EvArg) : State := { st0 with focus := 0, arg := g }
/-- Resets, a boot program to start in a cell that is in boot mode with free units, a portal to open, and a part whose inputs hold no power-on reset. -/
theorem witness_ResetsAndPower : (ev {}).arg.nats = [] ∧ ({ ev {} with tripped := true } : State).powerOn = false ∧
    (let s : State := { arg := { n := 511 } }; (s.cell s.arg.n).boot = true ∧ s.has (bootName s.arg.n) = false ∧ (s.cell s.arg.n).munit = none ∧ (s.cell s.arg.n).vunit = none) ∧
    (let s : State := { regs := { done := true }, arg := { v := 0x8000000000000000 } }; s.regs.bootOpen = false ∧ (s.regs.bootOpen || (s.regs.done && bit s.arg.v.toNat 63)) = true) := by
  refine ⟨rfl, rfl, ⟨rfl, rfl, rfl, rfl⟩, ?_⟩; decide +kernel
/-- A cell whose check is off, and one not healthy (which cells age is a free value, so that no witness meets the clauses on it); a hot counter that a lost notification named. -/
theorem witness_PeriodicEvents : ({ ageEn := false } : Regs).ageEn = false ∧ ((State.cell { cells := [(3, { health := 1 })] } 3).health ≠ 0) ∧
    (let s : State := { regs := { lost := 1 }, counts := [(0x10000000, 0x400)], backs := [{ job := 1, owner := me, vpage := 1, ppage := 0x10000000, kind := .cxl }] }
     s.regs.lost ≠ s.seenLost ∧ (0x10000000, 0x400) ∈ s.counts ∧ s.backAt 0x10000000 = some { job := 1, owner := me, vpage := 1, ppage := 0x10000000, kind := .cxl } ∧
       (Backing.counted { job := 1, owner := me, vpage := 1, ppage := 0x10000000, kind := .cxl }) = true ∧ s.isHot 0x400 = true) := by decide +kernel
/-- Register offsets, a queue with room for one more record and one without, and a duty mode that gives nothing back. -/
theorem witness_PortalEvents_registers : (ev { n := 0x318 }).arg.n = 0x318 ∧ (ev { n := 0x400 }).arg.n = 0x400 ∧ (ev { n := 0x900 }).arg.n = 0x900 ∧ (ev { n := 0xA08 }).arg.n = 0xA08 ∧
    (∀ d ∈ (ev { v := 2 }).duties, bit ((ev { v := 2 }).arg.v.toNat % 32) d.duty = true) ∧
    (let s : State := { ev {} with queues := [(0, { wr := 62 })] }
     let x := s.queue s.arg.n
     Memory.wf s.mem = true ∧ s.arg.flag2 = false ∧ x.wait = [] ∧ ((x.wr + 1) % 2 ^ 16 + 2 * 2 ^ 16 - x.ack - 1) % 2 ^ 16 < 2 ^ x.log) ∧
    (let s : State := { ev {} with queues := [(0, { wr := 63 })] }
     let x := s.queue s.arg.n
     x.wait = [] ∧ 2 ^ x.log ≤ ((x.wr + 1) % 2 ^ 16 + 2 * 2 ^ 16 - x.ack - 1) % 2 ^ 16) := by
  refine ⟨rfl, rfl, rfl, rfl, nofun, ?_⟩; decide +kernel
/-- A portal slot of channel 0 that holds a message, when its channel expects `exp`. -/
def slot (m : Msg) (exp : Nat) (open_ : Bool) : State := ({ ev {} with regs := { bootOpen := open_ }, chans := [(0, { exp := exp })] } : State).put portalBase (msgBytes m)
/-- Slots completed before the portal opens, damaged, with a sender, too far ahead, the last that is held, early, duplicate, and the one expected, a launch. -/
theorem witness_PortalEvents_slots : (slot {} 0 false).regs.bootOpen = false ∧
    (let bs := ((slot {} 0 true).put portalBase [1]).bytes portalBase 128; crc64 0 (bs.take 120) ≠ ofBytes (bs.drop 120)) ∧
    (let bs := (slot { sender := me } 0 true).bytes portalBase 128; crc64 0 (bs.take 120) = ofBytes (bs.drop 120) ∧ (msgOf (bs.take 120)).sender ≠ 0) ∧
    (let bs := (slot { seq := 512 } 0 true).bytes portalBase 128; crc64 0 (bs.take 120) = ofBytes (bs.drop 120) ∧ (msgOf (bs.take 120)).sender = 0 ∧ 512 ≤ ((msgOf (bs.take 120)).seq + 2 ^ 16 - 0) % 2 ^ 16 ∧ ((msgOf (bs.take 120)).seq + 2 ^ 16 - 0) % 2 ^ 16 < 32768) ∧
    (let bs := (slot { seq := 511 } 0 true).bytes portalBase 128; crc64 0 (bs.take 120) = ofBytes (bs.drop 120) ∧ 0 < ((msgOf (bs.take 120)).seq + 2 ^ 16 - 0) % 2 ^ 16 ∧ ((msgOf (bs.take 120)).seq + 2 ^ 16 - 0) % 2 ^ 16 < 512 ∧ ((slot { seq := 511 } 0 true).chan 0).held = []) ∧
    (let bs := (slot { seq := 32768 } 0 true).bytes portalBase 128; crc64 0 (bs.take 120) = ofBytes (bs.drop 120) ∧ 32768 ≤ ((msgOf (bs.take 120)).seq + 2 ^ 16 - 0) % 2 ^ 16) ∧
    (let s := slot { seq := 7, dest := nameOf 0 0 1 0 } 7 true
     let bs := s.bytes portalBase 128
     let m := msgOf (bs.take 120)
     s.regs.bootOpen = true ∧ crc64 0 (bs.take 120) = ofBytes (bs.drop 120) ∧ m.sender = 0 ∧ m.seq = (s.chan 0).exp ∧ m.seq < 2 ^ 16 ∧ (s.chan 0).held = [] ∧ m.dest = s.service 1 ∧ m.chan = 0) := by decide +kernel
/-- A launch of an unknown file, and one of a job that fits. -/
theorem witness_PortalEvents_launch : (ev { msg := { m := [3, 2, 0, 0] } }).launchStatus (ev { msg := { m := [3, 2, 0, 0] } }).arg.msg = 1 ∧
    (ev { msg := { m := [2, 2, 0, 0] } }).launchStatus (ev { msg := { m := [2, 2, 0, 0] } }).arg.msg = 0 := by decide +kernel
/-- The smallest file that loads: a header, three sections, one `nop`, one roaming image and its sixteen handlers (02 R44 to R50). -/
def smallFile : List Byte :=
  let sect (t al es off size : Nat) : List Byte := bytesOf 8 (t + al * 2 ^ 8 + es * 2 ^ 32) ++ bytesOf 8 off ++ bytesOf 8 size ++ bytesOf 8 0
  bytesOf 64 (0x00464F50 + 2 ^ 32 + 2 ^ 48 + 3 * 2 ^ 64 + 2 ^ 80 + 64 * 2 ^ 128) ++ sect 1 2 0 160 4 ++ sect 3 6 64 192 64 ++ sect 4 6 16 256 256 ++ bytesOf 32 0x3B000000 ++ bytesOf 64 1 ++ bytesOf 256 0
/-- That file in host memory at bus address 0x1000. -/
def loading : State := ({ ev { msg := { m := [0x1000, 512, 0, 0] } } with regs := { sigreq := false } } : State).put (busAddr 0x1000) smallFile
/-- A load that is rejected for its length, one that is accepted, unloads of a file that is there and of one that is not, and attestations at bad and good addresses. -/
theorem witness_PortalEvents_services : loading.load 0x1000 63 = .error 1 ∧ (∃ h u, loading.load 0x1000 512 = .ok (h, u)) ∧ (∀ f ∈ (ev { msg := { m := [0, 3] } }).files, f.handle ≠ 3) ∧
    (∃ f ∈ (ev { msg := { m := [0, 2] } }).files, f.handle = 2) ∧ (513 % 512 ≠ 0 ∧ 512 % 512 = 0) := by
  refine ⟨?_, ?_, ?_, ⟨sampleFile, ?_, ?_⟩, ?_⟩
  · have h : (match loading.load 0x1000 63 with | .error e => some e | .ok _ => none) = some 1 := by decide +kernel
    revert h; cases loading.load 0x1000 63 <;> simp
  · have h : (match loading.load 0x1000 512 with | .error _ => false | .ok _ => true) = true := by decide +kernel
    revert h; cases hl : loading.load 0x1000 512 with
    | error _ => simp
    | ok r => exact fun _ => ⟨r.1, r.2, rfl⟩
  all_goals decide +kernel
/-- Answers that match no request, a page that the host has placed or refused, and an audit to be looked at again. -/
theorem witness_PortalEvents_duties : (∀ d ∈ (ev {}).duties, d.num ≠ 0 ∨ d.duty ≠ 0) ∧ (({ ev { msg := { m := [5, 2] } } with duties := [⟨5, 0, .page me 0x10000⟩] } : State).alive me = true ∧ (5 : Nat) < 2 ^ 32) ∧
    (let s : State := { ev { msg := { m := [BitVec.ofNat 64 (2 * 2 ^ 56 + 5), 3] } } with duties := [⟨5, 2, .audit 1⟩], audits := [(1, {})] }
     kvHas s.audits 1 = true ∧ (s.arg.msg.m.getD 0 0).toNat = 2 * 2 ^ 56 + 5 ∧ (s.arg.msg.m.getD 1 0).toNat = 3) := by
  refine ⟨nofun, ?_⟩; decide +kernel
/-- A direction of module 0 as the receiver or the transmitter of an event. -/
def link (x : UcieDir) (f : Flit) : State := { ev { n := 0, flag := true, flit := f } with ucie := [(0, { fwd := x })] }
/-- The CRC of zero bytes is 0. -/
theorem crc_zeros (n : Nat) : crc64 0 (List.replicate n 0) = 0 := by
  induction n with
  | zero => rfl
  | succ n ih =>
    unfold crc64 at *; rw [List.replicate_succ, List.foldl_cons]
    have h : crcShift 8 (0 ^^^ ((0 : Byte).toNat * 2 ^ 56)) = 0 := by decide
    rw [h]; exact ih
/-- A flit whose CRC holds, and one whose last byte its way has changed. -/
theorem witness_DieLinkEvents_crc : flitFails { raw := List.replicate 248 0 ++ List.replicate 8 0 } = false ∧ flitFails { raw := List.replicate 248 0 ++ [0, 0, 0, 0, 0, 0, 0, 1] } = true := by
  unfold flitFails
  have h (l : List Byte) : (List.replicate 248 (0 : Byte) ++ l).take 248 = List.replicate 248 0 := List.take_left' List.length_replicate
  have g (l : List Byte) : (List.replicate 248 (0 : Byte) ++ l).drop 248 = l := List.drop_left' List.length_replicate
  dsimp only
  rw [h, h, g, g, crc_zeros]
  decide
/-- A module that retrains, one disabled, a full buffer, flits waiting to be sent again, nothing to send, something to send; a flit expected, one out of order, a refusal, an acknowledgement, and damaged flits short
of, at and past the threshold. -/
theorem witness_DieLinkEvents : (({ ev {} with ucie := [(0, { busy := true })] } : State).module 0).busy = true ∧ (({ ev {} with ucie := [(0, { lanes := 2 })] } : State).module 0).lanes = 2 ∧
    64 ≤ (((link { buf := List.replicate 64 {} } {}).module 0).dir true).buf.length ∧ (((link { again := true } {}).module 0).dir true).again = true ∧
    (let x := link { queue := [⟨[1], true, 1, false⟩] } {}
     (x.module 0).busy = false ∧ (x.module 0).lanes ≠ 2 ∧ ((x.module 0).dir true).again = false ∧ ((x.module 0).dir true).buf.length < 64 ∧ ((x.module 0).dir true).queue ≠ []) ∧
    ((link { exp := 4095 } { fseq := 4095 }).arg.flit.fseq = (((link { exp := 4095 } { fseq := 4095 }).module 0).dir true).exp ∧ (link {} { fseq := 1 }).arg.flit.fseq ≠ (((link {} { fseq := 1 }).module 0).dir true).exp) ∧
    ({ kind := .nak, ack := some 3 } : Flit).ack = some 3 ∧
    (({ errc := 7 } : UcieDir).errc + 1 = ({} : Regs).ethr ∧ ({} : Regs).ethr ≠ 0 ∧ ({} : Regs).hwrt = true ∧ ({ ethr := 0 } : Regs).ethr = 0 ∧ ({} : UcieDir).nak = false) ∧
    (bit (0x8000000000000000 + 191 : W64).toNat 63 = true ∧ (0x8000000000000000 + 191 : W64).toNat % 256 < 192 ∧ 192 ≤ (192 : W64).toNat % 256) := by decide +kernel
/-- Station entries that are free, waiting, and out of tries; replies that match and do not; planes live, dead and the last one live. -/
theorem witness_FabricEvents : (let s : State := { ev { k := 3, rep := { tag := 3 } } with stations := [(0, { ents := [(0, { busy := true, gen := 3, tries := 3 })] })] }
      let e := kvGet {} (s.station 0).ents 0
      e.busy = true ∧ e.gen = s.arg.k ∧ e.tries ≠ 1 + s.regs.fretry ∧ e.module = none ∧ e.gen = s.arg.rep.tag % 16 ∧ s.planeDead 0 = false ∧ (s.station 0).queue = []) ∧
    (kvGet {} (st0.station 0).ents 0).busy = false ∧ (({ busy := true, tries := 4 } : StationEnt).tries = 1 + ({} : Regs).fretry) ∧
    (({ st0 with regs := { dsw := 0x8000 } } : State).planeDead 15 = true ∧ st0.planeDead 15 = false ∧ st0.station 15 = {} ∧ st0.ports = [] ∧ st0.regs.dsw + 2 ^ 15 ≠ 0xFFFF) := by decide +kernel
/-- A packet to a home that holds nothing special. -/
def packet (p : Packet) : State := ev { pkt := p }
/-- Packets for a live plane and a dead one, and at a home with memory behind their address and without. -/
theorem witness_HomeEvents_ways : ((packet { home := .plane 3 }).arg.flag = false ∧ (packet {}).planeDead 3 = false ∧ ({ packet {} with regs := { dsw := 8 } } : State).planeDead 3 = true) ∧
    ((packet { home := .slice 0 }).present 0 = true ∧ (packet {}).present (2 ^ 50) = false ∧ ev { flag := true, pkt := { home := .plane 3, pa := 0x400000000000 } } = ev { flag := true, pkt := { home := .plane 3, pa := 0x400000000000 } } ∧
      (packet {}).present 0x400000000000 = true) := by decide +kernel
/-- Plain and poisoned addresses, a duplicate, and pieces that are free, taken, closed, out of order, of another shape and full. -/
theorem witness_HomeEvents : (homeOf (packet { pa := 0xBFFFFFFFC0 }).arg.pkt.pa ≠ none ∧ (packet { pa := 0xBFFFFFFFC0 }).mirrored 0xBFFFFFFFC0 = none ∧ (packet {}).recall {} = none) ∧
    (({ packet {} with filters := [(portKey 0 .hostPort, [(0, { val := 5 })])] } : State).recall {} = some { val := 5, tag := 0, home := .hostPort }) ∧
    (({ packet {} with gpois := [0] } : State).gpois.contains 0 = true ∧ (packet {}).gpois.contains 0 = false) ∧
    (let r : RedPiece := { ctl := { k := 3, desc := 1 }, nx := 1, bytes := 4 }
     let s : State := { packet { rc := { k := 2, desc := 1 } } with reds := [r] }
     (s.reds.find? fun x => x.home == .hostPort && x.pa == 0) = some r ∧ 2 < r.ctl.k ∧ redAdmits r.ctl.desc 1 = true ∧ ¬ 2 < r.nx ∧ 2 ≠ r.nx ∧ total (s.reds.map fun x => x.holds.length) < 64 ∧
       0 < r.nx ∧ r.holds = [] ∧ 1 = r.nx ∧ 1 + 1 ≠ r.ctl.k ∧ ¬ 3 < r.ctl.k) ∧
    64 ≤ total (({ ev {} with reds := [{ holds := List.replicate 64 (2, [], 1, []) }] } : State).reds.map fun x => x.holds.length) ∧ 64 ≤ (List.replicate 64 ({ pa := 4096 } : RedPiece)).length ∧
    (let f : Forward := { id := 4, mirror := 8, back := [0x40000] }
     let s : State := { ev { n := 4 } with fwds := [f] }
     (s.fwds.find? fun f => f.id == s.arg.n) = some f ∧ s.planeDead f.mirror = false) ∧ ({ ev {} with regs := { dsw := 0x100 } } : State).planeDead 8 = true := by decide +kernel
/-- The state at an event that acts on transfer 1 of cell 0. -/
def moving (x : Xfer) (g : EvArg) : State := { ev { g with m := 1 } with cells := [(0, { boot := false, xfers := [{ x with id := 1, actor := me }] })] }
/-- The part in which the sample actor dies. -/
def dead (s : State) : State := { s with actors := [(me.toNat, { sample with st := .dying })] }
/-- Replies that match no transfer, and those of a read, a write, a host write, an atomic, a declaration and a contribution; transfers whose actor dies; reductions that have ended and that go on. -/
theorem witness_ReplyEvents : (let s := moving { pieces := [{ va := 0x10000, len := 64 }], left := 1 } { rep := { xid := 1, owner := me, home := .slice 3, data := List.replicate 64 1 } }
      let r := s.arg.rep
      Memory.wf s.mem = true ∧ s.has r.owner = true ∧ r.home = .slice 3 ∧ (s.port r.rq r.home).held = [] ∧ ((s.xfer r.rq r.xid).bind fun x => x.pieces.find? fun p => p.off == r.piece) = some { va := 0x10000, len := 64 } ∧
        (s.freeTag r).alive me = true ∧ ((dead s).freeTag r).alive me = false ∧ ceilDiv (0x10000 % 64 + 64) 64 = 1 ∧ (s.xfer r.rq r.xid).map (fun x => (x.left, x.held, x.kind)) = some (1, [], .fetch) ∧
        s.alive me = true ∧ (dead s).alive me = false) ∧
    (let s := moving { pieces := [{ va := 0x10000, len := 256 }], left := 1 } { rep := { xid := 1, owner := me, home := .slice 3, data := List.replicate 256 1 } }
     s.arg.k = 0 ∧ 0 + rowRoom (regionKey (s.actor me)) 256 < 256 ∧ (s.xfer 0 1).map (fun x => (x.pieces, x.todo)) = some ([{ va := 0x10000, len := 256 }], [])) ∧
    (let s := moving { kind := .contrib, left := 1, pieces := [{ va := 0x10000, len := 64 }] } { rep := { xid := 1, home := .plane 5 } }
     s.alive me = true ∧ s.arg.rep.home = .plane 5 ∧ s.planeDead 5 = false ∧ ({ s with regs := { dsw := 32 } } : State).planeDead 5 = true ∧ (s.xfer 0 1).isSome = true) ∧
    (ev { rep := { rq := 0, xid := 1 } }).xfer 0 1 = none ∧ (ev { rep := { rq := 560 } }).arg.rep.rq = 560 ∧
    (let s := moving { kind := .write, left := 1 } {}; (s.xfer 0 1).map (fun x => (x.left, x.held, x.pieces)) = some (1, [], [])) ∧
    (let s := moving { kind := .contrib, left := 1 } {}; (s.xfer 0 1).map (fun x => (x.left, x.toRead, s.has x.actor)) = some (1, 0, true)) ∧
    (let r : RedPiece := { lead := 9, ctl := { npc := 1 }, done := true }
     let s : State := { ev { n := 9 } with reds := [r, { lead := 8 }] }
     let ps := s.reds.filter fun x => x.lead == s.arg.n && !x.mirror
     ps.head? = some r ∧ ps.all (·.done) = true ∧ ps.length = r.ctl.npc) ∧
    (let s : State := { ev { n := 8 } with reds := [{ lead := 8 }] }
     (s.reds.filter fun x => x.lead == s.arg.n && !x.mirror).any (fun x => !x.done) = true) := by decide +kernel
/-- Walks of the sample actor: of an address in no region, in a locked one, in a mapped page, in a page that moves, in pages that are the host's to place or Astrolabe's, and in one for which no quota is left. -/
theorem witness_MemoryServiceEvents_walks : (let s := ev { actor := me, n := 0x90000 }; s.alive me = true ∧ (dead s).alive me = false ∧ regionAt (s.image (s.actor me)) 0x90000 = none) ∧
    (let s := ev { actor := me, n := 0x10000 }
     let r : RegionRec := { vbase := 0x10000, size := 0x40000 }
     let b : Backing := { job := 1, owner := me, vpage := 1, ppage := 0x100 }
     regionAt (s.image (s.actor me)) 0x10000 = some (0, r) ∧ ({ s with backs := [b] } : State).backing (s.actor me) r 1 = some b ∧ ({ s with backs := [{ b with moving := true }] } : State).backing (s.actor me) r 1 = some { b with moving := true } ∧
       s.backing (s.actor me) r 1 = none ∧ s.hostDuty 0 = false ∧ ({ s with regs := { duty := 1 } } : State).hostDuty 0 = true ∧ (s.back (s.actor me) r 1).isSome = true ∧ s.arg.flag = false ∧ ({ sample with walks := [(1, false)] } : Actor).walks.any (fun w => w.1 == 1) = true) ∧
    (let s := ev { actor := me, n := 0x400000 }; (regionAt (s.image (s.actor me)) 0x400000).map (·.2.locked) = some true) ∧
    (let s := ev { actor := me, n := 0x600000, cls := .none }
     (regionAt (s.image (s.actor me)) 0x600000).map (·.2.kind) = some .host ∧ ({ sample with xwalk := some 0x60 } : Actor).xwalk = some (0x600000 / 2 ^ 16) ∧ (s.actor me).walks = [] ∧ (ev { actor := me, flag := true }).arg.flag = true) ∧
    (let s : State := { ev { actor := me, n := 0x100000 } with jobs := [{ jobn := 1, file := 2 }] }
     let r : RegionRec := { kind := .buoy, vbase := 0x100000, size := 0x200000, mirror := true, share := .owner, sym := 1 }
     regionAt (s.image (s.actor me)) 0x100000 = some (1, r) ∧ (s.back (s.actor me) r 16).isNone = true ∧ s.quotaFails (s.actor me) r 16 = true) := by decide +kernel
/-- A side log with an atomic of the sample actor at a mapped page; a page that moves, one that may, one that no one counts; invalidations with and without packets in flight. -/
theorem witness_MemoryServiceEvents_moves : (let e : SideEnt := { actor := me, kind := .at_, pieces := [{ va := 0x10000, len := 8 }] }
     let s : State := { ev { actor := me } with cells := [(0, { boot := false, side := [e] })] }
     (s.cell 0).side = [e] ∧ s.alive me = true ∧ (match (s.lookFor me .atomic 0x10000).1 with | .hit pa => some pa | _ => none) = some 0x1000000 ∧ ∀ e ∈ (s.cell 1).side, e.actor ≠ me) ∧
    (let b : Backing := { job := 1, owner := me, vpage := 1, ppage := 0x10000000, kind := .cxl }
     let s : State := { ev { n := 0x10000000 } with backs := [b] }
     let u : State := { ev { n := 0x10000000, flag := true } with backs := [{ b with moving := true }] }
     (u.backs.find? fun b => b.ppage == 0x10000000 && b.moving) = some { b with moving := true } ∧ Memory.wf u.mem = true ∧ u.arg.flag = true ∧ s.arg.flag = false ∧ s.arg.k = 0 ∧ s.backAt 0x10000000 = some b ∧
       b.counted = true ∧ (s.findRun .dram 1 1 0 false).isSome = true ∧ s.all.filter (fun a => a.holds 0x10000000) = [] ∧ u.backAt 0x10000000 = some { b with moving := true }) ∧
    (let s := ev { actor := me, n := 0x100 }; s.all.filter (fun a => a.holds 0x100) ≠ [] ∧ s.has me = true ∧ (s.actor me).flies [(0x100, 1)] = false ∧ s.arg.other = 0) ∧ ({ sample with flying := [0x100] } : Actor).flies [(0x100, 1)] = true := by decide +kernel
/-- The mate, a receiver of relays and tiles, beside the sample actor: in transit, parked or idle. -/
def receiving (s : State) (b : Actor) : State := { s with actors := s.actors ++ [(mate.toNat, { b with name := mate })] }
/-- A poisoned sector at the start of the sample actor's region. -/
def tainted (s : State) : State := { s with spois := [2 ^ 48 / 32] }
/-- Sources of writes, gathers, copies and gives, with and without poison; a transfer's last byte; a dead actor's transfer. -/
theorem witness_TransferAndUnitEvents_transfers : Memory.wf (ev {}).mem = true ∧ (ev {}).xfer 0 1 = none ∧
    (let s := moving { kind := .write, bars := [0], bytes := 16 } {}
     s.audits = [] ∧ s.has me = true ∧ (s.xfer 0 1).isSome = true ∧ s.alive me = true ∧ (dead s).alive me = false) ∧
    (let p : Piece := { va := 0x10000, pa := some 0x1000000, len := 64 }
     let x : Xfer := { kind := .write, pieces := [p], held := [p] }
     let s := moving x {}
     (s.xfer 0 1).map (fun x => (x.kind, x.pieces, x.data)) = some (.write, [p], []) ∧ (s.bytes (regionKey (s.actor me)) (rowRoom (regionKey (s.actor me)) 64)).length = 64 ∧ s.spoisoned (regionKey (s.actor me) + 0 + p.off) 64 = false ∧ (tainted s).spoisoned (regionKey (s.actor me) + 0 + p.off) 64 = true ∧ (s.actor me).st = .active) ∧
    (let s := moving { kind := .write, soff := 96, pieces := [{ va := 0x10000, len := 64 }] } {}
     s.spoisoned (regionKey (s.actor me) + 96) (rowRoom (regionKey (s.actor me) + 96) 64) = false ∧ (s.bytes (regionKey (s.actor me) + 96) (rowRoom (regionKey (s.actor me) + 96) 64)).length < 64) ∧
    (let p : Piece := { va := 0x10000, pa := some 0x1000000, len := 64 }
     let s := moving { kind := .fetch, todo := [p] } {}
     (s.xfer 0 1).map (fun x => (x.kind, x.todo)) = some (.fetch, [p]) ∧ s.alive me = true ∧ p.pa = some 0x1000000) ∧
    (let s := tainted (moving { kind := .gather, k := 1, toRead := 1 } {})
     (s.xfer 0 1).map (fun x => (x.kind, x.toRead)) = some (.gather, 1) ∧ (s.actor me).st = .active ∧ (indexVals (intDesc 4 32 true) [s.readRow (regionKey (s.actor me) + 0) 1 32]).head?.map (·.2) = some true) ∧
    (let s := moving { kind := .copy, bytes := 128, doff := 64 } {}; (s.xfer 0 1).map (fun x => (x.kind, decide (x.bytes ≤ 128))) = some (.copy, true)) ∧
    (let s := moving { kind := .give, bytes := 32 } {}; (s.xfer 0 1).map (fun x => (x.kind, x.data)) = some (.give, []) ∧ rowRoom (regionKey (s.actor me)) 32 = 32 ∧ s.spoisoned (regionKey (s.actor me)) 32 = false ∧ (tainted s).spoisoned (regionKey (s.actor me)) 32 = true) := by decide +kernel
/-- Relays to a mate that is gone, in transit, parked, idle with a free buffer and with a full one, and one that arrives; tiles that land with their receiver there, in transit or dead. -/
theorem witness_TransferAndUnitEvents_relays : (let s := moving { kind := .relay, dest := mate, toRead := 1, k := 2 } {}
      (s.xfer 0 1).map (fun x => (x.toRead, x.k, x.dest)) = some (1, 2, mate) ∧ (s.cell 0).munit = none ∧ s.alive mate = false ∧ ((receiving s { st := .transit }).actor mate).st = .transit ∧ ((receiving s { st := .parked }).actor mate).st = .parked ∧
        (receiving s {}).alive mate = true ∧ ((receiving s {}).actor mate).st = .idle ∧ ((receiving s {}).cell 0).lbIn = 0 ∧ ((receiving s { cell := 1 }).cell 1).lbIn = 0 ∧ ((receiving s { cell := 1 }).actor mate).cell ≠ 0) ∧
    (let s := receiving (moving { kind := .relay, dest := mate, k := 2 } {}) { cell := 1 }
     let t := s.modCell 1 fun e => { e with lbInSrc := 1 }
     (t.xfer 0 1).isSome = true ∧ t.alive mate = true ∧ (t.cell 1).lbInSrc = 1 ∧ (1 : Nat) ≠ 0) ∧
    (let s := ev { actor := me, other := mate, n := 7, m := 0, tiles := [[1, 2]] }
     let t : State := { s with actors := [(me.toNat, { sample with mbox := [{ msg := { sender := mate, seq := 7 }, wait := [0] }] })] }
     t.alive me = true ∧ (t.actor me).st = .active ∧ (t.actor me).name = me ∧ ((t.actor me).mbox.find? fun x => x.msg.sender == mate && x.msg.seq == 7) = some { msg := { sender := mate, seq := 7 }, wait := [0] } ∧
       t.arg.tiles = [[1, 2]] ∧ (dead s).alive me = false ∧ ({ s with actors := [(me.toNat, { sample with st := .transit })] } : State).alive me = true) := by decide +kernel
/-- A multicast bus with nothing to serve and with one cell, with and without poison; units that are free, and that complete for a tile FILLING, one of them for an invocation that is over. -/
theorem witness_TransferAndUnitEvents_units : (let x : Xfer := { kind := .mcast, bus := some 0, toRead := 1, bytes := 32 }
      let s := moving x {}
      let waits := fun (x : Xfer) => x.kind == .mcast && x.bus == some 0 && x.toRead != 0
      let cs := (s.cells.filter fun q => q.2.xfers.any waits).map (·.1)
      minBy (fun q => (busPlace q 0 + 16 - kvGet 15 s.buses 0 - 1) % 16) cs = some 0 ∧ (s.cell 0).xfers.find? waits = some { x with id := 1, actor := me } ∧ s.spoisoned (regionKey (s.actor me) + x.soff) 32 = false ∧
        (tainted s).spoisoned (regionKey (s.actor me) + x.soff) 32 = true ∧ ((ev {}).cells.filter fun q => q.2.xfers.any waits).map (·.1) = []) ∧
    ((ev {}).cell 0).munit = none ∧ ((ev {}).cell 0).vunit = none ∧
    (let j : UnitJob := { actor := me, inv := 1, writes := [(2 ^ 48, [1])], ready := [10], accs := [0] }
     let s : State := { ev {} with cells := [(0, { boot := false, munit := some j, vunit := some j })] }
     (s.cell 0).munit = some j ∧ (s.cell 0).vunit = some j ∧ s.isOver (j.actor, j.inv) = false ∧ s.alive j.actor = true ∧ j.ready = [10] ∧ (tileAt (s.actor j.actor) 10).state = .filling ∧ (dead s).alive j.actor = false) := by decide +kernel
/-- The sample state when a message from its mate arrives. -/
def hearing (a : Actor) (m : Msg) (g : EvArg) : State := { ev { g with msg := { m with dest := me, sender := mate } } with actors := [(me.toNat, { a with name := me })] }
/-- A damaged message, one whose receiver is gone, one for a receiver in transit, duplicates, early ones with and without room, and the one expected, a reply or not. -/
theorem witness_MessageEvents_arrivals : (ev { flag2 := true }).arg.flag2 = true ∧
    (let s := ev { flag := true, msg := { dest := afar } }
     s.peerDead (pkgOf afar) = false ∧ s.livePlane 0 = some 0 ∧ ({ s with regs := { dead := [1] } } : State).peerDead (pkgOf afar) = true ∧ s.arg.actor = 0 ∧ s.arg.tiles = []) ∧
    (let s := ev { msg := { dest := nameOf 0 0 2 0 } }; s.arg.flag = false ∧ s.arg.msg.exit = false ∧ s.arg.msg.dest = s.service 2 ∧ afar ≠ s.service 2 ∧ me ≠ s.service 2) ∧
    (let s := ev { msg := { dest := afar, sender := me } }; s.arg.flag2 = false ∧ s.alive afar = false ∧ s.arg.msg.bounce = false ∧ s.has me = true) ∧
    (let s := hearing { sample with st := .transit } {} {}; s.alive me = true ∧ (s.actor me).st = .transit ∧ s.arg.msg.exit = false) ∧
    (let s : State := { hearing sample { seq := 0 } {} with backs := [{ job := 1, owner := me, vpage := 0xFF00000000, ppage := 0x500 }] }
     let t := s.actor me
     let p := pairOf t mate
     let met := t.setPair { p with exp := (p.exp + 1) % 2 ^ 16 }
     s.gapFor met = none ∧ s.gapFor { met with mbox := t.mbox ++ [{ msg := s.arg.msg, arr := t.nmail }], nmail := t.nmail + 1 } = none ∧ ({ s with backs := [] } : State).gapFor (t.setPair { p with held := [s.arg] }) = some 0xFF00000000 ∧
       s.gapFor (t.setPair { p with held := [s.arg] }) = none ∧ s.arg.nats = [] ∧
     s.alive me = true ∧ t.st ≠ .transit ∧ t.name = me ∧ (0 + 2 ^ 16 - p.exp) % 2 ^ 16 = 0 ∧ p.held = [] ∧ s.arg.msg.down = false ∧ ovfFits met = true ∧ s.arg.msg.rep = false ∧ s.arg.msg.caps = [] ∧ s.arg.k = 0 ∧
       ovfFits { met with mbox := t.mbox ++ [{ msg := s.arg.msg, arr := t.nmail }], nmail := t.nmail + 1 } = true ∧ 32768 ≤ (32768 + 2 ^ 16 - p.exp) % 2 ^ 16 ∧ (32767 + 2 ^ 16 - p.exp) % 2 ^ 16 < 32768 ∧ 0 < (1 + 2 ^ 16 - p.exp) % 2 ^ 16) ∧
    (hearing sample { rep := true } {}).arg.msg.rep = true := by decide +kernel
/-- Exit signals of both kinds of reason at the ends of their ranges; replies for slots that are free, pending, filled and of another generation; a wait that is over and one that ends. -/
theorem witness_MessageEvents_signals : (let s : State := { hearing sample { exit := true, m := [mate, 0x80] } {} with backs := [{ job := 1, owner := me, vpage := 0xFF00000000, ppage := 0x500 }] }
      let t := s.actor me
      let p := pairOf t mate
      s.gapFor (t.setPair { p with exp := (p.exp + 1) % 2 ^ 16 }) = none ∧ s.arg.flag2 = false ∧ s.arg.nats = [] ∧ s.alive me = true ∧ t.st = .active ∧ t.name = me ∧ s.arg.msg.exit = true ∧ s.arg.msg.bounce = false ∧ s.arg.msg.rep = false ∧ (0 + 2 ^ 16 - p.exp) % 2 ^ 16 = 0 ∧ p.held = [] ∧ ovfFits (t.setPair { p with exp := (p.exp + 1) % 2 ^ 16 }) = true ∧
        bit t.xmask (groupOf 0x80) = false ∧ groupOf 0x80 ≠ 0 ∧ groupOf 0 = 0 ∧ bit t.xmask (groupOf 0) = false) ∧ (dead (hearing sample {} {})).alive me = false ∧
    ((hearing { sample with st := .transit } {} {}).alive me = true ∧ ((hearing { sample with ys := [{ st := .pending }] } {} {}).actor me).ys.getD 0 {} = { st := .pending } ∧
      ((hearing { sample with ys := [{ st := .filled }] } {} {}).actor me).ys.getD 0 {} = { st := .filled } ∧ ((hearing sample {} {}).actor me).ys.getD 0 {} = {} ∧ (hearing sample { rgen := 1 } {}).arg.msg.rgen ≠ (0 : Fin 16)) ∧
    (let s := hearing { sample with await := some 4, ys := [{ st := .pending }] } {} { actor := me, m := 4 }
     s.has me = true ∧ (s.actor me).await = some 4 ∧ ((s.actor me).ys.getD 0 {}).st = .pending ∧ (s.actor me).await ≠ some 5) := by decide +kernel
/-- An actor with nothing to start, one with a message for a handler that is not audited; budgets of an invocation that is over, stopped, not yet spent, and spent. -/
theorem witness_MessageEvents_handlers : (let s := hearing { sample with st := .ready, mbox := [{ msg := { sender := mate } }] } {} { actor := me }
      s.nextMail (s.actor me) = some { msg := { sender := mate } } ∧ (s.actor me).st = .ready ∧ (s.actor me).name = me ∧ ((s.image (s.actor me)).handlers.getD 0 {}).audit = false) ∧
    (st0.nextMail sample = none ∧ sample.st ≠ .ready) ∧ (sample.invNo ≠ 2 ∧ sample.invNo = 1) ∧
    (let s := hearing sample {} { actor := me, n := 1 }; s.has me = true ∧ (s.actor me).dbg.stop = false ∧ s.budrem (s.actor me) ≠ 0) ∧
    (let s : State := { hearing sample {} { actor := me, n := 1 } with cycle := 2 ^ 32 }; (s.actor me).st = .active ∧ s.budrem (s.actor me) = 0) ∧ ({ stop := true } : Debug).stop = true := by decide +kernel
/-- The sample actor as a roaming one without a slot, beside `k` other contexts in the slots of cell 0. -/
def roaming (a : Actor) (k : Nat) (b : Actor) : State := { ev { actor := me } with actors := (me.toNat, { a with name := me, roaming := true }) :: (List.range k).map fun i => ((nameOf 0 1 (10 + i) 0).toNat, { b with name := nameOf 0 1 (10 + i) 0, roaming := true, rc := true, rslot := i }) }
/-- A state in which cell 1 is open as well. -/
def wide (s : State) : State := { s with cells := s.cells ++ [(1, { boot := false })] }
/-- A roaming context for which a slot is free, for which another leaves, and for which none is; a cell that may take it and none. -/
theorem witness_PlacementEvents_contexts : (let s := roaming { sample with st := .ready } 0 {}
      s.has me = true ∧ (s.actor me).roaming = true ∧ (s.actor me).rc = false ∧ (s.actor me).st = .ready ∧ (s.actor me).name = me ∧ s.slotVictim 0 (s.actor me) = some (0, none)) ∧
    (let s := roaming { sample with st := .ready } 8 {}; s.slotVictim 0 (s.actor me) = some (0, some (nameOf 0 1 10 0)) ∧ nameOf 0 1 10 0 ≠ me ∧ s.has (nameOf 0 1 10 0) = true) ∧
    (let s := roaming { sample with st := .ready } 8 { st := .active }; s.slotVictim 0 (s.actor me) = none) ∧
    (let s := wide (roaming { sample with st := .ready, offer := some 0 } 0 {})
     dieOf 1 = dieOf (s.actor me).cell ∧ 1 ≠ (s.actor me).cell ∧ (s.cell 1).health = 0 ∧ (s.cell 1).boot = false ∧ (s.cell 1).gated = false ∧ (s.cell 1).drain ≠ some (jobOf me) ∧ s.roamers 1 = [] ∧ (s.actor me).offer = some s.arg.n) ∧
    (let s := roaming { sample with st := .ready } 0 {}; ∀ c < 512, c ≠ (s.actor me).cell → (s.cell c).boot = true) ∧ (ev { actor := me }).cur.roaming = false := by decide +kernel
/-- A cell that drains of one actor, which is idle or active, with a place to go and without; a parked actor with a place, without one, and one that is the host's to place. -/
theorem witness_PlacementEvents_moves : (let s := { ev { n := 0, m := 1 } with actors := [(me.toNat, { sample with st := .idle })] }
      let d := s.modCell 0 fun e => { e with drain := some 1 }
      let e := (wide s).modCell 0 fun e => { e with drain := some 1 }
      s.arg.flag = false ∧ s.hostDuty 3 = false ∧ d.seated 0 = [{ sample with st := .idle }] ∧ d.all.filter (fun z => z.roaming && z.rc && z.rcell == 0) = [] ∧ sample.shadow = none ∧ isBoot me = false ∧ jobOf me = 1 ∧
        d.unitsBusy { sample with st := .idle } = false ∧ sample.dbg.stop = false ∧ sample.roaming = false ∧ d.placeMove { sample with st := .idle } = none ∧ Memory.wf s.mem = true ∧
        e.placeMove { sample with st := .idle } = some { cell := 1 } ∧ d.seated 1 = []) ∧
    ((ev { n := 0, m := 1 }).modCell 0 fun e => { e with drain := some 1 }).seated 0 = [sample] ∧
    (let a : Actor := { sample with st := .parked, cell := 1 }
     let s : State := { ev { actor := me } with actors := [(me.toNat, a)] }
     s.has me = true ∧ (s.actor me).name = me ∧ (s.actor me).st = .parked ∧ s.hostDuty 3 = false ∧ s.placeMove a = some { cell := 0 } ∧ a.roaming = false ∧ (s.cell 0).gated = false ∧ ({ s with cells := [] } : State).placeMove a = none ∧
       ({ s with regs := { duty := 8 } } : State).hostDuty 3 = true) := by decide +kernel
/-- The sample actor, idle in cell 0 with one peer in cell 2, and its pair of cells in a phase. -/
def swapping (st : ActState) (cnt : Nat) (x : PairSt) : State := { ev { n := 0, nats := [0, 0] } with actors := [(me.toNat, { sample with st := st })], pairs := [(0, x)], evalSeats := [(0, [{ who := me, traffic := [{ cnt := cnt, pcell := 2, pser := 9, v := true }] }])] }
/-- Exchanges that pay, that do not, and that no seats may make; an exchange that freezes, one of two empty seats, and one that commits; a cell with nothing in it at an instant, with power gates off and on. -/
theorem witness_PlacementEvents_exchanges : (let s := swapping .idle 300 { phase := .eval }
      (s.pairs.map (·.1)).Nodup ∧ s.pairs = [(0, { phase := .eval })] ∧ pairCells 0 = (0, 1) ∧ s.bestExchange 0 1 0 = some (0, 0, 300) ∧ (s.regs.thr * 2 ^ 0 : Int) < 300) ∧
    (swapping .idle 256 { phase := .eval }).bestExchange 0 1 0 = some (0, 0, 256) ∧ (swapping .active 300 { phase := .eval }).bestExchange 0 1 0 = none ∧
    (let s := swapping .idle 300 { phase := .freeze, whoA := me }
     let A := s.inSeat 0 0
     A = some { sample with st := .idle } ∧ s.inSeat 1 0 = none ∧ s.baseIn A 1 none = some 0 ∧ s.baseIn none 0 A = some 0 ∧ s.movable { sample with st := .idle } = true ∧ s.whoIn 0 0 = me ∧ s.whoIn 1 0 = 0) ∧
    ((swapping .idle 0 { a := 1 }).inSeat 0 1 = none ∧ (swapping .transit 0 {}).inSeat 0 0 = some { sample with st := .transit } ∧ Memory.wf (swapping .transit 0 {}).mem = true) ∧
    (let s := wide (ev {})
     (s.cell 1).boot = false ∧ (s.cell 1).gated = false ∧ s.seated 1 = [] ∧ s.roamers 1 = [] ∧ (∀ y ∈ s.all, y.roaming = true → y.cell ≠ 1) ∧ (s.cell 1).side = [] ∧ (s.cell 1).xfers = [] ∧ (s.cell 5).boot = true ∧ s.regs.azEn = true) ∧
    ({ azEn := false } : Regs).azEn = false := by decide +kernel
/-- What a request comes to: a code, a question or the actors made. -/
def codeOf : Made → Option Nat | .code c => some c | _ => none
def asks : Made → Bool | .ask _ => true | _ => false
def makes (P : State → List ActorName → List (List W64) → Bool) : Made → Bool | .ok t ns ws => P t ns ws | _ => false
/-- The sample actor's request for one more of its image. -/
def wanting : SpawnReq := { by_ := me, job := 1, file := 2 }
/-- Requests in a job that is gone, for a root, of an actor that is dead, whose place is the host's, and one that makes an actor. -/
theorem witness_LifeAndAuditEvents_creation : ((ev {}).job 9 = none ∧ codeOf ((ev {}).create { kind := .root, job := 9 } ((ev {}).service 1) 0 false) = some 1) ∧ wanting.kind ≠ .root ∧ (dead (ev {})).alive me = false ∧ (ev {}).alive me = true ∧
    codeOf ((ev {}).create { wanting with job := 9 } me 0 true) = some 1 ∧ asks (({ ev {} with regs := { duty := 8 } } : State).create wanting me 0 true) = true ∧
    makes (fun t names words => t.alive me && wanting.kind != .supStart && !wanting.lnk && !wanting.mon &&
      ovfFits { (((t.actor me).fill 0 (names.headD 0) false).dropOut 0).born 0 ((names.zip words).map fun e => startMsg me e.1 e.2) with name := me }) ((ev {}).create wanting me 0 true) = true := by decide +kernel
/-- Ties at this module and at another, with full tables and without; an actor to reclaim whose packets are in flight, whose units are busy, a boot program and one of a job. -/
theorem witness_LifeAndAuditEvents_ties : (pkgOf me = (ev {}).regs.aid ∧ (ev {}).has me = true ∧ pkgOf afar ≠ (ev {}).regs.aid ∧ (ev {}).has afar = false ∧ (ev {}).has mate = false ∧ ((ev {}).actor afar).links = [] ∧ ((ev {}).actor afar).mons = []) ∧
    (16 ≤ ({ sample with links := List.replicate 16 mate } : Actor).links.length ∧ 64 ≤ ({ sample with watch := List.replicate 64 mate } : Actor).watch.length) ∧
    (let s := dead (ev { actor := me })
     let busy : State := { s with cells := [(0, { munit := some { actor := me } })] }
     s.has me = true ∧ (s.actor me).st = .dying ∧ (s.actor me).flies [(0x100, 1)] = false ∧ s.unitsBusy (s.actor me) = false ∧ (s.actor me).name = me ∧ isBoot me = false ∧ busy.unitsBusy (busy.actor me) = true ∧ ({ sample with flying := [7] } : Actor).flying ≠ []) ∧
    (let n := bootName 0
     let s : State := { ev { actor := n } with actors := [(n.toNat, { name := n, st := .dying })] }
     s.has n = true ∧ (s.actor n).st = .dying ∧ (s.actor n).flying = [] ∧ s.unitsBusy (s.actor n) = false ∧ (s.actor n).name = n ∧ isBoot n = true) := by decide +kernel
/-- The sample actor as the supervisor of one child that is to start again, within a window of restarts. -/
def supervising (e : ChildEnt) (rmax : Nat) : State := { ev { actor := me, nats := [0] } with sups := [{ sup := me, rmax := rmax, rwin := 100, ents := [e] }] }
/-- A child that starts again, one for which no actor can be made, one that is no longer to start, one that stops; retries within the window's count and at its end. -/
theorem witness_LifeAndAuditEvents_restarts : (let e : ChildEnt := { name := nameOf 0 1 7 0, rmask := 7, st := .restarting }
      let s := supervising e 2
      let q : SpawnReq := { kind := .restart, by_ := me, job := 1, file := (s.actor me).file, crec := 0, serial := 7 }
      s.arg.nats = [0] ∧ s.ent me 0 = some e ∧ s.alive me = true ∧ e.event = false ∧ makes (fun _ ns ws => ns.length == 1 && ws.length == 1) (s.create q me (genOf e.name + 1) false) = true ∧
        codeOf (({ s with jobs := [] } : State).create q me (genOf e.name + 1) false) = some 1 ∧ (({ sup := me, rmax := 2, rwin := 100, ents := [e] } : SupTab).window s.cycle).rcnt ≠ 2 ∧
        s.supTab me = some { sup := me, rmax := 2, rwin := 100, ents := [e] } ∧ (({ sup := me, rmax := 0, rwin := 100, ents := [e] } : SupTab).window s.cycle).rcnt = 0 ∧ s.ent me 5 = none) ∧
    (let e : ChildEnt := { st := .restarting, event := true, rmask := 3 }; e.event = true ∧ e.lead = false ∧ bit e.rmask 2 = false ∧ (supervising e 2).ent me 0 = some e) ∧
    ({ st := .stopped } : ChildEnt).st ≠ .restarting ∧ (ev { actor := me }).arg.nats = [] ∧ (ev { actor := me }).supTab me = none := by decide +kernel
/-- A sample's buffer, its shadow run or none, in the sample state. -/
def auditing (x : AuditBuf) (run : Option Actor) (g : EvArg) : State :=
  { ev { g with n := 1 } with audits := [(1, x)], actors := (match run with | some b => [((shadowName 1).toNat, { b with name := shadowName 1, shadow := some 1 })] | none => []) ++ [(me.toNat, sample)] }
/-- Samples with a cell to run on and without; runs that are absent, busy and done, whose signatures agree with the first, disagree, and resolve by two and by none; runs abandoned for the sample's own invocation and another. -/
theorem witness_LifeAndAuditEvents_audits : (let s := auditing { actor := me } none {}
      kvHas s.audits 1 = true ∧ kvHas s.audits 2 = false ∧ s.has (shadowName 1) = false ∧ minBy (fun (p : Spot) => dist p.cell 0) ((List.range 512).filterMap (s.shadowSpot (s.audit 1))) = some { cell := 0, seat := 1 }) ∧
    (let s := auditing { actor := me, cells := [0] } none {}; minBy (fun (p : Spot) => dist p.cell 0) ((List.range 512).filterMap (s.shadowSpot (s.audit 1))) = none ∧ s.has me = true) ∧
    (let y := signature []
     let s := auditing { actor := me, sigs := [y] } (some {}) { actor := me }
     let h := s.actor (shadowName 1)
     s.has (shadowName 1) = true ∧ s.unitsBusy h = false ∧ h.name = shadowName 1 ∧ h.debt = none ∧ signature (s.audit 1).out = y ∧ signature [] ≠ signature [1] ∧ s.hostDuty 2 = false ∧
       (s.audit 1).actor = s.arg.actor ∧ (s.audit 1).snap.invNo = s.arg.m ∧ s.arg.flag = false ∧ (s.audit 1).actor ≠ mate ∧
       ({ s with cells := [(0, { boot := false, vunit := some { actor := shadowName 1 } })] } : State).unitsBusy h = true) ∧
    (let o := signature [1]
     let z := signature []
     signature [] ≠ o ∧ signature [] = z ∧ signature [2] ≠ z ∧ signature [2] ≠ o) := by decide +kernel
/-- The sample actor in a state of its life, a shadow run or not. -/
def living (st : ActState) (run : Option Nat) : State := { ev { actor := me, n := 0x80 } with actors := [(me.toNat, { sample with st := st, shadow := run })] }
/-- Actors that take a kill, with and without a debt to a sample, that take none, and that take it later. -/
theorem witness_KillTakesEntry : (killable ((living .idle none).actor me) ∧ killable ((living .ready none).actor me) ∧ killable ((living .active none).actor me) ∧ killable ((living .parked none).actor me)) ∧
    (((living .active none).actor me).shadow = none ∧ ((living .active (some 1)).actor me).shadow = some 1 ∧ killable ((living .active (some 1)).actor me) ∧ (living .active none).regs.silEn = false) ∧
    (({} : State).actor me).st = .free ∧ ((living .free none).actor me).st = .free ∧ ((living .dying none).actor me).st = .dying ∧ ((living .transit none).actor me).st = .transit ∧ (living .active none).has me = true ∧ (living .active none).arg.lv = none ∧
    BitVec.ofNat 8 (ev { n := rKilled.toNat, lv := some .tree }).arg.n = rKilled ∧ (ev { lv := some .tree }).arg.lv = some .tree := by
  refine ⟨⟨.inl rfl, .inr (.inl rfl), .inr (.inr (.inl rfl)), .inr (.inr (.inr rfl))⟩, ⟨rfl, rfl, .inr (.inr (.inl rfl)), rfl⟩, ?_⟩; decide +kernel
/-- Whether a step answers a next state of which something holds. -/
def goes (P : State → Bool) : Out → Bool | .next t => P t | _ => false
/-- A register-only instruction that leaves its actor ACTIVE. -/
theorem witness_RegisterFrame : registerOnly (.add .w64 (.h 0) (.h 1) on) = true ∧ (two 1 2).cur.st = .active ∧ goes (fun t => t.cur.st == .active) (exec (.add .w64 (.h 0) (.h 1) on) (two 1 2)) = true := by decide +kernel
/-- Memories in canonical form, that read alike, and whose reads differ. -/
theorem witness_MemoryWrites : Memory.wf (ev {}).mem = true ∧ Memory.wf [(5, 1), (9, 2)] = true ∧ Memory.read [(5, 1), (9, 2)] 5 1 ≠ Memory.read [] 5 1 := by decide +kernel
/-- A step from a state in canonical form. -/
theorem witness_KeptCanonical : Memory.wf ({} : State).mem = true ∧ Steps {} { tick := 1 } := ⟨rfl, rfl⟩
/-- A well-formed instruction, and bytes that decode. -/
theorem witness_DecodeEncode : (Instr.addi (.s 1) 8).wf = true ∧ (decode [8, 0x10, 2, 4]).toOption = some (.addi (.s 1) 8, 4) := by decide +kernel
/-- Cell 0's boot program at a `nop`. -/
def atNop : State := State.reset.withFetchWord 32 0x3B000000
/-- An actor of job 1 at the same `nop`, with a message to start. -/
def toStart : State := { atNop with files := [{ probeFile with images := [{ handlers := [{ valid := true }] }] }], cells := [(0, { boot := false })], actors := [(me.toNat, { name := me, file := 2, st := .ready, size := 1, mbox := [{ msg := { sender := mate } }] })] }
/-- What is chosen, as a number of kinds. -/
def turnOf : Option Choice → Option (Nat × Nat) | some (.core c) => some (0, c) | some (.due k) => some (1, k) | some .input => some (2, 0) | none => none
/-- A turn of a core for an ACTIVE context whose instruction issues, for one whose instruction stalls, and for a READY one; bytes that do not decode; a due step and an input. -/
theorem witness_StepRunsDecoded_turns : (let s := atNop
      s.powerOn = false ∧ s.tripped = false ∧ s.halted = false ∧ turnOf s.chosen = some (0, 0) ∧ s.away 0 = [] ∧ (s.tryOrder 0).map (·.name) = [bootName 0] ∧ (s.actor (bootName 0)).stopsNow = false ∧ (s.actor (bootName 0)).st = .active ∧
        (s.actor (bootName 0)).pc % 4 = 0 ∧ (decode (s.code (s.actor (bootName 0)))).toOption = some (.nop, 4) ∧ goes (fun t => !t.stalled) (exec .nop { s with focus := bootName 0 }) = true) ∧
    (let s : State := { st0 with actors := [(me.toNat, { sample with h := [.wait 9] })] }
     (s.actor me).roaming = false ∧ goes (·.stalled) (exec (.keep 0 (.h 0)) s) = true) ∧
    (let s := toStart
     s.powerOn = false ∧ s.tripped = false ∧ s.halted = false ∧ turnOf s.chosen = some (0, 0) ∧ s.away 0 = [] ∧ (s.tryOrder 0).map (·.name) = [me] ∧ (s.actor me).stopsNow = false ∧ (s.actor me).st = .ready ∧ (s.actor me).dbg.dbgn = 0 ∧
       s.mayStart (s.actor me) = true ∧ goes (fun b => b.alive me && (b.actor me).dbg.dbgn == 0 && (b.actor me).pc % 4 == 0 && (decode (b.code (b.actor me))).toOption == some (.nop, 4) && goes (fun t => !t.stalled) (exec .nop { b with focus := me }))
         (exec .handlerStart { s with arg := { actor := me } }) = true) := by decide +kernel
theorem witness_StepRunsDecoded_events : ((st0.actor me).pc % 4 = 0 ∧ (decode (st0.code (st0.actor me))).toOption = none) ∧
    (let s : State := { agenda := [⟨0, ⟨.roamingOffer, {}⟩⟩] }
     s.powerOn = false ∧ s.tripped = false ∧ s.halted = false ∧ turnOf s.chosen = some (1, 0) ∧ s.agenda[0]? = some ⟨0, ⟨.roamingOffer, {}⟩⟩ ∧ goes (fun _ => true) (exec .roamingOffer { s with agenda := [] }) = true) ∧
    (let s : State := { inputs := [⟨.roamingOffer, {}⟩] }
     s.tripped = false ∧ s.halted = false ∧ turnOf s.chosen = some (2, 0) ∧ goes (fun _ => true) (exec .roamingOffer { s with inputs := [] }) = true) ∧ State.reset.powerOn = false ∧ ({ inputs := [⟨.powerOnReset, {}⟩] } : State).powerOn = true ∧
    (let s : State := { halted := true, agenda := [⟨0, ⟨.hostQueueWrite, {}⟩⟩] }; s.powerOn = false ∧ s.tripped = false ∧ s.lastWords = some 0 ∧ ({ halted := true, agenda := [⟨0, ⟨.wack, {}⟩⟩] } : State).lastWords = none) := by decide +kernel

end Sys2Proof.Tests
end

