-- ==== Sys2Proof/Proofs/StepRuns.lean ====
section
/-! PROOFS. What one step of the part comes to: the fetch (01 R17, R34), the attempt of a context and the turn of an issue core (14
R319, 21 R405), and the steps of the part's own. One equation for each way that a function of Machine/Issue.lean and
Machine/Step.lean can go. -/

namespace Sys2Proof.Machine

-- The fetch --------------------------------------------------------------------------------------------------------

theorem State.fetch_of_decode_ok {s : State} {a : Actor} {i : Instr} {k : Nat} (hpc : a.pc % 4 = 0)
    (hd : decode (s.code a) = .ok (i, k)) : s.fetch a = some i := by
  simp only [State.fetch, hpc, hd, if_true]
theorem State.fetch_of_decode_error {s : State} {a : Actor} {e : DecodeError} (hd : decode (s.code a) = .error e) :
    s.fetch a = none := by
  simp only [State.fetch, hd, ite_self]
theorem issue_of_fetch_some {s : State} {n : ActorName} {i : Instr} (h : s.fetch (s.actor n) = some i) :
    issue s n = exec i { s with focus := n } := by
  have h' : ({ s with focus := n } : State).fetch (({ s with focus := n } : State).actor n) = some i := h
  simp only [issue, h']
theorem issue_of_fetch_none {s : State} {n : ActorName} (h : s.fetch (s.actor n) = none) :
    issue s n = dies { s with focus := n } rIllegal := by
  have h' : ({ s with focus := n } : State).fetch (({ s with focus := n } : State).actor n) = none := h
  simp only [issue, h']
  exact finish_kill _ _
theorem issue_of_decode_ok {s : State} {n : ActorName} {i : Instr} {k : Nat} (hpc : (s.actor n).pc % 4 = 0)
    (hd : decode (s.code (s.actor n)) = .ok (i, k)) : issue s n = exec i { s with focus := n } :=
  issue_of_fetch_some (State.fetch_of_decode_ok hpc hd)

-- The attempt of a context -----------------------------------------------------------------------------------------

/-- Nothing stops a debugged actor before its instruction, and its invocation is in progress. -/
theorem tryContext_active {s : State} {n : ActorName} (hs : (s.actor n).stopsNow = false) (ha : (s.actor n).st = .active) :
    tryContext s n = tryActive s n := by
  simp [tryContext, hs, ha]
/-- Nothing stops a debugged actor before its instruction, and an invocation of it may start. -/
theorem tryContext_ready {s : State} {n : ActorName} (hs : (s.actor n).stopsNow = false) (hr : (s.actor n).st = .ready)
    (hm : s.mayStart (s.actor n) = true) : tryContext s n = tryReady s n := by
  simp [tryContext, hs, hr, hm]
theorem tryActive_issued {s t : State} {n : ActorName} (h : issue s n = .next t) (ht : t.stalled = false) :
    tryActive s n = .issued (t.afterIssue (s.actor n)) := by
  simp [tryActive, h, ht]
/-- An actor that does not roam leaves nothing but what its stalled attempt has asked for. -/
theorem tryActive_stalled {s t : State} {n : ActorName} (h : issue s n = .next t) (ht : t.stalled = true)
    (hr : (s.actor n).roaming = false) : tryActive s n = .not_ t := by
  simp [tryActive, h, ht, hr]
/-- The start of an invocation and its first instruction, of an actor that no debugger is attached to. -/
theorem tryReady_issued {s b t : State} {n : ActorName} (hd : (s.actor n).dbg.dbgn = 0)
    (hb : exec .handlerStart { s with arg := { actor := n } } = .next b) (hl : b.alive n = true)
    (hbd : (b.actor n).dbg.dbgn = 0) (hi : issue b n = .next t) (ht : t.stalled = false) :
    tryReady s n = .issued (t.afterIssue (b.actor n)) := by
  simp only [tryReady, hd, hb, hl, hbd, hi, ht, bne_self_eq_false, Bool.false_and, Bool.not_true, Bool.false_eq_true, if_false]

-- The turn of an issue core ----------------------------------------------------------------------------------------

/-- The first context that issues is the slot last chosen. -/
theorem issueFirst_issued {s t : State} {c : Nat} {a : Actor} {r : List Actor} (h : tryContext s a.name = .issued t) :
    issueFirst s c (a :: r) = .next (t.modCell c fun e => { e with last := ctxSlot a }) := by
  simp only [issueFirst, h]
theorem issueFirst_not {s t : State} {c : Nat} {a : Actor} {r : List Actor} (h : tryContext s a.name = .not_ t) :
    issueFirst s c (a :: r) = issueFirst t c r := by
  simp only [issueFirst, h]
/-- No roaming context of the cell is away: the turn tries the cell's contexts in their order. -/
theorem coreTurn_of_away_nil {s : State} {c : Nat} (h : s.away c = []) : coreTurn s c = issueFirst s c (s.tryOrder c) := by
  simp only [coreTurn, h, List.foldl_nil]

-- Steps of the part's own ------------------------------------------------------------------------------------------

theorem carryOut_due {s : State} {k : Nat} {d : Due} (h : s.agenda[k]? = some d) :
    carryOut s (.due k) = exec d.ev.ev { s with agenda := s.agenda.eraseIdx k, focus := 0, stalled := false, arg := d.ev.arg } := by
  simp only [carryOut, h, runEvent]
theorem carryOut_input {s : State} {e : Event} {r : List Event} (h : s.inputs = e :: r) :
    carryOut s .input = exec e.ev { s with inputs := r, focus := 0, stalled := false, arg := e.arg } := by
  simp only [carryOut, h, runEvent]

-- The step ---------------------------------------------------------------------------------------------------------

theorem thenPass_next (t : State) : thenPass (.next t) = .next t.pass := rfl
/-- A power-on reset is taken whatever the part is in (23 R411, R413). -/
theorem step_of_powerOn {s : State} (h : s.powerOn = true) : step s = thenPass (carryOut s .input) := by
  simp only [step, h, if_true]
/-- A part that runs carries out what is chosen (log 1). -/
theorem step_of_chosen {s : State} {c : Choice} (hp : s.powerOn = false) (ht : s.tripped = false) (hh : s.halted = false)
    (hc : s.chosen = some c) : step s = thenPass (carryOut s c) := by
  simp [step, hp, ht, hh, hc]
/-- A part that has stopped writes the records that it owes the host (18 R385). -/
theorem step_of_halted_some {s : State} {k : Nat} (hp : s.powerOn = false) (ht : s.tripped = false) (hh : s.halted = true)
    (hk : s.lastWords = some k) : step s = thenPass (carryOut s (.due k)) := by
  simp [step, hp, ht, hh, hk]
theorem step_of_halted_none {s : State} (hp : s.powerOn = false) (ht : s.tripped = false) (hh : s.halted = true)
    (hk : s.lastWords = none) : step s = .fault .partStopped := by
  simp [step, hp, ht, hh, hk]
/-- An input is taken as a power-on reset or because it is chosen, to the same effect. -/
theorem step_of_input {s : State} (h : s.powerOn = true ∨ (s.tripped = false ∧ s.halted = false ∧ s.chosen = some .input)) :
    step s = thenPass (carryOut s .input) := by
  cases hp : s.powerOn with
  | true => exact step_of_powerOn hp
  | false =>
    obtain ⟨ht, hh, hc⟩ := h.resolve_left (by simp [hp])
    exact step_of_chosen hp ht hh hc
/-- The step of a chosen core, none of whose contexts is away, goes through its contexts from the first. -/
theorem step_of_core {s : State} {c : Nat} {l : List Actor} (hp : s.powerOn = false) (ht : s.tripped = false)
    (hh : s.halted = false) (hc : s.chosen = some (.core c)) (haw : s.away c = []) (ho : s.tryOrder c = l) :
    step s = thenPass (issueFirst s c l) := by
  rw [step_of_chosen hp ht hh hc, carryOut, coreTurn_of_away_nil haw, ho]

end Sys2Proof.Machine

open Sys2Proof Sys2Proof.Machine

/-- Settles O60: each clause is the equation of the step's choice, followed by what the chosen core's first context, the event or the
stopped part comes to. -/
theorem stepRunsDecoded : Obligations.StepRunsDecoded := by
  unfold Obligations.StepRunsDecoded
  refine ⟨?active, ?ready, ?undecoded, ?due, ?stopped, ?input⟩
  case active =>
    intro s c a r i k t hp ht hh hc haw ho hs ha hpc hd hx
    have hi : issue s a.name = .next t := (issue_of_decode_ok hpc hd).trans hx
    have hstep := step_of_core hp ht hh hc haw ho
    have htry := tryContext_active hs ha
    constructor
    · intro hst
      rw [hstep, issueFirst_issued (htry.trans (tryActive_issued hi hst)), thenPass_next]
    · intro hst hr
      rw [hstep, issueFirst_not (htry.trans (tryActive_stalled hi hst hr))]
  case ready =>
    intro s c a r i k b t hp ht hh hc haw ho hs hr hdb hm hb hl hbd hpc hd hx hst
    have hi : issue b a.name = .next t := (issue_of_decode_ok hpc hd).trans hx
    have htry := (tryContext_ready hs hr hm).trans (tryReady_issued hdb hb hl hbd hi hst)
    rw [step_of_core hp ht hh hc haw ho, issueFirst_issued htry, thenPass_next]
  case undecoded =>
    intro s n e _ hd
    exact issue_of_fetch_none (State.fetch_of_decode_error hd)
  case due =>
    intro s t k d hp ht hh hc hk hx
    rw [step_of_chosen hp ht hh hc, carryOut_due hk, hx, thenPass_next]
  case stopped =>
    intro s hp ht hh
    exact ⟨step_of_halted_none hp ht hh, fun k => step_of_halted_some hp ht hh⟩
  case input =>
    intro s t e r hsel hin hx
    rw [step_of_input hsel, carryOut_input hin, hx, thenPass_next]
end

