-- ==== Sys2Proof/Proofs/CanonicalMemory.lean ====
section
/-! PROOFS. Memory as data (03 R68): one byte read of it, and its canonical form, which the attempts of the contexts, the turn of an
issue core, the steps of the part's own and the passing of time keep: every step of Machine/Issue.lean and Machine/Step.lean. -/

namespace Sys2Proof.Machine

-- The attempt of a context -----------------------------------------------------------------------------------------

theorem canon_issue (s : State) (n : ActorName) (h0 : Canon s) : CanonOut (issue s n) := by
  unfold issue
  dsimp only
  split
  · exact canon_exec _ { s with focus := n } h0
  · exact canon_finish { s with focus := n } _ h0 CanonRes.kill
theorem canon_tryActive (s : State) (n : ActorName) (h0 : Canon s) : CanonTried (tryActive s n) := by
  have hi := canon_issue s n h0
  unfold tryActive
  dsimp only
  split
  case h_1 t heq =>
    have ht : Canon t := Canon.ofnext heq hi
    split
    · exact CanonTried.not_ (Canon.ite (fun _ => canon_State_modActor t n _ ht) fun _ => ht)
    · exact CanonTried.issued (canon_State_afterIssue t _ ht)
  case h_2 => exact CanonTried.stopped hi
/-- A READY actor: stopped before its start, its start a fault or its death, stopped at its first instruction, or that instruction
issued, stalled or a fault. -/
theorem canon_tryReady (s : State) (n : ActorName) (h0 : Canon s) : CanonTried (tryReady s n) := by
  have hb := canon_exec .handlerStart { s with arg := { actor := n } } h0
  unfold tryReady
  dsimp only
  split
  · exact CanonTried.not_ (canon_State_stopTarget s n h0)
  · split
    case h_1 t heq =>
      have ht : Canon t := Canon.ofnext heq hb
      split
      · exact CanonTried.not_ ht
      · split
        · exact CanonTried.not_ (canon_State_stopTarget _ n (canon_State_modActor s n _ h0))
        · have hi := canon_issue t n ht
          split
          case h_1 u heq =>
            have hu : Canon u := Canon.ofnext heq hi
            split
            · exact CanonTried.not_ (canon_State_unstarted s u n h0 hu)
            · exact CanonTried.issued (canon_State_afterIssue u _ hu)
          case h_2 => exact CanonTried.stopped hi
    case h_2 => exact CanonTried.stopped hb
theorem canon_tryContext (s : State) (n : ActorName) (h0 : Canon s) : CanonTried (tryContext s n) := by
  unfold tryContext
  split
  · exact CanonTried.not_ (canon_State_stopBefore s n h0)
  · split
    · exact canon_tryActive s n h0
    · split
      · exact canon_tryReady s n h0
      · exact CanonTried.not_ h0

-- The turn of an issue core ----------------------------------------------------------------------------------------

theorem canon_issueFirst (c : Nat) (l : List Actor) : ∀ s : State, Canon s → CanonOut (issueFirst s c l) := by
  induction l with
  | nil => exact fun s h0 => CanonOut.next h0
  | cons a r ih =>
    intro s h0
    have ha := canon_tryContext s a.name h0
    unfold issueFirst
    split
    case h_1 t heq => exact CanonOut.next (canon_State_modCell t c _ (Canon.ofissued heq ha))
    case h_2 t heq => exact ih t (Canon.ofnot heq ha)
    case h_3 o heq => exact Canon.ofstopped heq ha
theorem canon_askContext (s : State) (a : Actor) (h0 : Canon s) : Canon (askContext s a) := by
  unfold askContext
  exact Canon.ite (fun _ => canon_State_post _ 0 _ _ (canon_State_modActor s a.name _ h0)) fun _ => h0
theorem canon_coreTurn (s : State) (c : Nat) (h0 : Canon s) : CanonOut (coreTurn s c) :=
  canon_issueFirst c _ _ (Canon.foldl h0 canon_askContext)

-- The step ---------------------------------------------------------------------------------------------------------

theorem canon_runEvent (s : State) (e : Event) (h0 : Canon s) : CanonOut (runEvent s e) :=
  canon_exec e.ev { s with focus := 0, stalled := false, arg := e.arg } h0
theorem canon_carryOut (s : State) (c : Choice) (h0 : Canon s) : CanonOut (carryOut s c) := by
  cases c with
  | due k =>
    simp only [carryOut]
    split
    · exact canon_runEvent { s with agenda := s.agenda.eraseIdx k } _ h0
    · exact CanonOut.next h0
  | input =>
    simp only [carryOut]
    split
    · exact canon_runEvent { s with inputs := _ } _ h0
    · exact CanonOut.next h0
  | core c => exact canon_coreTurn s c h0
theorem canon_thenPass {o : Out} (h0 : CanonOut o) : CanonOut (thenPass o) := by
  cases o with
  | next t => exact CanonOut.next (canon_State_pass t h0)
  | fault => exact CanonOut.fault
  | refused => exact CanonOut.refused
/-- Every way that a step can go: a power-on reset, a stopped part, or what is chosen. -/
theorem canon_step (s : State) (h0 : Canon s) : CanonOut (step s) := by
  unfold step
  split
  · exact canon_thenPass (canon_carryOut s .input h0)
  · split
    · exact CanonOut.fault
    · split
      · split
        · exact canon_thenPass (canon_carryOut s _ h0)
        · exact CanonOut.fault
      · split
        · exact canon_thenPass (canon_carryOut s _ h0)
        · exact CanonOut.next (canon_State_idle s h0)

-- One byte ---------------------------------------------------------------------------------------------------------

/-- One byte read of a memory in canonical form. -/
theorem Memory.read_one {m : List Host.Cell} (a : Nat) (h : Memory.wf m = true) : Memory.read m a 1 = [Memory.get m a] := by
  simp [Memory.read_eq m a 1 h]

end Sys2Proof.Machine

open Sys2Proof Sys2Proof.Machine

/-- Settles O57: every way that a step can go keeps the form (`canon_step`), over every instruction and event (`canon_exec`). -/
theorem keptCanonical : Obligations.KeptCanonical := by
  unfold Obligations.KeptCanonical
  intro s t hs ht
  exact Canon.ofnext ht (canon_step s hs)

/-- Settles O56: the laws of one write, and that memories in canonical form whose bytes read alike one by one are equal. -/
theorem memoryWrites : Obligations.MemoryWrites := by
  unfold Obligations.MemoryWrites
  refine ⟨fun s a bs hs => ⟨State.wf_put s a bs hs, ?same, fun k n hk => ?outside⟩, fun m n hm hn h => ?equal⟩
  case same => exact Memory.read_write_same s.mem a bs hs
  case outside => exact Memory.read_write_outside s.mem a k n bs hs hk
  case equal =>
    refine Memory.ext m n hm hn fun a => ?_
    have hread := h a
    rw [Memory.read_one a hm, Memory.read_one a hn] at hread
    exact List.head_eq_of_cons_eq hread
end

