-- ==== Sys2Proof/Proofs/Homes.lean ====
section
/-! PROOFS. What a home leaves of the state: the count of an accepted packet (03 R90), the effect of a packet (R76 to R78; 09 R217 to
R222), and where an effect takes place (03 R82; 18 R374). -/

namespace Sys2Proof.Machine

-- Rising lists -----------------------------------------------------------------------------------------------------

theorem mem_insNat {g n : Nat} {l : List Nat} : g ∈ insNat l n ↔ g = n ∨ g ∈ l := by
  induction l with
  | nil => simp [insNat]
  | cons k r ih =>
    unfold insNat
    split
    · exact List.mem_cons
    · split
      · next heq => subst heq; simp
      · rw [List.mem_cons, ih, List.mem_cons]; exact or_left_comm
theorem mem_foldl_insNat {g : Nat} (ps : List Nat) : ∀ l : List Nat, g ∈ ps.foldl insNat l ↔ g ∈ ps ∨ g ∈ l := by
  induction ps with
  | nil => simp
  | cons p ps ih =>
    intro l
    rw [List.foldl_cons, ih, mem_insNat, List.mem_cons, or_left_comm, or_assoc]

-- An accepted packet (R90) -----------------------------------------------------------------------------------------

/-- Counting an access changes the page's counter and, for a page that becomes hot, what tells Astrolabe of it. -/
theorem State.countAccess_eq (s : State) (pa n : Nat) : ∃ cs qs ns ag l,
    s.countAccess pa n = { s with counts := cs, queued := qs, notes := ns, agenda := ag, regs := { s.regs with lost := l } } := by
  have hnotify : ∀ (t : State) (pp : Nat), ∃ qs ns ag l,
      t.notify pp = { t with queued := qs, notes := ns, agenda := ag, regs := { t.regs with lost := l } } := by
    intro t pp
    unfold State.notify
    split
    · exact ⟨_, _, _, _, rfl⟩
    · split <;> exact ⟨_, _, _, _, rfl⟩
  unfold State.countAccess
  dsimp only
  split
  · split
    · split
      · obtain ⟨qs, ns, ag, l, h⟩ := hnotify _ _
        exact ⟨_, qs, ns, ag, l, h⟩
      · exact ⟨_, _, _, _, _, rfl⟩
    · exact ⟨_, _, _, _, _, rfl⟩
  · exact ⟨_, _, _, _, _, rfl⟩
/-- The state in which the home has counted the packet of `s.arg`. -/
def State.accepted (s : State) : State := s.countAccess s.arg.pkt.pa (max 1 s.arg.pkt.len)
theorem State.accepted_eq (s : State) : ∃ cs qs ns ag l,
    s.accepted = { s with counts := cs, queued := qs, notes := ns, agenda := ag, regs := { s.regs with lost := l } } :=
  s.countAccess_eq _ _
@[simp] theorem State.accepted_mem (s : State) : s.accepted.mem = s.mem := by obtain ⟨_, _, _, _, _, h⟩ := s.accepted_eq; rw [h]
@[simp] theorem State.accepted_gpois (s : State) : s.accepted.gpois = s.gpois := by obtain ⟨_, _, _, _, _, h⟩ := s.accepted_eq; rw [h]
@[simp] theorem State.accepted_reds (s : State) : s.accepted.reds = s.reds := by obtain ⟨_, _, _, _, _, h⟩ := s.accepted_eq; rw [h]
@[simp] theorem State.accepted_filters (s : State) : s.accepted.filters = s.filters := by
  obtain ⟨_, _, _, _, _, h⟩ := s.accepted_eq; rw [h]
@[simp] theorem State.accepted_bytes (s : State) (a n : Nat) : s.accepted.bytes a n = s.bytes a n := by simp [State.bytes]
@[simp] theorem State.accepted_num (s : State) (a n : Nat) : s.accepted.num a n = s.num a n := by simp [State.num]
@[simp] theorem State.accepted_recall (s : State) (p : Packet) : s.accepted.recall p = s.recall p := by simp [State.recall]
@[simp] theorem State.accepted_merge (s : State) (r : RedPiece) (k : Nat) (data : List Byte) (desc : W64) (bad : List Nat) :
    s.accepted.merge r k data desc bad = s.merge r k data desc bad := by simp [State.merge]
@[simp] theorem State.accepted_mirrored (s : State) (pa : Nat) : s.accepted.mirrored pa = s.mirrored pa := by
  obtain ⟨_, _, _, _, _, h⟩ := s.accepted_eq; rw [h]; rfl

-- Effects ----------------------------------------------------------------------------------------------------------

/-- Memory after a list of writes. -/
def Memory.writes (m : List Host.Cell) (ws : List (Nat × List Byte)) : List Host.Cell := ws.foldl (fun m w => Memory.write m w.1 w.2) m
theorem foldl_put_eq (ws : List (Nat × List Byte)) : ∀ s : State,
    ws.foldl (fun (t : State) w => t.put w.1 w.2) s = { s with mem := Memory.writes s.mem ws } := by
  induction ws with
  | nil => exact fun s => rfl
  | cons w ws ih => exact fun s => ih (s.put w.1 w.2)
/-- The reduction pieces with one replaced, or added. -/
def redsWith (l : List RedPiece) (r : RedPiece) : List RedPiece :=
  if l.any fun x => x.home == r.home && x.pa == r.pa then l.map fun x => if x.home == r.home && x.pa == r.pa then r else x else l ++ [r]
theorem State.setRed_eq (s : State) (r : RedPiece) : s.setRed r = { s with reds := redsWith s.reds r } := by
  unfold State.setRed redsWith; split <;> rfl
/-- A piece of an address that has none at its home is a new one. -/
theorem redsWith_new {l : List RedPiece} {r : RedPiece} (h : ∀ x ∈ l, x.home = r.home → x.pa ≠ r.pa) : redsWith l r = l ++ [r] := by
  unfold redsWith
  rw [if_neg]
  simpa using h
/-- A piece replaces one of its home and address. -/
theorem mem_redsWith_of_mem {l : List RedPiece} {r x : RedPiece} (hx : x ∈ l) (hh : x.home = r.home) (hp : x.pa = r.pa) :
    r ∈ redsWith l r := by
  have hany : (l.any fun x => x.home == r.home && x.pa == r.pa) = true := List.any_eq_true.2 ⟨x, hx, by simp [hh, hp]⟩
  unfold redsWith
  rw [if_pos hany]
  exact List.mem_map.2 ⟨x, hx, by simp [hh, hp]⟩
/-- An effect changes memory, its poison bits, the filter and the reduction pieces, and nothing else. -/
theorem State.apply_eq (s : State) (h : Home) (e : Effect) : s.apply h e = { s with
    mem := Memory.writes s.mem e.writes
    gpois := e.pset.foldl insNat (s.gpois.filter fun g => !e.pclr.contains g)
    filters := if e.filt then (s.remember h e.reply).filters else s.filters
    reds := e.red.elim s.reds (redsWith s.reds) } := by
  unfold State.apply
  simp only [foldl_put_eq, State.setRed_eq]
  cases e.red <;> cases e.filt <;> rfl
@[simp] theorem State.apply_mem (s : State) (h : Home) (e : Effect) : (s.apply h e).mem = Memory.writes s.mem e.writes := by rw [s.apply_eq]
@[simp] theorem State.apply_fwds (s : State) (h : Home) (e : Effect) : (s.apply h e).fwds = s.fwds := by rw [s.apply_eq]
@[simp] theorem State.apply_mirrored (s : State) (h : Home) (e : Effect) (pa : Nat) : (s.apply h e).mirrored pa = s.mirrored pa := by
  rw [s.apply_eq]; rfl
theorem State.mem_apply_gpois {s : State} {h : Home} {e : Effect} {g : Nat} :
    g ∈ (s.apply h e).gpois ↔ g ∈ e.pset ∨ g ∈ s.gpois ∧ g ∉ e.pclr := by
  rw [s.apply_eq]; simp [mem_foldl_insNat]
theorem State.apply_filters_of_not_filt {s : State} {h : Home} {e : Effect} (hf : e.filt = false) : (s.apply h e).filters = s.filters := by
  rw [s.apply_eq]; simp [hf]
/-- The newest entry of the filter is the reply just made (03 R78). -/
theorem State.apply_filters_newest {s : State} {h : Home} {e : Effect} (hf : e.filt = true) :
    (kvGet [] (s.apply h e).filters (portKey e.reply.rq h)).head? = some (e.reply.reqid, e.reply) := by
  rw [s.apply_eq]; simp [hf, State.remember, kvGet_kvSet_same]
theorem State.apply_reds_of_red_none {s : State} {h : Home} {e : Effect} (hr : e.red = none) : (s.apply h e).reds = s.reds := by
  rw [s.apply_eq]; simp [hr]
theorem State.apply_reds_of_red_some {s : State} {h : Home} {e : Effect} {r : RedPiece} (hr : e.red = some r) :
    (s.apply h e).reds = redsWith s.reds r := by
  rw [s.apply_eq]; simp [hr]
/-- An effect at an allocation that is not mirrored is answered at once (03 R82). -/
theorem State.execute_of_not_mirrored {s : State} {p : Packet} {e : Effect} (h : s.mirrored p.pa = none) :
    s.execute p e = (s.apply p.home e).sendReply e.reply := by
  unfold State.execute
  simp only [State.apply_mirrored, h]

-- Where a packet's meaning takes place -----------------------------------------------------------------------------

/-- A packet for a plane that has not come from its station enters it, or its plane is lost (18 R374; 03 R87). -/
theorem atHome_station {s : State} {k : Nat} (f : State → Packet → State) (hk : s.arg.pkt.home = .plane k) (hf : s.arg.flag = false) :
    atHome s f = .next (if s.planeDead k = true then s.loseRequest s.arg.pkt else s.enterStation k { rq := s.arg.pkt.rq, pkt := s.arg.pkt }) := by
  simp only [atHome, hk, hf]
/-- A packet that has reached its home meets memory or none. -/
theorem atHome_here {s : State} (f : State → Packet → State) (h : s.arg.flag = true ∨ ∀ k, s.arg.pkt.home ≠ .plane k) :
    atHome s f = if s.present s.arg.pkt.pa = true then .next (f s.accepted s.arg.pkt) else .fault (.noSuchAddress s.arg.pkt.pa) := by
  unfold atHome
  dsimp only
  split
  case h_1 k hk hf =>
    rcases h with h | h
    · rw [hf] at h; exact absurd h (by simp)
    · exact absurd hk (h k)
  case h_2 => rfl

end Sys2Proof.Machine
end

