-- ==== Sys2Proof/Proofs/HomeEvents.lean ====
section
/-! PROOFS. Each request at its home (03 R76 to R78, R82; 09 R215, R217, R220, R221): what its event comes to, one equation for each
way that it can go, and the statement O46. -/

namespace Sys2Proof.Machine

/-- The packet of `s.arg` has reached its home, and memory stands behind its address (18 R374; 03 R79). -/
def AtMemory (s : State) : Prop := (s.arg.flag = true ∨ ∀ k, s.arg.pkt.home ≠ .plane k) ∧ s.present s.arg.pkt.pa = true

theorem atHome_of_atMemory {s : State} (h : AtMemory s) (f : State → Packet → State) : atHome s f = .next (f s.accepted s.arg.pkt) := by
  rw [atHome_here f h.1, if_pos h.2]
/-- A request executed where nothing is mirrored is answered by the reply of its effect (03 R82). -/
theorem answers_of_execute {s t : State} {ev : Instr} {e : Effect} {P : State → Prop} (hx : exec ev s = .next (t.execute s.arg.pkt e))
    (hm : t.mirrored s.arg.pkt.pa = none) (hP : P (t.apply s.arg.pkt.home e)) : Answers s ev e.reply P :=
  ⟨_, hx.trans (by rw [State.execute_of_not_mirrored hm]), hP⟩
/-- The effect of a request that a status answers (09 R217, R221). -/
def statusEffect (p : Packet) (st : Nat) (keep : Bool) : Effect := { filt := keep, reply := { replyTo p with st := st } }
theorem apply_statusEffect_mem (s : State) (h : Home) (p : Packet) (st : Nat) (keep : Bool) :
    (s.accepted.apply h (statusEffect p st keep)).mem = s.mem := by
  simp [statusEffect, Memory.writes]
theorem apply_statusEffect_reds (s : State) (h : Home) (p : Packet) (st : Nat) (keep : Bool) :
    (s.accepted.apply h (statusEffect p st keep)).reds = s.reds := by
  rw [State.apply_reds_of_red_none rfl, State.accepted_reds]

/-- Every request's event is a meaning at its home. -/
theorem exec_request_eq_atHome (s : State) :
    ∀ ev ∈ [Instr.rd, .wr, .wrm, .at_, .rcDeclaration, .rcContribution], ∃ f, exec ev s = atHome s f := by
  simp only [List.forall_mem_cons, List.not_mem_nil, false_implies, implies_true, and_true]
  exact ⟨⟨_, show execRd s = _ by rw [execRd]⟩, ⟨_, show execWr s = _ by rw [execWr]⟩, ⟨_, show execWrm s = _ by rw [execWrm]⟩,
    ⟨_, show execAt s = _ by rw [execAt]⟩, ⟨_, show execRcDeclaration s = _ by rw [execRcDeclaration]⟩,
    ⟨_, show execRcContribution s = _ by rw [execRcContribution]⟩⟩

-- Reads and writes (R76, R77) --------------------------------------------------------------------------------------

theorem exec_rd_atMemory {s : State} (h : AtMemory s) : exec .rd s = .next (s.accepted.sendReply { replyTo s.arg.pkt with
      data := s.bytes s.arg.pkt.pa (64 * s.arg.pkt.len), len := s.arg.pkt.len
      pois := (List.range s.arg.pkt.len).filter fun g => s.gpois.contains (s.arg.pkt.pa / 64 + g) }) := by
  show execRd s = _
  rw [execRd, atHome_of_atMemory h]
  simp only [State.accepted_bytes, State.accepted_gpois]
theorem exec_wr_atMemory {s : State} (h : AtMemory s) : exec .wr s = .next (s.accepted.execute s.arg.pkt
      { writes := [(s.arg.pkt.pa, s.arg.pkt.data)], pclr := granulesOf s.arg.pkt.pa s.arg.pkt.data.length
        reply := written s.arg.pkt (2 ^ s.arg.pkt.data.length - 1) s.arg.pkt.data.length }) := by
  show execWr s = _
  rw [execWr, atHome_of_atMemory h]
/-- The effect of a masked write: the granule with the enabled bytes replaced (R77). -/
def maskedEffect (s : State) (p : Packet) : Effect :=
  let bad := s.gpois.contains (p.pa / 64)
  let full := p.mask == 2 ^ 64 - 1
  { writes := [(p.pa, mergeMask p.mask (s.bytes p.pa 64) p.data)], pset := if bad && !full then [p.pa / 64] else []
    pclr := if full then [p.pa / 64] else [], reply := { written p p.mask 64 with pois := if bad && !full then [0] else [] } }
theorem exec_wrm_atMemory {s : State} (h : AtMemory s) :
    exec .wrm s = .next (s.accepted.execute s.arg.pkt (maskedEffect s s.arg.pkt)) := by
  show execWrm s = _
  rw [execWrm, atHome_of_atMemory h]
  simp only [State.accepted_bytes, State.accepted_gpois, maskedEffect]
/-- A masked write changes the poison of no granule, but clears its own when it enables every byte (R77). -/
theorem mem_gpois_maskedEffect {s t : State} {p : Packet} {h : Home} {g : Nat} (ht : t.gpois = s.gpois) :
    g ∈ (t.apply h (maskedEffect s p)).gpois ↔ g ∈ s.gpois ∧ (p.mask = 2 ^ 64 - 1 → g ≠ p.pa / 64) := by
  rw [State.mem_apply_gpois, ht]
  by_cases hfull : p.mask = 2 ^ 64 - 1
  · simp [maskedEffect, hfull]
  · have hset : g ∈ (maskedEffect s p).pset → g ∈ s.gpois := by
      simp only [maskedEffect]
      split
      · next hbad =>
        intro hg
        rw [List.mem_singleton.1 hg]
        simpa using (Bool.and_eq_true_iff.1 hbad).1
      · simp
    have hclr : (maskedEffect s p).pclr = [] := by simp only [maskedEffect, beq_false_of_ne hfull, Bool.false_eq_true, if_false]
    rw [hclr]
    constructor
    · exact fun hg => ⟨hg.elim hset And.left, fun h => absurd h hfull⟩
    · exact fun hg => .inr ⟨hg.1, List.not_mem_nil⟩

-- Atomics (R78; 09 R215) -------------------------------------------------------------------------------------------

/-- A numbered request that the filter knows is answered from it. -/
theorem exec_numbered_duplicate {s : State} {r : Reply} (h : AtMemory s) (hr : s.recall s.arg.pkt = some r) :
    ∀ ev ∈ [Instr.at_, .rcContribution, .rcDeclaration], exec ev s = .next (s.accepted.sendReply r) := by
  have hr' : s.accepted.recall s.arg.pkt = some r := by simpa using hr
  simp only [List.forall_mem_cons, List.not_mem_nil, false_implies, implies_true, and_true]
  refine ⟨?_, ?_, ?_⟩
  · show execAt s = _
    rw [execAt, atHome_of_atMemory h, hr']
  · show execRcContribution s = _
    rw [execRcContribution, atHome_of_atMemory h, hr']
  · show execRcDeclaration s = _
    rw [execRcDeclaration, atHome_of_atMemory h, hr']
theorem exec_at_poisoned {s : State} (h : AtMemory s) (hr : s.recall s.arg.pkt = none) (hp : s.gpois.contains (s.arg.pkt.pa / 64) = true) :
    exec .at_ s = .next (s.accepted.sendReply { replyTo s.arg.pkt with val := BitVec.ofNat 64 (s.num s.arg.pkt.pa 8), pois := [0] }) := by
  show execAt s = _
  rw [execAt, atHome_of_atMemory h]
  simp only [State.accepted_recall, hr, State.accepted_gpois, hp, if_true, State.accepted_num]
/-- The effect of an atomic on a granule that is not poisoned. -/
def atomicEffect (s : State) (p : Packet) : Effect :=
  let old := BitVec.ofNat 64 (s.num p.pa 8)
  { writes := match atomicNew p.aop old p.v p.c with | some v => [(p.pa, bytesOf 8 v.toNat)] | none => []
    filt := true, reply := { replyTo p with val := old } }
theorem exec_at_clean {s : State} (h : AtMemory s) (hr : s.recall s.arg.pkt = none) (hp : s.gpois.contains (s.arg.pkt.pa / 64) = false) :
    exec .at_ s = .next (s.accepted.execute s.arg.pkt (atomicEffect s s.arg.pkt)) := by
  show execAt s = _
  rw [execAt, atHome_of_atMemory h]
  simp only [State.accepted_recall, hr, State.accepted_gpois, hp, Bool.false_eq_true, if_false, State.accepted_num]
  rfl
theorem writes_atomicEffect (s : State) (p : Packet) (m : List Host.Cell) : Memory.writes m (atomicEffect s p).writes =
    match atomicNew p.aop (BitVec.ofNat 64 (s.num p.pa 8)) p.v p.c with | some v => Memory.write m p.pa (bytesOf 8 v.toNat) | none => m := by
  simp only [atomicEffect]
  split <;> rfl

-- Declarations (09 R217) -------------------------------------------------------------------------------------------

/-- The pieces of the home of the packet of `s.arg`. -/
def homeReds (s : State) : List RedPiece := s.reds.filter fun x => x.home == s.arg.pkt.home
/-- The piece that a declaration records. -/
def declaredPiece (p : Packet) : RedPiece :=
  { home := p.home, pa := p.pa, bytes := min 4096 (p.rc.rows * rowBytes p.rc.cols (descOf p.rc.desc).wd - 4096 * p.rc.pc), lead := p.rc.lead, ctl := p.rc }

section
variable {s : State} (h : AtMemory s) (hr : s.recall s.arg.pkt = none)
include h hr

/-- A declaration that no reply is kept for, as its home's pieces stand. -/
theorem exec_rcDeclaration_new : exec .rcDeclaration s = .next (
    if (homeReds s).any (fun x => x.pa == s.arg.pkt.pa) = true then s.accepted.execute s.arg.pkt (statusEffect s.arg.pkt 7 true)
    else if 64 ≤ (homeReds s).length then s.accepted.execute s.arg.pkt (statusEffect s.arg.pkt 6 true)
    else s.accepted.execute s.arg.pkt { statusEffect s.arg.pkt 0 true with red := some (declaredPiece s.arg.pkt) }) := by
  show execRcDeclaration s = _
  rw [execRcDeclaration, atHome_of_atMemory h]
  simp only [State.accepted_recall, hr, State.accepted_reds]
  rfl
theorem exec_rcDeclaration_overlap (ho : ∃ x ∈ homeReds s, x.pa = s.arg.pkt.pa) :
    exec .rcDeclaration s = .next (s.accepted.execute s.arg.pkt (statusEffect s.arg.pkt 7 true)) := by
  rw [exec_rcDeclaration_new h hr, if_pos (by simpa using ho)]

variable (ho : ∀ x ∈ homeReds s, x.pa ≠ s.arg.pkt.pa)
include ho

theorem exec_rcDeclaration_full (hl : 64 ≤ (homeReds s).length) :
    exec .rcDeclaration s = .next (s.accepted.execute s.arg.pkt (statusEffect s.arg.pkt 6 true)) := by
  rw [exec_rcDeclaration_new h hr, if_neg (by simpa using ho), if_pos hl]
theorem exec_rcDeclaration_recorded (hl : (homeReds s).length < 64) : exec .rcDeclaration s =
    .next (s.accepted.execute s.arg.pkt { statusEffect s.arg.pkt 0 true with red := some (declaredPiece s.arg.pkt) }) := by
  rw [exec_rcDeclaration_new h hr, if_neg (by simpa using ho), if_neg (Nat.not_le.2 hl)]

end

-- Contributions (09 R220, R221) ------------------------------------------------------------------------------------

/-- The piece that the packet of `s.arg` contributes to. -/
def targetPiece (s : State) : Option RedPiece := s.reds.find? fun x => x.home == s.arg.pkt.home && x.pa == s.arg.pkt.pa
/-- A contribution is of the shape and of a format that a piece admits, and of a slice that it has (R220). -/
def Fits (r : RedPiece) (p : Packet) : Prop :=
  p.rc.k < r.ctl.k ∧ r.ctl.rows = p.rc.rows ∧ r.ctl.cols = p.rc.cols ∧ redAdmits r.ctl.desc p.rc.desc = true
/-- A slice is merged or held already (R221). -/
def Merged (r : RedPiece) (p : Packet) : Prop := p.rc.k < r.nx ∨ ∃ h ∈ r.holds, h.1 = p.rc.k
theorem targetPiece_eq_none {s : State} (h : ∀ x ∈ homeReds s, x.pa ≠ s.arg.pkt.pa) : targetPiece s = none := by
  simpa [targetPiece, homeReds] using h
/-- The check of a contribution's shape, format and slice (R220). -/
theorem unfit_iff {r : RedPiece} {p : Packet} :
    (decide (r.ctl.k ≤ p.rc.k) || r.ctl.rows != p.rc.rows || r.ctl.cols != p.rc.cols || !redAdmits r.ctl.desc p.rc.desc) = true ↔ ¬ Fits r p := by
  simp only [Fits, Bool.or_eq_true, decide_eq_true_eq, bne_iff_ne, Bool.not_eq_true', not_and_or, Nat.not_lt, Bool.not_eq_true, or_assoc]
theorem merged_iff {r : RedPiece} {p : Packet} : (decide (p.rc.k < r.nx) || r.holds.any fun h => h.1 == p.rc.k) = true ↔ Merged r p := by
  simp only [Merged, Bool.or_eq_true, decide_eq_true_eq, List.any_eq_true, beq_iff_eq]
/-- The effect of one slice merged into its piece (R220). -/
def mergeEffect (s : State) (r : RedPiece) (p : Packet) : Effect :=
  { writes := [(r.pa, (s.merge r p.rc.k p.data p.rc.desc p.pois).1)], pset := (s.merge r p.rc.k p.data p.rc.desc p.pois).2.1
    pclr := (s.merge r p.rc.k p.data p.rc.desc p.pois).2.2 }
/-- A piece that holds no slice takes one and no other. -/
theorem State.mergeAll_of_holds_nil {s : State} {r : RedPiece} (f : Nat) (p : Packet) (hh : r.holds = []) :
    s.mergeAll (f + 1) r p.rc.k p.data p.rc.desc p.pois = (s.apply r.home (mergeEffect s r p), { r with nx := p.rc.k + 1 }) := by
  simp only [State.mergeAll, hh, List.find?_nil, mergeEffect]
/-- The effect that the reply to a merged slice goes with: the piece as it stands, with its bytes and poison for a mirror. -/
def mergedEffect (t : State) (r : RedPiece) (p : Packet) : Effect :=
  let ps := (List.range (ceilDiv r.bytes 64)).map fun i => r.pa / 64 + i
  { statusEffect p 0 true with red := some { r with done := r.nx = r.ctl.k }, writes := [(r.pa, t.bytes r.pa r.bytes)]
                               pset := ps.filter t.gpois.contains, pclr := ps.filter fun g => !t.gpois.contains g }

/-- What `execRcContribution` does with a contribution that no reply is kept for, to the piece of its address. -/
def State.contribute (s : State) (p : Packet) (r : RedPiece) : State :=
  if r.ctl.k ≤ p.rc.k || r.ctl.rows != p.rc.rows || r.ctl.cols != p.rc.cols || !redAdmits r.ctl.desc p.rc.desc then
    s.execute p (statusEffect p 4 true)
  else if p.rc.k < r.nx || r.holds.any fun h => h.1 == p.rc.k then s.execute p (statusEffect p 3 true)
  else if p.rc.k = r.nx then
    let m := s.mergeAll (r.holds.length + 1) r p.rc.k p.data p.rc.desc p.pois
    let t := m.1.execute p (mergedEffect m.1 m.2 p)
    if m.2.nx = m.2.ctl.k then t.post 0 .reductionNotice { n := m.2.lead } else t
  else if total ((s.reds.filter fun x => x.home == p.home).map fun x => x.holds.length) < 64 then
    s.execute p { statusEffect p 1 true with red := some { r with holds := r.holds ++ [(p.rc.k, p.data, p.rc.desc, p.pois)] } }
  else s.execute p (statusEffect p 2 false)

theorem State.merge_length (s : State) (r : RedPiece) (k : Nat) (data : List Byte) (desc : W64) (bad : List Nat) :
    (s.merge r k data desc bad).1.length = r.bytes := bytesOf_length _ _
/-- The effect that the reply of a merged slice goes with keeps the bytes that the merge left. -/
theorem bytes_mergedEffect {s t : State} {r u : RedPiece} {p : Packet} {h h' : Home} (hw : Memory.wf s.mem = true) (ht : t.mem = s.mem)
    (hp : u.pa = r.pa) (hb : u.bytes = r.bytes) : let m := t.apply h (mergeEffect s r p)
    (m.apply h' (mergedEffect m u p)).bytes r.pa (s.merge r p.rc.k p.data p.rc.desc p.pois).1.length = (s.merge r p.rc.k p.data p.rc.desc p.pois).1 := by
  intro m
  generalize hM : (s.merge r p.rc.k p.data p.rc.desc p.pois).1 = M
  have hlen : M.length = r.bytes := by rw [← hM, State.merge_length]
  have hmem : m.mem = Memory.write s.mem r.pa M := by
    rw [State.apply_mem, ht, ← hM]; rfl
  have hread : m.bytes r.pa r.bytes = M := by
    rw [State.bytes, hmem, ← hlen]; exact Memory.read_write_same _ _ _ hw
  have hmem' : (m.apply h' (mergedEffect m u p)).mem = Memory.write m.mem r.pa M := by
    rw [State.apply_mem, ← hread, ← hp, ← hb]; rfl
  rw [State.bytes, hmem']
  exact Memory.read_write_same _ _ _ (by rw [hmem]; exact Memory.wf_write _ _ _ hw)

section
variable {s : State} {r : RedPiece} (h : AtMemory s) (hr : s.recall s.arg.pkt = none)
include h hr

theorem exec_rcContribution_noObject (ht : targetPiece s = none) :
    exec .rcContribution s = .next (s.accepted.execute s.arg.pkt (statusEffect s.arg.pkt 5 true)) := by
  unfold targetPiece at ht
  show execRcContribution s = _
  rw [execRcContribution, atHome_of_atMemory h]
  simp only [State.accepted_recall, hr, State.accepted_reds, ht]
  rfl

variable (ht : targetPiece s = some r)
include ht

theorem exec_rcContribution_object : exec .rcContribution s = .next (s.accepted.contribute s.arg.pkt r) := by
  have ht' : (s.accepted.reds.find? fun x => x.home == s.arg.pkt.home && x.pa == s.arg.pkt.pa) = some r := by
    rw [State.accepted_reds]; exact ht
  show execRcContribution s = _
  rw [execRcContribution, atHome_of_atMemory h]
  simp only [State.accepted_recall, hr, ht']
  rfl
theorem exec_rcContribution_range (hf : ¬ Fits r s.arg.pkt) :
    exec .rcContribution s = .next (s.accepted.execute s.arg.pkt (statusEffect s.arg.pkt 4 true)) := by
  rw [exec_rcContribution_object h hr ht, State.contribute, if_pos (unfit_iff.2 hf)]

variable (hf : Fits r s.arg.pkt)
include hf

theorem exec_rcContribution_duplicate (hm : Merged r s.arg.pkt) :
    exec .rcContribution s = .next (s.accepted.execute s.arg.pkt (statusEffect s.arg.pkt 3 true)) := by
  rw [exec_rcContribution_object h hr ht, State.contribute, if_neg (fun hu => unfit_iff.1 hu hf), if_pos (merged_iff.2 hm)]
/-- The next slice of a piece that holds none, and not its last. -/
theorem exec_rcContribution_merged (hk : s.arg.pkt.rc.k = r.nx) (hh : r.holds = []) (hl : s.arg.pkt.rc.k + 1 ≠ r.ctl.k) :
    exec .rcContribution s = .next ((s.accepted.apply r.home (mergeEffect s r s.arg.pkt)).execute s.arg.pkt
      (mergedEffect (s.accepted.apply r.home (mergeEffect s r s.arg.pkt)) { r with nx := s.arg.pkt.rc.k + 1 } s.arg.pkt)) := by
  have hm : ¬ Merged r s.arg.pkt := by simp [Merged, hk, hh]
  have he : mergeEffect s.accepted r s.arg.pkt = mergeEffect s r s.arg.pkt := by simp [mergeEffect]
  rw [exec_rcContribution_object h hr ht, State.contribute, if_neg (fun hu => unfit_iff.1 hu hf),
    if_neg (fun hu => hm (merged_iff.1 hu)), if_pos hk, State.mergeAll_of_holds_nil _ _ hh, he]
  exact congrArg _ (if_neg hl)

variable (hm : ¬ Merged r s.arg.pkt) (hk : s.arg.pkt.rc.k ≠ r.nx)
include hm hk

/-- A slice before its turn is held while the home has room for it. -/
theorem exec_rcContribution_early : exec .rcContribution s = .next (if total ((homeReds s).map fun x => x.holds.length) < 64
    then s.accepted.execute s.arg.pkt { statusEffect s.arg.pkt 1 true with
      red := some { r with holds := r.holds ++ [(s.arg.pkt.rc.k, s.arg.pkt.data, s.arg.pkt.rc.desc, s.arg.pkt.pois)] } }
    else s.accepted.execute s.arg.pkt (statusEffect s.arg.pkt 2 false)) := by
  rw [exec_rcContribution_object h hr ht, State.contribute, if_neg (fun hu => unfit_iff.1 hu hf),
    if_neg (fun hu => hm (merged_iff.1 hu)), if_neg hk, State.accepted_reds]
  rfl

end

-- The end of a forward (R82) ---------------------------------------------------------------------------------------

theorem exec_mirrorAck_absent {s : State} (h : ∀ f ∈ s.fwds, f.id ≠ s.arg.n) : exec .mirrorAck s = .next s := by
  have hf : (s.fwds.find? fun f => f.id == s.arg.n) = none := by simpa using h
  show execMirrorAck s = _
  simp only [execMirrorAck, hf]
theorem exec_mirrorForwardTimeout_absent {s : State} (h : ∀ f ∈ s.fwds, f.id ≠ s.arg.n) : exec .mirrorForwardTimeout s = .next s := by
  have hf : (s.fwds.find? fun f => f.id == s.arg.n) = none := by simpa using h
  show execMirrorForwardTimeout s = _
  simp only [execMirrorForwardTimeout, hf]
/-- The state without a forward. -/
def State.endForward (s : State) (f : Forward) : State := { s with fwds := s.fwds.filter fun x => x.id != f.id }
/-- What a forward brings to its mirror. -/
def Forward.effect (f : Forward) : Effect :=
  { writes := f.writes, pset := f.pset, pclr := f.pclr, filt := f.filt, red := f.red, reply := f.reply }

section
variable {s : State} {f : Forward} (h : (s.fwds.find? fun f => f.id == s.arg.n) = some f)
include h

theorem exec_mirrorAck_dead (hd : s.planeDead f.mirror = true) : exec .mirrorAck s = .next s := by
  show execMirrorAck s = _
  simp only [execMirrorAck, h, hd, if_true]
theorem exec_mirrorAck_live (hd : s.planeDead f.mirror = false) :
    exec .mirrorAck s = .next (((s.endForward f).apply (.plane f.mirror) f.effect).sendReply f.reply) := by
  show execMirrorAck s = _
  simp only [execMirrorAck, h, hd, Bool.false_eq_true, if_false]
  rfl
theorem exec_mirrorForwardTimeout_forward : exec .mirrorForwardTimeout s =
    .next (({ s.endForward f with lone := f.back.foldl insNat s.lone } : State).sendReply f.reply) := by
  show execMirrorForwardTimeout s = _
  simp only [execMirrorForwardTimeout, h]
  rfl

end

end Sys2Proof.Machine

open Sys2Proof Sys2Proof.Machine

/-- Settles O46: a request that has not reached its home, one without memory behind it, and each request at its home by the equation of
its event and what its effect leaves (`answers_of_execute`); then the two ends of a forward. -/
theorem homeEvents : Obligations.HomeEvents := by
  unfold Obligations.HomeEvents
  intro s
  dsimp only
  refine ⟨?station, ?absent, ?requests, ?noForward, ?forward⟩
  case station =>
    intro k hk hf ev hev
    obtain ⟨f, hx⟩ := exec_request_eq_atHome s ev hev
    exact hx.trans (atHome_station f hk hf)
  case absent =>
    intro hh hp ev hev
    obtain ⟨f, hx⟩ := exec_request_eq_atHome s ev hev
    rw [hx, atHome_here f hh, if_neg (by rw [hp]; exact Bool.false_ne_true)]
  case noForward => exact fun h => ⟨exec_mirrorAck_absent h, exec_mirrorForwardTimeout_absent h⟩
  case forward =>
    intro f hf
    refine ⟨exec_mirrorAck_dead hf, fun hd => ⟨_, exec_mirrorAck_live hf hd, ?_, ?_⟩, _, exec_mirrorForwardTimeout_forward hf, rfl, ?_, rfl⟩
    · exact State.apply_fwds _ _ _
    · exact State.apply_mem _ _ _
    · exact fun k hk => (mem_foldl_insNat _ _).2 (.inl hk)
  case requests =>
    intro hh hp hm
    have h : AtMemory s := ⟨hh, hp⟩
    have hm' : s.accepted.mirrored s.arg.pkt.pa = none := by rw [State.accepted_mirrored]; exact hm
    refine ⟨?rd, ?wr, ?wrm, ?duplicate, ?atomic, ?declaration, ?contribution⟩
    case rd => exact ⟨_, exec_rd_atMemory h, s.accepted_mem, s.accepted_gpois⟩
    case wr =>
      refine answers_of_execute (exec_wr_atMemory h) hm' ⟨?_, fun g => ?_⟩
      · simp [Memory.writes]
      · simp [State.mem_apply_gpois]
    case wrm =>
      refine answers_of_execute (exec_wrm_atMemory h) hm' ⟨?_, fun g => ?_⟩
      · simp [Memory.writes, maskedEffect]
      · exact mem_gpois_maskedEffect s.accepted_gpois
    case duplicate =>
      intro r hr
      have hx := exec_numbered_duplicate h hr
      exact ⟨⟨_, hx _ (by simp), s.accepted_mem⟩, ⟨_, hx _ (by simp), s.accepted_mem, s.accepted_reds⟩, _, hx _ (by simp), s.accepted_reds⟩
    case atomic =>
      intro hr
      refine ⟨fun hb => ⟨_, exec_at_poisoned h hr hb, s.accepted_mem, s.accepted_filters⟩, fun hb => ?_⟩
      refine answers_of_execute (exec_at_clean h hr hb) hm' ⟨?_, ?_⟩
      · rw [State.apply_mem, State.accepted_mem]; exact writes_atomicEffect s _ s.mem
      · exact State.apply_filters_newest rfl
    case declaration =>
      intro hr
      refine ⟨fun ho => ?_, fun ho hl => ?_, fun ho hl => ?_⟩
      · exact answers_of_execute (exec_rcDeclaration_overlap h hr ho) hm' ((State.apply_reds_of_red_none rfl).trans s.accepted_reds)
      · exact answers_of_execute (exec_rcDeclaration_full h hr ho hl) hm' ((State.apply_reds_of_red_none rfl).trans s.accepted_reds)
      · refine answers_of_execute (exec_rcDeclaration_recorded h hr ho hl) hm' ?_
        rw [State.apply_reds_of_red_some rfl, State.accepted_reds]
        exact redsWith_new fun x hx hx' => ho x (List.mem_filter.2 ⟨hx, by rw [hx']; exact beq_self_eq_true _⟩)
    case contribution =>
      intro hr
      refine ⟨fun ho => ?noObject, fun r ht => ?object⟩
      case noObject =>
        exact answers_of_execute (exec_rcContribution_noObject h hr (targetPiece_eq_none ho)) hm' (apply_statusEffect_mem s _ _ _ _)
      case object =>
        have hmem : r ∈ s.reds := List.mem_of_find?_eq_some ht
        refine ⟨fun hf => ?_, fun hf hd => ?_, fun hf hd hk hl => ?_, fun hf hd hk hl => ?_, fun hw hf hk hh hl => ?_⟩
        · exact answers_of_execute (exec_rcContribution_range h hr ht hf) hm' ⟨apply_statusEffect_mem s _ _ _ _, apply_statusEffect_reds s _ _ _ _⟩
        · exact answers_of_execute (exec_rcContribution_duplicate h hr ht hf hd) hm' ⟨apply_statusEffect_mem s _ _ _ _, apply_statusEffect_reds s _ _ _ _⟩
        · refine answers_of_execute ((exec_rcContribution_early h hr ht hf hd hk).trans (congrArg _ (if_pos hl))) hm' ⟨?_, ?_⟩
          · rw [State.apply_mem, State.accepted_mem]; rfl
          · rw [State.apply_reds_of_red_some rfl, State.accepted_reds]
            exact mem_redsWith_of_mem hmem rfl rfl
        · exact answers_of_execute ((exec_rcContribution_early h hr ht hf hd hk).trans (congrArg _ (if_neg (Nat.not_lt.2 hl)))) hm'
            ⟨apply_statusEffect_mem s _ _ _ _, apply_statusEffect_reds s _ _ _ _, (State.apply_filters_of_not_filt rfl).trans s.accepted_filters⟩
        · refine answers_of_execute (exec_rcContribution_merged h hr ht hf hk hh hl) (by rw [State.apply_mirrored]; exact hm') ⟨?_, ?_⟩
          · exact bytes_mergedEffect hw s.accepted_mem rfl rfl
          · rw [State.apply_reds_of_red_some rfl, State.apply_reds_of_red_none rfl, State.accepted_reds]
            have hdone : decide (s.arg.pkt.rc.k + 1 = r.ctl.k) = false := decide_eq_false hl
            rw [← hdone]
            exact mem_redsWith_of_mem hmem rfl rfl
end

