-- ==== Sys2Proof/Proofs/Requesters.lean ====
section
/-! PROOFS. What a reply leaves of the state at its requester: the tag that it frees (03 R71), the transfer that it counts down (05 R118;
09 R221), and the row of scratchpad that it fills (05 R114; 07 R167). -/

namespace Sys2Proof.Machine

-- Actors changed ---------------------------------------------------------------------------------------------------

theorem State.modActor_eq (s : State) (n : ActorName) (f : Actor → Actor) : ∃ as, s.modActor n f = { s with actors := as } := by
  unfold State.modActor
  split
  · exact ⟨_, rfl⟩
  · exact ⟨_, rfl⟩
theorem State.actor_modActor {s : State} {n : ActorName} (f : Actor → Actor) (h : s.has n = true) :
    (s.modActor n f).actor n = { f (s.actor n) with name := n } := by
  rw [State.modActor, if_pos h]
  exact State.actor_setActor s { f (s.actor n) with name := n }
theorem State.actor_modActor_other (s : State) {n m : ActorName} (f : Actor → Actor) (h : m ≠ n) : (s.modActor n f).actor m = s.actor m := by
  unfold State.modActor
  split
  · exact State.actor_setActor_other s _ m h
  · rfl
theorem State.modActor_of_not_has {s : State} {n : ActorName} (f : Actor → Actor) (h : s.has n = false) : s.modActor n f = s := by
  simp [State.modActor, h]
theorem State.has_modActor (s : State) (n m : ActorName) (f : Actor → Actor) : (s.modActor n f).has m = s.has m := by
  unfold State.modActor
  split
  · next h =>
    by_cases hm : m = n
    · subst hm; exact (State.has_setActor s _).trans h.symm
    · exact kvHas_kvSet_other _ _ _ _ fun e => hm (BitVec.eq_of_toNat_eq e)
  · rfl
theorem State.port_modActor (s : State) (n : ActorName) (f : Actor → Actor) (rq : Nat) (h : Home) :
    (s.modActor n f).port rq h = s.port rq h := by
  obtain ⟨_, ha⟩ := s.modActor_eq n f; rw [ha]; rfl

-- Packets that leave (18 R364, R365) -------------------------------------------------------------------------------

/-- What a packet that leaves changes: the links on its way, and what is to come. -/
theorem State.launchPkt_eq (s : State) (p : Packet) : ∃ i ag ws us,
    s.launchPkt p = { s with nextId := i, agenda := ag, wires := ws, ucie := us } := by
  unfold State.launchPkt State.travel State.forwardWire
  dsimp only
  split <;> exact ⟨_, _, _, _, rfl⟩
theorem foldl_launchPkt_eq (ps : List Packet) : ∀ s : State, ∃ i ag ws us,
    ps.foldl State.launchPkt s = { s with nextId := i, agenda := ag, wires := ws, ucie := us } := by
  induction ps with
  | nil => exact fun s => ⟨_, _, _, _, rfl⟩
  | cons p ps ih =>
    intro s
    obtain ⟨_, _, _, _, hp⟩ := s.launchPkt_eq p
    obtain ⟨_, _, _, _, h⟩ := ih (s.launchPkt p)
    rw [hp] at h
    rw [List.foldl_cons, hp]
    exact ⟨_, _, _, _, h⟩

-- A freed tag (R71) ------------------------------------------------------------------------------------------------

/-- The requester's count of packets in flight to a page, after one reply. -/
def Actor.landed (a : Actor) (pa : Nat) : Actor := { a with flying := a.flying.erase (pa / 2 ^ 16) }
/-- A reply at its requester changes the owner's packets in flight, the port, and what leaves on the freed tag. -/
theorem State.freeTag_eq (s : State) (r : Reply) : ∃ ps i ag ws us,
    s.freeTag r = { s.modActor r.owner (Actor.landed · r.pa) with ports := ps, nextId := i, agenda := ag, wires := ws, ucie := us } := by
  unfold State.freeTag
  dsimp only
  split
  · split
    · exact ⟨_, _, _, _, _, rfl⟩
    · obtain ⟨_, _, _, _, h⟩ := foldl_launchPkt_eq _ _
      exact ⟨_, _, _, _, _, h⟩
  · split
    · exact ⟨_, _, _, _, _, rfl⟩
    · obtain ⟨_, _, _, _, h⟩ := State.launchPkt_eq _ _
      exact ⟨_, _, _, _, _, h⟩
@[simp] theorem State.freeTag_mem (s : State) (r : Reply) : (s.freeTag r).mem = s.mem := by
  obtain ⟨_, _, _, _, _, h⟩ := s.freeTag_eq r; obtain ⟨_, ha⟩ := s.modActor_eq r.owner (Actor.landed · r.pa); rw [h, ha]
@[simp] theorem State.freeTag_cells (s : State) (r : Reply) : (s.freeTag r).cells = s.cells := by
  obtain ⟨_, _, _, _, _, h⟩ := s.freeTag_eq r; obtain ⟨_, ha⟩ := s.modActor_eq r.owner (Actor.landed · r.pa); rw [h, ha]
@[simp] theorem State.freeTag_spois (s : State) (r : Reply) : (s.freeTag r).spois = s.spois := by
  obtain ⟨_, _, _, _, _, h⟩ := s.freeTag_eq r; obtain ⟨_, ha⟩ := s.modActor_eq r.owner (Actor.landed · r.pa); rw [h, ha]
@[simp] theorem State.freeTag_reds (s : State) (r : Reply) : (s.freeTag r).reds = s.reds := by
  obtain ⟨_, _, _, _, _, h⟩ := s.freeTag_eq r; obtain ⟨_, ha⟩ := s.modActor_eq r.owner (Actor.landed · r.pa); rw [h, ha]
theorem State.freeTag_actor (s : State) (r : Reply) (n : ActorName) :
    (s.freeTag r).actor n = (s.modActor r.owner (Actor.landed · r.pa)).actor n := by
  obtain ⟨_, _, _, _, _, h⟩ := s.freeTag_eq r; rw [h]; rfl
@[simp] theorem State.freeTag_has (s : State) (r : Reply) (n : ActorName) : (s.freeTag r).has n = s.has n := by
  obtain ⟨_, _, _, _, _, h⟩ := s.freeTag_eq r
  rw [h]; exact State.has_modActor s _ n _
theorem State.freeTag_actor_owner {s : State} {r : Reply} (h : s.has r.owner = true) :
    (s.freeTag r).actor r.owner = { (s.actor r.owner).landed r.pa with name := r.owner } := by
  rw [State.freeTag_actor, State.actor_modActor _ h]
theorem State.freeTag_actor_other {s : State} {r : Reply} {n : ActorName} (h : n ≠ r.owner) : (s.freeTag r).actor n = s.actor n := by
  rw [State.freeTag_actor, State.actor_modActor_other s _ h]
/-- Of no actor does a reply change more than its packets in flight. -/
theorem State.freeTag_actor_eq (s : State) (r : Reply) (n : ActorName) : ∃ m fs, (s.freeTag r).actor n = { s.actor n with name := m, flying := fs } := by
  by_cases hn : n = r.owner
  · subst hn
    cases h : s.has r.owner with
    | true => exact ⟨_, _, State.freeTag_actor_owner h⟩
    | false => rw [State.freeTag_actor, State.modActor_of_not_has _ h]; exact ⟨_, _, rfl⟩
  · rw [State.freeTag_actor_other hn]; exact ⟨_, _, rfl⟩
/-- No packet is held for a slice: the tag is free. -/
theorem State.freeTag_used {s : State} {r : Reply} {k : Nat} (hk : r.home = .slice k) (hh : (s.port r.rq r.home).held = []) :
    ((s.freeTag r).port r.rq r.home).used = (s.port r.rq r.home).used.filter (· != r.tag) := by
  have hfree : s.freeTag r = (s.modActor r.owner (Actor.landed · r.pa)).setPort r.rq r.home
      { s.port r.rq r.home with used := (s.port r.rq r.home).used.filter (· != r.tag) } := by
    rw [hk] at hh ⊢
    simp only [State.freeTag, hk, State.port_modActor, hh]
    rfl
  rw [hfree, State.port, State.setPort_ports, kvGet_kvSet_same]

-- What is to come ------------------------------------------------------------------------------------------------

/-- A step just posted is to come. -/
theorem awaits_post {s t : State} (h : t.cycle = s.cycle) (d : Nat) (ev : Instr) (g : EvArg) : Awaits s (t.post d ev g) d ev g := by
  rw [Awaits, State.post_agenda, h]
  exact List.mem_append_right _ (List.mem_singleton_self _)

-- A transfer counted down ------------------------------------------------------------------------------------------

theorem State.xfer_of_cells_eq {s t : State} (h : t.cells = s.cells) (c id : Nat) : t.xfer c id = s.xfer c id := by
  simp [State.xfer, State.cell, h]
theorem State.xfer_modXfer {s : State} {c id : Nat} {x : Xfer} {f : Xfer → Xfer} (hf : ∀ y, (f y).id = y.id) (h : s.xfer c id = some x) :
    (s.modXfer c id f).xfer c id = some (f x) := by
  have hid : ((fun y : Xfer => y.id == id) ∘ fun y => if y.id == id then f y else y) = fun y => y.id == id := by
    funext y
    by_cases hy : y.id = id <;> simp [hy, hf]
  have hx : (x.id == id) = true := List.find?_some (p := fun y : Xfer => y.id == id) h
  rw [State.xfer, State.modXfer, State.cell_modCell, List.find?_map, hid]
  rw [State.xfer] at h
  rw [h, Option.map_some, if_pos hx]
theorem State.xfer_delXfer (s : State) (c id : Nat) : (s.delXfer c id).xfer c id = none := by
  rw [State.xfer, State.delXfer, State.cell_modCell]
  simp
theorem State.maybeDone_eq (s : State) (c id : Nat) : ∃ ag, s.maybeDone c id = { s with agenda := ag } := by
  unfold State.maybeDone
  split
  · split <;> exact ⟨_, rfl⟩
  · exact ⟨_, rfl⟩
/-- One more packet of a transfer has been answered. -/
def State.answered (s : State) (c id : Nat) : State := (s.modXfer c id fun y => { y with left := y.left - 1 }).maybeDone c id
theorem State.answered_eq (s : State) (c id : Nat) : ∃ cs ag, s.answered c id = { s with cells := cs, agenda := ag } := by
  obtain ⟨_, h⟩ := (s.modXfer c id fun y => { y with left := y.left - 1 }).maybeDone_eq c id
  exact ⟨_, _, h⟩
@[simp] theorem State.answered_mem (s : State) (c id : Nat) : (s.answered c id).mem = s.mem := by
  obtain ⟨_, _, h⟩ := s.answered_eq c id; rw [h]
@[simp] theorem State.answered_spois (s : State) (c id : Nat) : (s.answered c id).spois = s.spois := by
  obtain ⟨_, _, h⟩ := s.answered_eq c id; rw [h]
theorem State.answered_xfer {s : State} {c id : Nat} {x : Xfer} (h : s.xfer c id = some x) :
    (s.answered c id).xfer c id = some { x with left := x.left - 1 } := by
  obtain ⟨_, hd⟩ := (s.modXfer c id fun y => { y with left := y.left - 1 }).maybeDone_eq c id
  rw [State.answered, hd]
  exact State.xfer_modXfer (fun _ => rfl) h
theorem State.answered_left {s : State} {c id : Nat} {x : Xfer} (h : s.xfer c id = some x) :
    ((s.answered c id).xfer c id).map (·.left) = some (x.left - 1) := by
  rw [State.answered_xfer h]; rfl
/-- The last answer that a transfer waits for completes it (05 R118). -/
theorem State.answered_completes {s : State} {c id : Nat} {x : Xfer} (h : s.xfer c id = some x) (hl : x.left = 1) (hh : x.held = [])
    (ht : x.todo = []) (hp : x.pieces = [] ∨ x.kind = .fetch) : Awaits s (s.answered c id) 0 .transferComplete { n := c, m := id } := by
  have hx := State.xfer_modXfer (f := fun y => { y with left := y.left - 1 }) (fun _ => rfl) h
  have hdone : (x.left - 1 = 0 && x.held.isEmpty && x.todo.isEmpty && (x.pieces.isEmpty || (x.kind != .write && x.kind != .scatter))) = true := by
    rcases hp with hp | hp <;> simp [hl, hh, ht, hp]
  rw [State.answered, State.maybeDone, hx]
  simp only [hdone, if_true]
  exact awaits_post (State.modCell_cycle _ _ _) _ _ _

-- A row that lands (05 R114; 09 R206) ------------------------------------------------------------------------------

theorem State.spoisWrite_eq (s : State) (a n : Nat) (p : Bool) : s.spoisWrite a n p = { s with spois := (s.spoisWrite a n p).spois } := by
  unfold State.spoisWrite; split <;> rfl
/-- Poison bits after a write hang on those before it. -/
theorem State.spoisWrite_spois {s t : State} (h : t.spois = s.spois) (a n : Nat) (p : Bool) :
    (t.spoisWrite a n p).spois = (s.spoisWrite a n p).spois := by
  unfold State.spoisWrite; split <;> simp only [h]
/-- Where the bytes of a reply from `at_` up go. -/
def landKey (s : State) (x : Xfer) (p : Piece) (at_ : Nat) : Nat := regionKey (s.actor x.actor) + x.soff + p.off + at_
/-- The bytes of a reply that one slot puts in place. -/
def landBytes (s : State) (x : Xfer) (p : Piece) (r : Reply) (at_ : Nat) : List Byte :=
  (r.data.drop (p.va % 64 + at_)).take (rowRoom (landKey s x p at_) (p.len - at_))
theorem State.landRow_eq (s : State) (x : Xfer) (p : Piece) (r : Reply) (at_ : Nat) :
    ∃ sp, s.landRow x p r at_ = { s.put (landKey s x p at_) (landBytes s x p r at_) with spois := sp } := by
  have hfold : ∀ (f : State → Nat → State), (∀ t i, ∃ sp, f t i = { t with spois := sp }) → ∀ (l : List Nat) (t : State),
      ∃ sp, l.foldl f t = { t with spois := sp } := by
    intro f hf l
    induction l with
    | nil => exact fun t => ⟨_, rfl⟩
    | cons i l ih =>
      intro t
      obtain ⟨_, hi⟩ := hf t i
      obtain ⟨_, h⟩ := ih (f t i)
      rw [hi] at h
      rw [List.foldl_cons, hi]
      exact ⟨_, h⟩
  exact hfold _ (fun t i => ⟨_, t.spoisWrite_eq _ _ _⟩) _ _
@[simp] theorem State.landRow_mem (s : State) (x : Xfer) (p : Piece) (r : Reply) (at_ : Nat) :
    (s.landRow x p r at_).mem = Memory.write s.mem (landKey s x p at_) (landBytes s x p r at_) := by
  obtain ⟨_, h⟩ := s.landRow_eq x p r at_; rw [h]; rfl
@[simp] theorem State.landRow_cells (s : State) (x : Xfer) (p : Piece) (r : Reply) (at_ : Nat) : (s.landRow x p r at_).cells = s.cells := by
  obtain ⟨_, h⟩ := s.landRow_eq x p r at_; rw [h]; rfl
@[simp] theorem State.landRow_cycle (s : State) (x : Xfer) (p : Piece) (r : Reply) (at_ : Nat) : (s.landRow x p r at_).cycle = s.cycle := by
  obtain ⟨_, h⟩ := s.landRow_eq x p r at_; rw [h]; rfl
/-- Memory after one write reads as written there, and elsewhere as before. -/
theorem State.bytes_of_write {s t : State} {k : Nat} {bs : List Byte} (hw : Memory.wf s.mem = true) (ht : t.mem = Memory.write s.mem k bs) :
    t.bytes k bs.length = bs ∧ ∀ a n, a + n ≤ k ∨ k + bs.length ≤ a → t.bytes a n = s.bytes a n := by
  unfold State.bytes
  rw [ht]
  exact ⟨Memory.read_write_same _ _ _ hw, fun a n h => Memory.read_write_outside _ _ _ _ _ hw h⟩
/-- A row within one granule takes that granule's poison bit (07 R167). -/
theorem State.landRow_spois {s : State} {x : Xfer} {p : Piece} {r : Reply} {at_ : Nat}
    (h : ceilDiv ((p.va % 64 + at_) % 64 + rowRoom (landKey s x p at_) (p.len - at_)) 64 = 1) :
    (s.landRow x p r at_).spois =
      (s.spoisWrite (landKey s x p at_) (rowRoom (landKey s x p at_) (p.len - at_)) (r.pois.contains ((p.va % 64 + at_) / 64))).spois := by
  simp only [State.landRow, landKey] at h ⊢
  generalize regionKey (s.actor x.actor) + x.soff + p.off + at_ = k at h ⊢
  generalize rowRoom k (p.len - at_) = n at h ⊢
  generalize p.va % 64 + at_ = sh at h ⊢
  have hfit : sh % 64 + n ≤ 64 := by unfold ceilDiv at h; omega
  have hlo : max (64 * (sh / 64)) sh = sh := by omega
  have hhi : min (64 * (sh / 64) + 64) (sh + n) = sh + n := by omega
  simp only [h, List.range_one, List.foldl_cons, List.foldl_nil, Nat.add_zero, hlo, hhi, Nat.add_sub_cancel, Nat.add_sub_cancel_left]
  exact State.spoisWrite_spois (t := s.put k _) (s := s) rfl k n _

end Sys2Proof.Machine
end

