-- ==== Sys2Proof/Proofs/ReplyEvents.lean ====
section
/-! PROOFS. Each reply at its requester (03 R71, R74, R76; 09 R206, R215, R217, R221, R222): what its event comes to, one equation for
each way that it can go, and the statement O47. -/

namespace Sys2Proof.Machine

-- The bytes of a read (03 R74; 09 R206) ----------------------------------------------------------------------------

/-- The state at a slot of a read's bytes: the first of them frees the tag. -/
def State.replied (s : State) : State := if s.arg.k = 0 then s.freeTag s.arg.rep else s
@[simp] theorem State.replied_mem (s : State) : s.replied.mem = s.mem := by unfold State.replied; split <;> simp
@[simp] theorem State.replied_cells (s : State) : s.replied.cells = s.cells := by unfold State.replied; split <;> simp
@[simp] theorem State.replied_spois (s : State) : s.replied.spois = s.spois := by unfold State.replied; split <;> simp
theorem State.replied_xfer (s : State) (c id : Nat) : s.replied.xfer c id = s.xfer c id := State.xfer_of_cells_eq s.replied_cells c id
theorem State.freeTag_xfer (s : State) (r : Reply) (c id : Nat) : (s.freeTag r).xfer c id = s.xfer c id :=
  State.xfer_of_cells_eq (s.freeTag_cells r) c id

theorem exec_rdr_absent {s : State} (h : s.xfer s.arg.rep.rq s.arg.rep.xid = none) : exec .rdr s = .next s.replied := by
  have h' := (s.replied_xfer _ _).trans h
  unfold State.replied at h'
  show execRdr s = _
  simp only [execRdr, h']
  rfl

section
variable {s : State} {x : Xfer} {p : Piece} (h : s.xfer s.arg.rep.rq s.arg.rep.xid = some x)
  (hp : (x.pieces.find? fun p => p.off == s.arg.rep.piece) = some p)
include h hp

theorem exec_rdr_alive (ha : s.replied.alive x.actor = true) : exec .rdr s = .next (
    let n := rowRoom (landKey s.replied x p s.arg.k) (p.len - s.arg.k)
    let t := s.replied.landRow x p s.arg.rep s.arg.k
    if s.arg.k + n < p.len then t.post 0 .rdr { rep := s.arg.rep, k := s.arg.k + n } else t.answered s.arg.rep.rq s.arg.rep.xid) := by
  have h' := (s.replied_xfer _ _).trans h
  unfold State.replied at h' ha
  show execRdr s = _
  simp only [execRdr, h', hp, ha, if_true]
  rfl
theorem exec_rdr_dead (ha : s.replied.alive x.actor = false) :
    exec .rdr s = .next (s.replied.answered s.arg.rep.rq s.arg.rep.xid) := by
  have h' := (s.replied_xfer _ _).trans h
  unfold State.replied at h' ha
  show execRdr s = _
  simp only [execRdr, h', hp, ha, Bool.false_eq_true, if_false]
  rfl
/-- The bytes of a read for a live actor land row by row, and the last of them answers the packet (05 R114; 03 R74). -/
theorem rdr_lands (hw : Memory.wf s.mem = true) (ha : s.replied.alive x.actor = true) :
    let v := s.replied
    let k := landKey v x p s.arg.k
    let sh := p.va % 64 + s.arg.k
    let n := rowRoom k (p.len - s.arg.k)
    let bs := landBytes v x p s.arg.rep s.arg.k
    let c := s.arg.rep.rq
    let id := s.arg.rep.xid
    Happens s .rdr fun t => t.bytes k bs.length = bs ∧ (∀ a n, a + n ≤ k ∨ k + bs.length ≤ a → t.bytes a n = s.bytes a n) ∧
      (ceilDiv (sh % 64 + n) 64 = 1 → t.spois = (s.spoisWrite k n (s.arg.rep.pois.contains (sh / 64))).spois) ∧
      (s.arg.k + n < p.len → t.xfer c id = some x ∧ Awaits v t 0 .rdr { rep := s.arg.rep, k := s.arg.k + n }) ∧
      (p.len ≤ s.arg.k + n → (t.xfer c id).map (·.left) = some (x.left - 1) ∧
        (x.left = 1 → x.held = [] → x.todo = [] → x.kind = .fetch → Awaits v t 0 .transferComplete { n := c, m := id })) := by
  intro v k sh n bs c id
  have hx := exec_rdr_alive h hp ha
  have hmem : (v.landRow x p s.arg.rep s.arg.k).mem = Memory.write s.mem k bs := by rw [State.landRow_mem, s.replied_mem]
  have hspois : ceilDiv (sh % 64 + n) 64 = 1 →
      (v.landRow x p s.arg.rep s.arg.k).spois = (s.spoisWrite k n (s.arg.rep.pois.contains (sh / 64))).spois :=
    fun h1 => (State.landRow_spois h1).trans (State.spoisWrite_spois s.replied_spois _ _ _)
  have hxfer : (v.landRow x p s.arg.rep s.arg.k).xfer c id = some x :=
    (State.xfer_of_cells_eq (v.landRow_cells _ _ _ _) c id).trans ((s.replied_xfer c id).trans h)
  by_cases hmore : s.arg.k + n < p.len
  · obtain ⟨hsame, houtside⟩ := State.bytes_of_write (t := (v.landRow x p s.arg.rep s.arg.k).post 0 .rdr { rep := s.arg.rep, k := s.arg.k + n }) hw hmem
    refine ⟨_, hx.trans (congrArg _ (if_pos hmore)), hsame, houtside, hspois, fun _ => ⟨hxfer, ?_⟩, fun hle => absurd hmore (Nat.not_lt.2 hle)⟩
    exact awaits_post (State.landRow_cycle _ _ _ _ _) _ _ _
  · obtain ⟨hsame, houtside⟩ := State.bytes_of_write (t := (v.landRow x p s.arg.rep s.arg.k).answered c id) hw ((State.answered_mem _ _ _).trans hmem)
    refine ⟨_, hx.trans (congrArg _ (if_neg hmore)), hsame, houtside, fun h1 => (State.answered_spois _ _ _).trans (hspois h1),
      fun hlt => absurd hlt hmore, fun _ => ⟨State.answered_left hxfer, fun hl hh ht hk => ?_⟩⟩
    have hdone := State.answered_completes hxfer hl hh ht (.inr hk)
    rwa [Awaits, State.landRow_cycle] at hdone

end

-- Acknowledgements (03 R76) ----------------------------------------------------------------------------------------

theorem exec_wack_host {s : State} (h : s.arg.rep.rq = 560) :
    exec .wack s = .next ((s.freeTag s.arg.rep).portalAck s.arg.rep.pa s.arg.rep.piece s.arg.rep.len) := by
  show execWack s = _
  simp only [execWack, h, if_true]
theorem exec_wack {s : State} (h : s.arg.rep.rq ≠ 560) :
    exec .wack s = .next ((s.freeTag s.arg.rep).answered s.arg.rep.rq s.arg.rep.xid) := by
  show execWack s = _
  simp only [execWack, h, if_false]
  rfl

-- Atomics (09 R215) ------------------------------------------------------------------------------------------------

theorem State.answer_eq (s : State) (n : ActorName) (tok : Nat) (v : W64) (p : Bool) :
    ∃ au as, s.answer n tok v p = { s with audits := au, actors := as } := by
  obtain ⟨_, h⟩ := State.modActor_eq _ n fun a => a.fill tok v p
  exact ⟨_, _, h⟩
/-- The state once a value that an operation waits for has come, and the operation has been acknowledged. -/
def State.delivered (s : State) (n : ActorName) (tok : Nat) (v : W64) (p : Bool) : State :=
  (s.answer n tok v p).modActor n fun a => a.dropOut tok
theorem State.delivered_eq (s : State) (n : ActorName) (tok : Nat) (v : W64) (p : Bool) :
    ∃ au as, s.delivered n tok v p = { s with audits := au, actors := as } := by
  obtain ⟨_, _, h⟩ := s.answer_eq n tok v p
  obtain ⟨_, h'⟩ := (s.answer n tok v p).modActor_eq n fun a => a.dropOut tok
  rw [State.delivered, h', h]
  exact ⟨_, _, rfl⟩
theorem State.delivered_actor {s : State} {n : ActorName} {tok : Nat} {v : W64} {p : Bool} (h : s.has n = true) :
    (s.delivered n tok v p).actor n = { ((s.actor n).fill tok v p).dropOut tok with name := n } := by
  have hhas : (s.answer n tok v p).has n = true := (State.has_modActor _ n n _).trans h
  have hans : (s.answer n tok v p).actor n = { (s.actor n).fill tok v p with name := n } := State.actor_modActor (s := { s with audits := _ }) _ h
  rw [State.delivered, State.actor_modActor _ hhas, hans]
  rfl
@[simp] theorem State.delivered_mem (s : State) (n : ActorName) (tok : Nat) (v : W64) (p : Bool) : (s.delivered n tok v p).mem = s.mem := by
  obtain ⟨_, _, h⟩ := s.delivered_eq n tok v p; rw [h]
@[simp] theorem State.delivered_cells (s : State) (n : ActorName) (tok : Nat) (v : W64) (p : Bool) : (s.delivered n tok v p).cells = s.cells := by
  obtain ⟨_, _, h⟩ := s.delivered_eq n tok v p; rw [h]
@[simp] theorem State.delivered_reds (s : State) (n : ActorName) (tok : Nat) (v : W64) (p : Bool) : (s.delivered n tok v p).reds = s.reds := by
  obtain ⟨_, _, h⟩ := s.delivered_eq n tok v p; rw [h]
theorem exec_atr (s : State) : exec .atr s = .next (((s.freeTag s.arg.rep).delivered s.arg.rep.owner s.arg.rep.xid s.arg.rep.val
    (!s.arg.rep.pois.isEmpty)).sideFree s.arg.rep.rq s.arg.rep.xid) := rfl

-- Declarations and contributions (09 R217, R221) -------------------------------------------------------------------

/-- The code that a refused piece stands for at the issuer of its object: FULL, OVERLAP, or none (09 R217). -/
def refusalCode (r : Reply) : Nat := if r.st = 6 then 1 else if r.st = 7 then 2 else 0
/-- The state without a transfer, and without the pieces of its object when a code refuses it. -/
def State.declared (s : State) (c : Nat) (x : Xfer) (id st : Nat) : State :=
  let t := (s.modXfer c id fun y => { y with left := y.left - 1, toRead := st }).delXfer c id
  if st = 0 then t else { t with reds := t.reds.filter fun y => y.lead != x.id }

theorem State.declared_eq (s : State) (c : Nat) (x : Xfer) (id st : Nat) : s.declared c x id st = { s with
    cells := ((s.modXfer c id fun y => { y with left := y.left - 1, toRead := st }).delXfer c id).cells
    reds := if st = 0 then s.reds else s.reds.filter fun y => y.lead != x.id } := by
  unfold State.declared
  dsimp only
  split <;> rfl
theorem State.declared_xfer (s : State) (c : Nat) (x : Xfer) (id st : Nat) : (s.declared c x id st).xfer c id = none := by
  rw [State.declared_eq]
  exact (State.xfer_of_cells_eq rfl c id).trans (State.xfer_delXfer _ c id)
@[simp] theorem State.declared_reds (s : State) (c : Nat) (x : Xfer) (id st : Nat) :
    (s.declared c x id st).reds = if st = 0 then s.reds else s.reds.filter fun y => y.lead != x.id := by rw [State.declared_eq]
@[simp] theorem State.declared_actor (s : State) (c : Nat) (x : Xfer) (id st : Nat) (n : ActorName) :
    (s.declared c x id st).actor n = s.actor n := by rw [State.declared_eq]; rfl
@[simp] theorem State.declared_has (s : State) (c : Nat) (x : Xfer) (id st : Nat) (n : ActorName) :
    (s.declared c x id st).has n = s.has n := by rw [State.declared_eq]; rfl

theorem exec_rca_absent {s : State} (h : s.xfer s.arg.rep.rq s.arg.rep.xid = none) : exec .rca s = .next (s.freeTag s.arg.rep) := by
  show execRca s = _
  simp only [execRca, State.freeTag_xfer, h]

section
variable {s : State} {x : Xfer} (h : s.xfer s.arg.rep.rq s.arg.rep.xid = some x)
include h

/-- The last answer to a declaration, none before it a refusal. -/
theorem exec_rca_declaration (hk : s.arg.rep.kind = .rcDecl) (hl : x.left = 1) (hr : x.toRead = 0) : exec .rca s =
    .next (((s.freeTag s.arg.rep).declared s.arg.rep.rq x s.arg.rep.xid (refusalCode s.arg.rep)).delivered x.actor x.id
      (BitVec.ofNat 64 (refusalCode s.arg.rep)) false) := by
  have hw : worse x.toRead (refusalCode s.arg.rep) = refusalCode s.arg.rep := by simp [worse, hr]
  unfold refusalCode at hw
  show execRca s = _
  simp only [execRca, State.freeTag_xfer, h, hk, hw, hl, beq_self_eq_true, if_true, Nat.lt_irrefl, if_false]
  rfl
/-- The five answers to a contribution: RETRY, DUP, RANGE, NOOBJ, and MERGED or HELD. -/
theorem exec_rca_contribution (hk : s.arg.rep.kind = .rc) : let u := s.freeTag s.arg.rep
    (s.arg.rep.st = 2 → exec .rca s = .next (u.post 512 .rcRetry { rep := s.arg.rep })) ∧
    (s.arg.rep.st = 3 → exec .rca s = .next (killActor u x.actor rReplyTwice)) ∧
    (s.arg.rep.st = 4 → exec .rca s = .next (killActor u x.actor rTileBounds)) ∧
    (s.arg.rep.st = 5 → exec .rca s = .next (killActor u x.actor rExtent)) ∧
    (s.arg.rep.st ≤ 1 → exec .rca s = .next (u.answered s.arg.rep.rq s.arg.rep.xid)) := by
  have hk' : (s.arg.rep.kind == .rcDecl) = false := by rw [hk]; rfl
  have hx : exec .rca s = execRca s := rfl
  simp only [hx, execRca, State.freeTag_xfer, h, hk', Bool.false_eq_true, if_false]
  refine ⟨fun hst => by simp only [hst], fun hst => by simp only [hst], fun hst => by simp only [hst], fun hst => by simp only [hst], fun hst => ?_⟩
  rcases Nat.le_one_iff_eq_zero_or_eq_one.1 hst with hst | hst <;> simp only [hst] <;> rfl

end

-- A contribution sent again (09 R221, R223) ------------------------------------------------------------------------

theorem exec_rcRetry_absent {s : State} (h : s.xfer s.arg.rep.rq s.arg.rep.xid = none) : exec .rcRetry s = .next s := by
  show execRcRetry s = _
  simp only [execRcRetry, h]
/-- The packet of a contribution's piece with the request ID and the home of the reply that asks for it. -/
def retryPkt (r : Reply) (x : Xfer) (p : Piece) : Packet :=
  { contribPkt r.rq x.actor x.id r.pa p.off x.rc ((x.data.drop p.off).take p.len) with reqid := r.reqid, home := r.home }

section
variable {s : State} {x : Xfer} {p : Piece} (h : s.xfer s.arg.rep.rq s.arg.rep.xid = some x)
  (hp : (x.pieces.find? fun p => p.off == s.arg.rep.piece) = some p)
include h hp

theorem exec_rcRetry_dead (ha : s.alive x.actor = false) : exec .rcRetry s = .next s := by
  show execRcRetry s = _
  simp only [execRcRetry, h, hp, ha, Bool.not_false, if_true]
theorem exec_rcRetry_again (ha : s.alive x.actor = true) (hd : ∀ k, s.arg.rep.home = .plane k → s.planeDead k = false) :
    exec .rcRetry s = .next (s.sendAgain (retryPkt s.arg.rep x p)) := by
  show execRcRetry s = _
  simp only [execRcRetry, h, hp, ha, Bool.not_true, Bool.false_eq_true, if_false]
  split
  · next k hk => simp only [hd k hk, Bool.false_eq_true, if_false]; rfl
  · simp only [Bool.false_eq_true, if_false]; rfl
theorem exec_rcRetry_rehomed {k : Nat} (ha : s.alive x.actor = true) (hk : s.arg.rep.home = .plane k) (hd : s.planeDead k = true) :
    exec .rcRetry s = .next (s.rehome (retryPkt s.arg.rep x p)) := by
  show execRcRetry s = _
  simp only [execRcRetry, h, hp, ha, hk, hd, Bool.not_true, Bool.false_eq_true, if_false, if_true, retryPkt]

end

-- The completion of a reduction object (09 R222) -------------------------------------------------------------------

/-- The pieces of the object of `s.arg` at its homes, mirrors apart. -/
def objectPieces (s : State) : List RedPiece := s.reds.filter fun x => x.lead == s.arg.n && !x.mirror
theorem exec_reductionNotice_early {s : State} (h : (objectPieces s).any (fun x => !x.done) = true) : exec .reductionNotice s = .next s := by
  have hall : (objectPieces s).all (·.done) = false := by
    rw [List.all_eq_not_any_not, h]; rfl
  unfold objectPieces at hall
  show execReductionNotice s = _
  simp only [execReductionNotice, hall, Bool.false_and, Bool.false_eq_true, if_false]
  split <;> rfl
theorem exec_reductionNotice_complete {s : State} {q : RedPiece} (hq : (objectPieces s).head? = some q) (hd : (objectPieces s).all (·.done) = true)
    (hn : (objectPieces s).length = q.ctl.npc) : exec .reductionNotice s =
      .next (({ s with reds := s.reds.filter fun x => x.lead != s.arg.n } : State).partMessage
        { dest := q.ctl.rcp, sender := q.ctl.iss, chan := Fin.ofNat 16 q.ctl.ch, plen := 4, m := [BitVec.ofNat 64 q.ctl.tva, BitVec.ofNat 64 q.ctl.k, 0, 0] }) := by
  unfold objectPieces at hq hd hn
  show execReductionNotice s = _
  simp only [execReductionNotice, hq, hd, hn, beq_self_eq_true, Bool.and_self, if_true]

end Sys2Proof.Machine

open Sys2Proof Sys2Proof.Machine

/-- Settles O47: what a reply frees, then for each kind of reply the equation of its event and what the counted-down transfer, the landed
row or the delivered value leaves. -/
theorem replyEvents : Obligations.ReplyEvents := by
  unfold Obligations.ReplyEvents
  intro s
  dsimp only
  refine ⟨?tag, ?unknown, ?read, exec_wack_host, ?write, ?atomic, ?declaration, ?contribution, ?retry, ?notice⟩
  case tag =>
    exact ⟨State.freeTag_mem s _, State.freeTag_cells s _, State.freeTag_spois s _, State.freeTag_reds s _, fun n => State.freeTag_actor_other,
      State.freeTag_actor_owner, fun k => State.freeTag_used⟩
  case unknown => exact fun h => ⟨exec_rdr_absent h, exec_rca_absent h, exec_rcRetry_absent h⟩
  case read =>
    intro x p hw h hp
    refine ⟨fun ha => ?alive, fun ha => ?dead⟩
    case alive => exact rdr_lands h hp hw ha
    case dead => exact ⟨_, exec_rdr_dead h hp ha, by simp, by simp, State.answered_left ((s.replied_xfer _ _).trans h)⟩
  case write =>
    intro x hrq h
    have h' := (State.freeTag_xfer s s.arg.rep _ _).trans h
    exact ⟨_, exec_wack hrq, by simp, State.answered_left h', fun hl hh ht hp => State.answered_completes h' hl hh ht (.inl hp)⟩
  case atomic =>
    intro hown
    refine ⟨_, exec_atr s, by simp [State.sideFree], ?_⟩
    refine (State.delivered_actor (by simpa using hown)).trans ?_
    rw [State.freeTag_actor_owner hown]
    rfl
  case declaration =>
    intro x h hk hl hr hhas
    have hact := State.delivered_actor (s := (s.freeTag s.arg.rep).declared s.arg.rep.rq x s.arg.rep.xid (refusalCode s.arg.rep)) (tok := x.id)
      (v := BitVec.ofNat 64 (refusalCode s.arg.rep)) (p := false) ((State.declared_has _ _ _ _ _ _).trans ((s.freeTag_has _ _).trans hhas))
    obtain ⟨m, fs, ha⟩ := s.freeTag_actor_eq s.arg.rep x.actor
    rw [State.declared_actor, ha] at hact
    refine ⟨_, exec_rca_declaration h hk hl hr, ?_, ?_, ?_, ?_⟩
    · exact (State.xfer_of_cells_eq (State.delivered_cells _ _ _ _ _) _ _).trans (State.declared_xfer _ _ _ _ _)
    · rw [State.delivered_reds, State.declared_reds, State.freeTag_reds]; rfl
    · rw [hact]; rfl
    · rw [hact]; rfl
  case contribution =>
    intro x h hk
    obtain ⟨hretry, hdup, hrange, hnone, hok⟩ := exec_rca_contribution h hk
    exact ⟨hretry, hdup, hrange, hnone, fun hst => ⟨_, hok hst, State.answered_left ((State.freeTag_xfer s s.arg.rep _ _).trans h)⟩⟩
  case retry =>
    intro x p h hp
    exact ⟨exec_rcRetry_dead h hp, exec_rcRetry_again h hp, fun k => exec_rcRetry_rehomed h hp⟩
  case notice => exact ⟨exec_reductionNotice_early, fun q => exec_reductionNotice_complete⟩
end

