-- ==== Sys2Proof/Proofs/Walks.lean ====
section
/-! PROOFS. Walks and their answers at Astrolabe (04 R101, R102; 21 R402): what each comes to, one equation for each way that it can go. -/

namespace Sys2Proof.Machine

-- Requests (R101) --------------------------------------------------------------------------------------------------

theorem exec_walkRequest_dead {s : State} (h : s.alive s.arg.actor = false) : exec .walkRequest s = .next s := by
  show execWalkRequest s = _
  simp only [execWalkRequest, h, Bool.not_false, if_true]
theorem exec_walkRequest_area {s : State} (h : s.alive s.arg.actor = true) (hf : s.arg.flag = true) :
    exec .walkRequest s = .next (s.walkArea (s.actor s.arg.actor) s.arg) := by
  show execWalkRequest s = _
  simp only [execWalkRequest, h, hf, Bool.not_true, Bool.false_eq_true, if_false, if_true]

/-- The actor that the walk of `s.arg` is for. -/
def State.walker (s : State) : Actor := s.actor s.arg.actor
/-- The page of the walk of `s.arg`. -/
def State.walkPage (s : State) : Nat := s.arg.n / 2 ^ 16
/-- The region that the walk of `s.arg` finds, with its index. -/
def State.walkRegion (s : State) : Option (Nat × RegionRec) := regionAt (s.image s.walker) s.arg.n
/-- The walk of `s.arg` is answered with class `c`. -/
def State.walkReply (s : State) (c : WalkClass) : State := s.answerWalk s.arg.actor s.arg.n c

section
variable {s : State} (h : s.alive s.arg.actor = true) (hf : s.arg.flag = false)
include h hf

theorem exec_walkRequest_outside (hr : s.walkRegion = none) : exec .walkRequest s = .next (s.walkReply .none) := by
  unfold State.walkRegion State.walker at hr
  show execWalkRequest s = _
  simp only [execWalkRequest, h, hf, hr, Bool.not_true, Bool.false_eq_true, if_false]
  rfl

section
variable {i : Nat} {r : RegionRec} (hr : s.walkRegion = some (i, r))
include hr

theorem exec_walkRequest_locked (hl : r.locked = true) : exec .walkRequest s = .next (s.walkReply .none) := by
  unfold State.walkRegion State.walker at hr
  show execWalkRequest s = _
  simp only [execWalkRequest, h, hf, hr, hl, Bool.not_true, Bool.false_eq_true, if_false, if_true]
  rfl
theorem exec_walkRequest_backed {b : Backing} (hl : r.locked = false) (hb : s.backing s.walker r s.walkPage = some b) :
    exec .walkRequest s = .next (s.walkReply (if b.moving then .absent else .mapped)) := by
  unfold State.walkRegion State.walker at hr
  unfold State.walker State.walkPage at hb
  show execWalkRequest s = _
  simp only [execWalkRequest, h, hf, hr, hl, hb, Bool.not_true, Bool.false_eq_true, if_false]
  rfl

section
variable (hl : r.locked = false) (hb : s.backing s.walker r s.walkPage = none)
include hl hb

/-- The host is asked for the page (21 R402). -/
theorem exec_walkRequest_host (hh : r.kind = .host ∨ s.hostDuty 0 = true) : exec .walkRequest s =
    .next ((s.walkReply .absent).askHost 0 (.page s.arg.actor s.arg.n) (BitVec.ofNat 64 s.arg.n) s.arg.actor (BitVec.ofNat 64 i)) := by
  have hh' : (r.kind == .host || s.hostDuty 0) = true := by simpa using hh
  unfold State.walkRegion State.walker at hr
  unfold State.walker State.walkPage at hb
  show execWalkRequest s = _
  simp only [execWalkRequest, h, hf, hr, hl, hb, hh', Bool.not_true, Bool.false_eq_true, if_false, if_true]
  rfl

section
variable (hk : r.kind ≠ .host) (hd : s.hostDuty 0 = false)
include hk hd

/-- Astrolabe backs the page on its first touch (R97). -/
theorem exec_walkRequest_touched {u : State} (hu : s.back s.walker r s.walkPage = some u) : exec .walkRequest s =
    .next ((u.answerWalk s.arg.actor s.arg.n .absent).answerWalk s.arg.actor s.arg.n .mapped) := by
  unfold State.walkRegion State.walker at hr
  unfold State.walker State.walkPage at hb hu
  show execWalkRequest s = _
  simp only [execWalkRequest, h, hf, hr, hl, hb, hd, hu, beq_eq_false_iff_ne.2 hk, Bool.or_false, Bool.not_true, Bool.false_eq_true,
    if_false]
/-- The page cannot be backed: for its quota alone, or for want of a frame, which Astrolabe looks for again (log 104). -/
theorem exec_walkRequest_unserved (hu : s.back s.walker r s.walkPage = none) : exec .walkRequest s =
    .next (if s.quotaFails s.walker r s.walkPage = true then s.walkReply .none
      else (s.walkReply .absent).lookAgain (r.kind == .dram) { actor := s.arg.actor, n := s.arg.n }) := by
  unfold State.walkRegion State.walker at hr
  unfold State.walker State.walkPage at hb hu
  show execWalkRequest s = _
  simp only [execWalkRequest, h, hf, hr, hl, hb, hd, hu, beq_eq_false_iff_ne.2 hk, Bool.or_false, Bool.not_true, Bool.false_eq_true,
    if_false]
  exact (apply_ite _ _ _ _).symm

end
end
end
end

-- Answers (R101, R102) ---------------------------------------------------------------------------------------------

theorem exec_walkAnswer_dead {s : State} (h : s.alive s.arg.actor = false) : exec .walkAnswer s = .next s := by
  show execWalkAnswer s = _
  simp only [execWalkAnswer, h, Bool.not_false, if_true]
theorem exec_walkAnswer_area {s : State} (h : s.alive s.arg.actor = true) (hf : s.arg.flag = true) :
    exec .walkAnswer s = .next (s.unhold s.arg.actor) := by
  show execWalkAnswer s = _
  simp only [execWalkAnswer, h, hf, Bool.not_true, Bool.false_eq_true, if_false, if_true]

/-- An actor asks for a page in a walk of its own, not only by an `xmap`. -/
def Actor.walksTo (a : Actor) (vp : Nat) : Bool := a.walks.any fun w => w.1 == vp
/-- What an actor's walk of a page waits for is held (R101). -/
def Actor.holdWalk (a : Actor) (vp : Nat) : Actor := { a with walks := a.walks.map fun w => if w.1 == vp then (vp, true) else w }
/-- An actor's walk of a page ends, with an extent for it unless an entry covers it already (R102). -/
def State.endWalk (s : State) (a : Actor) (i : Nat) (r : RegionRec) (b : Backing) (vp : Nat) : Actor :=
  let e := s.walkExt a r b vp
  let d : Actor := { a with walks := a.walks.filter fun w => w.1 != vp }
  if a.exts.any fun e => e.valid && e.covers vp then d else d.install (s.mkExt a i r e.1 e.2.1 e.2.2 false false)

section
variable {s : State} (h : s.alive s.arg.actor = true) (hf : s.arg.flag = false)
include h hf

theorem exec_walkAnswer_absent (hc : s.arg.cls = .absent) : exec .walkAnswer s = .next (s.setActor (s.walker.holdWalk s.walkPage)) := by
  show execWalkAnswer s = _
  simp only [execWalkAnswer, h, hf, hc, Bool.not_true, Bool.false_eq_true, if_false]
  rfl
theorem exec_walkAnswer_mapped {i : Nat} {r : RegionRec} {b : Backing} (hc : s.arg.cls = .mapped) (hr : s.walkRegion = some (i, r))
    (hb : s.backing s.walker r s.walkPage = some b) (hm : b.moving = false) (hw : s.walker.walksTo s.walkPage = true) :
    exec .walkAnswer s = .next ((s.setActor (s.endWalk s.walker i r b s.walkPage)).resume s.arg.actor) := by
  unfold State.walkRegion State.walker at hr
  unfold State.walker State.walkPage at hb
  unfold Actor.walksTo State.walker State.walkPage at hw
  show execWalkAnswer s = _
  simp only [execWalkAnswer, h, hf, hc, hr, hb, hm, hw, Bool.not_true, Bool.or_false, Bool.false_eq_true, if_false]
  rfl
/-- A refused page kills, unless only an `xmap` waits for it. -/
theorem exec_walkAnswer_none_kills (hc : s.arg.cls = .none)
    (hx : (∀ i r, s.walkRegion = some (i, r) → r.kind ≠ .host) ∨ s.walker.xwalk ≠ some s.walkPage ∨ s.walker.walksTo s.walkPage = true) :
    exec .walkAnswer s = .next (killActor s s.arg.actor rExtent) := by
  unfold State.walkRegion Actor.walksTo State.walker State.walkPage at hx
  show execWalkAnswer s = _
  simp only [execWalkAnswer, h, hf, hc, Bool.not_true, Bool.false_eq_true, if_false]
  rw [if_neg]
  rcases hx with hregion | hxmap | hwalk
  · cases hr : regionAt (s.image (s.actor s.arg.actor)) s.arg.n with
    | none => simp
    | some x => simp [hregion x.1 x.2 hr]
  · rw [beq_eq_false_iff_ne.2 hxmap, Bool.and_false, Bool.false_and]; exact Bool.false_ne_true
  · rw [hwalk, Bool.not_true, Bool.and_false]; exact Bool.false_ne_true
/-- A refused page of a host region that only an `xmap` waits for ends the `xmap` (09 R227). -/
theorem exec_walkAnswer_none_xmap {i : Nat} {r : RegionRec} (hc : s.arg.cls = .none) (hr : s.walkRegion = some (i, r)) (hk : r.kind = .host)
    (hx : s.walker.xwalk = some s.walkPage) (hw : s.walker.walksTo s.walkPage = false) :
    exec .walkAnswer s = .next (s.setActor { s.walker with xwalk := none, pend := some 4 }) := by
  unfold State.walkRegion State.walker at hr
  unfold State.walker State.walkPage at hx
  unfold Actor.walksTo State.walker State.walkPage at hw
  show execWalkAnswer s = _
  simp only [execWalkAnswer, h, hf, hc, hr, hk, hx, hw, Bool.not_true, Bool.not_false, beq_self_eq_true, Bool.and_self,
    Bool.false_eq_true, if_false, if_true]
  rfl

end

end Sys2Proof.Machine
end

