-- ==== Sys2Proof/Proofs/SideLog.lean ====
section
/-! PROOFS. The replay of a side log (04 R106, R107). -/

namespace Sys2Proof.Machine

/-- A side log without an entry of the actor stays as it is. -/
theorem State.replay_of_no_entry {n : ActorName} (s : State) (c : Nat) (blocked : List Nat) :
    ∀ l : List SideEnt, (∀ e ∈ l, e.actor ≠ n) → s.replay c n l blocked = s := by
  intro l
  induction l with
  | nil => exact fun _ => rfl
  | cons e l ih =>
    intro h
    obtain ⟨he, hl⟩ := List.forall_mem_cons.1 h
    rw [State.replay, if_neg (by simpa using he)]
    exact ih hl
/-- The log's first entry is behind none: it is tried, and what is left of it settles. -/
theorem State.replay_singleton {s t : State} {c : Nat} {e : SideEnt} {left : List Piece} (h : s.replayEntry c e e.pieces = (t, left)) :
    s.replay c e.actor [e] [] = t.settle c e left := by
  have hfree : e.targets.any ([] : List Nat).contains = false := by simp
  simp only [State.replay, beq_self_eq_true, if_true, hfree, Bool.false_eq_true, if_false, h]
/-- A piece of a live actor's entry whose page is mapped is replayed. -/
theorem State.replayEntry_of_hit {s u : State} {c : Nat} {e : SideEnt} {p : Piece} {pa : Nat} (ha : s.alive e.actor = true)
    (h : s.lookFor e.actor e.access p.va = (.hit pa, u)) : s.replayEntry c e [p] = (u.replayPiece c e p pa, []) := by
  simp only [State.replayEntry, ha, h, Bool.not_true, Bool.false_eq_true, if_false]
theorem exec_sideLogReplay_of_no_entry {s : State} (h : ∀ e ∈ (s.cell s.arg.n).side, e.actor ≠ s.arg.actor) :
    exec .sideLogReplay s = .next s :=
  congrArg _ (s.replay_of_no_entry s.arg.n [] _ h)
/-- The one entry of a log is an atomic whose page is mapped: its packet leaves (03 R74). -/
theorem exec_sideLogReplay_atomic {s u : State} {e : SideEnt} {p : Piece} {pa : Nat} (hs : (s.cell s.arg.n).side = [e])
    (he : e.actor = s.arg.actor) (ha : s.alive s.arg.actor = true) (hk : e.kind = .at_) (hp : e.pieces = [p])
    (h : s.lookFor s.arg.actor .atomic p.va = (.hit pa, u)) : exec .sideLogReplay s =
      .next ((u.sendPkt (atomicPkt s.arg.n s.arg.actor e.id e.aop e.v e.c pa)).settle s.arg.n e []) := by
  have hacc : e.access = .atomic := by rw [SideEnt.access, hk]
  have hpiece : u.replayPiece s.arg.n e p pa = u.sendPkt (atomicPkt s.arg.n e.actor e.id e.aop e.v e.c pa) := by rw [State.replayPiece, hk]
  rw [← he] at ha h ⊢
  rw [← hacc] at h
  have hentry := State.replayEntry_of_hit (c := s.arg.n) ha h
  rw [hpiece, ← hp] at hentry
  show Host.Outcome.next (s.replay s.arg.n s.arg.actor (s.cell s.arg.n).side []) = _
  rw [hs, ← he, State.replay_singleton hentry]

end Sys2Proof.Machine
end

