-- ==== Sys2Proof/Proofs/Migration.lean ====
section
/-! PROOFS. The migration of a page and the invalidations that it asks for (04 R109; 03 R91): how a move starts and ends, and what the
steps to come hold. -/

namespace Sys2Proof.Machine

-- Steps to come ----------------------------------------------------------------------------------------------------

/-- When a step is to come hangs on the cycle alone. -/
theorem awaits_of_cycle_eq {s u t : State} {d : Nat} {ev : Instr} {g : EvArg} (h : u.cycle = s.cycle) (ha : Awaits u t d ev g) :
    Awaits s t d ev g := by
  rwa [Awaits, h] at ha
/-- One step posted for each of a list. -/
theorem foldl_post_eq {α : Type} (d : Nat) (ev : Instr) (g : α → EvArg) (l : List α) : ∀ s : State,
    l.foldl (fun (t : State) x => t.post d ev (g x)) s = { s with agenda := s.agenda ++ l.map fun x => ⟨s.cycle + d, ⟨ev, g x⟩⟩ } := by
  induction l with
  | nil => intro s; rw [List.map_nil, List.append_nil]; rfl
  | cons x l ih => intro s; rw [List.foldl_cons, ih]; simp [State.post]
/-- New walks change nothing but what is to come. -/
theorem State.rewalk_eq (s : State) (b : Backing) : ∃ ag, s.rewalk b = { s with agenda := ag } := by
  unfold State.rewalk
  generalize s.all = l
  induction l generalizing s with
  | nil => exact ⟨_, rfl⟩
  | cons a l ih =>
    rw [List.foldl_cons]
    split
    · rw [foldl_post_eq]; exact ih _
    · exact ih s
@[simp] theorem State.rewalk_mem (s : State) (b : Backing) : (s.rewalk b).mem = s.mem := by obtain ⟨_, h⟩ := s.rewalk_eq b; rw [h]
@[simp] theorem State.rewalk_queued (s : State) (b : Backing) : (s.rewalk b).queued = s.queued := by obtain ⟨_, h⟩ := s.rewalk_eq b; rw [h]

-- The end of a move ------------------------------------------------------------------------------------------------

theorem State.bytes_length {s : State} (a n : Nat) (h : Memory.wf s.mem = true) : (s.bytes a n).length = n := by
  rw [State.bytes, Memory.read_eq _ _ _ h, List.length_map, List.length_range]
@[simp] theorem State.finishMove_mem (s : State) (b : Backing) :
    (s.finishMove b).mem = Memory.write s.mem (b.dest * 2 ^ 16) (s.bytes (b.ppage * 2 ^ 16) (2 ^ 16)) := State.rewalk_mem _ _
@[simp] theorem State.finishMove_queued (s : State) (b : Backing) : (s.finishMove b).queued = s.queued.filter (· != b.ppage) :=
  State.rewalk_queued _ _
/-- The backing of a page that is on the move (R109). -/
def State.movingBack (s : State) (pp : Nat) : Option Backing := s.backs.find? fun b => b.ppage == pp && b.moving
theorem State.ppage_of_movingBack {s : State} {pp : Nat} {b : Backing} (h : s.movingBack pp = some b) : b.ppage = pp := by
  have hb := List.find?_some h
  simp only [Bool.and_eq_true, beq_iff_eq] at hb
  exact hb.1
theorem exec_migration_finish {s : State} {b : Backing} (hf : s.arg.flag = true) (h : s.movingBack s.arg.n = some b) :
    exec .migration s = .next (s.finishMove b) := by
  unfold State.movingBack at h
  show execMigration s = _
  simp only [execMigration, hf, h, if_true]

-- The start of a move ----------------------------------------------------------------------------------------------

/-- Astrolabe has taken up the notification of `s.arg` (03 R91). -/
def State.takenUp (s : State) : State := { s with notes := s.notes.filter (· != s.arg.n) }
/-- The backing of a page that can be promoted: a counted cxl one that does not move (03 R91). -/
def Backing.promotable (b : Backing) : Bool := b.counted && !b.moving && b.kind == .cxl

section
variable {s : State} (hf : s.arg.flag = false) (hk : s.arg.k = 0)
include hf hk

theorem exec_migration_declined (h : ∀ b, s.backAt s.arg.n = some b → b.promotable = false) :
    exec .migration s = .next (s.takenUp.dequeue s.arg.n) := by
  have hback : State.backAt { s with notes := s.notes.filter (· != s.arg.n) } s.arg.n = s.backAt s.arg.n := rfl
  unfold Backing.promotable at h
  show execMigration s = _
  simp only [execMigration, hf, hk, if_true, Bool.false_eq_true, if_false, hback]
  cases hb : s.backAt s.arg.n with
  | none => rfl
  | some b => simp only [h b hb, Bool.false_eq_true, if_false]; rfl
theorem exec_migration_promoted {b : Backing} (hb : s.backAt s.arg.n = some b) (h : b.promotable = true) :
    exec .migration s = .next (s.takenUp.startMove b s.arg.n .dram) := by
  have hback : State.backAt { s with notes := s.notes.filter (· != s.arg.n) } s.arg.n = s.backAt s.arg.n := rfl
  unfold Backing.promotable at h
  show execMigration s = _
  simp only [execMigration, hf, hk, if_true, Bool.false_eq_true, if_false, hback, hb, h]
  rfl

end

/-- The names of the actors with an entry for a physical page. -/
def State.holders (s : State) (pp : Nat) : List ActorName := (s.all.filter fun a => a.holds pp).map (·.name)
/-- A page is marked: new walks find it ABSENT while it moves to frame `d` (R109). -/
def State.markMoving (s : State) (b : Backing) (pp d : Nat) : State :=
  ({ s with backs := (s.backs.map fun (c : Backing) => if c.ppage == b.ppage then c.cut pp else [c]).flatten } : State).modBack pp
    fun c => { c with moving := true, dest := d, acks := (s.holders pp).length }
/-- A page that has a frame to go to is marked; then its holders are told, or it moves at once when there are none. -/
theorem State.startMove_of_findRun {s : State} {b : Backing} {pp d : Nat} {to_ : RegKind} (h : s.findRun to_ 1 1 0 false = some d) :
    s.startMove b pp to_ = if (s.holders pp).isEmpty then (s.markMoving b pp d).post 0 .migration { n := pp, flag := true }
      else { s.markMoving b pp d with agenda := s.agenda ++ (s.holders pp).map fun n => ⟨s.cycle, ⟨.invalidation, { actor := n, n := pp, m := 1 }⟩⟩ } := by
  simp only [State.startMove, h, foldl_post_eq]
  rfl
theorem State.startMove_mem {s : State} {b : Backing} {pp d : Nat} {to_ : RegKind} (h : s.findRun to_ 1 1 0 false = some d) :
    (s.startMove b pp to_).mem = s.mem := by
  rw [State.startMove_of_findRun h]
  split <;> rfl
/-- Every holder of the page is told. -/
theorem awaits_invalidation_of_startMove {s : State} {b : Backing} {pp d : Nat} {to_ : RegKind} {x : Actor}
    (h : s.findRun to_ 1 1 0 false = some d) (hx : x ∈ s.all) (hh : x.holds pp = true) :
    Awaits s (s.startMove b pp to_) 0 .invalidation { actor := x.name, n := pp, m := 1 } := by
  have hmem : x.name ∈ s.holders pp := List.mem_map_of_mem (List.mem_filter.2 ⟨hx, hh⟩)
  rw [State.startMove_of_findRun h, if_neg (by simpa using List.ne_nil_of_mem hmem)]
  exact List.mem_append_right _ (List.mem_map.2 ⟨_, hmem, rfl⟩)
/-- A page that nobody holds moves at once. -/
theorem awaits_migration_of_startMove {s : State} {b : Backing} {pp d : Nat} {to_ : RegKind}
    (h : s.findRun to_ 1 1 0 false = some d) (hh : (s.all.filter fun a => a.holds pp) = []) :
    Awaits s (s.startMove b pp to_) 0 .migration { n := pp, flag := true } := by
  have hnil : s.holders pp = [] := by rw [State.holders, hh]; rfl
  rw [State.startMove_of_findRun h, if_pos (by rw [hnil]; rfl)]
  exact awaits_post rfl _ _ _

-- Invalidations ----------------------------------------------------------------------------------------------------

theorem exec_invalidation (s : State) : exec .invalidation s =
    .next ((s.modActor s.arg.actor fun a => a.dropRun s.arg.n s.arg.m).post 0 .invalidationAck s.arg) := rfl
/-- A packet through a cleared entry is in flight: the acknowledgement waits. -/
theorem exec_invalidationAck_flying {s : State} (h : s.has s.arg.actor = true)
    (hf : (s.actor s.arg.actor).flies [(s.arg.n, s.arg.m)] = true) : exec .invalidationAck s = .next (s.post 1 .invalidationAck s.arg) := by
  show execInvalidationAck s = _
  simp only [execInvalidationAck, h, hf, Bool.and_self, if_true]
/-- A move counts one acknowledgement more, and the last of them moves the page. -/
theorem exec_invalidationAck_counted {s : State} {b : Backing}
    (h : s.has s.arg.actor = false ∨ (s.actor s.arg.actor).flies [(s.arg.n, s.arg.m)] = false) (ho : s.arg.other = 0)
    (hb : s.movingBack s.arg.n = some b) :
    let t := s.modBack s.arg.n fun c => { c with acks := c.acks - 1 }
    exec .invalidationAck s = .next (if b.acks ≤ 1 then t.post 0 .migration { n := s.arg.n, flag := true } else t) := by
  have hquiet : (s.has s.arg.actor && (s.actor s.arg.actor).flies [(s.arg.n, s.arg.m)]) = false := Bool.and_eq_false_iff.2 h
  unfold State.movingBack at hb
  show execInvalidationAck s = _
  simp only [execInvalidationAck, hquiet, ho, hb, bne_self_eq_false, Bool.false_eq_true, if_false]

end Sys2Proof.Machine
end

