-- ==== Sys2Proof/Proofs/MemoryServiceEvents.lean ====
section
/-! PROOFS. The statement O48: walks, the replay of a side log, migration and invalidations. -/

open Sys2Proof Sys2Proof.Machine

/-- Settles O48: each clause is the equation of its event for one way that it can go (the new look for a frame is the model's, logs 91
and 104); a move's own clauses are what its copy, its start and an acknowledgement leave. -/
theorem memoryServiceEvents : Obligations.MemoryServiceEvents := by
  unfold Obligations.MemoryServiceEvents
  intro s
  dsimp only
  refine ⟨?dead, ?area, ?walk, exec_sideLogReplay_of_no_entry, ?atomic, ?finish, ?declined, ?start, ?invalidation,
    exec_invalidationAck_flying, ?ack⟩
  case dead => exact fun h => ⟨exec_walkRequest_dead h, exec_walkAnswer_dead h⟩
  case area => exact fun h hf => ⟨exec_walkRequest_area h hf, exec_walkAnswer_area h hf⟩
  case walk =>
    intro h hf
    refine ⟨exec_walkRequest_outside h hf,
      fun i r hr => ⟨exec_walkRequest_locked h hf hr, fun hl => ⟨fun b => exec_walkRequest_backed h hf hr hl, fun hb => ⟨?host, ?own⟩⟩⟩,
      exec_walkAnswer_absent h hf, exec_walkAnswer_none_kills h hf, ?xmap, fun i r b => exec_walkAnswer_mapped h hf⟩
    case host =>
      intro hh
      refine ⟨_, exec_walkRequest_host h hf hr hl hb hh, ?_, rfl, rfl, rfl⟩
      exact List.mem_append_left _ (awaits_post rfl _ _ _)
    case own =>
      intro hk hd
      refine ⟨fun u => exec_walkRequest_touched h hf hr hl hb hk hd, fun hu => ?_⟩
      have hx := exec_walkRequest_unserved h hf hr hl hb hk hd hu
      split
      · next hq => exact hx.trans (congrArg _ (if_pos hq))
      · next hq => exact hx.trans (congrArg _ (if_neg hq))
    case xmap =>
      intro hc ⟨i, r, hr, hk⟩
      exact exec_walkAnswer_none_xmap h hf hc hr hk
  case atomic => exact fun e p pa u => exec_sideLogReplay_atomic
  case finish =>
    intro b hf hb hw
    have hpp := State.ppage_of_movingBack hb
    have hmem := hpp ▸ s.finishMove_mem b
    have hlen := State.bytes_length (s.arg.n * 2 ^ 16) (2 ^ 16) hw
    obtain ⟨hsame, houtside⟩ := State.bytes_of_write hw hmem
    rw [hlen] at hsame houtside
    exact ⟨_, exec_migration_finish hf hb, hsame, by simp [hpp], houtside⟩
  case declined =>
    intro hf hk h
    refine ⟨_, exec_migration_declined hf hk fun b hb => ?_, by simp [State.dequeue], by simp [State.dequeue, State.takenUp], rfl, rfl⟩
    rcases h b hb with h | h | h <;> simp [Backing.promotable, h]
  case start =>
    intro b d hf hk hb hc hm hkind hd
    have hp : b.promotable = true := by simp [Backing.promotable, hc, hm, hkind]
    have hd' : s.takenUp.findRun .dram 1 1 0 false = some d := hd
    exact ⟨_, exec_migration_promoted hf hk hb hp, State.startMove_mem hd',
      fun x _ hx hh => awaits_of_cycle_eq (u := s.takenUp) rfl (awaits_invalidation_of_startMove hd' hx hh),
      fun hh => awaits_of_cycle_eq (u := s.takenUp) rfl (awaits_migration_of_startMove hd' hh)⟩
  case invalidation =>
    intro h
    obtain ⟨_, hact⟩ := s.modActor_eq s.arg.actor fun a => a.dropRun s.arg.n s.arg.m
    have hdrop := State.actor_modActor (fun a => a.dropRun s.arg.n s.arg.m) h
    rw [hact] at hdrop
    refine ⟨_, exec_invalidation s, ?_⟩
    rw [hact]
    exact ⟨hdrop, awaits_post rfl _ _ _, rfl⟩
  case ack =>
    intro b h ho hb
    refine ⟨_, exec_invalidationAck_counted h ho hb, ?_⟩
    split
    · exact ⟨rfl, fun _ => awaits_post rfl _ _ _, rfl⟩
    · next hmore => exact ⟨rfl, fun hle => absurd hle hmore, rfl⟩
end

