-- ==== Sys2Proof/Proofs/TileOperands.lean ====
section
/-! PROOFS. The tile operands of an instruction (05 R117, R126; 06 R139, R140): what each check answers, and O20, O21. -/

namespace Sys2Proof.Machine

-- States of a tile (05 R117) ---------------------------------------------------------------------------------------

section
variable {s : State} {h : Nat}

theorem needRead_ok (hs : Readable s h) : needRead s h = .ok (tileAt s.cur h) := by
  unfold needRead; rcases hs with hs | hs <;> simp only [hs]
theorem needRead_waits (hs : (tileAt s.cur h).state = .filling) : needRead s h = .error (.stall s) := by
  simp only [needRead, hs, Stall]
theorem needRead_given (hs : (tileAt s.cur h).state = .given) : needRead s h = .error (.kill rGivenTile) := by
  simp only [needRead, hs, Kill]
theorem needRead_unfit (hs : (tileAt s.cur h).state = .free ∨ (tileAt s.cur h).state = .empty ∨ (tileAt s.cur h).state = .latched) :
    needRead s h = .error (.kill rTileState) := by
  unfold needRead; rcases hs with hs | hs | hs <;> simp only [hs, Kill]

theorem needWrite_ok (hs : Writable s h) : needWrite s h = .ok (tileAt s.cur h) := by
  unfold needWrite; rcases hs with hs | hs <;> simp only [hs]
theorem needWrite_waits (hs : (tileAt s.cur h).state = .filling ∨ (tileAt s.cur h).state = .draining) :
    needWrite s h = .error (.stall s) := by
  unfold needWrite; rcases hs with hs | hs <;> simp only [hs, Stall]
theorem needWrite_given (hs : (tileAt s.cur h).state = .given) : needWrite s h = .error (.kill rGivenTile) := by
  simp only [needWrite, hs, Kill]
theorem needWrite_unfit (hs : (tileAt s.cur h).state = .free ∨ (tileAt s.cur h).state = .latched) :
    needWrite s h = .error (.kill rTileState) := by
  unfold needWrite; rcases hs with hs | hs <;> simp only [hs, Kill]

theorem needDef_ok (isFree : Bool) (hs : Definable s h) : needDef s h isFree = .ok (tileAt s.cur h) := by
  unfold needDef
  rcases hs with hs | hs | hs | ⟨hs, hd⟩
  · simp only [hs]
  · simp only [hs]
  · simp only [hs]
  · simp only [hs, hd, if_true]
theorem needDef_waits (isFree : Bool) (hs : (tileAt s.cur h).state = .filling ∨ (tileAt s.cur h).state = .draining) :
    needDef s h isFree = .error (.stall s) := by
  unfold needDef; rcases hs with hs | hs <;> simp only [hs, Stall]
theorem needDef_given (isFree : Bool) (hs : (tileAt s.cur h).state = .given) (hd : (tileAt s.cur h).drn ≠ 0) :
    needDef s h isFree = .error (.stall s) := by
  simp only [needDef, hs, hd, if_false, Stall]
/-- A LATCHED tile is only freed. -/
theorem needDef_latched (hs : (tileAt s.cur h).state = .latched) : needDef s h false = .error (.kill rTileState) := by
  simp only [needDef, hs, Bool.false_eq_true, if_false, Kill]

end

-- Formats and sizes (06 R139, R140) --------------------------------------------------------------------------------

theorem needDesc_ok {s : State} {h n : Nat} {f : Desc} (hs : Sized s h f n) : needDesc s.cur (tileAt s.cur h) = .ok f := by
  obtain ⟨hv, hf, -⟩ := hs
  rw [needDesc, check_ok _ hv, hf]; rfl
theorem needSize_ok {s : State} {h n : Nat} {f : Desc} (hs : Sized s h f n) : needSize s.cur (tileAt s.cur h) f = .ok n := by
  obtain ⟨-, -, hn, hmax, hroom⟩ := hs
  have hc : (decide (n ≤ 262144) && ((tileAt s.cur h).glob || decide ((tileAt s.cur h).loc.toNat + n ≤ regionSize s.cur))) = true := by
    cases hg : (tileAt s.cur h).glob with
    | true => simp [hmax]
    | false => simp [hmax, hroom hg]
  have hsize : tileSize (tileAt s.cur h) f = n := hn.symm
  simp only [needSize, hsize, check_ok _ hc, ok_bind, pure_eq]

-- The instructions that name one tile, and `tview` (05 R117; 09 R198, R199) -------------------------------------------

section
variable {s : State} {d : TileSel} {e : Stop}

theorem exec_tfree_of_resolve (he : resolve s.cur true d = .error e) : exec (.tfree d) s = finish s (.error e) := by
  show execTfree d s = _
  simp only [execTfree, unguarded, he, error_bind]
theorem exec_tstat_of_resolve {hi : Bool} (he : resolve s.cur false d = .error e) : exec (.tstat d hi) s = finish s (.error e) := by
  show execTstat d hi s = _
  simp only [execTstat, unguarded, he, error_bind]

variable {h : Nat} (hd : resolve s.cur true d = .ok h)
include hd

theorem exec_tzero_of_needWrite (he : needWrite s h = .error e) : exec (.tzero d) s = finish s (.error e) := by
  show execTzero d s = _
  simp only [execTzero, unguarded, hd, he, ok_bind, error_bind]
theorem exec_tfree_of_needDef (he : needDef s h true = .error e) : exec (.tfree d) s = finish s (.error e) := by
  show execTfree d s = _
  simp only [execTfree, unguarded, hd, he, ok_bind, error_bind]

variable {a : TileSel} {k : Nat} (row0 : BitVec 7) (col0 : BitVec 10) (rows : BitVec 8) (cols : BitVec 11)
  (ha : resolve s.cur false a = .ok k)
include ha

theorem exec_tview_of_needDef (he : needDef s h false = .error e) : exec (.tview d a row0 col0 rows cols) s = finish s (.error e) := by
  show execTview d a row0 col0 rows cols s = _
  simp only [execTview, unguarded, hd, ha, he, ok_bind, error_bind]
theorem exec_tview_of_needRead (hs : Definable s h) (he : needRead s k = .error e) :
    exec (.tview d a row0 col0 rows cols) s = finish s (.error e) := by
  show execTview d a row0 col0 rows cols s = _
  simp only [execTview, unguarded, hd, ha, needDef_ok false hs, he, ok_bind, error_bind]

end

-- Ring slots (05 R126) ---------------------------------------------------------------------------------------------

theorem resolve_slot {a : Actor} {n : Fin 4} (k : Fin 4) (dst : Bool) (h : (a.rings.getD n.val {}).def_ = true) :
    resolve a dst (.q n k) = .ok ((a.rings.getD n.val {}).first +
      ((if dst then (a.rings.getD n.val {}).pidx else (a.rings.getD n.val {}).cidx) + k.val) % (a.rings.getD n.val {}).count) := by
  simp only [resolve, h, if_true]
theorem resolve_undefined {a : Actor} {n : Fin 4} (k : Fin 4) (dst : Bool) (h : (a.rings.getD n.val {}).def_ = false) :
    resolve a dst (.q n k) = .error (.kill rTileState) := by
  simp only [resolve, h, Bool.false_eq_true, if_false, Kill]

end Sys2Proof.Machine

open Sys2Proof Sys2Proof.Machine

/-- Settles O20: each state of R117 against the first check that it fails, with the answer of that check. -/
theorem tileStateChecks : Obligations.TileStateChecks := by
  unfold Obligations.TileStateChecks
  intro d a row0 col0 rows cols s h k hd ha
  refine ⟨fun hs => ?zeroUnfit, fun hs => ⟨?zeroBusy, ?freeBusy, ?viewBusy⟩, fun hs => ⟨?zeroGiven, fun hn => ⟨?freeGiven, ?viewGiven⟩⟩,
    fun hs => ?viewLatched, fun hdef => ⟨fun hs => ?sourceUnfit, fun hs => ?sourceFilling, fun hs => ?sourceGiven⟩⟩
  case zeroUnfit => exact exec_tzero_of_needWrite hd (needWrite_unfit hs)
  case zeroBusy => exact exec_tzero_of_needWrite hd (needWrite_waits hs)
  case freeBusy => exact exec_tfree_of_needDef hd (needDef_waits true hs)
  case viewBusy => exact exec_tview_of_needDef hd row0 col0 rows cols ha (needDef_waits false hs)
  case zeroGiven => exact exec_tzero_of_needWrite hd (needWrite_given hs)
  case freeGiven => exact exec_tfree_of_needDef hd (needDef_given true hs hn)
  case viewGiven => exact exec_tview_of_needDef hd row0 col0 rows cols ha (needDef_given false hs hn)
  case viewLatched => exact exec_tview_of_needDef hd row0 col0 rows cols ha (needDef_latched hs)
  case sourceUnfit => exact exec_tview_of_needRead hd row0 col0 rows cols ha hdef (needRead_unfit hs)
  case sourceFilling => exact exec_tview_of_needRead hd row0 col0 rows cols ha hdef (needRead_waits hs)
  case sourceGiven => exact exec_tview_of_needRead hd row0 col0 rows cols ha hdef (needRead_given hs)

/-- Settles O21: the index of a slot is the field's, and an undefined ring kills where its slot is resolved. -/
theorem tileSelectors : Obligations.TileSelectors := by
  unfold Obligations.TileSelectors
  intro n k t a dst
  refine ⟨rfl, fun hr => ⟨resolve_slot k true hr, resolve_slot k false hr⟩, fun hr d s hs => ?_⟩
  subst hs
  exact ⟨exec_tfree_of_resolve (resolve_undefined k true hr), exec_tstat_of_resolve (resolve_undefined k false hr)⟩
end

