-- ==== Sys2Proof/Proofs/TransferIssue.lean ====
section
/-! PROOFS. What the instructions of the copy engine share at issue (05 R118, R120 to R123; 09 R200 to R207): their checks, the answers
of a footprint, and the issuing actor once its transfer has begun. -/

namespace Sys2Proof.Machine

-- One check after another --------------------------------------------------------------------------------------------

/-- An attempt goes on past an evaluation that succeeds. -/
theorem finish_bind {α : Type} {s : State} {r : Res α} {v : α} {f : α → Res State} (h : r = .ok v) : finish s (r >>= f) = finish s (f v) := by
  rw [h]; rfl
theorem finish_bind_error {α : Type} {s : State} {r : Res α} {e : Stop} {f : α → Res State} (h : r = .error e) :
    finish s (r >>= f) = finish s (.error e) := by
  rw [h]; rfl
/-- A wait between two checks holds the attempt back, or does not. -/
theorem finish_held {s : State} {b : Bool} {f : Unit → Res State} (h : b = true) : finish s (if b = true then Stall s >>= f else f ()) = waits s := by
  rw [if_pos h]; rfl
theorem finish_past {s : State} {b : Bool} {f : Unit → Res State} (h : b = false) :
    finish s (if b = true then Stall s >>= f else f ()) = finish s (f ()) := by
  rw [if_neg (by simp [h])]
/-- Outside a shadow run the last branch is what the instruction leaves (21 R396). -/
theorem finish_unshadowed {s t : State} {o : Option Nat} {f : Nat → Res State} :
    o = none → finish s (match o with | some b => f b | none => pure t) = ran t := by
  rintro rfl; rfl

-- Checks (05 R120; 09 R203, R207; 04 R104) ---------------------------------------------------------------------------

theorem needXfer_ok {s : State} (h : (s.cell (runCell s.cur)).outstanding < 32) : needXfer s = .ok () := by
  simp only [needXfer, h, if_true]
theorem needGlobal_ok {s : State} (h : s.cur.acqHold = false) : needGlobal s = .ok () := by
  simp only [needGlobal, h, Bool.false_eq_true, if_false]
theorem needSide_ok {s : State} (need : Bool) (h : (s.cell (runCell s.cur)).logged < 32) : needSide s need = .ok () := by
  simp only [needSide, Nat.not_le.2 h, decide_false, Bool.and_false, Bool.false_eq_true, if_false]
/-- A form that lacks the tile has nothing to check. -/
theorem needOpt_ok {o : Option Nat} {f : Nat → Res TileEnt} (h : ∀ k, o = some k → ∃ e, f k = .ok e) : needOpt o f = .ok () := by
  cases o with
  | none => rfl
  | some k => obtain ⟨e, he⟩ := h k rfl; simp only [needOpt, he, Except.map]
/-- The pattern on the global side of a `tfetch` or `twrite` (05 R121; 09 R203): `h` is the scratchpad tile, `gh` the global tile of a
`.gt` form, `r` the pattern record of a `.g4` form. -/
def globalPattern (s : State) (gf : GForm) (h wd g p2 : Nat) (gh : Option Nat) (r : Pattern) : Pattern :=
  let q := tileAt s.cur (gh.getD 0)
  match gf with
  | .g2 => { g := g, n0 := rowBytes (tileAt s.cur h).cols.toNat wd, n1 := (tileAt s.cur h).rows.toNat, s1 := signed 32 p2 }
  | .g4 => r
  | .gt _ => { g := q.loc.toNat, n0 := rowBytes q.cols.toNat (descOf (descVal s.cur q)).wd, n1 := q.rows.toNat, s1 := q.pitch.toNat }
theorem globalTile_gt {s : State} {dst : Bool} {t : TileSel} {gh : Option Nat} (h : globalTile s dst (.gt t) = .ok gh) : ∃ k, gh = some k := by
  rw [globalTile] at h
  cases hr : resolve s.cur dst t with
  | error _ => rw [hr, error_bind] at h; cases h
  | ok k => rw [hr, ok_bind] at h; cases h; exact ⟨k, rfl⟩
theorem globalSide_ok {s : State} {c : CopyArgs} {h wd g p2 : Nat} {gh : Option Nat} {r : Pattern} {dst : Bool}
    (hgh : globalTile s dst c.gf = .ok gh) (hrec : c.gf = .g4 → patternRecord s g p2 = .ok r)
    (hdesc : ∀ k, gh = some k → validDesc (descVal s.cur (tileAt s.cur k)) = true) :
    globalSide s c (tileAt s.cur h) wd g p2 gh = .ok (globalPattern s c.gf h wd g p2 gh r) := by
  unfold globalSide globalPattern
  cases hc : c.gf with
  | g2 => rfl
  | g4 => exact hrec hc
  | gt t =>
    obtain ⟨k, rfl⟩ := globalTile_gt (hc ▸ hgh)
    simp only [needDesc, Option.getD_some, check_ok _ (hdesc k rfl), ok_bind, pure_eq]

-- The answers of a footprint (04 R100, R103) -----------------------------------------------------------------------

/-- Each piece with the address that its lookup found; none under `late`, where the footprint falls behind the side log (04 R106). -/
def located (late : Bool) (ps : List Piece) (ls : List Look) : List Piece :=
  (ps.zip ls).map fun q => { q.1 with pa := if late then none else match q.2 with | .hit pa _ => some pa | _ => none }
theorem map_zip_foundAt (late : Bool) (ps : List Piece) (ls : List Look) :
    ((ps.zip (ls.map foundAt)).map fun q => ({ q.1 with pa := if late then none else q.2 } : Piece)) = located late ps ls := by
  rw [List.zip_map_right, List.map_map]
  refine List.map_congr_left fun q _ => ?_
  obtain ⟨p, l⟩ := q
  cases l <;> rfl
/-- Every page of the footprint has its answer: the entries hit are used, and the pieces have their addresses. -/
theorem resolveVas_answered {s : State} {acc : Access} {vas : List Nat} {ls : List Look} (hs : s.cur.shadow = none)
    (hl : lookAll s s.cur acc vas = .ok ls) (ha : ∀ l ∈ ls, l ≠ .miss ∧ l ≠ .waiting) :
    resolveVas s acc vas = .ok (s.setCur (s.cur.touch s.tick ls), ls.map foundAt) := by
  have hmiss : ((vas.zip ls).filter fun e => e.2 == Look.miss) = [] := by
    refine List.filter_eq_nil_iff.2 fun e he => ?_
    simpa using (ha e.2 (List.of_mem_zip he).2).1
  have hwait : (ls.any fun l => l == Look.waiting) = false := by
    refine List.any_eq_false.2 fun l hm => ?_
    simpa using (ha l hm).2
  simp only [resolveVas, hs, Option.isSome_none, Bool.false_eq_true, if_false, hl, ok_bind, hmiss, List.isEmpty_nil, Bool.not_true, hwait,
    pure_eq]
  refine congrArg (fun f : Look → Option Nat => Except.ok (s.setCur (s.cur.touch s.tick ls), ls.map f)) (funext fun l => ?_)
  cases l <;> rfl

-- The issuing actor (05 R118, R123) --------------------------------------------------------------------------------

/-- Of `a`, `b` changes at most tile entries, barriers, and what debugging keeps. -/
def Actor.TilesMoved (a b : Actor) : Prop := ∃ ts bs d, b = { a with tiles := ts, bars := bs, dbg := d }
theorem Actor.TilesMoved.refl (a : Actor) : a.TilesMoved a := ⟨_, _, _, rfl⟩
theorem Actor.TilesMoved.trans {a b c : Actor} (h : a.TilesMoved b) (k : b.TilesMoved c) : a.TilesMoved c := by
  obtain ⟨_, _, _, rfl⟩ := h
  obtain ⟨_, _, _, rfl⟩ := k
  exact ⟨_, _, _, rfl⟩
theorem Actor.TilesMoved.foldl {α : Type} {f : Actor → α → Actor} (hf : ∀ (a : Actor) x, a.TilesMoved (f a x)) (l : List α) :
    ∀ a : Actor, a.TilesMoved (l.foldl f a) := by
  induction l with
  | nil => exact Actor.TilesMoved.refl
  | cons x l ih => exact fun a => (hf a x).trans (ih (f a x))
theorem Actor.TilesMoved.shadow {a b : Actor} (h : a.TilesMoved b) : b.shadow = a.shadow := by obtain ⟨_, _, _, rfl⟩ := h; rfl

theorem Actor.tilesMoved_watchTile (a : Actor) (h : Nat) : a.TilesMoved (a.watchTile h) := by
  unfold Actor.watchTile
  dsimp only
  split <;> split <;> exact ⟨_, _, _, rfl⟩
theorem Actor.tilesMoved_watchBytes (a : Actor) (wr : Bool) (off n : Nat) : a.TilesMoved (a.watchBytes wr off n) := by
  unfold Actor.watchBytes
  dsimp only
  split <;> split <;> exact ⟨_, _, _, rfl⟩
theorem Actor.tilesMoved_watchOp (a : Actor) (wr : Bool) (h : Nat) : a.TilesMoved (a.watchOp wr h) := by
  unfold Actor.watchOp
  dsimp only
  split
  · exact .refl a
  · exact a.tilesMoved_watchBytes _ _ _
theorem Actor.tilesMoved_setTile (a : Actor) (h : Nat) (e : TileEnt) : a.TilesMoved (a.setTile h e) := by
  have hset : a.TilesMoved { a with tiles := a.tiles.set h e } := ⟨_, _, _, rfl⟩
  unfold Actor.setTile
  dsimp only
  split
  · exact hset
  · exact hset.trans (Actor.tilesMoved_watchTile _ h)
theorem Actor.tilesMoved_drain (a : Actor) (h : Nat) : a.TilesMoved (a.drain h) := a.tilesMoved_setTile h _
theorem Actor.tilesMoved_inflight (bars : List Nat) (a : Actor) : a.TilesMoved (a.inflight bars) :=
  .foldl (fun _ _ => ⟨_, _, _, rfl⟩) bars a

/-- The issuing actor once its transfer has begun: the actor's side of `State.begin`. -/
def Actor.begun (a : Actor) (x : Xfer) (drains : List Nat) (lu : Bool) (ops : List (Bool × Nat)) : Actor :=
  let a := match x.dst with | some h => a.tileState h .filling | none => a
  let a := drains.foldl Actor.drain (a.inflight x.bars)
  let a := match x.src with | some h => if lu then a.setTile h { tileAt a h with lu := true } else a | none => a
  (ops.foldl (fun (b : Actor) o => b.watchOp o.1 o.2) a).retire 5
theorem State.begin_eq (s : State) (x : Xfer) (drains : List Nat) (lu : Bool) (ops : List (Bool × Nat)) :
    s.begin x drains lu ops = s.setCur (s.cur.begun x drains lu ops) := rfl
/-- A transfer that begins changes tiles, barriers and watchpoints of its actor, which retires the instruction. -/
theorem Actor.begun_eq (a : Actor) (x : Xfer) (drains : List Nat) (lu : Bool) (ops : List (Bool × Nat)) :
    ∃ b, a.TilesMoved b ∧ a.begun x drains lu ops = b.retire 5 := by
  refine ⟨_, ?_, rfl⟩
  refine Actor.TilesMoved.trans ?_ (.foldl (fun b o => b.tilesMoved_watchOp o.1 o.2) ops _)
  have hdst : a.TilesMoved (match x.dst with | some h => a.tileState h .filling | none => a) := by
    split
    · exact a.tilesMoved_setTile _ _
    · exact .refl a
  have hdrains := hdst.trans ((Actor.tilesMoved_inflight x.bars _).trans (.foldl Actor.tilesMoved_drain drains _))
  dsimp only
  split
  · split
    · exact hdrains.trans (Actor.tilesMoved_setTile _ _ _)
    · exact hdrains
  · exact hdrains
theorem State.begin_shadow (s : State) (x : Xfer) (drains : List Nat) (lu : Bool) (ops : List (Bool × Nat)) :
    (s.begin x drains lu ops).cur.shadow = s.cur.shadow := by
  obtain ⟨b, hb, he⟩ := s.cur.begun_eq x drains lu ops
  rw [State.begin_eq, State.cur_setCur, he]
  exact hb.shadow
/-- A transfer begins for the issuing actor as the lookups of its footprint left it. -/
theorem State.begin_setCur (s : State) (a : Actor) (x : Xfer) (drains : List Nat) (lu : Bool) (ops : List (Bool × Nat)) :
    (s.setCur a).freshId.begin x drains lu ops = s.freshId.setCur (({ a with name := s.focus } : Actor).begun x drains lu ops) := by
  rw [State.begin_eq, ← State.cur_setCur s a]
  exact State.setCur_setCur s.freshId a _
theorem Actor.touch_eq (t : Nat) (ls : List Look) : ∀ a : Actor, ∃ es, a.touch t ls = { a with exts := es } := by
  induction ls with
  | nil => exact fun a => ⟨_, rfl⟩
  | cons l ls ih =>
    intro a
    cases l with
    | hit pa i => exact ih { a with exts := modAt a.exts i fun e => { e with used := t } }
    | absent => exact ih a
    | waiting => exact ih a
    | miss => exact ih a

/-- The entries that a footprint hits are used; nothing else of the actor changes. -/
theorem State.touched_cur (s : State) (ls : List Look) : ∃ es, (s.setCur (s.cur.touch s.tick ls)).cur = { s.cur with name := s.focus, exts := es } := by
  obtain ⟨_, h⟩ := Actor.touch_eq s.tick ls s.cur
  rw [State.cur_setCur, h]
  exact ⟨_, rfl⟩
theorem State.touched_shadow (s : State) (ls : List Look) : (s.setCur (s.cur.touch s.tick ls)).cur.shadow = s.cur.shadow := by
  obtain ⟨_, h⟩ := s.touched_cur ls; rw [h]
theorem State.touched_runCell (s : State) (ls : List Look) : runCell (s.setCur (s.cur.touch s.tick ls)).cur = runCell s.cur := by
  obtain ⟨_, h⟩ := s.touched_cur ls; rw [h]; rfl

-- Places of tiles (09 R203 to R205) ----------------------------------------------------------------------------------

/-- The check on where the tiles of a transfer lie: `b` is what the form asks of its other tile. -/
theorem checkPlace_ok {s : State} {h : Nat} {b : Bool} (hl : Local s h) (hr : s.cur.roaming = false) (hb : b = true) :
    check (!(tileAt s.cur h).glob && b && !s.cur.roaming) rExtent = .ok () := by
  unfold Local at hl
  exact check_ok _ (by simp [hl, hr, hb])
/-- Of a form whose tiles both lie in the scratchpad. -/
theorem checkLocal_ok {s : State} {h k : Nat} (hl : Local s h) (hk : Local s k) (hr : s.cur.roaming = false) :
    check (!(tileAt s.cur h).glob && !(tileAt s.cur k).glob && !s.cur.roaming) rExtent = .ok () := by
  unfold Local at hk
  exact checkPlace_ok hl hr (by simp [hk])
/-- Of a form that may name a global tile. -/
theorem checkGlobal_ok {s : State} {h : Nat} {gh : Option Nat} (hl : Local s h) (hr : s.cur.roaming = false) :
    (∀ k, gh = some k → ¬ Local s k) →
      check (!(tileAt s.cur h).glob && (match gh with | some k => (tileAt s.cur k).glob | none => true) && !s.cur.roaming) rExtent = .ok () := by
  intro hk
  refine checkPlace_ok hl hr ?_
  cases gh with
  | none => rfl
  | some k => simpa [Local] using hk k rfl

end Sys2Proof.Machine
end

