-- ==== Sys2Proof/Proofs/TileTransfers.lean ====
section
/-! PROOFS. The statements O24 to O27: what `tcopy`, `tfetch`, `twrite`, `tgath` and `tscat` leave to the copy engine. -/

namespace Sys2Proof.Machine

-- Transfers with a footprint (09 R200 to R204) -----------------------------------------------------------------------

/-- The transfer of a `tfetch` of actor `a` with pieces `ps` into tile `h`, from global tile `gh` if it names one. -/
def fetchXfer (s : State) (c : CopyArgs) (h n : Nat) (gh : Option Nat) (a : Actor) (ps : List Piece) : Xfer :=
  { id := s.nextId, kind := .fetch, actor := s.focus, inv := a.invNo, dst := some h, src := gh, soff := (tileAt s.cur h).loc.toNat, bytes := n,
    bars := barOf (tileAt s.cur h).bar, pieces := ps, held := ps.filter (·.pa.isNone), acq := c.sem == .acq }
/-- The transfer of a `twrite` of actor `a` with pieces `ps` from tile `h`, to global tile `gh` if it names one. -/
def writeXfer (s : State) (c : CopyArgs) (h n : Nat) (gh : Option Nat) (a : Actor) (ps : List Piece) : Xfer :=
  { id := s.nextId, kind := .write, actor := s.focus, inv := a.invNo, dst := gh, src := some h, soff := (tileAt s.cur h).loc.toNat, bytes := n,
    bars := barOf c.wbar ++ (match gh with | some k => barOf (tileAt a k).bar | none => []), pieces := ps.filter (·.pa.isSome),
    held := ps.filter (·.pa.isNone) }
theorem fetchXfer_touched (s : State) (c : CopyArgs) (h n : Nat) (gh : Option Nat) (ls : List Look) (ps : List Piece) :
    fetchXfer s c h n gh (s.setCur (s.cur.touch s.tick ls)).cur ps = fetchXfer s c h n gh s.cur ps := by
  obtain ⟨_, hu⟩ := s.touched_cur ls; rw [hu]; rfl
theorem writeXfer_touched (s : State) (c : CopyArgs) (h n : Nat) (gh : Option Nat) (ls : List Look) (ps : List Piece) :
    writeXfer s c h n gh (s.setCur (s.cur.touch s.tick ls)).cur ps = writeXfer s c h n gh s.cur ps := by
  obtain ⟨_, hu⟩ := s.touched_cur ls; rw [hu]; rfl
-- Index tiles (09 R203, R204) --------------------------------------------------------------------------------------

section
variable {s : State} {i rows m : Nat} {fi : Desc} (hs : Sized s i fi m)
include hs

theorem needIndex_format (hc : fi.cls ≠ 4) : needIndex s i rows = .error (.kill rIllegal) := by
  rw [needIndex, needDesc_ok hs, ok_bind, check_no _ (beq_false_of_ne hc), error_bind]
theorem needIndex_short (hc : fi.cls = 4) (hl : (tileAt s.cur i).rows.toNat * (tileAt s.cur i).cols.toNat < rows) :
    needIndex s i rows = .error (.kill rTileBounds) := by
  rw [needIndex, needDesc_ok hs, ok_bind, check_ok _ (beq_iff_eq.2 hc), ok_bind, needSize_ok hs, ok_bind,
    check_no _ (decide_eq_false (Nat.not_le.2 hl)), error_bind]
theorem needIndex_ok (hc : fi.cls = 4) (hl : rows ≤ (tileAt s.cur i).rows.toNat * (tileAt s.cur i).cols.toNat) :
    needIndex s i rows = .ok (tileAt s.cur i) := by
  rw [needIndex, needDesc_ok hs, ok_bind, check_ok _ (beq_iff_eq.2 hc), ok_bind, needSize_ok hs, ok_bind,
    check_ok _ (decide_eq_true hl), ok_bind, pure_eq]

end

-- Releases and records (09 R206, R213; 21 R394) ----------------------------------------------------------------------

/-- A `.rel` whose fence would end does not wait, nor does any other access. -/
theorem relPast {s : State} {c : CopyArgs} (h : c.sem = .rel → s.cur.relReady c.sc = true) : (c.sem == Sem.rel && !s.cur.relReady c.sc) = false := by
  by_cases hsem : c.sem = .rel
  · simp [h hsem]
  · simp [hsem]
theorem State.logOut_shadow (s : State) (a : Actor) (bs : List Byte) : (s.logOut a bs).cur.shadow = s.cur.shadow := by
  unfold State.logOut; split <;> rfl

-- The actor of each (05 R118) ----------------------------------------------------------------------------------------

/-- A last-use mark kept on a source that drains (05 R118). -/
def Actor.marked (a : Actor) (lu : Bool) (h : Nat) : Actor := if lu then a.setTile h { tileAt a h with lu := true } else a
section
variable (a : Actor) {x : Xfer} {h i : Nat} (lu : Bool)

theorem Actor.begun_fetch (hd : x.dst = some h) : a.begun x x.src.toList lu [(true, h)] =
    ((match x.src with
      | some k => (((a.tileState h .filling).inflight x.bars).drain k).marked lu k
      | none => (a.tileState h .filling).inflight x.bars).watchOp true h).retire 5 := by
  unfold Actor.begun
  rw [hd]
  cases x.src with
  | none => rfl
  | some k => rfl
theorem Actor.begun_write (hs : x.src = some h) : a.begun x [h] lu [(false, h)] =
    (((((match x.dst with | some k => a.tileState k .filling | none => a).inflight x.bars).drain h).marked lu h).watchOp false h).retire 5 := by
  unfold Actor.begun
  rw [hs]
  rfl
theorem Actor.begun_gather (hd : x.dst = some h) (hs : x.src = none) : a.begun x [i] false [(true, h), (false, i)] =
    (((((a.tileState h .filling).inflight x.bars).drain i).watchOp true h).watchOp false i).retire 5 := by
  unfold Actor.begun
  rw [hd, hs]
  rfl
theorem Actor.begun_scatter (hd : x.dst = none) (hs : x.src = some h) : a.begun x [h, i] lu [(false, h), (false, i)] =
    ((((((a.inflight x.bars).drain h).drain i).marked lu h).watchOp false h).watchOp false i).retire 5 := by
  unfold Actor.begun
  rw [hd, hs]
  rfl

end

end Sys2Proof.Machine

open Sys2Proof Sys2Proof.Machine

/-- Settles O24: both tiles are checked before the copy begins; what a handle given twice and unequal sizes fail is the check of each. -/
theorem localCopyIssues : Obligations.LocalCopyIssues := by
  unfold Obligations.LocalCopyIssues
  intro to_ from_ lu s h k n m f g hh hk hw hr hlh hlk hro hsh hsk
  have hstart : exec (.tcopy to_ from_ lu) s = _ :=
    (finish_bind hh).trans <| (finish_bind hk).trans <| (finish_bind (needWrite_ok hw)).trans <| (finish_bind (needRead_ok hr)).trans
    (finish_bind (checkLocal_ok hlh hlk hro))
  have hsizes (hne : h ≠ k) := hstart.trans <| (finish_bind (check_ok _ (bne_iff_ne.2 hne))).trans <| (finish_bind (needDesc_ok hsh)).trans <|
    (finish_bind (needDesc_ok hsk)).trans <| (finish_bind (needSize_ok hsh)).trans (finish_bind (needSize_ok hsk))
  refine ⟨fun he => ?same, fun hne hs => ?sizes, fun hne hs hun hroom => ?issues⟩
  case same => exact hstart.trans (finish_bind_error (check_no _ (bne_eq_false_iff_eq.2 he)))
  case sizes => exact (hsizes hne).trans (finish_bind_error (check_no _ (beq_false_of_ne hs)))
  case issues => exact (hsizes hne).trans <| (finish_bind (check_ok _ (beq_iff_eq.2 hs))).trans <| (finish_bind hun).trans (finish_bind (needXfer_ok hroom))

/-- Settles O25: a footprint whose lookups have answers leaves the entries that it hit used and the pieces located; then the transfer begins. -/
theorem fetchIssues : Obligations.FetchIssues := by
  unfold Obligations.FetchIssues
  intro c s g p2 h n gh f r ls hg hp2 hh hgh hw hgt hl hro hsz hun heng hsh hrec q p acq vas
  have hside : globalSide s c (tileAt s.cur h) f.wd g p2 gh = .ok p := globalSide_ok hgh hrec fun k hk => (hgt k hk).2.2
  clear_value p
  have hstart : exec (.tfetch c) s = _ :=
    (finish_bind hg).trans <| (finish_bind hp2).trans <| (finish_bind hh).trans <| (finish_bind hgh).trans <|
    (finish_bind (needWrite_ok hw)).trans <| (finish_bind (needOpt_ok fun k hk => ⟨_, needRead_ok (hgt k hk).2.1⟩)).trans <|
    (finish_bind (checkGlobal_ok hl hro fun k hk => (hgt k hk).1)).trans <| (finish_bind (needDesc_ok hsz)).trans <|
    (finish_bind hside).trans (finish_bind (needSize_ok hsz))
  obtain ⟨hroom, hacq⟩ := heng
  refine ⟨fun hne => ?size, fun he hlook hans => ?issues⟩
  case size => exact hstart.trans (finish_bind_error (check_no _ (beq_false_of_ne hne)))
  case issues =>
    intro bars ps x a a' t t' t'' cell
    refine hstart.trans <| (finish_bind (check_ok _ (beq_iff_eq.2 he))).trans <| (finish_bind hun).trans <|
      (finish_bind (needXfer_ok hroom)).trans <| (finish_bind (needGlobal_ok hacq)).trans <|
      (finish_bind (resolveVas_answered hsh hlook hans)).trans ?_
    dsimp -zeta only
    extract_lets mps mx mdrains mt mu mv mcell
    have hps : mps = ps := map_zip_foundAt false p.split ls
    have hx : mx = x := (congrArg (fetchXfer s c h n gh _) hps).trans (fetchXfer_touched s c h n gh ls ps)
    have ht : mt = t := (State.begin_setCur _ _ _ _ _ _).trans (congrArg s.freshId.setCur (by rw [hx]; exact Actor.begun_fetch _ c.lu rfl))
    have hshadow : mt.cur.shadow = none := (State.begin_shadow _ _ _ _ _).trans ((s.touched_shadow ls).trans hsh)
    refine (finish_unshadowed hshadow).trans ?_
    clear_value mt mx mps
    subst hx hps ht
    rfl

/-- Settles O26. -/
theorem writeIssues : Obligations.WriteIssues := by
  unfold Obligations.WriteIssues
  intro c s g p2 h n gh f r ls hg hp2 hgh hh hr hgt hl hro hsz heng hlog hsh hrec q p vas
  have hside : globalSide s c (tileAt s.cur h) f.wd g p2 gh = .ok p := globalSide_ok hgh hrec fun k hk => (hgt k hk).2.2
  clear_value p
  have hstart : exec (.twrite c) s = _ :=
    (finish_bind hg).trans <| (finish_bind hp2).trans <| (finish_bind hgh).trans <| (finish_bind hh).trans <|
    (finish_bind (needOpt_ok fun k hk => ⟨_, needWrite_ok (hgt k hk).2.1⟩)).trans <| (finish_bind (needRead_ok hr)).trans <|
    (finish_bind (checkGlobal_ok hl hro fun k hk => (hgt k hk).1)).trans <| (finish_bind (needDesc_ok hsz)).trans <|
    (finish_bind hside).trans (finish_bind (needSize_ok hsz))
  have hsized (he : p.total = n) := hstart.trans (finish_bind (check_ok _ (beq_iff_eq.2 he)))
  obtain ⟨hroom, hacq⟩ := heng
  refine ⟨fun hne => ?size, fun he hsem hrel => ?waits, fun he hrel hlook hans => ?issues⟩
  case size => exact hstart.trans (finish_bind_error (check_no _ (beq_false_of_ne hne)))
  case waits => exact (hsized he).trans (finish_held (by simp [hsem, hrel]))
  case issues =>
    intro a late ps bars x b b' b'' t t' t'' cell t3 t4
    have hshu : (s.setCur a).cur.shadow = none := (s.touched_shadow ls).trans hsh
    have hlogu : ((s.setCur a).cell (runCell (s.setCur a).cur)).logged < 32 := (congrArg (fun c => (s.cell c).logged < 32) (s.touched_runCell ls)).mpr hlog
    refine (hsized he).trans <| (finish_past (relPast hrel)).trans <| (finish_bind (needXfer_ok hroom)).trans <|
      (finish_bind (needGlobal_ok hacq)).trans <| (finish_bind (resolveVas_answered hsh hlook hans)).trans <|
      (finish_bind (needSide_ok _ hlogu)).trans ?_
    extract_lets mbars mx mt mu mv mcell mw mz
    have hlate : ((s.setCur a).cur.shadow.isNone && behind (s.setCur a) vas) = late := by simp [hshu, late]
    have hx : mx = x := (congrArg (writeXfer s c h n gh (s.setCur a).cur)
      ((map_zip_foundAt _ p.split ls).trans (congrArg (located · p.split ls) hlate))).trans (writeXfer_touched s c h n gh ls ps)
    have ht : mt = t := (State.begin_setCur _ _ _ _ _ _).trans (congrArg s.freshId.setCur (by rw [hx]; exact Actor.begun_write _ c.lu rfl))
    have hshadow : mu.cur.shadow = none := (State.logOut_shadow _ _ _).trans ((State.begin_shadow _ _ _ _ _).trans hshu)
    refine (finish_unshadowed hshadow).trans ?_
    clear_value mt mx
    subst hx ht
    rfl

/-- Settles O27: both forms check their tiles, then the index tile's format and its number of elements, then room; an index tile is read before
any row is looked up. -/
theorem indexedCopiesIssue : Obligations.IndexedCopiesIssue := by
  unfold Obligations.IndexedCopiesIssue
  intro c ix s g st h i n m f fi hg hst hix hri hlh hli hro hne hsh hsi heng hshadow rows elems x
  obtain ⟨hroom, hacq⟩ := heng
  have hplace := checkLocal_ok hlh hli hro
  have hdiff := check_ok rTileState (bne_iff_ne.2 hne)
  refine ⟨fun hh hw => ?gather, fun hh hr => ?scatter⟩
  case gather =>
    have hstart : exec (.tgath c ix) s = _ :=
      (finish_bind hg).trans <| (finish_bind hst).trans <| (finish_bind hh).trans <| (finish_bind hix).trans <|
      (finish_bind (needWrite_ok hw)).trans <| (finish_bind (needRead_ok hri)).trans <| (finish_bind hplace).trans <| (finish_bind hdiff).trans <|
      (finish_bind (needDesc_ok hsh)).trans (finish_bind (needSize_ok hsh))
    refine ⟨fun hc => hstart.trans (finish_bind_error (needIndex_format hsi hc)),
      fun hc hl => hstart.trans (finish_bind_error (needIndex_short hsi hc hl)), fun hc hl hun => ?_⟩
    intro x a t t' t''
    refine hstart.trans <| (finish_bind (needIndex_ok hsi hc hl)).trans <| (finish_bind hun).trans <| (finish_bind (needXfer_ok hroom)).trans <|
      (finish_bind (needGlobal_ok hacq)).trans ?_
    extract_lets mx mt
    have hbegun : mt.cur.shadow = none := (State.begin_shadow _ _ _ _ _).trans hshadow
    have ht : mt = t := (State.begin_eq _ _ _ _ _).trans (congrArg s.freshId.setCur (Actor.begun_gather _ rfl rfl))
    clear_value mt
    subst ht
    exact finish_unshadowed hbegun
  case scatter =>
    have hstart : exec (.tscat c ix) s = _ :=
      (finish_bind hg).trans <| (finish_bind hst).trans <| (finish_bind hh).trans <| (finish_bind hix).trans <|
      (finish_bind (needRead_ok hr)).trans <| (finish_bind (needRead_ok hri)).trans <| (finish_bind hplace).trans <| (finish_bind hdiff).trans <|
      (finish_bind (needDesc_ok hsh)).trans (finish_bind (needSize_ok hsh))
    refine ⟨fun hc => hstart.trans (finish_bind_error (needIndex_format hsi hc)),
      fun hc hl => hstart.trans (finish_bind_error (needIndex_short hsi hc hl)), fun hc hl hrel hlog => ?_⟩
    intro x a a' t t' t''
    refine hstart.trans <| (finish_bind (needIndex_ok hsi hc hl)).trans <| (finish_past (relPast hrel)).trans <|
      (finish_bind (needXfer_ok hroom)).trans <| (finish_bind (needGlobal_ok hacq)).trans <| (finish_bind (needSide_ok true hlog)).trans ?_
    extract_lets mx mt mu
    have hbegun : mu.cur.shadow = none := (State.logOut_shadow _ _ _).trans ((State.begin_shadow _ _ _ _ _).trans hshadow)
    have ht : mt = t := (State.begin_eq _ _ _ _ _).trans (congrArg s.freshId.setCur (Actor.begun_scatter _ c.lu rfl rfl))
    clear_value mt
    subst ht
    exact finish_unshadowed hbegun
end

