-- ==== Sys2Proof/Proofs/CopyEngine.lean ====
section
/-! PROOFS. The copy engine and the events of transfers (05 R113, R114, R118, R123; 09 R205, R206): what a slot of each kind of transfer
comes to, and how a transfer ends. -/

namespace Sys2Proof.Machine

-- Transfers of a cell (05 R120) ------------------------------------------------------------------------------------

theorem State.id_of_xfer {s : State} {c id : Nat} {x : Xfer} (h : s.xfer c id = some x) : x.id = id :=
  beq_iff_eq.1 (List.find?_some (p := fun y : Xfer => y.id == id) h)
/-- What changes no transfer of a cell leaves each to be found. -/
theorem State.xfer_modCell {s : State} {k : Nat} {f : Cell → Cell} (hf : ∀ e, (f e).xfers = e.xfers) (c id : Nat) :
    (s.modCell k f).xfer c id = s.xfer c id := by
  unfold State.xfer
  by_cases hc : c = k
  · subst hc; rw [State.cell_modCell, hf]
  · rw [State.cell_modCell_other _ _ _ _ hc]
theorem State.map_xfer_modXfer {s : State} {c id : Nat} {f : Xfer → Xfer} (hf : ∀ y, (f y).id = y.id) :
    (s.modXfer c id f).xfer c id = (s.xfer c id).map f := by
  cases h : s.xfer c id with
  | some x => exact State.xfer_modXfer hf h
  | none =>
    refine List.find?_eq_none.2 fun y hy => ?_
    rw [State.modXfer, State.cell_modCell] at hy
    obtain ⟨z, hz, rfl⟩ := List.mem_map.1 hy
    have hzid := List.find?_eq_none.1 h z hz
    by_cases hi : z.id = id
    · simp [hi] at hzid
    · simp [hi]

-- What a change of one actor leaves --------------------------------------------------------------------------------

theorem State.modActor_cells (s : State) (n : ActorName) (f : Actor → Actor) : (s.modActor n f).cells = s.cells := by
  obtain ⟨_, h⟩ := s.modActor_eq n f
  rw [h]
theorem State.modActor_mem (s : State) (n : ActorName) (f : Actor → Actor) : (s.modActor n f).mem = s.mem := by
  obtain ⟨_, h⟩ := s.modActor_eq n f
  rw [h]

-- An actor's source read (05 R118) ---------------------------------------------------------------------------------

theorem State.sourceRead_eq (s : State) (n : ActorName) (h : Option Nat) : ∃ as, s.sourceRead n h = { s with actors := as } := by
  cases h with
  | none => exact ⟨_, rfl⟩
  | some k => exact s.modActor_eq n fun a => a.drained k

theorem State.sourceRead_modActor_eq (s : State) (n m : ActorName) (h : Option Nat) (f : Actor → Actor) :
    ∃ as, (s.sourceRead n h).modActor m f = { s with actors := as } := by
  obtain ⟨as, hread⟩ := s.sourceRead_eq n h
  obtain ⟨as', hmod⟩ := State.modActor_eq { s with actors := as } m f
  exact ⟨as', hread ▸ hmod⟩

-- The end of a transfer (05 R118, R123) ----------------------------------------------------------------------------

/-- An actor once a transfer of it has landed. -/
def Actor.received (a : Actor) (x : Xfer) : Actor :=
  let b : Actor := match x.dst with | some h => if (tileAt a h).state = TileState.filling then a.tileState h .ready else a | none => a
  (b.credits x.bars x.bytes).dropOut x.id
theorem State.landed_of_no_audit {s : State} {x : Xfer} (h : s.audits = []) : s.landed x = s.modActor x.actor fun a => a.received x := by
  have hlog : s.logFetched x = s := by simp [State.logFetched, h]
  simp only [State.landed, hlog, Actor.received, beq_iff_eq] <;> rfl
theorem exec_transferComplete {s : State} {x : Xfer} (h : s.xfer s.arg.n s.arg.m = some x) (hk : x.kind ≠ .fetch ∨ x.src = none) :
    exec .transferComplete s = .next (((s.delXfer s.arg.n s.arg.m).sideFree s.arg.n s.arg.m).landed x) := by
  have hid := State.id_of_xfer h
  show execTransferComplete s = _
  simp only [execTransferComplete, h, hid]
  split
  · next hf =>
    have hsrc : x.src = none := hk.resolve_left fun hne => hne (beq_iff_eq.1 hf)
    rw [hsrc]; rfl
  · rfl
theorem exec_transferComplete_absent {s : State} (h : s.xfer s.arg.n s.arg.m = none) : exec .transferComplete s = .next s := by
  show execTransferComplete s = _
  simp only [execTransferComplete, h]

-- A slot of a write (05 R113; 09 R206) --------------------------------------------------------------------------------

/-- The scratchpad key of the next byte that a slot of a write reads: of piece `p`, of which `x.data` has been read. -/
def writeKey (s : State) (x : Xfer) (p : Piece) : Nat := regionKey (s.actor x.actor) + x.soff + p.off + x.data.length
/-- How many bytes the slot reads. -/
def writeRoom (s : State) (x : Xfer) (p : Piece) : Nat := rowRoom (writeKey s x p) (p.len - x.data.length)
/-- What has been read of the piece after the slot. -/
def writeData (s : State) (x : Xfer) (p : Piece) : List Byte := x.data ++ s.bytes (writeKey s x p) (writeRoom s x p)

section
variable {s : State} {x : Xfer} {p : Piece} {r : List Piece} (c : Nat) (hp : x.pieces = p :: r)
include hp

theorem State.writeSlot_poisoned (hs : s.spoisoned (writeKey s x p) (writeRoom s x p) = true) :
    s.writeSlot c x = killActor s x.actor rPoison := by
  unfold writeKey writeRoom at hs
  simp only [State.writeSlot, hp]
  exact if_pos hs

variable (hs : s.spoisoned (writeKey s x p) (writeRoom s x p) = false)
include hs

theorem State.writeSlot_reads (hl : (writeData s x p).length < p.len) :
    s.writeSlot c x = (s.modXfer c x.id fun y => { y with data := writeData s x p }).goOn c x.id := by
  unfold writeKey writeRoom at hs
  simp only [State.writeSlot, hp]
  exact (if_neg (Bool.eq_false_iff.1 hs)).trans (if_pos hl)
theorem State.writeSlot_leaves {pa : Nat} (hl : p.len ≤ (writeData s x p).length) (hpa : p.pa = some pa) : s.writeSlot c x =
    let ps := writePkts c x.actor x.id pa (writeData s x p)
    let u := ps.foldl State.sendPkt (s.modXfer c x.id fun y => { y with left := y.left + ps.length, pieces := r, data := [] })
    if r.isEmpty then u.writeSent c x else u.goOn c x.id := by
  unfold writeKey writeRoom at hs
  simp only [State.writeSlot, hp, hpa]
  exact (if_neg (Bool.eq_false_iff.1 hs)).trans (if_neg (Nat.not_lt.2 hl))

end

-- A slot of a fetch ------------------------------------------------------------------------------------------------

theorem State.fetchSlot_leaves {s : State} {x : Xfer} {p : Piece} {r : List Piece} {pa : Nat} (c : Nat) (hp : x.todo = p :: r) (hpa : p.pa = some pa) :
    s.fetchSlot c x =
      let u := ((s.modXfer c x.id fun y => { y with todo := r }).modXfer c x.id fun y => { y with left := y.left + 1 }).sendPkt (readPkt c x.actor x.id p pa)
      if r.isEmpty then u else u.goOn c x.id := by
  simp only [State.fetchSlot, hp, hpa, State.fetchPiece]

-- A slot of a local copy (09 R205) -----------------------------------------------------------------------------------

theorem foldl_spoisWrite_eq {α : Type} (f : α → Nat × Nat × Bool) (l : List α) : ∀ t : State,
    ∃ sp, l.foldl (fun (t : State) e => t.spoisWrite (f e).1 (f e).2.1 (f e).2.2) t = { t with spois := sp } := by
  induction l with
  | nil => exact fun t => ⟨_, rfl⟩
  | cons e l ih =>
    intro t
    obtain ⟨_, h⟩ := ih (t.spoisWrite (f e).1 (f e).2.1 (f e).2.2)
    rw [State.spoisWrite_eq] at h
    rw [List.foldl_cons, State.spoisWrite_eq]
    exact ⟨_, h⟩
theorem State.copyUnit_eq (s : State) (src dst n : Nat) : ∃ sp, s.copyUnit src dst n = { s.put dst (s.bytes src n) with spois := sp } :=
  foldl_spoisWrite_eq (fun e : Bool × Nat × Nat => (dst + e.2.1, e.2.2, e.1)) _ _
/-- How many bytes the next unit of a copy has. -/
def copyRoom (x : Xfer) : Nat := min 128 (x.bytes - x.left)
/-- The state once the next unit of a copy has been read and written. -/
def State.copied (s : State) (c id : Nat) (x : Xfer) : State :=
  let key := regionKey (s.actor x.actor)
  (s.copyUnit (key + x.soff + x.left) (key + x.doff + x.left) (copyRoom x)).modXfer c id fun y => { y with left := x.left + copyRoom x }
theorem State.copied_eq (s : State) (c id : Nat) (x : Xfer) : ∃ sp, let key := regionKey (s.actor x.actor)
    s.copied c id x = ({ s.put (key + x.doff + x.left) (s.bytes (key + x.soff + x.left) (copyRoom x)) with spois := sp } : State).modXfer c id
      fun y => { y with left := x.left + copyRoom x } := by
  obtain ⟨sp, h⟩ := s.copyUnit_eq (regionKey (s.actor x.actor) + x.soff + x.left) (regionKey (s.actor x.actor) + x.doff + x.left) (copyRoom x)
  exact ⟨sp, congrArg (fun t : State => t.modXfer c id fun y => { y with left := x.left + copyRoom x }) h⟩
theorem State.copied_mem (s : State) (c id : Nat) (x : Xfer) : let key := regionKey (s.actor x.actor)
    (s.copied c id x).mem = Memory.write s.mem (key + x.doff + x.left) (s.bytes (key + x.soff + x.left) (copyRoom x)) := by
  obtain ⟨_, h⟩ := s.copied_eq c id x; rw [h]; rfl
theorem State.copied_cycle (s : State) (c id : Nat) (x : Xfer) : (s.copied c id x).cycle = s.cycle := by
  obtain ⟨_, h⟩ := s.copied_eq c id x; rw [h]; rfl
theorem State.copied_xfer {s : State} {c id : Nat} {x : Xfer} (h : s.xfer c id = some x) :
    (s.copied c id x).xfer c id = some { x with left := x.left + copyRoom x } := by
  obtain ⟨_, hc⟩ := s.copied_eq c id x
  rw [hc]
  exact State.xfer_modXfer (f := fun y => { y with left := x.left + copyRoom x }) (fun _ => rfl) h

-- A slot of a given tile (11 R263) -----------------------------------------------------------------------------------

/-- The scratchpad key of the next byte that a slot of a give reads. -/
def giveKey (s : State) (x : Xfer) : Nat := regionKey (s.actor x.actor) + x.soff + x.data.length
/-- What has been read of the tile after the slot. -/
def giveData (s : State) (x : Xfer) : List Byte := x.data ++ s.bytes (giveKey s x) (rowRoom (giveKey s x) (x.bytes - x.data.length))

-- An index tile (09 R203, R206) --------------------------------------------------------------------------------------

/-- The indices that a gather or scatter reads. -/
def indices (s : State) (x : Xfer) : List (Int × Bool) :=
  indexVals (intDesc 4 32 true) [s.readRow (regionKey (s.actor x.actor) + x.doff) x.k 32]
theorem takeWhile_of_poisoned {l : List (Int × Bool)} (h : l.head?.map (·.2) = some true) : l.takeWhile (fun e => !e.2) = [] := by
  cases l with
  | nil => rfl
  | cons e l =>
    have he : e.2 = true := by simpa using h
    simp [he]
theorem State.alive_modActor {s : State} {n : ActorName} {f : Actor → Actor} (hf : ∀ a, (f a).st = a.st) (m : ActorName) :
    (s.modActor n f).alive m = s.alive m := by
  unfold State.alive
  rw [State.has_modActor]
  cases hn : s.has n with
  | false => rw [State.modActor_of_not_has _ hn]
  | true =>
    by_cases hm : m = n
    · subst hm; rw [State.actor_modActor _ hn]; simp only [hf]
    · rw [State.actor_modActor_other _ _ hm]
theorem killActor_not_alive {s : State} {n : ActorName} (r : Reason) (h : killable (s.actor n)) : (killActor s n r).alive n = false := by
  obtain ⟨_, hk⟩ := killActor_self s n r h
  simp [State.alive, hk]
/-- A kill before anything more of an index tile ends the slot. -/
theorem ite_killed {u w : State} {n : ActorName} {r : Reason} {b : Bool} (hb : b = true) (ha : u.alive n = true)
    (hk : (killActor u n r).alive n = false) :
    (if (!(if (b && u.alive n) = true then killActor u n r else u).alive n) = true then (if (b && u.alive n) = true then killActor u n r else u) else w) =
      killActor u n r := by
  simp [hb, ha, hk]
/-- An index tile whose first index is poisoned kills before any row is looked up. -/
theorem State.readIndex_poisoned {s : State} {x : Xfer} (c : Nat) (hk : 0 < x.k) (hp : (indices s x).head?.map (·.2) = some true)
    (ha : s.alive x.actor = true) (hl : killable (s.actor x.actor)) :
    ∃ u os, s.readIndex c x = killActor u x.actor rPoison ∧ u.actor x.actor = { s.actor x.actor with name := x.actor, outs := os } := by
  have hgood := takeWhile_of_poisoned hp
  unfold indices at hgood
  unfold State.readIndex
  dsimp only
  simp only [hgood, List.mapIdx_nil, List.flatten_nil, List.map_nil, List.any_nil, Bool.and_false, Bool.false_eq_true, if_false, State.indexPieces]
  have hhas : s.has x.actor = true := (Bool.and_eq_true_iff.1 ha).1
  refine ⟨_, _, ite_killed (decide_eq_true hk) ?alive (killActor_not_alive _ ?killable), State.actor_modActor _ hhas⟩
  case alive =>
    refine Eq.trans (State.alive_modActor ?_ _) ha
    exact fun _ => rfl
  case killable =>
    show killable ((s.modActor x.actor _).actor x.actor)
    rw [State.actor_modActor _ hhas]
    exact hl

-- Slots of the copy engine -----------------------------------------------------------------------------------------

theorem exec_outboundReadDone_absent {s : State} (h : s.xfer s.arg.n s.arg.m = none) : exec .outboundReadDone s = .next s := by
  show execOutboundReadDone s = _
  simp only [execOutboundReadDone, h]

section
variable {s : State} {x : Xfer} (h : s.xfer s.arg.n s.arg.m = some x)
include h

theorem exec_outboundReadDone_dead (ha : s.alive x.actor = false) : exec .outboundReadDone s = .next s := by
  show execOutboundReadDone s = _
  simp only [execOutboundReadDone, h, ha, Bool.not_false, if_true]

variable (ha : s.alive x.actor = true)
include ha

/-- A write, or a scatter whose index has been read. -/
theorem exec_outboundReadDone_write (hk : x.kind = .write ∨ x.kind = .scatter ∧ x.toRead = 0) :
    exec .outboundReadDone s = .next (s.writeSlot s.arg.n x) := by
  show execOutboundReadDone s = _
  rcases hk with hk | ⟨hk, hr⟩
  · simp only [execOutboundReadDone, h, ha, hk, Bool.not_true, Bool.false_eq_true, if_false]
  · simp only [execOutboundReadDone, h, ha, hk, hr, Bool.not_true, Bool.false_eq_true, if_false, if_true]
/-- A fetch, or a gather whose index has been read. -/
theorem exec_outboundReadDone_fetch (hk : x.kind = .fetch ∨ x.kind = .gather ∧ x.toRead = 0) :
    exec .outboundReadDone s = .next (s.fetchSlot s.arg.n x) := by
  show execOutboundReadDone s = _
  rcases hk with hk | ⟨hk, hr⟩
  · simp only [execOutboundReadDone, h, ha, hk, Bool.not_true, Bool.false_eq_true, if_false]
  · simp only [execOutboundReadDone, h, ha, hk, hr, Bool.not_true, Bool.false_eq_true, if_false, if_true]
theorem exec_outboundReadDone_index (hk : x.kind = .gather ∨ x.kind = .scatter) (hr : x.toRead ≠ 0) :
    exec .outboundReadDone s = .next (s.readIndex s.arg.n x) := by
  show execOutboundReadDone s = _
  rcases hk with hk | hk <;> simp only [execOutboundReadDone, h, ha, hk, hr, Bool.not_true, Bool.false_eq_true, if_false]
theorem exec_outboundReadDone_contrib (hk : x.kind = .contrib) :
    exec .outboundReadDone s = .next ((s.sourceRead x.actor x.src).maybeDone s.arg.n s.arg.m) := by
  show execOutboundReadDone s = _
  simp only [execOutboundReadDone, h, ha, hk, Bool.not_true, Bool.false_eq_true, if_false, State.id_of_xfer h]

/-- A local copy: its next 128-byte unit (09 R205). -/
theorem exec_outboundReadDone_copy (hk : x.kind = .copy) : exec .outboundReadDone s = .next (
    let t := s.copied s.arg.n s.arg.m x
    if x.left + copyRoom x < x.bytes then t.post 0 .outboundReadDone { n := s.arg.n, m := s.arg.m }
    else (t.sourceRead x.actor x.src).post 0 .transferComplete { n := s.arg.n, m := s.arg.m }) := by
  show execOutboundReadDone s = _
  simp only [execOutboundReadDone, h, ha, hk, Bool.not_true, Bool.false_eq_true, if_false, State.id_of_xfer h]
  rfl
/-- A given tile with a poisoned sector in its next row: it kills before release. -/
theorem exec_outboundReadDone_give_poisoned (hk : x.kind = .give)
    (hs : s.spoisoned (giveKey s x) (rowRoom (giveKey s x) (x.bytes - x.data.length)) = true) :
    exec .outboundReadDone s = .next (killActor s x.actor rPoison) := by
  unfold giveKey at hs
  show execOutboundReadDone s = _
  simp only [execOutboundReadDone, h, ha, hk, Bool.not_true, Bool.false_eq_true, if_false]
  exact if_pos hs
/-- A given tile: its next row, which may be its last. -/
theorem exec_outboundReadDone_give (hk : x.kind = .give)
    (hs : s.spoisoned (giveKey s x) (rowRoom (giveKey s x) (x.bytes - x.data.length)) = false) : exec .outboundReadDone s = .next (
    if (giveData s x).length < x.bytes then
      (s.modXfer s.arg.n s.arg.m fun y => { y with data := giveData s x }).post 0 .outboundReadDone { n := s.arg.n, m := s.arg.m }
    else ((s.modXfer s.arg.n s.arg.m fun y => { y with data := giveData s x, toRead := 0 }).sourceRead x.actor x.src).modActor x.actor
      fun a => a.dropOut s.arg.m) := by
  unfold giveKey at hs
  show execOutboundReadDone s = _
  simp only [execOutboundReadDone, h, ha, hk, Bool.not_true, Bool.false_eq_true, if_false, State.id_of_xfer h]
  exact (if_neg (Bool.eq_false_iff.1 hs)).trans (apply_ite _ _ _ _).symm

end
end Sys2Proof.Machine
end

