-- ==== Sys2Proof/Proofs/RelayEvents.lean ====
section
/-! PROOFS. Relays and the tiles of messages (05 R128, R130; 10 R238): how a relay leaves its latch and reaches the next, and how a
message's tile reaches its zone. -/

namespace Sys2Proof.Machine

-- What travels, and an actor that may have become READY ------------------------------------------------------------

theorem State.travel_eq (s : State) (src dst n : Nat) (parts : List (List Byte)) (ev : Event) : ∃ i ag ws us,
    s.travel src dst n parts ev = { s with nextId := i, agenda := ag, wires := ws, ucie := us } := by
  unfold State.travel State.forwardWire
  dsimp only
  split <;> exact ⟨_, _, _, _, rfl⟩
theorem State.refresh_eq (s : State) (n : ActorName) : ∃ as, s.refresh n = { s with actors := as } := by
  unfold State.refresh
  dsimp only
  split <;> exact ⟨_, rfl⟩
theorem State.actor_setActor_of_name (s : State) {a : Actor} {n : ActorName} (h : a.name = n) : (s.setActor a).actor n = a :=
  h ▸ State.actor_setActor s a
/-- An actor that becomes READY keeps its mailbox. -/
theorem State.mbox_refresh (s : State) (n : ActorName) : ((s.refresh n).actor n).mbox = (s.actor n).mbox := by
  unfold State.refresh
  dsimp only
  split
  · rw [State.actor_setActor_of_name s rfl]
  · rfl

-- Cells all changed at once ----------------------------------------------------------------------------------------

theorem kvGet_map {α : Type} {d : α} {f : α → α} (hf : f d = d) (l : List (Nat × α)) (n : Nat) :
    kvGet d (l.map fun e => (e.1, f e.2)) n = f (kvGet d l n) := by
  induction l with
  | nil => exact hf.symm
  | cons e l ih =>
    simp only [List.map_cons, kvGet, ih]
    exact (apply_ite f _ _ _).symm
theorem State.xfer_eq_none_iff (s : State) (c id : Nat) : s.xfer c id = none ↔ id ∉ (s.cell c).xfers.map (·.id) := by
  simp [State.xfer]
/-- Every listed cell changed. -/
def State.mapCells (s : State) (f : Cell → Cell) : State := { s with cells := s.cells.map fun e => (e.1, f e.2) }
theorem State.cell_mapCells (s : State) {f : Cell → Cell} (hf : f {} = {}) (k : Nat) : (s.mapCells f).cell k = f (s.cell k) :=
  kvGet_map hf s.cells k
/-- A change of the cells that keeps the transfers' numbers brings no transfer back. -/
theorem State.xfer_mapCells_none {s : State} {f : Cell → Cell} (hf : ∀ e, (f e).xfers.map (·.id) = e.xfers.map (·.id)) {c id : Nat}
    (h : s.xfer c id = none) : (s.mapCells f).xfer c id = none := by
  rw [State.xfer_eq_none_iff] at h ⊢
  have hids : (kvGet {} (s.cells.map fun e => (e.1, f e.2)) c).xfers.map (·.id) = (s.cell c).xfers.map (·.id) :=
    kvGet_mapAll (fun e : Cell => e.xfers.map (·.id)) f hf {} s.cells c
  exact hids ▸ h

-- The B latch (05 R130) --------------------------------------------------------------------------------------------

@[simp] theorem Cell.promote_xfers (e : Cell) : e.promote.xfers = e.xfers := by unfold Cell.promote; split <;> rfl
@[simp] theorem Cell.promote_munit (e : Cell) : e.promote.munit = e.munit := by unfold Cell.promote; split <;> rfl
@[simp] theorem Cell.leaveLatch_xfers (e : Cell) (n : ActorName) : (e.leaveLatch n).xfers = e.xfers := by
  unfold Cell.leaveLatch
  split
  · exact Cell.promote_xfers _
  · rfl
theorem Cell.clearRelay_ids (e : Cell) (id : Nat) : (e.clearRelay id).xfers.map (·.id) = e.xfers.map (·.id) := by
  have hmap : ∀ l : List Xfer, (l.map fun (x : Xfer) => if x.id == id && x.kind == .relay then { x with k := 1 } else x).map (·.id) = l.map (·.id) := by
    intro l
    rw [List.map_map]
    exact List.map_congr_left fun x _ => by dsimp only [Function.comp]; split <;> rfl
  unfold Cell.clearRelay
  dsimp only
  split <;> split <;> simp only [Cell.promote_xfers, hmap]
/-- The buffer of a cell that a relay fills. -/
def Cell.relayPut (e : Cell) (x : Xfer) : Cell :=
  if e.lbInSrc == x.id then ({ e with lbNext := { x.latch with loaded := true } } : Cell).promote else e
theorem Cell.relayPut_xfers (e : Cell) (x : Xfer) : (e.relayPut x).xfers = e.xfers := by
  unfold Cell.relayPut
  split
  · exact Cell.promote_xfers _
  · rfl
/-- A cell not listed awaits no relay. -/
theorem Cell.relayPut_default {x : Xfer} (h : x.id ≠ 0) : ({} : Cell).relayPut x = {} := if_neg fun h0 => h (beq_iff_eq.1 h0).symm

-- RELAY_SEND (05 R130) ---------------------------------------------------------------------------------------------

/-- A relay gone from its latch. -/
def State.relayLeft (s : State) (c : Nat) (x : Xfer) : State :=
  ((s.modXfer c x.id fun y => { y with toRead := 0 }).modCell c fun e => e.leaveLatch x.actor).modActor x.actor fun a => a.dropOut x.id
/-- The matrix unit of a cell still reads `lb` for an actor. -/
def Cell.readsLatchFor (e : Cell) (n : ActorName) : Bool := match e.munit with | some j => j.readsLb && j.actor == n | none => false

theorem exec_relaySend_absent {s : State} (h : s.xfer s.arg.n s.arg.m = none) : exec .relaySend s = .next s := by
  show execRelaySend s = _
  simp only [execRelaySend, h]

section
variable {s : State} {x : Xfer} (h : s.xfer s.arg.n s.arg.m = some x)
include h

theorem exec_relaySend_eq : exec .relaySend s =
    if (decide (x.toRead = 0) || (s.cell s.arg.n).readsLatchFor x.actor) = true then .next s
    else if (!s.alive x.dest) = true then .next ((s.relayLeft s.arg.n x).delXfer s.arg.n x.id)
    else if ((s.actor x.dest).st == .transit) = true then .next { s with held := s.held ++ [⟨x.dest, ⟨.relaySend, s.arg⟩⟩] }
    else if ((s.actor x.dest).st == .parked || (s.cell (s.actor x.dest).cell).lbIn != 0) = true then .next (s.post 1 .relaySend s.arg)
    else .next (((s.modCell (s.actor x.dest).cell fun e => { e with lbIn := x.dest, lbInSrc := x.id }).relayLeft s.arg.n x).travel s.arg.n
      (s.actor x.dest).cell s.arg.n (tileParts x.latch.bytes) ⟨.relayArrival, { n := s.arg.n, m := x.id }⟩) := by
  show execRelaySend s = _
  simp only [execRelaySend, h]
  rfl
theorem exec_relaySend_waits (hr : x.toRead = 0 ∨ (s.cell s.arg.n).readsLatchFor x.actor = true) : exec .relaySend s = .next s := by
  rw [exec_relaySend_eq h]
  exact if_pos (by simpa using hr)

variable (ht : x.toRead ≠ 0) (hl : (s.cell s.arg.n).readsLatchFor x.actor = false)
include ht hl

theorem exec_relaySend_dead (ha : s.alive x.dest = false) :
    exec .relaySend s = .next ((s.relayLeft s.arg.n x).delXfer s.arg.n x.id) := by
  simp [exec_relaySend_eq h, ht, hl, ha]

variable (ha : s.alive x.dest = true)
include ha

theorem exec_relaySend_transit (hd : (s.actor x.dest).st = .transit) :
    exec .relaySend s = .next { s with held := s.held ++ [⟨x.dest, ⟨.relaySend, s.arg⟩⟩] } := by
  simp [exec_relaySend_eq h, ht, hl, ha, hd]
theorem exec_relaySend_held (hd : (s.actor x.dest).st = .parked ∨ (s.actor x.dest).st ≠ .transit ∧ (s.cell (s.actor x.dest).cell).lbIn ≠ 0) :
    exec .relaySend s = .next (s.post 1 .relaySend s.arg) := by
  rcases hd with hd | ⟨hd, hb⟩
  · simp [exec_relaySend_eq h, ht, hl, ha, hd]
  · have hfull : ¬(s.cell (s.actor x.dest).cell).lbIn = 0#64 := hb
    simp [exec_relaySend_eq h, ht, hl, ha, hd, hfull]
theorem exec_relaySend_leaves (hd : (s.actor x.dest).st ≠ .transit) (hp : (s.actor x.dest).st ≠ .parked)
    (hb : (s.cell (s.actor x.dest).cell).lbIn = 0) : ∃ i ag ws us, exec .relaySend s = .next
      { (s.modCell (s.actor x.dest).cell fun e => { e with lbIn := x.dest, lbInSrc := x.id }).relayLeft s.arg.n x with
        nextId := i, agenda := ag, wires := ws, ucie := us } := by
  obtain ⟨i, ag, ws, us, htr⟩ := ((s.modCell (s.actor x.dest).cell fun e => { e with lbIn := x.dest, lbInSrc := x.id }).relayLeft s.arg.n x).travel_eq
    s.arg.n (s.actor x.dest).cell s.arg.n (tileParts x.latch.bytes) ⟨.relayArrival, { n := s.arg.n, m := x.id }⟩
  refine ⟨i, ag, ws, us, ?_⟩
  rw [← htr]
  simp [exec_relaySend_eq h, ht, hl, ha, hd, hp, hb]

end

theorem State.relayLeft_cells (s : State) (c : Nat) (x : Xfer) : (s.relayLeft c x).cells =
    ((s.modXfer c x.id fun y => { y with toRead := 0 }).modCell c fun e => e.leaveLatch x.actor).cells := State.modActor_cells _ _ _
theorem State.relayLeft_mem (s : State) (c : Nat) (x : Xfer) : (s.relayLeft c x).mem = s.mem := State.modActor_mem _ _ _
theorem State.xfer_relayLeft {s : State} {c id : Nat} {x : Xfer} (h : s.xfer c id = some x) :
    (s.relayLeft c x).xfer c id = some { x with toRead := 0 } := by
  obtain rfl := State.id_of_xfer h
  rw [State.xfer_of_cells_eq (s.relayLeft_cells c x), State.xfer_modCell fun e => e.leaveLatch_xfers x.actor]
  exact State.xfer_modXfer (f := fun y => { y with toRead := 0 }) (fun _ => rfl) h
theorem State.cell_relayLeft_other (s : State) {c k : Nat} (x : Xfer) (h : k ≠ c) : (s.relayLeft c x).cell k = s.cell k := by
  rw [State.cell, s.relayLeft_cells c x]
  exact (State.cell_modCell_other _ _ _ _ h).trans (State.cell_modCell_other _ _ _ _ h)

-- RELAY_ARRIVAL (05 R130; 10 R238) ---------------------------------------------------------------------------------

theorem exec_relayArrival_absent {s : State} (h : s.xfer s.arg.n s.arg.m = none) : exec .relayArrival s = .next s := by
  show execRelayArrival s = _
  simp only [execRelayArrival, h]
/-- A relay that has arrived is in its buffer, unless its message will never come. -/
def State.relayArrived (s : State) (c : Nat) (x : Xfer) : State :=
  let t := (s.delXfer c x.id).mapCells fun e => e.relayPut x
  if x.k = 1 || !s.alive x.dest then t.clearRelay x.id else t
theorem exec_relayArrival {s : State} {x : Xfer} (h : s.xfer s.arg.n s.arg.m = some x) :
    exec .relayArrival s = .next ((s.relayArrived s.arg.n x).refresh x.dest) := by
  have hput : ∀ t : State, (t.cells.map fun e => if (e.2.lbInSrc == x.id) = true then
      (e.1, ({ e.2 with lbNext := { x.latch with loaded := true } } : Cell).promote) else e) = t.cells.map fun e => (e.1, e.2.relayPut x) :=
    fun t => List.map_congr_left fun e _ => by unfold Cell.relayPut; split <;> rfl
  show execRelayArrival s = _
  simp only [execRelayArrival, h, hput]
  rfl
theorem State.relayArrived_mem (s : State) (c : Nat) (x : Xfer) : (s.relayArrived c x).mem = s.mem := by
  unfold State.relayArrived
  dsimp only
  split <;> rfl
theorem State.xfer_relayArrived (s : State) (c : Nat) (x : Xfer) : (s.relayArrived c x).xfer c x.id = none := by
  have hput : ((s.delXfer c x.id).mapCells fun e => e.relayPut x).xfer c x.id = none :=
    State.xfer_mapCells_none (fun e => congrArg _ (e.relayPut_xfers x)) (State.xfer_delXfer s c x.id)
  unfold State.relayArrived
  dsimp only
  split
  · exact State.xfer_mapCells_none (f := fun e => e.clearRelay x.id) (fun e => e.clearRelay_ids x.id) hput
  · exact hput
theorem State.cell_relayArrived {s : State} {c k : Nat} {x : Xfer} (hk : k ≠ c) (hid : x.id ≠ 0) (hx : x.k ≠ 1) (ha : s.alive x.dest = true)
    (hs : (s.cell k).lbInSrc = x.id) :
    (s.relayArrived c x).cell k = ({ s.cell k with lbNext := { x.latch with loaded := true } } : Cell).promote := by
  have hcell : (s.delXfer c x.id).cell k = s.cell k := State.cell_modCell_other _ _ _ _ hk
  have hstay : s.relayArrived c x = (s.delXfer c x.id).mapCells fun e => e.relayPut x := by simp [State.relayArrived, hx, ha]
  rw [hstay, State.cell_mapCells (f := fun e => e.relayPut x) _ (Cell.relayPut_default hid), hcell]
  exact if_pos (beq_iff_eq.2 hs)

-- TILE_LANDED (05 R128) --------------------------------------------------------------------------------------------

theorem State.endXfers_eq (ids : List Nat) : ∀ s : State, ∃ cs, s.endXfers ids = { s with cells := cs } := by
  induction ids with
  | nil => exact fun s => ⟨_, rfl⟩
  | cons id ids ih =>
    intro s
    by_cases h : id = 0
    · obtain ⟨cs, hcs⟩ := ih s
      exact ⟨cs, by rw [← hcs]; simp [State.endXfers, h]⟩
    · obtain ⟨cs, hcs⟩ := ih { s with cells := s.cells.map fun e => (e.1, { e.2 with xfers := e.2.xfers.filterMap (Xfer.copyEnds id) }) }
      refine ⟨cs, ?_⟩
      rw [← hcs.trans rfl]
      simp [State.endXfers, h]

section
variable {s : State}

theorem exec_tileLanded_dead (h : s.alive s.arg.actor = false) : exec .tileLanded s = .next (s.endXfers s.arg.xids) := by
  obtain ⟨_, hcs⟩ := State.endXfers_eq s.arg.xids s
  have hstill : (s.endXfers s.arg.xids).alive s.arg.actor = false := by rw [hcs]; exact h
  show execTileLanded s = _
  simp only [execTileLanded, h, hstill, Bool.false_and, Bool.false_eq_true, if_false, Bool.not_false, if_true]
variable (ha : s.alive s.arg.actor = true)
include ha
theorem exec_tileLanded_transit (ht : (s.actor s.arg.actor).st = .transit) :
    exec .tileLanded s = .next { s with held := s.held ++ [⟨s.arg.actor, ⟨.tileLanded, s.arg⟩⟩] } := by
  show execTileLanded s = _
  simp [execTileLanded, ha, ht]

/-- The mailbox of a receiver once the bytes `bs` of zone `z` have landed for the message with arrival number `arr`. -/
def landedMail (mbox : List Mail) (arr z : Nat) (bs : List Byte) : List Mail :=
  mbox.map fun x => if x.arr == arr then { x with wait := x.wait.filter (· != z), spill := x.spill.map fun y => if y.1 == z then (y.1, bs) else y } else x

theorem exec_tileLanded {m : Mail} {bs : List Byte} (ht : (s.actor s.arg.actor).st ≠ .transit)
    (hm : ((s.actor s.arg.actor).mbox.find? fun x => x.msg.sender == s.arg.other && x.msg.seq == s.arg.n) = some m)
    (hs : m.spill = []) (hb : s.arg.tiles = [bs]) :
    let a := s.actor s.arg.actor
    let k := regionKey a + (a.zones.getD s.arg.m {}).off
    exec .tileLanded s = .next ((((((s.endXfers s.arg.xids).setActor { a with mbox := landedMail a.mbox m.arr s.arg.m bs }).put k bs).spoisWrite
      k bs.length false)).refresh s.arg.actor) := by
  obtain ⟨_, hcs⟩ := State.endXfers_eq s.arg.xids s
  have hstill : (s.endXfers s.arg.xids).alive s.arg.actor = true := by rw [hcs]; exact ha
  have hst : ((s.actor s.arg.actor).st == .transit) = false := beq_false_of_ne ht
  show execTileLanded s = _
  simp only [execTileLanded, ha, hst, hstill, hm, hs, hb, Bool.and_false, Bool.not_true, Bool.false_eq_true, if_false, List.any_nil, List.headD_cons]
  rfl

end

end Sys2Proof.Machine
end

