-- ==== Sys2Proof/Proofs/UnitEvents.lean ====
section
/-! PROOFS. Multicasts and the two units (05 R119, R129; 10 R231, R232, R244, R248): what a bus takes up, and what a unit leaves once its
instruction completes. -/

namespace Sys2Proof.Machine

-- MCAST_BUS_SERVE (05 R129) ----------------------------------------------------------------------------------------

/-- A transfer that waits for bus `b`. -/
def Xfer.waitsBus (b : Nat) (x : Xfer) : Bool := x.kind == .mcast && x.bus == some b && x.toRead != 0
/-- The cells with a transfer that waits for bus `b`. -/
def State.busCells (s : State) (b : Nat) : List Nat := (s.cells.filter fun e => e.2.xfers.any (Xfer.waitsBus b)).map (·.1)
/-- The cell that bus `b` serves next. -/
def State.busNext (s : State) (b : Nat) : Option Nat := minBy (fun c => (busPlace c b + 16 - kvGet 15 s.buses b - 1) % 16) (s.busCells b)
/-- The scratchpad key of a transfer's source. -/
def sourceKey (s : State) (x : Xfer) : Nat := regionKey (s.actor x.actor) + x.soff
/-- A transfer of cell `c` taken up by its bus: its source is read; without a receiver it is over. -/
def State.busTaken (s : State) (c : Nat) (x : Xfer) : State :=
  if x.left = 0 then s.delXfer c x.id else s.modXfer c x.id fun y => { y with data := s.bytes (sourceKey s x) x.bytes, toRead := 0 }

theorem State.busTaken_eq (s : State) (c : Nat) (x : Xfer) : ∃ cs, s.busTaken c x = { s with cells := cs } := by
  unfold State.busTaken
  split <;> exact ⟨_, rfl⟩
theorem State.xfer_busTaken (s : State) (c : Nat) (x : Xfer) : (s.busTaken c x).xfer c x.id =
    if x.left = 0 then none else (s.xfer c x.id).map fun y => { y with data := s.bytes (sourceKey s x) x.bytes, toRead := 0 } := by
  unfold State.busTaken
  split
  · exact State.xfer_delXfer s c x.id
  · exact State.map_xfer_modXfer (f := fun y => { y with data := s.bytes (sourceKey s x) x.bytes, toRead := 0 }) fun _ => rfl

section
variable {s : State}

theorem exec_mcastBusServe_idle (h : s.busCells s.arg.n = []) : exec .mcastBusServe s = .next s := by
  have hnone : s.busNext s.arg.n = none := by rw [State.busNext, h]; rfl
  unfold State.busNext State.busCells Xfer.waitsBus at hnone
  show execMcastBusServe s = _
  simp only [execMcastBusServe, hnone]

variable {b : Nat} {x : Xfer} (hb : s.busNext s.arg.n = some b) (hx : (s.cell b).xfers.find? (Xfer.waitsBus s.arg.n) = some x)
include hb hx

theorem exec_mcastBusServe_eq : exec .mcastBusServe s =
    let t : State := { s with buses := kvSet s.buses s.arg.n (busPlace b s.arg.n) }
    if s.spoisoned (sourceKey s x) x.bytes = true then .next (killActor t x.actor rPoison)
    else .next (((t.busTaken b x).sourceRead x.actor x.src).modActor x.actor fun a => a.dropOut x.id) := by
  unfold State.busNext State.busCells Xfer.waitsBus at hb
  unfold Xfer.waitsBus at hx
  show execMcastBusServe s = _
  simp only [execMcastBusServe, hb, hx]
  rfl
theorem exec_mcastBusServe_poisoned (hp : s.spoisoned (sourceKey s x) x.bytes = true) :
    exec .mcastBusServe s = .next (killActor { s with buses := kvSet s.buses s.arg.n (busPlace b s.arg.n) } x.actor rPoison) :=
  (exec_mcastBusServe_eq hb hx).trans (if_pos hp)
theorem exec_mcastBusServe_reads (hp : s.spoisoned (sourceKey s x) x.bytes = false) : ∃ as, exec .mcastBusServe s = .next
    { State.busTaken { s with buses := kvSet s.buses s.arg.n (busPlace b s.arg.n) } b x with actors := as } := by
  obtain ⟨as, hread⟩ := (State.busTaken { s with buses := kvSet s.buses s.arg.n (busPlace b s.arg.n) } b x).sourceRead_modActor_eq
    x.actor x.actor x.src fun a => a.dropOut x.id
  exact ⟨as, ((exec_mcastBusServe_eq hb hx).trans (if_neg (Bool.eq_false_iff.1 hp))).trans (congrArg _ hread)⟩

end

-- A unit's writes (05 R119; 10 R232) -------------------------------------------------------------------------------

/-- An actor whose destinations `hs` are READY. -/
def Actor.readied (a : Actor) (hs : List Nat) : Actor :=
  hs.foldl (fun b h => if (tileAt b h).state == .filling then b.tileState h .ready else b) a
theorem Actor.tilesMoved_readied (a : Actor) (hs : List Nat) : a.TilesMoved (a.readied hs) :=
  .foldl (fun b h => by split; exacts [b.tilesMoved_setTile h _, .refl b]) hs a
theorem Actor.readied_filling {a : Actor} {h : Nat} (hf : (tileAt a h).state = .filling) : a.readied [h] = a.tileState h .ready :=
  if_pos (beq_iff_eq.2 hf)

/-- The state once a unit's writes have landed, before its destinations are READY. -/
def State.unitMem (s : State) (j : UnitJob) : State :=
  { s with mem := Memory.writes s.mem j.writes, spois := j.pset.foldl insNat (s.spois.filter fun k => !j.pclr.contains k) }
theorem State.unitWrites_dead {s : State} {j : UnitJob} (h : s.alive j.actor = false) : s.unitWrites j = s.unitMem j := by
  unfold State.unitWrites
  rw [foldl_put_eq]
  exact if_neg (Bool.eq_false_iff.1 h)
theorem State.unitWrites_alive {s : State} {j : UnitJob} (h : s.alive j.actor = true) :
    s.unitWrites j = (s.unitMem j).modActor j.actor fun a => a.readied j.ready := by
  unfold State.unitWrites
  rw [foldl_put_eq]
  exact if_pos h
theorem State.unitWrites_eq (s : State) (j : UnitJob) : ∃ as, s.unitWrites j = { s.unitMem j with actors := as } := by
  cases h : s.alive j.actor with
  | false => exact ⟨_, State.unitWrites_dead h⟩
  | true => exact State.unitWrites_alive h ▸ State.modActor_eq _ _ _
theorem State.actor_unitWrites {s : State} {j : UnitJob} {h : Nat} (ha : s.alive j.actor = true) (hr : j.ready = [h])
    (hf : (tileAt (s.actor j.actor) h).state = .filling) :
    (s.unitWrites j).actor j.actor = { (s.actor j.actor).tileState h .ready with name := j.actor } := by
  have hhas : (s.unitMem j).has j.actor = true := (Bool.and_eq_true_iff.1 ha).1
  rw [State.unitWrites_alive ha, State.actor_modActor _ hhas, hr]
  exact congrArg (fun a : Actor => { a with name := j.actor }) (Actor.readied_filling hf)
/-- A unit's writes end no invocation. -/
theorem State.isOver_unitWrites (s : State) (j : UnitJob) (b : ActorName × Nat) : (s.unitWrites j).isOver b = s.isOver b := by
  cases h : s.alive j.actor with
  | false => rw [State.unitWrites_dead h]; rfl
  | true =>
    have hhas : (s.unitMem j).has j.actor = true := (Bool.and_eq_true_iff.1 h).1
    rw [State.unitWrites_alive h]
    unfold State.isOver
    rw [State.has_modActor]
    by_cases hb : b.1 = j.actor
    · obtain ⟨_, _, _, hready⟩ := ((s.unitMem j).actor b.1).tilesMoved_readied j.ready
      rw [hb] at hready ⊢
      rw [State.actor_modActor _ hhas, hready]
      rfl
    · rw [State.actor_modActor_other _ _ hb]
      rfl

-- VECTOR_COMPLETE and MATRIX_COMPLETE (10 R231, R244, R248) --------------------------------------------------------

@[simp] theorem Cell.unbind_munit (e : Cell) (b : ActorName × Nat) : (e.unbind b).munit = e.munit := by
  unfold Cell.unbind
  dsimp only
  split <;> split <;> simp only [Cell.promote_munit]
/-- A cell whose matrix unit has completed job `j`. -/
def Cell.matrixFree (e : Cell) (j : UnitJob) : Cell :=
  { e with munit := none, accs := e.accs.mapIdx fun k a => if j.accs.contains k then { a with busy := false } else a }
theorem State.unbindIfOver_eq (s : State) (c : Nat) (b : ActorName × Nat) : ∃ cs, s.unbindIfOver c b = { s with cells := cs } := by
  unfold State.unbindIfOver
  dsimp only
  split <;> split <;> exact ⟨_, rfl⟩
theorem State.munit_unbindIfOver (s : State) (c : Nat) (b : ActorName × Nat) : ((s.unbindIfOver c b).cell c).munit = (s.cell c).munit := by
  unfold State.unbindIfOver
  dsimp only
  split <;> split <;> simp only [State.cell_modCell, Cell.unbind_munit]
theorem State.unbindIfOver_of_not_over {s : State} {b : ActorName × Nat} (c : Nat) (h : s.isOver b = false) : s.unbindIfOver c b = s := by
  simp [State.unbindIfOver, h]

section
variable {s : State}

theorem exec_vectorComplete_idle (h : (s.cell s.arg.n).vunit = none) : exec .vectorComplete s = .next s := by
  show execVectorComplete s = _
  simp only [execVectorComplete, h]
theorem exec_vectorComplete {j : UnitJob} (h : (s.cell s.arg.n).vunit = some j) :
    exec .vectorComplete s = .next ((s.unitWrites j).modCell s.arg.n fun e => { e with vunit := none }) := by
  show execVectorComplete s = _
  simp only [execVectorComplete, h]
theorem exec_matrixComplete_idle (h : (s.cell s.arg.n).munit = none) : exec .matrixComplete s = .next s := by
  show execMatrixComplete s = _
  simp only [execMatrixComplete, h]
/-- What the matrix unit leaves of a job, besides the relays that then try to leave. -/
def State.matrixDone (s : State) (j : UnitJob) : State :=
  ((s.unitWrites j).modCell s.arg.n fun e => e.matrixFree j).unbindIfOver s.arg.n (j.actor, j.inv)
theorem exec_matrixComplete {j : UnitJob} (h : (s.cell s.arg.n).munit = some j) :
    ∃ ag, exec .matrixComplete s = .next { s.matrixDone j with agenda := ag } := by
  have hposts : ∀ (l : List Xfer) (t : State), ∃ ag, l.foldl (fun (t : State) x =>
      if x.kind == .relay then t.post 0 .relaySend { n := s.arg.n, m := x.id } else t) t = { t with agenda := ag } := by
    intro l
    induction l with
    | nil => exact fun t => ⟨_, rfl⟩
    | cons x l ih =>
      intro t
      rw [List.foldl_cons]
      split
      · exact ih (t.post 0 .relaySend { n := s.arg.n, m := x.id })
      · exact ih t
  obtain ⟨ag, hag⟩ := hposts ((s.matrixDone j).cell s.arg.n).xfers (s.matrixDone j)
  refine ⟨ag, ?_⟩
  rw [← hag]
  show execMatrixComplete s = _
  simp only [execMatrixComplete, h]
  rfl
theorem State.matrixDone_eq (s : State) (j : UnitJob) : ∃ cs, s.matrixDone j = { s.unitWrites j with cells := cs } :=
  State.unbindIfOver_eq _ _ _
theorem State.munit_matrixDone (s : State) (j : UnitJob) : ((s.matrixDone j).cell s.arg.n).munit = none := by
  rw [State.matrixDone, State.munit_unbindIfOver, State.cell_modCell]
  rfl
theorem State.accs_matrixDone {j : UnitJob} (h : s.isOver (j.actor, j.inv) = false) : ((s.matrixDone j).cell s.arg.n).accs =
    (s.cell s.arg.n).accs.mapIdx fun k a => if j.accs.contains k then { a with busy := false } else a := by
  obtain ⟨as, hw⟩ := s.unitWrites_eq j
  have hover : ((s.unitWrites j).modCell s.arg.n fun e => e.matrixFree j).isOver (j.actor, j.inv) = false := (s.isOver_unitWrites j _).trans h
  rw [State.matrixDone, State.unbindIfOver_of_not_over _ hover, State.cell_modCell, hw]
  rfl

end

end Sys2Proof.Machine
end

