-- ==== Sys2Proof/Proofs/TransferOutcomes.lean ====
section
/-! PROOFS. What each event of a transfer comes to: its bytes, its state and what then is due (05 R113, R114, R118, R123, R128, R130; 09
R205, R206; 11 R263). -/

namespace Sys2Proof.Machine

-- TRANSFER_COMPLETE (05 R118, R123) --------------------------------------------------------------------------------

theorem State.xfer_sideFree (s : State) (k c id : Nat) : (s.sideFree k id).xfer c id = s.xfer c id :=
  State.xfer_modCell (f := fun e => { e with side := e.side.filter fun e => e.id != id }) (fun _ => rfl) c id
theorem State.side_sideFree {s : State} {c id : Nat} {y : SideEnt} (h : y ∈ ((s.sideFree c id).cell c).side) : y.id ≠ id := by
  rw [State.sideFree, State.cell_modCell] at h
  exact bne_iff_ne.1 (List.mem_filter.1 h).2
theorem transferComplete_lands {s : State} {x : Xfer} (hx : s.xfer s.arg.n s.arg.m = some x) (haud : s.audits = [])
    (hhas : s.has x.actor = true) (hk : x.kind ≠ .fetch ∨ x.src = none) :
    Happens s .transferComplete fun t => t.xfer s.arg.n s.arg.m = none ∧ t.mem = s.mem ∧ (∀ y ∈ (t.cell s.arg.n).side, y.id ≠ s.arg.m) ∧
      t.actor x.actor = { (s.actor x.actor).received x with name := x.actor } := by
  obtain ⟨t, ht⟩ : ∃ t, t = (s.delXfer s.arg.n s.arg.m).sideFree s.arg.n s.arg.m := ⟨_, rfl⟩
  have hnone : t.xfer s.arg.n s.arg.m = none := by rw [ht, State.xfer_sideFree, State.xfer_delXfer]
  have hcells := t.modActor_cells x.actor fun a => a.received x
  have hexec := exec_transferComplete hx hk
  rw [← ht, State.landed_of_no_audit (by rw [ht]; exact haud)] at hexec
  refine ⟨_, hexec, (State.xfer_of_cells_eq hcells _ _).trans hnone, (t.modActor_mem _ _).trans (by rw [ht]; rfl), fun y hy => ?_, ?_⟩
  · rw [State.cell, hcells, ht] at hy
    exact State.side_sideFree hy
  · rw [State.actor_modActor _ (by rw [ht]; exact hhas), ht]
    rfl

-- OUTBOUND_READ_DONE (05 R113, R114; 09 R205, R206; 11 R263) -------------------------------------------------------

section
variable {s : State} {x : Xfer} (hx : s.xfer s.arg.n s.arg.m = some x) (ha : s.alive x.actor = true)
include hx ha

theorem outboundReadDone_write_reads {p : Piece} {r : List Piece} (hk : x.kind = .write ∨ x.kind = .scatter ∧ x.toRead = 0) (hp : x.pieces = p :: r)
    (hs : s.spoisoned (writeKey s x p) (writeRoom s x p) = false) (hl : (writeData s x p).length < p.len) :
    Happens s .outboundReadDone fun t => t.mem = s.mem ∧ t.xfer s.arg.n s.arg.m = some { x with data := writeData s x p } ∧
      Awaits s t 0 .outboundReadDone { n := s.arg.n, m := s.arg.m } := by
  have hslot := (exec_outboundReadDone_write hx ha hk).trans (congrArg _ (State.writeSlot_reads _ hp hs hl))
  rw [State.id_of_xfer hx] at hslot
  exact ⟨_, hslot, rfl, State.xfer_modXfer (f := fun y => { y with data := writeData s x p }) (fun _ => rfl) hx, awaits_post rfl _ _ _⟩
theorem exec_outboundReadDone_write_leaves {p : Piece} {r : List Piece} {pa : Nat} (hk : x.kind = .write ∨ x.kind = .scatter ∧ x.toRead = 0)
    (hp : x.pieces = p :: r) (hs : s.spoisoned (writeKey s x p) (writeRoom s x p) = false) (hl : p.len ≤ (writeData s x p).length)
    (hpa : p.pa = some pa) : exec .outboundReadDone s = .next (
      let ps := writePkts s.arg.n x.actor s.arg.m pa (writeData s x p)
      let u := ps.foldl State.sendPkt (s.modXfer s.arg.n s.arg.m fun y => { y with left := y.left + ps.length, pieces := r, data := [] })
      if r.isEmpty then u.writeSent s.arg.n x else u.goOn s.arg.n s.arg.m) := by
  have hslot := (exec_outboundReadDone_write hx ha hk).trans (congrArg _ (State.writeSlot_leaves _ hp hs hl hpa))
  rw [State.id_of_xfer hx] at hslot
  exact hslot
theorem exec_outboundReadDone_fetch_leaves {p : Piece} {r : List Piece} {pa : Nat} (hk : x.kind = .fetch ∨ x.kind = .gather ∧ x.toRead = 0)
    (hp : x.todo = p :: r) (hpa : p.pa = some pa) : exec .outboundReadDone s = .next (
      let u := ((s.modXfer s.arg.n s.arg.m fun y => { y with todo := r }).modXfer s.arg.n s.arg.m fun y => { y with left := y.left + 1 }).sendPkt
        (readPkt s.arg.n x.actor s.arg.m p pa)
      if r.isEmpty then u else u.goOn s.arg.n s.arg.m) := by
  have hslot := (exec_outboundReadDone_fetch hx ha hk).trans (congrArg _ (State.fetchSlot_leaves _ hp hpa))
  rw [State.id_of_xfer hx] at hslot
  exact hslot
theorem outboundReadDone_index_poisoned (hk : x.kind = .gather ∨ x.kind = .scatter) (hr : x.toRead ≠ 0) (h0 : 0 < x.k)
    (hp : (indices s x).head?.map (·.2) = some true) (hl : killable (s.actor x.actor)) :
    Happens s .outboundReadDone fun t => (t.actor x.actor).st = .dying ∧ (t.actor x.actor).debt = some rPoison := by
  obtain ⟨u, os, hslot, hact⟩ := State.readIndex_poisoned s.arg.n h0 hp ha hl
  obtain ⟨k, hkill⟩ := killActor_self u x.actor rPoison (by rw [hact]; exact hl)
  refine ⟨_, (exec_outboundReadDone_index hx ha hk hr).trans (congrArg _ hslot), ?_, ?_⟩ <;> rw [hkill]
theorem outboundReadDone_copy (hk : x.kind = .copy) (hw : Memory.wf s.mem = true) : Happens s .outboundReadDone fun t =>
    let src := regionKey (s.actor x.actor) + x.soff + x.left
    let dst := regionKey (s.actor x.actor) + x.doff + x.left
    let n := copyRoom x
    t.bytes dst n = s.bytes src n ∧ (∀ k m, k + m ≤ dst ∨ dst + n ≤ k → t.bytes k m = s.bytes k m) ∧
      t.xfer s.arg.n s.arg.m = some { x with left := x.left + n } ∧
      if x.left + n < x.bytes then Awaits s t 0 .outboundReadDone { n := s.arg.n, m := s.arg.m }
      else Awaits s t 0 .transferComplete { n := s.arg.n, m := s.arg.m } := by
  have hunit := exec_outboundReadDone_copy hx ha hk
  have hbytes := State.bytes_of_write hw (s.copied_mem s.arg.n s.arg.m x)
  rw [State.bytes_length _ _ hw] at hbytes
  obtain ⟨hsame, houtside⟩ := hbytes
  have hxfer := State.copied_xfer hx
  have hcycle := s.copied_cycle s.arg.n s.arg.m x
  by_cases hmore : x.left + copyRoom x < x.bytes
  · refine ⟨_, hunit.trans (congrArg _ (if_pos hmore)), hsame, houtside, hxfer, ?_⟩
    rw [if_pos hmore]
    exact awaits_post hcycle _ _ _
  · obtain ⟨as, hread⟩ := (s.copied s.arg.n s.arg.m x).sourceRead_eq x.actor x.src
    rw [if_neg hmore, hread] at hunit
    refine ⟨_, hunit, hsame, houtside, hxfer, ?_⟩
    rw [if_neg hmore]
    exact awaits_post hcycle _ _ _
theorem outboundReadDone_give (hk : x.kind = .give)
    (hs : s.spoisoned (giveKey s x) (rowRoom (giveKey s x) (x.bytes - x.data.length)) = false) : Happens s .outboundReadDone fun t =>
      t.mem = s.mem ∧ if (giveData s x).length < x.bytes then
        t.xfer s.arg.n s.arg.m = some { x with data := giveData s x } ∧ Awaits s t 0 .outboundReadDone { n := s.arg.n, m := s.arg.m }
      else t.xfer s.arg.n s.arg.m = some { x with data := giveData s x, toRead := 0 } := by
  have hrow := exec_outboundReadDone_give hx ha hk hs
  by_cases hmore : (giveData s x).length < x.bytes
  · refine ⟨_, hrow.trans (congrArg _ (if_pos hmore)), rfl, ?_⟩
    rw [if_pos hmore]
    exact ⟨State.xfer_modXfer (f := fun y => { y with data := giveData s x }) (fun _ => rfl) hx, awaits_post rfl _ _ _⟩
  · obtain ⟨as, hread⟩ := (s.modXfer s.arg.n s.arg.m fun y => { y with data := giveData s x, toRead := 0 }).sourceRead_modActor_eq
      x.actor x.actor x.src fun a => a.dropOut s.arg.m
    rw [if_neg hmore, hread] at hrow
    refine ⟨_, hrow, rfl, ?_⟩
    rw [if_neg hmore]
    exact State.xfer_modXfer (f := fun y => { y with data := giveData s x, toRead := 0 }) (fun _ => rfl) hx

end

-- RELAY_SEND and RELAY_ARRIVAL (05 R130) ---------------------------------------------------------------------------

section
variable {s : State} {x : Xfer} (hx : s.xfer s.arg.n s.arg.m = some x)
include hx

theorem relaySend_leaves (ht : x.toRead ≠ 0) (hl : (s.cell s.arg.n).readsLatchFor x.actor = false) (ha : s.alive x.dest = true)
    (hd : (s.actor x.dest).st ≠ .transit) (hp : (s.actor x.dest).st ≠ .parked) (hb : (s.cell (s.actor x.dest).cell).lbIn = 0) :
    Happens s .relaySend fun t => t.mem = s.mem ∧ t.xfer s.arg.n s.arg.m = some { x with toRead := 0 } ∧
      ((s.actor x.dest).cell ≠ s.arg.n → (t.cell (s.actor x.dest).cell).lbIn = x.dest ∧ (t.cell (s.actor x.dest).cell).lbInSrc = s.arg.m) := by
  obtain ⟨i, ag, ws, us, hexec⟩ := exec_relaySend_leaves hx ht hl ha hd hp hb
  obtain ⟨t, ht⟩ : ∃ t, t = s.modCell (s.actor x.dest).cell fun e => { e with lbIn := x.dest, lbInSrc := x.id } := ⟨_, rfl⟩
  have hcell : t.cell (s.actor x.dest).cell = { s.cell (s.actor x.dest).cell with lbIn := x.dest, lbInSrc := x.id } := by
    rw [ht, State.cell_modCell]
  have hxfer : t.xfer s.arg.n s.arg.m = some x := by
    rw [ht]
    exact (State.xfer_modCell (f := fun e => { e with lbIn := x.dest, lbInSrc := x.id }) (fun _ => rfl) _ _).trans hx
  have hmem : t.mem = s.mem := by rw [ht]; rfl
  rw [← ht] at hexec
  refine ⟨_, hexec, (t.relayLeft_mem _ x).trans hmem, State.xfer_relayLeft hxfer, fun hc => ?_⟩
  have hother := (t.cell_relayLeft_other x hc).trans hcell
  exact ⟨congrArg Cell.lbIn hother, (congrArg Cell.lbInSrc hother).trans (State.id_of_xfer hx)⟩
theorem relayArrival_arrives : Happens s .relayArrival fun t => t.xfer s.arg.n s.arg.m = none ∧ t.mem = s.mem ∧
    ∀ k, k ≠ s.arg.n → s.arg.m ≠ 0 → x.k ≠ 1 → s.alive x.dest = true → (s.cell k).lbInSrc = s.arg.m →
      t.cell k = ({ s.cell k with lbNext := { x.latch with loaded := true } } : Cell).promote := by
  obtain ⟨as, hready⟩ := (s.relayArrived s.arg.n x).refresh_eq x.dest
  have hexec := exec_relayArrival hx
  rw [hready] at hexec
  rw [← State.id_of_xfer hx]
  exact ⟨_, hexec, s.xfer_relayArrived _ x, s.relayArrived_mem _ x, fun k => State.cell_relayArrived⟩

end

-- TILE_LANDED (05 R128) --------------------------------------------------------------------------------------------

theorem tileLanded_lands {s : State} {m : Mail} {bs : List Byte} (hw : Memory.wf s.mem = true) (ha : s.alive s.arg.actor = true)
    (ht : (s.actor s.arg.actor).st ≠ .transit) (hn : (s.actor s.arg.actor).name = s.arg.actor)
    (hm : ((s.actor s.arg.actor).mbox.find? fun x => x.msg.sender == s.arg.other && x.msg.seq == s.arg.n) = some m)
    (hs : m.spill = []) (hb : s.arg.tiles = [bs]) :
    let a := s.actor s.arg.actor
    let k := regionKey a + (a.zones.getD s.arg.m {}).off
    Happens s .tileLanded fun t => t.bytes k bs.length = bs ∧ (∀ b n, b + n ≤ k ∨ k + bs.length ≤ b → t.bytes b n = s.bytes b n) ∧
      (t.actor s.arg.actor).mbox = landedMail a.mbox m.arr s.arg.m bs := by
  intro a k
  obtain ⟨cs, hcs⟩ := State.endXfers_eq s.arg.xids s
  obtain ⟨u, hu⟩ : ∃ u : State, u = ((s.endXfers s.arg.xids).setActor { a with mbox := landedMail a.mbox m.arr s.arg.m bs }).put k bs := ⟨_, rfl⟩
  have hexec := exec_tileLanded ha ht hm hs hb
  have hmem : u.mem = Memory.write s.mem k bs := by rw [hu, hcs]; rfl
  have hact : u.actor s.arg.actor = { a with mbox := landedMail a.mbox m.arr s.arg.m bs } := by
    rw [hu]
    exact State.actor_setActor_of_name _ hn
  change exec .tileLanded s = .next (((((s.endXfers s.arg.xids).setActor { a with mbox := landedMail a.mbox m.arr s.arg.m bs }).put k bs).spoisWrite
    k bs.length false).refresh s.arg.actor) at hexec
  rw [← hu, State.spoisWrite_eq] at hexec
  obtain ⟨as, href⟩ := State.refresh_eq { u with spois := (u.spoisWrite k bs.length false).spois } s.arg.actor
  have hmail := State.mbox_refresh { u with spois := (u.spoisWrite k bs.length false).spois } s.arg.actor
  rw [href] at hexec hmail
  obtain ⟨hsame, houtside⟩ := State.bytes_of_write (t := { u with spois := (u.spoisWrite k bs.length false).spois, actors := as }) hw hmem
  exact ⟨_, hexec, hsame, houtside, hmail.trans (congrArg Actor.mbox hact)⟩

end Sys2Proof.Machine
end

