-- ==== Sys2Proof/Proofs/TransferEvents.lean ====
section
/-! PROOFS. O49, transfers after their issue and the two units (05 R118, R119, R123, R128 to R131; 09 R205, R206; 10 R231, R232, R248;
11 R263). -/

open Sys2Proof Sys2Proof.Machine

/-- Settles O49: each clause is the equation of its event for one way that it can go. That a source is read in ascending rows is the
model's (log 105), and that the first-issued multicast of a cell goes first (log 113). -/
theorem transferAndUnitEvents : Obligations.TransferAndUnitEvents := by
  unfold Obligations.TransferAndUnitEvents
  intro s hw
  dsimp only
  refine ⟨?absent, ?xfer, exec_tileLanded_dead, exec_tileLanded_transit, ?tile, ⟨exec_mcastBusServe_idle, ?bus⟩, exec_matrixComplete_idle,
    exec_vectorComplete_idle, ?matrix, ?vector⟩
  case absent =>
    exact fun h => ⟨exec_transferComplete_absent h, exec_outboundReadDone_absent h, exec_relaySend_absent h, exec_relayArrival_absent h⟩
  case xfer =>
    intro x hx
    refine ⟨transferComplete_lands hx, exec_outboundReadDone_dead hx,
      fun ha => ⟨?write, fun p r pa => exec_outboundReadDone_fetch_leaves hx ha, outboundReadDone_index_poisoned hx ha,
        fun hk => outboundReadDone_copy hx ha hk hw, fun hk => ⟨exec_outboundReadDone_give_poisoned hx ha hk, outboundReadDone_give hx ha hk⟩,
        exec_outboundReadDone_contrib hx ha⟩,
      ⟨exec_relaySend_waits hx, fun ht hl => ⟨?lost, fun hd => ⟨exec_relaySend_transit hx ht hl hd, exec_relaySend_held hx ht hl hd,
        relaySend_leaves hx ht hl hd⟩⟩⟩,
      relayArrival_arrives hx⟩
    case write =>
      intro p r hk hp
      refine ⟨fun hs => ?_, outboundReadDone_write_reads hx ha hk hp, fun pa => exec_outboundReadDone_write_leaves hx ha hk hp⟩
      exact (exec_outboundReadDone_write hx ha hk).trans (congrArg _ (State.writeSlot_poisoned _ hp hs))
    case lost =>
      intro hd
      have hlost := exec_relaySend_dead hx ht hl hd
      rw [State.relayLeft, State.id_of_xfer hx] at hlost
      exact hlost
  case tile => exact fun m bs ha ht hn hm => tileLanded_lands hw ha ht hn hm
  case bus =>
    intro b x hb hx
    refine ⟨exec_mcastBusServe_poisoned hb hx, fun hp => ?_⟩
    obtain ⟨as, hread⟩ := exec_mcastBusServe_reads hb hx hp
    obtain ⟨cs, hcs⟩ := State.busTaken_eq { s with buses := kvSet s.buses s.arg.n (busPlace b s.arg.n) } b x
    refine ⟨_, hread, by rw [hcs], by rw [hcs]; exact kvGet_kvSet_same _ _ _ _, ?_⟩
    exact State.xfer_busTaken { s with buses := kvSet s.buses s.arg.n (busPlace b s.arg.n) } b x
  case matrix =>
    intro j hj
    obtain ⟨ag, hdone⟩ := exec_matrixComplete hj
    obtain ⟨cs, hcells⟩ := s.matrixDone_eq j
    obtain ⟨as, hwrites⟩ := s.unitWrites_eq j
    refine ⟨_, hdone, by rw [hcells, hwrites]; rfl, s.munit_matrixDone j, State.accs_matrixDone, fun h ha hr hf => ?_⟩
    rw [hcells]
    exact State.actor_unitWrites ha hr hf
  case vector =>
    intro j hj
    obtain ⟨as, hwrites⟩ := s.unitWrites_eq j
    refine ⟨_, exec_vectorComplete hj, by rw [hwrites]; rfl, ?_, fun ha => ?_, fun h => State.actor_unitWrites⟩
    · rw [State.cell_modCell, hwrites]; rfl
    · rw [State.unitWrites_dead ha]; rfl
end

