-- ==== Sys2Proof/Proofs/ScalarArms.lean ====
section
/-! PROOFS. The meaning that `exec` gives to each scalar instruction (08 R174 to R193), by name. -/

namespace Sys2Proof.Machine

-- Integer instructions (08 R174, R175) --------------------------------------------------------------------------------

section
variable {w : Width} {a b : Scalar} {g : Guard} {s : State}

theorem exec_add : exec (.add w a b g) s = execAdd w a b g s := rfl
theorem exec_sub : exec (.sub w a b g) s = execSub w a b g s := rfl
theorem exec_mul : exec (.mul w a b g) s = execMul w a b g s := rfl
theorem exec_mulh : exec (.mulh w a b g) s = execMulh w a b g s := rfl
theorem exec_mulhu : exec (.mulhu w a b g) s = execMulhu w a b g s := rfl
theorem exec_div : exec (.div w a b g) s = execDiv w a b g s := rfl
theorem exec_divu : exec (.divu w a b g) s = execDivu w a b g s := rfl
theorem exec_rem : exec (.rem w a b g) s = execRem w a b g s := rfl
theorem exec_remu : exec (.remu w a b g) s = execRemu w a b g s := rfl
theorem exec_and : exec (.and w a b g) s = execAnd w a b g s := rfl
theorem exec_or : exec (.or w a b g) s = execOr w a b g s := rfl
theorem exec_xor : exec (.xor w a b g) s = execXor w a b g s := rfl
theorem exec_andn : exec (.andn w a b g) s = execAndn w a b g s := rfl
theorem exec_orn : exec (.orn w a b g) s = execOrn w a b g s := rfl
theorem exec_shl : exec (.shl w a b g) s = execShl w a b g s := rfl
theorem exec_shr : exec (.shr w a b g) s = execShr w a b g s := rfl
theorem exec_sar : exec (.sar w a b g) s = execSar w a b g s := rfl
theorem exec_rol : exec (.rol w a b g) s = execRol w a b g s := rfl
theorem exec_min : exec (.min w a b g) s = execMin w a b g s := rfl
theorem exec_max : exec (.max w a b g) s = execMax w a b g s := rfl
theorem exec_minu : exec (.minu w a b g) s = execMinu w a b g s := rfl
theorem exec_maxu : exec (.maxu w a b g) s = execMaxu w a b g s := rfl
theorem exec_clz : exec (.clz w a g) s = execClz w a g s := rfl
theorem exec_ctz : exec (.ctz w a g) s = execCtz w a g s := rfl
theorem exec_popc : exec (.popc w a g) s = execPopc w a g s := rfl
theorem exec_sext : exec (.sext w a g) s = execSext w a g s := rfl
theorem exec_zext : exec (.zext w a g) s = execZext w a g s := rfl
theorem exec_bswap : exec (.bswap w a g) s = execBswap w a g s := rfl

end

-- Immediates and moves (08 R176 to R178) ------------------------------------------------------------------------------

section
variable {w : Width} {a b : Scalar} {imm : BitVec 12} {sh : BitVec 6} {v : W64} {d : Fin 16} {g : Guard} {s : State}

theorem exec_addi : exec (.addi a imm) s = execAddi a imm s := rfl
theorem exec_andi : exec (.andi a imm) s = execAndi a imm s := rfl
theorem exec_ori : exec (.ori a imm) s = execOri a imm s := rfl
theorem exec_xori : exec (.xori a imm) s = execXori a imm s := rfl
theorem exec_shli : exec (.shli a sh) s = execShli a sh s := rfl
theorem exec_shri : exec (.shri a sh) s = execShri a sh s := rfl
theorem exec_sari : exec (.sari a sh) s = execSari a sh s := rfl
theorem exec_li : exec (.li imm) s = execLi imm s := rfl
theorem exec_lit : exec (.lit v) s = execLit v s := rfl
theorem exec_keep : exec (.keep d a) s = execKeep d a s := rfl
theorem exec_dup : exec (.dup a g) s = execDup a g s := rfl
theorem exec_lea : exec (.lea w a b g) s = execLea w a b g s := rfl

end

-- FP32 instructions (08 R179, R180) -----------------------------------------------------------------------------------

section
variable {k : CvtKind} {w : Width} {a b c : Scalar} {dst : Option (Fin 16)} {rnd : Rnd} {sat : Bool} {g : Guard} {s : State}

theorem exec_fadd : exec (.fadd a b g) s = execFadd a b g s := rfl
theorem exec_fsub : exec (.fsub a b g) s = execFsub a b g s := rfl
theorem exec_fmul : exec (.fmul a b g) s = execFmul a b g s := rfl
theorem exec_fdiv : exec (.fdiv a b g) s = execFdiv a b g s := rfl
theorem exec_fmin : exec (.fmin a b g) s = execFmin a b g s := rfl
theorem exec_fmax : exec (.fmax a b g) s = execFmax a b g s := rfl
theorem exec_fabs : exec (.fabs a g) s = execFabs a g s := rfl
theorem exec_fsqrt : exec (.fsqrt a g) s = execFsqrt a g s := rfl
theorem exec_ffma : exec (.ffma a b c dst rnd sat g) s = execFfma a b c dst rnd sat g s := rfl
theorem exec_fcvt : exec (.fcvt k w a dst rnd sat g) s = execFcvt k w a dst rnd sat g s := rfl

end

-- Predicates (08 R181 to R183) ----------------------------------------------------------------------------------------

section
variable {cond : Cond} {w : Width} {a b : Scalar} {d p q : Fin 8} {g : Guard} {s : State}

theorem exec_pset : exec (.pset cond w a b d g) s = execPset cond w a b d g s := rfl
theorem exec_psetf : exec (.psetf cond a b d g) s = execPsetf cond a b d g s := rfl
theorem exec_pand : exec (.pand d p q) s = execPand d p q s := rfl
theorem exec_por : exec (.por d p q) s = execPor d p q s := rfl
theorem exec_pxor : exec (.pxor d p q) s = execPxor d p q s := rfl
theorem exec_pnot : exec (.pnot d p) s = execPnot d p s := rfl
theorem exec_sel : exec (.sel a b g) s = execSel a b g s := rfl

end

-- Control (08 R184 to R186, R191) -------------------------------------------------------------------------------------

section
variable {p : Fin 8} {off : BitVec 18} {a : Scalar} {imm : BitVec 12} {k : BitVec 6} {g : Guard} {s : State}

theorem exec_br : exec (.br p off) s = execBr p off s := rfl
theorem exec_bp : exec (.bp p off) s = execBp p off s := rfl
theorem exec_call : exec (.call p off) s = execCall p off s := rfl
theorem exec_ret : exec (.ret p) s = execRet p s := rfl
theorem exec_loop : exec (.loop p off) s = execLoop p off s := rfl
theorem exec_jmpx : exec (.jmpx a g) s = execJmpx a g s := rfl
theorem exec_nop : exec .nop s = execNop s := rfl
theorem exec_brk : exec (.brk imm) s = execBrk imm s := rfl
theorem exec_trap : exec (.trap k) s = execTrap k s := rfl

end

-- Scratchpad, system registers and boot mode (08 R187 to R193) --------------------------------------------------------

section
variable {w : Width} {a b c : Scalar} {disp : W32} {sx : Bool} {dst : Option (Fin 16)} {g : Guard} {s : State}

theorem exec_ld : exec (.ld w a g) s = execLd w a g s := rfl
theorem exec_st : exec (.st w a b g) s = execSt w a b g s := rfl
theorem exec_ldx : exec (.ldx w a b disp sx dst g) s = execLdx w a b disp sx dst g s := rfl
theorem exec_stx : exec (.stx w a b c disp g) s = execStx w a b c disp g s := rfl
theorem exec_sysrd : exec (.sysrd a g) s = execSysrd a g s := rfl
theorem exec_ctrd : exec (.ctrd a g) s = execCtrd a g s := rfl
theorem exec_syswr : exec (.syswr a b g) s = execSyswr a b g s := rfl
theorem exec_rpwr : exec (.rpwr a b g) s = execRpwr a b g s := rfl
theorem exec_rprd : exec (.rprd a g) s = execRprd a g s := rfl
theorem exec_halt : exec (.halt a g) s = execHalt a g s := rfl

end

end Sys2Proof.Machine
end

