-- ==== Sys2Proof/Proofs/IntegerWords.lean ====
section
/-! PROOFS. The integer arithmetic of 08 R174 and R175 on the bits of a width: each signed or unsigned reading of the model against the
operation on bit vectors that it means. -/

namespace Sys2Proof.Machine

-- Readings and widths ----------------------------------------------------------------------------------------------

theorem widthBits_pos (w : Width) : 0 < widthBits w := by cases w <;> decide
theorem widthBits_le (w : Width) : widthBits w ≤ 64 := by cases w <;> decide
theorem widthBits_eq_bytes (w : Width) : widthBits w = 8 * widthBytes w := by cases w <;> rfl

theorem ofInt_toNat {n : Nat} (x : BitVec n) : BitVec.ofInt n (x.toNat : Int) = x := by
  rw [BitVec.ofInt_natCast, BitVec.ofNat_toNat, BitVec.setWidth_eq]
/-- A number that a width holds is zero-extended as it is. -/
theorem wide_ofNat {n m : Nat} (h : m < 2 ^ n) : wide (BitVec.ofNat n m) = BitVec.ofNat 64 m := by
  apply BitVec.eq_of_toNat_eq
  rw [wide, BitVec.toNat_setWidth, BitVec.toNat_ofNat, BitVec.toNat_ofNat, Nat.mod_eq_of_lt h]
theorem wide_eq_ofNat {n : Nat} (x : BitVec n) : wide x = BitVec.ofNat 64 x.toNat := (BitVec.ofNat_toNat 64 x).symm

-- Two operands (08 R174) -------------------------------------------------------------------------------------------

section
variable {n : Nat} (x y : BitVec n)

theorem ofInt_toNat_add : BitVec.ofInt n ((x.toNat : Int) + y.toNat) = x + y := by
  rw [BitVec.ofInt_add, ofInt_toNat, ofInt_toNat]
theorem ofInt_toNat_sub : BitVec.ofInt n ((x.toNat : Int) - y.toNat) = x - y := by
  rw [Int.sub_eq_add_neg, BitVec.ofInt_add, BitVec.ofInt_neg, ofInt_toNat, ofInt_toNat, BitVec.sub_eq_add_neg]
theorem ofInt_toNat_mul : BitVec.ofInt n ((x.toNat : Int) * y.toNat) = x * y := by
  rw [BitVec.ofInt_mul, ofInt_toNat, ofInt_toNat]
/-- The upper half of a number of twice the width. -/
theorem ofInt_upperHalf (z : Int) : BitVec.ofInt n (z / 2 ^ n) = ((BitVec.ofInt (2 * n) z) >>> n).setWidth n := by
  have hcast (m : Nat) (i : Int) : ((BitVec.ofInt m i).toNat : Int) = i % 2 ^ m := by
    rw [BitVec.toNat_ofInt, Int.toNat_of_nonneg (Int.emod_nonneg _ (by positivity)), Nat.cast_pow, Nat.cast_ofNat]
  have hsplit : z / 2 ^ n = z % 2 ^ (2 * n) / 2 ^ n + 2 ^ n * (z / 2 ^ (2 * n)) := by
    conv_lhs => rw [← Int.emod_add_mul_ediv z (2 ^ (2 * n)), two_mul, pow_add, mul_assoc]
    rw [Int.add_mul_ediv_left _ _ (by positivity), ← pow_add, ← two_mul]
  apply BitVec.eq_of_toNat_eq
  rw [BitVec.toNat_setWidth, BitVec.toNat_ushiftRight, Nat.shiftRight_eq_div_pow]
  zify
  rw [hcast, hcast, hsplit, Int.add_mul_emod_self_left]
theorem ofInt_mulh : BitVec.ofInt n (x.toInt * y.toInt / 2 ^ n) =
    ((x.signExtend (2 * n) * y.signExtend (2 * n)) >>> n).setWidth n := by
  rw [ofInt_upperHalf, BitVec.ofInt_mul]; rfl
theorem ofInt_mulhu : BitVec.ofInt n ((x.toNat : Int) * y.toNat / 2 ^ n) =
    ((x.setWidth (2 * n) * y.setWidth (2 * n)) >>> n).setWidth n := by
  rw [ofInt_upperHalf, BitVec.ofInt_mul, BitVec.ofInt_natCast, BitVec.ofInt_natCast, BitVec.ofNat_toNat, BitVec.ofNat_toNat]
theorem toInt_eq_zero_iff : y.toInt = 0 ↔ y = 0 := by
  rw [← BitVec.toInt_zero (w := n), BitVec.toInt_inj]; rfl
theorem ofInt_neg_one : BitVec.ofInt n (-1) = BitVec.allOnes n := by
  rw [BitVec.ofInt_neg]; exact BitVec.neg_one_eq_allOnes
theorem toNat_eq_zero_iff : y.toNat = 0 ↔ y = 0 := by simp [BitVec.toNat_eq]
theorem ofInt_div : BitVec.ofInt n (if y.toInt = 0 then -1 else x.toInt.tdiv y.toInt) =
    if y = 0 then BitVec.allOnes n else x.sdiv y := by
  simp only [toInt_eq_zero_iff]
  split
  · exact ofInt_neg_one
  · apply BitVec.eq_of_toInt_eq
    rw [BitVec.toInt_sdiv, BitVec.toInt_ofInt]
theorem ofInt_divu : BitVec.ofInt n (if y.toNat = 0 then -1 else (x.toNat : Int) / y.toNat) =
    if y = 0 then BitVec.allOnes n else x.udiv y := by
  simp only [toNat_eq_zero_iff]
  split
  · exact ofInt_neg_one
  · rw [← Int.natCast_ediv, BitVec.udiv_eq, ← BitVec.toNat_udiv, ofInt_toNat]
theorem ofInt_rem : BitVec.ofInt n (if y.toInt = 0 then x.toInt else x.toInt.tmod y.toInt) =
    if y = 0 then x else x.srem y := by
  simp only [toInt_eq_zero_iff]
  split
  · exact BitVec.ofInt_toInt
  · rw [← BitVec.toInt_srem, BitVec.ofInt_toInt]
theorem ofInt_remu : BitVec.ofInt n (if y.toNat = 0 then (x.toNat : Int) else (x.toNat : Int) % y.toNat) =
    if y = 0 then x else x.umod y := by
  simp only [toNat_eq_zero_iff]
  split
  · exact ofInt_toNat x
  · rw [← Int.natCast_emod, BitVec.umod_eq, ← BitVec.toNat_umod, ofInt_toNat]

theorem ofInt_toNat_and : BitVec.ofInt n ((x.toNat &&& y.toNat : Nat) : Int) = x &&& y := by
  rw [← BitVec.toNat_and, ofInt_toNat]
theorem ofInt_toNat_or : BitVec.ofInt n ((x.toNat ||| y.toNat : Nat) : Int) = x ||| y := by
  rw [← BitVec.toNat_or, ofInt_toNat]
theorem ofInt_toNat_xor : BitVec.ofInt n ((x.toNat ^^^ y.toNat : Nat) : Int) = x ^^^ y := by
  rw [← BitVec.toNat_xor, ofInt_toNat]
theorem ofInt_toNat_andn : BitVec.ofInt n ((x.toNat &&& (2 ^ n - 1 - y.toNat) : Nat) : Int) = x &&& ~~~y := by
  rw [← BitVec.toNat_not, ofInt_toNat_and]
theorem ofInt_toNat_orn : BitVec.ofInt n ((x.toNat ||| (2 ^ n - 1 - y.toNat) : Nat) : Int) = x ||| ~~~y := by
  rw [← BitVec.toNat_not, ofInt_toNat_or]

theorem ofInt_shl (k : Nat) : BitVec.ofInt n ((x.toNat : Int) * 2 ^ k) = x <<< k := by
  rw [BitVec.shiftLeft_eq_mul_twoPow, BitVec.ofInt_mul, ofInt_toNat]
  congr 1
  apply BitVec.eq_of_toNat_eq
  rw [BitVec.toNat_twoPow, ← Nat.cast_ofNat, ← Nat.cast_pow, BitVec.ofInt_natCast, BitVec.toNat_ofNat]
theorem ofInt_shr (k : Nat) : BitVec.ofInt n ((x.toNat : Int) / 2 ^ k) = x >>> k := by
  rw [← ofInt_toNat (x >>> k), BitVec.toNat_ushiftRight, Nat.shiftRight_eq_div_pow]
  norm_cast
theorem ofInt_sar (k : Nat) : BitVec.ofInt n (x.toInt / 2 ^ k) = x.sshiftRight k := by
  rw [← BitVec.ofInt_toInt (x := x.sshiftRight k), BitVec.toInt_sshiftRight, Int.shiftRight_eq_div_pow]
  norm_cast
/-- The two parts of a rotation have no bit in common, so that their sum is their union. -/
theorem ofInt_rol {k : Nat} (h : k < n) : BitVec.ofInt n ((x.toNat : Int) * 2 ^ k + (x.toNat : Int) / 2 ^ (n - k)) = x.rotateLeft k := by
  have hapart : x <<< k &&& x >>> (n - k) = 0 := by
    ext i hi
    by_cases hik : i < k
    · simp [hik]
    · simp [hik, show n ≤ n - k + i by omega]
  rw [BitVec.ofInt_add, ofInt_shl, ofInt_shr, BitVec.add_eq_or_of_and_eq_zero _ _ hapart, BitVec.rotateLeft_def, Nat.mod_eq_of_lt h]

theorem ofInt_min : BitVec.ofInt n (if x.toInt ≤ y.toInt then x.toInt else y.toInt) = if x.sle y then x else y := by
  simp only [BitVec.sle_iff_toInt_le]
  split <;> exact BitVec.ofInt_toInt
theorem ofInt_max : BitVec.ofInt n (if x.toInt ≤ y.toInt then y.toInt else x.toInt) = if x.sle y then y else x := by
  simp only [BitVec.sle_iff_toInt_le]
  split <;> exact BitVec.ofInt_toInt
theorem ofInt_minu : BitVec.ofInt n (if x.toNat ≤ y.toNat then (x.toNat : Int) else y.toNat) = if x ≤ y then x else y := by
  simp only [BitVec.le_def]
  split <;> exact ofInt_toNat _
theorem ofInt_maxu : BitVec.ofInt n (if x.toNat ≤ y.toNat then (y.toNat : Int) else x.toNat) = if x ≤ y then y else x := by
  simp only [BitVec.le_def]
  split <;> exact ofInt_toNat _
end

-- One operand (08 R175) --------------------------------------------------------------------------------------------

theorem bit_eq_testBit (x k : Nat) : bit x k = x.testBit k := by
  rw [bit, Nat.testBit_eq_decide_div_mod_eq]; rfl
theorem bit_half (x k : Nat) : bit (x / 2) k = bit x (k + 1) := by
  rw [bit, bit, Nat.div_div_eq_div_mul, pow_succ']

theorem leadZeros_le (n x : Nat) : leadZeros n x ≤ n := by
  induction n with
  | zero => exact le_rfl
  | succ n ih => unfold leadZeros; split <;> omega
/-- The library counts from the top of the whole width, the model from the top of the bits that are left. -/
theorem clzAuxRec_eq_leadZeros {n : Nat} (x : BitVec n) {k : Nat} (hk : k < n) :
    x.clzAuxRec k = BitVec.ofNat n (n - (k + 1) + leadZeros (k + 1) x.toNat) := by
  induction k with
  | zero =>
    rw [BitVec.clzAuxRec_zero, leadZeros, bit_eq_testBit, ← BitVec.getLsbD]
    split
    · rfl
    · rw [leadZeros]; congr 1; omega
  | succ k ih =>
    rw [BitVec.clzAuxRec_succ, leadZeros, bit_eq_testBit, ← BitVec.getLsbD]
    split
    · congr 1; omega
    · rw [ih (by omega)]; congr 1; omega
theorem clz_eq_leadZeros {n : Nat} (x : BitVec n) (hn : 0 < n) : x.clz = BitVec.ofNat n (leadZeros n x.toNat) := by
  rw [BitVec.clz, clzAuxRec_eq_leadZeros x (by omega), Nat.sub_add_cancel hn, Nat.sub_self, Nat.zero_add]
/-- Zeros are counted from the bottom as they are from the top of the bits in reverse. -/
theorem leadZeros_of_reversed {n x y : Nat} (h : ∀ i < n, bit y i = bit x (n - 1 - i)) : leadZeros n y = trailZeros n x := by
  induction n generalizing x with
  | zero => rfl
  | succ n ih =>
    have htop : bit y n = bit x 0 := by simpa using h n (by omega)
    have hrest : leadZeros n y = trailZeros n (x / 2) := ih fun i hi => by
      rw [h i (by omega), bit_half]; congr 1; omega
    rw [leadZeros, trailZeros, htop, hrest]
theorem ctz_eq_trailZeros {n : Nat} (x : BitVec n) (hn : 0 < n) : x.ctz = BitVec.ofNat n (trailZeros n x.toNat) := by
  have hrev : leadZeros n x.reverse.toNat = trailZeros n x.toNat := leadZeros_of_reversed fun i hi => by
    simp only [bit_eq_testBit, BitVec.testBit_toNat, BitVec.getLsbD_reverse, BitVec.getMsbD, hi, decide_true, Bool.true_and]
  rw [BitVec.ctz_eq_reverse_clz, clz_eq_leadZeros _ hn, hrev]
/-- Ones may be counted from either end. -/
theorem countOnes_succ_top (n x : Nat) : countOnes (n + 1) x = countOnes n x + (bit x n).toNat := by
  induction n generalizing x with
  | zero => rcases Nat.mod_two_eq_zero_or_one x with h | h <;> simp [countOnes, bit, h]
  | succ n ih => rw [countOnes, ih, countOnes, bit_half, Nat.add_assoc]
theorem countOnes_le (n x : Nat) : countOnes n x ≤ n := by
  induction n generalizing x with
  | zero => exact le_rfl
  | succ n ih => have := ih (x / 2); rw [countOnes]; omega
theorem cpop_eq_countOnes {n : Nat} (x : BitVec n) : x.cpop = BitVec.ofNat n (countOnes n x.toNat) := by
  have hrec (k : Nat) : x.cpopNatRec k 0 = countOnes k x.toNat := by
    induction k with
    | zero => rfl
    | succ k ih => rw [BitVec.cpopNatRec_succ, BitVec.cpopNatRec_eq, ih, countOnes_succ_top, bit_eq_testBit, BitVec.testBit_toNat, Nat.zero_add]
  rw [BitVec.cpop, hrec]

/-- The number of a width's bits that are counted fits the width. -/
theorem wide_count {n m : Nat} (h : m ≤ n) : wide (BitVec.ofNat n m) = BitVec.ofNat 64 m :=
  wide_ofNat (lt_of_le_of_lt h n.lt_two_pow_self)
theorem trailZeros_le (n x : Nat) : trailZeros n x ≤ n := by
  induction n generalizing x with
  | zero => exact le_rfl
  | succ n ih => have := ih (x / 2); unfold trailZeros; split <;> omega

/-- The bytes of a width in reverse (08 R175). -/
def swapped {n : Nat} (x : BitVec n) : BitVec n := BitVec.ofNat n (ofBytes (bytesOf (n / 8) x.toNat).reverse)
theorem wide_swapped {w : Width} (x : BitVec (widthBits w)) :
    wide (swapped x) = BitVec.ofNat 64 (ofBytes (bytesOf (widthBytes w) x.toNat).reverse) := by
  refine wide_ofNat (lt_of_lt_of_eq (ofBytes_lt _) ?_)
  rw [List.length_reverse, bytesOf_length, ← widthBytes, ← widthBits_eq_bytes]
theorem extractByte_swapped {w : Width} (x : BitVec (widthBits w)) {i : Nat} (hi : i < widthBits w / 8) :
    (swapped x).extractLsb' (8 * i) 8 = x.extractLsb' (widthBits w - 8 - 8 * i) 8 := by
  have hbits : widthBits w = 8 * (widthBits w / 8) := widthBits_eq_bytes w
  have hlt : ofBytes (bytesOf (widthBits w / 8) x.toNat).reverse < 2 ^ widthBits w := by
    refine lt_of_lt_of_eq (ofBytes_lt _) ?_
    rw [List.length_reverse, bytesOf_length, ← hbits]
  have hbyte : (bytesOf (widthBits w / 8) x.toNat).reverse[i]? =
      some (BitVec.ofNat 8 (x.toNat / 2 ^ (8 * (widthBits w / 8 - 1 - i)))) := by
    rw [List.getElem?_reverse (by rwa [bytesOf_length]), bytesOf_length, bytesOf_getElem? _ _ _ (by omega)]
  apply BitVec.eq_of_toNat_eq
  rw [BitVec.extractLsb'_toNat, BitVec.extractLsb'_toNat, swapped, BitVec.toNat_ofNat, Nat.mod_eq_of_lt hlt, Nat.shiftRight_eq_div_pow,
    ofBytes_byte _ _ _ hbyte, BitVec.toNat_ofNat, Nat.shiftRight_eq_div_pow]
  congr 3
  omega

/-- The two's-complement reading of a width's bits. -/
theorem signed_toNat {w : Width} (x : BitVec (widthBits w)) : signed (widthBits w) x.toNat = x.toInt := by
  have hx : (wide x).setWidth (widthBits w) = x := by
    rw [wide, BitVec.setWidth_setWidth_of_le _ (widthBits_le w), BitVec.setWidth_eq]
  have hs := lowS_eq w (wide x)
  rwa [lowS, lowU_eq, hx] at hs

-- The two shapes (08 R174, R175) -----------------------------------------------------------------------------------

section
variable {w : Width} {a b : Scalar} {g : Guard} {s : State} {u v : W64} {pa pb : Bool}

/-- An operation on two operands, said of the bits of its width. -/
theorem intOp2_pushes {f : Nat → Int → Nat → Int → Int} {r : BitVec (widthBits w)} (ha : Reads s a u pa) (hb : Reads s b v pb)
    (hg : GuardOn s g) (hf : BitVec.ofInt (widthBits w) (f (u.setWidth (widthBits w)).toNat (u.setWidth (widthBits w)).toInt
      (v.setWidth (widthBits w)).toNat (v.setWidth (widthBits w)).toInt) = r) :
    intOp2 w a b g s f = pushed s 1 (wide r) (pa || pb) := by
  rw [intOp2_on f ha hb hg, narrow_eq, lowU_eq, lowS_eq, lowU_eq, lowS_eq, hf]
/-- An operation on one operand, said of the bits of its width. -/
theorem intOp1_pushes {f : Nat → W64} {r : W64} (ha : Reads s a u pa) (hg : GuardOn s g)
    (hf : f (u.setWidth (widthBits w)).toNat = r) : intOp1 w a g s f = pushed s 1 r pa := by
  rw [intOp1_on f ha hg, lowU_eq, hf]

end

end Sys2Proof.Machine

open Sys2Proof Sys2Proof.Machine

/-- Settles O1: each operation is the shape of two operands, with the lemma that reads its integer function on the bits of the width. -/
theorem integerBinaryResults : Obligations.IntegerBinaryResults := by
  unfold Obligations.IntegerBinaryResults
  intro w a b g s u v pa pb ha hb hg
  refine ⟨exec_add.trans (intOp2_pushes ha hb hg (ofInt_toNat_add _ _)),
    exec_sub.trans (intOp2_pushes ha hb hg (ofInt_toNat_sub _ _)),
    exec_mul.trans (intOp2_pushes ha hb hg (ofInt_toNat_mul _ _)),
    exec_mulh.trans (intOp2_pushes ha hb hg (ofInt_mulh _ _)),
    exec_mulhu.trans (intOp2_pushes ha hb hg (ofInt_mulhu _ _)),
    exec_div.trans (intOp2_pushes ha hb hg (ofInt_div _ _)),
    exec_divu.trans (intOp2_pushes ha hb hg (ofInt_divu _ _)),
    exec_rem.trans (intOp2_pushes ha hb hg (ofInt_rem _ _)),
    exec_remu.trans (intOp2_pushes ha hb hg (ofInt_remu _ _)),
    exec_and.trans (intOp2_pushes ha hb hg (ofInt_toNat_and _ _)),
    exec_or.trans (intOp2_pushes ha hb hg (ofInt_toNat_or _ _)),
    exec_xor.trans (intOp2_pushes ha hb hg (ofInt_toNat_xor _ _)),
    exec_andn.trans (intOp2_pushes ha hb hg (ofInt_toNat_andn _ _)),
    exec_orn.trans (intOp2_pushes ha hb hg (ofInt_toNat_orn _ _)),
    exec_shl.trans (intOp2_pushes ha hb hg (ofInt_shl _ _)),
    exec_shr.trans (intOp2_pushes ha hb hg (ofInt_shr _ _)),
    exec_sar.trans (intOp2_pushes ha hb hg (ofInt_sar _ _)),
    exec_rol.trans (intOp2_pushes ha hb hg (ofInt_rol _ (Nat.mod_lt _ (widthBits_pos w)))),
    exec_min.trans (intOp2_pushes ha hb hg (ofInt_min _ _)),
    exec_max.trans (intOp2_pushes ha hb hg (ofInt_max _ _)),
    exec_minu.trans (intOp2_pushes ha hb hg (ofInt_minu _ _)),
    exec_maxu.trans (intOp2_pushes ha hb hg (ofInt_maxu _ _))⟩

/-- Settles O2: each operation is the shape of one operand; the counts are the library's, and `bswap` leaves the bytes in reverse. -/
theorem integerUnaryResults : Obligations.IntegerUnaryResults := by
  unfold Obligations.IntegerUnaryResults
  intro w a g s u p ha hg
  refine ⟨exec_clz.trans (intOp1_pushes ha hg ?clz), exec_ctz.trans (intOp1_pushes ha hg ?ctz),
    exec_popc.trans (intOp1_pushes ha hg ?popc), exec_sext.trans (intOp1_pushes ha hg ?sext),
    exec_zext.trans (intOp1_pushes ha hg ?zext), swapped (u.setWidth (widthBits w)),
    exec_bswap.trans (intOp1_pushes ha hg ?bswap), fun i => extractByte_swapped _⟩
  case clz => rw [clz_eq_leadZeros _ (widthBits_pos w), wide_count (leadZeros_le _ _)]
  case ctz => rw [ctz_eq_trailZeros _ (widthBits_pos w), wide_count (trailZeros_le _ _)]
  case popc => rw [cpop_eq_countOnes, wide_count (countOnes_le _ _)]
  case sext => exact congrArg _ (signed_toNat _)
  case zext => exact (wide_eq_ofNat _).symm
  case bswap => exact (wide_swapped _).symm
end

