-- ==== Sys2Proof/Proofs/FloatInstructions.lean ====
section
/-! PROOFS. FP32 instructions (08 R179, R180; 06 R151): special values of the exact operations, and O4 and O5. -/

namespace Sys2Proof.Machine

-- Special values (07 R160, R161; 08 R179) --------------------------------------------------------------------------

theorem Mag.isZero_eq_parts (m : Mag) : m.isZero = (m.parts.1 == 0) := by cases m <;> rfl
theorem Val.eq_num_of_isZero {v : Val} (h : v.isZero = true) : ∃ n m, v = .num n m ∧ m.isZero = true := by
  cases v with
  | nan => cases h
  | inf n => cases h
  | num n m => exact ⟨n, m, rfl, h⟩

theorem Val.eq_nan_of_isNan {v : Val} (h : v.isNan = true) : v = .nan := by
  cases v with
  | nan => rfl
  | inf n => cases h
  | num n m => cases h

/-- The quotient by a zero is infinite, unless the dividend is a zero too. -/
theorem Val.num_div_zero {n : Bool} {m : Mag} {y : Val} (hy : y.isZero = true) :
    (Val.num n m).div y = if m.isZero then .nan else .inf (n != y.neg?) := by
  obtain ⟨k, z, rfl, hz⟩ := Val.eq_num_of_isZero hy
  rw [Mag.isZero_eq_parts, beq_iff_eq] at hz
  simp only [Val.div, Val.neg?, hz, if_true, Mag.isZero_eq_parts, beq_iff_eq]
theorem Val.sqrt_zero {n : Bool} {m : Mag} (h : m.isZero = true) : (Val.num n m).sqrt = zeroV n := by rw [Val.sqrt, if_pos h]
theorem Val.sqrt_negative {v : Val} (hz : v.isZero = false) (hn : v.neg? = true) : v.sqrt = .nan := by
  cases v with
  | nan => rfl
  | inf n => cases hn; rfl
  | num n m => cases hn; rw [Val.sqrt, if_neg (by simpa [Val.isZero] using hz)]; rfl
theorem Val.min_nan {x y : Val} (h : x.isNan = true ∨ y.isNan = true) : x.min y = .nan := if_pos (by simpa using h)
theorem Val.max_nan {x y : Val} (h : x.isNan = true ∨ y.isNan = true) : x.max y = .nan := if_pos (by simpa using h)
/-- Of a negative and a positive number the negative one is the lower, zeros as well. -/
theorem Val.min_signs (x y : Mag) : (Val.num true x).min (.num false y) = .num true x := rfl
theorem Val.max_signs (x y : Mag) : (Val.num true x).max (.num false y) = .num false y := rfl

theorem rne32_inf (n : Bool) : BitVec.ofNat 64 (rne32 (.inf n)) = if n then 0xFF800000 else 0x7F800000 := by cases n <;> rfl
/-- A finite magnitude goes into a signed floating-point format by `roundFloat`. -/
theorem Desc.round_num {d : Desc} (hc : d.cls ≠ 6) (hs : d.sgn = true) (he : d.eb ≠ 0) (n : Bool) (m : Mag) (mode : Rnd) (draw : Nat)
    (sat : Bool) : d.round (.num n m) mode draw sat = d.roundFloat n m mode draw sat := by
  rw [Desc.round, if_neg hc]
  simp only [hs, Bool.not_true, Bool.and_false, Bool.false_eq_true, if_false, he]
theorem rne32_zero {n : Bool} {m : Mag} (h : m.isZero = true) :
    BitVec.ofNat 64 (rne32 (.num n m)) = if n then 0x80000000 else 0 := by
  rw [rne32, Desc.round_num (by decide) rfl (by decide), Desc.roundFloat, if_pos h]
  cases n <;> decide

-- Special cases of the instructions (08 R179) ----------------------------------------------------------------------

section
variable {a b : Scalar} {g : Guard} {s : State} {u v : W64} {pa pb : Bool} (ha : Reads s a u pa) (hg : GuardOn s g)
include ha hg

theorem exec_fabs_ready : exec (.fabs a g) s = pushed s 1 (BitVec.ofNat 64 (rne32 (dec32 u.toNat).abs)) pa :=
  exec_fabs.trans (fpOp1_on _ ha hg)
theorem exec_fsqrt_ready : exec (.fsqrt a g) s = pushed s 1 (BitVec.ofNat 64 (rne32 (dec32 u.toNat).sqrt)) pa :=
  exec_fsqrt.trans (fpOp1_on _ ha hg)

variable (hb : Reads s b v pb)
include hb

theorem exec_fdiv_ready : exec (.fdiv a b g) s = pushed s 1 (BitVec.ofNat 64 (rne32 ((dec32 u.toNat).div (dec32 v.toNat)))) (pa || pb) :=
  exec_fdiv.trans (fpOp2_on _ ha hb hg)
theorem exec_fmin_ready : exec (.fmin a b g) s = pushed s 1 (BitVec.ofNat 64 (rne32 ((dec32 u.toNat).min (dec32 v.toNat)))) (pa || pb) :=
  exec_fmin.trans (fpOp2_on _ ha hb hg)
theorem exec_fmax_ready : exec (.fmax a b g) s = pushed s 1 (BitVec.ofNat 64 (rne32 ((dec32 u.toNat).max (dec32 v.toNat)))) (pa || pb) :=
  exec_fmax.trans (fpOp2_on _ ha hb hg)

end

-- One rounding, with a draw (08 R180; 06 R151) ---------------------------------------------------------------------

/-- The draw of an instruction that rounds once. -/
theorem State.oneDraw_fst (s : State) (rnd : Rnd) : (s.oneDraw rnd).1 = if rnd = .sr then drawOf (nextGen s.cur.gen) else 0 := by
  cases rnd <;> rfl
/-- The state after that draw. -/
theorem State.oneDraw_snd (s : State) (rnd : Rnd) :
    (s.oneDraw rnd).2 = if rnd = .sr then s.setCur { s.cur with gen := nextGen s.cur.gen } else s := by
  cases rnd <;> rfl
theorem resultTo_pushedTo (s : State) (n : Nat) (dst : Option (Fin 16)) (v : W64) (p : Bool) :
    ran (s.resultTo n dst v p) = pushedTo s n dst v p := by
  cases dst <;> rfl

section
variable {k : CvtKind} {w : Width} {a b c : Scalar} {dst : Option (Fin 16)} {rnd : Rnd} {sat : Bool} {g : Guard} {s : State}
  {u v z : W64} {pa pb pc : Bool}

theorem exec_ffma_ready (ha : Reads s a u pa) (hb : Reads s b v pb) (hc : Reads s c z pc) (hg : GuardOn s g) :
    exec (.ffma a b c dst rnd sat g) s = pushedTo (s.oneDraw rnd).2 3 dst (BitVec.ofNat 64
      (f32.round (((dec32 u.toNat).mul (dec32 v.toNat)).add (rnd == .rd) (dec32 z.toNat)) rnd (s.oneDraw rnd).1 sat)) (pa || pb || pc) := by
  simp only [exec_ffma, execFfma, guarded_on hg, operand_ok ha, operand_ok hb, operand_ok hc, ok_bind, pure_eq, finish_ok,
    resultTo_pushedTo]
theorem exec_fcvt_ready (ha : Reads s a u pa) (hg : GuardOn s g) :
    exec (.fcvt k w a dst rnd sat g) s = pushedTo (s.oneDraw rnd).2 3 dst (BitVec.ofNat 64
      ((cvtForms k w u).2.round (cvtForms k w u).1 rnd (s.oneDraw rnd).1 sat)) pa := by
  simp only [exec_fcvt, execFcvt, guarded_on hg, operand_ok ha, ok_bind, pure_eq, finish_ok, resultTo_pushedTo]

end

end Sys2Proof.Machine

open Sys2Proof Sys2Proof.Machine

/-- Settles O4: the shapes of R179 with their exact functions, then what these are at the special values. -/
theorem floatInstructionResults : Obligations.FloatInstructionResults := by
  unfold Obligations.FloatInstructionResults
  refine ⟨fun a b g s u v pa pb ha hb hg => ?exact, fun a b g s u v pa pb ha hb hg => ?special⟩
  case exact =>
    exact ⟨exec_fadd.trans (fpOp2_on _ ha hb hg), exec_fsub.trans (fpOp2_on _ ha hb hg), exec_fmul.trans (fpOp2_on _ ha hb hg),
      exec_fdiv_ready ha hg hb, exec_fmin_ready ha hg hb, exec_fmax_ready ha hg hb, exec_fabs_ready ha hg, exec_fsqrt_ready ha hg⟩
  case special =>
    rw [exec_fdiv_ready ha hg hb, exec_fmin_ready ha hg hb, exec_fmax_ready ha hg hb, exec_fabs_ready ha hg, exec_fsqrt_ready ha hg]
    generalize dec32 u.toNat = x
    generalize dec32 v.toNat = y
    dsimp only
    refine ⟨?byZero, ?zeros, ?infinities, ?rootZero, ?rootNegative, ?nans, ?signedZeros, ?absNan⟩
    case byZero =>
      rintro ⟨n, m, rfl, hm⟩ hy
      rw [Val.num_div_zero hy, hm, if_neg Bool.false_ne_true, rne32_inf]; rfl
    case zeros =>
      intro hx hy
      obtain ⟨n, m, rfl, hm⟩ := Val.eq_num_of_isZero hx
      rw [Val.num_div_zero hy, if_pos hm]
    case infinities => rintro ⟨n, rfl⟩ ⟨k, rfl⟩; rfl
    case rootZero =>
      intro hx hn
      obtain ⟨n, m, rfl, hm⟩ := Val.eq_num_of_isZero hx
      cases hn
      rw [Val.sqrt_zero hm]; rfl
    case rootNegative => intro hz hn; rw [Val.sqrt_negative hz hn]
    case nans => intro h; rw [Val.min_nan h, Val.max_nan h]; exact ⟨rfl, rfl⟩
    case signedZeros =>
      intro hx hxn hy hyn
      obtain ⟨n, m, rfl, hm⟩ := Val.eq_num_of_isZero hx
      obtain ⟨k, z, rfl, hz⟩ := Val.eq_num_of_isZero hy
      cases hxn
      cases hyn
      rw [Val.min_signs, Val.max_signs, rne32_zero hm, rne32_zero hz]
      exact ⟨rfl, rfl⟩
    case absNan => intro h; rw [Val.eq_nan_of_isNan h]; rfl

/-- Settles O5: one draw under `.sr`, taken before the result is rounded; each kind of `fcvt` by its forms. -/
theorem fusedAndConvertResults : Obligations.FusedAndConvertResults := by
  unfold Obligations.FusedAndConvertResults
  intro k w a b c dst rnd sat g s u v z pa pb pc ha hb hc hg
  rw [exec_ffma_ready ha hb hc hg, exec_fcvt_ready ha hg, State.oneDraw_fst, State.oneDraw_snd]
  refine ⟨rfl, ?_⟩
  cases k
  case i2f => rw [cvtForms, lowS_eq]
  case u2f => rw [cvtForms, lowU_eq]
  case f2i | f2u | f2b | b2f | f2h | h2f => rfl
end

