-- ==== Sys2Proof/Proofs/RegisterInstructions.lean ====
section
/-! PROOFS. Moves, predicates, control and operands that are not ready (08 R171, R176 to R178, R181 to R186, R191): O3, O6, O7, O9 and
O14. -/

namespace Sys2Proof.Machine

-- Moves (08 R176 to R178) ------------------------------------------------------------------------------------------

section
variable {w : Width} {a b : Scalar} {d : Fin 16} {g : Guard} {s : State} {u v : W64} {pa pb : Bool}

/-- The operand that `lea` adds is scaled by the bytes of its width. -/
theorem mul_widthBytes (w : Width) (v : W64) :
    v * BitVec.ofNat 64 (widthBytes w) = v <<< (match w with | .w8 => 0 | .w16 => 1 | .w32 => 2 | .w64 => 3 : Nat) := by
  rw [BitVec.shiftLeft_eq_mul_twoPow]
  cases w <;> rfl
theorem exec_keep_ready (ha : Reads s a u pa) :
    exec (.keep d a) s = ran (s.setCur { past s 1 with s := s.cur.s.set d.val (.val u pa) }) := by
  simp only [exec_keep, execKeep, unguarded, operand_ok ha, ok_bind, pure_eq, finish_ok]
  rfl
theorem exec_dup_ready (ha : Reads s a u pa) (hg : GuardOn s g) : exec (.dup a g) s = pushed s 1 u pa := by
  simp only [exec_dup, execDup, guarded_on hg, operand_ok ha, ok_bind, pure_eq, finish_ok]
  rfl
theorem exec_lea_ready (ha : Reads s a u pa) (hb : Reads s b v pb) (hg : GuardOn s g) :
    exec (.lea w a b g) s = pushed s 1 (u + v * BitVec.ofNat 64 (widthBytes w)) (pa || pb) := by
  simp only [exec_lea, execLea, guarded_on hg, operand_ok ha, operand_ok hb, ok_bind, pure_eq, finish_ok]
  rfl

end

-- Predicates (08 R181 to R183) -------------------------------------------------------------------------------------

/-- An integer comparison, said of the bits of a width. -/
theorem compareInt_bits {n : Nat} (cond : Cond) (x y : BitVec n) : compareInt cond x.toInt y.toInt x.toNat y.toNat =
    match cond with
    | .eq => x == y | .ne => x != y | .lt => x.slt y | .ge => !x.slt y | .ltu => x.ult y | .geu => !x.ult y
    | .le => x.sle y | .gt => !x.sle y | .leu => x.ule y | .gtu => !x.ule y | .un | .ord => false := by
  cases cond
  case eq => rw [compareInt, Bool.eq_iff_iff]; simp [BitVec.toNat_eq]
  case ne => rw [compareInt, Bool.eq_iff_iff]; simp [BitVec.toNat_eq]
  case ge => simp [compareInt, BitVec.slt, ← decide_not]
  case geu => simp [compareInt, BitVec.ult, ← decide_not]
  case gt => simp [compareInt, BitVec.sle, ← decide_not]
  case gtu => simp [compareInt, BitVec.ule, ← decide_not]
  case lt | ltu | le | leu | un | ord => rfl

/-- An unordered pair is not equal. -/
theorem compareFloat_ne (x y : Val) : compareFloat .ne x y = !(!(x.isNan || y.isNan) && floatOrder x y == 0) := by
  rw [compareFloat, Bool.not_and, Bool.not_not]; rfl

section
variable {w : Width} {cond : Cond} {a b : Scalar} {d p q : Fin 8} {g : Guard} {s : State} {u v : W64} {pa pb : Bool}

/-- An instruction of `n` words that writes predicate `d`. -/
def setsPred (s : State) (n : Nat) (d : Fin 8) (r p : Bool) : Out := ran (s.setCur { past s n with p := s.cur.p.set d.val (r, p) })

theorem exec_pset_ready (ha : Reads s a u pa) (hb : Reads s b v pb) (hg : GuardOn s g) :
    exec (.pset cond w a b d g) s = setsPred s 3 d (compareInt cond (lowS w u) (lowS w v) (lowU w u) (lowU w v)) (pa || pb) := by
  simp only [exec_pset, execPset, guarded_on hg, operand_ok ha, operand_ok hb, ok_bind, pure_eq, finish_ok]
  rfl
theorem exec_psetf_ready (ha : Reads s a u pa) (hb : Reads s b v pb) (hg : GuardOn s g) :
    exec (.psetf cond a b d g) s = setsPred s 3 d (compareFloat cond (dec32 u.toNat) (dec32 v.toNat)) (pa || pb) := by
  simp only [exec_psetf, execPsetf, guarded_on hg, operand_ok ha, operand_ok hb, ok_bind, pure_eq, finish_ok]
  rfl
theorem predOp_eq (f : Bool → Bool → Bool) : predOp d p q s f =
    setsPred s 1 d (f (s.cur.pred p).1 (s.cur.pred q).1) ((s.cur.pred p).2 || (s.cur.pred q).2) := rfl
theorem exec_pnot_eq : exec (.pnot d p) s = setsPred s 1 d (!(s.cur.pred p).1) (s.cur.pred p).2 := by
  rw [exec_pnot, execPnot, predOp_eq, Bool.or_self]
theorem exec_sel_ready (hb : Reads s b v pb) (hg : GuardOn s g) : exec (.sel a b g) s = pushed s 1 v pb := by
  simp only [exec_sel, execSel, guarded_on hg, operand_ok hb, ok_bind, pure_eq, finish_ok]
  rfl

end

-- Control (08 R184 to R186, R191) ----------------------------------------------------------------------------------

section
variable {p : Fin 8} {off : BitVec 18} {a : Scalar} {imm : BitVec 12} {g : Guard} {s : State} {u : W64}

/-- The issuing actor, with the data of `c`, goes to `pc`. -/
def goesTo (s : State) (c : Actor) (pc : Nat) : Out := ran (s.setCur { c with pc := pc, retired := s.cur.retired + 1 })

theorem exec_br_taken (hg : GuardOn s ⟨p, false⟩) : exec (.br p off) s = goesTo s s.cur (branchTarget s.cur.pc off) := by
  rw [exec_br, execBr, guarded_on hg]; rfl
theorem exec_bp_taken (hg : GuardOn s ⟨p, true⟩) : exec (.bp p off) s = goesTo s s.cur (branchTarget s.cur.pc off) := by
  rw [exec_bp, execBp, guarded_on hg]; rfl
theorem exec_call_taken (hg : GuardOn s ⟨p, false⟩) (hd : s.cur.ldep < 8) : exec (.call p off) s = goesTo s { s.cur with
    ls := s.cur.ls.set s.cur.ldep (BitVec.ofNat 64 (s.cur.pc + 4)), ldep := s.cur.ldep + 1 } (branchTarget s.cur.pc off) := by
  simp only [exec_call, execCall, guarded_on hg, check_ok _ (decide_eq_true hd), ok_bind, pure_eq, finish_ok]
  rfl
theorem exec_call_ninth (hg : GuardOn s ⟨p, false⟩) (hd : 8 ≤ s.cur.ldep) : exec (.call p off) s = dies s rIllegal := by
  simp only [exec_call, execCall, guarded_on hg, check_no _ (decide_eq_false (Nat.not_lt.2 hd)), error_bind, finish_kill]
theorem exec_ret_taken (hg : GuardOn s ⟨p, false⟩) {n : Nat} (hd : s.cur.ldep = n + 1) :
    exec (.ret p) s = goesTo s { s.cur with ldep := n } (s.cur.ls.getD n 0).toNat := by
  have hc : (s.cur.ldep != 0) = true := by simp [hd]
  have hn : s.cur.ldep - 1 = n := by omega
  simp only [exec_ret, execRet, guarded_on hg, check_ok _ hc, ok_bind, pure_eq, finish_ok, hn]
  rfl
theorem exec_ret_empty (hg : GuardOn s ⟨p, false⟩) (hd : s.cur.ldep = 0) : exec (.ret p) s = dies s rIllegal := by
  have hc : (s.cur.ldep != 0) = false := by simp [hd]
  simp only [exec_ret, execRet, guarded_on hg, check_no _ hc, error_bind, finish_kill]
theorem exec_loop_zero (hg : GuardOn s ⟨p, false⟩) (hl : s.cur.lc = 0) : exec (.loop p off) s = ran (s.setCur (past s 1)) := by
  simp only [exec_loop, execLoop, guarded_on hg, hl, if_true, pure_eq, finish_ok]
  rfl
theorem exec_loop_last (hg : GuardOn s ⟨p, false⟩) (hl : s.cur.lc = 1) :
    exec (.loop p off) s = ran (s.setCur { past s 1 with lc := 0 }) := by
  simp only [exec_loop, execLoop, guarded_on hg, hl, if_true, if_neg (show (1 : W64) ≠ 0 by decide), pure_eq, finish_ok]
  rfl
theorem exec_loop_again (hg : GuardOn s ⟨p, false⟩) (h0 : s.cur.lc ≠ 0) (h1 : s.cur.lc ≠ 1) :
    exec (.loop p off) s = goesTo s { s.cur with lc := s.cur.lc - 1 } (branchTarget s.cur.pc off) := by
  simp only [exec_loop, execLoop, guarded_on hg, if_neg h0, if_neg h1, pure_eq, finish_ok]
  rfl
theorem exec_jmpx_aligned (hg : GuardOn s g) (ha : Reads s a u false) (hu : u.toNat % 4 = 0) :
    exec (.jmpx a g) s = goesTo s s.cur u.toNat := by
  simp only [exec_jmpx, execJmpx, guarded_on hg, clean_ok ha, check_ok _ (beq_iff_eq.2 hu), ok_bind, pure_eq, finish_ok]
  rfl
theorem exec_jmpx_misaligned (hg : GuardOn s g) (ha : Reads s a u false) (hu : u.toNat % 4 ≠ 0) :
    exec (.jmpx a g) s = dies s rIllegal := by
  simp only [exec_jmpx, execJmpx, guarded_on hg, clean_ok ha, check_no _ (beq_false_of_ne hu), ok_bind, error_bind, finish_kill]
theorem exec_jmpx_poisoned (hg : GuardOn s g) (ha : Reads s a u true) : exec (.jmpx a g) s = dies s rPoison := by
  simp only [exec_jmpx, execJmpx, guarded_on hg, clean_poisoned ha, error_bind, finish_kill]

theorem exec_brk_unattached (hd : s.cur.dbg.dbgn = 0) : exec (.brk imm) s = ran (s.setCur (past s 1)) := by
  rw [exec_brk, execBrk, if_pos hd]; rfl
theorem exec_brk_attached (hd : s.cur.dbg.dbgn ≠ 0) : exec (.brk imm) s =
    ran (s.setCur { past s 1 with dbg := { s.cur.dbg with pend := s.cur.dbg.pend ++ [(5, imm.toNat)] } }) := by
  rw [exec_brk, execBrk, if_neg hd]; rfl

end

end Sys2Proof.Machine

open Sys2Proof Sys2Proof.Machine

/-- Settles O3: immediates are the shape of R176, and each move is its own equation. -/
theorem immediateAndMoveResults : Obligations.ImmediateAndMoveResults := by
  unfold Obligations.ImmediateAndMoveResults
  refine ⟨⟨fun a imm sh s u p ha => ?immediates, fun imm v s => ⟨exec_li, exec_lit⟩⟩, fun w d a b g s u v pa pb ha hb hg =>
    ⟨exec_keep_ready ha, exec_dup_ready ha hg, ?lea⟩⟩
  case immediates =>
    exact ⟨exec_addi.trans (immOp_on _ ha), exec_andi.trans (immOp_on _ ha), exec_ori.trans (immOp_on _ ha), exec_xori.trans (immOp_on _ ha),
      exec_shli.trans (immOp_on _ ha), exec_shri.trans (immOp_on _ ha), exec_sari.trans (immOp_on _ ha)⟩
  case lea => exact (exec_lea_ready ha hb hg).trans (congrArg (fun y => pushed s 1 (u + y) (pa || pb)) (mul_widthBytes w v))

/-- Settles O6: each instruction writes the predicate of its comparison or operation; an integer comparison is read on the bits of the
width, an FP32 one is the model's own by its conditions. -/
theorem predicateResults : Obligations.PredicateResults := by
  unfold Obligations.PredicateResults
  intro w cond a b d pa_ pb_ g s u v pa pb ha hb hg
  refine ⟨?pset, ?psetf, exec_pand.trans (predOp_eq _), exec_por.trans (predOp_eq _), exec_pxor.trans (predOp_eq _), exec_pnot_eq,
    exec_sel_ready hb hg⟩
  case pset =>
    rw [exec_pset_ready ha hb hg, lowS_eq, lowS_eq, lowU_eq, lowU_eq, compareInt_bits]
    rfl
  case psetf =>
    refine (exec_psetf_ready ha hb hg).trans (congrArg (setsPred s 3 d · (pa || pb)) ?_)
    cases cond
    case ne => exact compareFloat_ne _ _
    case eq | lt | ge | ltu | geu | le | gt | leu | gtu | un | ord => rfl

/-- Settles O7: one equation for each way that a control instruction can go. -/
theorem controlResults : Obligations.ControlResults := by
  unfold Obligations.ControlResults
  refine ⟨fun p off a g s u => ⟨exec_br_taken, exec_bp_taken, exec_call_taken, fun hg n => exec_ret_taken hg, exec_loop_zero,
    exec_loop_last, exec_loop_again, exec_jmpx_aligned⟩,
    fun p off a g s u => ⟨exec_call_ninth, exec_ret_empty, exec_jmpx_misaligned, exec_jmpx_poisoned⟩⟩

/-- Settles O9: an instruction that reads an unready operand first ends in the stall of that operand, with the state as it was. -/
theorem unreadyOperandStalls : Obligations.UnreadyOperandStalls := by
  unfold Obligations.UnreadyOperandStalls
  intro w a b g d imm s tok h hg
  refine ⟨?add, ?clz, ?addi, ?keep, ?dup, ?fabs, ?ld, ?st, ?jmpx, ?sysrd, ?await⟩
  case add => simp only [exec_add, execAdd, intOp2, guarded_on hg, operand_wait h, error_bind, finish_stall]
  case clz => simp only [exec_clz, execClz, intOp1, guarded_on hg, operand_wait h, error_bind, finish_stall]
  case addi => simp only [exec_addi, execAddi, immOp, unguarded, operand_wait h, error_bind, finish_stall]
  case keep => simp only [exec_keep, execKeep, unguarded, operand_wait h, error_bind, finish_stall]
  case dup => simp only [exec_dup, execDup, guarded_on hg, operand_wait h, error_bind, finish_stall]
  case fabs => simp only [exec_fabs, execFabs, fpOp1, guarded_on hg, operand_wait h, error_bind, finish_stall]
  case ld => simp only [exec_ld, execLd, guarded_on hg, operand_wait h, error_bind, finish_stall]
  case st => simp only [exec_st, execSt, guarded_on hg, operand_wait h, error_bind, finish_stall]
  case jmpx => simp only [exec_jmpx, execJmpx, guarded_on hg, clean_wait h, error_bind, finish_stall]
  case sysrd => simp only [exec_sysrd, execSysrd, guarded_on hg, clean_wait h, error_bind, finish_stall]
  case await =>
    show execAwait a 0 g s = _
    simp only [execAwait, guarded_on hg, clean_wait h, error_bind, finish_stall]

/-- Settles O14: `brk` by whether a debugger is attached. -/
theorem nopBreakTrap : Obligations.NopBreakTrap := by
  unfold Obligations.NopBreakTrap
  exact fun imm k s => ⟨exec_nop, exec_brk_unattached, exec_brk_attached, exec_trap⟩
end

