-- ==== Sys2Proof/Proofs/Scratchpad.lean ====
section
/-! PROOFS. Scratchpad loads and stores (08 R187, R188; 21 R405): the checks of an offset, what a load reads and a store writes, and O10
to O12. -/

namespace Sys2Proof.Machine

-- The offset (08 R188) ---------------------------------------------------------------------------------------------

section
variable {s : State} {w : Width} {o : W64}

theorem spOffset_ok (ho : o.toNat % widthBytes w = 0 ∧ o.toNat < regionSize s.cur) : spOffset s w o false = .ok o.toNat := by
  have hc : (o.toNat % widthBytes w == 0 && decide (o.toNat < regionSize s.cur)) = true := by simp [ho.1, ho.2]
  rw [spOffset, Bool.not_false, check_ok _ rfl, check_ok _ hc]; rfl
theorem spOffset_poisoned : spOffset s w o true = .error (.kill rPoison) := rfl
theorem spOffset_bad (ho : o.toNat % widthBytes w ≠ 0 ∨ regionSize s.cur ≤ o.toNat) : spOffset s w o false = .error (.kill rExtent) := by
  have hc : (o.toNat % widthBytes w == 0 && decide (o.toNat < regionSize s.cur)) = false := by
    rcases ho with ho | ho
    · simp [ho]
    · simp [Nat.not_lt.2 ho]
  rw [spOffset, Bool.not_false, check_ok _ rfl, check_no _ hc]; rfl

end

-- The instructions up to their offset ------------------------------------------------------------------------------

section
variable {w : Width} {a b c : Scalar} {disp : W32} {sx : Bool} {dst : Option (Fin 16)} {g : Guard} {s : State} {u v z : W64}
  {pu pv pz : Bool}

theorem exec_ld_eq (ha : Reads s a u pu) (hg : GuardOn s g) :
    exec (.ld w a g) s = finish s (spOffset s w u pu >>= fun o => .ok (loadFrom s w 1 o false none)) := by
  simp only [exec_ld, execLd, guarded_on hg, operand_ok ha, ok_bind, pure_eq]
theorem exec_ldx_eq (ha : Reads s a u pu) (hb : Reads s b v pv) (hg : GuardOn s g) : exec (.ldx w a b disp sx dst g) s =
    finish s (spOffset s w (u + v + disp.signExtend 64) (pu || pv) >>= fun o => .ok (loadFrom s w 3 o sx dst)) := by
  simp only [exec_ldx, execLdx, guarded_on hg, operand_ok ha, operand_ok hb, ok_bind, pure_eq, sext32]
theorem exec_st_eq (ha : Reads s a u pu) (hb : Reads s b v pv) (hg : GuardOn s g) :
    exec (.st w a b g) s = finish s (spOffset s w u pu >>= fun o => .ok (storeTo s w 1 o v pv)) := by
  simp only [exec_st, execSt, guarded_on hg, operand_ok ha, operand_ok hb, ok_bind, pure_eq]
theorem exec_stx_eq (ha : Reads s a u pu) (hb : Reads s b v pv) (hc : Reads s c z pz) (hg : GuardOn s g) : exec (.stx w a b c disp g) s =
    finish s (spOffset s w (u + v + disp.signExtend 64) (pu || pv) >>= fun o => .ok (storeTo s w 3 o z pz)) := by
  simp only [exec_stx, execStx, guarded_on hg, operand_ok ha, operand_ok hb, operand_ok hc, ok_bind, pure_eq, sext32]

end

-- Loads (08 R187) --------------------------------------------------------------------------------------------------

/-- Watchpoints do not look at the name. -/
theorem Actor.watchBytes_name (a : Actor) (m : ActorName) (wr : Bool) (off n : Nat) :
    ({ a with name := m } : Actor).watchBytes wr off n = { a.watchBytes wr off n with name := m } := by
  unfold Actor.watchBytes
  dsimp only
  split <;> split <;> rfl
/-- The bits of a width in the scratchpad from key `k`, little-endian. -/
def State.loaded (s : State) (w : Width) (k : Nat) : BitVec (widthBits w) :=
  BitVec.ofNat _ (ofBytes ((List.range (widthBytes w)).map fun i => Memory.get s.mem (k + i)))

section
variable {s : State} (hw : Memory.wf s.mem = true)
include hw

theorem State.num_eq_loaded (w : Width) (k : Nat) : s.num k (widthBytes w) = (s.loaded w k).toNat := by
  have hlt : s.num k (widthBytes w) < 2 ^ widthBits w := by
    refine lt_of_lt_of_eq (ofBytes_lt _) ?_
    rw [State.bytes_length k _ hw, ← widthBits_eq_bytes]
  rw [State.num, State.bytes, Memory.read_eq _ _ _ hw] at hlt ⊢
  exact (Nat.mod_eq_of_lt hlt).symm
/-- A load pushes the bits that it reads, extended, and fires the watchpoints of its bytes. -/
theorem ran_loadFrom (w : Width) (n o : Nat) (sx : Bool) (dst : Option (Fin 16)) :
    let x := s.loaded w (regionKey s.cur + o)
    let e : Ent := .val (if sx then x.signExtend 64 else wide x) (s.spoisoned (regionKey s.cur + o) (widthBytes w))
    ran (loadFrom s w n o sx dst) = ran (s.setCur (Actor.watchBytes { past s n with
      h := e :: s.cur.h.take 15, s := match dst with | none => s.cur.s | some j => s.cur.s.set j.val e } false o (widthBytes w))) := by
  simp only [loadFrom, State.resultTo, State.cur_setCur, State.setCur_setCur, Actor.watchBytes_name, State.num_eq_loaded hw, signed_toNat,
    ← wide_eq_ofNat]
  cases dst <;> rfl

end

theorem widthBytes_ne_zero (w : Width) : widthBytes w ≠ 0 := by cases w <;> decide

-- Stores (08 R187, R188) -------------------------------------------------------------------------------------------

theorem mem_addRange {l : List Nat} {lo n q : Nat} : q ∈ addRange l lo n ↔ (lo ≤ q ∧ q < lo + n) ∨ q ∈ l := by
  have hfold : addRange l lo n = ((List.range n).map (lo + ·)).foldl insNat l := by rw [addRange, List.foldl_map]
  have hrange : q ∈ (List.range n).map (lo + ·) ↔ lo ≤ q ∧ q < lo + n := by
    simp only [List.mem_map, List.mem_range]
    exact ⟨by rintro ⟨i, hi, rfl⟩; omega, fun h => ⟨q - lo, by omega, by omega⟩⟩
  rw [hfold, mem_foldl_insNat, hrange]
/-- A poisoned write marks every sector that it touches. -/
theorem State.contains_spoisWrite_true (s : State) {k n : Nat} (hn : n ≠ 0) (q : Nat) :
    (s.spoisWrite k n true).spois.contains q = (s.spois.contains q || (k / 32 ≤ q && q ≤ (k + n - 1) / 32)) := by
  have hle : k / 32 ≤ (k + n - 1) / 32 := Nat.div_le_div_right (by omega)
  have hspan : k / 32 + ((k + n - 1) / 32 - k / 32 + 1) = (k + n - 1) / 32 + 1 := by rw [← Nat.add_assoc, Nat.add_sub_of_le hle]
  rw [Bool.eq_iff_iff]
  simp only [State.spoisWrite, if_true, sectorsOf, if_neg hn, List.contains_iff_mem, Bool.or_eq_true, Bool.and_eq_true, decide_eq_true_eq,
    mem_addRange, hspan, Nat.lt_succ_iff]
  exact or_comm
theorem extractByte_eq (v : W64) (j : Nat) : BitVec.ofNat 8 (v.toNat / 2 ^ (8 * j)) = v.extractLsb' (8 * j) 8 := by
  apply BitVec.eq_of_toNat_eq
  rw [BitVec.extractLsb'_toNat, BitVec.toNat_ofNat, Nat.shiftRight_eq_div_pow]

section
variable (s : State) (w : Width) (n o : Nat) (v : W64) (p : Bool)

theorem storeTo_eq : storeTo s w n o v p = { s.setCur ((past s n).watchBytes true o (widthBytes w)) with
    mem := Memory.write s.mem (regionKey s.cur + o) (bytesOf (widthBytes w) v.toNat)
    spois := if p then (s.spoisWrite (regionKey s.cur + o) (widthBytes w) true).spois else s.spois } := by
  cases p <;> rfl
theorem storeTo_wf (hw : Memory.wf s.mem = true) : Memory.wf (storeTo s w n o v p).mem = true := by
  rw [storeTo_eq]; exact Memory.wf_write _ _ _ hw
/-- Besides memory and poison bits a store changes the issuing actor only. -/
theorem storeTo_rest : { storeTo s w n o v p with mem := s.mem, spois := s.spois } =
    s.setCur ((past s n).watchBytes true o (widthBytes w)) := by
  rw [storeTo_eq]; rfl
theorem storeTo_byte (hw : Memory.wf s.mem = true) {j : Nat} (hj : j < widthBytes w) :
    Memory.get (storeTo s w n o v p).mem (regionKey s.cur + o + j) = v.extractLsb' (8 * j) 8 := by
  rw [storeTo_eq, ← extractByte_eq]
  exact Memory.get_write_inside _ _ _ _ _ hw (bytesOf_getElem? _ _ _ hj)
theorem storeTo_elsewhere (hw : Memory.wf s.mem = true) {q : Nat} (hq : q < regionKey s.cur + o ∨ regionKey s.cur + o + widthBytes w ≤ q) :
    Memory.get (storeTo s w n o v p).mem q = Memory.get s.mem q := by
  rw [storeTo_eq]
  exact Memory.get_write_outside _ _ _ _ hw (by rwa [bytesOf_length])
theorem storeTo_poison (q : Nat) : (storeTo s w n o v p).spois.contains q = (s.spois.contains q ||
    (p && (regionKey s.cur + o) / 32 ≤ q && q ≤ (regionKey s.cur + o + widthBytes w - 1) / 32)) := by
  rw [storeTo_eq]
  cases p with
  | false => simp
  | true => simpa using s.contains_spoisWrite_true (widthBytes_ne_zero w) q

end

end Sys2Proof.Machine

open Sys2Proof Sys2Proof.Machine

/-- Settles O10: a load whose offset passes its checks reads the bytes one by one, and its pushes and watchpoints are all that it does. -/
theorem loadResults : Obligations.LoadResults := by
  unfold Obligations.LoadResults
  intro w a b disp sx dst g s u v ha hb hg hw
  refine ⟨fun ho => ?ld, fun ho => ?ldx⟩
  case ld =>
    rw [exec_ld_eq ha hg, finish_bind (spOffset_ok ho)]
    exact ran_loadFrom hw w 1 u.toNat false none
  case ldx =>
    rw [exec_ldx_eq ha hb hg, Bool.or_self, finish_bind (spOffset_ok ho)]
    exact ran_loadFrom hw w 3 _ sx dst

/-- Settles O11: a store whose offset passes its checks is its bytes, its poison and the issuing actor. -/
theorem storeResults : Obligations.StoreResults := by
  unfold Obligations.StoreResults
  intro w a b c disp g s u v z pv pz ha hg hw
  refine ⟨fun hb ho => ⟨_, ?st, storeTo_wf s w 1 u.toNat v pv hw, fun j => storeTo_byte s w 1 u.toNat v pv hw,
      fun q => storeTo_elsewhere s w 1 u.toNat v pv hw, storeTo_poison s w 1 u.toNat v pv, storeTo_rest s w 1 u.toNat v pv⟩,
    fun hb hc ho => ⟨_, ?stx, storeTo_wf s w 3 _ z pz hw, fun j => storeTo_byte s w 3 _ z pz hw,
      fun q => storeTo_elsewhere s w 3 _ z pz hw, storeTo_poison s w 3 _ z pz, storeTo_rest s w 3 _ z pz⟩⟩
  case st => rw [exec_st_eq ha hb hg, finish_bind (spOffset_ok ho)]; rfl
  case stx => rw [exec_stx_eq ha hb hc hg, Bool.or_self, finish_bind (spOffset_ok ho)]; rfl

/-- Settles O12: the checks of step 4 of R188, in their order. -/
theorem scratchpadChecks : Obligations.ScratchpadChecks := by
  unfold Obligations.ScratchpadChecks
  intro w a b c disp sx dst g s u v z pu pv pz ha hb hc hg
  dsimp only
  rw [exec_ld_eq ha hg, exec_st_eq ha hb hg, exec_ldx_eq ha hb hg, exec_stx_eq ha hb hc hg]
  refine ⟨fun h => ?_, fun h => ?_, fun h hbad => ?_, fun h hbad => ?_⟩
  · rw [h, finish_bind_error spOffset_poisoned, finish_bind_error spOffset_poisoned]; exact ⟨rfl, rfl⟩
  · rw [h, finish_bind_error spOffset_poisoned, finish_bind_error spOffset_poisoned]; exact ⟨rfl, rfl⟩
  · rw [h, finish_bind_error (spOffset_bad hbad), finish_bind_error (spOffset_bad hbad)]; exact ⟨rfl, rfl⟩
  · rw [h, finish_bind_error (spOffset_bad hbad), finish_bind_error (spOffset_bad hbad)]; exact ⟨rfl, rfl⟩
end

