-- ==== Sys2Proof/Proofs/SystemRegisters.lean ====
section
/-! PROOFS. System registers, counters and boot mode (08 R189, R190, R192, R193; 21 R394, R396), and words that the manual works out (08
R194; 13): O13, O15 and O59. -/

namespace Sys2Proof.Machine

-- Values from outside (21 R394, R396) ------------------------------------------------------------------------------

/-- Where no log is kept or read, a value from outside is pushed as any other. -/
theorem ran_pushOutside (s : State) (n : Nat) (v : W64) : ran ((s.pushOutside v false).retire n) = gave s n v := by
  by_cases h : s.cur.audit = none ∧ s.cur.shadow = none
  · have hout : s.pushOutside v false = s.push v false := by simp only [State.pushOutside, State.outside, State.logIn, h.1, h.2]
    rw [gave, if_pos h, hout, State.retire, State.push, State.cur_setCur, State.setCur_setCur]
    rfl
  · rw [gave, if_neg h]
theorem finish_pushRead (s : State) (r : Option W64) :
    finish s (pushRead s r) = match r with | none => dies s rIllegal | some v => gave s 1 v := by
  cases r with
  | none => rfl
  | some v => exact ran_pushOutside s 1 v

-- System registers and counters (08 R189, R190) --------------------------------------------------------------------

section
variable {a b : Scalar} {g : Guard} {s : State} {u v : W64}

theorem exec_sysrd_ready (ha : Reads s a u false) (hg : GuardOn s g) :
    exec (.sysrd a g) s = finish s (pushRead s (sysValue s s.cur u.toNat)) := by
  simp only [exec_sysrd, execSysrd, guarded_on hg, clean_ok ha, ok_bind]
theorem exec_ctrd_ready (ha : Reads s a u false) (hg : GuardOn s g) :
    exec (.ctrd a g) s = finish s (pushRead s (counterValue s s.cur u.toNat)) := by
  simp only [exec_ctrd, execCtrd, guarded_on hg, clean_ok ha, ok_bind]
theorem exec_syswr_poisoned {pu pv : Bool} (ha : Reads s a u pu) (hb : Reads s b v pv) (hg : GuardOn s g) (h : (pu || pv) = true) :
    exec (.syswr a b g) s = dies s rPoison := by
  cases pu with
  | true => simp only [exec_syswr, execSyswr, guarded_on hg, clean_poisoned ha, error_bind, finish_kill]
  | false =>
    rw [Bool.false_or] at h; subst h
    simp only [exec_syswr, execSyswr, guarded_on hg, clean_ok ha, clean_poisoned hb, ok_bind, error_bind, finish_kill]

section
variable (ha : Reads s a u false) (hb : Reads s b v false) (hg : GuardOn s g) {n : Nat} (hn : u.toNat = n)
include ha hb hg hn

theorem exec_syswr_listed (h : (sysValue s s.cur n).isSome = true) :
    exec (.syswr a b g) s = ran (s.setCur ((sysWrite s.cur n v).retire 1)) := by
  subst hn
  simp only [exec_syswr, execSyswr, guarded_on hg, clean_ok ha, clean_ok hb, check_ok _ h, ok_bind, pure_eq, finish_ok]
theorem exec_syswr_unlisted (h : (sysValue s s.cur n).isSome = false) : exec (.syswr a b g) s = dies s rIllegal := by
  subst hn
  simp only [exec_syswr, execSyswr, guarded_on hg, clean_ok ha, clean_ok hb, check_no _ h, ok_bind, error_bind, finish_kill]

end

end

/-- The table of R189. -/
theorem sysValue_eq (s : State) (c : Actor) (n : Nat) : sysValue s c n = match n with
    | 0x010 => some c.lc
    | 0x011 => some (BitVec.ofNat 64 c.ldep)
    | 0x020 => some (BitVec.ofNat 64 (runCell c))
    | 0x021 => some (BitVec.ofNat 64 (ctxSlot c))
    | 0x022 => some (BitVec.ofNat 64 (jobOf (selfName c)))
    | 0x030 => some (BitVec.ofNat 64 (s.budrem c))
    | 0x031 => some (BitVec.ofNat 64 c.eprio)
    | 0x050 => some c.gen
    | n => if 0x040 ≤ n ∧ n ≤ 0x04F then some (c.fmts.getD (n - 0x040) 0) else none := by
  symm
  split
  case h_9 h1 h2 h3 h4 h5 h6 h7 h8 =>
    simp only [sysValue, if_neg h1, if_neg h2, if_neg h3, if_neg h4, if_neg h5, if_neg h6, if_neg h7, if_neg h8, Nat.lt_succ_iff]
  all_goals rfl
/-- The format descriptors in that table. -/
theorem sysValue_fmt (s : State) (c : Actor) {n : Nat} (h : 0x040 ≤ n ∧ n ≤ 0x04F) : sysValue s c n = some (c.fmts.getD (n - 0x040) 0) := by
  simp (disch := omega) only [sysValue, if_neg, if_pos]
theorem sysWrite_fmt (c : Actor) (v : W64) {n : Nat} (h : 0x040 ≤ n ∧ n ≤ 0x04F) :
    sysWrite c n v = { c with fmts := c.fmts.set (n - 0x040) v } := by
  simp (disch := omega) only [sysWrite, if_neg, if_pos]

-- Boot mode (08 R192, R193) ----------------------------------------------------------------------------------------

/-- Rows moved change memory and poison bits only. -/
theorem State.foldl_moveRow (s : State) (src dst : Nat → Nat) (rows : List Nat) :
    ∃ m sp, rows.foldl (fun (t : State) r => t.moveRow (src r) (dst r)) s = { s with mem := m, spois := sp } := by
  induction rows generalizing s with
  | nil => exact ⟨s.mem, s.spois, rfl⟩
  | cons r rows ih => exact ih (s.moveRow (src r) (dst r))
theorem State.cell_retire (s : State) (n c : Nat) : (s.retire n).cell c = s.cell c := rfl
/-- A repair entry written moves rows and changes its entry. -/
theorem State.setRepair_eq (s : State) (c i : Nat) (v : W32) : ∃ m sp, s.setRepair c i v =
    ({ s with mem := m, spois := sp } : State).modCell c fun x => { x with repair := (s.cell c).repair.set i v } := by
  unfold State.setRepair
  dsimp only
  generalize List.filter _ _ = rows
  obtain ⟨m₁, sp₁, h₁⟩ := s.foldl_moveRow (fun r => spKey c (r * 128)) (rowHome c (s.cell c).repair) rows
  rw [h₁]
  obtain ⟨m₂, sp₂, h₂⟩ := State.foldl_moveRow { s with mem := m₁, spois := sp₁ } (rowHome c ((s.cell c).repair.set i v))
    (fun r => spKey c (r * 128)) rows
  rw [h₂]
  exact ⟨m₂, sp₂, rfl⟩
/-- Bits 13:0 of a repair entry stay 0. -/
theorem repairEntry_eq (v : W64) : BitVec.ofNat 32 (v.toNat % 2 ^ 32 / 2 ^ 14 * 2 ^ 14) = v.setWidth 32 &&& 0xFFFFC000 := by
  have hmask : ∀ i < 32, (0xFFFFC000 : W32).getLsbD i = decide (14 ≤ i) := by decide
  have hclear : BitVec.ofNat 32 (v.toNat % 2 ^ 32 / 2 ^ 14 * 2 ^ 14) = (v.setWidth 32 >>> 14) <<< 14 := by
    apply BitVec.eq_of_toNat_eq
    simp only [BitVec.toNat_ofNat, BitVec.toNat_shiftLeft, BitVec.toNat_ushiftRight, BitVec.toNat_setWidth, Nat.shiftLeft_eq,
      Nat.shiftRight_eq_div_pow]
  rw [hclear]
  apply BitVec.eq_of_getLsbD_eq
  intro i hi
  rw [BitVec.getLsbD_and, hmask i hi, BitVec.getLsbD_shiftLeft, BitVec.getLsbD_ushiftRight]
  by_cases h14 : 14 ≤ i
  · simp [hi, h14, Nat.not_lt.2 h14]
  · simp [h14, Nat.not_le.1 h14]

section
variable {a b : Scalar} {g : Guard} {s : State} {u v : W64} {pu pv : Bool} (hm : BootMode s) (hg : GuardOn s g)
include hm hg

theorem exec_halt_ready (ha : Reads s a u pu) : exec (.halt a g) s = ran (s.bootStatus s.cur.cell u pu) := by
  simp only [exec_halt, execHalt, bootOnly_on hm, guarded_on hg, operand_ok ha, ok_bind, pure_eq, finish_ok]
theorem exec_rprd_poisoned (ha : Reads s a u true) : exec (.rprd a g) s = dies s rPoison := by
  simp only [exec_rprd, execRprd, bootOnly_on hm, guarded_on hg, clean_poisoned ha, error_bind, finish_kill]
theorem exec_rprd_beyond (ha : Reads s a u false) (hu : 16 ≤ u.toNat) : exec (.rprd a g) s = dies s rIllegal := by
  simp only [exec_rprd, execRprd, bootOnly_on hm, guarded_on hg, clean_ok ha, check_no _ (decide_eq_false (Nat.not_lt.2 hu)), ok_bind,
    error_bind, finish_kill]
theorem exec_rprd_ready (ha : Reads s a u false) (hu : u.toNat < 16) :
    exec (.rprd a g) s = pushed s 1 (((s.cell s.cur.cell).repair.getD u.toNat 0).setWidth 64) false := by
  simp only [exec_rprd, execRprd, bootOnly_on hm, guarded_on hg, clean_ok ha, check_ok _ (decide_eq_true hu), ok_bind, pure_eq, finish_ok]
  rfl
theorem exec_rpwr_poisoned (ha : Reads s a u pu) (hb : Reads s b v pv) (h : (pu || pv) = true) : exec (.rpwr a b g) s = dies s rPoison := by
  cases pu with
  | true => simp only [exec_rpwr, execRpwr, bootOnly_on hm, guarded_on hg, clean_poisoned ha, error_bind, finish_kill]
  | false =>
    rw [Bool.false_or] at h; subst h
    simp only [exec_rpwr, execRpwr, bootOnly_on hm, guarded_on hg, clean_ok ha, clean_poisoned hb, ok_bind, error_bind, finish_kill]
theorem exec_rpwr_beyond (ha : Reads s a u false) (hb : Reads s b v false) (hu : 16 ≤ u.toNat) :
    exec (.rpwr a b g) s = dies s rIllegal := by
  simp only [exec_rpwr, execRpwr, bootOnly_on hm, guarded_on hg, clean_ok ha, clean_ok hb, check_no _ (decide_eq_false (Nat.not_lt.2 hu)),
    ok_bind, error_bind, finish_kill]
theorem exec_rpwr_ready (ha : Reads s a u false) (hb : Reads s b v false) (hu : u.toNat < 16) :
    exec (.rpwr a b g) s = ran ((s.setRepair s.cur.cell u.toNat (v.setWidth 32 &&& 0xFFFFC000)).retire 1) := by
  simp only [exec_rpwr, execRpwr, bootOnly_on hm, guarded_on hg, clean_ok ha, clean_ok hb, check_ok _ (decide_eq_true hu), ok_bind, pure_eq,
    finish_ok, repairEntry_eq]

end
/-- What `rpwr` leaves: the repair table with its entry, and the issuing actor past its instruction. -/
theorem State.repaired (s : State) (i : Nat) (v : W32) : let t := (s.setRepair s.cur.cell i v).retire 1
    (t.cell s.cur.cell).repair = (s.cell s.cur.cell).repair.set i v ∧ t.cur = { past s 1 with name := s.focus } := by
  obtain ⟨m, sp, h⟩ := s.setRepair_eq s.cur.cell i v
  dsimp only
  rw [h]
  refine ⟨?_, State.cur_setCur _ _⟩
  rw [State.cell_retire, State.cell_modCell]

end Sys2Proof.Machine

open Sys2Proof Sys2Proof.Machine

/-- Settles O13: the tables of `sysrd` and `ctrd`, each read pushed as a value from outside; a write by its number. -/
theorem systemRegisterResults : Obligations.SystemRegisterResults := by
  unfold Obligations.SystemRegisterResults
  refine ⟨fun a g s u ha hg => ⟨?sysrd, ?ctrd⟩, fun a b g s u v pu pv ha hb hg => ⟨exec_syswr_poisoned ha hb hg, ?syswr⟩⟩
  case sysrd =>
    rw [exec_sysrd_ready ha hg, sysValue_eq]
    exact finish_pushRead s _
  case ctrd => exact (exec_ctrd_ready ha hg).trans (finish_pushRead s _)
  case syswr =>
    rintro rfl rfl
    split
    case h_9 h1 h2 h3 h4 h5 h6 h7 h8 =>
      split
      case isTrue h =>
        rw [exec_syswr_listed ha hb hg rfl (by rw [sysValue_fmt _ _ h]; rfl), sysWrite_fmt _ _ h]; rfl
      case isFalse h =>
        have hfmt : ¬ (0x040 ≤ u.toNat ∧ u.toNat < 0x050) := by omega
        refine exec_syswr_unlisted ha hb hg rfl ?_
        simp only [sysValue, if_neg h1, if_neg h2, if_neg h3, if_neg h4, if_neg h5, if_neg h6, if_neg h7, if_neg hfmt, if_neg h8,
          Option.isSome_none]
    all_goals
      next hn => rw [exec_syswr_listed ha hb hg hn rfl]; rfl

/-- Settles O15: the checks of `rpwr` and `rprd` in their order, then the entry that each writes or reads. -/
theorem bootInstructions : Obligations.BootInstructions := by
  unfold Obligations.BootInstructions
  intro a b g s u v pu pv hm ha hb hg
  refine ⟨exec_rpwr_poisoned hm hg ha hb, ?rprdPoisoned, ?rpwrBeyond, ?rprdBeyond, ?rpwr, ?rprd, exec_halt_ready hm hg ha⟩
  case rprdPoisoned => rintro rfl; exact exec_rprd_poisoned hm hg ha
  case rpwrBeyond => rintro rfl rfl; exact exec_rpwr_beyond hm hg ha hb
  case rprdBeyond => rintro rfl; exact exec_rprd_beyond hm hg ha
  case rprd => rintro rfl; exact exec_rprd_ready hm hg ha
  case rpwr =>
    rintro rfl rfl hu hl
    obtain ⟨hrepair, hcur⟩ := s.repaired u.toNat (v.setWidth 32 &&& 0xFFFFC000)
    refine ⟨_, exec_rpwr_ready hm hg ha hb hu, ?_, fun i hi => ?_, hcur⟩
    · dsimp only
      rw [hrepair, List.getD_eq_getElem?_getD, List.getElem?_set_self (by rwa [hl])]; rfl
    · dsimp only
      rw [hrepair, List.getD_eq_getElem?_getD, List.getElem?_set_ne (Ne.symm hi), List.getD_eq_getElem?_getD]

/-- Settles O59: each word decodes by evaluation of the decoder. -/
theorem decodeWords_manual : Obligations.DecodeWords := by
  unfold Obligations.DecodeWords
  decide
end

