-- ==== Sys2Proof/Proofs/RegisterFrame.lean ====
section
/-! PROOFS. The frame of the register-only instructions (08 R174 to R186, R191): O55. -/

namespace Sys2Proof.Machine

-- What a register-only evaluation may come to ----------------------------------------------------------------------

/-- `b` is `a` but for its name, program counter, count of retired instructions, result queue, named registers, predicates, loop counter,
link stack and generator; only an instruction that `draws` may step the generator (06 R151). -/
def Actor.OwnRegs (draws : Bool) (a b : Actor) : Prop :=
  { b with
    name := a.name, pc := a.pc, retired := a.retired, h := a.h, s := a.s, p := a.p, lc := a.lc, ls := a.ls, ldep := a.ldep, gen := a.gen } = a ∧
    (draws = false → b.gen = a.gen)

section
variable {draws : Bool} {a b : Actor}

theorem Actor.OwnRegs.refl (a : Actor) : a.OwnRegs draws a := ⟨rfl, fun _ => rfl⟩
theorem Actor.OwnRegs.drawn (a : Actor) (n : ActorName) (g : W64) : a.OwnRegs true { a with gen := g, name := n } := ⟨rfl, nofun⟩

variable (h : a.OwnRegs draws b)
include h

theorem Actor.OwnRegs.push (e : Ent) : a.OwnRegs draws (b.push e) := h
theorem Actor.OwnRegs.retire (n : Nat) : a.OwnRegs draws (b.retire n) := h
theorem Actor.OwnRegs.jump (pc : Nat) : a.OwnRegs draws (b.jump pc) := h
theorem Actor.OwnRegs.setS (k : Nat) (e : Ent) : a.OwnRegs draws (b.setS k e) := h
theorem Actor.OwnRegs.setDst (dst : Option (Fin 16)) (e : Ent) : a.OwnRegs draws (b.setDst dst e) := by cases dst <;> exact h
theorem Actor.OwnRegs.setPred (k : Fin 8) (v p : Bool) : a.OwnRegs draws (b.setPred k v p) := h
theorem Actor.OwnRegs.setLc (v : W64) : a.OwnRegs draws { b with lc := v } := h
theorem Actor.OwnRegs.setDepth (n : Nat) : a.OwnRegs draws { b with ldep := n } := h
theorem Actor.OwnRegs.setLinks (l : List W64) (n : Nat) : a.OwnRegs draws { b with ls := l, ldep := n } := h
theorem Actor.OwnRegs.foldl_push {α : Type} (f : α → Ent) (l : List α) : a.OwnRegs draws (l.foldl (fun c x => c.push (f x)) b) := by
  induction l generalizing b with
  | nil => exact h
  | cons x l ih => exact ih (h.push (f x))

end

/-- An evaluation that ends in those registers of the issuing actor alone. -/
def WritesRegs (draws : Bool) (s : State) : Res State → Prop
  | .ok t => ∃ b, t = s.setCur b ∧ s.cur.OwnRegs draws b
  | .error (.stall t) => t = s
  | .error (.kill _) => True
/-- The answer of such an evaluation. -/
def StaysInRegs (draws : Bool) (s : State) (o : Out) : Prop := ∃ r, o = finish s r ∧ WritesRegs draws s r

section
variable {draws : Bool} {s : State}

theorem WritesRegs.write {b : Actor} (hb : s.cur.OwnRegs draws b) : WritesRegs draws s (pure (s.setCur b)) := ⟨b, rfl, hb⟩
theorem WritesRegs.operand {a : Scalar} {f : W64 × Bool → Res State} (h : ∀ x p, WritesRegs draws s (f (x, p))) :
    WritesRegs draws s (operand s a >>= f) := by
  cases he : readEnt s.cur a with
  | val x p => rw [operand_ok he]; exact h x p
  | wait t => rw [operand_wait he]; exact rfl
theorem WritesRegs.check {c : Bool} {r : Reason} {f : Unit → Res State} (h : WritesRegs draws s (f ())) :
    WritesRegs draws s (check c r >>= f) := by
  cases c with
  | true => exact h
  | false => exact trivial
theorem WritesRegs.clean {a : Scalar} {f : W64 → Res State} (h : ∀ x, WritesRegs draws s (f x)) :
    WritesRegs draws s (cleanOperand s a >>= f) := by
  cases he : readEnt s.cur a with
  | val x p =>
    cases p with
    | false => rw [clean_ok he]; exact h x
    | true => rw [clean_poisoned he]; exact trivial
  | wait t => rw [clean_wait he]; exact rfl
theorem StaysInRegs.unguarded {r : Res State} (h : WritesRegs draws s r) : StaysInRegs draws s (unguarded s r) := ⟨r, rfl, h⟩
/-- Guarded off, an instruction pushes entries; a poisoned guard kills (01 R23, 08 R173). -/
theorem StaysInRegs.guarded {g : Guard} {n : Nat} {l : List Scalar} {r : Res State} (h : WritesRegs draws s r) :
    StaysInRegs draws s (guarded s g n l r) := by
  rcases guard_cases s g with hg | hg | hg
  · exact ⟨r, guarded_on hg n l r, h⟩
  · exact ⟨.ok (guardedOff s n l), guarded_off hg n l r, _, rfl, ((Actor.OwnRegs.refl s.cur).foldl_push (readEnt s.cur) l).retire n⟩
  · exact ⟨.error (.kill rPoison), guarded_poisoned hg n l r, trivial⟩

end

-- The shapes (08 R174 to R182) -------------------------------------------------------------------------------------

section
variable {w : Width} {a b : Scalar} {d p q : Fin 8} {g : Guard} {s : State}

theorem WritesRegs.result {draws : Bool} (n : Nat) (v : W64) (p : Bool) : WritesRegs draws s (pure (s.result n v p)) :=
  .write (((Actor.OwnRegs.refl s.cur).push _).retire n)
theorem WritesRegs.jump {draws : Bool} (pc : Nat) : WritesRegs draws s (pure (s.setCur (s.cur.jump pc))) :=
  .write ((Actor.OwnRegs.refl s.cur).jump pc)
theorem intOp2_stays (f : Nat → Int → Nat → Int → Int) : StaysInRegs false s (intOp2 w a b g s f) :=
  .guarded (.operand fun _ _ => .operand fun _ _ => .result _ _ _)
theorem intOp1_stays (f : Nat → W64) : StaysInRegs false s (intOp1 w a g s f) := .guarded (.operand fun _ _ => .result _ _ _)
theorem immOp_stays (f : W64 → W64) : StaysInRegs false s (immOp a s f) := .unguarded (.operand fun _ _ => .result _ _ _)
theorem fpOp2_stays (f : Val → Val → Val) : StaysInRegs false s (fpOp2 a b g s f) :=
  .guarded (.operand fun _ _ => .operand fun _ _ => .result _ _ _)
theorem fpOp1_stays (f : Val → Val) : StaysInRegs false s (fpOp1 a g s f) := .guarded (.operand fun _ _ => .result _ _ _)
theorem predOp_stays (f : Bool → Bool → Bool) : StaysInRegs false s (predOp d p q s f) :=
  .unguarded (.write (((Actor.OwnRegs.refl s.cur).setPred d _ _).retire 1))
/-- A result rounded once, after its draw. -/
theorem WritesRegs.rounded (rnd : Rnd) (n : Nat) (dst : Option (Fin 16)) (v : W64) (p : Bool) :
    WritesRegs true s (pure ((s.oneDraw rnd).2.resultTo n dst v p)) := by
  rw [State.oneDraw_snd]
  split
  · refine ⟨_, ?_, (((Actor.OwnRegs.drawn s.cur s.focus (nextGen s.cur.gen)).push (.val v p)).setDst dst (.val v p)).retire n⟩
    rw [State.resultTo, State.cur_setCur, State.setCur_setCur]
    rfl
  · exact .write ((((Actor.OwnRegs.refl s.cur).push (.val v p)).setDst dst (.val v p)).retire n)

end

-- Every register-only instruction ----------------------------------------------------------------------------------

/-- The instructions that take a draw of the generator (08 R180). -/
def takesDraw : Instr → Bool | .ffma _ _ _ _ _ _ _ | .fcvt _ _ _ _ _ _ _ => true | _ => false

theorem exec_staysInRegs {i : Instr} (s : State) (h : registerOnly i = true) : StaysInRegs (takesDraw i) s (exec i s) := by
  cases i with
  | add => rw [exec_add]; exact intOp2_stays _
  | sub => rw [exec_sub]; exact intOp2_stays _
  | mul => rw [exec_mul]; exact intOp2_stays _
  | mulh => rw [exec_mulh]; exact intOp2_stays _
  | mulhu => rw [exec_mulhu]; exact intOp2_stays _
  | div => rw [exec_div]; exact intOp2_stays _
  | divu => rw [exec_divu]; exact intOp2_stays _
  | rem => rw [exec_rem]; exact intOp2_stays _
  | remu => rw [exec_remu]; exact intOp2_stays _
  | and => rw [exec_and]; exact intOp2_stays _
  | or => rw [exec_or]; exact intOp2_stays _
  | xor => rw [exec_xor]; exact intOp2_stays _
  | andn => rw [exec_andn]; exact intOp2_stays _
  | orn => rw [exec_orn]; exact intOp2_stays _
  | shl => rw [exec_shl]; exact intOp2_stays _
  | shr => rw [exec_shr]; exact intOp2_stays _
  | sar => rw [exec_sar]; exact intOp2_stays _
  | rol => rw [exec_rol]; exact intOp2_stays _
  | min => rw [exec_min]; exact intOp2_stays _
  | max => rw [exec_max]; exact intOp2_stays _
  | minu => rw [exec_minu]; exact intOp2_stays _
  | maxu => rw [exec_maxu]; exact intOp2_stays _
  | clz => rw [exec_clz]; exact intOp1_stays _
  | ctz => rw [exec_ctz]; exact intOp1_stays _
  | popc => rw [exec_popc]; exact intOp1_stays _
  | sext => rw [exec_sext]; exact intOp1_stays _
  | zext => rw [exec_zext]; exact intOp1_stays _
  | bswap => rw [exec_bswap]; exact intOp1_stays _
  | addi => rw [exec_addi]; exact immOp_stays _
  | andi => rw [exec_andi]; exact immOp_stays _
  | ori => rw [exec_ori]; exact immOp_stays _
  | xori => rw [exec_xori]; exact immOp_stays _
  | shli => rw [exec_shli]; exact immOp_stays _
  | shri => rw [exec_shri]; exact immOp_stays _
  | sari => rw [exec_sari]; exact immOp_stays _
  | li => rw [exec_li]; exact .unguarded (.result _ _ _)
  | lit => rw [exec_lit]; exact .unguarded (.result _ _ _)
  | keep => rw [exec_keep]; exact .unguarded (.operand fun _ _ => .write (((Actor.OwnRegs.refl s.cur).setS _ _).retire 1))
  | dup => rw [exec_dup]; exact .guarded (.operand fun _ _ => .result _ _ _)
  | lea => rw [exec_lea]; exact .guarded (.operand fun _ _ => .operand fun _ _ => .result _ _ _)
  | fadd => rw [exec_fadd]; exact fpOp2_stays _
  | fsub => rw [exec_fsub]; exact fpOp2_stays _
  | fmul => rw [exec_fmul]; exact fpOp2_stays _
  | fdiv => rw [exec_fdiv]; exact fpOp2_stays _
  | fmin => rw [exec_fmin]; exact fpOp2_stays _
  | fmax => rw [exec_fmax]; exact fpOp2_stays _
  | fabs => rw [exec_fabs]; exact fpOp1_stays _
  | fsqrt => rw [exec_fsqrt]; exact fpOp1_stays _
  | ffma =>
    rw [exec_ffma]
    exact .guarded (.operand fun _ _ => .operand fun _ _ => .operand fun _ _ => .rounded _ _ _ _ _)
  | fcvt => rw [exec_fcvt]; exact .guarded (.operand fun _ _ => .rounded _ _ _ _ _)
  | pset =>
    rw [exec_pset]
    exact .guarded (.operand fun _ _ => .operand fun _ _ => .write (((Actor.OwnRegs.refl s.cur).setPred _ _ _).retire 3))
  | psetf =>
    rw [exec_psetf]
    exact .guarded (.operand fun _ _ => .operand fun _ _ => .write (((Actor.OwnRegs.refl s.cur).setPred _ _ _).retire 3))
  | pand => rw [exec_pand]; exact predOp_stays _
  | por => rw [exec_por]; exact predOp_stays _
  | pxor => rw [exec_pxor]; exact predOp_stays _
  | pnot => rw [exec_pnot]; exact predOp_stays _
  | sel => rw [exec_sel]; exact .guarded (.operand fun _ _ => .result _ _ _)
  | br => rw [exec_br]; exact .guarded (.jump _)
  | bp => rw [exec_bp]; exact .guarded (.jump _)
  | call => rw [exec_call]; exact .guarded (.check (.write (((Actor.OwnRegs.refl s.cur).jump _).setLinks _ _)))
  | ret => rw [exec_ret]; exact .guarded (.check (.write (((Actor.OwnRegs.refl s.cur).jump _).setDepth _)))
  | loop =>
    rw [exec_loop]
    refine .guarded ?_
    dsimp only
    split
    · exact .write ((Actor.OwnRegs.refl s.cur).retire 1)
    · split
      · exact .write (((Actor.OwnRegs.refl s.cur).retire 1).setLc 0)
      · exact .write (((Actor.OwnRegs.refl s.cur).jump _).setLc _)
  | jmpx => rw [exec_jmpx]; exact .guarded (.clean fun _ => .check (.jump _))
  | nop => rw [exec_nop]; exact .unguarded (.write ((Actor.OwnRegs.refl s.cur).retire 1))
  | _ => cases h

/-- A kill of the issuing actor leaves it not ACTIVE (16 R343, R344). -/
theorem killed_not_active {s : State} (r : Reason) (h : s.cur.st = .active) : (killActor s s.focus r).cur.st ≠ .active := by
  have hk : killable (s.actor s.focus) := .inr (.inr (.inl h))
  obtain ⟨c, m, w, he, -, -⟩ := killActor_eq s s.focus r hk
  obtain ⟨k, hself⟩ := killActor_self s s.focus r hk
  have hfocus : (killActor s s.focus r).focus = s.focus := by rw [he]; rfl
  rw [State.cur, hfocus, hself]
  exact nofun

end Sys2Proof.Machine

open Sys2Proof Sys2Proof.Machine

/-- Settles O55: a register-only instruction that leaves its actor ACTIVE has not killed it, so that it has written its own registers or
has stalled. -/
theorem registerFrame : Obligations.RegisterFrame := by
  unfold Obligations.RegisterFrame
  intro i s t hi hs ht hact
  have hdraw : (∀ a b c d r x g, i ≠ .ffma a b c d r x g) → (∀ k w a d r x g, i ≠ .fcvt k w a d r x g) → takesDraw i = false := by
    intro h₁ h₂
    unfold takesDraw
    split
    · exact absurd rfl (h₁ _ _ _ _ _ _ _)
    · exact absurd rfl (h₂ _ _ _ _ _ _ _)
    · rfl
  obtain ⟨r, hr, hw⟩ := exec_staysInRegs s hi
  rw [hr] at ht
  match r, hw, ht with
  | .ok _, ⟨b, rfl, hregs, hgen⟩, rfl =>
    have hcur : ({ s.setCur b with stalled := false } : State).cur = { b with name := s.focus } := State.cur_setCur s b
    rw [hcur]
    exact ⟨fun _ => rfl, fun n hn => State.actor_setCur_other s b n hn, rfl, hregs, fun h₁ h₂ => hgen (hdraw h₁ h₂)⟩
  | .error (.stall _), rfl, rfl => exact ⟨fun _ => rfl, fun _ _ => rfl, rfl, rfl, fun _ _ => rfl⟩
  | .error (.kill k), _, rfl => exact absurd hact (killed_not_active k hs)
end

