-- ==== Sys2Proof/Proofs/UnitIssue.lean ====
section
/-! PROOFS. The checks that the instructions of the matrix and the vector unit share at issue (10 R231, R233, R244, R248). -/

namespace Sys2Proof.Machine

-- One check after another --------------------------------------------------------------------------------------------

/-- A step that only some forms take. -/
theorem finish_when {s : State} {b : Bool} {r : Res Unit} {f : Unit → Res State} (h : b = true → r = .ok ()) :
    finish s (if b = true then r >>= f else f ()) = finish s (f ()) := by
  split
  · next hb => exact finish_bind (h hb)
  · rfl
/-- Two checks of which a form takes one. -/
theorem finish_either {s : State} {b : Bool} {r r' : Res Unit} {f : Unit → Res State} (h : b = true → r = .ok ()) (h' : b = false → r' = .ok ()) :
    finish s (if b = true then r >>= f else r' >>= f) = finish s (f ()) := by
  cases b with
  | true => exact finish_bind (h rfl)
  | false => exact finish_bind (h' rfl)

-- Tiles and units (10 R231, R233, R244, R248) ----------------------------------------------------------------------------

theorem needLocal_ok {s : State} {hs : List Nat} (hr : s.cur.roaming = false) (hl : ∀ h ∈ hs, Local s h) : needLocal s hs = .ok () := by
  unfold Local at hl
  exact check_ok _ (by simpa [hr] using hl)
theorem needOpSize_ok {s : State} {o : Option Nat} (h : ∀ k ∈ o, ∃ f n, Sized s k f n) : needOpSize s o = .ok () := by
  cases o with
  | none => rfl
  | some k =>
    obtain ⟨f, n, hs⟩ := h k rfl
    obtain ⟨-, rfl, -⟩ := id hs
    simp only [needOpSize, needSize_ok hs, ok_bind, pure_eq]
theorem needM_ok {s : State} (h : (s.cell s.cur.cell).munit = none) : needM s = .ok () := by simp [needM, h]
theorem needV_ok {s : State} (h : (s.cell s.cur.cell).vunit = none) : needV s = .ok () := by simp [needV, h]
theorem validDescs_ok {s : State} {hs : List Nat} (h : ∀ k ∈ hs, ∃ f n, Sized s k f n) :
    check (hs.all fun k => validDesc (descVal s.cur (tileAt s.cur k))) rIllegal = .ok () := by
  refine check_ok _ (List.all_eq_true.2 fun k hk => ?_)
  obtain ⟨-, -, hv, -⟩ := h k hk
  exact hv

/-- A tile that a unit may read (10 R231, R233). -/
def UnitReads (s : State) (k : Nat) : Prop := Local s k ∧ Readable s k ∧ ∃ f n, Sized s k f n
/-- A tile that the vector unit may write (10 R230, R231, R233). -/
def UnitWrites (s : State) (k : Nat) : Prop := Local s k ∧ Writable s k ∧ (∃ f n, Sized s k f n) ∧ Unread s (tileAt s.cur k).loc.toNat (bytesAt s k)
section
variable {s : State} {k : Nat}

theorem UnitReads.isLocal (h : UnitReads s k) : Local s k := h.1
theorem UnitReads.readable (h : UnitReads s k) : Readable s k := h.2.1
theorem UnitReads.sized (h : UnitReads s k) : ∃ f n, Sized s k f n := h.2.2
theorem UnitWrites.isLocal (h : UnitWrites s k) : Local s k := h.1
theorem UnitWrites.writable (h : UnitWrites s k) : Writable s k := h.2.1
theorem UnitWrites.sized (h : UnitWrites s k) : ∃ f n, Sized s k f n := h.2.2.1
theorem UnitWrites.unread (h : UnitWrites s k) : Unread s (tileAt s.cur k).loc.toNat (bytesAt s k) := h.2.2.2

end

end Sys2Proof.Machine
end

