-- ==== Sys2Proof/Proofs/VectorIssue.lean ====
section
/-! PROOFS. What a vector instruction answers once its operands are in order (10 R233, R245 to R248), and what it finds in them. -/

namespace Sys2Proof.Machine

-- Operands of a vector instruction (10 R245 to R247) -----------------------------------------------------------------

/-- The operand of handle `h`, as the vector unit takes it. -/
def vopAt (s : State) (h : Nat) : VOp := { h := h, ent := tileAt s.cur h, val := descVal s.cur (tileAt s.cur h), desc := fmtOf s h }
/-- The operand of a field that a form may lack. -/
def vopOf (s : State) (o : Option Nat) : VOp := o.elim {} (vopAt s)
/-- What a vector instruction reads at issue. -/
def vinOf (s : State) (e : VExt) (x : W64) (p : Bool) (hd : Nat) (ha hb hc : Option Nat) : VIn :=
  { s := s, e := e, x := x.toNat, xp := p, d := vopAt s hd, a := vopOf s ha, b := vopOf s hb, c := vopOf s hc }

theorem vecOp_read {s : State} {o : Option Nat} (h : ∀ k ∈ o, Readable s k) : vecOp s false o = .ok (vopOf s o) := by
  cases o with
  | none => rfl
  | some k => simp only [vecOp, Bool.false_eq_true, if_false, needRead_ok (h k rfl), ok_bind, pure_eq]; rfl
theorem vecOp_write {s : State} {o : Option Nat} (h : ∀ k ∈ o, Writable s k) : vecOp s true o = .ok (vopOf s o) := by
  cases o with
  | none => rfl
  | some k => simp only [vecOp, if_true, needWrite_ok (h k rfl), ok_bind, pure_eq]; rfl
/-- The value x of R246. -/
theorem finish_value {s : State} {e : VExt} {x : W64} {p : Bool} {f : W64 × Bool → Res State} (h : VecValue s e x p) :
    finish s (if (e.sx == .zero) = true then Except.ok (sext32 e.k, false) >>= f else operand s e.sx >>= f) = finish s (f (x, p)) := by
  unfold VecValue at h
  by_cases hz : e.sx = .zero
  · rw [if_pos hz] at h
    obtain ⟨rfl, rfl⟩ := h
    rw [if_pos (beq_iff_eq.2 hz), ok_bind]
  · rw [if_neg hz] at h
    rw [if_neg (by simpa using hz), operand_ok h, ok_bind]
theorem vecField_some {s : State} {w : Bool} {t : TileSel} {k : Nat} (h : resolve s.cur w t = .ok k) : vecField s true w t = .ok (some k) := by
  simp only [vecField, if_true, h, Except.map]
/-- The operand b is absent under `xs`, and a tile otherwise (R245). -/
theorem vecB_cases {s : State} {e : VExt} {b : TileSel} {hb : Option Nat} (h : VecB s e b hb) :
    (e.xs = true ∧ hb = none) ∨ (e.xs = false ∧ ∃ k, resolve s.cur false b = .ok k ∧ hb = some k) := by
  unfold VecB at h
  cases hx : e.xs with
  | true => rw [if_pos hx] at h; exact .inl ⟨rfl, h⟩
  | false => rw [if_neg (by simp [hx])] at h; exact .inr ⟨rfl, h⟩
theorem vecB_of_resolve {s : State} {e : VExt} {b : TileSel} {k : Nat} (hx : e.xs = false) (h : resolve s.cur false b = .ok k) : VecB s e b (some k) := by
  rw [VecB, if_neg (by simp [hx])]; exact ⟨k, h, rfl⟩
theorem vecField_b {s : State} {e : VExt} {b : TileSel} {hb : Option Nat} (h : VecB s e b hb) : vecField s (!e.xs) false b = .ok hb := by
  rcases vecB_cases h with ⟨hx, rfl⟩ | ⟨hx, k, hk, rfl⟩
  · rw [hx]; rfl
  · rw [hx]; exact vecField_some hk

/-- The handles that the fields of a vector instruction name, and the value x (R245, R246). -/
structure VecTakes (f : VForm) (d a b : TileSel) (e : VExt) (s : State) (x : W64) (p : Bool) (hd : Nat) (ha hb hc : Option Nat) : Prop where
  value : VecValue s e x p
  dst : resolve s.cur true d = .ok hd
  srcA : vecField s f.a false a = .ok ha
  srcB : vecField s (f.b && !e.xs) false b = .ok hb
  srcC : vecField s f.c f.cw e.c = .ok hc

theorem vecOk_append {s : State} {d : Nat} {l r : List Nat} : VecOk s d (l ++ r) ↔ VecOk s d l ∧ ∀ k ∈ r, UnitReads s k := by
  simp only [VecOk, UnitReads, List.mem_append, or_imp, forall_and]
  tauto

/-- A vector instruction that writes the scale bytes `o.scales` to tile `c` besides the elements of its destination issues (R248, R254): `scale`
is the number of its bytes that the unit counts. -/
def vecScales (s : State) (e : VExt) (slow : Bool) (d a c scale : Nat) (o : VOut) : Out :=
  let key := tileKey s.cur (tileAt s.cur c)
  let bad := (o.scales.mapIdx fun j z => if z.2 then [(key + j) / 32] else []).flatten
  let job := writeJob s d o.mat
  let held := ({ s.cur with gen := o.gen } : Actor).watchOp false a
  let t := ((((held.tileState d .filling).watchOp true d).tileState c .filling).watchOp true c).retire 3
  ran ((s.setCur (t.lastUses [(e.lua, a)])).startV
    (vecCycles s slow [d, a, c] (bytesAt s d + bytesAt s a + if scale = 0 then bytesAt s c else scale))
    { job with
      writes := job.writes ++ [(key, o.scales.map fun z => BitVec.ofNat 8 z.1)], pset := job.pset ++ bad,
      pclr := job.pclr ++ cleanSectors key o.scales.length bad, ready := [d, c], holds := [((tileAt s.cur a).loc.toNat, bytesAt s a)] })

/-- Whether an operand is the scale tile `c`, or shares bytes with it (R254). -/
def opsMeet (o c : VOp) : Bool :=
  o.h == c.h || (c.ent.loc.toNat < o.ent.loc.toNat + tileSize o.ent o.desc && o.ent.loc.toNat < c.ent.loc.toNat + tileSize c.ent c.desc)

section
variable {f : VForm} {d a b : TileSel} {e : VExt} {s : State} {x : W64} {p : Bool} {hd : Nat} {ha hb hc : Option Nat}

/-- The destination is of no scaled class, which only a form that writes scales takes (R247, R254). -/
theorem checkPlain_ok {cw : Bool} (h : cw = true ∨ ¬ ScaledTile s hd) :
    check (cw || !((fmtOf s hd).cls == 0 && (fmtOf s hd).sgeo != 0)) rIllegal = .ok () := by
  refine check_ok _ (Bool.or_eq_true_iff.2 (h.imp_right fun hns => ?_))
  refine congrArg (!·) (Bool.eq_false_iff.2 fun hs => hns ?_)
  obtain ⟨hcls, hgeo⟩ := Bool.and_eq_true_iff.1 hs
  exact ⟨beq_iff_eq.1 hcls, bne_iff_ne.1 hgeo⟩
theorem checkScale_ok {c : Bool} {m n : Nat} (h : c = true → n ≤ m) : check (!(c && decide (m < n))) rTileBounds = .ok () := by
  refine check_ok _ ?_
  cases c with
  | false => rfl
  | true => simpa using h rfl

/-- What a vector instruction answers once its fields are resolved and the classes of its operands are in order (R233). A poisoned position
kills; past the other checks it issues, as a form that only reads `c` or as one that writes it. -/
theorem finish_vector {i : VIn} (hi : i = vinOf s e x p hd ha hb hc) (ht : VecTakes f d a b e s x p hd ha hb hc)
    (hok : VecOk s hd (ha.toList ++ hb.toList)) (hcr : f.cw = false → ∀ k ∈ hc, UnitReads s k) (hcw : f.cw = true → ∀ k ∈ hc, UnitWrites s k)
    (hplain : f.cw = true ∨ ¬ ScaledTile s hd) (hcls : f.classes i = true) :
    ((f.pos && p) = true → finish s (vector f d a b e s) = dies s rPoison) ∧
    ((f.pos && p) = false → f.shapes i = true → (f.c = true → f.scale i ≤ tileSize (vopOf s hc).ent (vopOf s hc).desc) →
      (f.cw = false → finish s (vector f d a b e s) = vecRuns s e f.slow hd ha hb hc (f.scale i) ((f.run i).mat, (f.run i).gen)) ∧
      ∀ r k, f.cw = true → ha = some r → hb = none → hc = some k → opsMeet (vopAt s r) (vopAt s k) = false →
        opsMeet (vopAt s hd) (vopAt s k) = false → finish s (vector f d a b e s) = vecScales s e f.slow hd r k (f.scale i) (f.run i)) := by
  subst hi
  obtain ⟨hval, hd', ha', hb', hc'⟩ := ht
  obtain ⟨hr, hv, hdst, hsrc⟩ := hok
  replace hdst : UnitWrites s hd := hdst
  have hsrcA (k : Nat) (hk : k ∈ ha) : UnitReads s k := hsrc k (List.mem_append_left _ (Option.mem_toList.2 hk))
  have hsrcB (k : Nat) (hk : k ∈ hb) : UnitReads s k := hsrc k (List.mem_append_right _ (Option.mem_toList.2 hk))
  obtain ⟨hopc, hlc, hsc⟩ : vecOp s f.cw hc = .ok (vopOf s hc) ∧ (∀ k ∈ hc, Local s k) ∧ ∀ k ∈ hc, ∃ g n, Sized s k g n := by
    cases hcase : f.cw with
    | false =>
      replace hcr := hcr hcase
      exact ⟨vecOp_read fun k hk => (hcr k hk).readable, fun k hk => (hcr k hk).isLocal, fun k hk => (hcr k hk).sized⟩
    | true =>
      replace hcw := hcw hcase
      exact ⟨vecOp_write fun k hk => (hcw k hk).writable, fun k hk => (hcw k hk).isLocal, fun k hk => (hcw k hk).sized⟩
  have hused (k : Nat) (hk : k ∈ (some hd).toList ++ ha.toList ++ hb.toList ++ hc.toList) : Local s k ∧ ∃ g n, Sized s k g n := by
    simp only [List.mem_append, Option.mem_toList] at hk
    rcases hk with ((h | h) | h) | h
    · cases h; exact ⟨hdst.isLocal, hdst.sized⟩
    · exact ⟨(hsrcA k h).isLocal, (hsrcA k h).sized⟩
    · exact ⟨(hsrcB k h).isLocal, (hsrcB k h).sized⟩
    · exact ⟨hlc k h, hsc k h⟩
  have hstart : finish s (vector f d a b e s) = _ :=
    (finish_value hval).trans <| (finish_bind (vecField_some hd')).trans <| (finish_bind ha').trans <| (finish_bind hb').trans <|
    (finish_bind hc').trans <| (finish_bind (needLocal_ok hr fun k hk => (hused k hk).1)).trans <|
    (finish_bind (vecOp_write (o := some hd) fun k hk => by cases hk; exact hdst.writable)).trans <|
    (finish_bind (vecOp_read fun k hk => (hsrcA k hk).readable)).trans <| (finish_bind (vecOp_read fun k hk => (hsrcB k hk).readable)).trans <|
    (finish_bind hopc).trans <| (finish_bind (validDescs_ok fun k hk => (hused k hk).2)).trans <| (finish_bind (checkPlain_ok hplain)).trans
    (finish_bind (check_ok _ hcls))
  refine ⟨fun hp => ?poisoned, fun hp hshape hscale => ?issues⟩
  case poisoned => exact hstart.trans (finish_bind_error (check_no _ (by simp [hp])))
  case issues =>
    have hfits : finish s (vector f d a b e s) = _ :=
      hstart.trans <| (finish_bind (check_ok _ (by simp [hp]))).trans <|
      (finish_bind (needOpSize_ok (o := some hd) fun k hk => by cases hk; exact hdst.sized)).trans <|
      (finish_bind (needOpSize_ok fun k hk => (hsrcA k hk).sized)).trans <| (finish_bind (needOpSize_ok fun k hk => (hsrcB k hk).sized)).trans <|
      (finish_bind (needOpSize_ok hsc)).trans <| (finish_bind (check_ok _ hshape)).trans (finish_bind (checkScale_ok hscale))
    refine ⟨fun hw => ?reads, fun r k hw hr hb hk hma hmd => ?writes⟩
    case reads =>
      refine hfits.trans <| (finish_bind (check_ok _ (by simp [hw]))).trans <| (finish_bind hdst.unread).trans <|
        (finish_when fun h => by rw [hw] at h; cases h).trans <| (finish_bind (needV_ok hv)).trans ?_
      simp only [hw, Bool.false_eq_true, if_false]
      rfl
    case writes =>
      subst hr hb hk
      have happart : (!(f.cw && (opsMeet (vopAt s r) (vopAt s k) || opsMeet (vopAt s hd) (vopAt s k)))) = true := by simp [hma, hmd]
      refine hfits.trans <| (finish_bind (check_ok _ happart)).trans <| (finish_bind hdst.unread).trans <|
        (finish_when fun h => (hcw h k rfl).unread).trans <| (finish_bind (needV_ok hv)).trans ?_
      simp only [hw, if_true, total, Option.toList_some, Option.toList_none, List.cons_append, List.nil_append, List.append_nil, List.map_cons,
        List.map_nil, List.foldl_cons, List.foldl_nil, Nat.zero_add]
      rfl

/-- A vector instruction that writes no tile of scales issues (R233, R248). -/
theorem vector_reads (ht : VecTakes f d a b e s x p hd ha hb hc) (hok : VecOk s hd (ha.toList ++ hb.toList ++ hc.toList)) (hns : ¬ ScaledTile s hd)
    (hcls : f.classes (vinOf s e x p hd ha hb hc) = true) (hshape : f.shapes (vinOf s e x p hd ha hb hc) = true)
    (hcw : f.cw = false := by rfl) (hpos : (f.pos && p) = false := by rfl)
    (hscale : f.c = true → f.scale (vinOf s e x p hd ha hb hc) ≤ tileSize (vopOf s hc).ent (vopOf s hc).desc := by exact fun _ => Nat.zero_le _) :
    unguarded s (vector f d a b e s) = vecRuns s e f.slow hd ha hb hc (f.scale (vinOf s e x p hd ha hb hc))
      ((f.run (vinOf s e x p hd ha hb hc)).mat, (f.run (vinOf s e x p hd ha hb hc)).gen) := by
  obtain ⟨hab, hc'⟩ := vecOk_append.1 hok
  have hcr : ∀ k ∈ hc, UnitReads s k := fun k hk => hc' k (Option.mem_toList.2 hk)
  exact ((finish_vector rfl ht hab (fun _ => hcr) (fun h => by rw [hcw] at h; cases h) (.inr hns) hcls).2 hpos hshape hscale).1 hcw
/-- A poisoned position kills before any size is checked (R255; 08 R172). -/
theorem vector_poisoned (ht : VecTakes f d a b e s x true hd ha hb none) (hok : VecOk s hd (ha.toList ++ hb.toList)) (hns : ¬ ScaledTile s hd)
    (hcls : f.classes (vinOf s e x true hd ha hb none) = true) (hpos : f.pos = true) : unguarded s (vector f d a b e s) = dies s rPoison :=
  (finish_vector rfl ht hok (fun _ => nofun) (fun _ => nofun) (.inr hns) hcls).1 (by simp [hpos])

/-- A vector instruction that writes a tile of scales apart from its other tiles issues (R254). -/
theorem vector_scales {r k : Nat} (ht : VecTakes f d a b e s x p hd (some r) none (some k)) (hok : VecOk s hd [r]) (hk : UnitWrites s k)
    (hcls : f.classes (vinOf s e x p hd (some r) none (some k)) = true) (hshape : f.shapes (vinOf s e x p hd (some r) none (some k)) = true)
    (hscale : f.scale (vinOf s e x p hd (some r) none (some k)) ≤ bytesAt s k) (hr : opsMeet (vopAt s r) (vopAt s k) = false)
    (hd' : opsMeet (vopAt s hd) (vopAt s k) = false) (hcw : f.cw = true := by rfl) (hpos : (f.pos && p) = false := by rfl) :
    unguarded s (vector f d a b e s) = vecScales s e f.slow hd r k (f.scale (vinOf s e x p hd (some r) none (some k)))
      (f.run (vinOf s e x p hd (some r) none (some k))) :=
  ((finish_vector rfl ht hok (fun h => by rw [hcw] at h; cases h) (fun _ _ h => by cases h; exact hk) (.inl hcw) hcls).2 hpos hshape
    fun _ => hscale).2 r k hcw rfl rfl rfl hr hd'
theorem opsMeet_eq_false {h k : Nat} (hne : h ≠ k) (hap : (tileAt s.cur h).loc.toNat + bytesAt s h ≤ (tileAt s.cur k).loc.toNat ∨
    (tileAt s.cur k).loc.toNat + bytesAt s k ≤ (tileAt s.cur h).loc.toNat) : opsMeet (vopAt s h) (vopAt s k) = false := by
  unfold bytesAt at hap
  exact Bool.or_eq_false_iff.2 ⟨beq_false_of_ne hne, Bool.and_eq_false_iff.2
    (hap.imp (fun h => decide_eq_false (Nat.not_lt.2 h)) fun h => decide_eq_false (Nat.not_lt.2 h))⟩

-- What an operation finds in its operands (10 R246, R247) ------------------------------------------------------------

theorem allFloat_iff (l : List Nat) : allFloat (l.map (vopAt s)) = true ↔ ∀ h ∈ l, FloatTile s h := by
  simp only [allFloat, List.all_map, List.all_eq_true]
  exact forall₂_congr fun _ _ => decide_eq_true_iff
theorem allInt_iff (l : List Nat) : allInt (l.map (vopAt s)) = true ↔ ∀ h ∈ l, IntTile s h := by
  simp [allInt, Desc.isInt, IntTile, vopAt]
theorem same_iff (l : List Nat) : (vinOf s e x p hd ha hb hc).same (l.map (vopAt s)) = true ↔ ∀ h ∈ l, shapeOf s h = shapeOf s hd := by
  simp [VIn.same, VOp.shape, vinOf, shapeOf, vopAt]
theorem alike_iff (l : List Nat) : (vinOf s e x p hd ha hb hc).alike (l.map (vopAt s)) = true ↔
    ∀ h ∈ l, descVal s.cur (tileAt s.cur h) = descVal s.cur (tileAt s.cur hd) := by
  simp [VIn.alike, vinOf, vopAt]
theorem isFloat_of_floatTile {h : Nat} (hf : FloatTile s h) : (fmtOf s h).isFloat = true := decide_eq_true_iff.2 hf
/-- An integer tile is no float tile. -/
theorem isFloat_of_intTile {h : Nat} (hi : IntTile s h) : (fmtOf s h).isFloat = false := by
  unfold IntTile at hi; unfold Desc.isFloat; simp; omega
theorem isInt_of_intTile {h : Nat} (hi : IntTile s h) : (fmtOf s h).isInt = true := by simpa [Desc.isInt, IntTile] using hi

section
variable (hB : VecB s e b hb)
include hB

theorem bs_eq : (vinOf s e x p hd ha hb hc).bs = hb.toList.map (vopAt s) := by
  rcases vecB_cases hB with ⟨hx, rfl⟩ | ⟨hx, k, -, rfl⟩ <;> simp [VIn.bs, vinOf, hx, vopOf]
/-- The operand b is its tile's elements, or x in every element (R246). -/
theorem elim_b {α : Type} (u : α) (v : Nat → α) (w : VOp → α) (hw : ∀ k, w (vopAt s k) = v k) :
    (if e.xs then u else w (vopOf s hb)) = hb.elim u v := by
  rcases vecB_cases hB with ⟨hx, rfl⟩ | ⟨hx, k, -, rfl⟩
  · exact if_pos hx
  · exact (if_neg (by simp [hx])).trans (hw k)
theorem bf_eq : (vinOf s e x p hd ha hb hc).bf = hb.elim (fillMat (shapeOf s hd) (dec32 x.toNat, p)) (valsOf s) := elim_b hB _ _ _ fun _ => rfl
theorem bi_eq : (vinOf s e x p hd ha hb hc).bi = hb.elim (fillMat (shapeOf s hd) (signed 32 (x.toNat % 2 ^ 32), p)) (intsOf s) :=
  elim_b hB _ _ _ fun _ => rfl

theorem allFloat_bs {l : List Nat} (h : ∀ k ∈ l ++ hb.toList, FloatTile s k) : allFloat (l.map (vopAt s) ++ (vinOf s e x p hd ha hb hc).bs) = true := by
  rw [bs_eq hB, ← List.map_append]; exact (allFloat_iff _).2 h
theorem allInt_bs {l : List Nat} (h : ∀ k ∈ l ++ hb.toList, IntTile s k) : allInt (l.map (vopAt s) ++ (vinOf s e x p hd ha hb hc).bs) = true := by
  rw [bs_eq hB, ← List.map_append]; exact (allInt_iff _).2 h
theorem same_bs {l : List Nat} (h : ∀ k ∈ l ++ hb.toList, shapeOf s k = shapeOf s hd) :
    (vinOf s e x p hd ha hb hc).same (l.map (vopAt s) ++ (vinOf s e x p hd ha hb hc).bs) = true := by
  rw [bs_eq hB, ← List.map_append]; exact (same_iff _).2 h
theorem alike_bs {l : List Nat} (h : ∀ k ∈ l ++ hb.toList, descVal s.cur (tileAt s.cur k) = descVal s.cur (tileAt s.cur hd)) :
    (vinOf s e x p hd ha hb hc).alike (l.map (vopAt s) ++ (vinOf s e x p hd ha hb hc).bs) = true := by
  rw [bs_eq hB, ← List.map_append]; exact (alike_iff _).2 h

end

end

end Sys2Proof.Machine
end

