-- ==== Sys2Proof/Proofs/VectorFloats.lean ====
section
/-! PROOFS. The element-wise float operations of the vector unit (10 R249, R250), and O31. -/

namespace Sys2Proof.Machine

section
variable {d a b : TileSel} {e : VExt} {s : State} {x : W64} {p : Bool} {hd ha : Nat} {hb : Option Nat} (hval : VecValue s e x p)
  (hd' : resolve s.cur true d = .ok hd) (ha' : resolve s.cur false a = .ok ha) (hns : ¬ ScaledTile s hd)
include hval hd' ha' hns

/-- A binary operation rounds `g` of the elements of a and b (R249). -/
theorem vector_binForm (slow : Bool) (g : Bool → Val → Val → Val) (hB : VecB s e b hb) (hok : VecOk s hd (ha :: hb.toList))
    (hall : ∀ h ∈ hd :: ha :: hb.toList, FloatTile s h ∧ shapeOf s h = shapeOf s hd) :
    unguarded s (vector (binForm slow g) d a b e s) = vecRuns s e slow hd (some ha) hb none 0 (roundMat (fmtOf s hd) e.rnd e.sat s.cur.gen
      (zipP (g (e.rnd == .rd)) (valsOf s ha) (hb.elim (fillMat (shapeOf s hd) (dec32 x.toNat, p)) (valsOf s)))) := by
  rw [← bf_eq hB (hd := hd) (ha := some ha) (hc := none)]
  exact vector_reads ⟨hval, hd', vecField_some ha', vecField_b hB, rfl⟩ (by simpa using hok) hns
    (allFloat_bs hB (l := [hd, ha]) fun k hk => (hall k hk).1) (same_bs hB (l := [ha]) fun k hk => (hall k (List.mem_cons_of_mem _ hk)).2)
/-- A unary operation rounds `g` of the elements of a (R250). -/
theorem vector_unForm (slow : Bool) (g : Val → Val) (hok : VecOk s hd [ha]) (hfd : FloatTile s hd) (hfa : FloatTile s ha)
    (hsh : shapeOf s ha = shapeOf s hd) : unguarded s (vector (unForm slow g) d a b e s) =
      vecRuns s e slow hd (some ha) none none 0 (roundMat (fmtOf s hd) e.rnd e.sat s.cur.gen (mapP g (valsOf s ha))) :=
  vector_reads ⟨hval, hd', vecField_some ha', rfl, rfl⟩ hok hns ((allFloat_iff [hd, ha]).2 (by simp [hfd, hfa])) ((same_iff [ha]).2 (by simp [hsh]))

end

end Sys2Proof.Machine

open Sys2Proof Sys2Proof.Machine

/-- Settles O31: the operations of two operands are of the form `binForm`, those of one of the form `unForm`; `vfma` has a third tile. -/
theorem vectorArithmetic : Obligations.VectorArithmetic := by
  unfold Obligations.VectorArithmetic
  intro d a b e s x p hd ha hb hval hd' ha' hB hall hns rounds va vb two one sum
  obtain ⟨⟨hfd, -⟩, ⟨hfa, hsa⟩, hbs⟩ := by simpa only [List.forall_mem_cons] using hall
  refine ⟨fun hok => ?binary, fun hc hc' hok hfc hsc => ?fma, fun hok => ?unary⟩
  case binary =>
    have two (slow : Bool) (g : Bool → Val → Val → Val) := vector_binForm hval hd' ha' hns slow g hB hok hall
    exact ⟨two _ _, two _ _, two _ _, two _ _, two _ _, two _ _⟩
  case fma =>
    have hbf : (vinOf s e x p hd (some ha) hb (some hc)).bf = vb := bf_eq hB
    clear_value vb
    subst hbf
    exact vector_reads ⟨hval, hd', vecField_some ha', vecField_b hB, vecField_some hc'⟩ hok hns
      (allFloat_bs hB (l := [hd, ha, hc]) (by
        simpa only [List.cons_append, List.nil_append, List.forall_mem_cons] using ⟨hfd, hfa, hfc, fun k hk => (hbs k hk).1⟩))
      (same_bs hB (l := [ha, hc]) (by
        simpa only [List.cons_append, List.nil_append, List.forall_mem_cons] using ⟨hsa, hsc, fun k hk => (hbs k hk).2⟩))
  case unary =>
    have one (slow : Bool) (g : Val → Val) := vector_unForm (b := a) hval hd' ha' hns slow g hok hfd hfa hsa
    exact ⟨one _ _, one _ _, one _ _, one _ _, one _ _, one _ _, one _ _, one _ _, one _ _, one _ _, one _ _⟩
end

