-- ==== Sys2Proof/Proofs/VectorReductions.lean ====
section
/-! PROOFS. The compares, selects and reductions of the vector unit (10 R251, R252), and O32. -/

namespace Sys2Proof.Machine

/-- The conditions with a floating-point form (08 R181). -/
theorem floatCond_of_not_mem {c : Cond} (h : c ∉ [Cond.ltu, .geu, .leu, .gtu]) : floatCond c = true := by
  simp only [List.mem_cons, List.not_mem_nil, or_false, not_or] at h
  obtain ⟨h1, h2, h3, h4⟩ := h
  simp [floatCond, h1, h2, h3, h4]
/-- The conditions with an integer form. -/
theorem intCond_of_not_mem {c : Cond} (h : c ∉ [Cond.un, .ord]) : intCond c = true := by
  simp only [List.mem_cons, List.not_mem_nil, or_false, not_or] at h
  obtain ⟨h1, h2⟩ := h
  simp [intCond, h1, h2]

section
variable {d a b : TileSel} {e : VExt} {s : State} {x : W64} {p : Bool} {hd ha : Nat} {hb : Option Nat} (hval : VecValue s e x p)
  (hd' : resolve s.cur true d = .ok hd) (ha' : resolve s.cur false a = .ok ha) (hns : ¬ ScaledTile s hd)
include hval hd' ha' hns

section
variable (hB : VecB s e b hb) (hok : VecOk s hd (ha :: hb.toList)) (hsh : ∀ h ∈ ha :: hb.toList, shapeOf s h = shapeOf s hd)
include hB hok hsh

/-- A compare of float elements writes 1 or 0 (R251). -/
theorem exec_vcmp_float (hf : ∀ h ∈ ha :: hb.toList, FloatTile s h) (hc : floatCond (condOfNum e.fx.val) = true) :
    exec (.vcmp d a b e) s = vecRuns s e false hd (some ha) hb none 0 (mapP (boolCode (fmtOf s hd)) (zipP (compareFloat (condOfNum e.fx.val))
      (valsOf s ha) (hb.elim (fillMat (shapeOf s hd) (dec32 x.toNat, p)) (valsOf s))), s.cur.gen) := by
  have hcls := allFloat_bs (x := x) (p := p) (hd := hd) (ha := some ha) (hc := none) hB (l := [ha]) hf
  refine Eq.trans (vector_reads ⟨hval, hd', vecField_some ha', vecField_b hB, rfl⟩ (by simpa using hok) hns
    (Bool.or_eq_true_iff.2 (.inl (Bool.and_eq_true_iff.2 ⟨hcls, hc⟩))) (same_bs hB (l := [ha]) hsh)) ?_
  rw [← bf_eq hB (hd := hd) (ha := some ha) (hc := none)]
  have ha : (fmtOf s ha).isFloat = true := isFloat_of_floatTile (hf ha (by simp))
  exact congrArg (fun m => vecRuns s e false hd _ hb none 0 (mapP (boolCode (fmtOf s hd)) m, s.cur.gen)) (if_pos ha)
/-- A compare of integer elements writes 1 or 0 (R251). -/
theorem exec_vcmp_int (hi : ∀ h ∈ ha :: hb.toList, IntTile s h) (hc : intCond (condOfNum e.fx.val) = true) :
    exec (.vcmp d a b e) s = vecRuns s e false hd (some ha) hb none 0 (mapP (boolCode (fmtOf s hd))
      (zipP (fun v w => compareInt (condOfNum e.fx.val) v w (pattern32 v) (pattern32 w))
        (intsOf s ha) (hb.elim (fillMat (shapeOf s hd) (signed 32 (x.toNat % 2 ^ 32), p)) (intsOf s))), s.cur.gen) := by
  have hcls := allInt_bs (x := x) (p := p) (hd := hd) (ha := some ha) (hc := none) hB (l := [ha]) hi
  refine Eq.trans (vector_reads ⟨hval, hd', vecField_some ha', vecField_b hB, rfl⟩ (by simpa using hok) hns
    (Bool.or_eq_true_iff.2 (.inr (Bool.and_eq_true_iff.2 ⟨hcls, hc⟩))) (same_bs hB (l := [ha]) hsh)) ?_
  rw [← bi_eq hB (hd := hd) (ha := some ha) (hc := none)]
  have ha : ¬ (fmtOf s ha).isFloat = true := by simp [isFloat_of_intTile (hi ha (by simp))]
  exact congrArg (fun m => vecRuns s e false hd _ hb none 0 (mapP (boolCode (fmtOf s hd)) m, s.cur.gen)) (if_neg ha)

end

/-- A reduction of float elements is rounded into the destination (R252). -/
theorem vector_redForm_float {sh : Nat × Nat → Nat × Nat} (ff : List (List PVal) → List (List PVal))
    (fi : List (List (Int × Bool)) → List (List (Int × Bool))) (hok : VecOk s hd [ha]) (hsh : shapeOf s hd = sh (shapeOf s ha))
    (hf : FloatTile s hd ∧ FloatTile s ha) :
    unguarded s (vector (redForm sh ff fi) d a b e s) =
      vecRuns s e false hd (some ha) none none 0 (roundMat (fmtOf s hd) e.rnd e.sat s.cur.gen (ff (valsOf s ha))) := by
  have hrun : (redForm sh ff fi).run (vinOf s e x p hd (some ha) none none) = (vinOf s e x p hd (some ha) none none).rounded (ff (valsOf s ha)) :=
    if_pos (isFloat_of_floatTile hf.2)
  refine Eq.trans (vector_reads ⟨hval, hd', vecField_some ha', rfl, rfl⟩ hok hns
    (Bool.or_eq_true_iff.2 (.inl ((allFloat_iff [hd, ha]).2 (by simpa using hf)))) (beq_iff_eq.2 hsh)) ?_
  rw [hrun]
  rfl
/-- A reduction of integer elements wraps or is clamped into the destination (R252). -/
theorem vector_redForm_int {sh : Nat × Nat → Nat × Nat} (ff : List (List PVal) → List (List PVal))
    (fi : List (List (Int × Bool)) → List (List (Int × Bool))) (hok : VecOk s hd [ha]) (hsh : shapeOf s hd = sh (shapeOf s ha))
    (hi : IntTile s hd ∧ IntTile s ha) :
    unguarded s (vector (redForm sh ff fi) d a b e s) = vecRuns s e false hd (some ha) none none 0
      (mapP ((fmtOf s hd).putInt e.sat) (fi (intsOf s ha)),
        if e.rnd = .sr then genAfter (total ((fi (intsOf s ha)).map List.length)) s.cur.gen else s.cur.gen) := by
  have hrun : (redForm sh ff fi).run (vinOf s e x p hd (some ha) none none) = (vinOf s e x p hd (some ha) none none).intResult (fi (intsOf s ha)) :=
    if_neg (by simp [vinOf, vopOf, vopAt, isFloat_of_intTile hi.2])
  refine Eq.trans (vector_reads ⟨hval, hd', vecField_some ha', rfl, rfl⟩ hok hns
    (Bool.or_eq_true_iff.2 (.inr ((allInt_iff [hd, ha]).2 (by simpa using hi)))) (beq_iff_eq.2 hsh)) ?_
  rw [hrun, VIn.intResult]
  simp only [beq_iff_eq]
  rfl

end

end Sys2Proof.Machine

open Sys2Proof Sys2Proof.Machine

/-- Settles O32: a compare reads both operands as floats or as integers, and each reduction is of the form `redForm`, with the shape of its result. -/
theorem vectorComparesAndReductions : Obligations.VectorComparesAndReductions := by
  unfold Obligations.VectorComparesAndReductions
  intro d a b e s x p hd ha hb hval hd' ha' hns rounds va ia vb ib c
  refine ⟨fun hB hsh => ⟨fun hok hf hc => ?vcmpFloat, fun hok hi hc => ?vcmpInt, fun hc hc' hcsh hf hok => ?vsel⟩, fun hok => ?reductions⟩
  case vcmpFloat => exact exec_vcmp_float hval hd' ha' hns hB hok hsh hf (floatCond_of_not_mem hc)
  case vcmpInt => exact exec_vcmp_int hval hd' ha' hns hB hok hsh hi (intCond_of_not_mem hc)
  case vsel =>
    obtain ⟨hsa, hbs⟩ := List.forall_mem_cons.1 hsh
    have hbf : (vinOf s e x p hd (some ha) hb (some hc)).bf = vb := bf_eq hB
    clear_value vb
    subst hbf
    exact vector_reads ⟨hval, hd', vecField_some ha', vecField_b hB, vecField_some hc'⟩ hok hns (allFloat_bs hB (l := [ha]) hf)
      (same_bs hB (l := [ha, hc]) (List.forall_mem_cons.2 ⟨hsa, List.forall_mem_cons.2 ⟨hcsh, hbs⟩⟩))
  case reductions =>
    intro runs puts floats ints sh rowsF rowsI
    have float (g : Nat × Nat → Nat × Nat) (hsh : shapeOf s hd = g (shapeOf s ha)) (h : floats) (ff fi) :=
      vector_redForm_float (b := a) hval hd' ha' hns ff fi hok hsh h
    have int (g : Nat × Nat → Nat × Nat) (hsh : shapeOf s hd = g (shapeOf s ha)) (h : ints) (ff fi) :=
      vector_redForm_int (b := a) hval hd' ha' hns ff fi hok hsh h
    refine ⟨fun hsh => ⟨fun h => ?rowsFloat, fun h => ?rowsInt⟩, fun hsh => ⟨fun h => ?colsFloat, fun h => ?colsInt⟩,
      fun hsh => ⟨fun h => ?scanFloat, fun h => ?scanInt⟩⟩
    case rowsFloat =>
      have row (k : RedKind) : unguarded s (vector (rowForm k) d a a e s) = rowsF k := float (fun n => (n.1, 1)) hsh h _ _
      exact ⟨row .sum, row .max, row .min⟩
    case rowsInt =>
      have row (k : RedKind) : unguarded s (vector (rowForm k) d a a e s) = rowsI k := int (fun n => (n.1, 1)) hsh h _ _
      exact ⟨row .sum, row .max, row .min⟩
    case colsFloat => exact float (fun n => (1, n.2)) hsh h _ _
    case colsInt => exact int (fun n => (1, n.2)) hsh h _ _
    case scanFloat => exact float id hsh h _ _
    case scanInt => exact int id hsh h _ _
end

