-- ==== Sys2Proof/Proofs/VectorMoves.lean ====
section
/-! PROOFS. The statement O33: the conversions, scalings, quantisation and movements of the vector unit (10 R253 to R255). -/

open Sys2Proof Sys2Proof.Machine

/-- Settles O33: each instruction issues once its own classes and shapes are in order; `vquant` alone writes a tile of scales, and a poisoned
position kills `vunpk` before its shapes are looked at. -/
theorem vectorConversionsAndMoves : Obligations.VectorConversionsAndMoves := by
  unfold Obligations.VectorConversionsAndMoves
  intro d a b e s x p hd ha hval hd' ha' rounds va ca one moves same alike sa sd
  have hfa := vecField_some ha'
  refine ⟨fun hok hns => ⟨fun hs => ?vcvt, fun hs hfd hff => ?vscale, fun hal hsh => ?vtrans, fun hal hrow hcol => ?vbcast, fun hal hp hrow hcol => ?vunpk,
    fun hal hp => ?vunpkPoisoned⟩, fun hb hb' hxs hok hns hal => ?pairs, fun hc hc' hok hsa h1 h3 hs => ?vdeq,
    fun hc hc' hok hlc hwc hsc huc hfl hsd hs => ?vquant⟩
  case vcvt => exact vector_reads ⟨hval, hd', hfa, rfl, rfl⟩ hok hns rfl ((same_iff [ha]).2 (List.forall_mem_singleton.2 hs))
  case vscale =>
    exact vector_reads ⟨hval, hd', hfa, rfl, rfl⟩ hok hns ((allFloat_iff [hd, ha]).2 (by simpa using ⟨hfd, hff⟩))
      ((same_iff [ha]).2 (List.forall_mem_singleton.2 hs))
  case vtrans => exact vector_reads ⟨hval, hd', hfa, rfl, rfl⟩ hok hns ((alike_iff [ha]).2 (List.forall_mem_singleton.2 hal)) (beq_iff_eq.2 hsh)
  case vbcast =>
    exact vector_reads ⟨hval, hd', hfa, rfl, rfl⟩ hok hns ((alike_iff [ha]).2 (List.forall_mem_singleton.2 hal))
      (Bool.and_eq_true_iff.2 ⟨Bool.or_eq_true_iff.2 (hrow.imp beq_iff_eq.2 beq_iff_eq.2), Bool.or_eq_true_iff.2 (hcol.imp beq_iff_eq.2 beq_iff_eq.2)⟩)
  case vunpk =>
    exact vector_reads ⟨hval, hd', hfa, rfl, rfl⟩ hok hns ((alike_iff [ha]).2 (List.forall_mem_singleton.2 hal))
      (Bool.and_eq_true_iff.2 ⟨beq_iff_eq.2 hrow, decide_eq_true hcol⟩) rfl hp
  case vunpkPoisoned =>
    subst hp
    exact vector_poisoned ⟨hval, hd', hfa, rfl, rfl⟩ hok hns ((alike_iff [ha]).2 (List.forall_mem_singleton.2 hal)) rfl
  case pairs =>
    have hfb := vecField_b (vecB_of_resolve hxs hb')
    intro moves2 sb
    refine ⟨fun hib hsb hrow => ?vperm, fun hib hn hcol => ?vgath, fun halb hra hrb hcol => ?vpack⟩
    case vperm =>
      exact vector_reads ⟨hval, hd', hfa, hfb, rfl⟩ hok hns
        (Bool.and_eq_true_iff.2 ⟨(alike_iff [ha]).2 (List.forall_mem_singleton.2 hal), (allInt_iff [hb]).2 (List.forall_mem_singleton.2 hib)⟩)
        (Bool.and_eq_true_iff.2 ⟨(same_iff [hb]).2 (List.forall_mem_singleton.2 hsb), beq_iff_eq.2 hrow⟩)
    case vgath =>
      exact vector_reads ⟨hval, hd', hfa, hfb, rfl⟩ hok hns
        (Bool.and_eq_true_iff.2 ⟨(alike_iff [ha]).2 (List.forall_mem_singleton.2 hal), (allInt_iff [hb]).2 (List.forall_mem_singleton.2 hib)⟩)
        (Bool.and_eq_true_iff.2 ⟨decide_eq_true hn, beq_iff_eq.2 hcol⟩)
    case vpack =>
      exact vector_reads ⟨hval, hd', hfa, hfb, rfl⟩ hok hns ((alike_iff [ha, hb]).2 (by simpa using ⟨hal, halb⟩))
        (Bool.and_eq_true_iff.2 ⟨Bool.and_eq_true_iff.2 ⟨beq_iff_eq.2 hra, beq_iff_eq.2 hrb⟩, beq_iff_eq.2 hcol⟩)
  case vdeq =>
    intro n hn
    have hns : ¬ ScaledTile s hd := fun h => by rw [h.1] at h1; cases h1
    have hcls : ((fmtOf s ha).cls == 0 && (fmtOf s ha).sgeo != 0 && decide (1 ≤ (fmtOf s hd).cls) && decide ((fmtOf s hd).cls ≤ 3)) = true := by
      simp [hsa.1, hsa.2, h1, h3]
    exact vector_reads ⟨hval, hd', hfa, rfl, vecField_some hc'⟩ hok hns hcls ((same_iff [ha]).2 (List.forall_mem_singleton.2 hs)) rfl rfl fun _ => hn
  case vquant =>
    intro apart hapa hapd f n hn marked block codes free zs m key bad job scaled held1 held t s1
    have hcls : (allFloat [vopAt s ha] && (fmtOf s hd).cls == 0 && (fmtOf s hd).sgeo != 0) = true :=
      Bool.and_eq_true_iff.2 ⟨Bool.and_eq_true_iff.2 ⟨(allFloat_iff [ha]).2 (List.forall_mem_singleton.2 hfl), beq_iff_eq.2 hsd.1⟩, bne_iff_ne.2 hsd.2⟩
    refine Eq.trans (vector_scales ⟨hval, hd', hfa, rfl, vecField_some hc'⟩ hok ⟨hlc, hwc, hsc, huc⟩ hcls
      ((same_iff [ha]).2 (List.forall_mem_singleton.2 hs)) hn (opsMeet_eq_false hapa.1 hapa.2) (opsMeet_eq_false hapd.1 hapd.2)) ?_
    refine (congrArg (vecScales s e false hd ha hc n) (?scales : _ = { mat := m.1, gen := m.2, scales := zs })).trans ?_
    case scales => rfl
    clear_value zs m n
    rfl
end

