-- ==== Sys2Proof/Proofs/VectorIntegers.lean ====
section
/-! PROOFS. The integer and bitwise operations, softmax, table look-up and fills of the vector unit (10 R256 to R259), and O34. -/

namespace Sys2Proof.Machine

section
variable {d a b : TileSel} {e : VExt} {s : State} {x : W64} {p : Bool} {hd ha : Nat} {hb : Option Nat} (hval : VecValue s e x p)
  (hd' : resolve s.cur true d = .ok hd)
include hval hd'

section
variable (ha' : resolve s.cur false a = .ok ha) (hns : ¬ ScaledTile s hd) (hB : VecB s e b hb) (hok : VecOk s hd (ha :: hb.toList))
  (hsh : ∀ h ∈ ha :: hb.toList, shapeOf s h = shapeOf s hd)
include ha' hns hB hok hsh

/-- An integer operation wraps, or clamps, its result into the destination (R256). -/
theorem vector_intForm (g : Nat → Int → Int → Int) (hi : ∀ h ∈ hd :: ha :: hb.toList, IntTile s h) :
    unguarded s (vector (intForm g) d a b e s) = vecRuns s e false hd (some ha) hb none 0 (mapP ((fmtOf s hd).putInt e.sat)
      (zipP (g (fmtOf s hd).wd) (intsOf s ha) (hb.elim (fillMat (shapeOf s hd) (signed 32 (x.toNat % 2 ^ 32), p)) (intsOf s))), s.cur.gen) := by
  rw [← bi_eq hB (hd := hd) (ha := some ha) (hc := none)]
  exact vector_reads ⟨hval, hd', vecField_some ha', vecField_b hB, rfl⟩ (by simpa using hok) hns
    (allInt_bs hB (l := [hd, ha]) hi) (same_bs hB (l := [ha]) hsh)
/-- A bitwise operation combines codes of one format (R256). -/
theorem vector_bitForm (g : Nat → Nat → Nat) (hal : ∀ h ∈ ha :: hb.toList, descVal s.cur (tileAt s.cur h) = descVal s.cur (tileAt s.cur hd)) :
    unguarded s (vector (bitForm g) d a b e s) = vecRuns s e false hd (some ha) hb none 0
      (zipP g (codesOf s ha) (hb.elim (fillMat (shapeOf s hd) (x.toNat % 2 ^ (fmtOf s hd).wd, p)) (codesOf s)), s.cur.gen) := by
  rw [← elim_b hB (fillMat (shapeOf s hd) (x.toNat % 2 ^ (fmtOf s hd).wd, p)) (codesOf s)
    (vinOf s e x p hd (some ha) hb none).codes fun _ => rfl]
  exact vector_reads ⟨hval, hd', vecField_some ha', vecField_b hB, rfl⟩ (by simpa using hok) hns
    (alike_bs hB (l := [ha]) hal) (same_bs hB (l := [ha]) hsh)

end

/-- The value of a fill that is no code (R259). -/
def fillVal (f : Desc) (x : W64) : Val :=
  if f.isFloat then dec32 x.toNat else if f.isInt then intV (signed 32 (x.toNat % 2 ^ 32)) else intV (ofBool (x.toNat % 2 ^ 32 != 0))
theorem exec_vfill_code (hns : ¬ ScaledTile s hd) (hok : VecOk s hd []) (hx : e.fx.val = 1) :
    exec (.vfill d e) s = vecRuns s e false hd none none none 0 (fillMat (shapeOf s hd) (x.toNat % 2 ^ (fmtOf s hd).wd, p), s.cur.gen) := by
  refine Eq.trans (vector_reads ⟨hval, hd', rfl, rfl, rfl⟩ hok hns rfl rfl) ?_
  dsimp only [vinOf]
  rw [if_pos hx]
  rfl
theorem exec_vfill_value (hns : ¬ ScaledTile s hd) (hok : VecOk s hd []) (hx : e.fx.val ≠ 1) :
    exec (.vfill d e) s = vecRuns s e false hd none none none 0 (roundMat (fmtOf s hd) e.rnd e.sat s.cur.gen
      (fillMat (shapeOf s hd) (fillVal (fmtOf s hd) x, p))) := by
  refine Eq.trans (vector_reads ⟨hval, hd', rfl, rfl, rfl⟩ hok hns rfl rfl) ?_
  dsimp only [vinOf]
  rw [if_neg hx]
  rfl

end

end Sys2Proof.Machine

open Sys2Proof Sys2Proof.Machine

/-- Settles O34: integer operations are of the form `intForm`, bitwise ones of `bitForm`; a fill writes a code, or a value by the destination's
class. -/
theorem vectorIntegersAndTables : Obligations.VectorIntegersAndTables := by
  unfold Obligations.VectorIntegersAndTables
  intro d a b e s x p hd ha hb hval hd' ha' hns rounds ia ib cb w two put bits
  refine ⟨fun hB hok hsh => ⟨fun hi => ?integers, fun hal => ?bitwise⟩, fun hok hfd hfa hsh => ?softmax,
    fun hb hb' hxs hok hcls hsh htab => ?lookup, fun hok => ?fills⟩
  case integers =>
    have put (g : Nat → Int → Int → Int) := vector_intForm hval hd' ha' hns hB hok hsh g hi
    exact ⟨put _, put _, put _, put _, put _⟩
  case bitwise =>
    have bits (g : Nat → Nat → Nat) := vector_bitForm hval hd' ha' hns hB hok hsh g hal
    exact ⟨bits _, bits _, bits _⟩
  case softmax =>
    exact vector_reads ⟨hval, hd', vecField_some ha', rfl, rfl⟩ hok hns ((allFloat_iff [hd, ha]).2 (by simp [hfd, hfa])) ((same_iff [ha]).2 (by simp [hsh]))
  case lookup =>
    exact vector_reads ⟨hval, hd', vecField_some ha', vecField_b (vecB_of_resolve hxs hb'), rfl⟩ hok hns
      (Bool.or_eq_true_iff.2 (hcls.imp beq_iff_eq.2 beq_iff_eq.2))
      (Bool.and_eq_true_iff.2 ⟨decide_eq_true htab, (same_iff [ha]).2 (by simp [hsh])⟩)
  case fills =>
    intro fills value
    have hvalue (hx : e.fx.val ≠ 1) {v : Val} (hv : fillVal (fmtOf s hd) x = v) : value v := hv ▸ exec_vfill_value hval hd' hns hok hx
    refine ⟨fun hx => exec_vfill_code hval hd' hns hok hx, fun hx hf => hvalue hx ?_, fun hx hi => hvalue hx ?_, fun hx hc => hvalue hx ?_⟩
    · exact if_pos (isFloat_of_floatTile hf)
    · rw [fillVal, isFloat_of_intTile hi]
      exact if_pos (isInt_of_intTile hi)
    · have hfloat : (fmtOf s hd).isFloat = false := by simp [Desc.isFloat, hc]
      have hint : (fmtOf s hd).isInt = false := by simp [Desc.isInt, hc]
      rw [fillVal, hfloat, hint]
      simp [ofBool]
end

