-- ==== Sys2Proof/Proofs/MatrixLatches.lean ====
section
/-! PROOFS. The accumulators and latches of the matrix unit at issue (07 R155; 10 R233 to R238): their checks, and O28, O29. -/

namespace Sys2Proof.Machine

-- Accumulators and latches (07 R155, 10 R237) --------------------------------------------------------------------------

/-- A binding that is not another invocation's. -/
theorem State.others_eq_false {s : State} {b : Option (ActorName × Nat)} (h : b = none ∨ b = some (s.focus, s.cur.invNo)) : s.others b = false := by
  rcases h with rfl | rfl
  · rfl
  · exact bne_self_eq_false _
/-- An accumulator that the issuing invocation may write: free or bound to it, and not busy (07 R155, R157). -/
def AccFree (s : State) (k : Fin 4) : Prop :=
  ((accAt s k).bind = none ∨ (accAt s k).bind = some (s.focus, s.cur.invNo)) ∧ (accAt s k).busy = false
/-- The latch `la` is free, or bound to the issuing invocation (07 R155). -/
def LaFree (s : State) : Prop := (s.cell s.cur.cell).laBind = none ∨ (s.cell s.cur.cell).laBind = some (s.focus, s.cur.invNo)
/-- The latch `lb` may be loaded: it is not bound elsewhere and holds no relayed tile (07 R155; 05 R130). -/
def LbFree (s : State) : Prop :=
  ((s.cell s.cur.cell).lbBind = none ∨ (s.cell s.cur.cell).lbBind = some (s.focus, s.cur.invNo)) ∧ (s.cell s.cur.cell).lbOwner = 0 ∧ s.focus ≠ 0 ∧
    latchedOf s.cur = none
/-- The latch `la` as an operand: loaded by the issuing invocation (R237). -/
def LaHeld (s : State) : Prop := (s.cell s.cur.cell).laBind = some (s.focus, s.cur.invNo) ∧ (s.cell s.cur.cell).la.loaded = true
/-- The latch `lb` as an operand: loaded by the issuing invocation, with no other actor's relayed tile (R237; 05 R130). -/
def LbHeld (s : State) : Prop :=
  (s.cell s.cur.cell).lbBind = some (s.focus, s.cur.invNo) ∧ (s.cell s.cur.cell).lb.loaded = true ∧
    ((s.cell s.cur.cell).lbOwner = 0 ∨ (s.cell s.cur.cell).lbOwner = s.focus)

section
variable {s : State}

theorem needAcc_ok {k : Fin 4} (h : AccFree s k) : needAcc s k = .ok () := by
  obtain ⟨hbind, hbusy⟩ := h
  rw [needAcc, State.others_eq_false hbind, hbusy]; rfl
theorem needLa_ok (h : LaFree s) : needLa s = .ok () := by
  rw [needLa, State.others_eq_false h]; rfl
theorem needLb_of_bind (hb : (s.cell s.cur.cell).lbBind = none ∨ (s.cell s.cur.cell).lbBind = some (s.focus, s.cur.invNo))
    (ho : (s.cell s.cur.cell).lbOwner = 0 ∨ (s.cell s.cur.cell).lbOwner = s.focus) : needLb s = .ok () := by
  have hown : ((s.cell s.cur.cell).lbOwner != 0 && (s.cell s.cur.cell).lbOwner != s.focus) = false := by
    rcases ho with ho | ho <;> simp [ho]
  simp only [needLb, State.others_eq_false hb, hown]; rfl
theorem needLb_ok (h : LbFree s) : needLb s = .ok () := by
  obtain ⟨hbind, hown, -, -⟩ := h
  exact needLb_of_bind hbind (.inl hown)
theorem needLa_held (h : LaHeld s) : needLa s = .ok () := needLa_ok (.inr h.1)
theorem needLb_held (h : LbHeld s) : needLb s = .ok () := by
  obtain ⟨hbind, -, hown⟩ := h
  exact needLb_of_bind (.inr hbind) hown
theorem laOperand_ok (h : LaHeld s) : laOperand s = .ok (s.cell s.cur.cell).la := by
  obtain ⟨hbind, hloaded⟩ := h
  exact if_pos (by simp [hbind, hloaded, State.mine])
theorem lbOperand_ok (h : LbHeld s) : lbOperand s = .ok (s.cell s.cur.cell).lb := by
  obtain ⟨hbind, hloaded, -⟩ := h
  exact if_pos (by simp [hbind, hloaded, State.mine])

end

-- Loads (R236) ---------------------------------------------------------------------------------------------------------

/-- The cell with `l` in the latch of `form`. -/
def LatchForm.put (form : LatchForm) (s : State) (l : Latch) (c : Cell) : Cell :=
  match form with
  | .a => { c with la := l, laBind := some (s.focus, s.cur.invNo) }
  | .b => { c with lb := l, lbBind := some (s.focus, s.cur.invNo) }
  | .relay => { c with lb := l, lbBind := none, lbOwner := s.focus, lbSrc := 0 }
/-- What a load of tile `h` puts in the latch: its elements, or with `tr` their transpose. -/
def latchLoad (s : State) (h : Nat) (tr : Bool) : Latch :=
  let o := tileOp s h
  if tr then latchOf o.cols o.rows o.desc (transpose o.cols o.mat) else latchOf o.rows o.cols o.desc o.mat
/-- The issuing actor after a load: the relay form makes the tile LATCHED, the others mark its last use. -/
def LatchForm.mark (form : LatchForm) (a : Actor) (lu : Bool) (h : Nat) : Actor :=
  if form = .relay then a.tileState h .latched else a.lastUses [(lu, h)]

/-- The relay form waits for a DRAINING tile; past the checks of the tile a load fills its latch. -/
theorem finish_loadLatch {s : State} {a : TileSel} {form : LatchForm} {h : Nat} (tr lu : Bool) (hr : s.cur.roaming = false)
    (ha : resolve s.cur false a = .ok h) (hl : Local s h) (hrd : Readable s h) (hla : form = .a → LaFree s) (hlb : form ≠ .a → LbFree s)
    (hco : form = .relay → (s.cohortOf (selfName s.cur)).any (fun c => c.shape != .any) = true) :
    (form = .relay → (tileAt s.cur h).state = .draining → finish s (loadLatch s a form tr lu) = waits s) ∧
    ∀ (n : Nat) (f : Desc), ¬ (form = .relay ∧ (tileAt s.cur h).state = .draining) → (s.cell s.cur.cell).munit = none → Sized s h f n →
      f.cls = 0 ∨ f.cls = 2 ∨ f.cls = 3 ∨ f.cls = 6 → (tr = true → f.sgeo ≠ 1 ∧ f.sgeo ≠ 2) → (tileAt s.cur h).rows.toNat ≤ 128 →
      (tileAt s.cur h).cols.toNat ≤ 128 → finish s (loadLatch s a form tr lu) =
        ran (((s.modCell s.cur.cell (form.put s (latchLoad s h tr))).setCur (form.mark ((s.cur.watchOp false h).retire 1) lu h)).startM (ceilDiv n 512)
          { holds := [((tileAt s.cur h).loc.toNat, n)], readsLb := form == .relay }) := by
  have hheld : (form != .a && (latchedOf s.cur).isSome) = false := by
    by_cases hf : form = .a
    · simp [hf]
    · obtain ⟨-, -, -, hnone⟩ := hlb hf
      simp [hnone]
  have hown : (form != .a && !(form != .a && (latchedOf s.cur).isSome) && (s.cell s.cur.cell).lbOwner == s.focus) = false := by
    by_cases hf : form = .a
    · simp [hf]
    · obtain ⟨-, hown, hne, -⟩ := hlb hf
      rw [hown, beq_false_of_ne hne.symm, Bool.and_false]
  have hstart : finish s (loadLatch s a form tr lu) = _ :=
    (finish_bind ha).trans <| (finish_bind (needLocal_ok hr (List.forall_mem_singleton.2 hl))).trans <|
    (finish_when fun hf => check_ok _ (hco (beq_iff_eq.1 hf))).trans <|
    (finish_either (fun hf => needLa_ok (hla (beq_iff_eq.1 hf))) fun hf => needLb_ok (hlb (by simpa using hf))).trans <| (finish_past hown).trans
    (finish_bind (needRead_ok hrd))
  refine ⟨fun hf hd => ?waits, fun n f hd hm hs hcls htr hrows hcols => ?loads⟩
  case waits => exact hstart.trans (finish_held (by simp [hf, hd]))
  case loads =>
    have hcls' : (f.cls == 0 || f.cls == 2 || f.cls == 3 || f.cls == 6) = true := by simpa [or_assoc] using hcls
    have htr' : (!tr || f.sgeo != 1 && f.sgeo != 2) = true := by cases tr with
      | false => rfl
      | true => simpa using htr rfl
    refine hstart.trans <| (finish_past (by simpa using hd)).trans <| (finish_bind (check_ok _ (by rw [hheld]; rfl))).trans <|
      (finish_bind (needDesc_ok hs)).trans <| (finish_bind (check_ok _ hcls')).trans <| (finish_bind (check_ok _ htr')).trans <|
      (finish_bind (needSize_ok hs)).trans <| (finish_bind (check_ok _ (by simp [hrows, hcols]))).trans <| (finish_bind (needM_ok hm)).trans ?_
    cases form <;> rfl

-- Relays (R238) --------------------------------------------------------------------------------------------------------

/-- A name is that of a seated member of cohort `c` of the issuing actor's package and job (log 67). -/
def MemberOf (s : State) (peer : ActorName) (c : Cohort) : Prop :=
  pkgOf peer = pkgOf (selfName s.cur) ∧ jobOf peer = c.job ∧ c.serial ≤ serialOf peer ∧ serialOf peer < c.serial + c.n ∧
    (s.actor peer).roaming = false
theorem memberOf_iff {s : State} {peer : ActorName} {c : Cohort} : MemberOf s peer c ↔
    ((pkgOf peer == pkgOf (selfName s.cur) && jobOf peer == c.job && decide (c.serial ≤ serialOf peer) && decide (serialOf peer < c.serial + c.n)) &&
      !(s.actor peer).roaming) = true := by
  simp [MemberOf, and_assoc]
theorem needXfers_ok {s : State} {n : Nat} (h : (s.cell (runCell s.cur)).outstanding + n ≤ 32) : needXfers s n = .ok () := by
  simp [needXfers, h]
theorem needOutbox_ok {a : Actor} {l : List OutItem} (h : ovfFits { a with outbox := a.outbox ++ l } = true) :
    needOutbox a l = .ok { a with outbox := a.outbox ++ l } := by
  rw [needOutbox, check_ok _ (by simp [h])]; rfl

end Sys2Proof.Machine

open Sys2Proof Sys2Proof.Machine

/-- Settles O28: `mlda`, `mldb` and `mtr` are the forms of one load, which nothing holds back once its latch is free. -/
theorem latchesLoad : Obligations.LatchesLoad := by
  unfold Obligations.LatchesLoad
  intro acc sr a lat lu s h n f hr hm c me
  refine ⟨fun hb hy => ?mclr, fun ha hl hrd hs hcls hrows hcols => ?loads⟩
  case mclr =>
    refine Eq.trans ((finish_bind (needLocal_ok (hs := []) hr nofun)).trans <| (finish_bind (needAcc_ok ⟨hb, hy⟩)).trans (finish_bind (needM_ok hm))) ?_
    cases sr <;> rfl
  case loads =>
    intro e m plain turned loads marked aFree bFree
    obtain ⟨-, rfl, -⟩ := id hs
    have plainA (tr : Bool) (hf : aFree) := (finish_loadLatch (form := .a) tr lu hr ha hl hrd (fun _ => hf) nofun nofun).2 n _ nofun hm hs hcls
    have plainB (tr : Bool) (hf : bFree) := (finish_loadLatch (form := .b) tr lu hr ha hl hrd nofun (fun _ => hf) nofun).2 n _ nofun hm hs hcls
    have relay (hf : bFree) (hco) := finish_loadLatch (form := .relay) false false hr ha hl hrd nofun (fun _ => hf) fun _ => hco
    refine ⟨fun hf => ?mlda, fun hf => ?mldb, fun hf hco hd => ?relayWaits, fun hf hco hd => ?relay, fun h1 h2 => ⟨fun hf => ?mtrA, fun hf => ?mtrB⟩⟩
    case mlda => exact plainA false hf nofun hrows hcols
    case mldb => exact plainB false hf nofun hrows hcols
    case relayWaits => exact (relay hf hco).1 rfl hd
    case relay => exact (relay hf hco).2 n _ (fun h => by rw [hd] at h; cases h.2) hm hs hcls nofun hrows hcols
    case mtrA => exact plainA true hf (fun _ => ⟨h1, h2⟩) hrows hcols
    case mtrB => exact plainB true hf (fun _ => ⟨h1, h2⟩) hrows hcols

/-- Settles O29: the handle's state decides before the cohort does, and the cohort before the outbox. -/
theorem relayLeaves : Obligations.RelayLeaves := by
  unfold Obligations.RelayLeaves
  intro a b s peer v h hr ha hb self member
  have hstart : exec (.mrelay a b) s = _ :=
    (finish_bind (operand_ok ha)).trans <| (finish_bind (operand_ok hb)).trans <| (finish_bind (needLocal_ok (hs := []) hr nofun)).trans
    (finish_bind (check_ok _ rfl))
  refine ⟨fun hnone => ?unlatched, fun hsome hno => ?outside, fun hsome c hc hmem hroom => ?gives⟩
  case unlatched =>
    refine hstart.trans ?_
    rw [hnone]
    rfl
  case outside =>
    refine hstart.trans ?_
    rw [hsome]
    refine finish_bind_error (check_no _ ?_)
    cases hc : s.cohortOf (selfName s.cur) with
    | none => rfl
    | some c => exact Bool.eq_false_iff.2 fun hin => hno c hc (memberOf_iff.2 hin)
  case gives =>
    intro e m g t hfits hshadow
    refine hstart.trans ?_
    rw [hsome]
    have hin := memberOf_iff.1 hmem
    refine (finish_bind (check_ok _ (by rw [hc]; exact hin))).trans <| (finish_bind (needXfers_ok (Nat.succ_le_of_lt hroom))).trans <|
      (finish_bind (needOutbox_ok hfits)).trans ?_
    rw [hshadow]
    rfl
end

