-- ==== Sys2Proof/Proofs/MatrixAccumulate.lean ====
section
/-! PROOFS. The accumulations and stores of the matrix unit (10 R239 to R244), and O30. -/

namespace Sys2Proof.Machine

-- Operands (10 R239 to R241) -------------------------------------------------------------------------------------------

theorem resolveOpt_some {s : State} {t : TileSel} {h : Nat} (ht : resolve s.cur false t = .ok h) : resolveOpt s.cur (some t) = .ok (some h) :=
  congrArg (Except.map some) ht
/-- An operand is read from its tile, or from the latch where the form names none (R237). -/
theorem finish_operand {s : State} {o : Option Nat} {l : Res Latch} {c : Latch} {f : MOp → Res State} :
    (∀ h ∈ o, Readable s h) → (o = none → l = .ok c) →
      finish s (match o with
        | some h => (needRead s h).map (fun _ => tileOp s h) >>= f
        | none => l.map latchOp >>= f) = finish s (f (o.elim (latchOp c) (tileOp s))) := by
  intro ht hl
  cases o with
  | none => rw [hl rfl]; rfl
  | some h =>
    have hread : (needRead s h).map (fun _ => tileOp s h) = .ok (tileOp s h) := by rw [needRead_ok (ht h rfl)]; rfl
    exact finish_bind hread
theorem needScales_ok {s : State} {o : Option Nat} {n : Nat} (h : ∀ k ∈ o, n ≤ tileSize (tileAt s.cur k) (descOf (descVal s.cur (tileAt s.cur k)))) :
    needScales s o n = .ok (o.elim [] fun k => scaleBytes s k n) := by
  cases o with
  | none => rfl
  | some k => simp only [needScales, check_ok _ (decide_eq_true (h k rfl)), ok_bind, pure_eq]; rfl

/-- What a multiply-accumulate leaves: the chunk values accumulated, its sources held through cycle `read`, its scale tiles for two (R241,
R244). -/
def mulAccLeaves (s : State) (acc : Fin 4) (ha hb hsa hsb : Option Nat) (oa ob : MOp) (za zb : List (Nat × Bool)) (sr : SemiRing) (la lb : Bool)
    (read : Nat) : State :=
  let held := ((oa.hold.toList ++ ob.hold.toList).map fun h => (h.1, h.2, s.cycle + read)) ++
    (hsa.toList ++ hsb.toList).map fun h => ((tileAt s.cur h).loc.toNat, tileSize (tileAt s.cur h) (descOf (descVal s.cur (tileAt s.cur h))), s.cycle + 2)
  let reads := ha.toList ++ hb.toList ++ hsa.toList ++ hsb.toList
  ((s.setAcc acc ((accAt s acc).accumulate sr (chunks sr oa ob za zb))).setCur
    (((reads.foldl (fun (q : Actor) h => q.watchOp false h) s.cur).retire 3).lastUses ((ha.toList.map fun h => (la, h)) ++ hb.toList.map fun h => (lb, h)))).startM
    (read + 4) { brief := held, accs := [acc.val], readsLb := hb.isNone }

section
variable {s : State} {acc : Fin 4} {a : OpA} {b : OpB} {sa sb : Option TileSel} {sr : SemiRing} {ha hb hsa hsb : Option Nat}

/-- `mma` and `mmas` past their checks (R233, R241): `scaled` is `mmas`. -/
theorem finish_mulAcc (scaled la lb : Bool) (hr : s.cur.roaming = false) (hm : (s.cell s.cur.cell).munit = none) (hacc : AccFree s acc)
    (hra : resolveOpt s.cur (tileSelOf a) = .ok ha) (hrb : resolveOpt s.cur (tileSelOfB b) = .ok hb) (hrsa : resolveOpt s.cur sa = .ok hsa)
    (hrsb : resolveOpt s.cur sb = .ok hsb) (htiles : ∀ h ∈ ha.toList ++ hb.toList ++ hsa.toList ++ hsb.toList, UnitReads s h)
    (hla : ha = none → LaHeld s) (hlb : hb = none → LbHeld s) :
    let oa := ha.elim (latchOp (s.cell s.cur.cell).la) (tileOp s)
    let ob := hb.elim (latchOp (s.cell s.cur.cell).lb) (tileOp s)
    let da := descOf oa.desc
    let db := descOf ob.desc
    validDesc oa.desc = true → validDesc ob.desc = true → srAdmits sr da = true → srAdmits sr db = true →
    (scaled = true → sr = .pt ∧ (∀ k ∈ hsa, da.sgeo ≠ 0) ∧ ∀ k ∈ hsb, db.sgeo ≠ 0) →
    oa.rows ≤ 128 → oa.cols ≤ 128 → ob.cols ≤ 128 → ob.rows = oa.cols →
    (∀ k ∈ hsa, da.scaleCount oa.rows oa.cols ≤ tileSize (tileAt s.cur k) (descOf (descVal s.cur (tileAt s.cur k)))) →
    (∀ k ∈ hsb, db.scaleCount ob.rows ob.cols ≤ tileSize (tileAt s.cur k) (descOf (descVal s.cur (tileAt s.cur k)))) →
    finish s (mulAcc s acc a b sa sb scaled sr la lb) = ran (mulAccLeaves s acc ha hb hsa hsb oa ob
      (hsa.elim [] fun k => scaleBytes s k (da.scaleCount oa.rows oa.cols)) (hsb.elim [] fun k => scaleBytes s k (db.scaleCount ob.rows ob.cols)) sr la lb
      (arrayCycles (max da.wd db.wd) + ofBool scaled)) := by
  intro oa ob da db hva hvb hada hadb hsc hor hoc hobc hobr hna hnb
  have hA (k : Nat) (hk : k ∈ ha) : UnitReads s k := htiles k (by simp [Option.mem_toList.2 hk])
  have hB (k : Nat) (hk : k ∈ hb) : UnitReads s k := htiles k (by simp [Option.mem_toList.2 hk])
  have hSA (k : Nat) (hk : k ∈ hsa) : UnitReads s k := htiles k (by simp [Option.mem_toList.2 hk])
  have hSB (k : Nat) (hk : k ∈ hsb) : UnitReads s k := htiles k (by simp [Option.mem_toList.2 hk])
  have hscaled : (!scaled || sr == .pt && (hsa.isNone || da.sgeo != 0) && (hsb.isNone || db.sgeo != 0)) = true := by
    cases hs : scaled with
    | false => rfl
    | true =>
      obtain ⟨hpt, hda, hdb⟩ := hsc hs
      have hgeo {o : Option Nat} {d : Desc} (h : ∀ k ∈ o, d.sgeo ≠ 0) : (o.isNone || d.sgeo != 0) = true := by
        cases o with
        | none => rfl
        | some k => exact bne_iff_ne.2 (h k rfl)
      rw [hpt, hgeo hda, hgeo hdb]; rfl
  have hstart : finish s (mulAcc s acc a b sa sb scaled sr la lb) = _ :=
    (finish_bind hra).trans <| (finish_bind hrb).trans <| (finish_bind hrsa).trans <| (finish_bind hrsb).trans <|
    (finish_bind (needLocal_ok hr fun k hk => (htiles k hk).isLocal)).trans <| (finish_bind (needAcc_ok hacc)).trans <|
    (finish_when fun hn => needLa_held (hla (Option.isNone_iff_eq_none.1 hn))).trans <|
    (finish_when fun hn => needLb_held (hlb (Option.isNone_iff_eq_none.1 hn))).trans <|
    (finish_operand (fun k hk => (hA k hk).readable) fun hn => laOperand_ok (hla hn)).trans <|
    (finish_operand (fun k hk => (hB k hk).readable) fun hn => lbOperand_ok (hlb hn)).trans <|
    (finish_bind (needOpt_ok fun k hk => ⟨_, needRead_ok (hSA k hk).readable⟩)).trans
    (finish_bind (needOpt_ok fun k hk => ⟨_, needRead_ok (hSB k hk).readable⟩))
  have hdescs : ∀ k ∈ hsa.toList ++ hsb.toList, ∃ f n, Sized s k f n := by
    intro k hk
    simp only [List.mem_append, Option.mem_toList] at hk
    exact hk.elim (fun h => (hSA k h).sized) fun h => (hSB k h).sized
  refine hstart.trans <| (finish_bind (validDescs_ok hdescs)).trans <| (finish_bind (check_ok _ (by simp [hva, hvb, hada, hadb, oa, ob, da, db]))).trans <|
    (finish_bind (check_ok _ hscaled)).trans <| (finish_bind (needOpSize_ok fun k hk => (hA k hk).sized)).trans <|
    (finish_bind (needOpSize_ok fun k hk => (hB k hk).sized)).trans <| (finish_bind (needOpSize_ok fun k hk => (hSA k hk).sized)).trans <|
    (finish_bind (needOpSize_ok fun k hk => (hSB k hk).sized)).trans <| (finish_bind (check_ok _ (by simp [hor, hoc, hobc, hobr, oa, ob]))).trans <|
    (finish_bind (needScales_ok hna)).trans <| (finish_bind (needScales_ok hnb)).trans <| (finish_bind (needM_ok hm)).trans ?_
  simp only [List.map_map, Function.comp_def]
  rfl

end

-- Accumulators bound once more (10 R242) -------------------------------------------------------------------------------

theorem accs_setAcc (s : State) (k : Fin 4) (a : Acc) : ((s.setAcc k a).cell s.cur.cell).accs =
    (s.cell s.cur.cell).accs.set k.val { a with bind := some s.mine, busy := true } := by
  rw [State.setAcc, State.cell_modCell]
theorem accAt_setAcc_other (s : State) {j k : Fin 4} (a : Acc) (h : j ≠ k) : accAt (s.setAcc k a) j = accAt s j := by
  show ((s.setAcc k a).cell s.cur.cell).accs.getD j.val {} = _
  rw [accs_setAcc, List.getD_eq_getElem?_getD, List.getElem?_set_ne fun e => h (Fin.ext e).symm, ← List.getD_eq_getElem?_getD]
  rfl
/-- An accumulator that is bound again keeps its elements and their poison. -/
theorem accAt_setAcc_self (s : State) (k : Fin 4) : ∃ b y, accAt (s.setAcc k (accAt s k)) k = { accAt s k with bind := b, busy := y } := by
  have hget : accAt (s.setAcc k (accAt s k)) k = ((s.cell s.cur.cell).accs.set k.val { accAt s k with bind := some s.mine, busy := true }).getD k.val {} :=
    congrArg (·.getD k.val {}) (accs_setAcc s k (accAt s k))
  by_cases hk : k.val < (s.cell s.cur.cell).accs.length
  · exact ⟨some s.mine, true, by rw [hget, List.getD_eq_getElem?_getD, List.getElem?_set_self hk]; rfl⟩
  · refine ⟨(accAt s k).bind, (accAt s k).busy, ?_⟩
    rw [hget, List.set_eq_of_length_le (Nat.le_of_not_lt hk)]
    rfl
/-- The source of `macc`, once it is bound. -/
def maccBound (s : State) (acc k : Fin 4) : State := if k = acc then s else s.setAcc k (accAt s k)
theorem window_maccBound (s : State) (acc k : Fin 4) (r c m n : Nat) : (accAt (maccBound s acc k) k).window r c m n = (accAt s k).window r c m n := by
  unfold maccBound
  split
  · rfl
  · obtain ⟨b, y, h⟩ := accAt_setAcc_self s k
    rw [h]; rfl
theorem accAt_maccBound (s : State) (acc k : Fin 4) : accAt (maccBound s acc k) acc = accAt s acc := by
  unfold maccBound
  split
  · rfl
  · next h => exact accAt_setAcc_other s _ (Ne.symm h)

-- Stores (10 R243) -----------------------------------------------------------------------------------------------------

/-- The sectors of a window that a clearing store covers wholly (07 R167). -/
def windowSectors (r0 c0 rows cols : Nat) : List Nat :=
  ((List.range rows).map fun i => ((List.range 16).filter fun k => c0 ≤ 8 * k && 8 * k + 8 ≤ c0 + cols).map fun k => 16 * (r0 + i) + k).flatten
theorem mem_windowSectors {r0 c0 rows cols k : Nat} : k ∈ windowSectors r0 c0 rows cols ↔
    r0 ≤ k / 16 ∧ k / 16 < r0 + rows ∧ c0 ≤ 8 * (k % 16) ∧ 8 * (k % 16) + 8 ≤ c0 + cols := by
  rw [windowSectors, List.mem_flatten]
  constructor
  · rintro ⟨_, hrow, hk⟩
    obtain ⟨i, hi, rfl⟩ := List.mem_map.1 hrow
    obtain ⟨j, hj, rfl⟩ := List.mem_map.1 hk
    rw [List.mem_range] at hi
    rw [List.mem_filter, List.mem_range, Bool.and_eq_true, decide_eq_true_eq, decide_eq_true_eq] at hj
    omega
  · rintro ⟨hlo, hhi, hleft, hright⟩
    refine ⟨_, List.mem_map.2 ⟨k / 16 - r0, List.mem_range.2 (by omega), rfl⟩,
      List.mem_map.2 ⟨k % 16, List.mem_filter.2 ⟨List.mem_range.2 (by omega), ?_⟩, by omega⟩⟩
    rw [Bool.and_eq_true, decide_eq_true_eq, decide_eq_true_eq]
    exact ⟨hleft, hright⟩
/-- An accumulator whose window is cleared (R243). -/
def clearWindow (a : Acc) (r0 c0 rows cols : Nat) : Acc :=
  { a.write (((List.range rows).map fun i => (List.range cols).map fun j => (128 * (r0 + i) + c0 + j, (0 : W32))).flatten) with
    pois := a.pois.filter fun k => !(windowSectors r0 c0 rows cols).contains k }
theorem mem_pois_clearWindow {a : Acc} {r0 c0 rows cols k : Nat} : k ∈ (clearWindow a r0 c0 rows cols).pois ↔
    k ∈ a.pois ∧ ¬ (r0 ≤ k / 16 ∧ k / 16 < r0 + rows ∧ c0 ≤ 8 * (k % 16) ∧ 8 * (k % 16) + 8 ≤ c0 + cols) := by
  rw [← mem_windowSectors, clearWindow, List.mem_filter]
  simp

-- Accumulations and stores past their checks (10 R233, R242, R243) -----------------------------------------------------

section
variable {s : State} {acc : Fin 4} (hr : s.cur.roaming = false) (hm : (s.cell s.cur.cell).munit = none) (hacc : AccFree s acc)
include hr hm hacc

theorem exec_macc_acc (sr : SemiRing) (la : Bool) {k : Fin 4} (hk : AccFree s k) : exec (.macc acc (.acc k) sr la) s =
    ran ((((maccBound s acc k).setAcc acc ((accAt s acc).accumulate sr (((accAt s k).window 0 0 128 128).map fun r => r.map fun x =>
      (dec32 x.1.toNat, x.2)))).retire 3).startM 132 { accs := [acc.val, k.val] }) := by
  have hbound : (if (k == acc) = true then s else s.setAcc k (accAt s k)) = maccBound s acc k := if_congr beq_iff_eq rfl rfl
  refine Eq.trans ((finish_bind (v := none) rfl).trans <| (finish_bind (needLocal_ok (hs := []) hr nofun)).trans <|
    (finish_bind (needAcc_ok hacc)).trans <| (finish_bind (needAcc_ok hk)).trans (finish_bind (needM_ok hm))) ?_
  rw [hbound]
  dsimp only
  rw [accAt_maccBound, window_maccBound]
  rfl
theorem exec_macc_tile (sr : SemiRing) (la : Bool) {a : TileSel} {h n : Nat} {f : Desc} (ha : resolve s.cur false a = .ok h) (hl : Local s h)
    (hrd : Readable s h) (hs : Sized s h f n) (hlo : 1 ≤ f.cls) (hhi : f.cls ≤ 3) (hrows : (tileAt s.cur h).rows.toNat ≤ 128)
    (hcols : (tileAt s.cur h).cols.toNat ≤ 128) : exec (.macc acc (.tile a) sr la) s =
      ran (((s.setAcc acc ((accAt s acc).accumulate sr ((tileOp s h).vals [] false))).setCur
        (((s.cur.watchOp false h).retire 3).lastUses [(la, h)])).startM ((tileAt s.cur h).rows.toNat + 4)
          { brief := [((tileAt s.cur h).loc.toNat, n, s.cycle + (tileAt s.cur h).rows.toNat)], accs := [acc.val] }) :=
  (finish_bind (v := some h) (resolveOpt_some ha)).trans <| (finish_bind (needLocal_ok (hs := [h]) hr (List.forall_mem_singleton.2 hl))).trans <|
  (finish_bind (needAcc_ok hacc)).trans <| (finish_bind (needRead_ok hrd)).trans <| (finish_bind (needDesc_ok hs)).trans <|
  (finish_bind (check_ok _ (by simp [hlo, hhi]))).trans <| (finish_bind (needSize_ok hs)).trans <|
  (finish_bind (check_ok _ (by simp [hrows, hcols]))).trans (finish_bind (needM_ok hm))
theorem exec_mst {to_ : TileSel} {row0 col0 : BitVec 7} (clr sat : Bool) (rnd : Rnd) {h n : Nat} {f : Desc} (hto : resolve s.cur true to_ = .ok h)
    (hl : Local s h) (hw : Writable s h) (hs : Sized s h f n) (hcls : (1 ≤ f.cls ∧ f.cls ≤ 4) ∨ (f.cls = 0 ∧ f.sgeo = 0)) :
    let rows := (tileAt s.cur h).rows.toNat
    let cols := (tileAt s.cur h).cols.toNat
    let m := roundMat f rnd sat s.cur.gen (((accAt s acc).window row0.toNat col0.toNat rows cols).map fun r => r.map fun x => (dec32 x.1.toNat, x.2))
    row0.toNat + rows ≤ 128 → col0.toNat + cols ≤ 128 → Unread s (tileAt s.cur h).loc.toNat n →
    exec (.mst acc to_ row0 col0 clr sat rnd) s =
      ran (((s.setAcc acc (if clr then clearWindow (accAt s acc) row0.toNat col0.toNat rows cols else accAt s acc)).setCur
        (((({ s.cur with gen := m.2 } : Actor).tileState h .filling).watchOp true h).retire 5)).startM (ceilDiv n 512)
          { writeJob s h m.1 with accs := [acc.val] }) := by
  intro rows cols m hrow hcol hun
  exact (finish_bind hto).trans <| (finish_bind (needLocal_ok (hs := [h]) hr (List.forall_mem_singleton.2 hl))).trans <|
    (finish_bind (needAcc_ok hacc)).trans <| (finish_bind (needWrite_ok hw)).trans <| (finish_bind (needDesc_ok hs)).trans <|
    (finish_bind (check_ok _ (by simpa using hcls))).trans <| (finish_bind (needSize_ok hs)).trans <|
    (finish_bind (check_ok _ (Bool.and_eq_true_iff.2 ⟨decide_eq_true hrow, decide_eq_true hcol⟩))).trans <|
    (finish_bind hun).trans (finish_bind (needM_ok hm))

end

end Sys2Proof.Machine

open Sys2Proof Sys2Proof.Machine

/-- Settles O30: `mma` and `mmas` are one multiply-accumulate; a source accumulator that is bound again keeps what it held, and a clearing store
removes the poison of the sectors that its window covers. -/
theorem matrixResults : Obligations.MatrixResults := by
  unfold Obligations.MatrixResults
  intro acc s hr hm c me free hfree
  refine ⟨?multiply, fun sr la k hk => ?fromAcc, fun sr la a h n f ha hl hrd hs hlo hhi hrows hcols => ?fromTile,
    fun to_ row0 col0 clr sat rnd h n f hto hl hw hs hcls => ?store⟩
  case multiply =>
    intro a b sa sb sr la lb ha hb hsa hsb hra hrb hrsa hrsb htiles hla hlb oa ob da db hva hvb hada hadb hor hoc hobc hobr scales enough reads held adds
    have issues (scaled : Bool) := finish_mulAcc scaled la lb hr hm hfree hra hrb hrsa hrsb htiles hla hlb hva hvb hada hadb
    refine ⟨fun hsa' hsb' => ?mma, fun hpt hea heb => ?mmas⟩
    case mma =>
      subst hsa' hsb'
      cases hrsa
      cases hrsb
      exact issues false nofun hor hoc hobc hobr nofun nofun
    case mmas =>
      exact issues true (fun _ => ⟨hpt, fun k hk => (hea k hk).1, fun k hk => (heb k hk).1⟩) hor hoc hobc hobr (fun k hk => (hea k hk).2)
        fun k hk => (heb k hk).2
  case fromAcc => exact exec_macc_acc hr hm hfree sr la hk
  case fromTile => exact exec_macc_tile hr hm hfree sr la ha hl hrd hs hlo hhi hrows hcols
  case store =>
    intro rows cols hrow hcol hun m
    refine ⟨_, exec_mst hr hm hfree clr sat rnd hto hl hw hs hcls hrow hcol hun, fun hc => if_neg (by simp [hc]), fun hc => ?_⟩
    rw [if_pos hc]
    exact ⟨rfl, rfl, fun k => mem_pois_clearWindow⟩
end

