-- ==== Sys2Proof/Proofs/OutboxIssue.lean ====
section
/-! PROOFS. What the instructions that fill the outbox share at issue (R262, R266, R267; 05 R126, R127): their operands, their
destination, the tiles that they give and the message that waits. -/

namespace Sys2Proof.Machine

section
variable {s : State} {g : Guard}

/-- An evaluation goes on past one that succeeds. -/
theorem bind_of_ok {α β : Type} {r : Res α} {v : α} {f : α → Res β} (h : r = .ok v) : r >>= f = f v := by rw [h]; rfl

-- Operands (R267, check 1) -----------------------------------------------------------------------------------------

theorem operands_ok {l : List Scalar} {vs : List W64} (h : List.Forall₂ (fun a v => Reads s a v false) l vs) :
    operands s l = .ok (vs.map fun v => (v, false)) := by
  induction h with
  | nil => rfl
  | cons ha _ ih => rw [operands, operand_ok ha, ok_bind, ih]; rfl
theorem cleanOperands_ok {l : List Scalar} {vs : List W64} (h : List.Forall₂ (fun a v => Reads s a v false) l vs) :
    cleanOperands s l = .ok vs := by
  have hclean : ((vs.map fun v => (v, false)).all fun (v : W64 × Bool) => !v.2) = true := by simp
  rw [cleanOperands, operands_ok h, ok_bind, check_ok _ hclean, ok_bind, pure_eq, List.map_map]
  exact congrArg _ (List.map_id' vs)
theorem cleanOperands_pair {a b : Scalar} {v w : W64} (ha : Reads s a v false) (hb : Reads s b w false) : cleanOperands s [a, b] = .ok [v, w] :=
  cleanOperands_ok (.cons ha (.cons hb .nil))

-- Destinations (R267, check 2) -------------------------------------------------------------------------------------

variable {d : ActorName}

theorem needDest_ok (hj : jobOf d = 0 ∨ jobOf d = jobOf (selfName s.cur)) (hp : s.peerDead (pkgOf d) = false) : needDest s d = .ok () := by
  rw [needDest, check_ok _ (by simpa using hj), ok_bind, hp]; rfl
theorem needDest_lost (hj : jobOf d = 0 ∨ jobOf d = jobOf (selfName s.cur)) (hp : s.peerDead (pkgOf d) = true) :
    needDest s d = .error (.kill rPeerLost) := by
  rw [needDest, check_ok _ (by simpa using hj), ok_bind, hp]; rfl
theorem needDest_foreign (h0 : jobOf d ≠ 0) (hj : jobOf d ≠ jobOf (selfName s.cur)) : needDest s d = .error (.kill rExtent) := by
  rw [needDest, check_no _ (by simp [h0, hj]), error_bind]

-- Tiles (R267, check 4) --------------------------------------------------------------------------------------------

/-- Tile selectors that name tiles that a message may carry. -/
def Sendable (s : State) (tl : List TileSel) (hs : List Nat) : Prop :=
  List.Forall₂ (fun t h => resolve s.cur false t = .ok h ∧ Readable s h ∧ (Local s h → ∃ f n, Sized s h f n)) tl hs
theorem resolveAll_ok {tl : List TileSel} {hs : List Nat} (h : Sendable s tl hs) : resolveAll s.cur tl = .ok hs := by
  induction h with
  | nil => rfl
  | cons ht _ ih => rw [resolveAll, ht.1, ok_bind, ih]; rfl
theorem needSends_ok {tl : List TileSel} {hs : List Nat} (h : Sendable s tl hs) : needSends s hs = .ok () := by
  induction h with
  | nil => rfl
  | @cons t k tl hs ht _ ih =>
    obtain ⟨-, hread, hsize⟩ := ht
    rw [needSends, needSend, needRead_ok hread, ok_bind]
    by_cases hg : (tileAt s.cur k).glob = true
    · simpa [hg] using ih
    · obtain ⟨f, n, hs⟩ := hsize (by simpa [Local] using hg)
      simpa [hg, needDesc_ok hs, needSize_ok hs, ok_bind] using ih
theorem sendTiles_ok {tl : List TileSel} {hs : List Nat} (h : Sendable s tl hs) : sendTiles s tl = .ok hs := by
  rw [sendTiles, resolveAll_ok h, ok_bind, needSends_ok h]; rfl

-- Messages that wait (R262, R268) ----------------------------------------------------------------------------------

/-- The message `m` as it waits in the outbox: sent by the issuing actor, with the capabilities of tiles `hs`. -/
def sentMsg (s : State) (m : Msg) (hs : List Nat) : Msg := { m with sender := selfName s.cur, caps := hs.map fun h => capOf (tileAt s.cur h) }
/-- The issuing actor with `m` in its outbox, past the instruction; `reads` are the transfers that read its tiles. -/
def State.waitsIn (t : State) (m : Msg) (reads : List Nat) : State := (t.spillOut { t.cur with outbox := t.cur.outbox ++ [.msg m reads] }).retire 3

/-- A message passes the checks of its tiles, and they are given with it. -/
theorem sendMsg_ok {m : Msg} {tl : List TileSel} {hs : List Nat} (ht : Sendable s tl hs) (hnd : hs.Nodup)
    (hfits : ovfFits { s.cur with outbox := s.cur.outbox ++ [.msg (sentMsg s m hs) []] } = true)
    (hbuoy : m.rep = true ∨ pkgOf m.dest = pkgOf (selfName s.cur) ∨ ∀ c ∈ (sentMsg s m hs).caps, c.glob = true → inBuoy s c.loc.toNat = true)
    (hroom : (sentMsg s m hs).caps.filter (!·.glob) = [] ∨
      (s.cell (runCell s.cur)).outstanding + ((sentMsg s m hs).caps.filter (!·.glob)).length ≤ 32) :
    sendMsg s m tl = .ok ((s.giveTiles 0 hs).1.waitsIn (sentMsg s m hs) (s.giveTiles 0 hs).2) := by
  have hplace : (m.rep || pkgOf m.dest == pkgOf (selfName s.cur) || (sentMsg s m hs).caps.all fun c => !c.glob || inBuoy s c.loc.toNat) = true := by
    rcases hbuoy with h | h | h
    · simp [h]
    · simp [h]
    · have hall : ((sentMsg s m hs).caps.all fun c => !c.glob || inBuoy s c.loc.toNat) = true := by
        refine List.all_eq_true.2 fun c hc => ?_
        cases hg : c.glob with
        | false => rfl
        | true => simp [h c hc hg]
      simp [hall]
  have hxfers : needXfers s ((sentMsg s m hs).caps.filter (!·.glob)).length = .ok () := by
    rcases hroom with h | h
    · rw [h]; rfl
    · exact needXfers_ok h
  exact (bind_of_ok (sendTiles_ok ht)).trans <| (bind_of_ok (check_ok _ (decide_eq_true hnd))).trans <| (bind_of_ok (needOutbox_ok hfits)).trans <|
    (bind_of_ok (check_ok _ hplace)).trans (bind_of_ok hxfers)
/-- A message without tiles. -/
theorem sendMsg_plain {m : Msg} (hfits : ovfFits { s.cur with outbox := s.cur.outbox ++ [.msg (sentMsg s m []) []] } = true) :
    sendMsg s m [] = .ok (s.waitsIn (sentMsg s m []) []) :=
  sendMsg_ok .nil .nil hfits (.inr (.inr nofun)) (.inl rfl)

end

end Sys2Proof.Machine
end

