-- ==== Sys2Proof/Proofs/MessagesWait.lean ====
section
/-! PROOFS. What `send`, `sendt`, `call`, `reply` and `mcast` leave in the outbox (R266 to R268, R271; 05 R129), and O37. -/

namespace Sys2Proof.Machine

section
variable {s : State} {g : Guard} {a : Scalar} {x : SendArgs} {d : W64} {vs : List W64}

/-- The reply tag of a `call` on slot `k` (R271): the slot's next generation under bit 7. -/
def replyTag (s : State) (k : Fin 8) : W64 := BitVec.ofNat 64 (0x80 + k.val * 16 + ((s.cur.ys.getD k.val {}).gen + 1).val)
/-- The message of a `call` (R268, R271): its payload filled up to three words, then the reply tag. -/
def callMsg (s : State) (x : SendArgs) (d : W64) (vs : List W64) : Msg :=
  { msgWith x d (vs ++ List.replicate (3 - vs.length) 0 ++ [replyTag s x.ys]) with
    call := true, slot := x.ys, rgen := (s.cur.ys.getD x.ys.val {}).gen + 1 }
theorem callMsg_payload (h : vs.length ≤ 3) :
    (vs ++ List.replicate (3 - vs.length) 0 ++ [replyTag s x.ys]).length = 4 := by
  simp only [List.length_append, List.length_replicate, List.length_singleton]
  omega
/-- A payload of three words at most and the tag leave no word to fill. -/
theorem callMsg_eq (h : vs.length ≤ 3) : callMsg s x d vs = { msgWith x d vs with
    call := true, slot := x.ys, rgen := (s.cur.ys.getD x.ys.val {}).gen + 1, plen := 4
    m := vs ++ List.replicate (3 - vs.length) 0 ++ [replyTag s x.ys] } := by
  simp only [callMsg, msgWith, callMsg_payload h, Nat.sub_self, List.replicate_zero, List.append_nil]

/-- The slot of a `call` once its message waits: PENDING at its next generation (R271). -/
def calledSlot (s : State) (k : Fin 8) : ReplySlot :=
  { s.cur.ys.getD k.val {} with gen := (s.cur.ys.getD k.val {}).gen + 1, st := .pending }

-- The three sends (R267, R268) -------------------------------------------------------------------------------------

section
variable (hg : GuardOn s g) (ha : Reads s a d false) (hv : List.Forall₂ (fun a v => Reads s a v false) x.pl vs)
include hg ha hv

/-- The destination is checked before anything else of a message. -/
theorem exec_send_dest {e : Stop} (hd : needDest s d = .error e) : exec (.send a x g) s = finish s (.error e) :=
  (guarded_on hg _ _ _).trans <| (finish_bind (cleanOperands_ok (.cons ha hv))).trans (finish_bind_error hd)
variable (hd : needDest s d = .ok ())
include hd

theorem exec_send_ok : exec (.send a x g) s = finish s (sendMsg s (msgWith x d vs) []) :=
  (guarded_on hg _ _ _).trans <| (finish_bind (cleanOperands_ok (.cons ha hv))).trans (finish_bind hd)
theorem exec_sendt_ok : exec (.sendt a x g) s = finish s (sendMsg s (msgWith x d vs) x.tl) :=
  (guarded_on hg _ _ _).trans <| (finish_bind (cleanOperands_ok (.cons ha hv))).trans (finish_bind hd)
theorem exec_callRequest_ok {t : State} (ht : sendMsg s (callMsg s x d vs) x.tl = .ok t) :
    exec (.callRequest a x g) s = ran (t.setCur { t.cur with ys := t.cur.ys.set x.ys.val (calledSlot s x.ys) }) :=
  (guarded_on hg _ _ _).trans <| (finish_bind (cleanOperands_ok (.cons ha hv))).trans <| (finish_bind hd).trans (finish_bind ht)

end

-- Replies (R267, R271) ---------------------------------------------------------------------------------------------

/-- A reply tag has bit 7 and nothing above it. -/
theorem replyTag_iff (n : Nat) : (bit n 7 && decide (n < 256)) = true ↔ 128 ≤ n ∧ n < 256 := by
  simp only [bit, Bool.and_eq_true, beq_iff_eq, decide_eq_true_eq]
  omega
/-- The message of a `reply`: tag bits 6:4 are its slot, bits 3:0 its generation. -/
def replyMsg (d tag v : W64) : Msg :=
  { dest := d, rep := true, slot := Fin.ofNat 8 (tag.toNat / 16), rgen := Fin.ofNat 16 tag.toNat, plen := 1, m := [v, 0, 0, 0] }
theorem replyMsg_eq (d tag v : W64) :
    { replyMsg d tag v with slot := Fin.ofNat 8 (bits tag.toNat 6 4), rgen := Fin.ofNat 16 (bits tag.toNat 3 0) } = replyMsg d tag v := by
  have hslot : Fin.ofNat 8 (bits tag.toNat 6 4) = Fin.ofNat 8 (tag.toNat / 16) := Fin.ext (by simp [bits])
  have hgen : Fin.ofNat 16 (bits tag.toNat 3 0) = Fin.ofNat 16 tag.toNat := Fin.ext (by simp [bits])
  rw [hslot, hgen]; rfl

section
variable {b pl : Scalar} {tag v : W64} (hg : GuardOn s g) (ha : Reads s a d false) (hb : Reads s b tag false) (hv : Reads s pl v false)
  (hd : needDest s d = .ok ())
include hg ha hb hv hd

theorem exec_reply_untagged (ht : ¬ (128 ≤ tag.toNat ∧ tag.toNat < 256)) : exec (.reply a b pl g) s = dies s rIllegal :=
  (guarded_on hg _ _ _).trans <| (finish_bind (cleanOperands_ok (.cons ha (.cons hb (.cons hv .nil))))).trans <| (finish_bind hd).trans
    (finish_bind_error (check_no _ (Bool.eq_false_iff.2 fun h => ht ((replyTag_iff _).1 h))))
theorem exec_reply_tagged (ht : 128 ≤ tag.toNat ∧ tag.toNat < 256) : exec (.reply a b pl g) s = finish s (sendMsg s (replyMsg d tag v) []) :=
  (guarded_on hg _ _ _).trans <| (finish_bind (cleanOperands_ok (.cons ha (.cons hb (.cons hv .nil))))).trans <| (finish_bind hd).trans <|
    (finish_bind (check_ok _ ((replyTag_iff _).2 ht))).trans (congrArg (fun m => finish s (sendMsg s m [])) (replyMsg_eq d tag v))

end

-- Multicast (05 R129) ----------------------------------------------------------------------------------------------

/-- The copies of a multicast of tile `h` to the other members of cohort `c` on the sender's bus, all carried by the next transfer. -/
def mcastItems (s : State) (x : SendArgs) (vs : List W64) (h : Nat) (c : Cohort) : List OutItem :=
  (s.onBus c (busOf s.cur.cell c.shape) s.cur.cell (selfName s.cur)).map fun d => .msg (sentMsg s (msgWith x d vs) [h]) [s.nextId]
/-- The issuing actor after a multicast: its copies wait, and its tile drains. -/
def mcastLeft (s : State) (items : List OutItem) (h : Nat) : Actor :=
  (((({ s.cur with outbox := s.cur.outbox ++ items } : Actor)).drain h).addOut { id := s.nextId, kind := .give }).watchOp false h
/-- The transfer of a multicast over its bus to `n` receivers. -/
def mcastXfer (s : State) (h : Nat) (c : Cohort) (n : Nat) : Xfer :=
  { id := s.nextId, kind := .mcast, actor := s.focus, inv := s.cur.invNo, src := some h, soff := (tileAt s.cur h).loc.toNat,
    bytes := bytesAt s h, bus := some (busOf s.cur.cell c.shape), toRead := 1, left := n }
theorem needOutbox_fits {b : Actor} {l : List OutItem} (h : l = [] ∨ ovfFits { b with outbox := b.outbox ++ l } = true) :
    needOutbox b l = .ok { b with outbox := b.outbox ++ l } := by
  rw [needOutbox, check_ok _ (by rcases h with rfl | h <;> simp [*])]; rfl

theorem exec_mcast_ok {h : Nat} {c : Cohort} (hg : GuardOn s g) (hv : List.Forall₂ (fun a v => Reads s a v false) x.pl vs)
    (ht : Sendable s x.tl [h]) (hl : Local s h) (hr : s.cur.roaming = false) (hc : s.cohortOf (selfName s.cur) = some c) (hs : c.shape ≠ .any)
    (hsh : s.cur.shadow = none) (hroom : (s.cell (runCell s.cur)).outstanding < 32)
    (hfits : mcastItems s x vs h c = [] ∨ ovfFits { s.cur with outbox := s.cur.outbox ++ mcastItems s x vs h c } = true) :
    exec (.mcast x g) s = ran ((((s.freshId.spillOut (mcastLeft s (mcastItems s x vs h c) h)).addXfer s.cur.cell
      (mcastXfer s h c (mcastItems s x vs h c).length)).post 0 .mcastBusServe { n := busOf s.cur.cell c.shape }).retire 3) := by
  have hstart : exec (.mcast x g) s = _ :=
    (guarded_on hg _ _ _).trans <| (finish_bind (cleanOperands_ok hv)).trans (finish_bind (sendTiles_ok ht))
  have hplace : (!(tileAt s.cur h).glob && c.shape != .any && !s.cur.roaming) = true := by
    unfold Local at hl; simp [hl, hr, hs]
  rw [hstart]
  dsimp only
  rw [List.headD_cons, hc]
  refine (finish_bind (check_ok _ hplace)).trans <|
    (finish_bind (needOutbox_fits hfits)).trans <| (finish_bind (needXfers_ok (Nat.succ_le_of_lt hroom))).trans <|
    (congrArg (finish s) (if_neg (ne_true_of_eq_false (congrArg Option.isSome hsh)))).trans ?_
  rw [mcastItems, List.length_map]
  rfl

end

end Sys2Proof.Machine

open Sys2Proof Sys2Proof.Machine

/-- Settles O37: each form checks its destination before its message, and what waits is that message with its tiles given. -/
theorem messagesWait : Obligations.MessagesWait := by
  unfold Obligations.MessagesWait
  intro g s hg self fits words tilesOk body waitsIn
  refine ⟨fun a x d vs ha hv => ⟨fun h0 hj => ?foreign, fun hj hp => ?lost, fun hj hp => ?goes⟩, fun a b pl d tag v ha hb hv hj hp => ?reply, ?mcast⟩
  case foreign => exact exec_send_dest hg ha hv (needDest_foreign h0 hj)
  case lost => exact exec_send_dest hg ha hv (needDest_lost hj hp)
  case goes =>
    have hd := needDest_ok hj hp
    refine ⟨fun hfits => ?send, fun hs ⟨ht, hnd⟩ => ?tiles⟩
    case send =>
      have hsent := sendMsg_plain (m := msgWith x d vs) hfits
      exact (exec_send_ok hg ha hv hd).trans (congrArg (finish s) hsent)
    case tiles =>
      intro caps given hbuoy hroom
      constructor
      · intro hfits
        have hsent := sendMsg_ok (m := msgWith x d vs) ht hnd hfits (.inr hbuoy) (.inr hroom)
        exact (exec_sendt_ok hg ha hv hd).trans (congrArg (finish s) hsent)
      · intro hlen y tag m hfits t
        have hm : sentMsg s (callMsg s x d vs) hs = m := by rw [callMsg_eq hlen]; rfl
        have hsent := sendMsg_ok (m := callMsg s x d vs) ht hnd (by rw [hm]; exact hfits) (.inr hbuoy) (.inr hroom)
        rw [hm] at hsent
        exact exec_callRequest_ok hg ha hv hd hsent
  case reply =>
    have hd := needDest_ok hj hp
    refine ⟨exec_reply_untagged hg ha hb hv hd, fun h1 h2 => ?_⟩
    intro m hfits
    exact (exec_reply_tagged hg ha hb hv hd ⟨h1, h2⟩).trans (congrArg (finish s) (sendMsg_plain (m := replyMsg d tag v) hfits))
  case mcast =>
    intro x vs h c hv ⟨ht, _⟩ hl hr hc hs hsh hroom e bus items hfits
    exact exec_mcast_ok hg hv ht hl hr hc hs hsh hroom hfits
end

