-- ==== Sys2Proof/Proofs/Commits.lean ====
section
/-! PROOFS. The commit points `await` and `end` (R262, R273, R274; 21 R396), and O38. -/

namespace Sys2Proof.Machine

section
variable {s : State} {g : Guard}

-- The commit (R262) ------------------------------------------------------------------------------------------------

/-- The issuing actor's outbox taken from it, its bytes in the output stream of an audited or shadow invocation (21 R394). -/
def State.outboxTaken (s : State) : State := (s.logOut s.cur (s.cur.outbox.map (outBytes s.cur)).flatten).setCur { s.cur with outbox := [] }
/-- Entries of the issuing actor leave in program order, but for those of one that has died for want of room on the way. -/
def State.released (s t : State) : State :=
  s.cur.outbox.foldl (fun (t : State) o => if t.cur.debt == some rOverflow then t.discard o else t.releaseItem s.cur o) t
/-- What a commit leaves: a shadow run releases nothing (21 R396). -/
def State.committed (s : State) : State := if s.cur.shadow.isSome then s.outboxTaken else s.released s.outboxTaken

theorem commit_ready (h : s.cur.commitReady = true) : commit s = .ok s.committed := by
  simp only [commit, h, Bool.not_true, Bool.false_eq_true, if_false]
  unfold State.committed
  split <;> rfl
theorem commit_waits (h : s.cur.commitReady = false) : commit s = .error (.stall s) := by
  simp only [commit, h, Bool.not_false, if_true, Stall]

-- `await` (R273) ---------------------------------------------------------------------------------------------------

/-- The state in which an `await` looks at its slot: past the commit when it issues first. -/
def State.awaiting (s : State) : State := if s.cur.await = none then s.committed else s
/-- What is left to an `await` once the commit is over. -/
def awaitSlot (s : State) (b : Fin 8) (limit : W64) (first : Bool) : Res State :=
  if !s.alive s.focus then pure s
  else if s.cur.shadow.isSome then pure (s.awaited b 0 false 0)
  else if s.cur.pend == some 1 then pure (s.awaited b 0 false 1)
  else match (s.cur.ys.getD b.val {}).st with
    | .free => pure (s.awaited b 0 false 2)
    | .filled => pure (s.awaited b (s.cur.ys.getD b.val {}).val (s.cur.ys.getD b.val {}).pois 0)
    | .pending =>
      if !first then Stall s
      else
        let t := s.freshId.setCur { s.cur with await := some s.nextId }
        Stall (if limit = 0 then t else t.post limit.toNat .awaitTimeout { actor := t.focus, n := b.val, m := s.nextId })

section
variable {a : Scalar} {b : Fin 8} {limit : W64} (hg : GuardOn s g) (ha : Reads s a limit false)
include hg ha

theorem exec_await_waits (h0 : s.cur.await = none) (hc : s.cur.commitReady = false) : exec (.await a b g) s = waits s := by
  refine (guarded_on hg _ _ _).trans <| (finish_bind (clean_ok ha)).trans ?_
  simp only [h0, Option.isNone_none, if_true]
  exact finish_bind_error (commit_waits hc)
theorem exec_await_slot (hc : s.cur.await = none → s.cur.commitReady = true) :
    exec (.await a b g) s = finish s (awaitSlot s.awaiting b limit s.cur.await.isNone) := by
  refine (guarded_on hg _ _ _).trans <| (finish_bind (clean_ok ha)).trans ?_
  unfold State.awaiting
  cases h0 : s.cur.await with
  | none => exact finish_bind (commit_ready (hc h0))
  | some n => rfl

end

section
variable {u : State} {b : Fin 8} {limit : W64} {first : Bool}

theorem awaitSlot_dead (h : u.alive u.focus = false) : awaitSlot u b limit first = .ok u := by
  simp only [awaitSlot, h, Bool.not_false, if_true, pure_eq]

variable (h : u.alive u.focus = true)
include h

theorem awaitSlot_shadow (hs : u.cur.shadow ≠ none) : awaitSlot u b limit first = .ok (u.awaited b 0 false 0) := by
  simp only [awaitSlot, h, Option.isSome_iff_ne_none.2 hs, Bool.not_true, Bool.false_eq_true, if_false, if_true, pure_eq]

variable (hs : u.cur.shadow = none)
include hs

theorem awaitSlot_timedOut (hp : u.cur.pend = some 1) : awaitSlot u b limit first = .ok (u.awaited b 0 false 1) := by
  simp only [awaitSlot, h, hs, hp, Option.isSome_none, Bool.not_true, Bool.false_eq_true, if_false, beq_self_eq_true, if_true, pure_eq]

variable (hp : u.cur.pend ≠ some 1)
include hp

/-- Without a timeout the slot's state decides. -/
theorem awaitSlot_by_slot : awaitSlot u b limit first = match (u.cur.ys.getD b.val {}).st with
    | .free => pure (u.awaited b 0 false 2)
    | .filled => pure (u.awaited b (u.cur.ys.getD b.val {}).val (u.cur.ys.getD b.val {}).pois 0)
    | .pending =>
      if !first then Stall u
      else
        let t := u.freshId.setCur { u.cur with await := some u.nextId }
        Stall (if limit = 0 then t else t.post limit.toNat .awaitTimeout { actor := t.focus, n := b.val, m := u.nextId }) := by
  simp only [awaitSlot, h, hs, beq_false_of_ne hp, Option.isSome_none, Bool.not_true, Bool.false_eq_true, if_false]

end

-- `end` (R274) -----------------------------------------------------------------------------------------------------

/-- The saved registers after `end`: those that `liveout` names take their values. -/
def savedRegs (a : Actor) : List (W64 × Bool) :=
  a.saved.mapIdx fun k old => if bit a.liveout k then (match a.s.getD k (.val 0 false) with | .val v p => (v, p) | .wait _ => old) else old
/-- The end of an invocation whose commit is over: nothing more is done for an actor that died in it. -/
def State.endedBy (s : State) (saved : List (W64 × Bool)) : State :=
  if s.alive s.focus then (match s.cur.shadow with | some b => s.shadowDone b | none => (s.sampleDone s.focus).invocationOver saved) else s
theorem saveLive_ok (h : ∀ k < 16, bit s.cur.liveout k = true → ∃ v p, s.cur.s.getD k (.val 0 false) = .val v p) :
    saveLive s = .ok (savedRegs s.cur) := by
  refine if_neg ?_
  rw [List.any_eq_true]
  rintro ⟨k, hk, hwait⟩
  rw [Bool.and_eq_true] at hwait
  obtain ⟨v, p, hv⟩ := h k (List.mem_range.1 hk) hwait.1
  simp only [hv, Bool.false_eq_true, and_false] at hwait

section
variable (hg : GuardOn s g) (hl : ∀ k < 16, bit s.cur.liveout k = true → ∃ v p, s.cur.s.getD k (.val 0 false) = .val v p)
include hg hl

theorem exec_end_waits (hc : s.cur.commitReady = false) : exec (.end_ g) s = waits (s.setCur { s.cur with await := some 0 }) := by
  refine (guarded_on hg _ _ _).trans <| (finish_bind (saveLive_ok hl)).trans <|
    finish_bind_error (e := .stall (s.setCur { s.cur with await := some 0 })) ?_
  rw [committing, commit_waits hc]; rfl
theorem exec_end_commits (hc : s.cur.commitReady = true) : exec (.end_ g) s = ran (s.committed.endedBy (savedRegs s.cur)) := by
  refine (guarded_on hg _ _ _).trans <| (finish_bind (saveLive_ok hl)).trans <| (finish_bind (v := s.committed) ?_).trans ?_
  · rw [committing, commit_ready hc]
  · unfold State.endedBy
    cases s.committed.alive s.committed.focus with
    | false => rfl
    | true => cases s.committed.cur.shadow <;> rfl

end

end

end Sys2Proof.Machine

open Sys2Proof Sys2Proof.Machine

/-- Settles O38: an `await` that is past its commit looks at its actor, then at its timeout, then at its slot. -/
theorem invocationsCommit : Obligations.InvocationsCommit := by
  unfold Obligations.InvocationsCommit
  intro g s hg left sent
  refine ⟨fun a b limit ha => ⟨exec_await_waits hg ha, fun u hu hc => ?await⟩, fun hl => ⟨exec_end_waits hg hl, exec_end_commits hg hl⟩, commit_ready⟩
  intro y gives
  have hslot := exec_await_slot (b := b) hg ha hc
  have hu' : s.awaiting = u := hu.symm
  rw [hu'] at hslot
  refine ⟨fun hd => ?dead, fun h hs => ?shadow, fun h hs => ⟨fun hp => ?timedOut, fun hp hy => ?free, fun hp hy => ?filled, fun hp hy h0 => ?again, fun hp hy h0 => ?first⟩⟩
  case dead => rw [hslot, awaitSlot_dead hd]; rfl
  case shadow => rw [hslot, awaitSlot_shadow h hs]; rfl
  case timedOut => rw [hslot, awaitSlot_timedOut h hs hp]; rfl
  case free => rw [hslot, awaitSlot_by_slot h hs hp, hy]; rfl
  case filled => rw [hslot, awaitSlot_by_slot h hs hp, hy]; rfl
  case again =>
    rw [hslot, awaitSlot_by_slot h hs hp, hy, Option.isNone_eq_false_iff.2 (Option.isSome_iff_ne_none.2 h0)]; rfl
  case first =>
    rw [hslot, awaitSlot_by_slot h hs hp, hy, h0]; rfl
end

