-- ==== Sys2Proof/Proofs/LifeInstructions.lean ====
section
/-! PROOFS. Creation, the restart table, ties, ends, kills, masks and names at issue (R275 to R286), and O39. -/

namespace Sys2Proof.Machine

section
variable {s : State} {g : Guard}

-- Creations (R276, R277, R286) -------------------------------------------------------------------------------------

/-- What a creation asks of Astrolabe once its number waits: an operation that a commit waits for, the place of the start messages in the
outbox, and the request. -/
def creationAsked (s : State) (q : SpawnReq) (tok : Nat) (t : State) : State :=
  let a := t.cur.addOut { id := tok, kind := .spawn }
  (t.setCur { a with outbox := a.outbox ++ [.child tok] }).post 0 .spawnAnswer
    { req := { q with by_ := s.focus, job := jobOf (selfName s.cur), file := s.cur.file, cell := s.cur.cell, tok := tok } }
/-- The answer to an instruction that creates, of five words. -/
def creates (s : State) (q : SpawnReq) : Out := ran ((s.pushAsked (creationAsked s q)).retire 5)
/-- Record `k` of the issuer's image is a cohort's (R277). -/
def CohortRecord (s : State) (k : Nat) : Prop := ∃ n sh, ownRecord s k = some (.cohort n sh)
/-- Record `k` of the issuer's image is a child's (R286). -/
def ChildRecord (s : State) (k : Nat) : Prop := ∃ m o i w, ownRecord s k = some (.child m o i w)

theorem State.askSpawn_eq (hs : s.cur.shadow = none) (q : SpawnReq) : s.askSpawn q = (s.pushAsked (creationAsked s q)).retire 5 := by
  rw [State.askSpawn, hs]; rfl
theorem cohortRecord_iff {k : Nat} : (match ownRecord s k with | some (.cohort _ _) => true | _ => false) = true ↔ CohortRecord s k := by
  unfold CohortRecord
  split
  · next n sh h => simp [h]
  · next h => simpa using fun n sh hc => h n sh hc
theorem supRecord_iff {k : Nat} : (match ownRecord s k with | some (.cohort _ _) | some (.child _ _ _ _) => true | _ => false) = true ↔
    CohortRecord s k ∨ ChildRecord s k := by
  unfold CohortRecord ChildRecord
  split
  · next n sh h => simp [h]
  · next m o i w h => simp [h]
  · next h1 h2 => simpa using ⟨fun n sh hc => h1 n sh hc, fun m o i w hc => h2 m o i w hc⟩

theorem ofNat_childNum (c : ChildState) :
    BitVec.ofNat 64 (childNum c) = (match c with | .none => 0 | .running => 1 | .restarting => 2 | .stopped => 3) := by cases c <;> rfl

section
variable {p0 p1 p2 : PWord} {k v : Nat} (hs : s.cur.shadow = none) (hk : param s false p0 = .ok k)
include hs hk

section
variable (hv : param64 s p1 p2 = .ok v)
include hv

theorem exec_spawn_ok (lnk mon : Bool) :
    exec (.spawn p0 p1 p2 lnk mon) s = creates s { kind := .spawn, img := k, arg := BitVec.ofNat 64 v, lnk := lnk, mon := mon } :=
  (finish_bind hk).trans <| (finish_bind hv).trans (congrArg ran (State.askSpawn_eq hs _))
theorem exec_spawnc_ok (hr : CohortRecord s k) : exec (.spawnc p0 p1 p2) s = creates s { kind := .spawnc, crec := k, arg := BitVec.ofNat 64 v } :=
  (finish_bind hk).trans <| (finish_bind hv).trans <| (finish_bind (check_ok _ (cohortRecord_iff.2 hr))).trans
    (congrArg ran (State.askSpawn_eq hs _))
omit hs in
theorem exec_spawnc_illegal (hr : ¬ CohortRecord s k) : exec (.spawnc p0 p1 p2) s = dies s rIllegal :=
  (finish_bind hk).trans <| (finish_bind hv).trans
    (finish_bind_error (check_no _ (Bool.eq_false_iff.2 fun h => hr (cohortRecord_iff.1 h))))

end

-- The restart table (R286) -----------------------------------------------------------------------------------------

variable (hp : (s.image s.cur).policy ≠ 0) (hr : CohortRecord s k ∨ ChildRecord s k)
include hp hr

omit hs in
theorem supRecord_ok : supRecord s p0 = .ok k := by
  rw [supRecord, hk, ok_bind, check_ok _ (bne_iff_ne.2 hp), ok_bind]
  exact bind_of_ok (check_ok _ (supRecord_iff.2 hr))
theorem exec_supStart_ok : exec (.supStart p0) s = creates s { kind := .supStart, crec := k } :=
  (finish_bind (supRecord_ok hk hp hr)).trans (congrArg ran (State.askSpawn_eq hs _))
theorem exec_supStop_ok : exec (.supStop p0) s = match s.ent s.focus k with
    | some e => ran (((s.supRemove s.focus e).pushOutside 0 false).retire 5)
    | none => gave s 5 8 := by
  refine (finish_bind (supRecord_ok hk hp hr)).trans ?_
  rw [hs]
  cases s.ent s.focus k with
  | some e => rfl
  | none => exact ran_pushOutside s 5 8
omit hs in
theorem exec_supqName_ok : exec (.supqName p0) s = gave s 5 (match s.ent s.focus k with | some e => e.name | none => 0) :=
  (finish_bind (supRecord_ok hk hp hr)).trans (ran_pushOutside s 5 _)
omit hs in
theorem exec_supqCount_ok :
    exec (.supqCount p0) s = gave s 5 (BitVec.ofNat 64 (match s.supTab s.focus with | some t => (t.window s.cycle).rcnt | none => 0)) :=
  (finish_bind (supRecord_ok hk hp hr)).trans (ran_pushOutside s 5 _)
omit hs in
theorem exec_supqState_ok : exec (.supqState p0) s = gave s 5 (match s.ent s.focus k with
    | some e => (match e.st with | .none => 0 | .running => 1 | .restarting => 2 | .stopped => 3)
    | none => 0) := by
  refine (finish_bind (supRecord_ok hk hp hr)).trans <| (ran_pushOutside s 5 _).trans (congrArg (gave s 5) ?_)
  cases s.ent s.focus k with
  | none => rfl
  | some e => exact ofNat_childNum e.st

end

-- Ties (R279, R280; logs 34, 41, 111) ------------------------------------------------------------------------------

section
variable {a : Scalar} {n : W64} (hg : GuardOn s g) (ha : Reads s a n false) (hj : jobOf n = jobOf (selfName s.cur))
include hj

omit hj in
theorem exec_tie (mon : Bool) : exec (if mon then .monitor a g else .link a g) s = tieOp mon a g s := by cases mon <;> rfl
omit hj in
theorem exec_untie (mon : Bool) : exec (if mon then .demon a g else .unlink a g) s = untieOp mon a g s := by cases mon <;> rfl
theorem needJob_ok : needJob s n = .ok () := check_ok _ (beq_iff_eq.2 hj)

/-- The peers of the issuing actor's monitors, or of its links. -/
def ownTies (s : State) (mon : Bool) : List ActorName := if mon then s.cur.mons else s.cur.links
/-- Astrolabe's answer to a tie that is asked for. -/
def tieAnswer (s : State) (n : ActorName) (mon : Bool) (tok v : Nat) (t : State) : State :=
  t.post 0 .linkAnswer { actor := s.focus, other := n, n := ofBool mon, m := tok, k := v }
/-- What a tie asks for: of an actor of this module Astrolabe decides; of another module's the own entry stands at once, and a request leaves. -/
def tieAsked (s : State) (n : ActorName) (mon : Bool) (tok : Nat) (t : State) : State :=
  if pkgOf n = t.regs.aid then tieAnswer s n mon tok (t.tie s.focus n mon).1 (t.tie s.focus n mon).2
  else if (ownTies s mon).contains n then tieAnswer s n mon tok 0 t
  else if 16 ≤ (ownTies s mon).length then tieAnswer s n mon tok 1 t
  else
    let c : Actor := { t.cur with asks := t.cur.asks ++ [(tok, n, mon)] }
    (t.setCur (if mon then { c with mons := ownTies s mon ++ [n] } else { c with links := ownTies s mon ++ [n] })).tieMsg s.focus n mon 0 tok 0
/-- The end of a tie at this module, and its end at the other's (log 34). -/
def State.untied (s : State) (n : ActorName) (mon : Bool) : State :=
  if pkgOf n = s.regs.aid ∨ s.peerDead (pkgOf n) = true then s.untie s.focus n mon else (s.untie s.focus n mon).tieMsg s.focus n mon 2 0 0

include hg ha

theorem exec_tie_self (mon : Bool) (hn : n = selfName s.cur) : tieOp mon a g s = gave s 1 0 :=
  (guarded_on hg _ _ _).trans <| (finish_bind (clean_ok ha)).trans <| (finish_bind (needJob_ok hj)).trans <|
    (congrArg (finish s) (if_pos hn)).trans (ran_pushOutside s 1 0)
theorem exec_tie_lost (mon : Bool) (hn : n ≠ selfName s.cur) (hp : s.peerDead (pkgOf n) = true) : tieOp mon a g s = gave s 1 3 :=
  (guarded_on hg _ _ _).trans <| (finish_bind (clean_ok ha)).trans <| (finish_bind (needJob_ok hj)).trans <|
    (congrArg (finish s) ((if_neg hn).trans (if_pos hp))).trans (ran_pushOutside s 1 3)
theorem exec_tie_asks (mon : Bool) (hn : n ≠ selfName s.cur) (hp : s.peerDead (pkgOf n) = false) :
    tieOp mon a g s = ran ((s.pushAsked (tieAsked s n mon)).retire 1) :=
  (guarded_on hg _ _ _).trans <| (finish_bind (clean_ok ha)).trans <| (finish_bind (needJob_ok hj)).trans <|
    congrArg (finish s) ((if_neg hn).trans (if_neg (ne_true_of_eq_false hp)))
theorem exec_untie_absent (mon : Bool) (hn : n ∉ ownTies s mon) : untieOp mon a g s = gave s 1 1 := by
  have hc : (ownTies s mon).contains n = false := by simpa using hn
  refine (guarded_on hg _ _ _).trans <| (finish_bind (clean_ok ha)).trans <| (finish_bind (needJob_ok hj)).trans ?_
  dsimp only
  rw [show (if mon = true then s.cur.mons else s.cur.links) = ownTies s mon from rfl, hc]
  exact ran_pushOutside s 1 1
theorem exec_untie_present (hs : s.cur.shadow = none) (mon : Bool) (hn : n ∈ ownTies s mon) :
    untieOp mon a g s = ran (((s.untied n mon).pushOutside 0 false).retire 1) := by
  have hc : (ownTies s mon).contains n = true := by simpa using hn
  refine (guarded_on hg _ _ _).trans <| (finish_bind (clean_ok ha)).trans <| (finish_bind (needJob_ok hj)).trans ?_
  dsimp only
  rw [show (if mon = true then s.cur.mons else s.cur.links) = ownTies s mon from rfl, hc, hs]
  simp only [Option.isNone_none, Bool.and_self, if_true, Bool.or_eq_true, decide_eq_true_eq]
  rfl

-- Ends and kills (R281, R282) --------------------------------------------------------------------------------------

section
variable {b : Scalar} {r : W64} (hb : Reads s b r false)
include hb

theorem exec_exit_signals (hn : n ≠ selfName s.cur) (hfits : ovfFits { s.cur with outbox := s.cur.outbox ++ [.sig n (r.setWidth 8)] } = true) :
    exec (.exit a b g) s = ran ((s.spillOut { s.cur with outbox := s.cur.outbox ++ [.sig n (r.setWidth 8)] }).retire 1) :=
  (guarded_on hg _ _ _).trans <| (finish_bind (cleanOperands_pair ha hb)).trans <| (finish_bind (needJob_ok hj)).trans <|
    (congrArg (finish s) (if_pos (bne_iff_ne.2 hn))).trans (finish_bind (needOutbox_ok hfits))
theorem exec_exit_self (hn : n = selfName s.cur) : exec (.exit a b g) s = finish s (if r.setWidth 8 = rNormal then
      commit s >>= fun u => if !u.alive u.focus then pure u else match u.cur.shadow with
        | some k => pure (u.shadowDone k)
        | none => pure (killActor (u.sampleDone u.focus) (u.sampleDone u.focus).focus rNormal)
    else Kill (r.setWidth 8)) :=
  (guarded_on hg _ _ _).trans <| (finish_bind (cleanOperands_pair ha hb)).trans <| (finish_bind (needJob_ok hj)).trans
    (congrArg (finish s) (if_neg (by simp [hn])))
theorem exec_exit_dies (hn : n = selfName s.cur) (hr : r.setWidth 8 ≠ rNormal) : exec (.exit a b g) s = dies s (r.setWidth 8) :=
  (exec_exit_self hg ha hj hb hn).trans (congrArg (finish s) (if_neg hr))
/-- An `exit` with reason NORMAL commits before it ends its actor (R281). -/
theorem exec_exit_commits (hn : n = selfName s.cur) (hr : r.setWidth 8 = rNormal) (hc : s.cur.commitReady = true) :
    exec (.exit a b g) s = ran (if s.committed.alive s.committed.focus then (match s.committed.cur.shadow with
      | some k => s.committed.shadowDone k
      | none => killActor (s.committed.sampleDone s.committed.focus) (s.committed.sampleDone s.committed.focus).focus rNormal)
      else s.committed) := by
  refine (exec_exit_self hg ha hj hb hn).trans <| (congrArg (finish s) (if_pos hr)).trans <| (finish_bind (commit_ready hc)).trans ?_
  cases s.committed.alive s.committed.focus with
  | false => rfl
  | true => cases s.committed.cur.shadow <;> rfl

end

theorem exec_kill_self (hn : n = selfName s.cur) : exec (.kill a .act g) s = dies s rKilled :=
  (guarded_on hg _ _ _).trans <| (finish_bind (clean_ok ha)).trans <| (finish_bind (needJob_ok hj)).trans
    (congrArg (finish s) (if_pos (by simp [hn])))
theorem exec_kill_waits {lv : KillLevel} (hn : ¬ (lv = .act ∧ n = selfName s.cur))
    (hfits : ovfFits { s.cur with outbox := s.cur.outbox ++ [.kill n lv] } = true) :
    exec (.kill a lv g) s = ran ((s.spillOut { s.cur with outbox := s.cur.outbox ++ [.kill n lv] }).retire 1) :=
  (guarded_on hg _ _ _).trans <| (finish_bind (clean_ok ha)).trans <| (finish_bind (needJob_ok hj)).trans <|
    (congrArg (finish s) (if_neg (by simpa using hn))).trans (finish_bind (needOutbox_ok hfits))

end

-- Masks, priority and names (R279, R284, R285) ---------------------------------------------------------------------

section
variable {a b : Scalar} {v w : W64} (hg : GuardOn s g) (ha : Reads s a v false)
include hg ha

theorem exec_trapx_ok : exec (.trapx a g) s = ran ((s.setCur { s.cur with xmask := v.toNat % 16 }).result 1 (BitVec.ofNat 64 s.cur.xmask) false) :=
  (guarded_on hg _ _ _).trans (finish_bind (clean_ok ha))
theorem exec_chmask_ok :
    exec (.chmask a g) s = ran ((s.setCur { s.cur with chmask := v.toNat % 65536 }).result 1 (BitVec.ofNat 64 s.cur.chmask) false) :=
  (guarded_on hg _ _ _).trans (finish_bind (clean_ok ha))
theorem exec_prio_ok (h : v.toNat ≤ 7) : exec (.prio a g) s =
    ran ((s.setCur { s.cur with bprio := s.underCeiling (selfName s.cur) v.toNat }).result 1 (BitVec.ofNat 64 s.cur.bprio) false) :=
  (guarded_on hg _ _ _).trans <| (finish_bind (clean_ok ha)).trans (finish_bind (check_ok _ (decide_eq_true h)))
theorem exec_prio_illegal (h : 7 < v.toNat) : exec (.prio a g) s = dies s rIllegal :=
  (guarded_on hg _ _ _).trans <| (finish_bind (clean_ok ha)).trans (finish_bind_error (check_no _ (decide_eq_false (Nat.not_le.2 h))))
theorem exec_lookup_ok : exec (.lookup a g) s = gave s 1 (match s.job (jobOf (selfName s.cur)) with
    | some x => (match x.reg.find? fun e => e.1 == v with | some e => s.nameNow (jobOf (selfName s.cur)) e.2 | none => 0)
    | none => 0) :=
  (guarded_on hg _ _ _).trans <| (finish_bind (clean_ok ha)).trans (ran_pushOutside s 1 _)
theorem exec_reg_ok (hb : Reads s b w false) (hs : s.cur.shadow = none) : let q := s.register (jobOf (selfName s.cur)) (serialOf (selfName s.cur)) v w
    exec (.reg a b g) s = ran (((s.modJob (jobOf (selfName s.cur)) fun x => { x with reg := q.2 }).pushOutside (BitVec.ofNat 64 q.1) false).retire 1) := by
  refine (guarded_on hg _ _ _).trans <| (finish_bind (cleanOperands_pair ha hb)).trans ?_
  rw [hs]
  rfl

end

end

end Sys2Proof.Machine

open Sys2Proof Sys2Proof.Machine

/-- Settles O39: each form by the equation for each way that it can go. A tie with another module's actor is entered at issue and asked of it
in the model's own form (logs 34, 111), and a lost module is answered 3 before the own table is looked at, unlike the order of log 41. -/
theorem lifeResults : Obligations.LifeResults := by
  unfold Obligations.LifeResults
  intro s hs self asks creates
  refine ⟨fun p0 p1 p2 lnk mon k v hk hv => ⟨exec_spawn_ok hs hk hv lnk mon, exec_spawnc_ok hs hk hv, exec_spawnc_illegal hk hv⟩,
    fun p0 k hk hp hr => ⟨exec_supStart_ok hs hk hp hr, exec_supStop_ok hs hk hp hr, exec_supqName_ok hk hp hr, exec_supqCount_ok hk hp hr,
      exec_supqState_ok hk hp hr⟩, fun a g n hg ha hj => ?ties, fun a b g v w hg ha hb => ?names⟩
  case ties =>
    refine ⟨fun hn => ⟨exec_tie_self hg ha hj false hn, exec_tie_self hg ha hj true hn⟩,
      fun hn hp => ⟨exec_tie_lost hg ha hj false hn hp, exec_tie_lost hg ha hj true hn hp⟩,
      fun hn hp mon => (exec_tie mon).trans (exec_tie_asks hg ha hj mon hn hp),
      fun mon hn => (exec_untie mon).trans (exec_untie_absent hg ha hj mon hn),
      fun mon hn => (exec_untie mon).trans (exec_untie_present hg ha hj hs mon hn), fun b r hb => ?exit, fun lv => ⟨?killSelf, exec_kill_waits hg ha hj⟩⟩
    case exit =>
      refine ⟨exec_exit_signals hg ha hj hb, exec_exit_dies hg ha hj hb, fun hn hr hc => ?_⟩
      rw [exec_exit_commits hg ha hj hb hn hr hc, State.committed, hs]
      rfl
    case killSelf =>
      rintro rfl hn
      exact exec_kill_self hg ha hj hn
  case names =>
    exact ⟨exec_trapx_ok hg ha, exec_chmask_ok hg ha, exec_prio_ok hg ha, exec_prio_illegal hg ha, exec_lookup_ok hg ha, exec_reg_ok hg ha hb hs⟩
end

