-- ==== Sys2Proof/Proofs/DebugInstructions.lean ====
section
/-! PROOFS. The debug instructions at issue (R287 to R290; 21 R405), and O40. -/

namespace Sys2Proof.Machine

section
variable {s : State} {g : Guard} {a b : Scalar} {v w : W64}

-- The target (R287) ------------------------------------------------------------------------------------------------

/-- The issuing actor is attached to a target. -/
def Attached (s : State) : Prop := s.cur.target ≠ 0
/-- The issuing actor's target is stopped and nothing waits for it: what `dstep`, `drd` and `dwr` ask for (R288). -/
def TargetHeld (s : State) : Prop := Attached s ∧ (s.actor s.cur.target).dbg.stop = true ∧ (s.actor s.cur.target).dbg.tok = 0
/-- A name is that of another actor of the issuer's job. -/
def JobMate (s : State) (v : W64) : Prop := v ≠ selfName s.cur ∧ jobOf v = jobOf (selfName s.cur)

theorem target_none (h : ¬ Attached s) : s.target = none := by
  have h0 : s.cur.target = 0 := not_not.1 h
  simp [State.target, h0]
theorem target_some (hs : s.cur.shadow = none) (h : Attached s) : s.target = some (s.actor s.cur.target) := by
  rw [State.target, if_neg (by simpa [hs, Attached] using h)]
/-- A target that is attached but not held is running, or something waits for it. -/
theorem busy_of_not_held (ha : Attached s) (h : ¬ TargetHeld s) :
    (!(s.actor s.cur.target).dbg.stop || (s.actor s.cur.target).dbg.tok != 0) = true := by
  simp only [TargetHeld, ha, true_and, not_and] at h
  cases hs : (s.actor s.cur.target).dbg.stop with
  | false => rfl
  | true => simpa using h hs
theorem idle_of_held (h : TargetHeld s) : (!(s.actor s.cur.target).dbg.stop || (s.actor s.cur.target).dbg.tok != 0) = false := by
  obtain ⟨-, hstop, htok⟩ := h
  simp [hstop, htok]
/-- The two pushes of `drd`: a value, then its status. -/
def State.readOut (s : State) (v : W64) (st : Nat) : State := ((s.pushOutside v false).pushOutside (BitVec.ofNat 64 st) false).retire 1
/-- What `dstep`, `drd` and `dwr` do with a target that is not held, `no`, or with one that is, `yes`. -/
theorem finish_target {no : Res State} {yes : Actor → Res State} (hs : s.cur.shadow = none) :
    (¬ TargetHeld s → finish s (match s.target with | none => no | some t => if !t.dbg.stop || t.dbg.tok != 0 then no else yes t) = finish s no) ∧
    (TargetHeld s → finish s (match s.target with | none => no | some t => if !t.dbg.stop || t.dbg.tok != 0 then no else yes t) =
      finish s (yes (s.actor s.cur.target))) := by
  constructor
  · intro h
    by_cases ha : Attached s
    · rw [target_some hs ha]
      exact congrArg (finish s) (if_pos (busy_of_not_held ha h))
    · rw [target_none ha]
  · intro h
    rw [target_some hs h.1]
    exact congrArg (finish s) (if_neg (ne_true_of_eq_false (idle_of_held h)))

section
variable (hg : GuardOn s g) (ha : Reads s a v false) (hs : s.cur.shadow = none)
include hg ha

-- `dhalt` (R288; 21 R405) ------------------------------------------------------------------------------------------

/-- What an accepted `dhalt` does to its target: one in TRANSIT stops where it is, one inside the commit of its `end` stops after it, any
other stops at once. -/
def haltAsked (v : W64) (ch : Fin 14) (tok : Nat) (u : State) : State :=
  let u := u.setCur { u.cur with target := v }
  let u := u.modActor v fun x => { x with dbg := { x.dbg with dbgn := u.focus, nch := ch.val, tok := tok, stc := 0 } }
  if (u.actor v).st = .transit then u.modActor v fun y => { y with dbg := { y.dbg with stop := true, since := u.cycle } }
  else if (u.actor v).st = .active ∧ (u.actor v).await = some 0 then u
  else u.stopTarget v
include hs in
theorem exec_dhalt_refused {ch : Fin 14} {st : Nat} (hst : s.haltStatus v = st) (h0 : st ≠ 0) : exec (.dhalt a ch g) s = gave s 1 (BitVec.ofNat 64 st) := by
  refine (guarded_on hg _ _ _).trans <| (finish_bind (clean_ok ha)).trans ?_
  rw [hs, hst]
  exact (congrArg (finish s) (if_pos (bne_iff_ne.2 h0))).trans (ran_pushOutside s 1 _)
include hs in
theorem exec_dhalt_asks {ch : Fin 14} (hst : s.haltStatus v = 0) : exec (.dhalt a ch g) s = ran ((s.pushAsked (haltAsked v ch)).retire 1) := by
  refine (guarded_on hg _ _ _).trans <| (finish_bind (clean_ok ha)).trans ?_
  have hask : haltAsked v ch = fun tok u =>
      let u := u.setCur { u.cur with target := v }
      let u := u.modActor v fun x => { x with dbg := { x.dbg with dbgn := u.focus, nch := ch.val, tok := tok, stc := 0 } }
      if (u.actor v).st == .transit then u.modActor v fun y => { y with dbg := { y.dbg with stop := true, since := u.cycle } }
      else if (u.actor v).st == .active && (u.actor v).await == some 0 then u
      else u.stopTarget v := by
    funext tok u
    simp only [haltAsked, beq_iff_eq, Bool.and_eq_true]
  rw [hs, hst, hask]
  rfl
omit hg ha

theorem haltStatus_foreign (h : ¬ JobMate s v) : s.haltStatus v = 1 := by
  refine if_pos ?_
  by_cases hv : v = selfName s.cur
  · simp [hv]
  · simpa using .inr fun hj => h ⟨hv, hj⟩
section
variable (h : JobMate s v)
include h
theorem haltStatus_mate : s.haltStatus v = if s.alive v && (s.actor v).dbg.dbgn != 0 then 2 else if !s.alive v then 3 else if s.cur.target != 0 then 4 else 0 :=
  if_neg (by simp [h.1, h.2])
theorem haltStatus_debugged (hl : s.alive v = true) (hd : (s.actor v).dbg.dbgn ≠ 0) : s.haltStatus v = 2 :=
  (haltStatus_mate h).trans (if_pos (by simpa [hl] using hd))
theorem haltStatus_dead (hl : s.alive v = false) : s.haltStatus v = 3 := by simp [haltStatus_mate h, hl]
theorem haltStatus_attached (hl : s.alive v = true) (hd : (s.actor v).dbg.dbgn = 0) (ht : Attached s) : s.haltStatus v = 4 := by
  rw [haltStatus_mate h, hl, hd]
  exact if_pos (bne_iff_ne.2 ht)
theorem haltStatus_granted (hl : s.alive v = true) (hd : (s.actor v).dbg.dbgn = 0) (ht : ¬ Attached s) : s.haltStatus v = 0 := by
  have ht' : s.cur.target = 0 := not_not.1 ht
  simp [haltStatus_mate h, hl, hd, ht']
end

-- `dstep` and `dres` (R288; log 31) --------------------------------------------------------------------------------

/-- The target runs `n` instructions, and the number under `tok` waits for its stop. -/
def stepAsked (t : ActorName) (n tok : Nat) (u : State) : State :=
  u.modActor t fun x => let x := x.goOn u.cycle; { x with dbg := { x.dbg with tok := tok, stc := n, step := true } }
/-- The state in which the target goes on (R287). -/
def State.resumed (s : State) : State :=
  ((s.pushOutside 0 false).retire 1).modActor (s.actor s.cur.target).name fun x => x.goOn ((s.pushOutside 0 false).retire 1).cycle
include hg ha hs

theorem exec_dstep_unheld (h : ¬ TargetHeld s) : exec (.dstep a 0 g) s = gave s 1 1 :=
  (guarded_on hg _ _ _).trans <| (finish_bind (clean_ok ha)).trans <| ((finish_target hs).1 h).trans (ran_pushOutside s 1 1)
theorem exec_dstep_held (h : TargetHeld s) : exec (.dstep a 0 g) s = ran ((s.freshVal.pushAsked (stepAsked (s.actor s.cur.target).name
    (if 1 ≤ v.toNat ∧ v.toNat ≤ 65535 then v.toNat else 1 + (Config.freeValue s.free).toNat % 65535))).retire 1) :=
  (guarded_on hg _ _ _).trans <| (finish_bind (clean_ok ha)).trans ((finish_target (no := pure ((s.pushOutside 1 false).retire 1)) hs).2 h)
omit hs in
theorem exec_dres_unattached (h : ¬ Attached s) : exec (.dres a g) s = gave s 1 1 := by
  refine (guarded_on hg _ _ _).trans <| (finish_bind (clean_ok ha)).trans ?_
  rw [target_none h]
  exact ran_pushOutside s 1 1
theorem exec_dres_stays (h : Attached s) (hv : v.getLsbD 0 = false) : exec (.dres a g) s = ran s.resumed := by
  refine (guarded_on hg _ _ _).trans <| (finish_bind (clean_ok ha)).trans ?_
  rw [target_some hs h]
  exact congrArg (finish s) (if_neg (by rw [bit_eq_testBit]; exact ne_true_of_eq_false hv))
theorem exec_dres_detaches (h : Attached s) (hv : v.getLsbD 0 = true) (htok : (s.actor s.cur.target).dbg.tok = 0) : exec (.dres a g) s =
    (let u := s.resumed.modActor (s.actor s.cur.target).name fun x => { x with dbg := {} }
     ran (u.setCur { u.cur with target := 0 })) := by
  refine (guarded_on hg _ _ _).trans <| (finish_bind (clean_ok ha)).trans ?_
  rw [target_some hs h]
  refine (congrArg (finish s) (if_pos (by rw [bit_eq_testBit]; exact hv))).trans ?_
  simp only [htok, if_true]
  rfl

-- Context addresses (R289; logs 55, 56) ----------------------------------------------------------------------------

theorem exec_drd_unheld (h : ¬ TargetHeld s) : exec (.drd a g) s = ran (s.readOut 0 1) :=
  (guarded_on hg _ _ _).trans <| (finish_bind (clean_ok ha)).trans ((finish_target hs).1 h)
theorem exec_drd_held (h : TargetHeld s) : exec (.drd a g) s =
    ran (match contextAt s (s.actor s.cur.target) (Config.freeValue s.free) v.toNat with
      | none => s.readOut 0 3
      | some c => s.freshVal.readOut (BitVec.ofNat 64 c) 0) := by
  refine (guarded_on hg _ _ _).trans <| (finish_bind (clean_ok ha)).trans <| ((finish_target (no := pure (s.readOut 0 1)) hs).2 h).trans ?_
  cases contextAt s (s.actor s.cur.target) (Config.freeValue s.free) v.toNat <;> rfl

section
variable (hb : Reads s b w false)
include hb

/-- The state in which a write to the target takes place: an audited invocation that it reaches is no longer sampled (21 R397). -/
def State.unsampled (s : State) (t : Actor) : State :=
  match t.audit with | some k => s.post 0 .shadowAbandon { n := k, actor := t.name, m := t.invNo } | none => s
theorem exec_dwr_unheld (h : ¬ TargetHeld s) : exec (.dwr a b g) s = gave s 1 1 :=
  (guarded_on hg _ _ _).trans <| (finish_bind (cleanOperands_pair ha hb)).trans <| ((finish_target hs).1 h).trans (ran_pushOutside s 1 1)
/-- A `dwr` to a held target: an address of its region, one of its context, or neither. -/
theorem exec_dwr_held (h : TargetHeld s) : exec (.dwr a b g) s = finish s (
    if (contextAt s (s.actor s.cur.target) 0 v.toNat).isNone then pure ((s.pushOutside 3 false).retire 1)
    else if 4194304 ≤ v.toNat then
      pure (((((s.unsampled (s.actor s.cur.target)).put (regionKey (s.actor s.cur.target) + 8 * (v.toNat - 4194304)) (bytesOf 8 w.toNat)).spoisWrite
        (regionKey (s.actor s.cur.target) + 8 * (v.toNat - 4194304)) 8 false).pushOutside 0 false).retire 1)
    else match writeContext s (s.actor s.cur.target) v.toNat w with
      | some q => pure (((((s.unsampled (s.actor s.cur.target)).setActor q).refresh (s.actor s.cur.target).name).pushOutside 0 false).retire 1)
      | none => pure ((s.pushOutside 2 false).retire 1)) :=
  (guarded_on hg _ _ _).trans <| (finish_bind (cleanOperands_pair ha hb)).trans ((finish_target (no := pure ((s.pushOutside 1 false).retire 1)) hs).2 h)

end

-- Breakpoints, watchpoints, tracing (R290) -------------------------------------------------------------------------

omit hg ha hs in
theorem debugSet_unattached (h : ¬ Attached s) (f : Debug → Debug) : ran (debugSet s f) = gave s 3 1 := by
  rw [debugSet, target_none h]
  exact ran_pushOutside s 3 1
omit hg ha in
theorem debugSet_attached (h : Attached s) (f : Debug → Debug) : ran (debugSet s f) =
    ran (((s.modActor (s.actor s.cur.target).name fun x => { x with dbg := f x.dbg }).pushOutside 0 false).retire 3) := by
  rw [debugSet, target_some hs h]
omit hs
theorem exec_dbp_sets (ix : Fin 4) (en : Bool) :
    exec (.dbp a ix en g) s = ran (debugSet s fun d => { d with bp := d.bp.set ix.val (en, v.toNat % 2 ^ 32) }) :=
  (guarded_on hg _ _ _).trans (finish_bind (clean_ok ha))
/-- Watchpoints 0 and 1 watch scratchpad bytes, 2 and 3 a handle. -/
theorem exec_dwp_sets (ix : Fin 4) (en : Bool) (wk : Fin 4) (len : W32) : exec (.dwp a ix en wk len g) s = ran (debugSet s fun d =>
    if ix.val < 2 then { d with swp := d.swp.set ix.val (en, wk.val, len.toNat, v.toNat % 2 ^ 22) }
    else { d with twp := d.twp.set (ix.val - 2) (en, v.toNat % 32) }) :=
  (guarded_on hg _ _ _).trans (finish_bind (clean_ok ha))
theorem exec_dwp_bytes {ix : Fin 4} (en : Bool) (wk : Fin 4) (len : W32) (h : ix.val < 2) : exec (.dwp a ix en wk len g) s =
    ran (debugSet s fun d => { d with swp := d.swp.set ix.val (en, wk.val, len.toNat, v.toNat % 2 ^ 22) }) := by
  rw [exec_dwp_sets hg ha]; simp only [h, if_true]
theorem exec_dwp_handle {ix : Fin 4} (en : Bool) (wk : Fin 4) (len : W32) (h : 2 ≤ ix.val) : exec (.dwp a ix en wk len g) s =
    ran (debugSet s fun d => { d with twp := d.twp.set (ix.val - 2) (en, v.toNat % 32) }) := by
  rw [exec_dwp_sets hg ha]; simp only [Nat.not_lt.2 h, if_false]
theorem exec_dtrc_sets (h : v.toNat < 8) : exec (.dtrc a g) s = ran (debugSet s fun d => { d with trc := v.toNat }) :=
  (guarded_on hg _ _ _).trans <| (finish_bind (clean_ok ha)).trans (finish_bind (check_ok _ (decide_eq_true h)))
theorem exec_dtrc_illegal (h : 8 ≤ v.toNat) : exec (.dtrc a g) s = dies s rIllegal :=
  (guarded_on hg _ _ _).trans <| (finish_bind (clean_ok ha)).trans (finish_bind_error (check_no _ (decide_eq_false (Nat.not_lt.2 h))))

end

end

end Sys2Proof.Machine

open Sys2Proof Sys2Proof.Machine

/-- Settles O40: `dhalt` by the status that refuses it, the others by whether the issuer has a target and holds it. A count of `dstep` outside 1
to 65,535 runs a free count (log 31), a `dtrc` above 7 is ILLEGAL (log 55), and what `drd` reads of a register that is not ready, and what
`dwr` refuses with status 2, is the model's (log 56). -/
theorem debugResults : Obligations.DebugResults := by
  unfold Obligations.DebugResults
  intro a b g s v w hg ha hb hs self t attached held other
  refine ⟨fun ch => ?dhalt, fun h => ⟨exec_dstep_unheld hg ha hs h, exec_drd_unheld hg ha hs h, exec_dwr_unheld hg ha hs hb h⟩, fun h => ?loose,
    fun h => ?attached, fun h => ?held⟩
  case dhalt =>
    exact ⟨fun h => exec_dhalt_refused hg ha hs (haltStatus_foreign h) (by decide),
      fun h hl hd => exec_dhalt_refused hg ha hs (haltStatus_debugged h hl hd) (by decide),
      fun h hl => exec_dhalt_refused hg ha hs (haltStatus_dead h hl) (by decide),
      fun h hl hd ht => exec_dhalt_refused hg ha hs (haltStatus_attached h hl hd ht) (by decide),
      fun h hl hd ht => exec_dhalt_asks hg ha hs (haltStatus_granted h hl hd ht)⟩
  case loose =>
    have hset := debugSet_unattached (s := s) h
    exact ⟨exec_dres_unattached hg ha h, fun ix en => (exec_dbp_sets hg ha ix en).trans (hset _),
      fun ix en wk len => (exec_dwp_sets hg ha ix en wk len).trans (hset _), fun hv => (exec_dtrc_sets hg ha hv).trans (hset _)⟩
  case attached =>
    intro sets
    have hset := debugSet_attached hs h
    exact ⟨fun ix en => (exec_dbp_sets hg ha ix en).trans (hset _),
      fun ix en wk len => ⟨fun hix => (exec_dwp_bytes hg ha en wk len hix).trans (hset _), fun hix => (exec_dwp_handle hg ha en wk len hix).trans (hset _)⟩,
      fun hv => (exec_dtrc_sets hg ha hv).trans (hset _), exec_dtrc_illegal hg ha, exec_dres_stays hg ha hs h, exec_dres_detaches hg ha hs h⟩
  case held =>
    intro runs
    have hstep := exec_dstep_held hg ha hs h
    have hread := exec_drd_held hg ha hs h
    have hwrite := exec_dwr_held hg ha hs hb h
    refine ⟨fun h1 h2 => ?counted, fun hn => ?freeCount, fun c hc => ?read, fun hc => ?unassigned, fun hc => ?noWrite, fun c hc => ?write⟩
    case counted => rw [hstep, if_pos ⟨h1, h2⟩]; rfl
    case freeCount => rw [hstep, if_neg hn]; rfl
    case read => rw [hread, hc]; rfl
    case unassigned => rw [hread, hc]; rfl
    case noWrite => exact hwrite.trans <| (congrArg (finish s) (if_pos (by rw [hc]; rfl))).trans (ran_pushOutside s 1 3)
    case write =>
      intro u
      rw [hc] at hwrite
      refine ⟨fun hv => ?region, fun hv q hq => ?context, fun hv hq => ?refused⟩
      case region => exact hwrite.trans (congrArg (finish s) (if_pos hv))
      case context =>
        rw [hq] at hwrite
        exact hwrite.trans (congrArg (finish s) (if_neg (Nat.not_le.2 hv)))
      case refused =>
        rw [hq] at hwrite
        exact hwrite.trans <| (congrArg (finish s) (if_neg (Nat.not_le.2 hv))).trans (ran_pushOutside s 1 2)
end

