-- ==== Sys2Proof/Proofs/MessageDelivery.lean ====
section
/-! PROOFS. A message at its receiver (R261, R269; 14 R314 to R316; 16 R347): stale, held, early, a duplicate, or delivered in its order, one
equation for each way that it can go. -/

namespace Sys2Proof.Machine

-- What records, relays and transfers leave of the actors -----------------------------------------------------------

@[simp] theorem State.trace_actors (s : State) (kind : Nat) (a : Actor) (oth : ActorName) (seq chan rsn : Nat) :
    (s.trace kind a oth seq chan rsn).actors = s.actors := by
  obtain ⟨_, _, h, -⟩ := s.trace_eq kind a oth seq chan rsn; rw [h]
@[simp] theorem State.trace_agenda (s : State) (kind : Nat) (a : Actor) (oth : ActorName) (seq chan rsn : Nat) :
    (s.trace kind a oth seq chan rsn).agenda = s.agenda := by
  obtain ⟨_, _, h, -⟩ := s.trace_eq kind a oth seq chan rsn; rw [h]
@[simp] theorem State.endXfers_actors (s : State) (ids : List Nat) : (s.endXfers ids).actors = s.actors := by
  obtain ⟨_, h⟩ := s.endXfers_eq ids; rw [h]
theorem State.actor_of_actors_eq {s t : State} (h : t.actors = s.actors) (n : ActorName) : t.actor n = s.actor n := by
  rw [State.actor, h]; rfl
theorem State.has_of_actors_eq {s t : State} (h : t.actors = s.actors) (n : ActorName) : t.has n = s.has n := by
  rw [State.has, h]; rfl

-- Pair tables (14 R315, R316) --------------------------------------------------------------------------------------

/-- The pair of a message at its receiver. -/
def State.pairFor (s : State) (g : EvArg) : Pair := pairOf (s.actor g.msg.dest) g.msg.sender
/-- How far a message is ahead of the number that its receiver expects, modulo 2^16. -/
def State.ahead (s : State) (g : EvArg) : Nat := (g.msg.seq + 2 ^ 16 - (s.pairFor g).exp) % 2 ^ 16
/-- The receiver of a message once its pair expects the next. -/
def State.metBy (s : State) (g : EvArg) : Actor := (s.actor g.msg.dest).setPair { s.pairFor g with exp := ((s.pairFor g).exp + 1) % 2 ^ 16 }
/-- The receiver of an early message, which it holds for its order. -/
def State.earlyBy (s : State) (g : EvArg) : Actor :=
  (s.actor g.msg.dest).setPair { s.pairFor g with held := ((s.pairFor g).held.filter fun x => x.msg.seq != g.msg.seq) ++ [g] }
theorem Actor.setPair_eq (a : Actor) (x : Pair) : ∃ ps, a.setPair x = { a with pairs := ps } := by
  unfold Actor.setPair; split <;> exact ⟨_, rfl⟩
theorem State.metBy_eq (s : State) (g : EvArg) : ∃ ps, s.metBy g = { s.actor g.msg.dest with pairs := ps } := Actor.setPair_eq _ _
theorem State.actor_setActor_metBy {s : State} {g : EvArg} (h : (s.actor g.msg.dest).name = g.msg.dest) :
    (s.setActor (s.metBy g)).actor g.msg.dest = s.metBy g := by
  obtain ⟨ps, hm⟩ := s.metBy_eq g
  exact State.actor_setActor_of_name s (by rw [hm]; exact h)

-- Stale messages (R269; 14 R315) -----------------------------------------------------------------------------------

/-- The sender of a message that found no receiver: one more counted, and the pair removed. -/
theorem State.dropped_actor_sender {s : State} {g : EvArg} (h : s.has g.msg.sender = true) : (s.dropped g).actor g.msg.sender =
    { ({ s.actor g.msg.sender with drops := (s.actor g.msg.sender).drops + 1 } : Actor).dropPair g.msg.dest with name := g.msg.sender } := by
  have hacts : ((s.clearRelay g.k).endXfers g.xids).actors = s.actors := by simp
  have hact := State.actor_modActor (s := (s.clearRelay g.k).endXfers g.xids)
    (fun a => ({ a with drops := a.drops + 1 } : Actor).dropPair g.msg.dest) ((State.has_of_actors_eq hacts _).trans h)
  rw [State.actor_of_actors_eq hacts] at hact
  refine Eq.trans (State.actor_of_actors_eq ?_ _) hact
  unfold State.dropped
  dsimp only
  split
  · rw [State.trace_actors]
  · rfl
theorem State.stale_not_bounced {s : State} {g : EvArg} (h : g.msg.bounce = false) : s.stale g = s.dropped g := by
  simp only [State.stale, h, Bool.false_and, Bool.false_eq_true, if_false]

-- Arrival (R316) ---------------------------------------------------------------------------------------------------

section
variable {s : State} {g : EvArg}

theorem State.arrive_portal (hp : g.msg.dest = s.service 2) (he : g.msg.exit = false) :
    s.arrive g = s.post 0 .hostQueueWrite { n := g.msg.chan.val % 4, msg := g.msg } := by
  simp only [State.arrive, hp, he, beq_self_eq_true, Bool.not_false, Bool.and_self, if_true]

/-- The message is not one for a host queue: it is for an actor, or an exit signal. -/
def ForActor (s : State) (g : EvArg) : Prop := g.msg.dest ≠ s.service 2 ∨ g.msg.exit = true
variable (hp : ForActor s g)
include hp

theorem not_portal : (g.msg.dest == s.service 2 && !g.msg.exit) = false := by
  rcases hp with h | h
  · rw [beq_false_of_ne h, Bool.false_and]
  · rw [h, Bool.not_true, Bool.and_false]
theorem State.arrive_stale (ha : s.alive g.msg.dest = false) : s.arrive g = s.stale g := by
  simp only [State.arrive, not_portal hp, ha, Bool.false_eq_true, if_false, Bool.not_false, if_true]

variable (ha : s.alive g.msg.dest = true)
include ha

theorem State.arrive_transit (ht : (s.actor g.msg.dest).st = .transit) : s.arrive g = { s with held := s.held ++ [⟨g.msg.dest, msgEvent g⟩] } := by
  simp only [State.arrive, not_portal hp, ha, ht, beq_self_eq_true, Bool.not_true, Bool.false_eq_true, if_false, if_true]

variable (ht : (s.actor g.msg.dest).st ≠ .transit) (hnats : g.nats = [])
include ht hnats

/-- A live receiver that is not in TRANSIT takes a message by its distance from the number that it expects. -/
theorem State.arrive_by_distance : s.arrive g =
    if s.ahead g = 0 then
      (if (s.accept (s.metBy g) g).2 then (s.accept (s.metBy g) g).1.follow g.msg.dest g.msg.sender (s.pairFor g).held.length else (s.accept (s.metBy g) g).1)
    else if s.ahead g < 32768 then
      (if !ovfFits (s.earlyBy g) then (killActor s g.msg.dest rOverflow).endXfers g.xids
       else match s.gapFor (s.earlyBy g) with
        | some vp => s.holdFor g.msg.dest vp (msgEvent g)
        | none => s.setActor (s.earlyBy g))
    else s.trace 5 (s.actor g.msg.dest) g.msg.sender g.msg.seq g.msg.chan.val 0 := by
  have hany : ((s.downsComing g.msg.dest).any fun d => g.nats.contains d.toNat) = false := by simp [hnats]
  simp only [State.arrive, not_portal hp, ha, beq_false_of_ne ht, hany, Bool.not_true, Bool.false_eq_true, if_false]
  rfl
theorem State.arrive_duplicate (hd : 32768 ≤ s.ahead g) : (s.arrive g).actors = s.actors := by
  rw [State.arrive_by_distance hp ha ht hnats, if_neg (by omega), if_neg (by omega), State.trace_actors]

section
variable (h0 : 0 < s.ahead g) (hd : s.ahead g < 32768)
include h0 hd

theorem State.arrive_early_full (hf : ovfFits (s.earlyBy g) = false) : s.arrive g = (killActor s g.msg.dest rOverflow).endXfers g.xids := by
  rw [State.arrive_by_distance hp ha ht hnats, if_neg (by omega), if_pos hd, if_pos (by rw [hf]; rfl)]
variable (hf : ovfFits (s.earlyBy g) = true)
include hf
theorem State.arrive_early_fits : s.arrive g =
    match s.gapFor (s.earlyBy g) with
    | some vp => s.holdFor g.msg.dest vp (msgEvent g)
    | none => s.setActor (s.earlyBy g) := by
  rw [State.arrive_by_distance hp ha ht hnats, if_neg (by omega), if_pos hd, if_neg (by rw [hf]; simp)]
theorem State.arrive_early_held (hgap : s.gapFor (s.earlyBy g) = none) : s.arrive g = s.setActor (s.earlyBy g) := by
  rw [State.arrive_early_fits hp ha ht hnats h0 hd hf, hgap]
theorem State.arrive_early_waits {vp : Nat} (hgap : s.gapFor (s.earlyBy g) = some vp) : s.arrive g = s.holdFor g.msg.dest vp (msgEvent g) := by
  rw [State.arrive_early_fits hp ha ht hnats h0 hd hf, hgap]

end

/-- A message whose turn it is and that its receiver has room for is delivered; nothing held follows it. -/
theorem State.arrive_next (h0 : s.ahead g = 0) (hh : (s.pairFor g).held = []) (hf : ovfFits ((s.metBy g).taken g) = true)
    (hgap : s.gapFor ((s.metBy g).taken g) = none) : s.arrive g = (s.setActor (s.metBy g)).deliver g := by
  have hacc : s.accept (s.metBy g) g = ((s.setActor (s.metBy g)).deliver g, true) := by
    simp only [State.accept, hf, hgap, Bool.not_true, Bool.false_eq_true, if_false]
  rw [State.arrive_by_distance hp ha ht hnats, if_pos h0, hacc, if_pos rfl, hh]
  rfl

end

-- Delivery (05 R128; 16 R347) --------------------------------------------------------------------------------------

section
variable {s : State} {g : EvArg} {t : Actor}

theorem Actor.taken_of_not_mailable (h : mailable t g = false) : t.taken g = t := by simp only [Actor.taken, h, Bool.false_eq_true, if_false]
theorem Actor.taken_of_mailable (h : mailable t g = true) : t.taken g = t.mailed g := by simp only [Actor.taken, h, if_true]
theorem not_mailable_reply (h : g.msg.rep = true) : mailable t g = false := by simp only [mailable, h, Bool.not_true, Bool.false_and]
theorem not_mailable_signal (he : g.msg.exit = true) (hb : g.msg.bounce = false) (hx : bit t.xmask (groupOf ((g.msg.m.getD 1 0).setWidth 8)) = false) :
    mailable t g = false := by
  simp only [mailable, he, hb, hx, Bool.not_true, Bool.or_self, Bool.and_false, Bool.false_and]

section
variable (hc : g.msg.caps = [])
include hc

theorem noPlace_of_no_tiles : noPlace t g = false := by simp only [noPlace, hc, List.mapIdx_nil, List.any_nil, Bool.and_false]
theorem landing_of_no_tiles : landing g = [] := by
  unfold landing
  split
  · rw [hc]; rfl
  · rfl
theorem mailable_plain (hr : g.msg.rep = false) (he : g.msg.exit = false) : mailable t g = true := by
  simp only [mailable, hr, he, noPlace_of_no_tiles hc, Bool.not_false, Bool.true_or, Bool.and_self]
theorem Actor.mailed_of_no_tiles (hk : g.k = 0) :
    t.mailed g = { t with mbox := t.mbox ++ [{ msg := g.msg, arr := t.nmail }], nmail := t.nmail + 1 } := by
  simp only [Actor.mailed, landing_of_no_tiles hc, List.filter_nil, List.map_nil, hk]
theorem State.mail_of_no_tiles : s.mail t g = (((s.setActor (t.mailed g)).trace 4 t g.msg.sender g.msg.seq g.msg.chan.val 0).refresh t.name) := by
  simp only [State.mail, noPlace_of_no_tiles hc, landing_of_no_tiles hc, Bool.false_eq_true, if_false, List.filter_nil, List.foldl_nil]

end

/-- An actor that becomes READY keeps its pair table. -/
theorem State.pairs_refresh (s : State) (n : ActorName) : ((s.refresh n).actor n).pairs = (s.actor n).pairs := by
  unfold State.refresh
  dsimp only
  split
  · rw [State.actor_setActor_of_name s rfl]
  · rfl
theorem State.deliver_reply (hr : g.msg.rep = true) (he : g.msg.exit = false) (hd : g.msg.down = false) : s.deliver g = s.post 0 .replyArrival g := by
  simp only [State.deliver, hr, he, hd, if_true, Bool.false_or, Bool.false_and, Bool.false_eq_true, if_false]
theorem State.deliver_mail (hr : g.msg.rep = false) (he : g.msg.exit = false) (hd : g.msg.down = false) : s.deliver g = s.mail (s.actor g.msg.dest) g := by
  simp only [State.deliver, hr, he, hd, Bool.false_or, Bool.false_and, Bool.false_eq_true, if_false]
/-- An exit signal that its receiver's mask lets through, of reason NORMAL or not; the pair of a sender that lives no more goes. -/
theorem State.deliver_signal (hr : g.msg.rep = false) (he : g.msg.exit = true) (hb : g.msg.bounce = false)
    (hx : bit (s.actor g.msg.dest).xmask (groupOf ((g.msg.m.getD 1 0).setWidth 8)) = false) :
    let u := if groupOf ((g.msg.m.getD 1 0).setWidth 8) = 0 then s else killActor s (s.actor g.msg.dest).name rLinked
    s.deliver g = if u.alive g.msg.sender then u else u.modActor (s.actor g.msg.dest).name fun a => a.dropPair g.msg.sender := by
  simp only [State.deliver, State.signal, hr, he, hb, hx, Bool.false_eq_true, if_false, Bool.not_false, Bool.and_self, if_true, Bool.true_or, Bool.true_and]
  cases State.alive (if groupOf ((g.msg.m.getD 1 0).setWidth 8) = 0 then s else killActor s (s.actor g.msg.dest).name rLinked) g.msg.sender <;> rfl
/-- A removed pair changes nothing else of its actor. -/
theorem State.actor_dropPair_eq (s : State) (n p : ActorName) : ∃ m ps, (s.modActor n fun a => a.dropPair p).actor n = { s.actor n with name := m, pairs := ps } := by
  cases h : s.has n with
  | true => rw [State.actor_modActor _ h]; exact ⟨_, _, rfl⟩
  | false => rw [State.modActor_of_not_has _ h]; exact ⟨_, _, rfl⟩

end

end Sys2Proof.Machine
end

