-- ==== Sys2Proof/Proofs/MessageEvents.lean ====
section
/-! PROOFS. Messages on their way, replies, timeouts, starts and budgets (R261, R269, R271 to R273; 14 R311, R317, R322; 18 R373), and O50. -/

namespace Sys2Proof.Machine

section
variable {s : State}

-- MESSAGE_ARRIVAL and EXIT_SIGNAL (R261, R316; 16 R346; 18 R373) ---------------------------------------------------

theorem exec_messageArrival_station (hf : s.arg.flag = true) : exec .messageArrival s = .next (s.atStation s.arg) := by
  show execMessageArrival s = _
  rw [execMessageArrival, hf]; rfl
theorem State.atStation_lost {g : EvArg} (hp : s.peerDead (pkgOf g.msg.dest) = true) (ha : g.actor = 0) (ht : ∀ bs ∈ g.tiles, bs = []) :
    s.atStation g = s.dropped { g with k := 0 } := by
  have hany : (g.tiles.any fun bs => !bs.isEmpty) = false := List.any_eq_false.2 fun bs hbs => by simp [ht bs hbs]
  simp only [State.atStation, hp, State.peerDrops, ha, hany, bne_self_eq_false, Bool.false_eq_true, if_false, if_true]
theorem State.atStation_enters {g : EvArg} {k : Nat} (hp : s.peerDead (pkgOf g.msg.dest) = false) (hk : s.livePlane g.n = some k) :
    s.atStation g = s.enterStation k { module := some (pkgOf g.msg.dest), rq := g.k, msg := { g with flag := false } } := by
  simp only [State.atStation, hp, hk, Bool.false_eq_true, if_false]
/-- The check of a message has failed (R261). -/
theorem State.checked_failed (h : s.arg.flag2 = true) :
    s.checked s.arg = if pkgOf s.arg.msg.sender = s.regs.aid then s.post 0 .messageResend s.arg else s := by
  simp only [State.checked, h, Bool.not_true, Bool.false_eq_true, if_false, beq_iff_eq]
theorem State.checked_passed (h : s.arg.flag2 = false) : s.checked s.arg = s.arrive s.arg := by
  simp only [State.checked, h, Bool.not_false, if_true]
theorem exec_messageArrival_here (hf : s.arg.flag = false) : exec .messageArrival s = .next (s.checked s.arg) := by
  show execMessageArrival s = _
  rw [execMessageArrival, hf]; rfl
theorem exec_messageArrival_passed (hf : s.arg.flag = false) (h2 : s.arg.flag2 = false) : exec .messageArrival s = .next (s.arrive s.arg) :=
  (exec_messageArrival_here hf).trans (congrArg _ (State.checked_passed h2))
theorem exec_exitSignal_passed (h2 : s.arg.flag2 = false) : exec .exitSignal s = .next (s.arrive s.arg) := congrArg _ (State.checked_passed h2)
theorem messageResend_sends : Happens s .messageResend fun u => u.free = s.free + 1 ∧ u.actors = s.actors ∧ u.mem = s.mem ∧ u.seqs = s.seqs := by
  refine ⟨s.sendOut s.arg, rfl, ?_⟩
  unfold State.sendOut
  dsimp only
  obtain ⟨_, _, _, _, h⟩ := State.travel_eq s.freshVal (entryCell (s.agentOf s.arg.msg.sender)) (s.cellOf s.arg.msg.dest) (s.agentOf s.arg.msg.sender)
    (msgBytes s.arg.msg :: (s.arg.tiles.map tileParts).flatten) (msgEvent { s.arg with flag2 := Config.messageBad s.free })
  rw [h]
  exact ⟨rfl, rfl, rfl, rfl⟩
theorem msgEvent_message {g : EvArg} (h : g.msg.exit = false) : msgEvent g = ⟨.messageArrival, g⟩ := by rw [msgEvent, h]; rfl
/-- A stale message that is not returned leaves its sender with one more drop and without the pair. -/
theorem stale_drops {ev : Instr} (hx : exec ev s = .next (s.arrive s.arg)) (hp : ForActor s s.arg) (ha : s.alive s.arg.msg.dest = false)
    (hb : s.arg.msg.bounce = false) (hs : s.has s.arg.msg.sender = true) : Happens s ev fun u => u.actor s.arg.msg.sender =
      { ({ s.actor s.arg.msg.sender with drops := (s.actor s.arg.msg.sender).drops + 1 } : Actor).dropPair s.arg.msg.dest with name := s.arg.msg.sender } :=
  ⟨_, hx.trans (congrArg _ ((State.arrive_stale hp ha).trans (State.stale_not_bounced hb))), State.dropped_actor_sender hs⟩

/-- The message of `s.arg` is the next that its live receiver expects, which holds none of its sender. -/
structure Next (s : State) : Prop where
  forActor : ForActor s s.arg
  alive : s.alive s.arg.msg.dest = true
  still : (s.actor s.arg.msg.dest).st ≠ .transit
  named : (s.actor s.arg.msg.dest).name = s.arg.msg.dest
  free : s.arg.nats = []
  turn : s.ahead s.arg = 0
  alone : (s.pairFor s.arg).held = []

section
variable (h : Next s)
include h

theorem Next.delivers (hf : ovfFits ((s.metBy s.arg).taken s.arg) = true) (hgap : s.gapFor ((s.metBy s.arg).taken s.arg) = none) :
    s.arrive s.arg = (s.setActor (s.metBy s.arg)).deliver s.arg :=
  State.arrive_next h.forActor h.alive h.still h.free h.turn h.alone hf hgap
theorem Next.met_name : (s.metBy s.arg).name = s.arg.msg.dest := by
  obtain ⟨_, hm⟩ := s.metBy_eq s.arg
  rw [hm]; exact h.named
theorem Next.actor_met : (s.setActor (s.metBy s.arg)).actor s.arg.msg.dest = s.metBy s.arg := State.actor_setActor_metBy h.named
/-- A reply is passed on to its slot. -/
theorem Next.reply (hr : s.arg.msg.rep = true) (he : s.arg.msg.exit = false) (hd : s.arg.msg.down = false)
    (hf : ovfFits (s.metBy s.arg) = true) (hgap : s.gapFor (s.metBy s.arg) = none) :
    s.arrive s.arg = (s.setActor (s.metBy s.arg)).post 0 .replyArrival s.arg := by
  have htaken := Actor.taken_of_not_mailable (t := s.metBy s.arg) (not_mailable_reply hr)
  rw [h.delivers (by rw [htaken]; exact hf) (by rw [htaken]; exact hgap), State.deliver_reply hr he hd]
/-- A message without tiles joins the mailbox. -/
theorem Next.mail (hr : s.arg.msg.rep = false) (he : s.arg.msg.exit = false) (hd : s.arg.msg.down = false) (hc : s.arg.msg.caps = []) (hk : s.arg.k = 0)
    {got : Actor} (hg : got = { s.metBy s.arg with mbox := (s.actor s.arg.msg.dest).mbox ++ [{ msg := s.arg.msg, arr := (s.actor s.arg.msg.dest).nmail }]
                                                   nmail := (s.actor s.arg.msg.dest).nmail + 1 })
    (hf : ovfFits got = true) (hgap : s.gapFor got = none) :
    ((s.arrive s.arg).actor s.arg.msg.dest).mbox = got.mbox ∧ ((s.arrive s.arg).actor s.arg.msg.dest).pairs = got.pairs := by
  obtain ⟨ps, hm⟩ := s.metBy_eq s.arg
  have htaken : (s.metBy s.arg).taken s.arg = got := by
    rw [Actor.taken_of_mailable (mailable_plain hc hr he), Actor.mailed_of_no_tiles hc hk, hg, hm]
  have hname : got.name = s.arg.msg.dest := by rw [hg]; exact h.met_name
  rw [h.delivers (by rw [htaken]; exact hf) (by rw [htaken]; exact hgap), State.deliver_mail hr he hd, h.actor_met, State.mail_of_no_tiles hc,
    ← Actor.taken_of_mailable (mailable_plain hc hr he), htaken, h.met_name, State.mbox_refresh, State.pairs_refresh,
    State.actor_of_actors_eq (State.trace_actors _ _ _ _ _ _ _), State.actor_setActor_of_name _ hname]
  exact ⟨rfl, rfl⟩
/-- An exit signal that the mask lets through changes nothing but the pair when its reason is NORMAL, and kills otherwise. -/
theorem Next.signal (hk : killable (s.actor s.arg.msg.dest)) (hr : s.arg.msg.rep = false) (he : s.arg.msg.exit = true) (hb : s.arg.msg.bounce = false)
    (hf : ovfFits (s.metBy s.arg) = true) (hgap : s.gapFor (s.metBy s.arg) = none)
    (hx : bit (s.actor s.arg.msg.dest).xmask (groupOf ((s.arg.msg.m.getD 1 0).setWidth 8)) = false) :
    let u := (s.arrive s.arg).actor s.arg.msg.dest
    (groupOf ((s.arg.msg.m.getD 1 0).setWidth 8) = 0 → u.st = (s.actor s.arg.msg.dest).st ∧ u.mbox = (s.actor s.arg.msg.dest).mbox) ∧
      (groupOf ((s.arg.msg.m.getD 1 0).setWidth 8) ≠ 0 → u.st = .dying ∧ u.debt = some rLinked) := by
  obtain ⟨ps, hm⟩ := s.metBy_eq s.arg
  have hxm : bit (s.metBy s.arg).xmask (groupOf ((s.arg.msg.m.getD 1 0).setWidth 8)) = false := by rw [hm]; exact hx
  have htaken := Actor.taken_of_not_mailable (t := s.metBy s.arg) (not_mailable_signal he hb hxm)
  have hact := h.actor_met
  have hkill : killable ((s.setActor (s.metBy s.arg)).actor s.arg.msg.dest) := by rw [hact, hm]; exact hk
  have hdel := State.deliver_signal (s := s.setActor (s.metBy s.arg)) hr he hb (by rw [hact]; exact hxm)
  rw [hact, h.met_name, ← h.delivers (by rw [htaken]; exact hf) (by rw [htaken]; exact hgap)] at hdel
  have hsame : ∀ (v : State) (b : Bool), ∃ m qs,
      (if b then v else v.modActor s.arg.msg.dest fun a => a.dropPair s.arg.msg.sender).actor s.arg.msg.dest = { v.actor s.arg.msg.dest with name := m, pairs := qs } := by
    intro v b
    cases b with
    | true => exact ⟨_, _, rfl⟩
    | false => exact v.actor_dropPair_eq _ _
  obtain ⟨m, qs, hu⟩ := hsame (if groupOf ((s.arg.msg.m.getD 1 0).setWidth 8) = 0 then s.setActor (s.metBy s.arg)
    else killActor (s.setActor (s.metBy s.arg)) s.arg.msg.dest rLinked) _
  intro u
  have hu' : u = _ := (congrArg (fun t => State.actor t s.arg.msg.dest) hdel).trans hu
  refine ⟨fun h0 => ?normal, fun h0 => ?kills⟩
  case normal =>
    rw [hu', if_pos h0, hact, hm]
    exact ⟨rfl, rfl⟩
  case kills =>
    obtain ⟨_, hself⟩ := killActor_self (s.setActor (s.metBy s.arg)) s.arg.msg.dest rLinked hkill
    rw [hu', if_neg h0, hself]
    exact ⟨rfl, rfl⟩

end

-- REPLY_ARRIVAL and AWAIT_TIMEOUT (R271 to R273) -------------------------------------------------------------------

/-- The slot of the reply of `s.arg`. -/
def State.replySlot (s : State) : ReplySlot := (s.actor s.arg.msg.dest).ys.getD s.arg.msg.slot.val {}
/-- The state with that slot replaced. -/
def State.putSlot (s : State) (y : ReplySlot) : State :=
  s.setActor { s.actor s.arg.msg.dest with ys := (s.actor s.arg.msg.dest).ys.set s.arg.msg.slot.val y }
theorem exec_replyArrival_dead (ha : s.alive s.arg.msg.dest = false) : exec .replyArrival s = .next s := by
  show execReplyArrival s = _
  simp only [execReplyArrival, ha, Bool.not_false, if_true]

section
variable (ha : s.alive s.arg.msg.dest = true)
include ha

theorem exec_replyArrival_transit (ht : (s.actor s.arg.msg.dest).st = .transit) :
    exec .replyArrival s = .next { s with held := s.held ++ [⟨s.arg.msg.dest, ⟨.replyArrival, s.arg⟩⟩] } := by
  show execReplyArrival s = _
  simp only [execReplyArrival, ha, ht, Bool.not_true, Bool.false_eq_true, if_false, beq_self_eq_true, if_true]
variable (ht : (s.actor s.arg.msg.dest).st ≠ .transit)
include ht

theorem exec_replyArrival_by_slot : exec .replyArrival s =
    if s.replySlot.gen != s.arg.msg.rgen then .next (s.putSlot { s.replySlot with late := min (s.replySlot.late + 1) 15 })
    else match s.replySlot.st with
      | .free => .next (s.putSlot { s.replySlot with late := min (s.replySlot.late + 1) 15 })
      | .pending => .next (s.putSlot { s.replySlot with val := s.arg.msg.m.getD 0 0, pois := s.arg.msg.pois, st := .filled })
      | .filled => .next (s.refuse s.arg.msg) := by
  show execReplyArrival s = _
  simp only [execReplyArrival, ha, beq_false_of_ne ht, Bool.not_true, Bool.false_eq_true, if_false]
  rfl
theorem exec_replyArrival_late (h : s.replySlot.gen ≠ s.arg.msg.rgen ∨ s.replySlot.st = .free) :
    exec .replyArrival s = .next (s.putSlot { s.replySlot with late := min (s.replySlot.late + 1) 15 }) := by
  rw [exec_replyArrival_by_slot ha ht]
  by_cases hgen : s.replySlot.gen = s.arg.msg.rgen
  · rw [if_neg (by simp [hgen]), h.resolve_left (not_not.2 hgen)]
  · rw [if_pos (bne_iff_ne.2 hgen)]
variable (hgen : s.replySlot.gen = s.arg.msg.rgen)
include hgen
theorem exec_replyArrival_fills (hst : s.replySlot.st = .pending) :
    exec .replyArrival s = .next (s.putSlot { s.replySlot with val := s.arg.msg.m.getD 0 0, pois := s.arg.msg.pois, st := .filled }) := by
  rw [exec_replyArrival_by_slot ha ht, if_neg (by simp [hgen]), hst]
theorem exec_replyArrival_refused (hst : s.replySlot.st = .filled) : exec .replyArrival s = .next (s.refuse s.arg.msg) := by
  rw [exec_replyArrival_by_slot ha ht, if_neg (by simp [hgen]), hst]

end

theorem exec_awaitTimeout_over (h : (s.actor s.arg.actor).await ≠ some s.arg.m ∨ ((s.actor s.arg.actor).ys.getD s.arg.n {}).st ≠ .pending) :
    exec .awaitTimeout s = .next s := by
  show execAwaitTimeout s = _
  have hno : ((s.actor s.arg.actor).await == some s.arg.m && ((s.actor s.arg.actor).ys.getD s.arg.n {}).st == .pending) = false := by
    rcases h with h | h
    · rw [beq_false_of_ne h, Bool.false_and]
    · rw [beq_false_of_ne h, Bool.and_false]
  exact if_neg (ne_true_of_eq_false hno)
theorem exec_awaitTimeout_ends (hw : (s.actor s.arg.actor).await = some s.arg.m) (hst : ((s.actor s.arg.actor).ys.getD s.arg.n {}).st = .pending) :
    exec .awaitTimeout s = .next (s.modActor s.arg.actor fun a =>
      { a with pend := some 1, ys := a.ys.set s.arg.n { (s.actor s.arg.actor).ys.getD s.arg.n {} with st := .free } }) :=
  if_pos (by rw [hw, hst]; simp)

-- HANDLER_START (14 R311, R317; 02 R49, R50) -----------------------------------------------------------------------

theorem exec_handlerStart_idle (h : s.nextMail (s.actor s.arg.actor) = none ∨ (s.actor s.arg.actor).st ≠ .ready) : exec .handlerStart s = .next s := by
  show execHandlerStart s = _
  unfold execHandlerStart
  dsimp only
  split
  · next x hx =>
    rw [if_neg]
    rw [hx] at h
    simpa using h
  · rfl
theorem exec_handlerStart_begins {x : Mail} (hx : s.nextMail (s.actor s.arg.actor) = some x) (hr : (s.actor s.arg.actor).st = .ready) :
    exec .handlerStart s = .next (s.begin_ s.arg.actor x) := by
  show execHandlerStart s = _
  simp only [execHandlerStart, hx, hr, beq_self_eq_true, if_true]
theorem State.has_of_st {n : ActorName} (h : (s.actor n).st ≠ .free) : s.has n = true := by
  unfold State.actor at h
  unfold State.has
  generalize s.actors = l at h
  induction l with
  | nil => exact absurd rfl h
  | cons e l ih =>
    obtain ⟨k, v⟩ := e
    unfold kvGet at h
    by_cases hk : k = n.toNat
    · simp [kvHas, hk]
    · rw [if_neg hk] at h
      have := ih h
      simp only [kvHas, List.any_cons] at this ⊢
      rw [this, Bool.or_true]
theorem State.fillZone_of_no_spill {n : ActorName} {x : Mail} {k : Nat} (h : x.spill = []) : s.fillZone n x k = s := by
  simp only [State.fillZone, h, List.find?_nil]
/-- The handler of a message. -/
def State.handlerOf (s : State) (a : Actor) (x : Mail) : Handler := (s.image a).handlers.getD x.msg.chan.val {}
/-- The actor as its handler starts, but for the handles of the message's tiles. -/
def State.started (s : State) (a : Actor) (x : Mail) : Actor :=
  let hd := s.handlerOf a x
  { a with st := .active, mbox := a.mbox.filter fun y => y.arr != x.arr, msg := x.msg, invNo := a.invNo + 1, eprio := max a.bprio x.msg.cprio.val
           budget := if hd.budget = 0 then 2 ^ 32 else hd.budget, start := s.cycle, paused := 0, retired := 0, liveout := hd.liveout, pc := hd.pc, lc := 0
           ls := List.replicate 8 0, ldep := 0, offer := none, h := List.replicate 16 (.val 0 false), s := (List.range 16).map (entryReg a hd.livein)
           p := List.replicate 8 (false, false), outbox := [], await := none, pend := none, waits := none
           zones := a.zones.mapIdx fun k (z : Zone) => { z with held := x.latch == 0 && travels (x.msg.caps.getD k { glob := true }) } }
/-- The start of a handler that is not audited: its actor, and the end of its budget to come. -/
theorem State.begin_eq_of_no_spill {n : ActorName} {x : Mail} (hn : (s.actor n).name = n) (ha : s.alive n = true) (hx : x.spill = [])
    (haud : (s.handlerOf (s.actor n) x).audit = false) : ∃ b, (s.started (s.actor n) x).TilesMoved b ∧ (s.begin_ n x).actor n = b ∧
      Awaits s (s.begin_ n x) b.budget .budgetExpiry { actor := n, n := b.invNo } := by
  have hfill : ((List.range 4).foldl (fun (t : State) k => if t.alive n then t.fillZone n x k else t) s) = s := by
    have hid : (fun (t : State) (k : Nat) => if t.alive n then t.fillZone n x k else t) = fun t _ => t := by
      funext t k
      rw [State.fillZone_of_no_spill hx, ite_self]
    rw [hid]; rfl
  have hmoved : (s.started (s.actor n) x).TilesMoved
      ([0, 1, 2, 3].foldl (fun (c : Actor) k => c.setTile (28 + k) (boundTile (s.actor n) x k)) (s.started (s.actor n) x)) :=
    .foldl (fun a _ => a.tilesMoved_setTile _ _) _ _
  obtain ⟨b, hb⟩ : ∃ b, b = [0, 1, 2, 3].foldl (fun (c : Actor) k => c.setTile (28 + k) (boundTile (s.actor n) x k)) (s.started (s.actor n) x) := ⟨_, rfl⟩
  rw [← hb] at hmoved
  have hbegin : s.begin_ n x = (((if x.latch != 0 then (s.setActor b).modCell (s.actor n).cell fun e => { e with lbSrc := 0 } else s.setActor b).post
      b.budget .budgetExpiry { actor := n, n := b.invNo }).trace 1 b x.msg.sender x.msg.seq x.msg.chan.val 0) := by
    rw [hb]
    unfold State.begin_
    rw [hfill]
    simp only [ha, Bool.not_true, Bool.false_eq_true, if_false]
    exact if_neg (ne_true_of_eq_false haud)
  have hname : b.name = n := by
    obtain ⟨_, _, _, rfl⟩ := hmoved
    exact hn
  have hcell : ∃ cs, (if x.latch != 0 then (s.setActor b).modCell (s.actor n).cell fun e => { e with lbSrc := 0 } else s.setActor b) =
      { s.setActor b with cells := cs } := by
    split <;> exact ⟨_, rfl⟩
  obtain ⟨cs, hcs⟩ := hcell
  refine ⟨b, hmoved, ?actor, ?awaits⟩
  case actor =>
    rw [hbegin, State.actor_of_actors_eq (State.trace_actors _ _ _ _ _ _ _), hcs]
    exact State.actor_setActor_of_name s hname
  case awaits =>
    rw [hbegin, Awaits, State.trace_agenda, hcs]
    exact List.mem_append_right _ (List.mem_singleton_self _)

-- BUDGET_EXPIRY (14 R322) ------------------------------------------------------------------------------------------

/-- The invocation that the budget of `s.arg` is of still runs. -/
def BudgetRuns (s : State) : Prop := s.has s.arg.actor = true ∧ (s.actor s.arg.actor).st = .active ∧ (s.actor s.arg.actor).invNo = s.arg.n
theorem budgetRuns_iff : (s.has s.arg.actor && (s.actor s.arg.actor).st == .active && (s.actor s.arg.actor).invNo == s.arg.n) = true ↔ BudgetRuns s := by
  simp [BudgetRuns, and_assoc]
theorem exec_budgetExpiry_over (h : ¬ BudgetRuns s) : exec .budgetExpiry s = .next s :=
  if_pos (by rw [Bool.not_eq_true', Bool.eq_false_iff]; exact fun hr => h (budgetRuns_iff.1 hr))
theorem exec_budgetExpiry_runs (h : BudgetRuns s) : exec .budgetExpiry s =
    if (s.actor s.arg.actor).dbg.stop || s.budrem (s.actor s.arg.actor) != 0 then .next (s.post (max 1 (s.budrem (s.actor s.arg.actor))) .budgetExpiry s.arg)
    else .next (killActor s (s.actor s.arg.actor).name rBudget) :=
  if_neg (by rw [budgetRuns_iff.2 h]; simp)
theorem exec_budgetExpiry_again (h : BudgetRuns s) (hw : (s.actor s.arg.actor).dbg.stop = true ∨ s.budrem (s.actor s.arg.actor) ≠ 0) :
    exec .budgetExpiry s = .next (s.post (max 1 (s.budrem (s.actor s.arg.actor))) .budgetExpiry s.arg) :=
  (exec_budgetExpiry_runs h).trans (if_pos (by simpa using hw))
theorem exec_budgetExpiry_expires (h : BudgetRuns s) (hgo : (s.actor s.arg.actor).dbg.stop = false) (hzero : s.budrem (s.actor s.arg.actor) = 0) :
    exec .budgetExpiry s = .next (killActor s (s.actor s.arg.actor).name rBudget) :=
  (exec_budgetExpiry_runs h).trans (if_neg (by simp [hgo, hzero]))

end

end Sys2Proof.Machine

open Sys2Proof Sys2Proof.Machine

/-- Settles O50: each clause is the equation of its event for one way that it can go; a message that is next for its receiver is a reply, mail
without tiles or an exit signal. -/
theorem messageEvents : Obligations.MessageEvents := by
  unfold Obligations.MessageEvents
  intro s g m t p d met n a
  refine ⟨fun hf => ⟨fun hp ha ht => ?lost, fun k hp hk => ?enters⟩, fun hf h2 => ?failed, messageResend_sends, fun hf h2 he => ⟨fun hd => ?portal,
    fun hd ha hb hs => stale_drops (exec_messageArrival_passed hf h2) (.inl hd) ha hb hs, fun hd ha ht => ?moving, fun hd ha ht hn hnats => ?message⟩,
    fun h2 ha he hb hs => stale_drops (exec_exitSignal_passed h2) (.inr he) ha hb hs, ?signal, exec_replyArrival_dead, exec_replyArrival_transit,
    fun ha ht => ⟨exec_replyArrival_late ha ht, exec_replyArrival_fills ha ht, ?refused⟩, ⟨exec_awaitTimeout_over, ?timeout⟩, exec_handlerStart_idle,
    ?starts, fun h => exec_budgetExpiry_over ?gone, fun hh hst hinv => ⟨fun h => ?again, fun h0 h1 hn => ?expires⟩⟩
  case lost => exact (exec_messageArrival_station hf).trans (congrArg _ (State.atStation_lost hp ha ht))
  case enters => exact (exec_messageArrival_station hf).trans (congrArg _ (State.atStation_enters hp hk))
  case failed => exact (exec_messageArrival_here hf).trans (congrArg _ (State.checked_failed h2))
  case portal => exact (exec_messageArrival_passed hf h2).trans (congrArg _ (State.arrive_portal hd he))
  case moving =>
    rw [exec_messageArrival_passed hf h2, State.arrive_transit (.inl hd) ha ht, msgEvent_message he]
  case message =>
    have hx := exec_messageArrival_passed hf h2
    refine ⟨fun hfar => ⟨_, hx, State.arrive_duplicate (.inl hd) ha ht hnats hfar⟩, fun h0 hnear => ?early, fun h0 hh hdown => ?next⟩
    case early =>
      intro b
      refine ⟨fun hfull => hx.trans (congrArg _ (State.arrive_early_full (.inl hd) ha ht hnats h0 hnear hfull)),
        fun hfit hgap => hx.trans (congrArg _ (State.arrive_early_held (.inl hd) ha ht hnats h0 hnear hfit hgap)), fun vp hfit hgap => ?_⟩
      rw [hx, State.arrive_early_waits (.inl hd) ha ht hnats h0 hnear hfit hgap, msgEvent_message he]
    case next =>
      have hnext : Next s := ⟨.inl hd, ha, ht, hn, hnats, h0, hh⟩
      refine ⟨fun hr hfit hgap => ⟨_, hx.trans (congrArg _ (hnext.reply hr he hdown hfit hgap)), ?_, hnext.actor_met, rfl⟩, fun hr hc hk => ?mail⟩
      · exact awaits_post rfl _ _ _
      case mail =>
        intro x got hfit hgap
        exact ⟨_, hx, hnext.mail hr he hdown hc hk rfl hfit hgap⟩
  case signal =>
    intro h2 ha hk hn he hb hr hnats h0 hh hfit hgap r hmask
    have hstill : t.st ≠ .transit := by rcases hk with h | h | h | h <;> rw [h] <;> decide
    have hnext : Next s := ⟨.inr he, ha, hstill, hn, hnats, h0, hh⟩
    obtain ⟨hnormal, hkills⟩ := hnext.signal hk hr he hb hfit hgap hmask
    exact ⟨fun h => ⟨_, exec_exitSignal_passed h2, hnormal h⟩, fun h => ⟨_, exec_exitSignal_passed h2, hkills h⟩⟩
  case refused =>
    intro hgen hst
    rw [exec_replyArrival_refused ha ht hgen hst, State.refuse]
    simp only [beq_iff_eq]
    rfl
  case timeout =>
    intro hh hw hst
    exact ⟨_, exec_awaitTimeout_ends hw hst, State.modActor_mem s _ _, State.actor_modActor _ hh⟩
  case starts =>
    intro x hx hr hn hspill hd haud
    have halive : s.alive n = true := by
      have hr' : (s.actor n).st = .ready := hr
      rw [State.alive, State.has_of_st (by rw [hr']; decide), hr']; rfl
    obtain ⟨b, hmoved, hb, hbudget⟩ := State.begin_eq_of_no_spill hn halive hspill haud
    refine ⟨_, exec_handlerStart_begins hx hr, ?_⟩
    beta_reduce
    rw [show (s.begin_ s.arg.actor x).actor n = b from hb]
    obtain ⟨_, _, _, rfl⟩ := hmoved
    exact ⟨rfl, rfl, rfl, rfl, rfl, rfl, rfl, rfl, rfl, rfl, rfl, rfl, rfl, rfl, rfl, hbudget⟩
  case gone =>
    rintro ⟨hh, hst, hinv⟩
    rcases h with h | h | h
    · rw [h] at hh; cases hh
    · exact h hst
    · exact h hinv
  case again => exact exec_budgetExpiry_again ⟨hh, hst, hinv⟩ h
  case expires =>
    have hk : killable (s.actor n) := .inr (.inr (.inl hst))
    obtain ⟨_, hself⟩ := killActor_self s n rBudget hk
    exact ⟨killActor s n rBudget, (exec_budgetExpiry_expires ⟨hh, hst, hinv⟩ h0 h1).trans (congrArg (fun k => Host.Outcome.next (killActor s k rBudget)) hn),
      by rw [hself], by rw [hself]⟩
end

