-- ==== Sys2Proof/Proofs/LifeEvents.lean ====
section
/-! PROOFS. What Astrolabe does for a creation, a tie, a death and a restart (11 R276, R278, R279; 14 R327; 16 R344, R345, R352 to R354). -/

namespace Sys2Proof.Machine

section
variable {s : State}

-- Records dropped --------------------------------------------------------------------------------------------------

theorem kvHas_kvDel {α : Type} (l : List (Nat × α)) (n : Nat) : kvHas (kvDel l n) n = false := by
  simp [kvHas, kvDel]
theorem State.has_dropActor (s : State) (n : ActorName) : (s.dropActor n).has n = false := kvHas_kvDel _ _
/-- What holds of the default and of every listed value holds of every value. -/
theorem kvGet_of_forall {α : Type} {P : α → Prop} {d : α} (hd : P d) {l : List (Nat × α)} (h : ∀ e ∈ l, P e.2) (n : Nat) : P (kvGet d l n) := by
  induction l with
  | nil => exact hd
  | cons e l ih =>
    rw [kvGet]
    split
    · exact h e List.mem_cons_self
    · exact ih fun x hx => h x (List.mem_cons_of_mem _ hx)

-- SPAWN_ANSWER (R276 to R278; 14 R327) -----------------------------------------------------------------------------

theorem State.create_no_job {q : SpawnReq} {sup : ActorName} {gen : Nat} {fresh : Bool} (h : s.job q.job = none) :
    s.create q sup gen fresh = .code 1 := by
  simp only [State.create, h]
theorem exec_spawnAnswer_next : ∃ t, exec .spawnAnswer s = .next t := by
  show ∃ t, execSpawnAnswer s = _
  unfold execSpawnAnswer
  dsimp only
  split
  · split <;> exact ⟨_, rfl⟩
  · split
    · exact ⟨_, rfl⟩
    · split
      · exact ⟨_, rfl⟩
      · exact ⟨_, rfl⟩
      · split <;> exact ⟨_, rfl⟩
theorem exec_spawnAnswer_root_refused {c : Nat} (hk : s.arg.req.kind = .root) (hc : s.create s.arg.req (s.service 1) 0 false = .code c) :
    exec .spawnAnswer s =
      .next ((({ s with jobs := s.jobs.filter fun j => j.jobn != s.arg.req.job } : State).sweepFiles).launchRecord s.arg.req (0x10 + c) 0) := by
  show execSpawnAnswer s = _
  simp only [execSpawnAnswer, hk, hc, beq_self_eq_true, if_true]
theorem exec_spawnAnswer_orphan (hk : s.arg.req.kind ≠ .root) (ha : s.alive s.arg.req.by_ = false) : exec .spawnAnswer s = .next s := by
  show execSpawnAnswer s = _
  simp only [execSpawnAnswer, beq_false_of_ne hk, ha, Bool.not_false, Bool.false_eq_true, if_false, if_true]

section
variable (hk : s.arg.req.kind ≠ .root) (ha : s.alive s.arg.req.by_ = true)
include hk ha

theorem exec_spawnAnswer_refused {c : Nat} (hc : s.create s.arg.req s.arg.req.by_ 0 true = .code c) : exec .spawnAnswer s =
    .next ((s.delivered s.arg.req.by_ s.arg.req.tok (BitVec.ofNat 64 c) false).modActor s.arg.req.by_ fun a => a.born s.arg.req.tok []) := by
  show execSpawnAnswer s = _
  simp only [execSpawnAnswer, beq_false_of_ne hk, ha, hc, Bool.not_true, Bool.false_eq_true, if_false]
  rfl
theorem exec_spawnAnswer_asks {t : State} (hc : s.create s.arg.req s.arg.req.by_ 0 true = .ask t) : exec .spawnAnswer s = .next t := by
  show execSpawnAnswer s = _
  simp only [execSpawnAnswer, beq_false_of_ne hk, ha, hc, Bool.not_true, Bool.false_eq_true, if_false]
/-- A creation without ties that no restart table takes in is over once the creator's outbox holds the start messages. -/
theorem exec_spawnAnswer_made {t : State} {names : List ActorName} {words : List (List W64)} (hc : s.create s.arg.req s.arg.req.by_ 0 true = .ok t names words)
    (hs : s.arg.req.kind ≠ .supStart) (hl : s.arg.req.lnk = false) (hm : s.arg.req.mon = false) :
    let u := t.delivered s.arg.req.by_ s.arg.req.tok (names.headD 0) false
    exec .spawnAnswer s = .next (u.keep ((u.actor s.arg.req.by_).born s.arg.req.tok ((names.zip words).map fun e => startMsg s.arg.req.by_ e.1 e.2))) := by
  show execSpawnAnswer s = _
  simp only [execSpawnAnswer, beq_false_of_ne hk, beq_false_of_ne hs, ha, hc, hl, hm, Bool.not_true, Bool.false_eq_true, if_false, ite_self]
  rfl

end

theorem State.keep_of_fits {a : Actor} (h : ovfFits a = true) : s.keep a = (s.setActor a).askArea a.name := by
  rw [State.keep, if_pos h]
/-- The page of its area that an actor lacks is asked for by a step to come alone. -/
theorem State.askArea_eq (s : State) (n : ActorName) : ∃ ag, s.askArea n = { s with agenda := ag } := by
  cases h : s.gapFor (s.actor n) with
  | none => exact ⟨s.agenda, by rw [State.askArea, h]⟩
  | some vp => exact ⟨_, by rw [State.askArea, h]; rfl⟩
theorem State.has_of_alive {n : ActorName} (h : s.alive n = true) : s.has n = true := (Bool.and_eq_true_iff.1 h).1

-- LINK_ANSWER (R279, R280; 16 R348) --------------------------------------------------------------------------------

theorem exec_linkAnswer_next : ∃ t, exec .linkAnswer s = .next t := by
  show ∃ t, execLinkAnswer s = _
  unfold execLinkAnswer
  dsimp only
  split
  · exact ⟨_, rfl⟩
  · split <;> exact ⟨_, rfl⟩
/-- The number of a `link` or a `monitor` is no more one that its actor awaits. -/
def State.unasked (s : State) (n : ActorName) (m : Nat) : State := s.modActor n fun a => { a with asks := a.asks.filter fun x => x.1 != m }
theorem exec_linkAnswer_granted (hp : pkgOf s.arg.actor = s.regs.aid) (h : s.arg.flag = false ∨ s.arg.k = 0) :
    exec .linkAnswer s = .next ((s.unasked s.arg.actor s.arg.m).answer s.arg.actor s.arg.m (BitVec.ofNat 64 s.arg.k) false) := by
  have hb : (s.arg.flag && s.arg.k != 0) = false := by rcases h with h | h <;> simp [h]
  show execLinkAnswer s = _
  simp only [execLinkAnswer, hp, hb, Bool.false_eq_true, if_false, if_true]
  rfl
theorem exec_linkAnswer_refused (hp : pkgOf s.arg.actor = s.regs.aid) (hf : s.arg.flag = true) (hk : s.arg.k ≠ 0) : exec .linkAnswer s =
    .next (((s.untie s.arg.actor s.arg.other (decide (s.arg.n = 1))).unasked s.arg.actor s.arg.m).answer s.arg.actor s.arg.m (BitVec.ofNat 64 s.arg.k) false) := by
  have hb : (s.arg.flag && s.arg.k != 0) = true := by simp [hf, hk]
  show execLinkAnswer s = _
  simp only [execLinkAnswer, hp, hb, if_true]
  rfl
theorem exec_linkAnswer_ends (hp : pkgOf s.arg.actor ≠ s.regs.aid) (hf : s.arg.flag2 = true) :
    exec .linkAnswer s = .next (s.untie s.arg.actor s.arg.other (decide (s.arg.n = 1))) := by
  show execLinkAnswer s = _
  simp only [execLinkAnswer, hp, hf, if_false, if_true]
theorem exec_linkAnswer_request (hp : pkgOf s.arg.actor ≠ s.regs.aid) (hf : s.arg.flag2 = false) : exec .linkAnswer s =
    .next ((s.tie s.arg.actor s.arg.other (decide (s.arg.n = 1))).2.tieMsg s.arg.other s.arg.actor (decide (s.arg.n = 1)) 1 s.arg.m
      (s.tie s.arg.actor s.arg.other (decide (s.arg.n = 1))).1) := by
  show execLinkAnswer s = _
  simp only [execLinkAnswer, hp, hf, Bool.false_eq_true, if_false]
section
variable {x y : ActorName} {mon : Bool} (hx : s.has x = false) (hl : (s.actor x).links = []) (hm : (s.actor x).mons = [])
include hx hl hm

theorem State.tie_nobody (hy : s.has y = false) : s.tie x y mon = (3, s) := by
  cases mon <;> simp [State.tie, hx, hl, hm, hy]
theorem State.tie_full (hy : s.has y = true) (hfull : if mon then 64 ≤ (s.actor y).watch.length else 16 ≤ (s.actor y).links.length) :
    s.tie x y mon = (2, s) := by
  cases mon with
  | false => simp only [Bool.false_eq_true, if_false] at hfull; simp [State.tie, hx, hl, hy, hfull]
  | true => simp only [if_true] at hfull; simp [State.tie, hx, hm, hy, hfull]

end

-- What a dead actor held (16 R345) ---------------------------------------------------------------------------------

theorem foldl_charge_eq {α : Type} (p : α → Bool) (j : α → Nat) (f : α → Nat → Nat) (l : List α) : ∀ s : State, ∃ js,
    l.foldl (fun (t : State) b => if p b then t.charge (j b) (f b) else t) s = { s with jobs := js } := by
  induction l with
  | nil => exact fun s => ⟨_, rfl⟩
  | cons b l ih =>
    intro s
    cases hb : p b with
    | true =>
      obtain ⟨js, h⟩ := ih (s.charge (j b) (f b))
      exact ⟨js, by rw [List.foldl_cons, hb, if_pos rfl, h]; rfl⟩
    | false =>
      obtain ⟨js, h⟩ := ih s
      exact ⟨js, by rw [List.foldl_cons, hb, if_neg Bool.false_ne_true, h]⟩
/-- Backing returned changes the runs, what served alone, and the quotas of the jobs. -/
theorem State.unback_eq (s : State) (p : Backing → Bool) : ∃ bs ls js, s.unback p = { s with backs := bs, lone := ls, jobs := js } := by
  obtain ⟨js, h⟩ := foldl_charge_eq (fun b : Backing => b.kind == .buoy) (·.job) (fun b g => g - quotaCost (granules b.ppage b.npg) b.mirror)
    (s.backs.filter p) { s with backs := s.backs.filter (fun b => !p b), lone := s.lone.filter fun k => !((s.backs.filter p).any fun b => b.ppage ≤ k && k < b.ppage + b.npg) }
  exact ⟨_, _, js, h⟩
theorem foldl_clearLatches_eq (l : List Mail) : ∀ s : State, ∃ cs,
    l.foldl (fun (t : State) m => if m.latch = 0 then t else t.clearRelay m.latch) s = { s with cells := cs } := by
  induction l with
  | nil => exact fun s => ⟨_, rfl⟩
  | cons m l ih =>
    intro s
    by_cases h : m.latch = 0
    · obtain ⟨cs, hcs⟩ := ih s
      exact ⟨cs, by rw [List.foldl_cons, if_pos h, hcs]⟩
    · obtain ⟨cs, hcs⟩ := ih (s.clearRelay m.latch)
      exact ⟨cs, by rw [List.foldl_cons, if_neg h, hcs]; rfl⟩
/-- No accumulator of a cell is bound for `n`, and its network interface does not know the name. -/
def Cell.FreeOf (n : ActorName) (e : Cell) : Prop := n ∉ e.ncache ∧ ∀ x ∈ e.accs, ∀ i, x.bind ≠ some (n, i)
theorem Cell.freeOf_default (n : ActorName) : Cell.FreeOf n {} :=
  ⟨List.not_mem_nil, fun x hx i => by rw [List.eq_of_mem_replicate hx]; exact nofun⟩
theorem Cell.promote_accs (e : Cell) : e.promote.accs = e.accs := by
  unfold Cell.promote
  split <;> rfl
/-- A cell without what binds, fills or carries for an actor (R345). -/
def Cell.tidy (n : ActorName) (e : Cell) : Cell :=
  let mine (b : Option (ActorName × Nat)) : Bool := match b with | some x => x.1 == n | none => false
  let e : Cell := { e with accs := e.accs.map fun (x : Acc) => if mine x.bind then {} else x }
  let e : Cell := if mine e.laBind then { e with la := {}, laBind := none } else e
  let e : Cell := if mine e.lbBind then { e with lb := {}, lbBind := none } else e
  let e : Cell := if e.lbIn == n && e.lbNext.loaded then { e with lbNext := {}, lbIn := 0, lbInSrc := 0 } else e
  let e : Cell := (if e.lbOwner == n then { e with lb := {}, lbOwner := 0, lbSrc := 0 } else e).promote
  { e with xfers := e.xfers.filter fun x => x.actor != n || (x.kind == .relay && x.toRead = 0) }
/-- What is left of the part's tables when an actor's allocations and held deliveries go, and its name is forgotten. -/
def State.without (s : State) (n : ActorName) : State :=
  ({ s with ballocs := s.ballocs.filter fun x => !(x.actor == n && !x.mir), held := s.held.filter fun h => h.actor != n } : State).forgetName n
theorem State.release_steps (s : State) (a : Actor) : ∃ ids p, s.release a =
    ((((a.mbox.foldl (fun (t : State) m => if m.latch = 0 then t else t.clearRelay m.latch) (s.endXfers ids)).mapCells (Cell.tidy a.name)).unback p).without a.name) :=
  ⟨_, _, rfl⟩
/-- No accumulator of a cell is bound for an actor that is gone from it. -/
theorem Cell.tidy_accs {n : ActorName} {e : Cell} {x : Acc} (hx : x ∈ (e.tidy n).accs) (i : Nat) : x.bind ≠ some (n, i) := by
  simp only [Cell.tidy, Cell.promote_accs, apply_ite Cell.accs, ite_self, List.mem_map] at hx
  obtain ⟨y, -, rfl⟩ := hx
  split
  · exact nofun
  · next hmine => exact fun hb => hmine (by rw [hb]; exact beq_self_eq_true n)
/-- A cell whose network interface forgets a name. -/
def Cell.forget (n : ActorName) (e : Cell) : Cell := { e with ncache := e.ncache.filter (· != n) }
theorem Cell.freeOf_forget {n : ActorName} {e : Cell} (h : ∀ x ∈ e.accs, ∀ i, x.bind ≠ some (n, i)) : Cell.FreeOf n (e.forget n) :=
  ⟨fun hn => by simpa using (List.mem_filter.1 hn).2, h⟩
/-- The cells that an actor's reclaim leaves. -/
def cellsWithout (n : ActorName) (cs : List (Nat × Cell)) : List (Nat × Cell) := (cs.map fun e => (e.1, e.2.tidy n)).map fun e => (e.1, e.2.forget n)
theorem freeOf_cellsWithout (n : ActorName) (cs : List (Nat × Cell)) (c : Nat) : Cell.FreeOf n (kvGet {} (cellsWithout n cs) c) := by
  refine kvGet_of_forall (Cell.freeOf_default n) ?_ c
  simp only [cellsWithout, List.forall_mem_map]
  exact fun e _ => Cell.freeOf_forget fun x hx => Cell.tidy_accs hx
/-- What an actor held is reclaimed from the cells, the backing, the allocations and the deliveries held for it. -/
theorem State.release_eq (s : State) (a : Actor) : ∃ (cs : List (Nat × Cell)) (bs : List Backing) (ls : List Nat) (js : List Job), s.release a =
    { s with cells := cellsWithout a.name cs, backs := bs, lone := ls, jobs := js, ballocs := s.ballocs.filter fun x => !(x.actor == a.name && !x.mir), held := s.held.filter fun h => h.actor != a.name } := by
  obtain ⟨ids, p, h⟩ := s.release_steps a
  obtain ⟨c1, h1⟩ := State.endXfers_eq ids s
  obtain ⟨c2, h2⟩ := foldl_clearLatches_eq a.mbox { s with cells := c1 }
  obtain ⟨bs, ls, js, h3⟩ := State.unback_eq (({ s with cells := c2 } : State).mapCells (Cell.tidy a.name)) p
  rw [h1, h2, h3] at h
  exact ⟨c2, bs, ls, js, h⟩

-- RECLAIM (16 R344, R345) ------------------------------------------------------------------------------------------

/-- The record of the actor of `s.arg` is there, and it is DYING. -/
def Reclaims (s : State) : Prop := s.has s.arg.actor = true ∧ (s.actor s.arg.actor).st = .dying

theorem exec_reclaim_next : ∃ t, exec .reclaim s = .next t := by
  show ∃ t, execReclaim s = _
  unfold execReclaim
  dsimp only
  split
  · exact ⟨_, rfl⟩
  · split
    · exact ⟨_, rfl⟩
    · split <;> exact ⟨_, rfl⟩
theorem exec_reclaim_skip (h : s.has s.arg.actor = false ∨ (s.actor s.arg.actor).st ≠ .dying) : exec .reclaim s = .next s := by
  have hb : (s.has s.arg.actor && (s.actor s.arg.actor).st == .dying) = false := by
    rcases h with h | h
    · rw [h, Bool.false_and]
    · rw [beq_false_of_ne h, Bool.and_false]
  show execReclaim s = _
  simp only [execReclaim, hb, Bool.not_false, if_true]
theorem reclaims_guard (h : Reclaims s) : ¬ (!(s.has s.arg.actor && (s.actor s.arg.actor).st == .dying)) = true := by
  obtain ⟨hh, hst⟩ := h
  rw [hh, hst]
  decide
theorem exec_reclaim_waits (h : Reclaims s) (hb : (s.actor s.arg.actor).flying ≠ [] ∨ s.unitsBusy (s.actor s.arg.actor) = true) :
    exec .reclaim s = .next (s.post 1 .reclaim s.arg) :=
  (if_neg (reclaims_guard h)).trans (if_pos (by rcases hb with hb | hb <;> simp [hb]))
section
variable (hf : (s.actor s.arg.actor).flying = []) (hu : s.unitsBusy (s.actor s.arg.actor) = false)
include hf hu

theorem reclaims_at_rest : ¬ (!(s.actor s.arg.actor).flying.isEmpty || s.unitsBusy (s.actor s.arg.actor)) = true := by
  rw [hf, hu]
  decide
theorem exec_reclaim_boot (h : Reclaims s) (hb : isBoot s.arg.actor = true) : exec .reclaim s =
    .next ((s.release (s.actor s.arg.actor)).bootStatus (s.actor s.arg.actor).cell (0xFF00000000000000 + ((s.actor s.arg.actor).debt.getD 0).setWidth 64) false) :=
  (if_neg (reclaims_guard h)).trans ((if_neg (reclaims_at_rest hf hu)).trans (if_pos hb))
/-- Once the signals of the dead actor have left, in a state `v`, its state is reclaimed and the restart engine decides. -/
theorem exec_reclaim_ends (h : Reclaims s) (hb : isBoot s.arg.actor = false) : ∃ v : State, exec .reclaim s =
    .next ((((((v.release (s.actor s.arg.actor)).dropActor s.arg.actor).dropUnborn s.arg.actor).supDeath s.arg.actor).decide
      (s.actor s.arg.actor) ((s.actor s.arg.actor).debt.getD 0)).sweepFiles) :=
  ⟨_, (if_neg (reclaims_guard h)).trans ((if_neg (reclaims_at_rest hf hu)).trans (if_neg (Bool.eq_false_iff.1 hb)))⟩

end

-- RESTART and RESTART_RETRY (16 R352 to R354) ----------------------------------------------------------------------

theorem exec_restart_none (h : s.arg.nats = []) : exec .restart s = .next s := by
  show execRestart s = _
  rw [execRestart, h]; rfl
theorem exec_restart_one {k : Nat} (h : s.arg.nats = [k]) : exec .restart s = .next (s.restartEnt s.arg.actor k s.arg.req) := by
  show execRestart s = _
  rw [execRestart, h]; rfl
theorem restart_goes {e : ChildEnt} (h : e.event = false ∨ e.lead = true ∨ bit e.rmask 2 = true) : (e.event && !e.lead && !bit e.rmask 2) = false := by
  rcases h with h | h | h <;> simp [h]
section
variable {sup : ActorName} {k : Nat} {r : SpawnReq}

theorem State.restartEnt_none (h : s.ent sup k = none) : s.restartEnt sup k r = s := by
  simp only [State.restartEnt, h]
section
variable {e : ChildEnt} (he : s.ent sup k = some e)
include he

theorem State.restartEnt_skip (h : s.alive sup = false ∨ e.st ≠ .restarting) : s.restartEnt sup k r = s := by
  have hb : (!s.alive sup || e.st != .restarting) = true := by
    rcases h with h | h
    · rw [h]; rfl
    · rw [bne_iff_ne.2 h, Bool.or_true]
  simp only [State.restartEnt, he, hb, if_true]
/-- The request of an entry's restart. -/
def State.restartReq (s : State) (sup : ActorName) (k : Nat) (e : ChildEnt) (r : SpawnReq) : SpawnReq :=
  { kind := .restart, by_ := sup, job := jobOf e.name, file := (s.actor sup).file, crec := k, cell := (s.actor sup).cell, serial := serialOf e.name,
    refs := e.refs (s.actor sup).cell, cells := r.cells, runs := r.runs }
section
variable (ha : s.alive sup = true) (hst : e.st = .restarting)
include ha hst

theorem State.restartEnt_stops (h0 : e.event = true) (h1 : e.lead = false) (h2 : bit e.rmask 2 = false) : s.restartEnt sup k r = s.stopEnt sup e := by
  simp [State.restartEnt, he, ha, hst, h0, h1, h2]
section
variable (h : e.event = false ∨ e.lead = true ∨ bit e.rmask 2 = true)
include h

theorem State.restartEnt_fails {c : Nat} (hc : s.create (s.restartReq sup k e r) sup (genOf e.name + 1) false = .code c) : s.restartEnt sup k r =
    ((s.modEnt sup k fun x => { x with event := false, lead := false }).report sup e 5 0).post 4096 .restartRetry { actor := sup, n := k } := by
  rw [State.restartReq] at hc
  simp only [State.restartEnt, he, ha, hst, restart_goes h, hc, bne_self_eq_false, Bool.not_true, Bool.or_self, Bool.false_eq_true, if_false]
theorem State.restartEnt_made {t : State} {m : ActorName} {w : List W64}
    (hc : s.create (s.restartReq sup k e r) sup (genOf e.name + 1) false = .ok t [m] [w]) : s.restartEnt sup k r =
    ((t.modEnt sup k fun x => { x with st := .running, name := m, event := false, lead := false, cells := [] }).partMessage (startMsg sup m w)).report sup e 3 m := by
  rw [State.restartReq] at hc
  simp only [State.restartEnt, he, ha, hst, restart_goes h, hc, bne_self_eq_false, Bool.not_true, Bool.or_self, Bool.false_eq_true, if_false]
  rfl

end

end

end

end

theorem exec_restartRetry_next : ∃ t, exec .restartRetry s = .next t := by
  show ∃ t, execRestartRetry s = _
  unfold execRestartRetry
  dsimp only
  split
  · split
    · exact ⟨_, rfl⟩
    · split <;> exact ⟨_, rfl⟩
  · exact ⟨_, rfl⟩
theorem exec_restartRetry_none (h : s.supTab s.arg.actor = none ∨ s.ent s.arg.actor s.arg.n = none) : exec .restartRetry s = .next s := by
  show execRestartRetry s = _
  unfold execRestartRetry
  dsimp only
  split
  · next ht he => rcases h with h | h <;> simp_all
  · rfl
section
variable {t : SupTab} {e : ChildEnt} (ht : s.supTab s.arg.actor = some t) (he : s.ent s.arg.actor s.arg.n = some e)
include ht he

theorem exec_restartRetry_skip (h : e.st ≠ .restarting ∨ s.alive s.arg.actor = false) : exec .restartRetry s = .next s := by
  have hb : (e.st != .restarting || !s.alive s.arg.actor) = true := by
    rcases h with h | h
    · rw [bne_iff_ne.2 h, Bool.true_or]
    · rw [h, Bool.not_false, Bool.or_true]
  show execRestartRetry s = _
  simp only [execRestartRetry, ht, he, hb, if_true]
section
variable (hst : e.st = .restarting) (ha : s.alive s.arg.actor = true)
include hst ha

theorem exec_restartRetry_full (hc : t.count s.cycle = none) :
    exec .restartRetry s = .next ((s.modTab s.arg.actor fun x => x.window s.cycle).escalate s.arg.actor e) := by
  show execRestartRetry s = _
  simp only [execRestartRetry, ht, he, hst, ha, hc, bne_self_eq_false, Bool.not_true, Bool.or_self, Bool.false_eq_true, if_false]
theorem exec_restartRetry_room {u : SupTab} (hc : t.count s.cycle = some u) :
    exec .restartRetry s = .next ((s.modTab s.arg.actor fun _ => u).restartEnt s.arg.actor s.arg.n {}) := by
  show execRestartRetry s = _
  simp only [execRestartRetry, ht, he, hst, ha, hc, bne_self_eq_false, Bool.not_true, Bool.or_self, Bool.false_eq_true, if_false]

end

end

theorem SupTab.window_rmax (t : SupTab) (now : Nat) : (t.window now).rmax = t.rmax := by
  unfold SupTab.window
  split <;> rfl
theorem SupTab.count_full {t : SupTab} {now : Nat} (h : (t.window now).rcnt = t.rmax) : t.count now = none :=
  if_pos (h.trans (t.window_rmax now).symm)
theorem SupTab.count_room {t : SupTab} {now : Nat} (h : (t.window now).rcnt ≠ t.rmax) :
    t.count now = some { t.window now with rcnt := (t.window now).rcnt + 1 } :=
  if_neg fun hc => h (hc.trans (t.window_rmax now))

end

end Sys2Proof.Machine
end

