-- ==== Sys2Proof/Proofs/AuditEvents.lean ====
section
/-! PROOFS. Shadow runs, their verdicts and the end of a sample (21 R396 to R398), and O52. -/

namespace Sys2Proof.Machine

section
variable {s : State} {b : Nat}

-- Memory of a new region (R54) -------------------------------------------------------------------------------------

theorem foldl_mem_eq {α : Type} {f : State → α → State} (hf : ∀ t x, ∃ m, f t x = { t with mem := m }) (l : List α) :
    ∀ s : State, ∃ m, l.foldl f s = { s with mem := m } := by
  induction l with
  | nil => exact fun s => ⟨s.mem, rfl⟩
  | cons x l ih =>
    intro s
    obtain ⟨m, hm⟩ := hf s x
    obtain ⟨m', hm'⟩ := ih (f s x)
    exact ⟨m', by rw [List.foldl_cons, hm', hm]⟩
theorem State.zero_eq (s : State) (a n : Nat) : ∃ m, s.zero a n = { s with mem := m } := by
  unfold State.zero
  split
  · exact ⟨_, rfl⟩
  · exact ⟨_, rfl⟩
/-- One layout record's bytes of an image copied into a region (R54). -/
def State.putData (k : Nat) (f : File) (t : State) (r : LayRec) : State :=
  match r with
  | .data off bytes src => t.put (k + off) (t.bytes (f.rodata + src) bytes)
  | _ => t
theorem State.putData_eq (k : Nat) (f : File) (t : State) (r : LayRec) : ∃ m, t.putData k f r = { t with mem := m } := by
  cases r <;> exact ⟨_, rfl⟩
theorem State.initRegion_eq (s : State) (a : Actor) (im : Image) (f : File) : ∃ m sp, s.initRegion a im f = { s with mem := m, spois := sp } := by
  obtain ⟨m, hm⟩ := s.zero_eq (regionKey a) (regionSize a)
  unfold State.initRegion
  dsimp only
  rw [hm]
  split
  · exact ⟨_, _, rfl⟩
  · obtain ⟨m', hm'⟩ := foldl_mem_eq (State.putData_eq (regionKey a) f) im.lays
      { s with mem := m, spois := s.spois.filter fun x => x < regionKey a / 32 || (regionKey a + regionSize a) / 32 ≤ x }
    exact ⟨m', _, hm'⟩

-- Samples that end (R397) ------------------------------------------------------------------------------------------

theorem State.audit_modAudit {f : AuditBuf → AuditBuf} (h : kvHas s.audits b = true) : (s.modAudit b f).audit b = f (s.audit b) :=
  kvGet_mapThis _ _ f _ h
/-- The registers once one more sample has ended without a verdict. -/
def Regs.abandoned (r : Regs) : Regs := { r with aban := min (r.aban + 1) 0xFFFF }
/-- What the end of a sample changes: its buffer, the count, its actor's tie to it, and the files that it kept. -/
theorem State.abandonSample_eq (s : State) (b : Nat) : ∃ fs, s.abandonSample b =
    { s.modActor (s.audit b).actor fun a => if a.audit == some b then { a with audit := none } else a with
      audits := kvDel s.audits b, regs := s.regs.abandoned, files := fs } := by
  unfold State.abandonSample State.modActor
  dsimp only
  split
  · next h =>
    have h' : s.has (s.audit b).actor = true := h
    rw [if_pos h']
    exact ⟨_, rfl⟩
  · next h =>
    have h' : ¬ s.has (s.audit b).actor = true := h
    rw [if_neg h']
    exact ⟨_, rfl⟩
theorem State.has_abandonSample (s : State) (b : Nat) (n : ActorName) : (s.abandonSample b).has n = s.has n := by
  obtain ⟨_, h⟩ := s.abandonSample_eq b
  rw [h]
  exact s.has_modActor _ n _
theorem State.abandonSample_audits (s : State) (b : Nat) : (s.abandonSample b).audits = kvDel s.audits b := by
  obtain ⟨_, h⟩ := s.abandonSample_eq b
  rw [h]
theorem State.abandonSample_regs (s : State) (b : Nat) : (s.abandonSample b).regs = s.regs.abandoned := by
  obtain ⟨_, h⟩ := s.abandonSample_eq b
  rw [h]
theorem State.abandonSample_mem (s : State) (b : Nat) : (s.abandonSample b).mem = s.mem := by
  obtain ⟨_, h⟩ := s.abandonSample_eq b
  rw [h]
  exact s.modActor_mem _ _
/-- The actor of a sample that ends is not audited by its buffer any more. -/
theorem State.abandonSample_unties (hh : s.has (s.audit b).actor = true) (ha : (s.actor (s.audit b).actor).audit = some b) :
    ((s.abandonSample b).actor (s.audit b).actor).audit = none := by
  obtain ⟨_, h⟩ := s.abandonSample_eq b
  rw [h]
  refine (congrArg Actor.audit (State.actor_modActor _ hh)).trans ?_
  simp only [ha, beq_self_eq_true, if_true]
theorem kvHas_abandonSample (s : State) (b : Nat) : kvHas (s.abandonSample b).audits b = false := by
  rw [s.abandonSample_audits b]
  exact kvHas_kvDel _ _

-- SHADOW_RUN (R396) ------------------------------------------------------------------------------------------------

/-- The place that a sample's next shadow run takes: that of the nearest cell that qualifies. -/
def State.shadowPlace (s : State) (b : Nat) : Option Spot :=
  minBy (fun (p : Spot) => dist p.cell (s.audit b).cell) ((List.range 512).filterMap (s.shadowSpot (s.audit b)))
theorem State.shadowPlace_eq (s : State) (b : Nat) : s.shadowPlace b =
    minBy (fun (p : Spot) => dist p.cell (s.audit b).cell) ((List.range 512).filterMap (s.shadowSpot (s.audit b))) := rfl
theorem exec_shadowRun_none (h : kvHas s.audits s.arg.n = false) : exec .shadowRun s = .next s := by
  show execShadowRun s = _
  simp only [execShadowRun, h, Bool.not_false, if_true]
theorem exec_shadowRun_next : ∃ t, exec .shadowRun s = .next t := by
  show ∃ t, execShadowRun s = _
  unfold execShadowRun
  dsimp only
  split
  · exact ⟨_, rfl⟩
  · split <;> exact ⟨_, rfl⟩
theorem exec_shadowRun_abandons (h : kvHas s.audits s.arg.n = true) (hp : s.shadowPlace s.arg.n = none) :
    exec .shadowRun s = .next (s.abandonSample s.arg.n) := by
  rw [State.shadowPlace] at hp
  show execShadowRun s = _
  simp only [execShadowRun, h, hp, Bool.not_true, Bool.false_eq_true, if_false]
/-- A shadow run changes nothing of the actors but its own context. -/
theorem exec_shadowRun_starts {p : Spot} (h : kvHas s.audits s.arg.n = true) (hp : s.shadowPlace s.arg.n = some p) : ∃ m sp cs au,
    exec .shadowRun s = .next ((({ s with mem := m, spois := sp, cells := cs, audits := au } : State).setActor (shadowActor s.arg.n (s.audit s.arg.n) p s.cycle)).post
      (4 * (s.audit s.arg.n).snap.budget) .shadowAbandon
      { n := s.arg.n, flag := true, actor := (s.audit s.arg.n).actor, m := (s.audit s.arg.n).snap.invNo, k := (s.audit s.arg.n).sigs.length }) := by
  rw [State.shadowPlace] at hp
  show ∃ m sp cs au, execShadowRun s = _
  simp only [execShadowRun, h, hp, Bool.not_true, Bool.false_eq_true, if_false]
  obtain ⟨m, sp, hinit⟩ := State.initRegion_eq ((s.modAudit s.arg.n fun y => { y with cells := y.cells ++ [p.cell], left := y.log, out := [] }).setActor
    (shadowActor s.arg.n (s.audit s.arg.n) p s.cycle)) (shadowActor s.arg.n (s.audit s.arg.n) p s.cycle) _ _
  obtain ⟨m', hput⟩ := foldl_mem_eq (f := fun (t : State) (e : Nat × List Byte) =>
    t.put (tileKey (shadowActor s.arg.n (s.audit s.arg.n) p s.cycle) (tileAt (shadowActor s.arg.n (s.audit s.arg.n) p s.cycle) (28 + e.1))) e.2)
    (fun t e => ⟨_, rfl⟩) (s.audit s.arg.n).tiles _
  rw [hinit, hput]
  split
  · exact ⟨m', sp, _, _, rfl⟩
  · exact ⟨m', sp, _, _, rfl⟩

-- SHADOW_COMPLETE (R396 to R398) -----------------------------------------------------------------------------------

/-- A shadow context that leaves takes what it held along; audits, registers, agenda and clock stay. -/
theorem State.dropShadow_eq (s : State) (b : Nat) : ∃ cs bs ls js ba hd, s.dropShadow b =
    { s with cells := cs, backs := bs, lone := ls, jobs := js, ballocs := ba, held := hd, actors := kvDel s.actors (shadowName b).toNat } := by
  obtain ⟨cs, bs, ls, js, h⟩ := s.release_eq (s.actor (shadowName b))
  rw [State.dropShadow, h]
  exact ⟨_, _, _, _, _, _, rfl⟩
theorem State.has_dropShadow (s : State) (b : Nat) : (s.dropShadow b).has (shadowName b) = false := State.has_dropActor _ _
theorem State.dropShadow_audits (s : State) (b : Nat) : (s.dropShadow b).audits = s.audits := by
  obtain ⟨_, _, _, _, _, _, h⟩ := s.dropShadow_eq b
  rw [h]
theorem State.dropShadow_regs (s : State) (b : Nat) : (s.dropShadow b).regs = s.regs := by
  obtain ⟨_, _, _, _, _, _, h⟩ := s.dropShadow_eq b
  rw [h]
theorem State.dropShadow_cycle (s : State) (b : Nat) : (s.dropShadow b).cycle = s.cycle := by
  obtain ⟨_, _, _, _, _, _, h⟩ := s.dropShadow_eq b
  rw [h]
/-- The output of a shadow run that is over: a run that faulted has its reason alone. -/
def State.shadowOut (s : State) (b : Nat) : List Byte := match (s.actor (shadowName b)).debt with | some r => [r] | none => (s.audit b).out
/-- The state once a shadow run has left its cell and its signature stands beside those before it. -/
def State.shadowSigned (s : State) (b : Nat) : State := (s.dropShadow b).modAudit b fun x => { x with sigs := x.sigs ++ [signature (s.shadowOut b)] }
theorem State.shadowSigned_audit (h : kvHas s.audits b = true) :
    (s.shadowSigned b).audit b = { s.audit b with sigs := (s.audit b).sigs ++ [signature (s.shadowOut b)] } := by
  have hh : kvHas (s.dropShadow b).audits b = true := by rw [s.dropShadow_audits b]; exact h
  have ha : (s.dropShadow b).audit b = s.audit b := congrArg (fun l => kvGet ({} : AuditBuf) l b) (s.dropShadow_audits b)
  rw [State.shadowSigned, State.audit_modAudit hh, ha]
theorem State.has_shadowSigned (s : State) (b : Nat) : (s.shadowSigned b).has (shadowName b) = false := s.has_dropShadow b
theorem State.shadowSigned_sigs (h : kvHas s.audits b = true) : ((s.shadowSigned b).audit b).sigs = (s.audit b).sigs ++ [signature (s.shadowOut b)] :=
  congrArg AuditBuf.sigs (State.shadowSigned_audit h)

theorem exec_shadowComplete_none (h : s.has (shadowName s.arg.n) = false ∨ kvHas s.audits s.arg.n = false) : exec .shadowComplete s = .next s :=
  if_pos (by rcases h with h | h <;> simp [h])
theorem exec_shadowComplete_next : ∃ t, exec .shadowComplete s = .next t := by
  show ∃ t, execShadowComplete s = _
  unfold execShadowComplete
  dsimp only
  split
  · exact ⟨_, rfl⟩
  · split <;> exact ⟨_, rfl⟩
section
variable (hh : s.has (shadowName s.arg.n) = true) (h : kvHas s.audits s.arg.n = true)
include hh h

theorem exec_shadowComplete_waits (hu : s.unitsBusy (s.actor (shadowName s.arg.n)) = true) : exec .shadowComplete s = .next (s.post 1 .shadowComplete s.arg) :=
  (if_neg (by rw [hh, h]; decide)).trans (if_pos hu)
theorem exec_shadowComplete_over (hu : s.unitsBusy (s.actor (shadowName s.arg.n)) = false) :
    exec .shadowComplete s = .next ((s.shadowSigned s.arg.n).verdict s.arg.n) :=
  (if_neg (by rw [hh, h]; decide)).trans (if_neg (Bool.eq_false_iff.1 hu))

end

theorem State.has_freeAudit (s : State) (b : Nat) (n : ActorName) : (s.freeAudit b).has n = s.has n := rfl
theorem State.freeAudit_regs (s : State) (b : Nat) : (s.freeAudit b).regs = s.regs := rfl
theorem State.freeAudit_cell (s : State) (b c : Nat) : (s.freeAudit b).cell c = s.cell c := rfl
theorem kvHas_freeAudit (s : State) (b : Nat) : kvHas (s.freeAudit b).audits b = false := kvHas_kvDel _ _
section
variable {o y : W64 × W64}

theorem State.verdict_equal (hx : (s.audit b).sigs = [o, y]) (h : o = y) : s.verdict b = s.freeAudit b := by
  simp only [State.verdict, hx, h, if_true]
/-- A first mismatch that the host does not judge is counted, and a second shadow run is due. -/
theorem State.verdict_mismatch (hx : (s.audit b).sigs = [o, y]) (h : o ≠ y) (hd : s.hostDuty 2 = false) :
    s.verdict b = ({ s with regs := { s.regs with mis := min (s.regs.mis + 1) 0xFFFF } } : State).post 0 .shadowRun { n := b } := by
  have hd' : ({ s with regs := { s.regs with mis := sat16 s.regs.mis } } : State).hostDuty 2 = false := hd
  simp only [State.verdict, hx, h, hd', Bool.false_eq_true, if_false]
  rfl
section
variable {z : W64 × W64} (hx : (s.audit b).sigs = [o, z, y])
include hx

theorem State.verdict_shadow_wrong (h : y = o) : s.verdict b = (s.quarantine ((s.audit b).cells.getD 1 0)).freeAudit b := by
  simp only [State.verdict, hx, h, if_true]
theorem State.verdict_cell_wrong (h : y ≠ o) (hz : y = z) : s.verdict b = (s.quarantine (s.audit b).cell).freeAudit b := by
  simp only [State.verdict, hx, if_neg h, if_pos hz]
theorem State.verdict_unresolved (h : y ≠ o) (hz : y ≠ z) : s.verdict b = s.unresolved b := by
  simp only [State.verdict, hx, if_neg h, if_neg hz]

end

end

theorem State.unresolved_regs (s : State) (b : Nat) : (s.unresolved b).regs = { s.regs with unr := min (s.regs.unr + 1) 0xFFFF } := rfl
/-- The host is told of an unresolved sample, by a clock that goes on. -/
theorem State.told_unresolved {s₀ : State} (h : s.cycle = s₀.cycle) : Told s₀ (s.unresolved b) 0 4 1 0 0 (BitVec.ofNat 64 (s.audit b).cell) :=
  awaits_post (t := { s with regs := _ }) h _ _ _
theorem kvHas_unresolved (s : State) (b : Nat) : kvHas (s.unresolved b).audits b = false := kvHas_freeAudit _ _
/-- A quarantined cell is out of service and gated (R398). -/
theorem State.quarantine_service (s : State) (c : Nat) : ((s.quarantine c).cell c).health = 2 ∧ ((s.quarantine c).cell c).gated = true := by
  obtain ⟨-, hcell, -⟩ := foldl_killActor ((((s.seated c).filter fun a => !isBoot a.name) ++ s.roamers c).map (·.name)) rAuditMismatch
    (s.modCell c fun e => { e with health := 2, gated := true })
  have hc := hcell c
  rw [List.foldl_map, State.modCell, State.cell_setCell] at hc
  exact ⟨congrArg (·.1) hc, congrArg (·.2.1) hc⟩

-- SHADOW_ABANDON (R396, R397) --------------------------------------------------------------------------------------

/-- The sample of `s.arg` is still that of its invocation, and its shadow run, where one is meant, still runs. -/
def SampleStands (s : State) : Prop :=
  (s.audit s.arg.n).actor = s.arg.actor ∧ (s.audit s.arg.n).snap.invNo = s.arg.m ∧
    (s.arg.flag = false ∨ ((s.actor (shadowName s.arg.n)).st = .active ∧ (s.audit s.arg.n).sigs.length = s.arg.k))
theorem exec_shadowAbandon_none (h : kvHas s.audits s.arg.n = false) : exec .shadowAbandon s = .next s :=
  if_pos (by rw [h]; rfl)
theorem exec_shadowAbandon_next : ∃ t, exec .shadowAbandon s = .next t := by
  show ∃ t, execShadowAbandon s = _
  unfold execShadowAbandon
  dsimp only
  split
  · exact ⟨_, rfl⟩
  · split
    · exact ⟨_, rfl⟩
    · split
      · exact ⟨_, rfl⟩
      · split <;> exact ⟨_, rfl⟩
theorem exec_shadowAbandon_other (h : (s.audit s.arg.n).actor ≠ s.arg.actor ∨ (s.audit s.arg.n).snap.invNo ≠ s.arg.m) : exec .shadowAbandon s = .next s :=
  if_pos (by rcases h with h | h <;> simp [h])
theorem exec_shadowAbandon_gone (hf : s.arg.flag = true) (h : (s.actor (shadowName s.arg.n)).st ≠ .active ∨ (s.audit s.arg.n).sigs.length ≠ s.arg.k) :
    exec .shadowAbandon s = .next s := by
  have hb : (s.arg.flag && ((s.actor (shadowName s.arg.n)).st != .active || (s.audit s.arg.n).sigs.length != s.arg.k)) = true := by
    rcases h with h | h <;> simp [hf, h]
  show execShadowAbandon s = _
  simp only [execShadowAbandon, hb, if_true, ite_self]
section
variable (h : kvHas s.audits s.arg.n = true) (hs : SampleStands s)
include h hs

theorem exec_shadowAbandon_stands : exec .shadowAbandon s =
    if !s.has (shadowName s.arg.n) then .next (s.abandonSample s.arg.n)
    else if s.unitsBusy (s.actor (shadowName s.arg.n)) then
      .next ((s.setActor { s.actor (shadowName s.arg.n) with st := .dying }).post 1 .shadowAbandon { s.arg with flag := false })
    else .next ((s.dropShadow s.arg.n).abandonSample s.arg.n) := by
  obtain ⟨ha, hi, hrun⟩ := hs
  refine (if_neg (by simp [h, ha, hi])).trans (if_neg ?_)
  rcases hrun with hf | ⟨hst, hk⟩
  · simp [hf]
  · simp [hst, hk]
theorem exec_shadowAbandon_waits (hh : s.has (shadowName s.arg.n) = true) (hu : s.unitsBusy (s.actor (shadowName s.arg.n)) = true) :
    exec .shadowAbandon s = .next ((s.setActor { s.actor (shadowName s.arg.n) with st := .dying }).post 1 .shadowAbandon { s.arg with flag := false }) :=
  (exec_shadowAbandon_stands h hs).trans ((if_neg (by rw [hh]; decide)).trans (if_pos hu))
/-- A sample is given up, from a state `u` in which its shadow context is gone. -/
theorem exec_shadowAbandon_ends (hu : s.has (shadowName s.arg.n) = false ∨ s.unitsBusy (s.actor (shadowName s.arg.n)) = false) :
    ∃ u : State, exec .shadowAbandon s = .next (u.abandonSample s.arg.n) ∧ u.has (shadowName s.arg.n) = false ∧ u.regs = s.regs := by
  rw [exec_shadowAbandon_stands h hs]
  cases hh : s.has (shadowName s.arg.n) with
  | false => exact ⟨s, rfl, hh, rfl⟩
  | true =>
    have hrest : s.unitsBusy (s.actor (shadowName s.arg.n)) = false := hu.resolve_left (by rw [hh]; decide)
    exact ⟨s.dropShadow s.arg.n, if_neg (Bool.eq_false_iff.1 hrest), s.has_dropShadow _, s.dropShadow_regs _⟩

end

end

end Sys2Proof.Machine
end

