-- ==== Sys2Proof/Proofs/LifeAndAuditEvents.lean ====
section
/-! PROOFS. The parts of O52 — creations, ties, reclaims, restarts, audits — and O52. -/

namespace Sys2Proof.Machine

section
variable {s : State}

/-- No event of a life or of an audit faults or is refused. -/
theorem lifeEvents_next (i : Instr) (hi : i ∈ [Instr.spawnAnswer, .linkAnswer, .reclaim, .restart, .restartRetry, .shadowRun, .shadowComplete, .shadowAbandon]) :
    ∃ t, exec i s = .next t := by
  simp only [List.mem_cons, List.not_mem_nil, or_false] at hi
  rcases hi with rfl | rfl | rfl | rfl | rfl | rfl | rfl | rfl
  · exact exec_spawnAnswer_next
  · exact exec_linkAnswer_next
  · exact exec_reclaim_next
  · exact ⟨_, rfl⟩
  · exact exec_restartRetry_next
  · exact exec_shadowRun_next
  · exact exec_shadowComplete_next
  · exact exec_shadowAbandon_next

-- Creations --------------------------------------------------------------------------------------------------------

theorem State.delivered_jobs (s : State) (n : ActorName) (tok : Nat) (v : W64) (p : Bool) : (s.delivered n tok v p).jobs = s.jobs := by
  obtain ⟨_, _, h⟩ := s.delivered_eq n tok v p
  rw [h]
theorem State.has_delivered {n : ActorName} {tok : Nat} {v : W64} {p : Bool} (m : ActorName) : (s.delivered n tok v p).has m = s.has m :=
  (State.has_modActor _ n m _).trans (State.has_modActor _ n m _)
theorem State.delivered_actor_other {n m : ActorName} {tok : Nat} {v : W64} {p : Bool} (h : m ≠ n) : (s.delivered n tok v p).actor m = s.actor m :=
  (State.actor_modActor_other _ _ h).trans (State.actor_modActor_other _ _ h)
theorem spawnAnswer_root_refused {c : Nat} (hk : s.arg.req.kind = .root) (hc : s.create s.arg.req (s.service 1) 0 false = .code c) :
    Happens s .spawnAnswer fun t => t.jobs = s.jobs.filter (fun j => j.jobn != s.arg.req.job) ∧
      Told s t s.arg.req.chan 2 (0x10 + c) (s.arg.req.job * 2 ^ 16 + s.arg.req.seq) 0 0 ∧ t.mem = s.mem ∧ t.actors = s.actors :=
  ⟨_, exec_spawnAnswer_root_refused hk hc, rfl, List.mem_append_right _ (List.mem_singleton_self _), rfl, rfl⟩
theorem spawnAnswer_refused {c : Nat} (hk : s.arg.req.kind ≠ .root) (ha : s.alive s.arg.req.by_ = true)
    (hc : s.create s.arg.req s.arg.req.by_ 0 true = .code c) : Happens s .spawnAnswer fun t => t.mem = s.mem ∧ t.jobs = s.jobs ∧ t.actor s.arg.req.by_ =
      { (((s.actor s.arg.req.by_).fill s.arg.req.tok (BitVec.ofNat 64 c) false).dropOut s.arg.req.tok).born s.arg.req.tok [] with name := s.arg.req.by_ } := by
  have hhas := State.has_of_alive ha
  refine ⟨_, exec_spawnAnswer_refused hk ha hc, (State.modActor_mem _ _ _).trans (State.delivered_mem _ _ _ _ _), ?_, ?_⟩
  · obtain ⟨_, h⟩ := State.modActor_eq (s.delivered s.arg.req.by_ s.arg.req.tok (BitVec.ofNat 64 c) false) s.arg.req.by_ fun a => a.born s.arg.req.tok []
    rw [h]
    exact State.delivered_jobs _ _ _ _ _
  · rw [State.actor_modActor _ ((State.has_delivered _).trans hhas), State.delivered_actor hhas]
    rfl
/-- The creator once its creation is made: its number has come, and its outbox holds the start messages. -/
def Actor.creator (a : Actor) (q : SpawnReq) (names : List ActorName) (words : List (List W64)) : Actor :=
  { ((a.fill q.tok (names.headD 0) false).dropOut q.tok).born q.tok ((names.zip words).map fun e => startMsg q.by_ e.1 e.2) with name := q.by_ }
theorem spawnAnswer_made {t : State} {names : List ActorName} {words : List (List W64)} (hk : s.arg.req.kind ≠ .root) (ha : s.alive s.arg.req.by_ = true)
    (hc : s.create s.arg.req s.arg.req.by_ 0 true = .ok t names words) (hat : t.alive s.arg.req.by_ = true) (hs : s.arg.req.kind ≠ .supStart)
    (hl : s.arg.req.lnk = false) (hm : s.arg.req.mon = false) (hfits : ovfFits ((t.actor s.arg.req.by_).creator s.arg.req names words) = true) :
    Happens s .spawnAnswer fun u => u.mem = t.mem ∧ u.jobs = t.jobs ∧ u.actor s.arg.req.by_ = (t.actor s.arg.req.by_).creator s.arg.req names words ∧
      ∀ m, m ≠ s.arg.req.by_ → u.actor m = t.actor m := by
  have hborn : ((t.delivered s.arg.req.by_ s.arg.req.tok (names.headD 0) false).actor s.arg.req.by_).born s.arg.req.tok
      ((names.zip words).map fun e => startMsg s.arg.req.by_ e.1 e.2) = (t.actor s.arg.req.by_).creator s.arg.req names words := by
    rw [State.delivered_actor (State.has_of_alive hat)]
    rfl
  have hx := exec_spawnAnswer_made hk ha hc hs hl hm
  dsimp only at hx
  rw [hborn, State.keep_of_fits hfits] at hx
  obtain ⟨ag, hask⟩ := State.askArea_eq ((t.delivered s.arg.req.by_ s.arg.req.tok (names.headD 0) false).setActor
    ((t.actor s.arg.req.by_).creator s.arg.req names words)) ((t.actor s.arg.req.by_).creator s.arg.req names words).name
  rw [hask] at hx
  exact ⟨_, hx, State.delivered_mem _ _ _ _ _, State.delivered_jobs _ _ _ _ _, State.actor_setActor _ _,
    fun m hne => (State.actor_setActor_other _ _ m hne).trans (State.delivered_actor_other hne)⟩

-- Ties -------------------------------------------------------------------------------------------------------------

theorem State.actor_answer {n : ActorName} {tok : Nat} {v : W64} {p : Bool} (h : s.has n = true) :
    (s.answer n tok v p).actor n = { (s.actor n).fill tok v p with name := n } :=
  State.actor_modActor (s := { s with audits := _ }) _ h
theorem linkAnswer_granted (hp : pkgOf s.arg.actor = s.regs.aid) (hf : s.arg.flag = false ∨ s.arg.k = 0) (hh : s.has s.arg.actor = true) :
    Happens s .linkAnswer fun t => t.mem = s.mem ∧ t.actor s.arg.actor =
      { ({ s.actor s.arg.actor with asks := (s.actor s.arg.actor).asks.filter fun x => x.1 != s.arg.m } : Actor).fill s.arg.m (BitVec.ofNat 64 s.arg.k) false with name := s.arg.actor } ∧
      ∀ m, m ≠ s.arg.actor → t.actor m = s.actor m := by
  refine ⟨_, exec_linkAnswer_granted hp hf, ?_, ?_, fun m hne => ?_⟩
  · obtain ⟨_, _, h⟩ := (s.unasked s.arg.actor s.arg.m).answer_eq s.arg.actor s.arg.m (BitVec.ofNat 64 s.arg.k) false
    rw [h]
    exact State.modActor_mem _ _ _
  · rw [State.unasked, State.actor_answer ((State.has_modActor _ _ _ _).trans hh), State.actor_modActor _ hh]
    rfl
  · exact (State.actor_modActor_other _ _ hne).trans (State.actor_modActor_other _ _ hne)

-- Reclaims ---------------------------------------------------------------------------------------------------------

/-- Nothing that the reclaim of an actor touches is the actor's any more (R345). -/
def State.RidOf (u : State) (n : ActorName) : Prop :=
  u.has n = false ∧ (∀ x ∈ u.held, x.actor ≠ n) ∧ (∀ x ∈ u.ballocs, x.mir = false → x.actor ≠ n) ∧
    ∀ c, n ∉ (u.cell c).ncache ∧ ∀ x ∈ (u.cell c).accs, ∀ i, x.bind ≠ some (n, i)
theorem State.ridOf_release (v : State) {a : Actor} {n : ActorName} (hn : a.name = n) : ((v.release a).dropActor n).RidOf n := by
  subst hn
  obtain ⟨cs, bs, ls, js, h⟩ := v.release_eq a
  rw [h]
  refine ⟨State.has_dropActor _ _, fun x hx => ?_, fun x hx hmir => ?_, fun c => freeOf_cellsWithout a.name cs c⟩
  · simpa using (List.mem_filter.1 hx).2
  · simpa [hmir] using (List.mem_filter.1 hx).2

-- Audits -----------------------------------------------------------------------------------------------------------

/-- The sample whose mismatch quarantines a cell ends with that. -/
theorem freeAudit_quarantine (u : State) (c b : Nat) : (((u.quarantine c).freeAudit b).cell c).health = 2 ∧ (((u.quarantine c).freeAudit b).cell c).gated = true ∧
    kvHas ((u.quarantine c).freeAudit b).audits b = false := by
  obtain ⟨hhealth, hgated⟩ := u.quarantine_service c
  rw [State.freeAudit_cell]
  exact ⟨hhealth, hgated, kvHas_freeAudit _ _⟩
section
variable (h : kvHas s.audits s.arg.n = true)
include h

theorem shadowRun_abandons (hp : s.shadowPlace s.arg.n = none) : Happens s .shadowRun fun t => t.audits = kvDel s.audits s.arg.n ∧
    t.regs = { s.regs with aban := min (s.regs.aban + 1) 0xFFFF } ∧ t.mem = s.mem ∧ (s.has (s.audit s.arg.n).actor = true →
      (s.actor (s.audit s.arg.n).actor).audit = some s.arg.n → (t.actor (s.audit s.arg.n).actor).audit = none) :=
  ⟨_, exec_shadowRun_abandons h hp, State.abandonSample_audits _ _, State.abandonSample_regs _ _, State.abandonSample_mem _ _, State.abandonSample_unties⟩
theorem shadowRun_starts {p : Spot} (hp : s.shadowPlace s.arg.n = some p) : Happens s .shadowRun fun t =>
    t.actor (shadowName s.arg.n) = shadowActor s.arg.n (s.audit s.arg.n) p s.cycle ∧
    Awaits s t (4 * (s.audit s.arg.n).snap.budget) .shadowAbandon
      { n := s.arg.n, flag := true, actor := (s.audit s.arg.n).actor, m := (s.audit s.arg.n).snap.invNo, k := (s.audit s.arg.n).sigs.length } ∧
    ∀ m, m ≠ shadowName s.arg.n → t.actor m = s.actor m := by
  obtain ⟨_, _, _, _, hx⟩ := exec_shadowRun_starts h hp
  exact ⟨_, hx, State.actor_setActor _ (shadowActor s.arg.n (s.audit s.arg.n) p s.cycle), List.mem_append_right _ (List.mem_singleton_self _),
    fun m hm => State.actor_setActor_other _ (shadowActor s.arg.n (s.audit s.arg.n) p s.cycle) m hm⟩
section
variable (hh : s.has (shadowName s.arg.n) = true) (hu : s.unitsBusy (s.actor (shadowName s.arg.n)) = false) {o : W64 × W64}
include hh hu

theorem shadowComplete_first (hx : (s.audit s.arg.n).sigs = [o]) :
    (o = signature (s.shadowOut s.arg.n) → Happens s .shadowComplete fun t => kvHas t.audits s.arg.n = false ∧ t.has (shadowName s.arg.n) = false ∧ t.regs = s.regs) ∧
    (o ≠ signature (s.shadowOut s.arg.n) → s.hostDuty 2 = false → Happens s .shadowComplete fun t =>
      t.regs = { s.regs with mis := min (s.regs.mis + 1) 0xFFFF } ∧ Awaits s t 0 .shadowRun { n := s.arg.n }) := by
  have hsigs : ((s.shadowSigned s.arg.n).audit s.arg.n).sigs = [o, signature (s.shadowOut s.arg.n)] := by
    rw [State.shadowSigned_sigs h, hx, List.singleton_append]
  have hregs : (s.shadowSigned s.arg.n).regs = s.regs := s.dropShadow_regs _
  have hcycle : (s.shadowSigned s.arg.n).cycle = s.cycle := s.dropShadow_cycle _
  have hover := exec_shadowComplete_over hh h hu
  refine ⟨fun he => ⟨_, hover.trans (congrArg _ (State.verdict_equal hsigs he)), kvHas_freeAudit _ _, ?_, ?_⟩,
    fun he hd => ⟨_, hover.trans (congrArg _ (State.verdict_mismatch hsigs he ?_)), ?_, ?_⟩⟩
  · exact (State.has_freeAudit _ _ _).trans (s.has_shadowSigned _)
  · exact (State.freeAudit_regs _ _).trans hregs
  · rw [State.hostDuty, hregs]
    exact hd
  · exact congrArg (fun r : Regs => { r with mis := min (r.mis + 1) 0xFFFF }) hregs
  · exact awaits_post (t := { s.shadowSigned s.arg.n with regs := _ }) hcycle _ _ _
theorem shadowComplete_second {z : W64 × W64} (hx : (s.audit s.arg.n).sigs = [o, z]) :
    (signature (s.shadowOut s.arg.n) = o → Happens s .shadowComplete fun t => (t.cell ((s.audit s.arg.n).cells.getD 1 0)).health = 2 ∧
      (t.cell ((s.audit s.arg.n).cells.getD 1 0)).gated = true ∧ kvHas t.audits s.arg.n = false) ∧
    (signature (s.shadowOut s.arg.n) ≠ o → signature (s.shadowOut s.arg.n) = z → Happens s .shadowComplete fun t => (t.cell (s.audit s.arg.n).cell).health = 2 ∧
      (t.cell (s.audit s.arg.n).cell).gated = true ∧ kvHas t.audits s.arg.n = false) ∧
    (signature (s.shadowOut s.arg.n) ≠ o → signature (s.shadowOut s.arg.n) ≠ z → Happens s .shadowComplete fun t =>
      t.regs = { s.regs with unr := min (s.regs.unr + 1) 0xFFFF } ∧ Told s t 0 4 1 0 0 (BitVec.ofNat 64 (s.audit s.arg.n).cell) ∧ kvHas t.audits s.arg.n = false) := by
  have haudit := State.shadowSigned_audit h
  have hsigs : ((s.shadowSigned s.arg.n).audit s.arg.n).sigs = [o, z, signature (s.shadowOut s.arg.n)] := by
    rw [State.shadowSigned_sigs h, hx, List.cons_append, List.singleton_append]
  have hcells : ((s.shadowSigned s.arg.n).audit s.arg.n).cells = (s.audit s.arg.n).cells := by rw [haudit]
  have hcell : ((s.shadowSigned s.arg.n).audit s.arg.n).cell = (s.audit s.arg.n).cell := by rw [haudit]
  have hregs : (s.shadowSigned s.arg.n).regs = s.regs := s.dropShadow_regs _
  have hcycle : (s.shadowSigned s.arg.n).cycle = s.cycle := s.dropShadow_cycle _
  have hover := exec_shadowComplete_over hh h hu
  refine ⟨fun he => ⟨_, hover.trans (congrArg _ ((State.verdict_shadow_wrong hsigs he).trans (by rw [hcells]))), ?_⟩,
    fun he hz => ⟨_, hover.trans (congrArg _ ((State.verdict_cell_wrong hsigs he hz).trans (by rw [hcell]))), ?_⟩,
    fun he hz => ⟨_, hover.trans (congrArg _ (State.verdict_unresolved hsigs he hz)), ?_, ?_, kvHas_unresolved _ _⟩⟩
  · exact freeAudit_quarantine _ _ _
  · exact freeAudit_quarantine _ _ _
  · exact (State.unresolved_regs _ _).trans (congrArg (fun r : Regs => { r with unr := min (r.unr + 1) 0xFFFF }) hregs)
  · rw [← hcell]
    exact State.told_unresolved hcycle

end

theorem shadowAbandon_ends (hs : SampleStands s)
    (hu : s.has (shadowName s.arg.n) = false ∨ s.unitsBusy (s.actor (shadowName s.arg.n)) = false) : Happens s .shadowAbandon fun t =>
    kvHas t.audits s.arg.n = false ∧ t.has (shadowName s.arg.n) = false ∧ t.regs = { s.regs with aban := min (s.regs.aban + 1) 0xFFFF } := by
  obtain ⟨u, hx, hgone, hregs⟩ := exec_shadowAbandon_ends h hs hu
  rw [← hregs]
  exact ⟨_, hx, kvHas_abandonSample _ _, (u.has_abandonSample _ _).trans hgone, u.abandonSample_regs _⟩

end

end

end Sys2Proof.Machine

open Sys2Proof Sys2Proof.Machine

/-- Settles O52: each clause is the equation of its event for one way that it can go; the state that a reclaim leaves is rid of the actor because
each table that `release` goes through is filtered by its name. -/
theorem lifeAndAuditEvents : Obligations.LifeAndAuditEvents := by
  unfold Obligations.LifeAndAuditEvents
  intro s g q n a
  refine ⟨lifeEvents_next, fun q sup gen fresh => State.create_no_job, fun c => spawnAnswer_root_refused,
    fun hk => ⟨exec_spawnAnswer_orphan hk, fun c ha hc => spawnAnswer_refused hk ha hc, fun t ha hc => exec_spawnAnswer_asks hk ha hc,
      fun t names words ha hc hat hs hl hm => spawnAnswer_made hk ha hc hat hs hl hm⟩,
    fun hp => ⟨linkAnswer_granted hp, exec_linkAnswer_refused hp⟩, fun hp => ⟨exec_linkAnswer_ends hp, ?ties⟩, exec_reclaim_skip,
    fun hh hst => ⟨exec_reclaim_waits ⟨hh, hst⟩, fun hf hu hn => ⟨exec_reclaim_boot hf hu ⟨hh, hst⟩, ?reclaims⟩⟩, exec_restart_none, ?restarts,
    exec_restartRetry_none, ?retries, ?audits⟩
  case ties =>
    intro hf hx
    refine ⟨fun hy hl hm => ?_, fun hy hl hm hfull => ?_⟩
    · rw [exec_linkAnswer_request hp hf, State.tie_nobody hx hl hm hy]
    · rw [exec_linkAnswer_request hp hf, State.tie_full hx hl hm hy (by simpa using hfull)]
  case reclaims =>
    intro hb
    obtain ⟨v, hx⟩ := exec_reclaim_ends hf hu ⟨hh, hst⟩ hb
    obtain ⟨hgone, hheld, hallocs, hcells⟩ := v.ridOf_release hn
    exact ⟨_, hgone, hheld, hallocs, hcells, hx⟩
  case restarts =>
    intro k hk
    have hx := exec_restart_one hk
    refine ⟨fun he => hx.trans (congrArg _ (State.restartEnt_none he)), fun e he => ⟨fun h => hx.trans (congrArg _ (State.restartEnt_skip he h)), fun ha hst =>
      ⟨fun h0 h1 h2 => hx.trans (congrArg _ (State.restartEnt_stops he ha hst h0 h1 h2)), fun h => ⟨fun c hc => ?_, fun t m w hc => ?_⟩⟩⟩⟩
    · exact hx.trans (congrArg _ (State.restartEnt_fails he ha hst h hc))
    · exact hx.trans (congrArg _ (State.restartEnt_made he ha hst h hc))
  case retries =>
    intro t e ht he
    exact ⟨exec_restartRetry_skip ht he, fun hst ha hfull => exec_restartRetry_full ht he hst ha (SupTab.count_full hfull),
      fun hst ha hroom => exec_restartRetry_room ht he hst ha (SupTab.count_room hroom)⟩
  case audits =>
    intro b x h spots
    refine ⟨fun hb => ⟨exec_shadowRun_none hb, exec_shadowComplete_none (.inr hb), exec_shadowAbandon_none hb⟩, fun hb => ⟨fun hp => shadowRun_abandons hb ((s.shadowPlace_eq b).trans hp),
      fun p hp => shadowRun_starts hb ((s.shadowPlace_eq b).trans hp), fun hh => exec_shadowComplete_none (.inl hh), fun hh => exec_shadowComplete_waits hh hb,
      fun o hh hu _ hx => shadowComplete_first hb hh hu hx, fun o z hh hu _ hx => shadowComplete_second hb hh hu hx, ?other, ?stands⟩⟩
    case other =>
      rintro (h | h | ⟨hf, h⟩)
      · exact exec_shadowAbandon_other (.inl h)
      · exact exec_shadowAbandon_other (.inr h)
      · exact exec_shadowAbandon_gone hf h
    case stands =>
      intro ha hi hrun
      have hs : SampleStands s := ⟨ha, hi, hrun⟩
      exact ⟨fun hu => shadowAbandon_ends hb hs (hu.imp_right And.left), exec_shadowAbandon_waits hb hs⟩
end

