-- ==== Sys2Proof/Proofs/RoamingContexts.lean ====
section
/-! PROOFS. Contexts that are fetched into a slot, and slots that other cells offer (14 R309, R313). -/

namespace Sys2Proof.Machine

-- Sorted lists -----------------------------------------------------------------------------------------------------

theorem mem_insertBy {α : Type} {key : α → Nat} {v w : α} {l : List α} : w ∈ insertBy key v l ↔ w = v ∨ w ∈ l := by
  induction l with
  | nil => rw [insertBy, List.mem_singleton, List.mem_nil_iff, or_false]
  | cons x r ih =>
    rw [insertBy]
    split
    · exact List.mem_cons
    · rw [List.mem_cons, ih, List.mem_cons, or_left_comm]
theorem mem_sortBy {α : Type} {key : α → Nat} {w : α} {l : List α} : w ∈ sortBy key l ↔ w ∈ l := by
  induction l with
  | nil => rfl
  | cons x r ih => rw [sortBy, mem_insertBy, ih, List.mem_cons]

-- CONTEXT_FETCH (R313) ---------------------------------------------------------------------------------------------

/-- An actor whose context stands in slot `k` of cell `c`. -/
def Actor.inSlot (a : Actor) (c k : Nat) : Actor := { a with rc := true, rcell := c, rslot := k, fetching := false, offer := none }
/-- The roaming context of `s.arg` has no slot, and runs or is to run. -/
def Comes (s : State) : Prop :=
  s.has s.arg.actor = true ∧ (s.actor s.arg.actor).roaming = true ∧ (s.actor s.arg.actor).rc = false ∧
    ((s.actor s.arg.actor).st = .ready ∨ (s.actor s.arg.actor).st = .active)

section
variable {s : State}

theorem comes_iff : Comes s ↔ (s.has s.arg.actor && (s.actor s.arg.actor).roaming && !(s.actor s.arg.actor).rc &&
    ((s.actor s.arg.actor).st == .ready || (s.actor s.arg.actor).st == .active)) = true := by
  simp [Comes, and_assoc]
/-- A context that needs no slot is no more fetched. -/
theorem contextFetch_ends (h : ¬ Comes s) : Happens s .contextFetch fun t => t.mem = s.mem ∧
    (s.has s.arg.actor = true → t.actor s.arg.actor = { s.actor s.arg.actor with name := s.arg.actor, fetching := false }) := by
  refine ⟨s.modActor s.arg.actor fun b => { b with fetching := false }, if_pos ?_, State.modActor_mem _ _ _, fun hh => State.actor_modActor _ hh⟩
  rwa [Bool.not_eq_true', ← Bool.not_eq_true, ← comes_iff]

section
variable (h : Comes s)
include h

theorem comes_guard : ¬ (!(s.has s.arg.actor && (s.actor s.arg.actor).roaming && !(s.actor s.arg.actor).rc &&
    ((s.actor s.arg.actor).st == .ready || (s.actor s.arg.actor).st == .active))) = true := by
  rw [comes_iff.1 h]
  decide
theorem exec_contextFetch_slot {k : Nat} {out : Option ActorName}
    (hv : s.slotVictim (s.actor s.arg.actor).cell (s.actor s.arg.actor) = some (k, out)) :
    exec .contextFetch s = .next (s.takeSlot (s.actor s.arg.actor) (s.actor s.arg.actor).cell k out) :=
  (if_neg (comes_guard h)).trans (by rw [hv])
/-- While no slot can be had the fetch comes again, and an invocation that is to start is offered to other cells later. -/
theorem exec_contextFetch_waits (hv : s.slotVictim (s.actor s.arg.actor).cell (s.actor s.arg.actor) = none) :
    exec .contextFetch s = .next (if (s.actor s.arg.actor).offer.isSome ∨ (s.actor s.arg.actor).st = .active then s.post 16 .contextFetch s.arg else
      ((s.post 16 .contextFetch s.arg).freshId.setActor { s.actor s.arg.actor with offer := some s.nextId }).post 1024 .roamingOffer
        { actor := s.arg.actor, n := s.nextId }) := by
  refine (if_neg (comes_guard h)).trans ?_
  rw [hv]
  simp only [Bool.or_eq_true, beq_iff_eq]
  rw [apply_ite Host.Outcome.next]
  rfl
/-- The context that leaves its slot to another is written back. -/
theorem contextFetch_evicts {j : Nat} {m : ActorName} (hn : (s.actor s.arg.actor).name = s.arg.actor)
    (hv : s.slotVictim (s.actor s.arg.actor).cell (s.actor s.arg.actor) = some (j, some m)) (hm : m ≠ s.arg.actor) (hh : s.has m = true) :
    Happens s .contextFetch fun t => t.actor s.arg.actor = (s.actor s.arg.actor).inSlot (s.actor s.arg.actor).cell j ∧
      t.actor m = { s.actor m with name := m, rc := false } := by
  refine ⟨_, exec_contextFetch_slot h hv, State.actor_setActor_of_name _ hn, ?_⟩
  exact (State.actor_setActor_other _ ((s.actor s.arg.actor).inSlot _ j) m (hm.trans_eq hn.symm)).trans (State.actor_modActor _ hh)

end

-- ROAMING_OFFER (R309) ---------------------------------------------------------------------------------------------

theorem State.openSlot_eq_some {c k : Nat} (h : s.openSlot c = some k) : k < 8 ∧ ∀ y ∈ s.roamers c, y.rslot ≠ k := by
  refine ⟨List.mem_range.1 (List.mem_of_find?_eq_some h), fun y hy hk => ?_⟩
  have hfree := List.find?_some h
  rw [Bool.not_eq_true', List.any_eq_false] at hfree
  exact hfree y hy (beq_iff_eq.2 hk)
theorem State.openSlot_eq_none {c k : Nat} (h : s.openSlot c = none) (hk : k < 8) : ∃ y ∈ s.roamers c, y.rslot = k := by
  simpa using List.find?_eq_none.1 h k (List.mem_range.2 hk)
/-- A cell that may run the next invocation of an actor whose anchor is another cell of the die. -/
def State.mayRun (s : State) (n : ActorName) (c : Nat) : Bool :=
  dieOf c == dieOf (s.actor n).cell && c != (s.actor n).cell && (s.cell c).health == 0 && !(s.cell c).boot && !(s.cell c).gated && (s.cell c).drain != some (jobOf n)
/-- The first such cell, nearest first, with a slot that is free. -/
def State.firstOffer (s : State) (n : ActorName) : Option (Nat × Nat) :=
  (sortBy (fun c => dist (s.actor n).cell c) ((List.range 512).filter (s.mayRun n))).findSome? fun c => (s.openSlot c).map fun k => (c, k)
/-- Slot `j` of cell `c` is free for the next invocation of an actor anchored elsewhere. -/
def State.OpenFor (s : State) (n : ActorName) (c j : Nat) : Prop :=
  c < 512 ∧ dieOf c = dieOf (s.actor n).cell ∧ c ≠ (s.actor n).cell ∧ (s.cell c).health = 0 ∧ (s.cell c).boot = false ∧
    (s.cell c).gated = false ∧ (s.cell c).drain ≠ some (jobOf n) ∧ j < 8 ∧ ∀ y ∈ s.roamers c, y.rslot ≠ j
theorem State.mayRun_iff {n : ActorName} {c : Nat} : s.mayRun n c = true ↔ dieOf c = dieOf (s.actor n).cell ∧ c ≠ (s.actor n).cell ∧
    (s.cell c).health = 0 ∧ (s.cell c).boot = false ∧ (s.cell c).gated = false ∧ (s.cell c).drain ≠ some (jobOf n) := by
  simp [State.mayRun, and_assoc]
theorem State.firstOffer_open {n : ActorName} {c k : Nat} (h : s.firstOffer n = some (c, k)) : s.OpenFor n c k := by
  obtain ⟨d, hd, hslot⟩ := List.exists_of_findSome?_eq_some h
  obtain ⟨j, hj, hpair⟩ := Option.map_eq_some_iff.1 hslot
  obtain ⟨rfl, rfl⟩ := Prod.mk.inj hpair
  obtain ⟨hrange, hrun⟩ := List.mem_filter.1 (mem_sortBy.1 hd)
  obtain ⟨hdie, hne, hhealth, hboot, hgated, hdrain⟩ := State.mayRun_iff.1 hrun
  exact ⟨List.mem_range.1 hrange, hdie, hne, hhealth, hboot, hgated, hdrain, State.openSlot_eq_some hj⟩
theorem State.not_openFor_of_firstOffer {n : ActorName} (h : s.firstOffer n = none) (c j : Nat) : ¬ s.OpenFor n c j := by
  rintro ⟨hc, hdie, hne, hhealth, hboot, hgated, hdrain, hj, hfree⟩
  have hmem : c ∈ sortBy (fun c => dist (s.actor n).cell c) ((List.range 512).filter (s.mayRun n)) :=
    mem_sortBy.2 (List.mem_filter.2 ⟨List.mem_range.2 hc, State.mayRun_iff.2 ⟨hdie, hne, hhealth, hboot, hgated, hdrain⟩⟩)
  obtain ⟨y, hy, hslot⟩ := State.openSlot_eq_none (Option.map_eq_none_iff.1 (List.findSome?_eq_none_iff.1 h c hmem)) hj
  exact hfree y hy hslot

/-- The offer of `s.arg` still stands: its context comes, and is to start an invocation. -/
def OfferStands (s : State) : Prop := Comes s ∧ (s.actor s.arg.actor).st = .ready ∧ (s.actor s.arg.actor).offer = some s.arg.n

theorem offerStands_iff : OfferStands s ↔ (s.has s.arg.actor && (s.actor s.arg.actor).roaming && !(s.actor s.arg.actor).rc &&
    (s.actor s.arg.actor).st == .ready && (s.actor s.arg.actor).offer == some s.arg.n) = true := by
  simp only [OfferStands, Comes, Bool.and_eq_true, Bool.not_eq_true', beq_iff_eq]
  tauto
theorem exec_roamingOffer_over (h : ¬ OfferStands s) : exec .roamingOffer s = .next s := by
  show execRoamingOffer s = _
  unfold execRoamingOffer
  dsimp only
  rw [if_pos]
  rwa [Bool.not_eq_true', ← Bool.not_eq_true, ← offerStands_iff]

section
variable (h : OfferStands s)
include h

theorem offerStands_guard : ¬ (!(s.has s.arg.actor && (s.actor s.arg.actor).roaming && !(s.actor s.arg.actor).rc &&
    (s.actor s.arg.actor).st == .ready && (s.actor s.arg.actor).offer == some s.arg.n)) = true := by
  rw [offerStands_iff.1 h]
  decide
theorem exec_roamingOffer_taken {c k : Nat} (ho : s.firstOffer s.arg.actor = some (c, k)) :
    exec .roamingOffer s = .next (s.setActor ((s.actor s.arg.actor).inSlot c k)) := by
  show execRoamingOffer s = _
  unfold execRoamingOffer
  dsimp only
  rw [if_neg (offerStands_guard h)]
  unfold State.firstOffer State.mayRun at ho
  rw [ho]
  rfl
theorem exec_roamingOffer_waits (ho : s.firstOffer s.arg.actor = none) : exec .roamingOffer s = .next (s.post 16 .roamingOffer s.arg) := by
  show execRoamingOffer s = _
  unfold execRoamingOffer
  dsimp only
  rw [if_neg (offerStands_guard h)]
  unfold State.firstOffer State.mayRun at ho
  rw [ho]

/-- An open slot is taken as soon as there is one. -/
theorem roamingOffer_open (ho : ∃ c j, s.OpenFor s.arg.actor c j) :
    ∃ c j, s.OpenFor s.arg.actor c j ∧ exec .roamingOffer s = .next (s.setActor ((s.actor s.arg.actor).inSlot c j)) := by
  cases hf : s.firstOffer s.arg.actor with
  | none =>
    obtain ⟨c, j, hopen⟩ := ho
    exact absurd hopen (State.not_openFor_of_firstOffer hf c j)
  | some p => exact ⟨p.1, p.2, State.firstOffer_open hf, exec_roamingOffer_taken h hf⟩
theorem roamingOffer_closed (hn : ∀ c j, ¬ s.OpenFor s.arg.actor c j) : exec .roamingOffer s = .next (s.post 16 .roamingOffer s.arg) := by
  cases hf : s.firstOffer s.arg.actor with
  | none => exact exec_roamingOffer_waits h hf
  | some p => exact absurd (State.firstOffer_open hf) (hn p.1 p.2)

end

end

end Sys2Proof.Machine
end

