-- ==== Sys2Proof/Proofs/ActorMoves.lean ====
section
/-! PROOFS. Actors that leave their cells, are parked, and come back (14 R311, R323; 15 R336): what each move leaves of the state, and
PREEMPT and UNPARK. -/

namespace Sys2Proof.Machine

section
variable {s : State} {a : Actor}

-- What moves with an actor (15 R336) -------------------------------------------------------------------------------

theorem State.lift_bs (s : State) (a : Actor) : (s.lift a).bs = s.bytes (regionKey a) (regionSize a) := by
  rw [State.lift]
  split <;> rfl
theorem State.wakeCell_of_not_gated {c : Nat} (h : (s.cell c).gated = false) : s.wakeCell c = s := by
  rw [State.wakeCell, h]
  rfl

/-- An actor that becomes READY keeps all but its state. -/
theorem State.refresh_actor {n : ActorName} (hn : (s.actor n).name = n) :
    ∃ st, (st = (s.actor n).st ∨ st = .ready) ∧ (s.refresh n).actor n = { s.actor n with st := st } := by
  unfold State.refresh
  dsimp only
  split
  · refine ⟨.ready, .inr rfl, (State.actor_setActor_of_name s rfl).trans ?_⟩
    generalize s.actor n = b at hn ⊢
    subst hn
    rfl
  · exact ⟨_, .inl rfl, rfl⟩

/-- An actor that is put down at a place. -/
def Actor.movedTo (a : Actor) (p : Spot) : Actor := { a with cell := p.cell, seat := p.seat, base := p.base, st := .idle, pLatch := none }
theorem regionKey_movedTo {p : Spot} (hr : a.roaming = false) : regionKey (a.movedTo p) = spKey p.cell p.base := by
  rw [regionKey, Actor.movedTo, hr]
  rfl
/-- What an actor that is put down leaves of the state, but for its turning READY. -/
theorem State.putDown_eq (s : State) (a : Actor) (p : Spot) (l : Lifted) (cool : Option Nat) : ∃ u : State, s.putDown a p l cool = u.refresh a.name ∧
    u.actors = (s.setActor (a.movedTo p)).actors ∧ u.mem = Memory.write s.mem (regionKey (a.movedTo p)) l.bs ∧ u.pairs = s.pairs ∧ u.regs = s.regs :=
  ⟨_, rfl, rfl, rfl, rfl, rfl⟩

/-- An actor stands at a place, between invocations, and its region holds bytes. -/
def State.StandsAt (t : State) (a : Actor) (p : Spot) (bs : List Byte) : Prop :=
  (t.actor a.name).cell = p.cell ∧ (t.actor a.name).seat = p.seat ∧ (t.actor a.name).base = p.base ∧
    ((t.actor a.name).st = .idle ∨ (t.actor a.name).st = .ready) ∧ t.bytes (spKey p.cell p.base) (regionSize a) = bs
theorem State.putDown_stands {p : Spot} {l : Lifted} {cool : Option Nat} (hw : Memory.wf s.mem = true) (hr : a.roaming = false)
    (hl : l.bs.length = regionSize a) : (s.putDown a p l cool).StandsAt a p l.bs := by
  obtain ⟨u, hput, hacts, hmem, -⟩ := s.putDown_eq a p l cool
  have hact : u.actor a.name = a.movedTo p := (State.actor_of_actors_eq hacts a.name).trans (State.actor_setActor s (a.movedTo p))
  obtain ⟨st, hst, href⟩ := State.refresh_actor (s := u) (n := a.name) (by rw [hact]; rfl)
  obtain ⟨_, hkeep⟩ := u.refresh_eq a.name
  have hwritten : (u.refresh a.name).mem = Memory.write s.mem (spKey p.cell p.base) l.bs := by
    rw [hkeep, ← regionKey_movedTo hr]
    exact hmem
  rw [hact] at hst href
  rw [hput, State.StandsAt, href, ← hl]
  exact ⟨rfl, rfl, rfl, hst, (State.bytes_of_write hw hwritten).1⟩

-- Parking (R311) ---------------------------------------------------------------------------------------------------

theorem State.park_eq (s : State) (a : Actor) : ∃ sp cs pl, s.park a =
    ({ (s.setActor { a with st := .parked, pLatch := pl }).put (parkKey a.name) (s.bytes (regionKey a) (regionSize a)) with spois := sp, cells := cs } : State).post
      64 .unpark { actor := a.name } := by
  rw [← s.lift_bs a]
  exact ⟨_, _, _, rfl⟩
/-- A parked actor's region lies in DRAM, and it is to be granted a seat. -/
theorem State.park_parks (hw : Memory.wf s.mem = true) : ((s.park a).actor a.name).st = .parked ∧
    (s.park a).bytes (parkKey a.name) (regionSize a) = s.bytes (regionKey a) (regionSize a) ∧ Awaits s (s.park a) 64 .unpark { actor := a.name } := by
  obtain ⟨sp, cs, pl, hpark⟩ := s.park_eq a
  have hact : (s.park a).actor a.name = { a with st := .parked, pLatch := pl } := by
    rw [hpark]
    exact State.actor_setActor s { a with st := .parked, pLatch := pl }
  have hbytes := (State.bytes_of_write (t := s.park a) (k := parkKey a.name) hw (by rw [hpark]; rfl)).1
  rw [State.bytes_length _ _ hw] at hbytes
  refine ⟨congrArg Actor.st hact, hbytes, ?_⟩
  rw [hpark]
  exact awaits_post rfl _ _ _

-- PREEMPT (R323) ---------------------------------------------------------------------------------------------------

/-- Cell `s.arg.n` drains of job `s.arg.m`. -/
def State.draining (s : State) : State := s.modCell s.arg.n fun e => { e with drain := some s.arg.m }
/-- An actor of that job that has to leave, once it is between invocations. -/
def State.mustLeave (s : State) (a : Actor) : Bool :=
  a.shadow.isNone && !isBoot a.name && (s.arg.flag || jobOf a.name == s.arg.m) && (a.st == .idle || a.st == .ready || a.st == .active || a.st == .transit)
/-- An actor that may leave now. -/
def State.mayLeave (s : State) (a : Actor) : Bool := (a.st == .idle || a.st == .ready) && !s.unitsBusy a && !a.dbg.stop
/-- The actors seated in the cell that have to leave it. -/
def State.seatsToClear (s : State) : List Actor := (s.seated s.arg.n).filter s.mustLeave
/-- The roaming actors whose contexts it holds that have to leave. -/
def State.slotsToClear (s : State) : List Actor :=
  s.all.filter fun a => a.roaming && s.mustLeave a && (if s.arg.flag then a.cell == s.arg.n else a.rc && a.rcell == s.arg.n)
/-- The cell once all of them that may have left. -/
def State.cleared (s : State) : State :=
  (s.slotsToClear.filter s.mayLeave).foldl (fun (t : State) a => if s.arg.flag then t.leave a else t.setActor { t.actor a.name with name := a.name, rc := false })
    ((s.seatsToClear.filter s.mayLeave).foldl State.leave s)

theorem seatsToClear_one {y : Actor} (hs : s.draining.seated s.arg.n = [y]) (hm : s.draining.mustLeave y = true) :
    s.draining.seatsToClear = [y] := by
  rw [State.seatsToClear, show s.draining.arg.n = s.arg.n from rfl, hs, List.filter_cons_of_pos hm]
  rfl

section
variable (hf : s.arg.flag = false)
include hf

theorem exec_preempt_eq : exec .preempt s =
    .next (if (s.draining.seatsToClear ++ s.draining.slotsToClear).all (fun a => s.draining.mayLeave a && !s.hostDuty 3) then s.draining.cleared
      else s.draining.cleared.post 64 .preempt s.arg) := by
  show execPreempt s = _
  unfold execPreempt
  rw [hf]
  rfl

variable (hv : (s.draining.all.filter fun a => a.roaming && a.rc && a.rcell == s.arg.n) = [])
include hv

theorem slotsToClear_of_no_visitor : s.draining.slotsToClear = [] := by
  have hflag : s.draining.arg.flag = false := hf
  rw [List.filter_eq_nil_iff] at hv
  simp only [State.slotsToClear, List.filter_eq_nil_iff, hflag, Bool.false_eq_true, if_false, Bool.and_eq_true]
  rintro x hx ⟨⟨hroam, -⟩, hrc, hcell⟩
  exact hv x hx (by rw [hroam, hrc]; exact hcell)
theorem cleared_of_no_visitor : s.draining.cleared = (s.draining.seatsToClear.filter s.draining.mayLeave).foldl State.leave s.draining := by
  rw [State.cleared, slotsToClear_of_no_visitor hf hv]
  rfl
/-- A cell with nobody in it has drained. -/
theorem exec_preempt_empty (hs : s.draining.seated s.arg.n = []) : exec .preempt s = .next s.draining := by
  have hseats : s.draining.seatsToClear = [] := congrArg (List.filter s.draining.mustLeave) hs
  rw [exec_preempt_eq hf, cleared_of_no_visitor hf hv, slotsToClear_of_no_visitor hf hv, hseats]
  rfl

section
variable {y : Actor} (hs : s.draining.seated s.arg.n = [y]) (hm : s.draining.mustLeave y = true)
include hs hm

/-- An actor that may not leave yet is looked at again; the retry after 64 cycles is log 39's. -/
theorem exec_preempt_retries (hb : s.draining.mayLeave y = false) : exec .preempt s = .next (s.draining.post 64 .preempt s.arg) := by
  rw [exec_preempt_eq hf, cleared_of_no_visitor hf hv, slotsToClear_of_no_visitor hf hv, seatsToClear_one hs hm]
  simp only [List.append_nil, List.all_cons, List.filter_cons, hb, Bool.false_and, Bool.false_eq_true, if_false, List.filter_nil, List.foldl_nil]
theorem exec_preempt_leaves (hb : s.draining.mayLeave y = true) (hd : s.hostDuty 3 = false) : exec .preempt s = .next (s.draining.leave y) := by
  rw [exec_preempt_eq hf, cleared_of_no_visitor hf hv, slotsToClear_of_no_visitor hf hv, seatsToClear_one hs hm]
  simp only [List.append_nil, List.all_cons, List.filter_cons, hb, hd, List.all_nil, Bool.not_false, Bool.and_self, if_true, List.filter_nil, List.foldl_cons,
    List.foldl_nil]

end

end

theorem State.mustLeave_of_job {y : Actor} (hs : y.shadow = none) (hb : isBoot y.name = false) (hj : jobOf y.name = s.arg.m)
    (hst : y.st = .idle ∨ y.st = .ready ∨ y.st = .active ∨ y.st = .transit) : s.mustLeave y = true := by
  simp only [State.mustLeave, hs, hb, hj]
  rcases hst with h | h | h | h <;> simp [h]
theorem State.not_mayLeave {y : Actor} (hst : y.st = .active ∨ y.st = .transit) : s.mayLeave y = false := by
  rcases hst with h | h <;> simp [State.mayLeave, h]
theorem State.mayLeave_between {y : Actor} (hst : y.st = .idle ∨ y.st = .ready) (hu : s.unitsBusy y = false) (hd : y.dbg.stop = false) :
    s.mayLeave y = true := by
  rcases hst with h | h <;> simp [State.mayLeave, h, hu, hd]
theorem State.leave_to (hd : s.hostDuty 3 = false) {p : Spot} (hp : s.placeMove a = some p) : s.leave a = s.relocate a p := by
  simp only [State.leave, hd, hp, Bool.false_eq_true, if_false]
theorem State.leave_nowhere (hd : s.hostDuty 3 = false) (hp : s.placeMove a = none) (hr : a.roaming = false) : s.leave a = s.park a := by
  simp only [State.leave, hd, hp, hr, Bool.false_eq_true, if_false]

-- UNPARK (R311) ----------------------------------------------------------------------------------------------------

/-- The actor of `s.arg` has a record and is parked. -/
def Unparks (s : State) : Prop := s.has s.arg.actor = true ∧ (s.actor s.arg.actor).st = .parked

theorem exec_unpark_other (h : s.has s.arg.actor = false ∨ (s.actor s.arg.actor).st ≠ .parked) : exec .unpark s = .next s := by
  have hb : (s.has s.arg.actor && (s.actor s.arg.actor).st == .parked) = false := by
    rcases h with h | h
    · rw [h, Bool.false_and]
    · rw [beq_false_of_ne h, Bool.and_false]
  show execUnpark s = _
  simp only [execUnpark, hb, Bool.not_false, if_true]

section
variable (h : Unparks s)
include h

theorem unparks_guard : (s.has s.arg.actor && (s.actor s.arg.actor).st == .parked) = true := by
  obtain ⟨hh, hst⟩ := h
  rw [hh, hst]
  rfl
theorem exec_unpark_asks (hd : s.hostDuty 3 = true) : exec .unpark s = .next (s.askMove (s.actor s.arg.actor)) := by
  show execUnpark s = _
  simp only [execUnpark, unparks_guard h, hd, Bool.not_true, Bool.false_eq_true, if_false, if_true]
variable (hd : s.hostDuty 3 = false)
include hd
theorem exec_unpark_waits (hp : s.placeMove (s.actor s.arg.actor) = none) : exec .unpark s = .next (s.post 64 .unpark s.arg) := by
  show execUnpark s = _
  simp only [execUnpark, unparks_guard h, hd, hp, Bool.not_true, Bool.false_eq_true, if_false]
theorem exec_unpark_moves {p : Spot} (hp : s.placeMove (s.actor s.arg.actor) = some p) : exec .unpark s = .next (s.relocate (s.actor s.arg.actor) p) := by
  show execUnpark s = _
  simp only [execUnpark, unparks_guard h, hd, hp, Bool.not_true, Bool.false_eq_true, if_false]

end

/-- A parked actor that moves to a cell with power stands there, its region brought back from DRAM. -/
theorem State.relocate_parked {p : Spot} (hst : a.st = .parked) (hr : a.roaming = false) (hg : (s.cell p.cell).gated = false) (hw : Memory.wf s.mem = true) :
    (s.relocate a p).StandsAt a p (s.bytes (parkKey a.name) (regionSize a)) := by
  have hkey : regionKey a = parkKey a.name := by
    rw [regionKey, hr, hst]
    rfl
  have hbs : ((s.forgetName a.name).lift a).bs = s.bytes (parkKey a.name) (regionSize a) := by
    rw [State.lift_bs, hkey]
    rfl
  have hmoves : s.relocate a p = (s.forgetName a.name).putDown a p ((s.forgetName a.name).lift a) none := by
    simp only [State.relocate, State.wakeCell_of_not_gated hg, hr, hst, beq_self_eq_true, Bool.false_eq_true, if_false, if_true]
  rw [hmoves, ← hbs]
  exact State.putDown_stands hw hr (by rw [hbs, State.bytes_length _ _ hw])

end

end Sys2Proof.Machine
end

