-- ==== Sys2Proof/Proofs/SwapInstants.lean ====
section
/-! PROOFS. Azimuth's instants (15 R331, R332, R334, R339): the pairs that evaluate, the cells that lose their power, and what each pair decides
once it has evaluated. -/

namespace Sys2Proof.Machine

-- Keyed maps -------------------------------------------------------------------------------------------------------

theorem kvGet_of_mem {α : Type} {d : α} {l : List (Nat × α)} (hn : (l.map (·.1)).Nodup) {e : Nat × α} (he : e ∈ l) : kvGet d l e.1 = e.2 := by
  induction l with
  | nil => exact absurd he List.not_mem_nil
  | cons x l ih =>
    rw [List.map_cons, List.nodup_cons] at hn
    obtain ⟨hx, hl⟩ := hn
    rw [kvGet]
    rcases List.mem_cons.1 he with rfl | he
    · rw [if_pos rfl]
    · rw [if_neg fun h => hx (List.mem_map.2 ⟨e, he, h.symm⟩), ih hl he]

section
variable {s : State}

-- Power gates (R339) -----------------------------------------------------------------------------------------------

/-- No actor is seated in a cell, has its context there, or is anchored there. -/
def State.nobodyIn (s : State) (c : Nat) : Bool := (s.seated c).isEmpty && (s.roamers c).isEmpty && !(s.all.any fun a => a.roaming && a.cell == c)
/-- A cell past an instant: one that has nothing to do counts it, and loses its power at the count of `gate`. -/
def Cell.instant (gate : Nat) (nobody : Bool) (e : Cell) : Cell :=
  if e.boot || e.gated then e
  else if nobody && e.side.isEmpty && e.xfers.isEmpty then { e with idle := e.idle + 1, gated := gate != 0 && decide (gate ≤ e.idle + 1) }
  else { e with idle := 0 }

theorem State.gateCell_eq (s : State) (c : Nat) : ∃ cs, s.gateCell c = { s with cells := cs } := by
  unfold State.gateCell
  dsimp only
  split
  · exact ⟨_, rfl⟩
  · split
    · exact ⟨_, rfl⟩
    · split <;> exact ⟨_, rfl⟩
theorem State.cell_gateCell (s : State) (c : Nat) : (s.gateCell c).cell c = (s.cell c).instant s.regs.gate (s.nobodyIn c) := by
  unfold State.gateCell Cell.instant State.nobodyIn
  dsimp only
  split
  · rfl
  · split
    · exact State.cell_setCell _ _ _
    · split
      · next h => rw [← h]
      · exact State.cell_setCell _ _ _
theorem State.cell_gateCell_other (s : State) {c k : Nat} (h : k ≠ c) : (s.gateCell c).cell k = s.cell k := by
  unfold State.gateCell
  dsimp only
  split
  · rfl
  · split
    · exact State.cell_setCell_other _ _ _ _ h
    · split
      · rfl
      · exact State.cell_setCell_other _ _ _ _ h
/-- Gating the cells of a list one after another leaves each past the instant, and every other cell as it was. -/
theorem State.foldl_gateCell_eq {l : List Nat} (hl : l.Nodup) : ∀ s : State, ∃ cs, l.foldl State.gateCell s = { s with cells := cs } ∧
    ∀ c, kvGet {} cs c = if c ∈ l then (s.cell c).instant s.regs.gate (s.nobodyIn c) else s.cell c := by
  induction l with
  | nil => exact fun s => ⟨s.cells, rfl, fun c => rfl⟩
  | cons k l ih =>
    intro s
    obtain ⟨hk, hl⟩ := List.nodup_cons.1 hl
    obtain ⟨cs, hcs⟩ := s.gateCell_eq k
    obtain ⟨cs', hfold, hcell⟩ := ih hl (s.gateCell k)
    have hnobody : ∀ c, (s.gateCell k).nobodyIn c = s.nobodyIn c := fun c => by rw [hcs]; rfl
    have hregs : (s.gateCell k).regs = s.regs := by rw [hcs]
    refine ⟨cs', by rw [List.foldl_cons, hfold, hcs], fun c => ?_⟩
    rw [hcell c, hnobody, hregs]
    by_cases hc : c = k
    · subst hc
      rw [if_neg hk, if_pos List.mem_cons_self, State.cell_gateCell]
    · rw [State.cell_gateCell_other _ hc]
      simp only [List.mem_cons, hc, false_or]

-- SWAP_INSTANT (R332) ----------------------------------------------------------------------------------------------

/-- The state at the next instant, before its pairs evaluate. -/
def State.nextInstant (s : State) : State :=
  { s with regs := { s.regs with inst := (s.regs.inst + 1) % 2 ^ 32 }, lastInst := s.cycle, evalSeats := s.cells.map fun e => (e.1, s.seatsNow e.1) }
/-- The pairs that evaluate at it. -/
def State.pairsToEval (s : State) : List Nat :=
  (pairsAt s.regs.inst).filter fun k => s.regs.azEn && s.takesPart (pairCells k).1 && s.takesPart (pairCells k).2
/-- A pair evaluates at instant `i`. -/
def State.evalPair (i : Nat) (s : State) (k : Nat) : State := { s with pairs := kvSet s.pairs k { kvGet {} s.pairs k with phase := .eval, inst := i } }
theorem State.foldl_evalPair_eq (i : Nat) (l : List Nat) : ∀ s : State, ∃ ps, l.foldl (State.evalPair i) s = { s with pairs := ps } := by
  induction l with
  | nil => exact fun s => ⟨s.pairs, rfl⟩
  | cons k l ih =>
    intro s
    obtain ⟨ps, h⟩ := ih (s.evalPair i k)
    exact ⟨ps, h⟩
/-- With Azimuth off no pair evaluates. -/
theorem State.pairsToEval_off (h : s.regs.azEn = false) : s.nextInstant.pairsToEval = [] := by
  rw [State.pairsToEval, List.filter_eq_nil_iff]
  intro k _
  rw [show s.nextInstant.regs.azEn = s.regs.azEn from rfl, h]
  exact Bool.false_ne_true
/-- Instants go on with `en` 0 (log 47). -/
theorem exec_swapInstant_eq : exec .swapInstant s =
    let u := (List.range 512).foldl State.gateCell (s.nextInstant.pairsToEval.foldl (State.evalPair s.nextInstant.regs.inst) s.nextInstant)
    .next ((u.post 64 .swapEvalEnd {}).post (2 ^ u.regs.ivl) .swapInstant {}) := by
  show execSwapInstant s = _
  unfold execSwapInstant State.pairsToEval State.nextInstant
  generalize List.range 512 = cells
  rfl
theorem exec_swapInstant_leaves : ∃ ps cs, exec .swapInstant s =
      .next ((({ s.nextInstant with pairs := ps, cells := cs } : State).post 64 .swapEvalEnd {}).post (2 ^ s.regs.ivl) .swapInstant {}) ∧
    (s.regs.azEn = false → ps = s.pairs) ∧ ∀ c, kvGet {} cs c = if c < 512 then (s.cell c).instant s.regs.gate (s.nobodyIn c) else s.cell c := by
  obtain ⟨ps, hps⟩ := State.foldl_evalPair_eq s.nextInstant.regs.inst s.nextInstant.pairsToEval s.nextInstant
  obtain ⟨cs, hcs, hcell⟩ := State.foldl_gateCell_eq List.nodup_range { s.nextInstant with pairs := ps }
  refine ⟨ps, cs, ?_, fun h => ?_, fun c => ?_⟩
  · rw [exec_swapInstant_eq, hps, hcs]
    rfl
  · rw [State.pairsToEval_off h] at hps
    exact (congrArg State.pairs hps).symm
  · rw [hcell c]
    simp only [List.mem_range]
    rfl
theorem Cell.instant_off {gate : Nat} {nobody : Bool} {e : Cell} (h : e.boot = true ∨ e.gated = true) : e.instant gate nobody = e :=
  if_pos (Bool.or_eq_true_iff.2 h)
theorem Cell.instant_empty {gate : Nat} {e : Cell} (hb : e.boot = false) (hg : e.gated = false) (hs : e.side = []) (hx : e.xfers = []) :
    e.instant gate true = { e with idle := e.idle + 1, gated := gate != 0 && decide (gate ≤ e.idle + 1) } := by
  simp only [Cell.instant, hb, hg, hs, hx, Bool.or_self, Bool.false_eq_true, if_false, List.isEmpty_nil, Bool.and_self, if_true]
theorem State.nobodyIn_of_empty {c : Nat} (hs : s.seated c = []) (hr : s.roamers c = []) (ha : ∀ y ∈ s.all, y.roaming = true → y.cell ≠ c) :
    s.nobodyIn c = true := by
  have hanchored : (s.all.any fun a => a.roaming && a.cell == c) = false := by
    rw [List.any_eq_false]
    intro y hy hboth
    obtain ⟨hroam, hcell⟩ := Bool.and_eq_true_iff.1 hboth
    exact ha y hy hroam (beq_iff_eq.1 hcell)
  simp only [State.nobodyIn, hs, hr, hanchored, List.isEmpty_nil, Bool.not_false, Bool.and_self]
theorem swapInstant_happens : Happens s .swapInstant fun t => t.regs = { s.regs with inst := (s.regs.inst + 1) % 2 ^ 32 } ∧ t.mem = s.mem ∧ t.actors = s.actors ∧
    t.lastInst = s.cycle ∧ Awaits s t 64 .swapEvalEnd {} ∧ Awaits s t (2 ^ s.regs.ivl) .swapInstant {} ∧ (s.regs.azEn = false → t.pairs = s.pairs) ∧
    (∀ c, (s.cell c).boot = true ∨ (s.cell c).gated = true → t.cell c = s.cell c) ∧
    ∀ c, c < 512 → (s.cell c).boot = false → (s.cell c).gated = false → s.seated c = [] → s.roamers c = [] → (∀ y ∈ s.all, y.roaming = true → y.cell ≠ c) →
      (s.cell c).side = [] → (s.cell c).xfers = [] →
      t.cell c = { s.cell c with idle := (s.cell c).idle + 1, gated := s.regs.gate != 0 && decide (s.regs.gate ≤ (s.cell c).idle + 1) } := by
  obtain ⟨ps, cs, hx, hpairs, hcell⟩ := exec_swapInstant_leaves (s := s)
  refine ⟨_, hx, rfl, rfl, rfl, rfl, ?_, awaits_post rfl _ _ _, hpairs, fun c hoff => (hcell c).trans ?_, fun c hc hb hg hs hr ha hside hxfers => (hcell c).trans ?_⟩
  · exact List.mem_append_left _ (List.mem_append_right _ (List.mem_singleton_self _))
  · rw [Cell.instant_off hoff, ite_self]
  · rw [if_pos hc, State.nobodyIn_of_empty hs hr ha, Cell.instant_empty hb hg hside hxfers]

-- SWAP_EVAL_END (R331, R334) ---------------------------------------------------------------------------------------

/-- The state of pair `k` once it has decided. -/
def State.decided (s : State) (k : Nat) (x : PairSt) : PairSt :=
  match x.phase with
  | .eval => (s.decidePair k x).getD ({ x with phase := .idle } : PairSt).rest
  | .idle => x.rest
  | .freeze | .mark | .copy => x
/-- The steps that its decision brings. -/
def State.freezes (s : State) (k : Nat) (x : PairSt) : List Due :=
  if x.phase = .eval ∧ (s.decidePair k x).isSome then [⟨s.cycle + 1, ⟨.freeze, { n := k }⟩⟩] else []
/-- The pairs once one of them has decided. -/
def State.withDecided (s : State) (ps : List (Nat × PairSt)) (e : Nat × PairSt) : List (Nat × PairSt) :=
  match e.2.phase with
  | .eval | .idle => kvSet ps e.1 (s.decided e.1 e.2)
  | .freeze | .mark | .copy => ps
/-- One pair of SWAP_EVAL_END. -/
def State.decideOne (t : State) (e : Nat × PairSt) : State :=
  match e.2.phase with
  | .eval => match t.decidePair e.1 e.2 with
    | some x => ({ t with pairs := kvSet t.pairs e.1 x } : State).post 1 .freeze { n := e.1 }
    | none => { t with pairs := kvSet t.pairs e.1 ({ e.2 with phase := .idle } : PairSt).rest }
  | .idle => { t with pairs := kvSet t.pairs e.1 e.2.rest }
  | .freeze | .mark | .copy => t
theorem exec_swapEvalEnd_eq : exec .swapEvalEnd s =
    let u := s.pairs.foldl State.decideOne s
    .next { u with cells := u.cells.map fun e => (e.1, { e.2 with seats := e.2.seats.map Seat.halve }), evalSeats := [] } := rfl

/-- A decision looks at neither the other pairs nor the steps to come. -/
theorem State.decidePair_frame (s : State) (ps : List (Nat × PairSt)) (ag : List Due) (k : Nat) (x : PairSt) :
    ({ s with pairs := ps, agenda := ag } : State).decidePair k x = s.decidePair k x := rfl
theorem State.decideOne_eq (s : State) (ps : List (Nat × PairSt)) (ag : List Due) (e : Nat × PairSt) :
    ({ s with pairs := ps, agenda := ag } : State).decideOne e =
      { s with pairs := s.withDecided ps e, agenda := ag ++ s.freezes e.1 e.2 } := by
  unfold State.decideOne State.withDecided State.freezes State.decided
  cases e.2.phase with
  | eval =>
    rw [State.decidePair_frame]
    cases s.decidePair e.1 e.2 with
    | none => simp
    | some x => rfl
  | idle => simp
  | freeze | mark | copy => simp
theorem State.foldl_decideOne_eq (s : State) (l : List (Nat × PairSt)) : ∀ ps ag, l.foldl State.decideOne { s with pairs := ps, agenda := ag } =
    { s with pairs := l.foldl s.withDecided ps, agenda := ag ++ l.flatMap fun e => s.freezes e.1 e.2 } := by
  induction l with
  | nil => intro ps ag; rw [List.flatMap_nil, List.append_nil]; rfl
  | cons e l ih => intro ps ag; rw [List.foldl_cons, State.decideOne_eq, ih, List.flatMap_cons, List.append_assoc]; rfl

theorem State.kvGet_withDecided {ps : List (Nat × PairSt)} {e : Nat × PairSt} (h : kvGet {} ps e.1 = e.2) :
    kvGet {} (s.withDecided ps e) e.1 = s.decided e.1 e.2 := by
  unfold State.withDecided
  split
  · exact kvGet_kvSet_same _ _ _ _
  · exact kvGet_kvSet_same _ _ _ _
  all_goals next hp => rw [h, State.decided, hp]
theorem State.kvGet_withDecided_other {ps : List (Nat × PairSt)} {e : Nat × PairSt} {j : Nat} (h : j ≠ e.1) :
    kvGet {} (s.withDecided ps e) j = kvGet {} ps j := by
  unfold State.withDecided
  split
  · exact kvGet_kvSet_other _ _ _ _ _ h
  · exact kvGet_kvSet_other _ _ _ _ _ h
  all_goals rfl
theorem State.kvGet_foldl_withDecided_other {j : Nat} {l : List (Nat × PairSt)} (hj : j ∉ l.map (·.1)) : ∀ ps,
    kvGet {} (l.foldl s.withDecided ps) j = kvGet {} ps j := by
  induction l with
  | nil => exact fun ps => rfl
  | cons e l ih =>
    intro ps
    rw [List.map_cons, List.mem_cons, not_or] at hj
    obtain ⟨hne, hl⟩ := hj
    rw [List.foldl_cons, ih hl, State.kvGet_withDecided_other hne]
/-- Once all pairs have decided each stands as its own decision says, where each is listed once. -/
theorem State.kvGet_foldl_withDecided {l : List (Nat × PairSt)} (hn : (l.map (·.1)).Nodup) : ∀ ps, (∀ e ∈ l, kvGet {} ps e.1 = e.2) →
    ∀ e ∈ l, kvGet {} (l.foldl s.withDecided ps) e.1 = s.decided e.1 e.2 := by
  induction l with
  | nil => exact fun ps _ e he => absurd he List.not_mem_nil
  | cons x l ih =>
    intro ps hps e he
    rw [List.map_cons, List.nodup_cons] at hn
    obtain ⟨hx, hl⟩ := hn
    rw [List.foldl_cons]
    rcases List.mem_cons.1 he with rfl | he
    · rw [State.kvGet_foldl_withDecided_other hx, State.kvGet_withDecided (hps _ List.mem_cons_self)]
    · refine ih hl _ (fun y hy => ?_) e he
      rw [State.kvGet_withDecided_other fun h => hx (List.mem_map.2 ⟨y, hy, h⟩)]
      exact hps y (List.mem_cons_of_mem _ hy)

-- What a pair decides (R334) ---------------------------------------------------------------------------------------

section
variable {k : Nat} {y : PairSt}

theorem State.decidePair_takes {u v : Nat} {g : Int} (hb : s.bestExchange (pairCells k).1 (pairCells k).2 y.inst = some (u, v, g))
    (hg : (s.regs.thr * 2 ^ y.h : Int) < g) : s.decidePair k y =
      some { y with phase := .freeze, a := u, b := v, whoA := s.whoIn (pairCells k).1 u, whoB := s.whoIn (pairCells k).2 v } := by
  simp only [State.decidePair, hb, if_pos hg]
theorem State.decidePair_none (h : ∀ u v g, s.bestExchange (pairCells k).1 (pairCells k).2 y.inst = some (u, v, g) → g ≤ (s.regs.thr * 2 ^ y.h : Int)) :
    s.decidePair k y = none := by
  simp only [State.decidePair]
  split
  · next a b g hb => exact if_neg (not_lt.2 (h a b g hb))
  · rfl
/-- An exchange that gains enough is taken to FREEZE. -/
theorem State.decided_takes {x : PairSt} (hp : y.phase = .eval) (h : s.decidePair k y = some x) :
    s.decided k y = x ∧ s.freezes k y = [⟨s.cycle + 1, ⟨.freeze, { n := k }⟩⟩] := by
  simp only [State.decided, State.freezes, hp, h, Option.getD_some, Option.isSome_some, and_self, if_true]
theorem State.decided_rests (hp : y.phase = .eval) (h : s.decidePair k y = none) : s.decided k y = ({ y with phase := .idle } : PairSt).rest := by
  simp only [State.decided, hp, h, Option.getD_none]
theorem State.decided_idle (hp : y.phase = .idle) : s.decided k y = y.rest := by simp only [State.decided, hp]
theorem State.decided_exchanging (hp : y.phase = .freeze ∨ y.phase = .mark ∨ y.phase = .copy) : s.decided k y = y := by
  rcases hp with hp | hp | hp <;> simp only [State.decided, hp]

end

theorem exec_swapEvalEnd_leaves : exec .swapEvalEnd s = .next { s with
    cells := s.cells.map fun e => (e.1, { e.2 with seats := e.2.seats.map Seat.halve }), evalSeats := [],
    pairs := s.pairs.foldl s.withDecided s.pairs, agenda := s.agenda ++ s.pairs.flatMap fun e => s.freezes e.1 e.2 } := by
  rw [exec_swapEvalEnd_eq]
  dsimp only
  rw [show s.pairs.foldl State.decideOne s = _ from s.foldl_decideOne_eq s.pairs s.pairs s.agenda]
theorem swapEvalEnd_happens : Happens s .swapEvalEnd fun t => t.cells = (s.cells.map fun e => (e.1, { e.2 with seats := e.2.seats.map Seat.halve })) ∧
    t.mem = s.mem ∧ t.actors = s.actors ∧ ((s.pairs.map (·.1)).Nodup → ∀ j y, (j, y) ∈ s.pairs →
      let best := s.bestExchange (pairCells j).1 (pairCells j).2 y.inst
      let z := kvGet ({} : PairSt) t.pairs j
      (∀ u v g, y.phase = .eval → best = some (u, v, g) → (s.regs.thr * 2 ^ y.h : Int) < g →
        z = { y with phase := .freeze, a := u, b := v, whoA := s.whoIn (pairCells j).1 u, whoB := s.whoIn (pairCells j).2 v } ∧ Awaits s t 1 .freeze { n := j }) ∧
      (y.phase = .eval → (∀ u v g, best = some (u, v, g) → g ≤ (s.regs.thr * 2 ^ y.h : Int)) → z = ({ y with phase := .idle } : PairSt).rest) ∧
      (y.phase = .idle → z = y.rest) ∧ (y.phase = .freeze ∨ y.phase = .mark ∨ y.phase = .copy → z = y)) := by
  refine ⟨_, exec_swapEvalEnd_leaves, rfl, rfl, rfl, fun hn j y hy => ?_⟩
  have hz : kvGet {} (s.pairs.foldl s.withDecided s.pairs) j = s.decided j y :=
    State.kvGet_foldl_withDecided hn s.pairs (fun e he => kvGet_of_mem hn he) (j, y) hy
  dsimp only
  rw [hz]
  refine ⟨fun u v g hp hb hg => ?_, fun hp h => State.decided_rests hp (State.decidePair_none h), State.decided_idle, State.decided_exchanging⟩
  obtain ⟨hd, hf⟩ := State.decided_takes hp (State.decidePair_takes hb hg)
  refine ⟨hd, List.mem_append_right _ (List.mem_flatMap.2 ⟨(j, y), hy, ?_⟩)⟩
  rw [hf]
  exact List.mem_singleton_self _

end

end Sys2Proof.Machine
end

