-- ==== Sys2Proof/Proofs/Exchanges.lean ====
section
/-! PROOFS. An exchange of two neighbouring seats (14 R307; 15 R334 to R337): FREEZE, MARK and EXCHANGE_COMMIT. -/

namespace Sys2Proof.Machine

-- Changes of the cells alone ---------------------------------------------------------------------------------------

theorem foldl_cells_eq {α : Type} {f : State → α → State} (hf : ∀ t x, ∃ cs, f t x = { t with cells := cs }) (l : List α) :
    ∀ s : State, ∃ cs, l.foldl f s = { s with cells := cs } := by
  induction l with
  | nil => exact fun s => ⟨s.cells, rfl⟩
  | cons x l ih =>
    intro s
    obtain ⟨cs, h⟩ := hf s x
    obtain ⟨cs', h'⟩ := ih (f s x)
    exact ⟨cs', by rw [List.foldl_cons, h', h]⟩

-- The two seats of an exchange (R335) ------------------------------------------------------------------------------

/-- The state of a pair of cells. -/
def State.pairAt (s : State) (k : Nat) : PairSt := kvGet {} s.pairs k
/-- The actors in the two seats of a pair's exchange. -/
def State.leftOf (s : State) (k : Nat) : Option Actor := s.inSeat (pairCells k).1 (s.pairAt k).a
def State.rightOf (s : State) (k : Nat) : Option Actor := s.inSeat (pairCells k).2 (s.pairAt k).b
def State.bothOf (s : State) (k : Nat) : List Actor := (s.leftOf k).toList ++ (s.rightOf k).toList
/-- Whether the actor of a seat may move, if there is one. -/
def State.seatMovable (s : State) (o : Option Actor) : Bool := match o with | some z => s.movable z | none => true

section
variable {s : State}

theorem State.seatMovable_iff {o : Option Actor} : s.seatMovable o = true ↔ ∀ z, o = some z → s.movable z = true := by
  cases o with
  | none => exact ⟨fun _ _ h => (nomatch h), fun _ => rfl⟩
  | some a => exact ⟨fun h z hz => Option.some.inj hz ▸ h, fun h => h a rfl⟩
theorem State.mem_bothOf {k : Nat} {z : Actor} (h : s.leftOf k = some z ∨ s.rightOf k = some z) : z ∈ s.bothOf k := by
  simpa [State.bothOf] using h

-- FREEZE (R335) ----------------------------------------------------------------------------------------------------

/-- An actor that has entered TRANSIT. -/
def Actor.inTransit (z : Actor) : Actor := { z with st := .transit }
/-- The actors of a list enter TRANSIT. -/
def State.freezeAll (s : State) (l : List Actor) : State := l.foldl (fun (t : State) z => t.setActor z.inTransit) s
theorem State.freezeAll_eq (l : List Actor) : ∀ s : State, ∃ as, s.freezeAll l = { s with actors := as } := by
  induction l with
  | nil => exact fun s => ⟨s.actors, rfl⟩
  | cons z l ih =>
    intro s
    obtain ⟨as, h⟩ := ih (s.setActor z.inTransit)
    exact ⟨as, h⟩
/-- An actor once in TRANSIT stays there while others follow. -/
theorem State.freezeAll_keeps {n : ActorName} (l : List Actor) : ∀ s : State, (s.actor n).st = .transit → ((s.freezeAll l).actor n).st = .transit := by
  induction l with
  | nil => exact fun _ h => h
  | cons z l ih =>
    intro s h
    refine ih (s.setActor z.inTransit) ?_
    by_cases hn : n = z.name
    · exact congrArg Actor.st (State.actor_setActor_of_name s (a := z.inTransit) hn.symm)
    · rwa [State.actor_setActor_other s z.inTransit n hn]
theorem State.freezeAll_transit {z : Actor} {l : List Actor} (hz : z ∈ l) : ∀ s : State, ((s.freezeAll l).actor z.name).st = .transit := by
  induction l with
  | nil => exact absurd hz List.not_mem_nil
  | cons x l ih =>
    intro s
    rcases List.mem_cons.1 hz with rfl | hz
    · refine State.freezeAll_keeps l (s.setActor z.inTransit) ?_
      exact congrArg Actor.st (State.actor_setActor s z.inTransit)
    · exact ih hz (s.setActor x.inTransit)

/-- The actors that the pair of `s.arg` chose still sit in its two seats and may move. -/
def SeatsHold (s : State) : Prop :=
  s.whoIn (pairCells s.arg.n).1 (s.pairAt s.arg.n).a = (s.pairAt s.arg.n).whoA ∧ s.whoIn (pairCells s.arg.n).2 (s.pairAt s.arg.n).b = (s.pairAt s.arg.n).whoB ∧
    (∀ z, s.leftOf s.arg.n = some z → s.movable z = true) ∧ ∀ z, s.rightOf s.arg.n = some z → s.movable z = true
theorem seatsHold_iff : SeatsHold s ↔ (s.whoIn (pairCells s.arg.n).1 (s.pairAt s.arg.n).a == (s.pairAt s.arg.n).whoA &&
    s.whoIn (pairCells s.arg.n).2 (s.pairAt s.arg.n).b == (s.pairAt s.arg.n).whoB && s.seatMovable (s.leftOf s.arg.n) && s.seatMovable (s.rightOf s.arg.n)) = true := by
  simp only [SeatsHold, Bool.and_eq_true, beq_iff_eq, State.seatMovable_iff, and_assoc]
/-- The pair of `s.arg` gives its exchange up. -/
def State.abandonExchange (s : State) : State := s.modPair s.arg.n fun y => ({ y with phase := .idle } : PairSt).rest

theorem exec_freeze_no_room (h : s.baseIn (s.leftOf s.arg.n) (pairCells s.arg.n).2 (s.rightOf s.arg.n) = none ∨
    s.baseIn (s.rightOf s.arg.n) (pairCells s.arg.n).1 (s.leftOf s.arg.n) = none) : exec .freeze s = .next s.abandonExchange := by
  show execFreeze s = _
  unfold execFreeze
  dsimp only
  split
  · next u v hu hv => exact absurd h (by rw [not_or]; exact ⟨fun h => (nomatch hu.symm.trans h), fun h => (nomatch hv.symm.trans h)⟩)
  · rfl

section
variable {u v : Nat} (hu : s.baseIn (s.leftOf s.arg.n) (pairCells s.arg.n).2 (s.rightOf s.arg.n) = some u)
  (hv : s.baseIn (s.rightOf s.arg.n) (pairCells s.arg.n).1 (s.leftOf s.arg.n) = some v)
include hu hv

theorem exec_freeze_room : exec .freeze s =
    if s.whoIn (pairCells s.arg.n).1 (s.pairAt s.arg.n).a == (s.pairAt s.arg.n).whoA && s.whoIn (pairCells s.arg.n).2 (s.pairAt s.arg.n).b == (s.pairAt s.arg.n).whoB &&
      s.seatMovable (s.leftOf s.arg.n) && s.seatMovable (s.rightOf s.arg.n) then
      .next (((s.freezeAll (s.bothOf s.arg.n)).modPair s.arg.n fun y => { y with phase := .mark }).post 1 .mark { n := s.arg.n, nats := [u, v] })
    else .next s.abandonExchange := by
  unfold State.leftOf State.rightOf State.pairAt at hu hv
  show execFreeze s = _
  unfold execFreeze
  dsimp only
  rw [hu, hv]
  rfl
theorem freeze_freezes (h : SeatsHold s) : Happens s .freeze fun t => kvGet ({} : PairSt) t.pairs s.arg.n = { s.pairAt s.arg.n with phase := .mark } ∧
    Awaits s t 1 .mark { n := s.arg.n, nats := [u, v] } ∧ t.mem = s.mem ∧
    ∀ z, s.leftOf s.arg.n = some z ∨ s.rightOf s.arg.n = some z → (t.actor z.name).st = .transit := by
  obtain ⟨as, has⟩ := State.freezeAll_eq (s.bothOf s.arg.n) s
  have htransit : ∀ z, s.leftOf s.arg.n = some z ∨ s.rightOf s.arg.n = some z → ((s.freezeAll (s.bothOf s.arg.n)).actor z.name).st = .transit :=
    fun z hz => State.freezeAll_transit (State.mem_bothOf hz) s
  have hx := (exec_freeze_room hu hv).trans (if_pos (seatsHold_iff.1 h))
  rw [has] at hx htransit
  exact ⟨_, hx, kvGet_kvSet_same _ _ _ _, awaits_post rfl _ _ _, rfl, htransit⟩

end

/-- Other actors in its seats, ones that may not move, or no room for a region end an exchange at FREEZE. -/
theorem exec_freeze_abandons (h : s.baseIn (s.leftOf s.arg.n) (pairCells s.arg.n).2 (s.rightOf s.arg.n) = none ∨
    s.baseIn (s.rightOf s.arg.n) (pairCells s.arg.n).1 (s.leftOf s.arg.n) = none ∨ ¬ SeatsHold s) : exec .freeze s = .next s.abandonExchange := by
  cases hu : s.baseIn (s.leftOf s.arg.n) (pairCells s.arg.n).2 (s.rightOf s.arg.n) with
  | none => exact exec_freeze_no_room (.inl hu)
  | some u =>
    cases hv : s.baseIn (s.rightOf s.arg.n) (pairCells s.arg.n).1 (s.leftOf s.arg.n) with
    | none => exact exec_freeze_no_room (.inr hv)
    | some v =>
      have hseats : ¬ SeatsHold s := (h.resolve_left (by rw [hu]; nofun)).resolve_left (by rw [hv]; nofun)
      rw [seatsHold_iff] at hseats
      exact (exec_freeze_room hu hv).trans (if_neg hseats)

-- MARK (R335; 14 R307) ---------------------------------------------------------------------------------------------

theorem foldl_max_sizes (o w : Option Actor) : ((o.toList ++ w.toList).map regionSize).foldl max 0 = max (o.elim 0 regionSize) (w.elim 0 regionSize) := by
  cases o <;> cases w <;> simp
/-- The names of a list's actors forgotten by every network interface. -/
def State.forgetAll (s : State) (l : List Actor) : State := l.foldl (fun (t : State) z => t.forgetName z.name) s
theorem State.forgetAll_eq (s : State) (l : List Actor) : ∃ cs, s.forgetAll l = { s with cells := cs } :=
  foldl_cells_eq (fun _ _ => ⟨_, rfl⟩) l s
theorem State.cell_forgetName (s : State) (n : ActorName) (c : Nat) : (s.forgetName n).cell c = (s.cell c).forget n :=
  State.cell_mapCells s (f := Cell.forget n) rfl c
theorem State.forgetAll_ncache (l : List Actor) (c : Nat) : ∀ s : State,
    ((s.forgetAll l).cell c).ncache = (s.cell c).ncache.filter fun m => l.all fun z => m != z.name := by
  induction l with
  | nil => exact fun s => (List.filter_eq_self.2 fun _ _ => rfl).symm
  | cons z l ih =>
    intro s
    refine (ih (s.forgetName z.name)).trans ?_
    rw [State.cell_forgetName, Cell.forget, List.filter_filter]
    simp only [List.all_cons, Bool.and_comm]
theorem State.not_mem_forgetAll {l : List Actor} {z : Actor} (hz : z ∈ l) (c : Nat) : z.name ∉ ((s.forgetAll l).cell c).ncache := by
  rw [State.forgetAll_ncache, List.mem_filter]
  rintro ⟨-, hall⟩
  exact absurd (List.all_eq_true.1 hall z hz) (by simp)
theorem exec_mark_eq : exec .mark s = .next (((s.forgetAll (s.bothOf s.arg.n)).modPair s.arg.n fun y => { y with phase := .copy }).post
    (((s.bothOf s.arg.n).map regionSize).foldl max 0 / 256) .exchangeCommit (s.forgetAll (s.bothOf s.arg.n)).arg) := rfl
theorem mark_happens : Happens s .mark fun t => kvGet ({} : PairSt) t.pairs s.arg.n = { s.pairAt s.arg.n with phase := .copy } ∧ t.mem = s.mem ∧ t.actors = s.actors ∧
    Awaits s t (max ((s.leftOf s.arg.n).elim 0 regionSize) ((s.rightOf s.arg.n).elim 0 regionSize) / 256) .exchangeCommit s.arg ∧
    ∀ z c, s.leftOf s.arg.n = some z ∨ s.rightOf s.arg.n = some z → z.name ∉ (t.cell c).ncache := by
  obtain ⟨cs, hcs⟩ := s.forgetAll_eq (s.bothOf s.arg.n)
  have hgone : ∀ z c, s.leftOf s.arg.n = some z ∨ s.rightOf s.arg.n = some z → z.name ∉ ((s.forgetAll (s.bothOf s.arg.n)).cell c).ncache :=
    fun z c hz => State.not_mem_forgetAll (State.mem_bothOf hz) c
  have hx := exec_mark_eq (s := s)
  rw [State.bothOf, foldl_max_sizes, ← State.bothOf, hcs] at hx
  rw [hcs] at hgone
  exact ⟨_, hx, kvGet_kvSet_same _ _ _ _, rfl, rfl, awaits_post rfl _ _ _, hgone⟩

end

end Sys2Proof.Machine
end

