-- ==== Sys2Proof/Proofs/ExchangeCommit.lean ====
section
/-! PROOFS. EXCHANGE_COMMIT (15 R334, R335, R337): the seats change hands, the pair records the exchange, and what waited for the actors goes on. -/

namespace Sys2Proof.Machine

section
variable {s : State}

-- What waited for a moving actor (R337) ----------------------------------------------------------------------------

theorem foldl_release_held_eq (l : List Held) : ∀ s : State, ∃ ag,
    l.foldl (fun (t : State) h => { t with agenda := t.agenda ++ [⟨t.cycle, h.ev⟩] }) s = { s with agenda := ag } := by
  induction l with
  | nil => exact fun s => ⟨s.agenda, rfl⟩
  | cons h l ih =>
    intro s
    obtain ⟨ag, hag⟩ := ih { s with agenda := s.agenda ++ [⟨s.cycle, h.ev⟩] }
    exact ⟨ag, hag⟩
theorem State.unhold_eq (s : State) (n : ActorName) : ∃ ag he, s.unhold n = { s with agenda := ag, held := he } := by
  unfold State.unhold
  dsimp only
  split
  · exact ⟨_, _, rfl⟩
  · obtain ⟨ag, h⟩ := foldl_release_held_eq (s.held.filter fun h => h.actor == n) { s with held := s.held.filter fun h => h.actor != n }
    exact ⟨ag, _, h⟩
/-- The notice that a halted actor's debugger waits for has been given. -/
def State.haltAnswered (s : State) (n : ActorName) : State :=
  if (s.actor n).dbg.stop && (s.actor n).dbg.tok != 0 then
    (s.answer (s.actor n).dbg.dbgn (s.actor n).dbg.tok 0 false).modActor n fun b => { b with dbg := { b.dbg with tok := 0 } }
  else s
theorem State.leaveTransit_def (s : State) (n : ActorName) : s.leaveTransit n = (s.haltAnswered n).unhold n := rfl
theorem State.haltAnswered_eq (s : State) (n : ActorName) : ∃ au as, s.haltAnswered n = { s with audits := au, actors := as } := by
  unfold State.haltAnswered
  split
  · obtain ⟨au, as, h⟩ := s.answer_eq (s.actor n).dbg.dbgn (s.actor n).dbg.tok 0 false
    obtain ⟨as', h'⟩ := State.modActor_eq (s.answer (s.actor n).dbg.dbgn (s.actor n).dbg.tok 0 false) n fun b => { b with dbg := { b.dbg with tok := 0 } }
    exact ⟨au, as', by rw [h', h]⟩
  · exact ⟨_, _, rfl⟩
theorem State.leaveTransit_eq (s : State) (n : ActorName) : ∃ au as ag he,
    s.leaveTransit n = { s with audits := au, actors := as, agenda := ag, held := he } := by
  obtain ⟨au, as, h⟩ := s.haltAnswered_eq n
  obtain ⟨ag, he, h'⟩ := (s.haltAnswered n).unhold_eq n
  exact ⟨au, as, ag, he, by rw [State.leaveTransit_def, h', h]⟩
theorem State.foldl_leaveTransit_eq (l : List ActorName) : ∀ s : State, ∃ au as ag he,
    l.foldl State.leaveTransit s = { s with audits := au, actors := as, agenda := ag, held := he } := by
  induction l with
  | nil => exact fun s => ⟨_, _, _, _, rfl⟩
  | cons n l ih =>
    intro s
    obtain ⟨_, _, _, _, h⟩ := s.leaveTransit_eq n
    obtain ⟨au, as, ag, he, h'⟩ := ih (s.leaveTransit n)
    exact ⟨au, as, ag, he, by rw [List.foldl_cons, h', h]⟩

/-- Where an actor stands, and in what state of its life. -/
def Actor.place (a : Actor) : Nat × Nat × Nat × ActState := (a.cell, a.seat, a.base, a.st)
theorem State.place_modActor {n m : ActorName} {f : Actor → Actor} (hf : ∀ a, (f a).place = a.place) :
    ((s.modActor n f).actor m).place = (s.actor m).place := by
  by_cases hm : m = n
  · subst hm
    cases hh : s.has m with
    | true => rw [State.actor_modActor f hh]; exact hf _
    | false => rw [State.modActor_of_not_has f hh]
  · rw [State.actor_modActor_other s f hm]
theorem State.place_leaveTransit (s : State) (n m : ActorName) : ((s.leaveTransit n).actor m).place = (s.actor m).place := by
  obtain ⟨_, _, h⟩ := (s.haltAnswered n).unhold_eq n
  have hactors : (s.leaveTransit n).actors = (s.haltAnswered n).actors := by rw [State.leaveTransit_def, h]
  rw [State.actor_of_actors_eq hactors]
  unfold State.haltAnswered
  split
  · refine (State.place_modActor ?_).trans (State.place_modActor (s := { s with audits := _ }) ?_)
    · exact fun _ => rfl
    · exact fun _ => rfl
  · rfl
/-- What waited for an actor does not move it as it goes on. -/
theorem State.StandsAt.leaveTransit {a : Actor} {p : Spot} {bs : List Byte} (h : s.StandsAt a p bs) (n : ActorName) : (s.leaveTransit n).StandsAt a p bs := by
  obtain ⟨hcell, hseat, hbase, hst, hbytes⟩ := h
  obtain ⟨_, _, _, _, hkeep⟩ := s.leaveTransit_eq n
  obtain ⟨hc, hs, hb, hl⟩ : _ ∧ _ ∧ _ ∧ _ := by simpa only [Actor.place, Prod.mk.injEq] using s.place_leaveTransit n a.name
  refine ⟨hc.trans hcell, hs.trans hseat, hb.trans hbase, by rwa [hl], ?_⟩
  rw [hkeep]
  exact hbytes

-- The seats change hands (R335) ------------------------------------------------------------------------------------

theorem State.foldl_vacate_eq (s : State) (l : List Actor) : ∃ cs, l.foldl State.vacate s = { s with cells := cs } :=
  foldl_cells_eq (fun _ _ => ⟨_, rfl⟩) l s
/-- A seat's cooldown starts at the instant. -/
def State.coolSeat (s : State) (c k : Nat) : State := s.modCell c fun e => { e with seats := modAt e.seats k fun st => { st with cool := some s.regs.inst } }
/-- Both actors of pair `k` taken from their seats, which cool down. -/
def State.seatsEmptied (s : State) (k : Nat) : State :=
  (((s.bothOf k).foldl State.vacate s).coolSeat (pairCells k).1 (s.pairAt k).a).coolSeat (pairCells k).2 (s.pairAt k).b
/-- An actor that moves, if there is one, put down with its things at instant `i`. -/
def State.putSeat (s : State) (o : Option Actor) (l : Option Lifted) (p : Spot) (i : Nat) : State :=
  match o, l with
  | some a, some l => s.putDown a p l (some i)
  | _, _ => s
/-- The actors of pair `k` in each other's seats. -/
def State.swapped (s : State) (k : Nat) : State :=
  let v := s.seatsEmptied k
  let u := v.putSeat (s.leftOf k) ((s.leftOf k).map s.lift) { cell := (pairCells k).2, seat := (s.pairAt k).b, base := v.arg.nats.getD 0 0 } v.regs.inst
  u.putSeat (s.rightOf k) ((s.rightOf k).map s.lift) { cell := (pairCells k).1, seat := (s.pairAt k).a, base := u.arg.nats.getD 1 0 } v.regs.inst
/-- An exchange of pair `k`, which stood at `x`, recorded. -/
def State.recordExchange (s : State) (k : Nat) (x : PairSt) (na nb : ActorName) : State :=
  let u := s.modPair k fun y => { y with phase := .idle, quiet := 0, h := if x.putsBack na nb then min (y.h + 1) 4 else y.h, prevA := na, prevB := nb, prevI := some x.inst }
  { u with regs := { u.regs with xchg := min (u.regs.xchg + 1) 0xFFFF, rev := if x.putsBack na nb && x.h < 4 then min (u.regs.rev + 1) 0xFFFF else u.regs.rev } }

/-- The exchange of `s.arg` made and recorded, before anything that waited for its actors goes on. -/
def State.exchanged (s : State) : State :=
  (s.swapped s.arg.n).recordExchange s.arg.n (s.pairAt s.arg.n) (s.whoIn (pairCells s.arg.n).1 (s.pairAt s.arg.n).a) (s.whoIn (pairCells s.arg.n).2 (s.pairAt s.arg.n).b)

theorem exec_exchangeCommit_eq : exec .exchangeCommit s = .next (((s.bothOf s.arg.n).map (·.name)).foldl State.leaveTransit s.exchanged) := rfl
theorem State.whoIn_eq (c k : Nat) : s.whoIn c k = (s.inSeat c k).elim 0 Actor.name := by
  unfold State.whoIn
  cases s.inSeat c k <;> rfl
theorem State.seatsEmptied_eq (s : State) (k : Nat) : ∃ cs, s.seatsEmptied k = { s with cells := cs } := by
  obtain ⟨cs, h⟩ := s.foldl_vacate_eq (s.bothOf k)
  rw [State.seatsEmptied, h]
  exact ⟨_, rfl⟩
theorem State.putSeat_keeps (s : State) (o : Option Actor) (l : Option Lifted) (p : Spot) (i : Nat) :
    (s.putSeat o l p i).pairs = s.pairs ∧ (s.putSeat o l p i).regs = s.regs := by
  unfold State.putSeat
  split
  · next a l =>
    obtain ⟨u, hput, -, -, hpairs, hregs⟩ := s.putDown_eq a p l (some i)
    obtain ⟨_, href⟩ := u.refresh_eq a.name
    rw [hput, href]
    exact ⟨hpairs, hregs⟩
  · exact ⟨rfl, rfl⟩
@[simp] theorem State.putSeat_pairs (s : State) (o : Option Actor) (l : Option Lifted) (p : Spot) (i : Nat) : (s.putSeat o l p i).pairs = s.pairs :=
  (s.putSeat_keeps o l p i).1
@[simp] theorem State.putSeat_regs (s : State) (o : Option Actor) (l : Option Lifted) (p : Spot) (i : Nat) : (s.putSeat o l p i).regs = s.regs :=
  (s.putSeat_keeps o l p i).2
/-- Seats that change hands leave the pairs and the registers alone. -/
theorem State.swapped_keeps (s : State) (k : Nat) : (s.swapped k).pairs = s.pairs ∧ (s.swapped k).regs = s.regs := by
  obtain ⟨_, hempty⟩ := s.seatsEmptied_eq k
  exact ⟨by simp only [State.swapped, hempty, State.putSeat_pairs], by simp only [State.swapped, hempty, State.putSeat_regs]⟩
/-- An actor that moves to an empty seat stands there, with the bytes that it had. -/
theorem State.swapped_stands {k : Nat} {y : Actor} (hl : s.leftOf k = some y) (hr : s.rightOf k = none) (hroam : y.roaming = false) (hw : Memory.wf s.mem = true) :
    (s.swapped k).StandsAt y { cell := (pairCells k).2, seat := (s.pairAt k).b, base := s.arg.nats.getD 0 0 } (s.bytes (regionKey y) (regionSize y)) := by
  obtain ⟨cs, hempty⟩ := s.seatsEmptied_eq k
  have hone : s.swapped k = ({ s with cells := cs } : State).putDown y { cell := (pairCells k).2, seat := (s.pairAt k).b, base := s.arg.nats.getD 0 0 }
      (s.lift y) (some s.regs.inst) := by
    rw [State.swapped, hempty, hl, hr]
    rfl
  rw [hone, ← s.lift_bs y]
  exact State.putDown_stands hw hroam (by rw [s.lift_bs y, State.bytes_length _ _ hw])

-- EXCHANGE_COMMIT --------------------------------------------------------------------------------------------------

theorem PairSt.putsBack_iff {x : PairSt} {na nb : ActorName} :
    x.putsBack na nb = true ↔ na = x.prevB ∧ nb = x.prevA ∧ ∃ i, x.prevI = some i ∧ (x.inst + 2 ^ 32 - i) % 2 ^ 32 ≤ 16 := by
  unfold PairSt.putsBack
  cases x.prevI with
  | none => simp
  | some i => simp [and_assoc]
theorem State.recordExchange_regs (s : State) (k : Nat) (x : PairSt) (na nb : ActorName) : (s.recordExchange k x na nb).regs =
    { s.regs with xchg := min (s.regs.xchg + 1) 0xFFFF, rev := if x.putsBack na nb = true ∧ x.h < 4 then min (s.regs.rev + 1) 0xFFFF else s.regs.rev } := by
  simp only [State.recordExchange, Bool.and_eq_true, decide_eq_true_eq]
  rfl
theorem State.pairAt_of_pairs_eq {t : State} (h : t.pairs = s.pairs) (k : Nat) : t.pairAt k = s.pairAt k := by
  rw [State.pairAt, h]
  rfl
theorem State.StandsAt.recordExchange {a : Actor} {p : Spot} {bs : List Byte} (h : s.StandsAt a p bs) (k : Nat) (x : PairSt) (na nb : ActorName) :
    (s.recordExchange k x na nb).StandsAt a p bs := h
theorem State.recordExchange_pair {k : Nat} {x : PairSt} (na nb : ActorName) (h : s.pairAt k = x) : (s.recordExchange k x na nb).pairAt k =
    { x with phase := .idle, quiet := 0, h := if x.putsBack na nb then min (x.h + 1) 4 else x.h, prevA := na, prevB := nb, prevI := some x.inst } := by
  subst h
  exact kvGet_kvSet_same _ _ _ _

section
variable {na nb : ActorName} (ha : s.whoIn (pairCells s.arg.n).1 (s.pairAt s.arg.n).a = na) (hb : s.whoIn (pairCells s.arg.n).2 (s.pairAt s.arg.n).b = nb)
include ha hb

/-- The exchange stands in its pair, whose level it raises when it undoes the pair's last, and in the counters. -/
theorem exchangeCommit_happens {back : Bool} (hback : (s.pairAt s.arg.n).putsBack na nb = back) : Happens s .exchangeCommit fun t => let x := s.pairAt s.arg.n
    t.pairAt s.arg.n = { x with phase := .idle, quiet := 0, h := if back then min (x.h + 1) 4 else x.h, prevA := na, prevB := nb, prevI := some x.inst } ∧
    t.regs = { s.regs with xchg := min (s.regs.xchg + 1) 0xFFFF, rev := if back = true ∧ x.h < 4 then min (s.regs.rev + 1) 0xFFFF else s.regs.rev } ∧
    ∀ y, s.leftOf s.arg.n = some y → s.rightOf s.arg.n = none → y.roaming = false → Memory.wf s.mem = true →
      t.StandsAt y { cell := (pairCells s.arg.n).2, seat := x.b, base := s.arg.nats.getD 0 0 } (s.bytes (regionKey y) (regionSize y)) := by
  subst ha hb hback
  obtain ⟨hpairs, hregs⟩ := s.swapped_keeps s.arg.n
  obtain ⟨_, _, _, _, hgo⟩ := State.foldl_leaveTransit_eq ((s.bothOf s.arg.n).map (·.name)) s.exchanged
  refine ⟨_, exec_exchangeCommit_eq, ?_, ?_, fun y hl hr hroam hw => ?_⟩
  · rw [hgo]
    exact State.recordExchange_pair _ _ (State.pairAt_of_pairs_eq hpairs _)
  · rw [hgo, ← hregs]
    exact State.recordExchange_regs _ _ _ _ _
  · have hone : s.bothOf s.arg.n = [y] := by
      rw [State.bothOf, hl, hr]
      rfl
    rw [hone]
    exact ((State.swapped_stands hl hr hroam hw).recordExchange _ _ _ _).leaveTransit y.name

end

end

end Sys2Proof.Machine
end

