-- ==== Sys2Proof/Proofs/PlacementEvents.lean ====
section
/-! PROOFS. O51, contexts, pre-emption and Azimuth's exchanges (14 R307, R309, R311, R313, R323; 15 R331, R332, R334 to R337, R339). -/

open Sys2Proof Sys2Proof.Machine

/-- Settles O51: each clause is the equation of its event for one way that it can go, or what that way leaves. The retry of PREEMPT and UNPARK after
64 cycles is log 39's, instants that go on with `en` 0 are log 47's. -/
theorem placementEvents : Obligations.PlacementEvents := by
  unfold Obligations.PlacementEvents
  intro s n a k x p q A B slot comes
  refine ⟨contextFetch_ends, fun h hn => ⟨fun j hv => exec_contextFetch_slot h hv, fun j m hv hm hh => contextFetch_evicts h hn hv hm hh, exec_contextFetch_waits h⟩,
    exec_roamingOffer_over, fun h hr ho => ⟨roamingOffer_open ⟨h, hr, ho⟩, roamingOffer_closed ⟨h, hr, ho⟩⟩, ?preempts, exec_unpark_other, ?unparks,
    swapInstant_happens, swapEvalEnd_happens, ⟨?abandons, fun u v hu hv hwa hwb ha hb => freeze_freezes hu hv ⟨hwa, hwb, ha, hb⟩⟩, mark_happens, ?commits⟩
  case preempts =>
    intro hf hd d
    refine ⟨fun hs hv => exec_preempt_empty hf hv hs, fun y hs hv hshadow hboot hjob => ⟨fun hst => ?_, fun hst hu hstop hr => ?_⟩⟩
    · have hm : s.draining.mustLeave y = true := State.mustLeave_of_job hshadow hboot hjob (.inr (.inr hst))
      exact exec_preempt_retries hf hv hs hm (State.not_mayLeave hst)
    · have hm : s.draining.mustLeave y = true := State.mustLeave_of_job hshadow hboot hjob (hst.imp_right .inl)
      have hx := exec_preempt_leaves hf hv hs hm (State.mayLeave_between hst hu hstop) hd
      refine ⟨fun l hl => hx.trans (congrArg _ (State.leave_to (s := s.draining) hd hl)),
        fun hl hw _ => ⟨_, hx.trans (congrArg _ (State.leave_nowhere (s := s.draining) hd hl hr)), ?_⟩⟩
      exact State.park_parks (s := s.draining) hw
  case unparks =>
    intro hh hst hn
    have h : Unparks s := ⟨hh, hst⟩
    refine ⟨exec_unpark_asks h, exec_unpark_waits h, fun l hd hl hr hg hw => ⟨_, exec_unpark_moves h hd hl, ?_⟩⟩
    obtain ⟨hcell, hseat, hbase, hbetween, hbytes⟩ := State.relocate_parked hst hr hg hw
    rw [hn] at hcell hseat hbase hbetween hbytes
    exact ⟨hcell, hseat, hbase, hbetween, hbytes⟩
  case abandons =>
    rintro (h | h | h | h | h | h)
    · exact exec_freeze_abandons (.inl h)
    · exact exec_freeze_abandons (.inr (.inl h))
    · exact exec_freeze_abandons (.inr (.inr fun ⟨hwa, _⟩ => h hwa))
    · exact exec_freeze_abandons (.inr (.inr fun ⟨_, hwb, _⟩ => h hwb))
    · exact exec_freeze_abandons (.inr (.inr fun ⟨_, _, ha, _⟩ => h ha))
    · exact exec_freeze_abandons (.inr (.inr fun ⟨_, _, _, hb⟩ => h hb))
  case commits =>
    intro na nb back hback
    have hputs : x.putsBack na nb = back := Bool.eq_iff_iff.2 (PairSt.putsBack_iff.trans hback.symm)
    obtain ⟨t, hx, hpair, hregs, hstands⟩ := exchangeCommit_happens (State.whoIn_eq p x.a) (State.whoIn_eq q x.b) hputs
    exact ⟨t, hx, hpair, hregs, fun y hl hr hroam _ hw => hstands y hl hr hroam hw⟩
end
